-- ==== Sys2Proof/Word.lean ====
section
/-! DEFINITION. The word types of the CF-2430: bytes of the window and of the line, 16-bit fields, 32-bit registers and line clock readings. -/

namespace Sys2Proof

/-- A byte of the shared window, of a journal page or of the line. -/
abbrev Byte := BitVec 8

/-- A 16-bit field: a tag, an interval, the swap count. -/
abbrev Half := BitVec 16

/-- A 32-bit value: a register, a line clock reading (R180). -/
abbrev Word := BitVec 32

end Sys2Proof
end

