-- ==== Sys2Proof/Syntax.lean ====
section
/-! DEFINITION. The commands of the CF-2430: one constructor for each row of spec/opcode_table.json, in the table's order.
Operands are what the row's event brings from outside the part: a register value, the bytes a read returned, the bytes of a frame,
the name of the unit, entry or transaction whose time has come. A take row carries the 128 bytes of the slot as read (R114);
a frame row carries the bytes that follow the header check byte; `performed` counts the accesses the Window Port had performed
when the event cut it short (notes/assumptions/5.md). -/

namespace Sys2Proof

inductive Instr where
  /-- START (R169) -/
  | start
  /-- STOP (R172) -/
  | stop
  /-- HALT (R176) -/
  | halt (performed : Nat)
  /-- RESET (R178) -/
  | reset (performed : Nat)
  /-- UNKNOWN_COMMAND (R168) -/
  | unknownCommand (value : Word)
  /-- WINBASE (R165) -/
  | winbase (value : Word)
  /-- NUDGE (R112) -/
  | nudge (value : Word)
  /-- SVCPEND (R181) -/
  | svcpend (value : Word)
  /-- SVCEN (R182) -/
  | svcen (value : Word)
  /-- REGISTER_WRITE (R165) -/
  | registerWrite (offset : Nat) (value : Word)
  /-- PIN_RESET (R179) -/
  | pinReset (performed : Nat)
  /-- BUS_ERROR (R175) -/
  | busError (performed : Nat)
  /-- HEADER_CHECKS (R170): the 64 bytes of the header -/
  | headerChecks (bytes : List Byte)
  /-- RESTARTED (R127): the 64 state bytes -/
  | restarted (states : List Byte)
  /-- ENTRY_INTO_RUNNING (R171) -/
  | entryIntoRunning
  /-- SWEEP_TIMER (R112) -/
  | sweepTimer
  /-- SWEEP (R113): the 64 state bytes -/
  | sweep (states : List Byte)
  /-- ENROLL (R42) -/
  | enroll (slot : List Byte)
  /-- DISMISS (R44) -/
  | dismiss (slot : List Byte)
  /-- HOLD (R53) -/
  | hold (slot : List Byte)
  /-- DECLARE (R16) -/
  | declare (slot : List Byte)
  /-- RETIRE (R19) -/
  | retire (slot : List Byte)
  /-- CLEAR (R21) -/
  | clear (slot : List Byte)
  /-- TRANSACT (R84) -/
  | transact (slot : List Byte)
  /-- SYNC (R100) -/
  | sync (slot : List Byte)
  /-- ABORT (R102) -/
  | abort (slot : List Byte)
  /-- LEND (R155) -/
  | lend (slot : List Byte)
  /-- CUT (R159) -/
  | cut (slot : List Byte)
  /-- BAD_KIND (R115) -/
  | badKind (slot : List Byte)
  /-- DONE_WRITE_PERFORMED (R122) -/
  | doneWritePerformed (slot : Nat)
  /-- TURN_CHOICE (R79) -/
  | turnChoice
  /-- POLL_DUE (R76) -/
  | pollDue (unit : Nat)
  /-- ROLL_CALL_DUE (R77) -/
  | rollCallDue (unit : Nat)
  /-- NOT_IDLE (R65) -/
  | notIdle
  /-- COMMITMENT (R80) -/
  | commitment
  /-- HEAD_FRAME_SENT (R64) -/
  | headFrameSent
  /-- READBACK (R66): the bytes received on LRX while the head frame goes out, the last of them the one compared now, and whether its
  stop bit was low -/
  | readback (received : List Byte × Bool)
  /-- REPLY_WINDOW_EXPIRY (R64) -/
  | replyWindowExpiry
  /-- FRAME_HEADER (R73): the bytes up to the header check byte or the fault, and whether a stop bit among them was low -/
  | frameHeader (bytes : List Byte) (stopLow : Bool)
  /-- BYTE_GAP (R62) -/
  | byteGap
  /-- REPORT (R6) -/
  | report (bytes : List Byte)
  /-- END (R68) -/
  | endFrame
  /-- REPLY (R69) -/
  | reply (bytes : List Byte)
  /-- REFUSE (R69) -/
  | refuse (bytes : List Byte)
  /-- DEFER (R69) -/
  | defer
  /-- RESULT (R93) -/
  | result (bytes : List Byte)
  /-- ANNOUNCE (R33) -/
  | announce (bytes : List Byte)
  /-- GARBLED (R71): the bytes after the header check byte, and whether a stop bit among them was low -/
  | garbled (bytes : List Byte) (stopLow : Bool)
  /-- GAP_LIMIT (R64) -/
  | gapLimit
  /-- LINE_FAULT_END (R67) -/
  | lineFaultEnd
  /-- SETTLE_TIMER_EXPIRY (R51) -/
  | settleTimerExpiry (unit : Nat)
  /-- STALE_TIMER_EXPIRY (R5) -/
  | staleTimerExpiry (entry : Nat)
  /-- DEADLINE_EXPIRY (R96): the transaction, by its take sequence -/
  | deadlineExpiry (seq : Nat)
  /-- DEFER_EXPIRY (R92): the transaction, by its take sequence -/
  | deferExpiry (seq : Nat)
  /-- RESERVATION_EXPIRY (R89) -/
  | reservationExpiry (unit token : Nat)
  /-- SYNC_DEADLINE (R101): the SYNC, by its take sequence -/
  | syncDeadline (seq : Nat)
  /-- FLUSH_TIMER_EXPIRY (R158) -/
  | flushTimerExpiry
  /-- DRAIN_TIMER (R172) -/
  | drainTimer
  /-- ENTRY_INTO_STOPPED (R173) -/
  | entryIntoStopped
  /-- BANK_UPDATE (R153) -/
  | bankUpdate
  /-- BANK_BIT_WRITTEN (R153) -/
  | bankBitWritten
  /-- FAULT_RECORD_WRITTEN (R163) -/
  | faultRecordWritten
  /-- QUEUE_ROOM (R174) -/
  | queueRoom
  /-- FRAME_BEGINS (R64) -/
  | frameBegins
  /-- PROTOCOL_ERROR_FRAME_END (R72) -/
  | protocolErrorFrameEnd
  /-- LINE_ACTIVITY (R67) -/
  | lineActivity
  /-- PASSED_OVER (R114): the state byte read with the slot -/
  | passedOver (state : Byte)
  deriving DecidableEq, Repr

end Sys2Proof
end

