-- ==== Sys2Proof/Decode.lean ====
section
/-! DEFINITION. The commands a word spells. No row of spec/opcode_table.json gives bits, so no word spells a command; the nine registers do spell the
commands that their writes are (R165, R184). -/

namespace Sys2Proof

/-- The command that the word `w` of `nbits` bits spells by the table's bits: none, for the table gives no row any bits. -/
def decodeTableWord (_nbits _w : Nat) : Option Instr := none

/-- R168, R184: the command that a write of `value` to CONTROL is, by its bits 7 to 0; `performed` is the operand of HALT and RESET. -/
def controlCommand (value : Word) (performed : Nat) : Instr :=
  if value.setWidth 8 = 0x01#8 then .start
  else if value.setWidth 8 = 0x02#8 then .stop
  else if value.setWidth 8 = 0x03#8 then .halt performed
  else if value.setWidth 8 = 0x04#8 then .reset performed
  else .unknownCommand value

/-- R165, R184: the command that a write of `value` to the register at `offset` is; none where no register stands. -/
def registerCommand (offset : Nat) (value : Word) (performed : Nat) : Option Instr :=
  if offset = 0x04 then some (controlCommand value performed)
  else if offset = 0x0C then some (.winbase value)
  else if offset = 0x10 then some (.nudge value)
  else if offset = 0x14 then some (.svcpend value)
  else if offset = 0x18 then some (.svcen value)
  else if offset = 0x00 ∨ offset = 0x08 ∨ offset = 0x1C ∨ offset = 0x20 then some (.registerWrite offset value)
  else none

end Sys2Proof
end

