-- ==== Sys2Proof/Config.lean ====
section
/-! DEFINITION. What one CF-2430 fixes: its capacities (R151) and the constants of its layouts (R184 to R188). The spec leaves no result of a step undefined, so no free value stands here. -/

namespace Sys2Proof.Config

/-- R165: part code 2430h, window layout version 01h, revision 01h. -/
def ident : Word := 0x24300101

/-- R169: the largest window base whose 24 KiB lie in the 40-bit space. -/
def maxWindowBase : Nat := 0x0FFFFFFA

/-- R170: the header's signature. -/
def signature : Word := 0x43465631

/-- R185: the size of the shared window. -/
def windowSize : Nat := 24576

/-- R109: the slots of the board. -/
def slotCount : Nat := 64

/-- R1: the entry numbers of the directory. -/
def entryCount : Nat := 192

/-- R83: the transaction records of the pool. -/
def poolSize : Nat := 96

/-- R83: the transactions of one unit's queue. -/
def queueDepth : Nat := 8

/-- R155: the pages that may be lent at one time. -/
def lentPages : Nat := 8

/-- R163: the records of the fault log ring. -/
def ringSize : Nat := 32

/-- R174: the accesses the write queue holds. -/
def writeQueueSize : Nat := 32

/-- R174: the accesses the read queue holds. -/
def readQueueSize : Nat := 8

/-- R155: the bytes a page head takes. -/
def pageHeadSize : Nat := 32

end Sys2Proof.Config
end

