-- ==== Sys2Proof/Machine/State.lean ====
section
/-! DEFINITION. The state of the CF-2430 as plain data: one structure for each of the nine blocks of 00_scope.md, holding what that
block owns, the host memory as the part's writes have left it, and the queue of commands that wait. -/

namespace Sys2Proof.Machine

/-! ## Names of the spec's enumerated values (codes: R192) -/

/-- R166, R167. -/
inductive PartState where
  | idle | starting | running | draining | stopped | halted
  deriving DecidableEq, Repr

/-- R166. -/
inductive HaltCause where
  | noCause | hostHalt | busError | windowInvalid
  deriving DecidableEq, Repr

/-- Which answer a START is waiting for (R169 to R171): the header, the 64 state bytes, or the writes to be performed. -/
inductive StartPhase where
  | notStarting | header | boardRead | writes
  deriving DecidableEq, Repr

/-- The blocks that raise accesses or own requests (00_scope.md). -/
inductive Block where
  | runController | boardController | transactionEngine | lineController | unitManager
  | directoryEngine | journalWriter | serviceUnit
  deriving DecidableEq, Repr

/-- The outcomes of a request (R192). -/
inductive ReqOutcome where
  | ok | accepted | negative | unitRefused | noAnswer | noResult | deadline | aborted | unitChanged
  | dismissed | stopped | skipped | cut | empty | restarted
  | badKind | badField | dupTag | noUnit | noEntry | noRoom | queueFull
  deriving DecidableEq, Repr

/-- The eleven request kinds (R192). -/
inductive ReqKind where
  | enroll | dismiss | hold | declare | retire | clear | transact | sync | abort | lend | cut
  deriving DecidableEq, Repr

/-- The effect of an ABORT (R144). -/
inductive AbortEffect where
  | aborted | tooLate | notFound | notAbortable
  deriving DecidableEq, Repr

/-- What an ABORT found (R144). -/
inductive TargetKind where
  | noTarget | transact | sync | dismiss | lend | abort | held
  deriving DecidableEq, Repr

/-- R2: how an entry came to be. -/
inductive Origin where
  | declared | admitted
  deriving DecidableEq, Repr

/-- R2: the state of a non-vacant entry. -/
inductive EntryState where
  | awaiting | fresh | stale
  deriving DecidableEq, Repr

/-- R8. -/
inductive EarlyPolicy where
  | keep | drop
  deriving DecidableEq, Repr

/-- R5. -/
inductive StalePolicy where
  | keepContent | dropContent
  deriving DecidableEq, Repr

/-- R22. -/
inductive ChangePolicy where
  | keep | clear
  deriving DecidableEq, Repr

/-- R13: ALL, CHANGE, NONE. -/
inductive NotifyMode where
  | all | change | never
  deriving DecidableEq, Repr

/-- R28. -/
inductive LinkState where
  | seeking | online | suspect | lost | departing
  deriving DecidableEq, Repr

/-- R46: OPEN, HELD, SETTLING. -/
inductive GateState where
  | opened | held | settling
  deriving DecidableEq, Repr

/-- R74: which check failures are counted errors. -/
inductive StreakMode where
  | any | header
  deriving DecidableEq, Repr

/-- R74. -/
inductive TurnOutcome where
  | clean | errored | noAnswer | interrupted
  deriving DecidableEq, Repr

/-- R78: the four classes of candidate. -/
inductive TurnClass where
  | urgent | poll | command | rollCall
  deriving DecidableEq, Repr

/-- R72. -/
inductive ProtocolError where
  | source | destination | kind | length | token | code | excess
  deriving DecidableEq, Repr

/-- R163. -/
inductive FaultKind where
  | lateFailure | lateResult | strayResult | unitChanged | lineFaultBegin | lineFaultEnd | journalGap | protocol
  deriving DecidableEq, Repr

/-- R82; FINISHED is the moment at which the record leaves the pool, so no stored record has it. -/
inductive TxnState where
  | pending | sending | deferred
  deriving DecidableEq, Repr

/-- The two change banks (R152). -/
inductive BankId where
  | bank0 | bank1
  deriving DecidableEq, Repr

/-- The two maps of a change bank (R152). -/
inductive MapKind where
  | directory | unit
  deriving DecidableEq, Repr

/-! ## The Window Port (R174) -/

/-- What the block that raised a write does when it is reported performed: nothing, or the step R122, R153 or R163 names. -/
inductive ReportTag where
  | silent
  | done (slot : Nat)
  | bankBit (map : MapKind)
  | newestFault
  deriving DecidableEq, Repr

/-- What a read was raised for. -/
inductive ReadWhat where
  | header
  | startStates
  | sweepStates
  | slot (n : Nat)
  | bankWord
  deriving DecidableEq, Repr

/-- One access of the part to host memory. -/
inductive Access where
  | read (what : ReadWhat) (addr len : Nat)
  | write (addr : Nat) (bytes : List Byte) (report : ReportTag)
  deriving DecidableEq, Repr

/-- A fault record as its producing block hands it on (R163); the two bytes of the detail code stand in order. -/
structure FaultRecord where
  kind : FaultKind
  unit : Nat
  tag : Half
  detail : Byte
  detailHigh : Byte
  word1 : Word
  word2 : Word
  deriving DecidableEq, Repr

/-- R1: the key of an entry. -/
structure Key where
  unit : Nat := 0
  kind : Nat := 0
  deriving DecidableEq, Repr

/-- A journal record as the Directory Engine hands it on (R15). -/
structure JournalRecord where
  time : Word
  key : Key
  content : List Byte
  entry : Nat
  early : Bool
  firstAfterChange : Bool
  deriving DecidableEq, Repr

/-- The result part of a slot (R109) but for the completion time and AFTER_UNMATCHED. -/
structure Result where
  outcome : ReqOutcome
  deferred : Bool := false
  payload : List Byte := []
  fields : List Byte := []
  deriving DecidableEq, Repr

/-- What one block hands another: a bank bit (R13, R40), a fault record (R163), a lost journal record (R161), an unadmitted
record (R12), the completion of the in-flight request of a take sequence (R122). -/
inductive Handover where
  | bankBit (map : MapKind) (index : Nat)
  | fault (record : FaultRecord)
  | journalLoss
  | unadmitted
  | complete (seq : Nat) (result : Result)
  deriving DecidableEq, Repr

/-- One thing a block raises or hands on, in its own order. -/
inductive Item where
  | access (a : Access)
  | hand (h : Handover)
  deriving DecidableEq, Repr

/-- A block that waits for room in the Window Port, with what it still has to raise and hand on (R174). -/
structure WaitEntry where
  block : Block
  items : List Item
  deriving DecidableEq, Repr

/-- R120: an in-flight item has finished, with success or failure, and the Board Controller has not resolved it yet. -/
structure Finish where
  seq : Nat
  success : Bool
  /-- R85 step 6: the item is a transaction, which the SYNCs that captured it count -/
  transaction : Bool
  deriving DecidableEq, Repr

/-- Work that stands behind accesses that wait for room (R174): a journal record handed on (R15), a DISMISS from its notice on (R44), the completion of a
DISMISS whose unit is removed (R44), a unit-change notice (R39), what the end of a drain makes of the take that a STOP found in the making (R124, R173), the
requests still to be resolved that wait on a finished item, in take order (R120), and the next slot of a sweep, behind a take that has not ended (R113). -/
inductive Work where
  | record (r : JournalRecord)
  | dismissal (seq unit : Nat)
  | dismissed (seq : Nat) (result : Result)
  | unitChange (unit : Nat)
  | drainEnd
  | waiters (done : Finish) (todo : List Nat)
  | sweepOn
  deriving DecidableEq, Repr

/-- R174: the accesses raised and not performed, in the order raised over both directions; the blocks that wait for room, in the
order they began to wait; the work that stands behind a wait, in the order asked; the answers of the system port that their block has not yet taken. -/
structure WindowPort where
  fifo : List Access := []
  waiting : List WaitEntry := []
  later : List Work := []
  reports : List Access := []
  deriving DecidableEq, Repr

/-! ## The Run Controller (R165 to R180) -/

structure RunController where
  partState : PartState := .idle
  haltCause : HaltCause := .noCause
  refused : Bool := false
  lineFault : Bool := false
  clock : Word := 0
  winbase : BitVec 28 := 0
  /-- the captured base, while the part holds a window (R167) -/
  window : Option (BitVec 28) := none
  startPhase : StartPhase := .notStarting
  drainLimit : Nat := 0
  drainTimer : Option Word := none
  drainEnded : Bool := false
  abandoned : Nat := 0
  deriving DecidableEq, Repr

/-! ## The Service Unit (R151 to R154, R163, R181, R182) -/

/-- An item of the bank queue (R152): an update bound to a bank, or a swap with its new count and the bank it freezes. -/
inductive BankItem where
  | update (bank : BankId) (map : MapKind) (index : Nat)
  | swap (count : Half) (frozen : BankId)
  deriving DecidableEq, Repr

structure ServiceUnit where
  /-- bits 0 BOARD, 1 DIRECTORY, 2 UNIT, 3 FAULT, 4 STATE (R184) -/
  summary : BitVec 5 := 0
  /-- SVCEN (R182) -/
  enables : BitVec 5 := 0
  activeBank : BankId := .bank0
  swapCount : Half := 0
  bankQueue : List BankItem := []
  nextFault : Word := 1
  ringIndex : Nat := 0
  journalLosses : Word := 0
  unadmitted : Word := 0
  deriving DecidableEq, Repr

/-! ## The Board Controller (R109 to R127) -/

/-- R111, R117: an accepted request whose completion has not been taken. Its internal record is held once the request continues (`taken`); until then its take
is still being made, which takes long only where its owning block waits for room (R174). -/
structure HeldRequest where
  slot : Nat
  /-- the request part as read at take, bytes 00h to 3Fh of the slot -/
  req : List Byte
  takeTime : Word
  seq : Nat
  /-- the block it was handed to; the Board Controller itself while it waits for its predecessor -/
  owner : Block
  /-- the take sequence of the predecessor -/
  pred : Option Nat
  unmatched : Bool
  /-- R117: the request continues: its record is held and its slot's TAKEN write has been raised; false while its take is being made -/
  taken : Bool
  deriving DecidableEq, Repr

/-- R113: the sweep in progress. -/
inductive SweepPhase where
  | noSweep
  | reading
  | taking (todo : List Nat) (last : Option Nat)
  deriving DecidableEq, Repr

/-- R122: the completion of a slot on its way into the window, with the reading at which the Board Controller took it. -/
structure Completion where
  slot : Nat
  unmatched : Bool
  result : Result
  time : Word
  deriving DecidableEq, Repr

structure BoardController where
  /-- the held records, in take order, and behind them the request whose take is being made -/
  held : List HeldRequest := []
  origin : Nat := 0
  sweepAgain : Bool := false
  sweepTimer : Option Word := none
  interval : Nat := 0
  sweepCount : Word := 0
  nextSeq : Nat := 0
  /-- R118: tag and take sequence of its holder -/
  registry : List (Half × Nat) := []
  sweep : SweepPhase := .noSweep
  finishes : List Finish := []
  /-- R122: the completions in the order they reached the block; the writes of the first are raised and its DONE write not yet
  reported, the others wait for their turn -/
  completions : List Completion := []
  deriving DecidableEq, Repr

/-! ## The Transaction Engine (R82 to R108) -/

/-- R82: a transaction record; the take sequence also names it as an in-flight item. -/
structure Transaction where
  tag : Half
  origin : Option Nat
  unit : Nat
  command : Nat
  payload : List Byte
  early : Bool
  urgent : Bool
  deadline : Option Word
  pred : Option Nat
  token : Option Nat
  retries : Nat
  sends : Nat
  state : TxnState
  abortRequested : Bool
  everDeferred : Bool
  deferExpiry : Option Word
  seq : Nat
  deriving DecidableEq, Repr

/-- R100: a waiting SYNC; `waitingFor` are the captured transactions that have not finished. -/
structure SyncRecord where
  seq : Nat
  deadline : Option Word
  pred : Option Nat
  captured : Nat
  finished : Nat
  failed : Nat
  waitingFor : List Nat
  deriving DecidableEq, Repr

/-- R104: an ABORT that waits for the end of its target's turn. -/
structure WaitingAbort where
  seq : Nat
  target : Nat
  deriving DecidableEq, Repr

structure TransactionEngine where
  /-- in take order; a unit's queue is the part of the pool that names the unit (R83) -/
  pool : List Transaction := []
  syncs : List SyncRecord := []
  aborts : List WaitingAbort := []
  deriving DecidableEq, Repr

/-! ## The Line Controller (R59 to R81) -/

/-- R60, R191: the fields of a frame header. -/
structure FrameHeader where
  dst : BitVec 5
  src : BitVec 5
  kind : BitVec 4
  gen : BitVec 3
  token : BitVec 4
  code : BitVec 6
  len : BitVec 5
  deriving DecidableEq, Repr

/-- The three kinds of turn (4.3); a command turn names its transaction. -/
inductive TurnKind where
  | poll
  | command (seq : Nat)
  | rollCall
  deriving DecidableEq, Repr

/-- R69: the answer of a command turn. -/
inductive Answer where
  | noFrame
  | reply (payload : List Byte)
  | refuse (reason : Byte)
  | defer
  | garbled
  | interrupted
  deriving DecidableEq, Repr

/-- R64: the head frame goes out; the reply window is open; the gap limit runs; a frame has begun; its header was good (with the protocol
error it is, and whether the turn ends at its end). Times are line clock readings. -/
inductive TurnPhase where
  | sending
  | window (since : Word)
  | gap (since : Word)
  | header
  | body (header : FrameHeader) (error : Option ProtocolError) (last : Bool)
  deriving DecidableEq, Repr

structure Turn where
  unit : Nat
  kind : TurnKind
  start : Word
  /-- R64: the values the unit held at the start of the turn -/
  replyWindow : Nat
  burstLimit : Nat
  streakMode : StreakMode
  /-- the head frame as sent, sync byte first (R60) -/
  frame : List Byte
  phase : TurnPhase
  /-- frames begun -/
  frames : Nat
  /-- counted errors (R74) -/
  errors : Nat
  protocolLogged : Bool
  resultHanded : Bool
  answer : Answer
  deriving DecidableEq, Repr

/-- R64, R65: the turn the arbiter has chosen and the reading at which its idle check began. -/
structure Choice where
  unit : Nat
  kind : TurnKind
  cls : TurnClass
  since : Word
  deriving DecidableEq, Repr

structure LineController where
  rate : Nat := 0
  discovery : Nat := 0
  turn : Option Turn := none
  choice : Option Choice := none
  /-- R67: the reading at which the current line fault began; none is CLEAR -/
  fault : Option Word := none
  idleSince : Word := 0
  position : Nat := 0
  mark : TurnClass := .command
  deriving DecidableEq, Repr

/-! ## The Unit Manager (R24 to R58) -/

/-- The hold mask (R25). -/
structure HoldMask where
  changed : Bool
  suspect : Bool
  lost : Bool
  line : Bool
  deriving DecidableEq, Repr

/-- The gate factors (R46). -/
structure Factors where
  changed : Bool := false
  suspect : Bool := false
  lost : Bool := false
  line : Bool := false
  forced : Bool := false
  deriving DecidableEq, Repr

/-- R25: the ten parameters of ENROLL. -/
structure UnitParams where
  pollInterval : Nat
  replyWindow : Nat
  retryLimit : Nat
  silenceLimit : Nat
  streakThreshold : Nat
  streakMode : StreakMode
  settleTime : Nat
  holdMask : HoldMask
  deferLimit : Nat
  burstLimit : Nat
  deriving DecidableEq, Repr

/-- R46: the settle timer of a SETTLING gate. -/
structure SettleTimer where
  start : Word
  expiry : Word
  deriving DecidableEq, Repr

/-- R89. -/
structure Reservation where
  token : Nat
  tag : Half
  expiry : Word
  deriving DecidableEq, Repr

/-- An enrolled unit: its parameters (R25), its state (R26), its gate (R46), what the Transaction Engine keeps for it (R88, R94) and
what the Line Controller keeps for it (R76, R77). -/
structure FieldUnit where
  params : UnitParams
  link : LinkState
  streak : Nat
  missed : Nat
  cleanRun : Nat
  generation : Option (BitVec 3)
  unitClass : Half
  deferDepth : Nat
  lastAccepted : Option Nat
  gate : GateState
  factors : Factors
  settle : Option SettleTimer
  turns : Word
  cleanTurns : Word
  erroredTurns : Word
  noAnswers : Word
  unadmitted : Nat
  lastToken : Nat
  reservations : List Reservation
  pendingAck : Option Nat
  pollDue : Option Word
  /-- the line clock has reached the poll due time (row POLL_DUE) -/
  pollReady : Bool
  lastPoll : Option Word
  rollDue : Option Word
  rollReady : Bool
  deriving DecidableEq, Repr

/-- A unit mirror's version word (R148) and the place it shows. -/
structure UnitSlot where
  version : BitVec 64 := 0
  place : Option FieldUnit := none
  deriving DecidableEq, Repr

/-- R45: a DISMISS that waits for the end of the turn, with its counts (R134). -/
structure WaitingDismiss where
  seq : Nat
  unit : Nat
  retired : Nat
  ended : Nat
  deriving DecidableEq, Repr

structure UnitManager where
  /-- one for each line address; addresses 0 and 31 have no place (R24) -/
  slots : Vector UnitSlot 32 := Vector.replicate 32 {}
  dismissWait : Option WaitingDismiss := none
  deriving DecidableEq, Repr

/-! ## The Directory Engine (R1 to R23) -/

/-- The policies and intervals of an entry (R2), in the form of DECLARE and of the admission defaults. -/
structure Policies where
  maxInterval : Half := 0
  minInterval : Half := 0
  early : EarlyPolicy := .keep
  stale : StalePolicy := .keepContent
  change : ChangePolicy := .keep
  notify : NotifyMode := .all
  journal : Bool := false
  deriving DecidableEq, Repr

/-- R2, with the start moment of the stale timer (R4). -/
structure Entry where
  key : Key
  origin : Origin
  state : EntryState
  content : Option (List Byte)
  policies : Policies
  arrivals : Half
  chatter : Half
  lastArrival : Option Word
  lastInterval : Option Half
  firstAfterChange : Bool
  staleTimer : Option Word
  deriving DecidableEq, Repr

/-- One entry number: its mirror's version word (R148), the key it last held (R14) and its entry. -/
structure EntrySlot where
  version : BitVec 64 := 0
  shownKey : Key := {}
  entry : Option Entry := none
  deriving DecidableEq, Repr

structure DirectoryEngine where
  slots : Vector EntrySlot 192 := Vector.replicate 192 {}
  autoAdmission : Bool := false
  defaults : Policies := {}
  deriving DecidableEq, Repr

/-! ## The Journal Writer (R155 to R162) -/

/-- A lent page: the take sequence of its LEND, its address, size and flush age (R155). -/
structure Page where
  seq : Nat
  addr : BitVec 40
  size : Nat
  flushAge : Nat
  withdrawn : Bool
  deriving DecidableEq, Repr

/-- What is kept for the open page (R155). -/
structure OpenPage where
  pageSeq : Word
  count : Nat
  used : Nat
  firstTime : Option Word
  lastTime : Option Word
  gap : Option Half
  /-- the start moment of the flush timer (R158) -/
  flushTimer : Option Word
  deriving DecidableEq, Repr

structure JournalWriter where
  pages : List Page := []
  opened : Option OpenPage := none
  pendingGap : Half := 0
  gapReported : Bool := false
  nextPage : Word := 1
  drained : Bool := false
  deriving DecidableEq, Repr

/-! ## The part, the memory, the machine -/

/-- The nine blocks. -/
structure Part where
  run : RunController := {}
  port : WindowPort := {}
  svc : ServiceUnit := {}
  board : BoardController := {}
  te : TransactionEngine := {}
  line : LineController := {}
  um : UnitManager := {}
  dir : DirectoryEngine := {}
  jw : JournalWriter := {}
  deriving DecidableEq, Repr

/-- Host memory as address and byte pairs, addresses rising, no byte equal to what an unlisted address reads as. -/
abbrev Memory := List Host.Cell

/-- The whole machine: the commands that wait, first in first out, the part, and host memory as the part's performed writes have left it. -/
structure State where
  pending : List Instr
  part : Part
  mem : Memory
  deriving DecidableEq, Repr

/-- The machine stops with no fault of the spec's: its faults are states (HALTED), records and outcomes. `noEvent` is raised by no meaning;
it is safe. -/
inductive Fault where
  /-- Raised by nobody; kept so that the type is inhabited. Safe. -/
  | noEvent
  deriving DecidableEq, Repr

/-- Why a command has no meaning. -/
inductive Refusal where
  /-- Raised by exec's arm of a command that has no meaning yet; safe. No arm raises it now. -/
  | notModelled (mnemonic : String)
  deriving DecidableEq, Repr

/-- R179: the part after a pin reset: IDLE, every register at its reset value, every block empty. The values of fields that a
block holds nothing in are the model's (notes/assumptions/9.md, DESIGN CHOICE). -/
def Part.reset : Part := {}

/-- The machine right after reset: nothing waits, no memory is listed. -/
def State.reset : State := { pending := [], part := Part.reset, mem := [] }

end Sys2Proof.Machine
end

