-- ==== Sys2Proof/Machine/Operands.lean ====
section
/-! DEFINITION. Byte order, the checks of the line (R61), the layouts of a line frame (R191), of the header (R186) and of the request part of
a slot (R188), the code values (R192), and the comparison of line clock readings (R180). -/

namespace Sys2Proof.Machine

/-! ## Bytes, little-endian (R183) -/

def byteOf (n : Nat) : Byte := BitVec.ofNat 8 n

def wordOf (n : Nat) : Word := BitVec.ofNat 32 n

def boolByte (b : Bool) : Byte := if b then 1 else 0

/-- The `n` low bytes of a number, lowest first. -/
def leBytes : Nat → Nat → List Byte
  | 0, _ => []
  | n + 1, x => byteOf x :: leBytes n (x / 256)

def le16 (x : Half) : List Byte := leBytes 2 x.toNat

def le32 (x : Word) : List Byte := leBytes 4 x.toNat

def le64 (x : BitVec 64) : List Byte := leBytes 8 x.toNat

/-- The number whose bytes, lowest first, are given. -/
def ofLeBytes : List Byte → Nat
  | [] => 0
  | b :: rest => b.toNat + 256 * ofLeBytes rest

def byteAt (bs : List Byte) (i : Nat) : Byte := bs.getD i 0

def natAt (bs : List Byte) (i : Nat) : Nat := (byteAt bs i).toNat

/-- `n` bytes from offset `i`, read little-endian. -/
def leAt (bs : List Byte) (i n : Nat) : Nat := ofLeBytes ((bs.drop i).take n)

def halfAt (bs : List Byte) (i : Nat) : Half := BitVec.ofNat 16 (leAt bs i 2)

/-- The bytes given, followed by zero bytes, `n` in all. -/
def padTo (n : Nat) (bs : List Byte) : List Byte := (bs ++ List.replicate n 0).take n

/-! ## Line clock readings (R180) -/

/-- The reading `now` has reached the reading `t`, taken modulo 2^32 (notes/assumptions/10.md). -/
def reached (now t : Word) : Bool := decide ((now - t).toNat < 2 ^ 31)

/-- Milliseconds from `t` to `now`, modulo 2^32. -/
def elapsed (now t : Word) : Nat := (now - t).toNat

/-- The reading `ms` milliseconds after `t`. -/
def after (t : Word) (ms : Nat) : Word := t + wordOf ms

/-! ## The checks of the line (R61) -/

def crc8Bit (c : Byte) : Byte := if c.msb then (c <<< 1) ^^^ 0x07 else c <<< 1

def crc8Byte (c b : Byte) : Byte := (List.range 8).foldl (fun c _ => crc8Bit c) (c ^^^ b)

/-- CRC-8, polynomial 07h, initial value 00h, no final inversion. -/
def crc8 (bs : List Byte) : Byte := bs.foldl crc8Byte 0

def crc16Bit (c : Half) : Half := if c.msb then (c <<< 1) ^^^ 0x1021 else c <<< 1

def crc16Byte (c : Half) (b : Byte) : Half := (List.range 8).foldl (fun c _ => crc16Bit c) (c ^^^ (b.setWidth 16 <<< 8))

/-- CRC-16, polynomial 1021h, initial value FFFFh, no final inversion. -/
def crc16 (bs : List Byte) : Half := bs.foldl crc16Byte 0xFFFF

/-- The two bytes of a payload check as sent, high-order byte first (R61). -/
def crc16Bytes (bs : List Byte) : List Byte := [(crc16 bs >>> 8).setWidth 8, (crc16 bs).setWidth 8]

/-! ## Line frames (R60, R191) -/

/-- The four header bytes, most significant byte of the packed 32 bits first. -/
def FrameHeader.bytes (h : FrameHeader) : List Byte :=
  let w : BitVec 32 := h.dst ++ h.src ++ h.kind ++ h.gen ++ h.token ++ h.code ++ h.len
  [w.extractLsb' 24 8, w.extractLsb' 16 8, w.extractLsb' 8 8, w.extractLsb' 0 8]

/-- A received header, unpacked from its four bytes (R191). -/
def FrameHeader.ofBytes (b0 b1 b2 b3 : Byte) : FrameHeader :=
  let w : BitVec 32 := b0 ++ b1 ++ b2 ++ b3
  { dst := w.extractLsb' 27 5, src := w.extractLsb' 22 5, kind := w.extractLsb' 18 4, gen := w.extractLsb' 15 3,
    token := w.extractLsb' 11 4, code := w.extractLsb' 5 6, len := w.extractLsb' 0 5 }

/-- The header of the bytes up to the header check byte, when no header check failure occurred among them (R61, R62): the sync byte is 7Eh, no
stop bit was low, and the CRC-8 agrees. -/
def goodHeader (bytes : List Byte) (stopLow : Bool) : Option FrameHeader :=
  match bytes with
  | [sync, b0, b1, b2, b3, check] =>
    if sync == 0x7E && !stopLow && crc8 [b0, b1, b2, b3] == check then some (.ofBytes b0 b1 b2 b3) else none
  | _ => none

/-- The payload of a frame of the given length, when its checks are good (R61): the bytes after the header check byte are the payload and its
CRC-16, or nothing for length 0. -/
def goodPayload (len : Nat) (rest : List Byte) : Option (List Byte) :=
  if len = 0 then (if rest = [] then some [] else none)
  else if rest.length = len + 2 ∧ rest.drop len = crc16Bytes (rest.take len) then some (rest.take len)
  else none

/-- A whole frame of the head, sync byte first (R60). -/
def headFrame (unit kind token code : Nat) (payload : List Byte) : List Byte :=
  let h : FrameHeader :=
    { dst := BitVec.ofNat 5 unit, src := 0, kind := BitVec.ofNat 4 kind, gen := 0, token := BitVec.ofNat 4 token,
      code := BitVec.ofNat 6 code, len := BitVec.ofNat 5 payload.length }
  0x7E :: h.bytes ++ [crc8 h.bytes] ++ (if payload = [] then [] else payload ++ crc16Bytes payload)

/-- R59, R191: the ten bits of a byte on the line in the order sent: the start bit, low; the data bits, least significant first; the stop bit,
high. -/
def characterBits (b : Byte) : List Bool := false :: (List.range 8).map (fun i => b.getLsbD i) ++ [true]

/-- The bits of a frame in the order sent (R191). -/
def frameBits (frame : List Byte) : List Bool := frame.flatMap characterBits

/-- R59: the bit time in microseconds of a rate code. -/
def bitTimeMicros : Nat → Nat
  | 0 => 4
  | 1 => 2
  | _ => 1

/-- R59: ten bit times make a byte time. -/
def byteTimeMicros (rate : Nat) : Nat := 10 * bitTimeMicros rate

/-! ## Code values (R192) -/

def PartState.code : PartState → Nat
  | .idle => 0 | .starting => 1 | .running => 2 | .draining => 3 | .stopped => 4 | .halted => 5

def HaltCause.code : HaltCause → Nat
  | .noCause => 0 | .hostHalt => 1 | .busError => 2 | .windowInvalid => 3

def ReqOutcome.code : ReqOutcome → Byte
  | .ok => 0x00 | .accepted => 0x01 | .negative => 0x02 | .unitRefused => 0x03 | .noAnswer => 0x04 | .noResult => 0x05
  | .deadline => 0x06 | .aborted => 0x07 | .unitChanged => 0x08 | .dismissed => 0x09 | .stopped => 0x0A | .skipped => 0x0B
  | .cut => 0x0C | .empty => 0x0D | .restarted => 0x0E
  | .badKind => 0x20 | .badField => 0x21 | .dupTag => 0x22 | .noUnit => 0x23 | .noEntry => 0x24 | .noRoom => 0x25
  | .queueFull => 0x26

/-- R120: the outcomes that are a success for the requests that wait. -/
def ReqOutcome.success : ReqOutcome → Bool
  | .ok | .cut | .empty => true
  | .accepted | .negative | .unitRefused | .noAnswer | .noResult | .deadline | .aborted | .unitChanged | .dismissed
  | .stopped | .skipped | .restarted | .badKind | .badField | .dupTag | .noUnit | .noEntry | .noRoom | .queueFull => false

def ReqKind.ofCode : Nat → Option ReqKind
  | 1 => some .enroll | 2 => some .dismiss | 3 => some .hold | 4 => some .declare | 5 => some .retire | 6 => some .clear
  | 7 => some .transact | 8 => some .sync | 9 => some .abort | 10 => some .lend | 11 => some .cut
  | _ => none

def AbortEffect.code : AbortEffect → Byte
  | .aborted => 1 | .tooLate => 2 | .notFound => 3 | .notAbortable => 4

def TargetKind.code : TargetKind → Byte
  | .noTarget => 0 | .transact => 1 | .sync => 2 | .dismiss => 3 | .lend => 4 | .abort => 5 | .held => 6

def Origin.code : Origin → Byte
  | .declared => 1 | .admitted => 2

def EntryState.code : EntryState → Byte
  | .awaiting => 1 | .fresh => 2 | .stale => 3

def EarlyPolicy.code : EarlyPolicy → Byte
  | .keep => 0 | .drop => 1

def StalePolicy.code : StalePolicy → Byte
  | .keepContent => 0 | .dropContent => 1

def ChangePolicy.code : ChangePolicy → Byte
  | .keep => 0 | .clear => 1

def NotifyMode.code : NotifyMode → Byte
  | .all => 0 | .change => 1 | .never => 2

def LinkState.code : LinkState → Byte
  | .seeking => 1 | .online => 2 | .suspect => 3 | .lost => 4 | .departing => 5

def GateState.code : GateState → Byte
  | .opened => 0 | .held => 1 | .settling => 2

def StreakMode.code : StreakMode → Byte
  | .any => 0 | .header => 1

def FaultKind.code : FaultKind → Byte
  | .lateFailure => 1 | .lateResult => 2 | .strayResult => 3 | .unitChanged => 4 | .lineFaultBegin => 5 | .lineFaultEnd => 6
  | .journalGap => 7 | .protocol => 8

def ProtocolError.number : ProtocolError → Byte
  | .source => 1 | .destination => 2 | .kind => 3 | .length => 4 | .token => 5 | .code => 6 | .excess => 7

/-- The frame kind code of a turn's head frame: POLL, COMMAND, ROLLCALL. -/
def TurnKind.frameCode : TurnKind → Nat
  | .poll => 1 | .command _ => 2 | .rollCall => 3

def BankId.index : BankId → Nat
  | .bank0 => 0 | .bank1 => 1

def BankId.other : BankId → BankId
  | .bank0 => .bank1 | .bank1 => .bank0

def HoldMask.code (m : HoldMask) : Byte :=
  boolByte m.changed ||| boolByte m.suspect <<< 1 ||| boolByte m.lost <<< 2 ||| boolByte m.line <<< 3

def HoldMask.ofCode (b : Byte) : HoldMask :=
  { changed := b.getLsbD 0, suspect := b.getLsbD 1, lost := b.getLsbD 2, line := b.getLsbD 3 }

def Factors.code (f : Factors) : Byte :=
  boolByte f.changed ||| boolByte f.suspect <<< 1 ||| boolByte f.lost <<< 2 ||| boolByte f.line <<< 3 ||| boolByte f.forced <<< 4

/-! ## The request part of a slot (R188) -/

namespace Req

def kindCode (r : List Byte) : Nat := natAt r 0x00

def kind (r : List Byte) : Option ReqKind := ReqKind.ofCode (kindCode r)

def flags (r : List Byte) : Byte := byteAt r 0x01

def early (r : List Byte) : Bool := (flags r).getLsbD 0

def urgent (r : List Byte) : Bool := (flags r).getLsbD 1

def tag (r : List Byte) : Half := halfAt r 0x02

def afterTag (r : List Byte) : Half := halfAt r 0x04

def unit (r : List Byte) : Nat := natAt r 0x06

def code (r : List Byte) : Nat := natAt r 0x07

def deadline (r : List Byte) : Nat := leAt r 0x08 2

def payloadLength (r : List Byte) : Nat := natAt r 0x0A

/-- Byte `i` of the parameter block. -/
def param (r : List Byte) (i : Nat) : Nat := natAt r (0x0C + i)

/-- The payload, as long as the payload length says. -/
def payload (r : List Byte) : List Byte := ((r.drop 0x20).take 24).take (payloadLength r)

/-- The selector or scope ALL (R188). -/
def all : Nat := 0xFF

/-- ENROLL's parameter block (R131, R188). -/
def unitParams (r : List Byte) : UnitParams :=
  { pollInterval := param r 0, replyWindow := param r 1, retryLimit := param r 2, silenceLimit := param r 3,
    streakThreshold := param r 4, streakMode := if param r 5 = 0 then .any else .header, settleTime := param r 6,
    holdMask := HoldMask.ofCode (byteOf (param r 7)), deferLimit := param r 8, burstLimit := param r 9 }

/-- Policies and intervals from their code values, in DECLARE's order (R136) and the header's (R186). -/
def mkPolicies (maxI minI : Half) (early stale change notify journal : Nat) : Policies :=
  { maxInterval := maxI, minInterval := minI
    early := if early = 0 then .keep else .drop
    stale := if stale = 0 then .keepContent else .dropContent
    change := if change = 0 then .keep else .clear
    notify := if notify = 0 then .all else if notify = 1 then .change else .never
    journal := journal ≠ 0 }

/-- DECLARE's parameter block (R136, R188). -/
def policies (r : List Byte) : Policies :=
  mkPolicies (halfAt r 0x0C) (halfAt r 0x0E) (param r 4) (param r 5) (param r 6) (param r 7) (param r 8)

/-- LEND's page address (R145, R188). -/
def pageAddress (r : List Byte) : Nat := leAt r 0x0C 5

def pageSize (r : List Byte) : Nat := param r 5

def flushAge (r : List Byte) : Nat := leAt r 0x12 2

/-- ABORT's target tag (R143, R188). -/
def targetTag (r : List Byte) : Half := halfAt r 0x0C

def key (r : List Byte) : Key := { unit := unit r, kind := code r }

/-- A unit address 1–30 in the unit field. -/
def unitInRange (r : List Byte) : Bool := decide (1 ≤ unit r ∧ unit r ≤ 30)

def unitOrAll (r : List Byte) : Bool := unitInRange r || unit r == all

def codeInRange (r : List Byte) : Bool := decide (code r ≤ 63)

/-- R128: the common fields; every kind but TRANSACT has both flags clear, every kind but TRANSACT and SYNC the deadline 0. -/
def commonInRange (k : ReqKind) (r : List Byte) : Bool :=
  (afterTag r == 0 || afterTag r != tag r) &&
  (if k = .transact then decide ((flags r).toNat ≤ 3) else flags r == 0) &&
  (k = .transact || k = .sync || deadline r == 0)

/-- R131. -/
def enrollInRange (r : List Byte) : Bool :=
  unitInRange r && decide (1 ≤ param r 0) && decide (1 ≤ param r 1 ∧ param r 1 ≤ 50) && decide (param r 2 ≤ 7) &&
  decide (1 ≤ param r 3 ∧ param r 3 ≤ 15) && decide (1 ≤ param r 4 ∧ param r 4 ≤ 15) && decide (param r 5 ≤ 1) &&
  decide (param r 7 ≤ 15) && decide (1 ≤ param r 8) && decide (1 ≤ param r 9 ∧ param r 9 ≤ 8)

/-- R136. -/
def declareInRange (r : List Byte) : Bool :=
  unitInRange r && codeInRange r && decide (param r 4 ≤ 1) && decide (param r 5 ≤ 1) && decide (param r 6 ≤ 1) &&
  decide (param r 7 ≤ 2) && decide (param r 8 ≤ 1)

/-- R145: a page of 4 to 64 units of 256 bytes, on a 256-byte boundary, within the 40-bit space, clear of the window at `base`. -/
def lendInRange (base : Nat) (r : List Byte) : Bool :=
  pageAddress r % 256 == 0 && decide (4 ≤ pageSize r ∧ pageSize r ≤ 64) &&
  decide (pageAddress r + 256 * pageSize r ≤ 2 ^ 40) &&
  (decide (pageAddress r + 256 * pageSize r ≤ base) || decide (base + Config.windowSize ≤ pageAddress r))

/-- Check 2 of R115: every field the kind names is in its range. -/
def inRange (base : Nat) (k : ReqKind) (r : List Byte) : Bool :=
  commonInRange k r &&
  match k with
  | .enroll => enrollInRange r
  | .dismiss => unitInRange r
  | .hold => unitInRange r && decide (1 ≤ param r 0 ∧ param r 0 ≤ 2)
  | .declare => declareInRange r
  | .retire => unitInRange r && codeInRange r
  | .clear => unitOrAll r && (codeInRange r || code r == all) && decide (param r 0 ≤ 3)
  | .transact => unitInRange r && codeInRange r && decide (payloadLength r ≤ 24)
  | .sync => unitOrAll r
  | .abort => true
  | .lend => lendInRange base r
  | .cut => true

end Req

/-- The state byte codes (R188). -/
def stateFree : Byte := 0
def statePosted : Byte := 1
def stateTaken : Byte := 2
def stateDone : Byte := 3

/-! ## The header (R186) -/

namespace Header

def rate (h : List Byte) : Nat := natAt h 0x05
def sweepInterval (h : List Byte) : Nat := natAt h 0x06
def discovery (h : List Byte) : Nat := natAt h 0x07
def drainLimit (h : List Byte) : Nat := natAt h 0x08
def autoAdmission (h : List Byte) : Nat := natAt h 0x09

/-- The admission defaults (R3, R186). -/
def defaults (h : List Byte) : Policies :=
  Req.mkPolicies (halfAt h 0x10) (halfAt h 0x12) (natAt h 0x0A) (natAt h 0x0B) (natAt h 0x0C) (natAt h 0x0D) (natAt h 0x0E)

/-- The checks of R170. -/
def valid (h : List Byte) : Bool :=
  h.length == 64 && leAt h 0x00 4 == Config.signature.toNat && natAt h 0x04 == 1 && decide (rate h ≤ 2) &&
  decide (sweepInterval h ≤ 250) && decide (1 ≤ discovery h) && decide (1 ≤ drainLimit h) && decide (autoAdmission h ≤ 1) &&
  decide (natAt h 0x0A ≤ 1) && decide (natAt h 0x0B ≤ 1) && decide (natAt h 0x0C ≤ 1) && decide (natAt h 0x0D ≤ 2) &&
  decide (natAt h 0x0E ≤ 1) && byteAt h 0x0F == 0 && (h.drop 0x14).all (· == 0)

end Header

end Sys2Proof.Machine
end

