-- ==== Sys2Proof/Machine/Flags.lean ====
section
/-! DEFINITION. Flags and what is seen of them: the service summary and SVCREQ (R181, R182), the registers as they read (R165, R184), the
pins (R193), and the factors of the command gate with its judgement (R46 to R51). -/

namespace Sys2Proof.Machine

/-! ## The service summary -/

/-- The summary bits in their SVCPEND positions (R184). -/
def bitBoard : BitVec 5 := 0b00001
def bitDirectory : BitVec 5 := 0b00010
def bitUnit : BitVec 5 := 0b00100
def bitFault : BitVec 5 := 0b01000
def bitState : BitVec 5 := 0b10000

/-- R181: a bit handed on is set; if it is set already it stays set. -/
def Part.setSummary (b : BitVec 5) (p : Part) : Part :=
  { p with svc := { p.svc with summary := p.svc.summary ||| b } }

/-- R182: SVCREQ is active exactly while some bit is set both in the service summary and in SVCEN. -/
def Part.svcreqActive (p : Part) : Bool := (p.svc.summary &&& p.svc.enables) != 0

/-! ## Registers (R165, R184) and pins (R193) -/

/-- What a read of the register at `offset` returns; a read changes nothing. An offset at which no register stands reads 0 (notes/assumptions/50.md). -/
def Part.readRegister (offset : Nat) (p : Part) : Word :=
  if offset = 0x00 then Config.ident
  else if offset = 0x08 then
    wordOf (p.run.partState.code + 16 * p.run.haltCause.code + 256 * p.run.refused.toNat + 512 * p.run.lineFault.toNat)
  else if offset = 0x0C then p.run.winbase.setWidth 32
  else if offset = 0x14 then p.svc.swapCount ++ p.svc.summary.setWidth 16
  else if offset = 0x18 then p.svc.enables.setWidth 32
  else if offset = 0x1C then wordOf p.run.abandoned
  else if offset = 0x20 then p.run.clock
  else 0

/-- R193: the level of SVCREQn, low while SVCREQ is active. -/
def State.svcreqn (s : State) : Bool := !s.part.svcreqActive

/-- R59, R193: LDIR is high exactly while the transmitter is enabled: while a head frame goes out. -/
def State.ldir (s : State) : Bool :=
  match s.part.line.turn with
  | some t => t.phase == .sending
  | none => false

/-- R59, R193: the level of LTX `bit` bit times after the first bit of the head frame: the frame's bits while the transmitter is enabled, high
while LDIR is low. -/
def State.ltx (bit : Nat) (s : State) : Bool :=
  match s.part.line.turn with
  | some t => if t.phase = .sending then (frameBits t.frame).getD bit true else true
  | none => true

/-! ## The parts of the part state other blocks ask for -/

/-- The states in which turns run, timers expire and requests go on: RUNNING and DRAINING. -/
def Part.working (p : Part) : Bool := p.run.partState == .running || p.run.partState == .draining

/-- The states in which a HALT, a bus error or a RESET sets ABANDONED (R177). -/
def Part.started (p : Part) : Bool :=
  p.run.partState == .starting || p.run.partState == .running || p.run.partState == .draining

/-- R154: the states in which the part holds a window and an acknowledgement takes a swap. -/
def Part.windowHeld (p : Part) : Bool := p.started || p.run.partState == .stopped

/-- The byte address of the window base in use. -/
def Part.base (p : Part) : Nat := (p.run.window.getD 0).toNat * 4096

/-! ## The command gate -/

/-- R47: some condition is present that the gate obeys; FORCED is always enabled. -/
def FieldUnit.enabledCondition (u : FieldUnit) : Bool :=
  u.factors.forced || (u.factors.suspect && u.params.holdMask.suspect) || (u.factors.lost && u.params.holdMask.lost) ||
  (u.factors.line && u.params.holdMask.line)

/-- The settle timer started at a reading, with the settle time the place holds (R49). -/
def FieldUnit.settleFrom (now : Word) (u : FieldUnit) : SettleTimer :=
  { start := now, expiry := after now (100 * u.params.settleTime) }

/-- The gate opens: the recorded CHANGED leaves the factor set and the timer stops (R49, R51). -/
def FieldUnit.openGate (u : FieldUnit) : FieldUnit :=
  { u with gate := .opened, settle := none, factors := { u.factors with changed := false } }

/-- R48, R49: the judgement of the gate after an event that changed the factor set or the hold mask. -/
def FieldUnit.judgeGate (now : Word) (u : FieldUnit) : FieldUnit :=
  if u.enabledCondition then { u with gate := .held, settle := none }
  else if u.gate = .held then
    if u.params.settleTime = 0 then u.openGate else { u with gate := .settling, settle := some (u.settleFrom now) }
  else u

/-- R50: a CHANGED event raised to the gate. -/
def FieldUnit.changedEvent (now : Word) (u : FieldUnit) : FieldUnit :=
  if u.params.holdMask.changed then
    match u.gate with
    | .held => { u with factors := { u.factors with changed := true } }
    | .opened | .settling =>
      if u.params.settleTime = 0 then u.openGate
      else { u with gate := .settling, settle := some (u.settleFrom now), factors := { u.factors with changed := true } }
  else u

/-- R47: a change of link state, with the conditions SUSPECT and LOST that follow it. -/
def FieldUnit.setLink (l : LinkState) (u : FieldUnit) : FieldUnit :=
  { u with link := l, factors := { u.factors with suspect := l == .suspect, lost := l == .lost } }

/-- R55: the unit becomes DEPARTING; the gate is frozen with its state and factors, the settle timer stops, no due times are kept. -/
def FieldUnit.depart (u : FieldUnit) : FieldUnit :=
  { u with link := .departing, settle := none, pollDue := none, pollReady := false, lastPoll := none, rollDue := none
           rollReady := false }

end Sys2Proof.Machine
end

