-- ==== Sys2Proof/Machine/Mirrors.lean ====
section
/-! DEFINITION. What the part writes into the window and into journal pages, byte by byte: mirrors (R149, R189), the result part of a slot (R188),
fault records, page heads and journal records (R190), the service area and the initialisation writes (R150, R151, R187). -/

namespace Sys2Proof.Machine

/-! ## Regions of the window (R185, R187) -/

def offFaultRing : Nat := 0x0400
def offBoard : Nat := 0x0800
def offDirMirrors : Nat := 0x2800
def offUnitMirrors : Nat := 0x5800

def slotAddr (base n : Nat) : Nat := base + offBoard + 128 * n
def stateByteAddr (base n : Nat) : Nat := slotAddr base n + 0x7F
def dirMirrorAddr (base n : Nat) : Nat := base + offDirMirrors + 64 * n
def unitMirrorAddr (base a : Nat) : Nat := base + offUnitMirrors + 64 * a
def faultRecordAddr (base i : Nat) : Nat := base + offFaultRing + 32 * i
def newestFaultAddr (base : Nat) : Nat := base + 0x004C
def bankWordAddr (base : Nat) : Nat := base + 0x0050
def journalLossAddr (base : Nat) : Nat := base + 0x0054
def unadmittedAddr (base : Nat) : Nat := base + 0x0058
def sweepCountAddr (base : Nat) : Nat := base + 0x005C
def bankAddr (base : Nat) (b : BankId) : Nat := base + 0x0060 + 0x20 * b.index

/-- The aligned 32-bit map word that holds a bit, and the bit's place in it (R187). -/
def mapWordAddr (base : Nat) (b : BankId) : MapKind → Nat → Nat
  | .directory, n => bankAddr base b + 4 * (n / 32)
  | .unit, _ => bankAddr base b + 24

def mapBit (n : Nat) : Word := 1 <<< (n % 32)

/-! ## Mirrors (R149, R189) -/

/-- The 56 bytes of a directory mirror after its version word. -/
def dirBody (shown : Key) : Option Entry → List Byte
  | none => padTo 56 [byteOf shown.unit, byteOf shown.kind]
  | some e =>
    padTo 56 (
      [byteOf e.key.unit, byteOf e.key.kind, e.origin.code, e.state.code, e.policies.early.code, e.policies.stale.code,
       e.policies.change.code, e.policies.notify.code,
       boolByte e.policies.journal ||| boolByte e.content.isSome <<< 1 ||| boolByte e.lastArrival.isSome <<< 2 |||
         boolByte e.lastInterval.isSome <<< 3,
       byteOf (e.content.getD []).length] ++
      le16 e.policies.maxInterval ++ le16 e.policies.minInterval ++ le16 e.arrivals ++ le16 e.chatter ++
      le16 (e.lastInterval.getD 0) ++ le32 (e.lastArrival.getD 0) ++ padTo 24 (e.content.getD []))

/-- The ten parameters in the order of the ENROLL parameter block. -/
def UnitParams.bytes (q : UnitParams) : List Byte :=
  [byteOf q.pollInterval, byteOf q.replyWindow, byteOf q.retryLimit, byteOf q.silenceLimit, byteOf q.streakThreshold,
   q.streakMode.code, byteOf q.settleTime, q.holdMask.code, byteOf q.deferLimit, byteOf q.burstLimit]

/-- The 56 bytes of a unit mirror after its version word; an empty place shows every field zero (EMPTY and OPEN are 0). -/
def unitBody : Option FieldUnit → List Byte
  | none => padTo 56 []
  | some u =>
    padTo 56 (
      [u.link.code, u.gate.code, u.factors.code, boolByte u.generation.isSome ||| boolByte u.lastAccepted.isSome <<< 1,
       (u.generation.getD 0).setWidth 8, byteOf (u.lastAccepted.getD 0), byteOf u.deferDepth, byteOf u.streak, byteOf u.missed,
       byteOf u.cleanRun] ++
      le16 u.unitClass ++ leBytes 2 u.unadmitted ++ u.params.bytes ++
      le32 u.turns ++ le32 u.cleanTurns ++ le32 u.erroredTurns ++ le32 u.noAnswers)

/-- R148: the three writes of a mirror rewrite, from the mirror's current version. -/
def mirrorWrites (addr : Nat) (version : BitVec 64) (body : List Byte) : List Access :=
  [.write addr (le64 (version + 1)) .silent, .write (addr + 8) body .silent, .write addr (le64 (version + 2)) .silent]

/-! ## Slots (R188) -/

/-- The result part, bytes 40h to 6Fh of the slot; every field the outcome does not use is zero. -/
def Result.bytes (r : Result) (unmatched : Bool) (time : Word) : List Byte :=
  [r.outcome.code, boolByte unmatched ||| boolByte r.deferred <<< 1, byteOf r.payload.length, 0] ++ le32 time ++
    padTo 16 r.fields ++ padTo 24 r.payload

/-- R122: the two writes of a completion: the result part, then DONE. The unassigned bytes 70h to 7Eh of the slot are not written (R183;
notes/assumptions/7.md). -/
def completionWrites (base slot : Nat) (r : Result) (unmatched : Bool) (time : Word) (report : ReportTag) : List Access :=
  [.write (slotAddr base slot + 0x40) (r.bytes unmatched time) .silent, .write (stateByteAddr base slot) [stateDone] report]

/-! ## Fault records (R163, R190) -/

/-- The 28 bytes of a fault record after its sequence field. -/
def FaultRecord.body (f : FaultRecord) (time : Word) : List Byte :=
  padTo 28 (le32 time ++ [f.kind.code, byteOf f.unit] ++ le16 f.tag ++ [f.detail, f.detailHigh, 0, 0] ++ le32 f.word1 ++
    le32 f.word2)

/-- R163: the four writes of the record of sequence `seq` at ring index `index`. -/
def faultWrites (base index : Nat) (seq : Word) (f : FaultRecord) (time : Word) : List Access :=
  [.write (faultRecordAddr base index) (le32 0) .silent, .write (faultRecordAddr base index + 4) (f.body time) .silent,
   .write (faultRecordAddr base index) (le32 seq) .silent, .write (newestFaultAddr base) (le32 seq) .newestFault]

/-! ## Journal (R156, R157, R190) -/

/-- R156: 12 bytes of head and the content rounded up to a multiple of 4. -/
def JournalRecord.size (r : JournalRecord) : Nat := 12 + (r.content.length + 3) / 4 * 4

def JournalRecord.bytes (r : JournalRecord) : List Byte :=
  padTo r.size (le32 r.time ++
    [byteOf r.key.unit, byteOf r.key.kind, byteOf r.content.length, boolByte r.early ||| boolByte r.firstAfterChange <<< 1,
     byteOf r.entry, 0, 0, 0] ++ r.content)

/-- The 32-byte page head (R190). -/
def OpenPage.head (o : OpenPage) : List Byte :=
  padTo 32 (le32 o.pageSeq ++ leBytes 2 o.count ++ leBytes 2 o.used ++ le32 (o.firstTime.getD 0) ++ le32 (o.lastTime.getD 0) ++
    le16 (o.gap.getD 0))

/-! ## The service area and window initialisation (R150, R151, R171) -/

/-- The bank word: swap count, frozen bank index, zero (R187). -/
def bankWordBytes (count : Half) (frozen : BankId) : List Byte := le16 count ++ [byteOf frozen.index, 0]

/-- The capacities, one byte each (R151, R187). -/
def capacityBytes : List Byte :=
  [byteOf Config.slotCount, byteOf Config.entryCount, byteOf Config.poolSize, byteOf Config.queueDepth, 30,
   byteOf Config.lentPages, byteOf Config.ringSize, 1]

def zeros (n : Nat) : List Byte := List.replicate n 0

/-- Zero over `n` aligned 32-bit words from an address, word by word (R187). -/
def zeroWords (addr n : Nat) : List Access := (List.range n).map fun i => .write (addr + 4 * i) (zeros 4) .silent

/-- R151: the service area at initialisation: swap count 0, frozen bank 1, both banks zero. -/
def serviceAreaInit (base : Nat) : List Access :=
  [.write (base + 0x40) (le32 Config.ident) .silent, .write (base + 0x44) capacityBytes .silent,
   .write (newestFaultAddr base) (le32 0) .silent, .write (bankWordAddr base) (bankWordBytes 0 .bank1) .silent,
   .write (journalLossAddr base) (le32 0) .silent, .write (unadmittedAddr base) (le32 0) .silent,
   .write (sweepCountAddr base) (le32 0) .silent] ++ zeroWords (bankAddr base .bank0) 8 ++ zeroWords (bankAddr base .bank1) 8 ++
  [.write (base + 0xA0) (zeros 96) .silent]

/-- R150: the three initialisation writes of a mirror. -/
def mirrorInit (addr : Nat) : List Access :=
  [.write addr (le64 1) .silent, .write (addr + 8) (zeros 56) .silent, .write addr (le64 0) .silent]

/-- R171 step 2: every initialisation write, in order. -/
def windowInit (base : Nat) : List Access :=
  serviceAreaInit base ++
  (List.range Config.entryCount).flatMap (fun n => mirrorInit (dirMirrorAddr base n)) ++
  (List.range 32).flatMap (fun a => mirrorInit (unitMirrorAddr base a)) ++
  (List.range Config.ringSize).map (fun i => .write (faultRecordAddr base i) (zeros 32) .silent)

end Sys2Proof.Machine
end

