-- ==== Sys2Proof/Machine/Ops.lean ====
section
/-! DEFINITION. The shared operations: host memory; the Window Port (R174), in which every access and every hand-over of the part is raised; what
the Service Unit does with what it is handed (R151 to R154, R161, R163); the completion of a slot (R122). The CF-2430 takes no
exception; the operations a processor would keep here are raising and performing accesses. -/

namespace Sys2Proof.Machine

/-! ## Host memory -/

/-- What an address reads as: the byte listed, or 0 for a byte nothing has written (notes/assumptions/6.md). -/
def Memory.readByte (m : Memory) (a : Nat) : Byte :=
  match m with
  | [] => 0
  | (k, b) :: rest => if k = a then b else Memory.readByte rest a

/-- Writing one byte; a zero is what an unlisted address reads as, so it removes the entry. -/
def Memory.writeByte (m : Memory) (a : Nat) (b : Byte) : Memory :=
  match m with
  | [] => if b = 0 then [] else [(a, b)]
  | (k, c) :: rest =>
    if a < k then (if b = 0 then (k, c) :: rest else (a, b) :: (k, c) :: rest)
    else if a = k then (if b = 0 then rest else (a, b) :: rest)
    else (k, c) :: Memory.writeByte rest a b

/-- Writing bytes at rising addresses. -/
def Memory.writeBytes (m : Memory) (a : Nat) : List Byte → Memory
  | [] => m
  | b :: rest => Memory.writeBytes (m.writeByte a b) (a + 1) rest

/-- `n` bytes from address `a`. -/
def Memory.readBytes (m : Memory) (a n : Nat) : List Byte := (List.range n).map fun i => m.readByte (a + i)

/-- Every address listed is above `lo`, the addresses rise, and no byte listed is 0. -/
def Memory.wfFrom (lo : Nat) : Memory → Bool
  | [] => true
  | (k, b) :: rest => decide (lo ≤ k) && b != 0 && Memory.wfFrom (k + 1) rest

/-- The canonical form of memory. -/
def Memory.wf (m : Memory) : Bool := Memory.wfFrom 0 m

/-! ## Accesses and the Window Port -/

namespace Access

def isRead : Access → Bool
  | .read .. => true
  | .write .. => false

/-- The answer of the access is a step of the block that raised it: a read, or a write with a report. -/
def reported : Access → Bool
  | .read .. => true
  | .write _ _ .silent => false
  | .write _ _ _ => true

def isReadOf (w : ReadWhat) : Access → Bool
  | .read v _ _ => v == w
  | .write .. => false

def isReport (t : ReportTag) : Access → Bool
  | .read .. => false
  | .write _ _ r => r == t

/-- A bank map write (R153), of either map. -/
def isBankBit : Access → Bool
  | .write _ _ (.bankBit _) => true
  | .read .. | .write _ _ _ => false

end Access

namespace WindowPort

def writesQueued (w : WindowPort) : Nat := (w.fifo.filter fun a => !a.isRead).length

def readsQueued (w : WindowPort) : Nat := (w.fifo.filter Access.isRead).length

/-- R174: there is room in the queue for the access's direction. -/
def hasRoom (w : WindowPort) (a : Access) : Bool :=
  if a.isRead then decide (w.readsQueued < Config.readQueueSize) else decide (w.writesQueued < Config.writeQueueSize)

def waits (w : WindowPort) (b : Block) : Bool := w.waiting.any fun e => e.block == b

/-- No block waits for room, and no work stands behind a wait. -/
def free (w : WindowPort) : Bool := w.waiting.isEmpty && w.later.isEmpty

def push (w : WindowPort) (a : Access) : WindowPort := { w with fifo := w.fifo ++ [a] }

/-- A block that waits keeps its further items behind those it already has; a block that begins to wait does so behind the others. -/
def park (w : WindowPort) (b : Block) (items : List Item) : WindowPort :=
  if w.waits b then
    { w with waiting := w.waiting.map fun e => if e.block == b then { e with items := e.items ++ items } else e }
  else { w with waiting := w.waiting ++ [{ block := b, items := items }] }

/-- Accesses of a block that is not waiting: raised while there is room, the rest waits. -/
def submitFree (b : Block) : List Access → WindowPort → WindowPort
  | [], w => w
  | a :: rest, w =>
    if w.hasRoom a then submitFree b rest (w.push a) else w.park b ((a :: rest).map Item.access)

/-- A block raises accesses one after another (R174). -/
def submit (b : Block) (accesses : List Access) (w : WindowPort) : WindowPort :=
  if w.waits b then w.park b (accesses.map Item.access) else submitFree b accesses w

/-- The accesses raised or waiting to be raised. -/
def outstanding (w : WindowPort) : List Access :=
  w.reports ++ w.fifo ++ w.waiting.flatMap fun e => e.items.filterMap fun
    | .access a => some a
    | .hand _ => none

/-- An upper bound of the accesses that can still be performed: a hand-over raises at most four. -/
def work (w : WindowPort) : Nat := w.fifo.length + 4 * (w.waiting.map fun e => e.items.length).sum + 1

end WindowPort

def Part.submit (b : Block) (accesses : List Access) (p : Part) : Part :=
  { p with port := p.port.submit b accesses }

/-! ## The Service Unit -/

/-- R153 step 1: the read of the map word that the update at the front of the bank queue needs. -/
def ServiceUnit.bankRead (v : ServiceUnit) (base : Nat) : List Access :=
  match v.bankQueue with
  | .update b m i :: _ => [.read .bankWord (mapWordAddr base b m i) 4]
  | .swap _ _ :: _ => []
  | [] => []

/-- R153: a bank bit is taken as an update bound to the active bank; on an empty queue its read is raised at once. -/
def Part.takeBankBit (m : MapKind) (i : Nat) (p : Part) : Part :=
  let svc := { p.svc with bankQueue := p.svc.bankQueue ++ [.update p.svc.activeBank m i] }
  let p' := { p with svc := svc }
  if p.svc.bankQueue.isEmpty then p'.submit .serviceUnit (svc.bankRead p.base) else p'

/-- R163: FFFFFFFFh is followed by 1. -/
def nextSequence (x : Word) : Word := if x = 0xFFFFFFFF then 1 else x + 1

/-- R163: a fault record is given the next sequence number and the next ring index, and its four writes are raised. -/
def Part.takeFault (f : FaultRecord) (p : Part) : Part :=
  { p with svc := { p.svc with nextFault := nextSequence p.svc.nextFault, ringIndex := (p.svc.ringIndex + 1) % Config.ringSize } }.submit
    .serviceUnit (faultWrites p.base p.svc.ringIndex p.svc.nextFault f p.run.clock)

/-- R161: the total of journal losses rises and is written. -/
def Part.takeJournalLoss (p : Part) : Part :=
  { p with svc := { p.svc with journalLosses := p.svc.journalLosses + 1 } }.submit .serviceUnit
    [.write (journalLossAddr p.base) (le32 (p.svc.journalLosses + 1)) .silent]

/-- R12: the total of unadmitted records rises and is written. -/
def Part.takeUnadmitted (p : Part) : Part :=
  { p with svc := { p.svc with unadmitted := p.svc.unadmitted + 1 } }.submit .serviceUnit
    [.write (unadmittedAddr p.base) (le32 (p.svc.unadmitted + 1)) .silent]

/-! ## Completion of a slot -/

/-- The two writes of a completion (R122). -/
def Completion.writes (base : Nat) (c : Completion) : List Access :=
  completionWrites base c.slot c.result c.unmatched c.time (.done c.slot)

/-- R122: the Board Controller takes the completion of a slot; its writes are raised at once, or after the three steps of the completions
before it (notes/assumptions/41.md). -/
def Part.writeCompletion (slot : Nat) (unmatched : Bool) (r : Result) (p : Part) : Part :=
  let c : Completion := { slot := slot, unmatched := unmatched, result := r, time := p.run.clock }
  let q := { p with board := { p.board with completions := p.board.completions ++ [c] } }
  if p.board.completions.isEmpty then q.submit .boardController (c.writes p.base) else q

/-- R122 step 3: BOARD is handed on after a DONE write, and the writes of the next completion are raised. -/
def Part.completionDone (p : Part) : Part :=
  let rest := p.board.completions.drop 1
  ({ p.setSummary bitBoard with board := { p.board with completions := rest } }).submit .boardController
    (match rest with
      | c :: _ => c.writes p.base
      | [] => [])

/-- The held record of an in-flight request. -/
def Part.heldOf (p : Part) (seq : Nat) : Option HeldRequest := p.board.held.find? fun h => h.seq == seq

/-- R122: the completion of the slot that the request of a take sequence came from; the record is freed. -/
def Part.completeSlot (seq : Nat) (r : Result) (p : Part) : Part :=
  match p.heldOf seq with
  | none => p
  | some h =>
    { p with board := { p.board with held := p.board.held.filter fun x => x.seq != seq } }.writeCompletion h.slot h.unmatched r

/-- R120: an in-flight item has finished; the Board Controller resolves it in its turn (notes/assumptions/14.md). -/
def Part.noteFinish (seq : Nat) (success transaction : Bool) (p : Part) : Part :=
  { p with board := { p.board with finishes := p.board.finishes ++ [⟨seq, success, transaction⟩] } }

/-- The completion of a request that is no transaction: its slot is written and it has finished (R118, R122). -/
def Part.completeRequest (seq : Nat) (r : Result) (p : Part) : Part :=
  match p.heldOf seq with
  | none => p
  | some _ => (p.completeSlot seq r).noteFinish seq r.outcome.success false

/-! ## Raising and performing -/

/-- One hand-over is taken by the block it goes to. -/
def Part.deliver (h : Handover) (p : Part) : Part :=
  match h with
  | .bankBit m i => p.takeBankBit m i
  | .fault f => p.takeFault f
  | .journalLoss => p.takeJournalLoss
  | .unadmitted => p.takeUnadmitted
  | .complete seq r => p.completeRequest seq r

/-- What a block that is not waiting raises and hands on, in its order, until it must wait for room (R174). -/
def Part.raiseFree (b : Block) : List Item → Part → Part
  | [], p => p
  | .hand h :: rest, p => raiseFree b rest (p.deliver h)
  | .access a :: rest, p =>
    if p.port.hasRoom a then raiseFree b rest { p with port := p.port.push a }
    else { p with port := p.port.park b (.access a :: rest) }

/-- A block raises accesses and hands things on in its order; while it waits for room, all of it waits (R174). -/
def Part.raise (b : Block) (items : List Item) (p : Part) : Part :=
  if p.port.waits b then { p with port := p.port.park b items } else p.raiseFree b items

/-- Work that one block asks of others: done at once, or behind the accesses that wait for room (R174; notes/assumptions/8.md). -/
def Part.onceFree (w : Work) (act : Part → Part) (p : Part) : Part :=
  if p.port.free then act p else { p with port := { p.port with later := p.port.later ++ [w] } }

/-- The completion of a request by its owning block, which hands it on behind the accesses it has raised before (R174). -/
def Part.finishRequest (b : Block) (seq : Nat) (r : Result) (p : Part) : Part := Part.raise b [.hand (.complete seq r)] p

/-- The entry that may go on: the first whose first access has room. -/
def WindowPort.canGoOn (w : WindowPort) (e : WaitEntry) : Bool :=
  match e.items with
  | .access a :: _ => w.hasRoom a
  | .hand _ :: _ => true
  | [] => true

/-- R174: a place that frees goes to the block that began to wait first; a block with further accesses begins its next wait behind the blocks that wait
already (notes/assumptions/40.md). -/
def Part.refill (p : Part) : Part :=
  match p.port.waiting.find? p.port.canGoOn with
  | none => p
  | some e =>
    { p with port := { p.port with waiting := p.port.waiting.filter fun x => x.block != e.block } }.raiseFree e.block e.items

/-- What an access that is performed makes of memory: a write lands at rising addresses, a read changes nothing. -/
def Access.land (m : Memory) : Access → Memory
  | .write addr bytes _ => m.writeBytes addr bytes
  | .read .. => m

/-- The access at the front is performed: a write lands in memory; an answer its block waits for is kept until the block takes it. -/
def State.performFront (s : State) : State :=
  match s.part.port.fifo with
  | [] => s
  | a :: rest =>
    { s with
      mem := a.land s.mem
      part := ({ s.part with port :=
        { s.part.port with fifo := rest
                           reports := if a.reported then s.part.port.reports ++ [a] else s.part.port.reports } }).refill }

/-- The first `n` accesses are performed, in the order raised. -/
def State.perform : Nat → State → State
  | 0, s => s
  | n + 1, s => State.perform n s.performFront

/-- Accesses are performed until the answer asked for is there. -/
def State.performUntil (what : Access → Bool) : Nat → State → State
  | 0, s => s
  | n + 1, s => if s.part.port.reports.any what then s else State.performUntil what n s.performFront

/-- Everything raised and waiting is performed. -/
def State.performAll (s : State) : State := s.perform s.part.port.work

/-- The first answer that fits is taken from the list. -/
def takeFirst (what : Access → Bool) : List Access → List Access
  | [] => []
  | a :: rest => if what a then rest else a :: takeFirst what rest

/-- A block takes the answer of an access it has raised: the accesses up to it are performed (notes/assumptions/3.md). None when no
such access is outstanding. -/
def State.claim (what : Access → Bool) (s : State) : Option State :=
  if s.part.port.outstanding.any what then
    let s' := s.performUntil what s.part.port.work
    some { s' with part := { s'.part with port :=
      { s'.part.port with reports := takeFirst what s'.part.port.reports } } }
  else none

/-- The answer of the machine to a command that changes the part alone. -/
def State.onPart (f : Part → Part) (s : State) : State := { s with part := f s.part }

end Sys2Proof.Machine
end

