-- ==== Sys2Proof/Machine/Journal.lean ====
section
/-! DEFINITION. The Journal Writer's shared operations: lending, appending and losing records, completing pages (R155 to R162). -/

namespace Sys2Proof.Machine

/-- R146: the result part of a LEND whose page was opened. -/
def OpenPage.lendResult (o : OpenPage) (outcome : ReqOutcome) : Result :=
  { outcome := outcome, fields := le32 o.pageSeq ++ leBytes 2 o.count ++ leBytes 2 o.used ++ le16 (o.gap.getD 0) }

/-- R147: the result part of a CUT that completed the page. -/
def OpenPage.cutResult (o : OpenPage) : Result :=
  { outcome := .ok, fields := le32 o.pageSeq ++ leBytes 2 o.count ++ leBytes 2 o.used }

/-- R157 step 2: the write of the page head. -/
def Page.headWrite (g : Page) (o : OpenPage) : Item := .access (.write g.addr.toNat o.head .silent)

/-- R158: the reading at which the open page's flush timer expires. -/
def Page.flushDue (g : Page) (o : OpenPage) (now : Word) : Bool :=
  match o.flushTimer with
  | some start => reached now (after start (10 * g.flushAge))
  | none => false

/-- R155: a page reaches the front of the queue and opens. -/
def JournalWriter.openFront (j : JournalWriter) : JournalWriter :=
  { j with
    opened := some { pageSeq := j.nextPage, count := 0, used := Config.pageHeadSize, firstTime := none, lastTime := none, gap := none
                     flushTimer := none }
    nextPage := nextSequence j.nextPage }

/-- R157 step 5: withdrawn pages at the front complete ABORTED, and the first page that is not withdrawn opens. -/
def JournalWriter.passOn (j : JournalWriter) : List Page → JournalWriter × List Item
  | [] => ({ j with pages := [], opened := none }, [])
  | g :: rest =>
    if g.withdrawn then
      let r := j.passOn rest
      (r.1, .hand (.complete g.seq { outcome := .aborted }) :: r.2)
    else (({ j with pages := g :: rest }).openFront, [])

/-- R157: the open page completes. -/
def JournalWriter.completeOpen (outcome : ReqOutcome) (j : JournalWriter) : JournalWriter × List Item :=
  match j.pages, j.opened with
  | g :: rest, some o =>
    let r := j.passOn rest
    (r.1, g.headWrite o :: .hand (.complete g.seq (o.lendResult outcome)) :: r.2)
  | _, _ => (j, [])

def Part.completePage (outcome : ReqOutcome) (p : Part) : Part :=
  let r := p.jw.completeOpen outcome
  Part.raise .journalWriter r.2 { p with jw := r.1 }

/-- R156: a record fits when the bytes used plus its length do not exceed the page size. -/
def JournalWriter.fits (j : JournalWriter) (rec : JournalRecord) : Bool :=
  match j.pages, j.opened with
  | g :: _, some o => decide (o.used + rec.size ≤ 256 * g.size)
  | _, _ => false

/-- R156: the open page with a record appended. -/
def OpenPage.append (o : OpenPage) (g : Page) (rec : JournalRecord) (pendingGap : Half) : OpenPage :=
  { o with
    count := o.count + 1
    used := o.used + rec.size
    firstTime := some (o.firstTime.getD rec.time)
    lastTime := some rec.time
    gap := if o.count = 0 then some pendingGap else o.gap
    flushTimer := if o.count = 0 then (if g.flushAge = 0 then none else some rec.time) else o.flushTimer }

/-- R161: a record is lost. -/
def Part.loseRecord (rec : JournalRecord) (p : Part) : Part :=
  let gapFault : FaultRecord :=
    { kind := .journalGap, unit := rec.key.unit, tag := 0, detail := 0, detailHigh := 0, word1 := wordOf rec.entry, word2 := rec.time }
  Part.raise .journalWriter (.hand .journalLoss :: if p.jw.gapReported then [] else [.hand (.fault gapFault)])
    { p with jw := { p.jw with pendingGap := if p.jw.pendingGap = 0xFFFF then 0xFFFF else p.jw.pendingGap + 1, gapReported := true } }

/-- R156, R161: a record is appended to the open page, or lost when none is open. -/
def Part.placeRecord (rec : JournalRecord) (p : Part) : Part :=
  match p.jw.pages, p.jw.opened with
  | g :: _, some o =>
    Part.raise .journalWriter [.access (.write (g.addr.toNat + o.used) rec.bytes .silent)]
      { p with jw := { p.jw with opened := some (o.append g rec p.jw.pendingGap)
                                 pendingGap := if o.count = 0 then 0 else p.jw.pendingGap
                                 gapReported := false } }
  | _, _ => p.loseRecord rec

/-- R156, R157: a record that does not fit completes the open page first. -/
def Part.takeRecord (rec : JournalRecord) (p : Part) : Part :=
  if p.jw.opened.isSome && !p.jw.fits rec then (p.completePage .ok).placeRecord rec else p.placeRecord rec

/-- R145, R155: a LEND joins the queue; once the journal is drained it completes STOPPED. -/
def Part.doLend (seq : Nat) (r : List Byte) (p : Part) : Part :=
  if p.jw.drained then Part.raise .journalWriter [.hand (.complete seq { outcome := .stopped })] p
  else
    let g : Page :=
      { seq := seq, addr := BitVec.ofNat 40 (Req.pageAddress r), size := Req.pageSize r, flushAge := Req.flushAge r, withdrawn := false }
    if p.jw.pages.isEmpty then { p with jw := ({ p.jw with pages := [g] }).openFront }
    else { p with jw := { p.jw with pages := p.jw.pages ++ [g] } }

/-- R159: CUT completes the open page when it holds a record. -/
def Part.doCut (seq : Nat) (p : Part) : Part :=
  match p.jw.pages, p.jw.opened with
  | _ :: _, some o =>
    if o.count = 0 then Part.raise .journalWriter [.hand (.complete seq { outcome := .empty })] p
    else Part.raise .journalWriter [.hand (.complete seq o.cutResult)] (p.completePage .cut)
  | _, _ => Part.raise .journalWriter [.hand (.complete seq { outcome := .empty })] p

/-- R160: an ABORT of a lent page: the open page completes, another is withdrawn. -/
def Part.withdrawPage (seq : Nat) (p : Part) : Part :=
  match p.jw.pages, p.jw.opened with
  | g :: rest, some _ =>
    if g.seq = seq then p.completePage .aborted
    else { p with jw := { p.jw with pages := g :: rest.map fun x => if x.seq = seq then { x with withdrawn := true } else x } }
  | _, _ => p

/-- R158: the open page's flush timer has expired. -/
def Part.flushExpired (p : Part) : Bool :=
  match p.jw.pages, p.jw.opened with
  | g :: _, some o => g.flushDue o p.run.clock
  | _, _ => false

/-- R162: what the end of the drain makes of one page that was never opened. -/
def Page.drainItem (g : Page) : Item :=
  .hand (.complete g.seq { outcome := if g.withdrawn then .aborted else .stopped })

/-- R162: what the end of the drain raises for the queue. -/
def JournalWriter.drainItems (j : JournalWriter) : List Item :=
  match j.pages, j.opened with
  | g :: rest, some o =>
    g.headWrite o :: .hand (.complete g.seq (o.lendResult (if o.count = 0 then .stopped else .ok))) :: rest.map Page.drainItem
  | pages, _ => pages.map Page.drainItem

/-- R162: the journal at the end of the drain. -/
def Part.drainJournal (p : Part) : Part :=
  Part.raise .journalWriter p.jw.drainItems { p with jw := { p.jw with pages := [], opened := none, drained := true } }

end Sys2Proof.Machine
end

