-- ==== Sys2Proof/Machine/Units.lean ====
section
/-! DEFINITION. The Unit Manager's shared operations: writing a place with its mirror and bank bit (R40, R148), enrolment (R42, R43, R54), HOLD
(R53), ANNOUNCE (R33 to R35), turn outcomes (R29 to R32), the LINE condition (R52), the settle timer (R51) and the unadmitted
count (R41). -/

namespace Sys2Proof.Machine

/-! ## Places -/

def Part.unitSlot (p : Part) (a : Nat) : UnitSlot := p.um.slots[a]?.getD {}

/-- The unit enrolled at an address. -/
def Part.unitAt (p : Part) (a : Nat) : Option FieldUnit := (p.unitSlot a).place

/-- Check 4 of R115: the unit is enrolled and not DEPARTING. -/
def Part.unitPresent (p : Part) (a : Nat) : Bool :=
  match p.unitAt a with
  | some u => u.link != .departing
  | none => false

def Part.unitDeparting (p : Part) (a : Nat) : Bool :=
  match p.unitAt a with
  | some u => u.link == .departing
  | none => false

/-- R40: the changes that set the unit's bit in the active change bank. -/
def unitBitChange : Option FieldUnit → Option FieldUnit → Bool
  | none, none => false
  | none, some _ => true
  | some _, none => true
  | some o, some n =>
    o.link != n.link || o.gate != n.gate || o.factors != n.factors || (o.generation.isSome && o.generation != n.generation) ||
    (o.unadmitted == 0 && n.unadmitted != 0)

/-- R40: a place takes its new content. The mirror is rewritten when a shown field changed, or when the event's rule rewrites it in every case;
then the bank bit is handed on. Addresses 0 and 31 have no place (R24). -/
def Part.putUnit (a : Nat) (new : Option FieldUnit) (always : Bool) (p : Part) : Part :=
  if 1 ≤ a ∧ a ≤ 30 then
    let slot := p.unitSlot a
    let rewrite := always || unitBody slot.place != unitBody new
    let slot' : UnitSlot := { version := if rewrite then slot.version + 2 else slot.version, place := new }
    let writes := if rewrite then mirrorWrites (unitMirrorAddr p.base a) slot.version (unitBody new) else []
    let bit := if unitBitChange slot.place new then [Item.hand (.bankBit .unit a)] else []
    Part.raise .unitManager (writes.map Item.access ++ bit) { p with um := { p.um with slots := p.um.slots.setIfInBounds a slot' } }
  else p

/-- A change of the unit at an address; nothing happens at an empty place. -/
def Part.updateUnit (a : Nat) (f : FieldUnit → FieldUnit) (p : Part) : Part :=
  match p.unitAt a with
  | some u => p.putUnit a (some (f u)) false
  | none => p

/-! ## Enrolment -/

/-- R26, R42, R46: a newly enrolled unit; its first roll call is due at once (R77). -/
def newUnit (q : UnitParams) (lineFault : Bool) (now : Word) : FieldUnit :=
  { params := q, link := .seeking, streak := 0, missed := 0, cleanRun := 0, generation := none, unitClass := 0, deferDepth := 0
    lastAccepted := none, gate := .opened, factors := { line := lineFault }, settle := none, turns := 0, cleanTurns := 0
    erroredTurns := 0, noAnswers := 0, unadmitted := 0, lastToken := 0, reservations := [], pendingAck := none, pollDue := none
    pollReady := false, lastPoll := none, rollDue := some now, rollReady := false }

/-- R43, R76: the ten parameters are replaced; a changed poll interval counts from the start of the last poll turn. An entry into ONLINE from SUSPECT does not
forget that turn (notes/assumptions/54.md). -/
def FieldUnit.withParams (q : UnitParams) (u : FieldUnit) : FieldUnit :=
  if q.pollInterval = u.params.pollInterval then { u with params := q }
  else match u.lastPoll with
    | some start => { u with params := q, pollDue := some (after start (10 * q.pollInterval)), pollReady := false }
    | none => { u with params := q }

/-- R132: disposition and gate state. -/
def Part.doEnroll (seq : Nat) (r : List Byte) (p : Part) : Part :=
  match p.unitAt (Req.unit r) with
  | none =>
    let u := (newUnit (Req.unitParams r) p.line.fault.isSome p.run.clock).judgeGate p.run.clock
    (p.putUnit (Req.unit r) (some u) true).finishRequest .unitManager seq { outcome := .ok, fields := [1, u.gate.code] }
  | some old =>
    let u := (old.withParams (Req.unitParams r)).judgeGate p.run.clock
    (p.putUnit (Req.unit r) (some u) false).finishRequest .unitManager seq { outcome := .ok, fields := [2, u.gate.code] }

/-! ## HOLD (R53, R135) -/

/-- FORCED is set or released; where it already is so, nothing changes. -/
def FieldUnit.force (set : Bool) (now : Word) (u : FieldUnit) : FieldUnit :=
  if u.factors.forced = set then u else { u with factors := { u.factors with forced := set } }.judgeGate now

def Part.doHold (seq : Nat) (r : List Byte) (p : Part) : Part :=
  match p.unitAt (Req.unit r) with
  | none => p.finishRequest .unitManager seq { outcome := .noUnit }
  | some old =>
    let u := old.force (Req.param r 0 == 1) p.run.clock
    (p.putUnit (Req.unit r) (some u) false).finishRequest .unitManager seq
      { outcome := .ok, fields := [boolByte old.factors.forced, u.gate.code] }

/-! ## ANNOUNCE -/

/-- R76, R77: no roll-call due time is kept in ONLINE; the first poll due time is given at the end of the turn. Of the entries into ONLINE this one, from SEEKING
or LOST, forgets the last poll turn (notes/assumptions/54.md). -/
def FieldUnit.enterOnline (now : Word) (u : FieldUnit) : FieldUnit :=
  { u.setLink .online with rollDue := none, rollReady := false, pollDue := none, pollReady := false, lastPoll := none }.judgeGate now

/-- R33 to R36: what an accepted ANNOUNCE makes of the unit; its generation has been judged before. A unit that has become DEPARTING in its roll-call turn is
left as it is (notes/assumptions/53.md). -/
def FieldUnit.announce (gen : BitVec 3) (cls : Half) (depth : Nat) (now : Word) (u : FieldUnit) : FieldUnit :=
  match u.link with
  | .seeking => { u with generation := some gen, unitClass := cls, deferDepth := min depth 4 }.enterOnline now
  | .lost => { u with unitClass := cls, deferDepth := min depth 4, streak := 0, missed := 0, cleanRun := 0 }.enterOnline now
  | .online | .suspect | .departing => u

/-- R34, R35, R70: the unit takes an accepted ANNOUNCE; the mirror is rewritten and the bank bit handed on. A DEPARTING unit and its mirror are left as they are
(notes/assumptions/53.md). -/
def Part.takeAnnounce (a : Nat) (gen : BitVec 3) (cls : Half) (depth : Nat) (p : Part) : Part :=
  match p.unitAt a with
  | none => p
  | some u =>
    if u.link = .seeking ∨ u.link = .lost then p.putUnit a (some (u.announce gen cls depth p.run.clock)) true else p

/-! ## Turn outcomes -/

def saturate (limit n : Nat) : Nat := if n < limit then n + 1 else limit

/-- R29. -/
def FieldUnit.countTurn (o : TurnOutcome) (u : FieldUnit) : FieldUnit :=
  { u with
    turns := u.turns + 1
    cleanTurns := if o = .clean then u.cleanTurns + 1 else u.cleanTurns
    erroredTurns := if o = .errored then u.erroredTurns + 1 else u.erroredTurns
    noAnswers := if o = .noAnswer then u.noAnswers + 1 else u.noAnswers }

/-- R30: the three health counts. -/
def FieldUnit.countHealth (o : TurnOutcome) (u : FieldUnit) : FieldUnit :=
  match o with
  | .clean => { u with streak := 0, missed := 0, cleanRun := saturate 255 u.cleanRun }
  | .errored => { u with streak := saturate 255 u.streak, missed := 0, cleanRun := 0 }
  | .noAnswer => { u with missed := saturate 255 u.missed }
  | .interrupted => u

/-- R31, R76, R77: entry into LOST. -/
def FieldUnit.enterLost (now : Word) (u : FieldUnit) : FieldUnit :=
  { u.setLink .lost with pollDue := none, pollReady := false, lastPoll := none, rollDue := some now, rollReady := false }.judgeGate now

/-- R30, R31: the transitions the counts cause after a poll or command turn. -/
def FieldUnit.judgeHealth (o : TurnOutcome) (now : Word) (u : FieldUnit) : FieldUnit :=
  match o, u.link with
  | .errored, .online => if u.params.streakThreshold ≤ u.streak then (u.setLink .suspect).judgeGate now else u
  | .clean, .suspect => if u.params.streakThreshold ≤ u.cleanRun then (u.setLink .online).judgeGate now else u
  | .noAnswer, .online | .noAnswer, .suspect => if u.params.silenceLimit ≤ u.missed then u.enterLost now else u
  | _, _ => u

/-- R29 to R32, R76: a turn outcome of a unit that is not DEPARTING. -/
def FieldUnit.takeTurn (kind : TurnKind) (o : TurnOutcome) (now : Word) (u : FieldUnit) : FieldUnit :=
  match kind with
  | .rollCall =>
    let v := u.countTurn o
    if v.link = .online ∧ v.pollDue = none then { v with pollDue := some now, pollReady := false } else v
  | .poll | .command _ =>
    if u.link = .online ∨ u.link = .suspect then ((u.countTurn o).countHealth o).judgeHealth o now else u.countTurn o

/-- R44, R45: the place of a DEPARTING unit is emptied at the end of its turn, and a DISMISS that waited completes OK. -/
def Part.removeUnit (a : Nat) (p : Part) : Part :=
  let p' := p.putUnit a none false
  match p'.um.dismissWait with
  | some d =>
    if d.unit = a then
      { p' with um := { p'.um with dismissWait := none } }.finishRequest .unitManager d.seq
        { outcome := .ok, fields := [byteOf d.retired, byteOf d.ended] }
    else p'
  | none => p'

/-- R29, R45: the Unit Manager takes the report of a turn. -/
def Part.unitTurnEnd (a : Nat) (kind : TurnKind) (o : TurnOutcome) (p : Part) : Part :=
  match p.unitAt a with
  | none => p
  | some u => if u.link = .departing then p.removeUnit a else p.putUnit a (some (u.takeTurn kind o p.run.clock)) true

/-! ## Conditions and timers -/

/-- The addresses that have a place. -/
def unitAddresses : List Nat := (List.range 30).map (· + 1)

/-- R52: the LINE condition enters or leaves one factor set. -/
def Part.lineCondition (faulty : Bool) (a : Nat) (p : Part) : Part :=
  match p.unitAt a with
  | none => p
  | some u =>
    if u.link = .departing then p
    else p.putUnit a (some ({ u with factors := { u.factors with line := faulty } }.judgeGate p.run.clock)) false

/-- R52: the report of a line fault's begin or end, in ascending address order. -/
def Part.reportLineFault (faulty : Bool) (p : Part) : Part := unitAddresses.foldl (fun q a => q.lineCondition faulty a) p

/-- R51: the settle timer of a SETTLING gate has expired. -/
def FieldUnit.settleDue (now : Word) (u : FieldUnit) : Bool :=
  match u.gate, u.settle with
  | .settling, some t => reached now t.expiry
  | _, _ => false

/-- R41: an unadmitted record of the unit; each report rewrites the mirror. -/
def Part.countUnadmitted (a : Nat) (p : Part) : Part :=
  match p.unitAt a with
  | some u => p.putUnit a (some { u with unadmitted := saturate 65535 u.unadmitted }) true
  | none => p

/-- R173: every settle timer stops at entry into STOPPED. -/
def UnitManager.stopTimers (m : UnitManager) : UnitManager :=
  { m with slots := m.slots.map fun s => { s with place := s.place.map fun u => { u with settle := none } } }

end Sys2Proof.Machine
end

