-- ==== Sys2Proof/Machine/Directory.lean ====
section
/-! DEFINITION. The Directory Engine's shared operations: entries by number and key (R1, R2), the stale timer (R4, R5), arrivals (R6 to R12), notifying
changes and mirrors (R13, R14), the entry requests (R16 to R21) and change-clear (R22). -/

namespace Sys2Proof.Machine

/-! ## Entries -/

def Part.entrySlot (p : Part) (n : Nat) : EntrySlot := p.dir.slots[n]?.getD {}

def Part.entryAt (p : Part) (n : Nat) : Option Entry := (p.entrySlot n).entry

def entryNumbers : List Nat := List.range Config.entryCount

/-- R1: the number of the entry that holds a key. -/
def Part.findEntry (k : Key) (p : Part) : Option Nat :=
  entryNumbers.find? fun n => match p.entryAt n with
    | some e => e.key == k
    | none => false

/-- R1: the lowest vacant number. -/
def Part.vacantEntry (p : Part) : Option Nat := entryNumbers.find? fun n => (p.entryAt n).isNone

/-- R13: a change that the notify modes ALL and CHANGE announce. -/
def NotifyMode.state (m : NotifyMode) : Bool := m != .never

/-- R1, R13, R14: an entry number takes its new content. The mirror is rewritten when a shown field changed; then a notifying change is
handed on. A vacated number shows the key it last held. -/
def Part.putEntry (n : Nat) (new : Option Entry) (notify : Bool) (p : Part) : Part :=
  if n < Config.entryCount then
    let slot := p.entrySlot n
    let shown := match new with
      | some e => e.key
      | none => slot.shownKey
    let body := dirBody shown new
    let rewrite := dirBody slot.shownKey slot.entry != body
    let slot' : EntrySlot := { version := if rewrite then slot.version + 2 else slot.version, shownKey := shown, entry := new }
    let writes := if rewrite then mirrorWrites (dirMirrorAddr p.base n) slot.version body else []
    let bit := if notify then [Item.hand (.bankBit .directory n)] else []
    Part.raise .directoryEngine (writes.map Item.access ++ bit) { p with dir := { p.dir with slots := p.dir.slots.setIfInBounds n slot' } }
  else p

/-- R4: the stale timer that an entry with this max interval has from a start moment. -/
def staleFrom (maxInterval : Half) (start : Word) : Option Word := if maxInterval = 0 then none else some start

/-- R4: the stale timer has expired. -/
def Entry.staleDue (e : Entry) (now : Word) : Bool :=
  match e.staleTimer with
  | some start => reached now (after start (10 * e.policies.maxInterval.toNat))
  | none => false

/-- R5: the entry becomes STALE. -/
def Entry.expire (e : Entry) : Entry :=
  { e with state := .stale, staleTimer := none, content := if e.policies.stale = .dropContent then none else e.content }

/-- R21, R22: the content goes absent, the entry is AWAITING, the stale timer restarts. -/
def Entry.clearContent (now : Word) (e : Entry) : Entry :=
  { e with content := none, state := .awaiting, staleTimer := staleFrom e.policies.maxInterval now }

/-! ## Arrivals -/

/-- R7: the chatter guard judges an arrival early. -/
def Entry.early (e : Entry) (time : Word) : Bool :=
  match e.lastArrival with
  | some last => e.policies.minInterval != 0 && !e.firstAfterChange && decide (elapsed time last < 10 * e.policies.minInterval.toNat)
  | none => false

/-- R8: the chatter count rises, saturating. -/
def Entry.countChatter (e : Entry) : Entry := { e with chatter := if e.chatter = 0xFFFF then 0xFFFF else e.chatter + 1 }

/-- R9: a stored arrival. -/
def Entry.store (content : List Byte) (time : Word) (e : Entry) : Entry :=
  { e with
    content := some content
    arrivals := e.arrivals + 1
    lastInterval := match e.lastArrival with
      | some last => some (if elapsed time last < 0xFFFF then BitVec.ofNat 16 (elapsed time last) else 0xFFFF)
      | none => none
    lastArrival := some time
    state := .fresh
    staleTimer := staleFrom e.policies.maxInterval time
    firstAfterChange := false }

/-- R13: whether the arrival stored into an entry notifies. -/
def Entry.storeNotifies (old : Entry) (content : List Byte) : Bool :=
  match old.policies.notify with
  | .all => true
  | .change => old.state != .fresh || old.content != some content
  | .never => false

/-- R15: the journal record of an arrival stored into an entry. -/
def Entry.journalRecord (old : Entry) (n : Nat) (content : List Byte) (time : Word) (early : Bool) : JournalRecord :=
  { time := time, key := old.key, content := content, entry := n, early := early, firstAfterChange := old.firstAfterChange }

/-- R15: the record is handed to the Journal Writer, behind the accesses of the Directory Engine (R174; notes/assumptions/8.md, notes/assumptions/43.md). -/
def Part.handRecord (r : JournalRecord) (p : Part) : Part := p.onceFree (.record r) (Part.takeRecord r)

/-- R9, R13, R15: an arrival is stored into the entry of a number. `counted` is the entry with an early arrival already counted. The mirror rewrite and
the bank bit come before the journal record is handed on (notes/assumptions/43.md). -/
def Part.storeArrival (n : Nat) (counted : Entry) (content : List Byte) (early : Bool) (p : Part) : Part :=
  let p' := p.putEntry n (some (counted.store content p.run.clock)) (counted.storeNotifies content)
  if counted.policies.journal then p'.handRecord (counted.journalRecord n content p.run.clock early) else p'

/-- R2: an entry as DECLARE or auto-admission creates it. -/
def newEntry (k : Key) (origin : Origin) (q : Policies) (staleTimer : Option Word) : Entry :=
  { key := k, origin := origin, state := .awaiting, content := none, policies := q, arrivals := 0, chatter := 0, lastArrival := none
    lastInterval := none, firstAfterChange := false, staleTimer := staleTimer }

/-- R11: creation and store are one change, from VACANT to FRESH; the journal record is handed on last (notes/assumptions/43.md). -/
def Part.admitArrival (n : Nat) (k : Key) (content : List Byte) (p : Part) : Part :=
  let e := newEntry k .admitted p.dir.defaults none
  let p' := p.putEntry n (some (e.store content p.run.clock)) e.policies.notify.state
  if e.policies.journal then p'.handRecord (e.journalRecord n content p.run.clock false) else p'

/-- R12: an unadmitted record is reported to the Unit Manager and to the Service Unit, of which the Unit Manager acts first (notes/assumptions/42.md). -/
def Part.leaveUnadmitted (k : Key) (p : Part) : Part := Part.raise .directoryEngine [.hand .unadmitted] (p.countUnadmitted k.unit)

/-- R6 to R12: the Directory Engine takes an arrival. -/
def Part.takeArrival (k : Key) (content : List Byte) (p : Part) : Part :=
  if p.unitDeparting k.unit then p
  else match p.findEntry k with
    | some n =>
      match p.entryAt n with
      | some e =>
        if e.early p.run.clock then
          match e.policies.early with
          | .drop => p.putEntry n (some e.countChatter) false
          | .keep => p.storeArrival n e.countChatter content true
        else p.storeArrival n e content false
      | none => p
    | none =>
      match if p.dir.autoAdmission then p.vacantEntry else none with
      | some n => p.admitArrival n k content
      | none => p.leaveUnadmitted k

/-! ## Entry requests -/

/-- R16, R17: DECLARE creates the entry of its key or updates it. -/
def Part.doDeclare (seq : Nat) (r : List Byte) (p : Part) : Part :=
  let q := Req.policies r
  match p.findEntry (Req.key r) with
  | some n =>
    match p.entryAt n with
    | some e =>
      let timer :=
        if e.policies.maxInterval = q.maxInterval then e.staleTimer
        else if e.state = .stale then none else staleFrom q.maxInterval p.run.clock
      let e' := { e with origin := .declared, policies := q, staleTimer := timer }
      (p.putEntry n (some e') false).finishRequest .directoryEngine seq { outcome := .ok, fields := [byteOf n, 2, e'.state.code] }
    | none => p
  | none =>
    match p.vacantEntry with
    | some n =>
      let e := newEntry (Req.key r) .declared q (staleFrom q.maxInterval p.run.clock)
      (p.putEntry n (some e) q.notify.state).finishRequest .directoryEngine seq { outcome := .ok, fields := [byteOf n, 1, e.state.code] }
    | none => p.finishRequest .directoryEngine seq { outcome := .noRoom }

/-- R19: an entry is retired; the notify mode it held decides. -/
def Part.retireEntry (n : Nat) (p : Part) : Part :=
  match p.entryAt n with
  | some e => p.putEntry n none e.policies.notify.state
  | none => p

/-- R19, R137. -/
def Part.doRetire (seq : Nat) (r : List Byte) (p : Part) : Part :=
  match p.findEntry (Req.key r) with
  | some n =>
    let arrivals := match p.entryAt n with
      | some e => e.arrivals
      | none => 0
    (p.retireEntry n).finishRequest .directoryEngine seq { outcome := .ok, fields := [byteOf n, 0] ++ le16 arrivals }
  | none => p.finishRequest .directoryEngine seq { outcome := .noEntry }

/-- The numbers of the entries that fit a test, ascending. -/
def Part.entriesWhere (f : Entry → Bool) (p : Part) : List Nat :=
  entryNumbers.filter fun n => match p.entryAt n with
    | some e => f e
    | none => false

/-- R21: the selector of a CLEAR. -/
def clearSelects (r : List Byte) (e : Entry) : Bool :=
  (Req.unit r == Req.all || Req.unit r == e.key.unit) && (Req.code r == Req.all || Req.code r == e.key.kind)

/-- R21: the options of a CLEAR applied to one entry. -/
def clearEntry (content counts : Bool) (now : Word) (e : Entry) : Entry :=
  let e1 := if content then e.clearContent now else e
  if counts then { e1 with arrivals := 0, chatter := 0 } else e1

/-- R13: CLEAR_CONTENT and change-clear notify when they take an entry from FRESH or STALE to AWAITING. -/
def Entry.clearNotifies (e : Entry) : Bool := e.state != .awaiting && e.policies.notify.state

/-- R21, R14: one selected entry is cleared. Its mirror is rewritten, and then its bank bit handed on where the change is notified. -/
def Part.clearNumber (content counts : Bool) (n : Nat) (p : Part) : Part :=
  match p.entryAt n with
  | some e => p.putEntry n (some (clearEntry content counts p.run.clock e)) (content && e.clearNotifies)
  | none => p

/-- R21, R138: CLEAR. The mirrors are rewritten in ascending entry number. Each entry's bank bit is handed on directly behind its own mirror rewrite, before the
rewrite of the next selected entry: the model's choice (notes/assumptions/55.md). -/
def Part.doClear (seq : Nat) (r : List Byte) (p : Part) : Part :=
  let content := (byteOf (Req.param r 0)).getLsbD 0
  let counts := (byteOf (Req.param r 0)).getLsbD 1
  let selected := p.entriesWhere (clearSelects r)
  let changed := if content then p.entriesWhere fun e => clearSelects r e && e.state != .awaiting else []
  (selected.foldl (fun q n => q.clearNumber content counts n) p).finishRequest .directoryEngine seq
    { outcome := .ok, fields := [byteOf selected.length, byteOf changed.length] }

/-- R20: the entries of a dismissed unit are retired, in ascending entry number. -/
def Part.retireUnit (a : Nat) (p : Part) : Part :=
  (p.entriesWhere fun e => e.key.unit == a).foldl (fun q n => q.retireEntry n) p

/-- R22: one entry is change-cleared. -/
def Part.changeClear (n : Nat) (p : Part) : Part :=
  match p.entryAt n with
  | some e => p.putEntry n (some { e.clearContent p.run.clock with firstAfterChange := true }) e.clearNotifies
  | none => p

/-- R22: the unit-change notice. -/
def Part.changeClearUnit (a : Nat) (p : Part) : Part :=
  (p.entriesWhere fun e => e.key.unit == a && e.policies.change == .clear).foldl (fun q n => q.changeClear n) p

/-- R3, R173: every stale timer stops at entry into STOPPED. -/
def DirectoryEngine.stopTimers (d : DirectoryEngine) : DirectoryEngine :=
  { d with slots := d.slots.map fun s => { s with entry := s.entry.map fun e => { e with staleTimer := none } } }

end Sys2Proof.Machine
end

