-- ==== Sys2Proof/Machine/Transactions.lean ====
section
/-! DEFINITION. The Transaction Engine's shared operations: finishing a transaction (R85), eligibility and tokens (R86 to R89), the settlement of a
command turn (R90 to R92), RESULT (R93), deadlines, SYNC (R100), ABORT (R102 to R104), the notices (R105 to R107); and DISMISS (R44). -/

namespace Sys2Proof.Machine

/-! ## Records -/

def Part.findTxn (seq : Nat) (p : Part) : Option Transaction := p.te.pool.find? fun t => t.seq == seq

def Part.mapTxn (seq : Nat) (f : Transaction → Transaction) (p : Part) : Part :=
  { p with te := { p.te with pool := p.te.pool.map fun t => if t.seq = seq then f t else t } }

/-- R83: a unit's queue, in take order. -/
def Part.unitQueue (a : Nat) (p : Part) : List Transaction := p.te.pool.filter fun t => t.unit == a

/-! ## SYNC (R100, R142) -/

/-- R142: captured, finished, failed. -/
def SyncRecord.fields (y : SyncRecord) : List Byte := [byteOf y.captured, byteOf y.finished, byteOf y.failed]

/-- R100: every captured transaction has finished and no predecessor is unfinished. -/
def SyncRecord.ready (y : SyncRecord) : Bool := y.finished == y.captured && y.pred.isNone

/-- A waiting SYNC completes. -/
def Part.endSync (y : SyncRecord) (outcome : ReqOutcome) (p : Part) : Part :=
  { p with te := { p.te with syncs := p.te.syncs.filter fun x => x.seq != y.seq } }.completeRequest y.seq
    { outcome := outcome, fields := y.fields }

/-- R100: of these waiting SYNCs, those with nothing left to wait for complete, in take order (notes/assumptions/47.md). -/
def Part.endSyncs (ys : List SyncRecord) (p : Part) : Part := (ys.filter SyncRecord.ready).foldl (fun q y => q.endSync y .ok) p

/-- R85 step 6: a transaction that has finished is counted by a SYNC that captured it. -/
def SyncRecord.count (seq : Nat) (ok : Bool) (y : SyncRecord) : SyncRecord :=
  if y.waitingFor.contains seq then
    { y with finished := y.finished + 1, failed := if ok then y.failed else y.failed + 1, waitingFor := y.waitingFor.filter (· != seq) }
  else y

/-! ## Finishing -/

/-- How a transaction ends: its outcome, the payload and reason of the result, the expiry of the reservation its token becomes, and whether an
ABORT with the effect ABORTED ended it. -/
structure Ending where
  outcome : ReqOutcome
  payload : List Byte := []
  reason : Byte := 0
  reserve : Option Word := none
  byAbort : Bool := false
  deriving DecidableEq, Repr

/-- R140: the result part of a finished TRANSACT. -/
def Transaction.result (t : Transaction) (e : Ending) : Result :=
  { outcome := e.outcome, deferred := t.everDeferred, payload := e.payload
    fields := [e.reason, byteOf (t.token.getD 0), byteOf t.sends] }

/-- R98: the LATE_FAILURE record of a transaction without origin slot. -/
def Transaction.lateFailure (t : Transaction) (e : Ending) : FaultRecord :=
  let data := if e.outcome = .unitRefused then [e.reason] else e.payload
  { kind := .lateFailure, unit := t.unit, tag := t.tag, detail := e.outcome.code, detailHigh := byteOf t.command
    word1 := wordOf (leAt data 0 4), word2 := wordOf (leAt data 4 4) }

/-- R85 step 2: the token becomes a reservation where the ending says so; it is freed with the record otherwise. A reservation whose expiry
is reached already ends at once: R89 and R92 say so of a deadline, and the model does the same for an ABORT (notes/assumptions/45.md). -/
def Part.reserveToken (t : Transaction) (e : Ending) (p : Part) : Part :=
  match e.reserve, t.token with
  | some expiry, some token =>
    if reached p.run.clock expiry then p
    else p.updateUnit t.unit fun u => { u with reservations := u.reservations ++ [{ token := token, tag := t.tag, expiry := expiry }] }
  | _, _ => p

/-- R85 steps 3 and 4: the completion of the slot, or the LATE_FAILURE record. -/
def Part.reportEnding (t : Transaction) (e : Ending) (p : Part) : Part :=
  if t.origin.isSome then p.completeSlot t.seq (t.result e)
  else if e.outcome = .ok || e.byAbort then p
  else Part.raise .transactionEngine [.hand (.fault (t.lateFailure e))] p

/-- R85: a transaction finishes; steps 5 and 6 follow where the Board Controller resolves the finish (`Part.resolveFinish`). -/
def Part.finishTxn (t : Transaction) (e : Ending) (p : Part) : Part :=
  let removed := { p with te := { p.te with pool := p.te.pool.filter fun x => x.seq != t.seq } }
  ((removed.reserveToken t e).reportEnding t e).noteFinish t.seq (e.outcome == .ok) true

/-- Every transaction of a list finishes with one outcome, tokens freed. -/
def Part.finishAll (ts : List Transaction) (outcome : ReqOutcome) (p : Part) : Part :=
  ts.foldl (fun q t => q.finishTxn t { outcome := outcome }) p

/-! ## Eligibility and tokens -/

/-- R83: the first PENDING transaction of a unit's queue. -/
def Part.queueHead (a : Nat) (p : Part) : Option Transaction := p.te.pool.find? fun t => t.unit == a && t.state == .pending

/-- R86: DEFERRED transactions plus reservations. -/
def Part.outstanding (a : Nat) (u : FieldUnit) (p : Part) : Nat :=
  ((p.unitQueue a).filter fun t => t.state == .deferred).length + u.reservations.length

/-- R86: the eligible queue head of a unit. -/
def Part.eligibleHead (a : Nat) (p : Part) : Option Transaction :=
  match p.unitAt a, p.queueHead a with
  | some u, some t =>
    if t.pred.isNone && (u.link == .online || u.link == .suspect) && u.gate == .opened &&
        (decide (p.outstanding a u < u.deferDepth) || p.outstanding a u == 0)
    then some t else none
  | _, _ => none

/-- R88: the tokens of a unit that are held or reserved. -/
def Part.tokensInUse (a : Nat) (u : FieldUnit) (p : Part) : List Nat :=
  (p.unitQueue a).filterMap (fun t => t.token) ++ u.reservations.map fun x => x.token

/-- R88: the tokens after the last one assigned, counting cyclically 1 to 15. -/
def tokensAfter (last : Nat) : List Nat := (List.range 15).map fun i => (last + i) % 15 + 1

/-- R87, R88: the token of the commitment, kept or assigned; 0 can only arise where no token is free (notes/assumptions/28.md). -/
def Part.commitToken (a : Nat) (u : FieldUnit) (t : Transaction) (p : Part) : Nat :=
  match t.token with
  | some k => k
  | none => ((tokensAfter u.lastToken).find? fun k => !(p.tokensInUse a u).contains k).getD 0

/-- R87: the transaction of a committed command turn. -/
def Part.markSending (t : Transaction) (token : Nat) (p : Part) : Part :=
  (p.mapTxn t.seq fun x => { x with token := some token, sends := saturate 255 x.sends, state := .sending }).updateUnit t.unit
    fun u => if t.token.isNone then { u with lastToken := token } else u

/-! ## The end of a command turn -/

/-- R90: what the table makes of a SENDING transaction. -/
inductive Settlement where
  | finish (e : Ending)
  | deferred
  | again (retried : Bool)
  deriving DecidableEq, Repr

/-- R89: the reservation of a SENDING transaction whose turn brought DEFER, unless the drain has ended. -/
def deferReservation (a : Answer) (drainEnded : Bool) (expiry : Word) : Option Word :=
  if a = .defer ∧ drainEnded = false then some expiry else none

/-- R90: the first line of the table that applies; lines 7 to 9 follow the answer. -/
def Part.settlement (t : Transaction) (u : FieldUnit) (a : Answer) (p : Part) : Settlement :=
  let now := p.run.clock
  let reserve := deferReservation a p.run.drainEnded (after now (100 * u.params.deferLimit))
  let late := match t.deadline with
    | some d => reached now d
    | none => false
  if u.link = .departing then .finish { outcome := .dismissed, byAbort := t.abortRequested }
  else match a with
    | .reply payload => .finish { outcome := .ok, payload := payload }
    | .refuse reason => .finish { outcome := .unitRefused, reason := reason }
    | .defer =>
      if t.abortRequested then .finish { outcome := .aborted, reserve := reserve, byAbort := true }
      else if late then .finish { outcome := .deadline, reserve := reserve }
      else if p.run.drainEnded then .finish { outcome := .stopped }
      else .deferred
    | .garbled | .noFrame =>
      if t.abortRequested then .finish { outcome := .aborted, byAbort := true }
      else if late then .finish { outcome := .deadline }
      else if p.run.drainEnded then .finish { outcome := .stopped }
      else if t.retries + 1 ≤ u.params.retryLimit then .again true
      else .finish { outcome := .noAnswer }
    | .interrupted =>
      if t.abortRequested then .finish { outcome := .aborted, byAbort := true }
      else if late then .finish { outcome := .deadline }
      else if p.run.drainEnded then .finish { outcome := .stopped }
      else .again false

/-- R144: the result of an ABORT. -/
def abortResult (effect : AbortEffect) (kind : TargetKind) (outcome : Option ReqOutcome) : Result :=
  { outcome := .ok, fields := [effect.code, kind.code, match outcome with
      | some o => o.code
      | none => 0] }

/-- R104: the effect that a settlement gives the waiting ABORTs. -/
def settledEffect (outcome : ReqOutcome) : AbortEffect :=
  if outcome = .ok ∨ outcome = .unitRefused then .tooLate else .aborted

/-- R104: every ABORT waiting on a settled transaction completes, in the order in which they began to wait (notes/assumptions/48.md), behind
the transaction (notes/assumptions/52.md). -/
def Part.endAborts (target : Nat) (outcome : ReqOutcome) (p : Part) : Part :=
  (p.te.aborts.filter fun w => w.target == target).foldl
    (fun q w => { q with te := { q.te with aborts := q.te.aborts.filter fun x => x.seq != w.seq } }.completeRequest w.seq
      (abortResult (settledEffect outcome) .transact (some outcome))) p

/-- R134: a SENDING transaction settled by line 1 counts for the DISMISS that waits. -/
def Part.countDismissed (a : Nat) (p : Part) : Part :=
  match p.um.dismissWait with
  | some d => if d.unit = a then { p with um := { p.um with dismissWait := some { d with ended := d.ended + 1 } } } else p
  | none => p

/-- R90: the Transaction Engine takes the report of a command turn. The settled transaction completes before the ABORTs that waited on it
(notes/assumptions/52.md). -/
def Part.settleCommand (seq : Nat) (a : Answer) (p : Part) : Part :=
  match p.findTxn seq with
  | none => p
  | some t =>
    match p.unitAt t.unit with
    | none => p
    | some u =>
      match p.settlement t u a with
      | .finish e =>
        let p' := if e.outcome = .dismissed then p.countDismissed t.unit else p
        (p'.finishTxn t e).endAborts seq e.outcome
      | .deferred =>
        p.mapTxn seq fun x =>
          { x with state := .deferred, everDeferred := true, deferExpiry := some (after p.run.clock (100 * u.params.deferLimit)) }
      | .again retried => p.mapTxn seq fun x => { x with state := .pending, retries := if retried then x.retries + 1 else x.retries }

/-! ## RESULT and acknowledgements (R93, R94) -/

/-- R93: a LATE_RESULT or STRAY_RESULT record. -/
def resultFault (kind : FaultKind) (unit : Nat) (tag : Half) (code token length : Nat) : FaultRecord :=
  { kind := kind, unit := unit, tag := tag, detail := byteOf code, detailHigh := 0, word1 := wordOf token, word2 := wordOf length }

/-- R94: a RESULT accepted under line 1 or 2 sets both acknowledgement values. -/
def Part.acceptResult (a token : Nat) (p : Part) : Part :=
  p.updateUnit a fun u => { u with pendingAck := some token, lastAccepted := some token }

/-- R93, R94: the first line that applies. The completion or the fault record comes before the unit's mirror rewrite (notes/assumptions/46.md). -/
def Part.takeResult (a token code : Nat) (payload : List Byte) (p : Part) : Part :=
  match p.unitAt a with
  | none => p
  | some u =>
    if u.link = .departing ∨ p.run.drainEnded then p
    else match (p.unitQueue a).find? fun t => t.state == .deferred && t.token == some token with
      | some t =>
        (p.finishTxn t { outcome := if code = 0 then .ok else .negative, payload := payload }).acceptResult a token
      | none =>
        match u.reservations.find? fun x => x.token == token with
        | some x =>
          Part.acceptResult a token (Part.raise .transactionEngine
            [.hand (.fault (resultFault .lateResult a x.tag code token payload.length))]
            (p.updateUnit a fun v => { v with reservations := v.reservations.filter fun y => y.token != token }))
        | none =>
          if u.lastAccepted = some token then p.updateUnit a fun v => { v with pendingAck := some token }
          else Part.raise .transactionEngine [.hand (.fault (resultFault .strayResult a 0 code token payload.length))] p

/-! ## Requests -/

/-- R84, R97: TRANSACT creates a transaction; with EARLY it completes ACCEPTED at once. -/
def Part.doTransact (seq slot : Nat) (r : List Byte) (pred : Option Nat) (p : Part) : Part :=
  let t : Transaction :=
    { tag := Req.tag r, origin := if Req.early r then none else some slot, unit := Req.unit r, command := Req.code r
      payload := Req.payload r, early := Req.early r, urgent := Req.urgent r
      deadline := if Req.deadline r = 0 then none else some (after p.run.clock (Req.deadline r))
      pred := pred, token := none, retries := 0, sends := 0, state := .pending, abortRequested := false, everDeferred := false
      deferExpiry := none, seq := seq }
  let p' := { p with te := { p.te with pool := p.te.pool ++ [t] } }
  if Req.early r then p'.completeSlot seq { outcome := .accepted } else p'

/-- R100: SYNC captures its set; capturing nothing and waiting for nothing, it completes at once. -/
def Part.doSync (seq : Nat) (r : List Byte) (pred : Option Nat) (p : Part) : Part :=
  let captured := if Req.unit r = Req.all then p.te.pool else p.unitQueue (Req.unit r)
  let y : SyncRecord :=
    { seq := seq, deadline := if Req.deadline r = 0 then none else some (after p.run.clock (Req.deadline r)), pred := pred
      captured := captured.length, finished := 0, failed := 0, waitingFor := captured.map fun t => t.seq }
  Part.endSyncs [y] { p with te := { p.te with syncs := p.te.syncs ++ [y] } }

/-- R118: the in-flight item that holds a tag. -/
def Part.holderOf (tag : Half) (p : Part) : Option Nat :=
  if tag = 0 then none
  else match p.board.registry.find? fun e => e.1 == tag with
    | some e => some e.2
    | none => none

/-- What an ABORT finds (R102, R103). -/
inductive AbortTarget where
  | nothing
  | txn (t : Transaction)
  | sync (y : SyncRecord)
  | held (seq : Nat)
  | dismiss (d : WaitingDismiss)
  | lend (seq : Nat)
  | abort
  deriving DecidableEq, Repr

/-- The kind of the in-flight item of a take sequence. -/
def Part.abortTarget (seq : Nat) (p : Part) : AbortTarget :=
  match p.findTxn seq, p.te.syncs.find? fun y => y.seq == seq with
  | some t, _ => .txn t
  | none, some y => .sync y
  | none, none =>
    match p.heldOf seq with
    | none => .nothing
    | some h =>
      if h.owner = .boardController then .held seq
      else if Req.kind h.req = some .abort then .abort
      else if p.jw.pages.any fun g => g.seq == seq then .lend seq
      else match p.um.dismissWait with
        | some d => if d.seq = seq then .dismiss d else .nothing
        | none => .nothing

/-- R102, R103: the ABORT of the take sequence `seq` acts on what it found; on a SENDING transaction it waits (R104). What it ends completes before the ABORT
itself (notes/assumptions/52.md). -/
def Part.abortItem (seq : Nat) (target : AbortTarget) (p : Part) : Part :=
  match target with
  | .nothing => p.completeRequest seq (abortResult .notFound .noTarget none)
  | .abort => p.completeRequest seq (abortResult .notAbortable .abort none)
  | .sync y => (p.endSync y .aborted).completeRequest seq (abortResult .aborted .sync (some .aborted))
  | .held n => (p.completeRequest n { outcome := .aborted }).completeRequest seq (abortResult .aborted .held (some .aborted))
  | .dismiss d =>
    ({ p with um := { p.um with dismissWait := none } }.completeRequest d.seq
      { outcome := .aborted, fields := [byteOf d.retired, byteOf d.ended] }).completeRequest seq
      (abortResult .aborted .dismiss (some .aborted))
  | .lend n => (p.withdrawPage n).finishRequest .journalWriter seq (abortResult .aborted .lend (some .aborted))
  | .txn t =>
    match t.state with
    | .pending =>
      (p.finishTxn t { outcome := .aborted, byAbort := true }).completeRequest seq (abortResult .aborted .transact (some .aborted))
    | .deferred =>
      (p.finishTxn t { outcome := .aborted, byAbort := true, reserve := t.deferExpiry }).completeRequest seq
        (abortResult .aborted .transact (some .aborted))
    | .sending =>
      let p' := p.mapTxn t.seq fun x => { x with abortRequested := true }
      { p' with te := { p'.te with aborts := p'.te.aborts ++ [{ seq := seq, target := t.seq }] } }

/-- R102 to R104: ABORT. -/
def Part.doAbort (seq : Nat) (r : List Byte) (p : Part) : Part :=
  match p.holderOf (Req.targetTag r) with
  | none => p.abortItem seq .nothing
  | some n => p.abortItem seq (p.abortTarget n)

/-! ## Notices -/

/-- R105: the unit-change notice. -/
def Part.failDeferred (a : Nat) (p : Part) : Part :=
  (p.finishAll ((p.unitQueue a).filter fun t => t.state == .deferred) .unitChanged).updateUnit a fun u =>
    { u with reservations := [], pendingAck := none, lastAccepted := none }

/-- R106: the transactions that the dismiss notice finishes. -/
def Part.dismissable (a : Nat) (p : Part) : List Transaction := (p.unitQueue a).filter fun t => t.state != .sending

/-- R106: the dismiss notice. -/
def Part.dismissTransactions (a : Nat) (p : Part) : Part :=
  (p.finishAll (p.dismissable a) .dismissed).updateUnit a fun u => { u with reservations := [] }

/-- R107 steps 1 to 4: the Transaction Engine at the end of the drain. A TRANSACT that ends STOPPED shows its token, send count and Deferred flag as
far as it came (R140; notes/assumptions/38.md). The waiting SYNCs complete in take order (notes/assumptions/47.md). -/
def Part.drainTransactions (p : Part) : Part :=
  let synced := p.te.syncs.foldl (fun q y => q.endSync y .stopped) p
  let ended := synced.finishAll (synced.te.pool.filter fun t => t.state != .sending) .stopped
  unitAddresses.foldl (fun q a => q.updateUnit a fun u => { u with reservations := [], pendingAck := none }) ended

/-! ## DISMISS (R44, R45) -/

/-- A turn with the unit is in progress. -/
def Part.turnWith (a : Nat) (p : Part) : Bool :=
  match p.line.turn with
  | some t => t.unit == a
  | none => false

/-- R44, R45: a DISMISS from its notice on. The Directory Engine takes the notice before the Transaction Engine does (notes/assumptions/37.md); then, with no turn
of the unit in progress, the unit is removed and the DISMISS completes, else it waits for the turn's end. -/
def Part.dismissUnit (seq a : Nat) (p : Part) : Part :=
  let retired := (p.entriesWhere fun e => e.key.unit == a).length
  let emptied := p.retireUnit a
  let ended := (emptied.dismissable a).length
  let p' := emptied.dismissTransactions a
  if p.turnWith a then
    { p' with um := { p'.um with dismissWait := some { seq := seq, unit := a, retired := retired, ended := ended } } }
  else
    let done : Result := { outcome := .ok, fields := [byteOf retired, byteOf ended] }
    (p'.putUnit a none false).onceFree (.dismissed seq done) (Part.completeRequest seq done)

/-- R44: DISMISS makes the unit DEPARTING; the notice follows its mirror rewrite and its bank bit. -/
def Part.doDismiss (seq : Nat) (r : List Byte) (p : Part) : Part :=
  (p.updateUnit (Req.unit r) FieldUnit.depart).onceFree (.dismissal seq (Req.unit r)) (Part.dismissUnit seq (Req.unit r))

/-! ## Generation change (R37 to R39) -/

/-- R39: the unit-change notice to both blocks, of which the Transaction Engine takes it first (notes/assumptions/36.md). -/
def Part.noticeUnitChange (a : Nat) (p : Part) : Part := (p.failDeferred a).changeClearUnit a

/-- R38: steps 1 to 5 of a generation change, and behind them the notice of step 6. -/
def Part.changeGeneration (a : Nat) (u : FieldUnit) (old new : BitVec 3) (p : Part) : Part :=
  let record : FaultRecord :=
    { kind := .unitChanged, unit := a, tag := 0, detail := 0, detailHigh := 0, word1 := old.setWidth 32, word2 := new.setWidth 32 }
  let logged := Part.raise .unitManager [.hand (.fault record)] p
  let stored := logged.putUnit a (some ({ u with generation := some new }.changedEvent p.run.clock)) true
  stored.onceFree (.unitChange a) (Part.noticeUnitChange a)

/-- R37: the generation of a unit frame is judged. -/
def Part.judgeGeneration (a : Nat) (new : BitVec 3) (p : Part) : Part :=
  match p.unitAt a with
  | none => p
  | some u =>
    match u.generation with
    | none => p
    | some old => if u.link = .departing ∨ old = new then p else p.changeGeneration a u old new

end Sys2Proof.Machine
end

