-- ==== Sys2Proof/Machine/Board.lean ====
section
/-! DEFINITION. The Board Controller's shared operations: validation (R115), acceptance and hand-over (R117 to R119), the resolution of finished items (R120,
R121), sweeps (R112, R113) and the end of a drain (R172, R173, R125). -/

namespace Sys2Proof.Machine

/-! ## Validation -/

/-- Check 4 of R115 for the kinds that name a unit in every case. -/
def Part.checkUnit (a : Nat) (p : Part) : Option ReqOutcome := if p.unitPresent a then none else some .noUnit

/-- Check 4 of R115 and R131. -/
def Part.check4 (k : ReqKind) (r : List Byte) (p : Part) : Option ReqOutcome :=
  match k with
  | .transact | .dismiss | .hold | .declare | .retire => p.checkUnit (Req.unit r)
  | .clear | .sync => if Req.unit r = Req.all then none else p.checkUnit (Req.unit r)
  | .enroll => if p.unitDeparting (Req.unit r) then some .noUnit else none
  | .abort | .lend | .cut => none

/-- Check 5 of R115. -/
def Part.check5 (k : ReqKind) (r : List Byte) (p : Part) : Option ReqOutcome :=
  match k with
  | .retire => if (p.findEntry (Req.key r)).isSome then none else some .noEntry
  | .enroll | .dismiss | .hold | .declare | .clear | .transact | .sync | .abort | .lend | .cut => none

/-- Check 6 of R115. -/
def Part.check6 (k : ReqKind) (r : List Byte) (p : Part) : Option ReqOutcome :=
  match k with
  | .declare => if (p.findEntry (Req.key r)).isSome || p.vacantEntry.isSome then none else some .noRoom
  | .transact =>
    if Config.poolSize ≤ p.te.pool.length then some .noRoom
    else if Config.queueDepth ≤ (p.unitQueue (Req.unit r)).length then some .queueFull
    else none
  | .lend => if Config.lentPages ≤ p.jw.pages.length then some .queueFull else none
  | .enroll | .dismiss | .hold | .retire | .clear | .sync | .abort | .cut => none

/-- Checks 4, 5 and 6 in order: at take, and again when a held request's predecessor succeeds (R120). -/
def Part.checkState (k : ReqKind) (r : List Byte) (p : Part) : Option ReqOutcome :=
  (p.check4 k r).or ((p.check5 k r).or (p.check6 k r))

/-- R132: the request names in `after` the DISMISS in flight of its own unit (notes/assumptions/51.md). -/
def Part.namesItsDismiss (r : List Byte) (p : Part) : Bool :=
  match p.holderOf (Req.afterTag r) with
  | some seq =>
    match p.heldOf seq with
    | some h => Req.kind h.req == some .dismiss && Req.unit h.req == Req.unit r
    | none => false
  | none => false

/-- Checks 4, 5 and 6 at take. R132: an ENROLL that names its unit's DISMISS in flight is not refused for the unit being DEPARTING; it is held, and
checked when the DISMISS has finished. -/
def Part.checkAtTake (k : ReqKind) (r : List Byte) (p : Part) : Option ReqOutcome :=
  if k = .enroll ∧ p.namesItsDismiss r = true then none else p.checkState k r

/-- R115: the first check that fails decides the refusal. -/
def Part.validate (r : List Byte) (p : Part) : Option ReqOutcome :=
  match Req.kind r with
  | none => some .badKind
  | some k =>
    if !Req.inRange p.base k r then some .badField
    else if (p.holderOf (Req.tag r)).isSome then some .dupTag
    else p.checkAtTake k r

/-! ## Acceptance -/

/-- The block that owns a kind of request (00_scope.md). -/
def ReqKind.owner : ReqKind → Block
  | .enroll | .dismiss | .hold => .unitManager
  | .declare | .retire | .clear => .directoryEngine
  | .transact | .sync | .abort => .transactionEngine
  | .lend | .cut => .journalWriter

/-- A request is handed to its owning block. -/
def Part.handOver (k : ReqKind) (seq slot : Nat) (r : List Byte) (pred : Option Nat) (p : Part) : Part :=
  match k with
  | .enroll => p.doEnroll seq r
  | .dismiss => p.doDismiss seq r
  | .hold => p.doHold seq r
  | .declare => p.doDeclare seq r
  | .retire => p.doRetire seq r
  | .clear => p.doClear seq r
  | .transact => p.doTransact seq slot r pred
  | .sync => p.doSync seq r pred
  | .abort => p.doAbort seq r
  | .lend => p.doLend seq r
  | .cut => p.doCut seq

/-- R119: TRANSACT and SYNC are handed over with their predecessor; every other kind is held by the Board Controller. -/
def ReqKind.waitsInBlock (k : ReqKind) : Bool := k == .transact || k == .sync

/-- R118: a nonzero tag is registered with its holder. -/
def Part.register (tag : Half) (seq : Nat) (p : Part) : Part :=
  if tag = 0 then p else { p with board := { p.board with registry := p.board.registry ++ [(tag, seq)] } }

/-- R117: the TAKEN write of a request that continues. -/
def Part.writeTaken (slot : Nat) (p : Part) : Part :=
  p.submit .boardController [.write (stateByteAddr p.base slot) [stateTaken] .silent]

/-- R117: the owning block has the request in hand beyond its take: a transaction, a SYNC or an ABORT that waits (R84, R100, R104), a DISMISS that waits for
the end of a turn (R45), a lent page (R155). A request of another kind completes within its take. -/
def Part.keepsInHand (h : HeldRequest) (p : Part) : Bool :=
  match Req.kind h.req with
  | some .transact => p.te.pool.any fun t => t.seq == h.seq
  | some .sync => p.te.syncs.any fun y => y.seq == h.seq
  | some .abort => p.te.aborts.any fun w => w.seq == h.seq
  | some .dismiss => p.turnWith (Req.unit h.req) && p.um.dismissWait.any fun d => d.seq == h.seq
  | some .lend => p.jw.pages.any fun g => g.seq == h.seq
  | some .enroll | some .hold | some .declare | some .retire | some .clear | some .cut | none => false

/-- R111, R117: the record of a request becomes held. -/
def Part.holdRecord (seq : Nat) (p : Part) : Part :=
  let mark (h : HeldRequest) : HeldRequest := if h.seq = seq then { h with taken := true } else h
  { p with board := { p.board with held := p.board.held.map mark } }

/-- R117: the owning block has answered that the request continues: its record becomes held and TAKEN is written. A request that completes within its take
changes nothing here, though its block may still wait for room with the completion (R174): its slot goes from POSTED to DONE. -/
def Part.answerTake (seq : Nat) (p : Part) : Part :=
  match p.heldOf seq with
  | some h => if h.taken = false ∧ p.keepsInHand h = true then (p.holdRecord seq).writeTaken h.slot else p
  | none => p

/-- R117, R119: an accepted request: its tag is registered, its `after` resolved, and it is handed over or held. -/
def Part.accept (k : ReqKind) (seq slot : Nat) (r : List Byte) (p : Part) : Part :=
  let p1 := p.register (Req.tag r) seq
  let pred := p1.holderOf (Req.afterTag r)
  let waits := pred.isSome && !k.waitsInBlock
  let h : HeldRequest :=
    { slot := slot, req := r, takeTime := p.run.clock, seq := seq, owner := if waits then .boardController else k.owner
      pred := pred, unmatched := Req.afterTag r != 0 && pred.isNone, taken := waits }
  let p2 := { p1 with board := { p1.board with held := p1.board.held ++ [h] } }
  if waits then p2.writeTaken slot else (p2.handOver k seq slot r pred).answerTake seq

/-- R114 to R117: a slot is taken: refused at once, or accepted. -/
def Part.take (slot : Nat) (r : List Byte) (p : Part) : Part :=
  let seq := p.board.nextSeq
  let p1 := { p with board := { p.board with nextSeq := seq + 1 } }
  match p.validate r, Req.kind r with
  | some outcome, _ => p1.writeCompletion slot false { outcome := outcome }
  | none, some k => p1.accept k seq slot r
  | none, none => p1

/-! ## The end-of-drain notice -/

/-- R125: the requests held for a predecessor complete STOPPED, in take order. -/
def Part.drainBoard (p : Part) : Part :=
  (p.board.held.filter fun h => h.owner == .boardController).foldl (fun q h => q.completeRequest h.seq { outcome := .stopped }) p

/-- R45, R173: a waiting DISMISS completes STOPPED; its unit is removed at the end of the turn. -/
def Part.drainDismiss (p : Part) : Part :=
  match p.um.dismissWait with
  | some d =>
    { p with um := { p.um with dismissWait := none } }.completeRequest d.seq
      { outcome := .stopped, fields := [byteOf d.retired, byteOf d.ended] }
  | none => p

/-- R173: what the end-of-drain notice makes of the requests in flight, block by block (order: notes/assumptions/16.md). -/
def Part.drainRequests (p : Part) : Part := p.drainBoard.drainTransactions.drainDismiss.drainJournal

/-! ## Resolution of finished items (R120, R121) -/

/-- The requests that wait on an item: held by the Board Controller, in the pool, or among the waiting SYNCs. -/
def Part.waitersOf (seq : Nat) (p : Part) : List Nat :=
  ((p.board.held.filter fun h => h.owner == .boardController && h.pred == some seq).map fun h => h.seq) ++
  ((p.te.pool.filter fun t => t.pred == some seq).map fun t => t.seq) ++
  ((p.te.syncs.filter fun y => y.pred == some seq).map fun y => y.seq)

/-- A take sequence put in its place in a rising list. -/
def insertSeq (n : Nat) : List Nat → List Nat
  | [] => [n]
  | m :: rest => if n ≤ m then n :: m :: rest else m :: insertSeq n rest

/-- Take order. -/
def inTakeOrder (l : List Nat) : List Nat := l.foldr insertSeq []

/-- R120: the record of a held request that proceeds names its owning block, and waits for nothing. -/
def Part.passToOwner (seq : Nat) (owner : Block) (p : Part) : Part :=
  let pass (h : HeldRequest) : HeldRequest := if h.seq = seq then { h with owner := owner, pred := none } else h
  { p with board := { p.board with held := p.board.held.map pass } }

/-- R120, R130: a held request whose predecessor has finished. -/
def Part.resolveHeld (h : HeldRequest) (success : Bool) (p : Part) : Part :=
  if success then
    match Req.kind h.req with
    | none => p
    | some k =>
      match p.checkState k h.req with
      | some outcome => p.completeRequest h.seq { outcome := outcome }
      | none =>
        (p.passToOwner h.seq k.owner).handOver k h.seq h.slot h.req none
  else p.completeRequest h.seq { outcome := .skipped }

/-- R120, R121: one request that waited on a finished item proceeds or is SKIPPED. -/
def Part.resolveWaiter (done : Nat) (success : Bool) (w : Nat) (p : Part) : Part :=
  match p.findTxn w, p.te.syncs.find? fun y => y.seq == w with
  | some t, _ =>
    if t.pred != some done then p
    else if success then p.mapTxn w fun x => { x with pred := none }
    else p.finishTxn t { outcome := .skipped }
  | none, some y =>
    if y.pred != some done then p
    else if success then
      Part.endSyncs ((p.te.syncs.filter fun x => x.seq == w).map fun x => { x with pred := none })
        { p with te := { p.te with syncs := p.te.syncs.map fun x => if x.seq = w then { x with pred := none } else x } }
    else p.endSync y .skipped
  | none, none =>
    match p.heldOf w with
    | some h => if h.owner == .boardController && h.pred == some done then p.resolveHeld h success else p
    | none => p

/-- R85 step 6, R100: the SYNCs that captured a finished transaction count it, and complete where nothing is left to wait for. -/
def Part.countFinish (f : Finish) (p : Part) : Part :=
  if f.transaction then
    let counted := (p.te.syncs.filter fun y => y.waitingFor.contains f.seq).map (SyncRecord.count f.seq f.success)
    Part.endSyncs counted { p with te := { p.te with syncs := p.te.syncs.map (SyncRecord.count f.seq f.success) } }
  else p

/-- R120: the requests that wait on a finished item are resolved, one after another, up to the one at which a block must wait for room (R174;
notes/assumptions/8.md); then the SYNCs count the item. -/
def Part.resolveWaiters (f : Finish) : List Nat → Part → Part
  | [], p => p.countFinish f
  | w :: rest, p =>
    if p.port.waiting.isEmpty then resolveWaiters f rest (p.resolveWaiter f.seq f.success w)
    else { p with port := { p.port with later := p.port.later ++ [.waiters f (w :: rest)] } }

/-- R120: an item has finished: its tag is released and the requests that wait on it are resolved in take order (R85 step 5); then the
SYNCs count it (step 6; notes/assumptions/39.md). -/
def Part.resolveFinish (f : Finish) (p : Part) : Part :=
  let released := { p with board := { p.board with registry := p.board.registry.filter fun e => e.2 != f.seq } }
  released.resolveWaiters f (inTakeOrder (released.waitersOf f.seq))

/-! ## Sweeps -/

/-- The reading of the 64 state bytes (notes/assumptions/7.md). -/
def stateBytesRead (what : ReadWhat) (base : Nat) : Access := .read what (stateByteAddr base 0) Config.slotCount

/-- The read of a whole slot at take (R114). -/
def slotRead (base n : Nat) : Access := .read (.slot n) (slotAddr base n) 128

/-- R112, R113: a sweep starts; the timer stops while it runs. -/
def Part.startSweep (p : Part) : Part :=
  { p with board := { p.board with sweep := .reading, sweepTimer := none } }.submit .boardController [stateBytesRead .sweepStates p.base]

/-- R113: the origin moves past the last slot taken. -/
def BoardController.moveOrigin (last : Option Nat) (b : BoardController) : BoardController :=
  match last with
  | some n => { b with origin := (n + 1) % Config.slotCount }
  | none => b

/-- R112, R113: the end of a sweep. -/
def Part.endSweep (last : Option Nat) (p : Part) : Part :=
  let moved := p.board.moveOrigin last
  let timer := if p.board.interval = 0 then none else some (after p.run.clock p.board.interval)
  let q := Part.submit .boardController [.write (sweepCountAddr p.base) (le32 (p.board.sweepCount + 1)) .silent]
    { p with board := { moved with sweep := .noSweep, sweepCount := p.board.sweepCount + 1, sweepTimer := timer, sweepAgain := false } }
  if p.board.sweepAgain then q.startSweep else q

/-- R124: the sweep that the drain stopped is not counted; the origin moves past the last slot taken. -/
def Part.dropSweep (last : Option Nat) (p : Part) : Part :=
  { p with board := { p.board.moveOrigin last with sweep := .noSweep } }

/-- R113: the slot at the front of the set has been considered; the next is read, or the sweep ends. -/
def Part.sweepNext (taken : Bool) (p : Part) : Part :=
  match p.board.sweep with
  | .noSweep | .reading | .taking [] _ => p
  | .taking (n :: rest) last =>
    let last' := if taken then some n else last
    match rest with
    | [] => if p.run.partState = .running then p.endSweep last' else p.dropSweep last'
    | m :: _ => { p with board := { p.board with sweep := .taking rest last' } }.submit .boardController [slotRead p.base m]

/-- R113: each take runs to its end before the next begins, so a sweep goes on behind a take whose block waits for room (R174). -/
def Part.sweepOn (p : Part) : Part :=
  if p.board.held.any fun h => !h.taken then { p with port := { p.port with later := p.port.later ++ [.sweepOn] } } else p.sweepNext true

/-- The slots in ascending cyclic order from an origin. -/
def slotsFrom (origin : Nat) : List Nat := (List.range Config.slotCount).map fun i => (origin + i) % Config.slotCount

/-- R111, R122: the Board Controller holds a slot: its record is held, or its completion write is not raised yet. -/
def BoardController.holds (n : Nat) (b : BoardController) : Bool :=
  (b.held.any fun h => h.slot == n && h.taken) || (b.completions.drop 1).any fun c => c.slot == n

/-- R113: the set of slots to be taken, in the order they are taken: read as POSTED and not held. -/
def Part.sweepSet (states : List Byte) (p : Part) : List Nat :=
  (slotsFrom p.board.origin).filter fun n => states.getD n 0 == statePosted && !p.board.holds n

/-- R113: the state bytes have been read. -/
def Part.fixSweepSet (states : List Byte) (p : Part) : Part :=
  match p.sweepSet states with
  | [] => p.endSweep none
  | n :: rest => { p with board := { p.board with sweep := .taking (n :: rest) none } }.submit .boardController [slotRead p.base n]

/-! ## Work in hand -/

/-- Work that stood behind a wait for room. -/
def Part.doWork (w : Work) (p : Part) : Part :=
  match w with
  | .record r => p.takeRecord r
  | .dismissal seq a => (p.dismissUnit seq a).answerTake seq
  | .dismissed seq r => p.completeRequest seq r
  | .unitChange a => p.noticeUnitChange a
  | .drainEnd => p.drainRequests
  | .waiters f todo => p.resolveWaiters f todo
  | .sweepOn => p.sweepNext true

/-- The first work of those that stood behind a wait is done; what it puts off in its turn comes before the others. -/
def Part.doNext (w : Work) (rest : List Work) (p : Part) : Part :=
  let q := Part.doWork w { p with port := { p.port with later := [] } }
  { q with port := { q.port with later := q.port.later ++ rest } }

/-- The work in hand, one piece after another, up to the piece at which a block must wait for room (R174; notes/assumptions/8.md): first what stood behind a
wait, then the finishes in the order they reached the Board Controller (R121). -/
def Part.resolveSteps : Nat → Part → Part
  | 0, p => p
  | n + 1, p =>
    if p.port.waiting.isEmpty then
      match p.port.later, p.board.finishes with
      | w :: rest, _ => resolveSteps n (p.doNext w rest)
      | [], f :: rest => resolveSteps n ({ p with board := { p.board with finishes := rest } }.resolveFinish f)
      | [], [] => p
    else p

/-- Every in-flight item finishes at most once, and each piece of work is done once, which bounds the work in hand (Laws: `Part.resolve_finishes`). -/
def Part.resolve (p : Part) : Part :=
  p.resolveSteps (2 * (p.board.finishes.length + 2 * p.board.held.length + p.te.pool.length + p.port.later.length))

/-! ## The end of a drain -/

/-- R173: the end-of-drain notice goes to the five blocks. -/
def Part.endDrain (p : Part) : Part :=
  let q := Part.drainRequests { p with run := { p.run with drainEnded := true, drainTimer := none } }
  { q with line := { q.line with choice := none } }

/-- R172: the pool is empty, no SYNC or ABORT waits, and no DISMISS waits for the end of a turn. -/
def Part.drainDone (p : Part) : Bool :=
  p.te.pool.isEmpty && p.te.syncs.isEmpty && p.te.aborts.isEmpty && p.um.dismissWait.isNone

/-- R172: a drain with nothing left to wait for ends, once no block waits for room (notes/assumptions/15.md). -/
def Part.closeDrain (p : Part) : Part :=
  if p.run.partState = .draining ∧ p.run.drainEnded = false ∧ p.drainDone = true ∧ p.port.free = true then p.endDrain.resolve else p

/-- What follows a step of the part: the work in hand is done, and a drain with nothing left to wait for ends. While a block waits for room, both wait with it
(notes/assumptions/8.md). -/
def Part.settle (p : Part) : Part := p.resolve.closeDrain

end Sys2Proof.Machine
end

