-- ==== Sys2Proof/Machine/Line.lean ====
section
/-! DEFINITION. The Line Controller's shared operations: the arbiter (R78, R79), commitment (R80), line faults (R67), frame checks and protocol errors (R62, R63,
R72), and the end of a turn (R74, R75). -/

namespace Sys2Proof.Machine

/-! ## The arbiter -/

/-- The best of the addresses that have a score, the first of them on a tie. -/
def bestOf (score : Nat → Option Nat) (better : Nat → Nat → Bool) (l : List Nat) : Option (Nat × Nat) :=
  l.foldl (fun best a =>
    match score a, best with
    | none, _ => best
    | some x, none => some (a, x)
    | some x, some (_, y) => if better x y then some (a, x) else best) none

/-- R76: by how much a unit's poll is overdue, when it is due. -/
def FieldUnit.pollOverdue (now : Word) (u : FieldUnit) : Option Nat :=
  match u.pollDue with
  | some d => if (u.link == .online || u.link == .suspect) && (u.pollReady || reached now d) then some (elapsed now d) else none
  | none => none

/-- R77: by how much a unit's roll call is overdue, when it is due. -/
def FieldUnit.rollOverdue (now : Word) (u : FieldUnit) : Option Nat :=
  match u.rollDue with
  | some d => if (u.link == .seeking || u.link == .lost) && (u.rollReady || reached now d) then some (elapsed now d) else none
  | none => none

/-- R78 class 1: the oldest take among the eligible heads that carry URGENT. -/
def Part.urgentTurn (p : Part) : Option (Nat × TurnKind) :=
  (bestOf (fun a => match p.eligibleHead a with
    | some t => if t.urgent then some t.seq else none
    | none => none) (fun x y => decide (x < y)) unitAddresses).map fun c => (c.1, .command c.2)

/-- R78 class 2: the most overdue poll. -/
def Part.pollTurn (p : Part) : Option (Nat × TurnKind) :=
  (bestOf (fun a => (p.unitAt a).bind (FieldUnit.pollOverdue p.run.clock)) (fun x y => decide (y < x)) unitAddresses).map
    fun c => (c.1, .poll)

/-- R78 class 3: the addresses in round-robin order, beginning after the unit of the last command turn. -/
def addressesAfter (position : Nat) : List Nat := (List.range 30).map fun i => (position + i) % 30 + 1

/-- R78 class 3: the first eligible head without URGENT, round robin. -/
def Part.commandTurn (p : Part) : Option (Nat × TurnKind) :=
  (addressesAfter p.line.position).findSome? fun a =>
    match p.eligibleHead a with
    | some t => if t.urgent then none else some (a, .command t.seq)
    | none => none

/-- R78 class 4: the most overdue roll call. -/
def Part.rollTurn (p : Part) : Option (Nat × TurnKind) :=
  (bestOf (fun a => (p.unitAt a).bind (FieldUnit.rollOverdue p.run.clock)) (fun x y => decide (y < x)) unitAddresses).map
    fun c => (c.1, .rollCall)

/-- R79: the classes in the order in which the mark lets them come. -/
def Part.arbitrate (p : Part) : Option ((Nat × TurnKind) × TurnClass) :=
  let urgent := p.urgentTurn.map fun c => (c, TurnClass.urgent)
  let poll := p.pollTurn.map fun c => (c, TurnClass.poll)
  let command := p.commandTurn.map fun c => (c, TurnClass.command)
  let roll := p.rollTurn.map fun c => (c, TurnClass.rollCall)
  let shared := if p.line.mark = .poll then command.or poll else poll.or command
  urgent.or (shared.or roll)

/-- R64: the line is free and not in a line fault, and turns are still chosen. -/
def Part.lineFree (p : Part) : Bool :=
  p.working && !p.run.drainEnded && p.line.turn.isNone && p.line.choice.isNone && p.line.fault.isNone

/-! ## Line faults -/

def causeNotIdle : Byte := 1
def causeReadback : Byte := 2

/-- R67: a line fault begins; the Service Unit takes its record before the gates take LINE (notes/assumptions/44.md). -/
def Part.beginFault (cause : Byte) (unit : Nat) (frameCode good : Nat) (p : Part) : Part :=
  let record : FaultRecord :=
    { kind := .lineFaultBegin, unit := unit, tag := 0, detail := cause, detailHigh := 0, word1 := wordOf frameCode, word2 := wordOf good }
  let entered := { p with line := { p.line with fault := some p.run.clock, idleSince := p.run.clock, choice := none }
                          run := { p.run with lineFault := true } }
  (Part.raise .lineController [.hand (.fault record)] entered).reportLineFault true

/-- R67: the line fault that began at `start` ends; the Service Unit takes its record before LINE leaves the gates (notes/assumptions/44.md). -/
def Part.endFault (start : Word) (p : Part) : Part :=
  let record : FaultRecord :=
    { kind := .lineFaultEnd, unit := 0, tag := 0, detail := 0, detailHigh := 0, word1 := p.run.clock - start, word2 := 0 }
  let cleared := { p with line := { p.line with fault := none }, run := { p.run with lineFault := false } }
  (Part.raise .lineController [.hand (.fault record)] cleared).reportLineFault false

/-! ## Commitment -/

/-- R80: the chosen turn still stands. -/
def Part.choiceStands (c : Choice) (p : Part) : Bool :=
  match c.kind, p.unitAt c.unit with
  | .command seq, _ => (p.eligibleHead c.unit).any fun t => t.seq == seq
  | .poll, some u => u.link == .online || u.link == .suspect
  | .rollCall, some u => u.link == .seeking || u.link == .lost
  | _, none => false

/-- R79: what a started turn makes of the round-robin position and the mark. -/
def LineController.started (c : Choice) (l : LineController) : LineController :=
  { l with
    choice := none
    position := if c.cls = .urgent ∨ c.cls = .command then c.unit else l.position
    mark := if c.cls = .poll ∨ c.cls = .command then c.cls else l.mark }

/-- R64: the turn as it starts, with its head frame and the values the unit holds. -/
def startedTurn (c : Choice) (u : FieldUnit) (now : Word) (frame : List Byte) : Turn :=
  { unit := c.unit, kind := c.kind, start := now, replyWindow := u.params.replyWindow, burstLimit := u.params.burstLimit
    streakMode := u.params.streakMode, frame := frame, phase := .sending, frames := 0, errors := 0, protocolLogged := false
    resultHanded := false, answer := .noFrame }

/-- R76, R77: the due times that the start of a poll or roll-call turn sets. -/
def FieldUnit.turnStarts (kind : TurnKind) (now : Word) (discovery : Nat) (u : FieldUnit) : FieldUnit :=
  match kind with
  | .poll => { u with pollDue := some (after now (10 * u.params.pollInterval)), pollReady := false, lastPoll := some now }
  | .rollCall => { u with rollDue := some (after now (100 * discovery)), rollReady := false }
  | .command _ => u

/-- R60, R68 to R70: the head frame of the chosen turn; a command's token is the one the Transaction Engine gives at commitment. -/
def Part.chosenFrame (c : Choice) (u : FieldUnit) (p : Part) : List Byte :=
  match c.kind with
  | .poll => headFrame c.unit c.kind.frameCode (u.pendingAck.getD 0) 0 []
  | .rollCall => headFrame c.unit c.kind.frameCode 0 0 []
  | .command seq =>
    match p.findTxn seq with
    | some t => headFrame c.unit c.kind.frameCode (p.commitToken c.unit u t) t.command t.payload
    | none => []

/-- R80, R87: the chosen turn starts. -/
def Part.startTurn (c : Choice) (u : FieldUnit) (p : Part) : Part :=
  let begun := { p with line := { p.line.started c with turn := some (startedTurn c u p.run.clock (p.chosenFrame c u)) } }
  let timed := begun.updateUnit c.unit (FieldUnit.turnStarts c.kind p.run.clock p.line.discovery)
  match c.kind with
  | .poll | .rollCall => timed
  | .command seq =>
    match p.findTxn seq with
    | some t => timed.markSending t (p.commitToken c.unit u t)
    | none => timed

/-- R80: commitment: the chosen turn starts or is withdrawn. -/
def Part.commitChoice (c : Choice) (p : Part) : Part :=
  match p.unitAt c.unit with
  | some u => if p.choiceStands c then p.startTurn c u else { p with line := { p.line with choice := none } }
  | none => { p with line := { p.line with choice := none } }

/-! ## Turns -/

def Part.setTurn (t : Turn) (p : Part) : Part := { p with line := { p.line with turn := some t } }

/-- R74. -/
def Turn.outcome (t : Turn) : TurnOutcome :=
  if t.answer = .interrupted then .interrupted
  else if t.frames = 0 then .noAnswer
  else if t.errors = 0 then .clean
  else .errored

/-- R75: the turn ends; the Transaction Engine settles a command turn before the Unit Manager counts the outcome
(notes/assumptions/13.md), and the line is free. -/
def Part.endTurn (t : Turn) (p : Part) : Part :=
  let free := { p with line := { p.line with turn := none, idleSince := p.run.clock } }
  let settled := match t.kind with
    | .command seq => free.settleCommand seq t.answer
    | .poll | .rollCall => free
  settled.unitTurnEnd t.unit t.kind t.outcome

def TurnKind.isCommand : TurnKind → Bool
  | .command _ => true
  | .poll | .rollCall => false

/-- R69: the first frame of a command turn is the answer frame. -/
def Turn.answerFrame (t : Turn) : Bool := t.kind.isCommand && t.frames == 1

/-- R69: the answer frame failed a check or is a protocol error. -/
def Turn.garble (t : Turn) : Turn := if t.answerFrame then { t with answer := .garbled } else t

def Turn.countError (t : Turn) : Turn := { t with errors := t.errors + 1 }

/-- R71: a header check failure is counted and ends the turn at once. -/
def Part.headerFailure (t : Turn) (p : Part) : Part := p.endTurn t.garble.countError

/-- The frame has ended: the turn ends with it, or the gap limit begins. -/
def Part.frameEnds (t : Turn) (last : Bool) (p : Part) : Part :=
  if last then p.endTurn t else p.setTurn { t with phase := .gap p.run.clock }

/-- R71, R74: a payload check failure counts under the streak mode ANY. -/
def Turn.payloadFailure (t : Turn) : Turn := if t.streakMode = .any then t.garble.countError else t.garble

/-! ## Protocol errors (R63, R72) -/

/-- The kinds a turn allows, each with its place: ANNOUNCE only as the first frame. -/
def Turn.allowsKind (t : Turn) (kind : Nat) : Bool :=
  match t.kind with
  | .poll => kind == 8 || kind == 9 || kind == 13
  | .command _ => kind == 10 || kind == 11 || kind == 12
  | .rollCall => kind == 14 && t.frames == 1

/-- R63: the length requirement of each kind. -/
def lengthAllowed (kind len : Nat) : Bool :=
  match kind with
  | 9 | 12 => len == 0
  | 11 => len == 1
  | 14 => len == 3
  | _ => decide (len ≤ 24)

/-- The token of the head frame as sent. -/
def Turn.sentToken (t : Turn) : BitVec 4 :=
  (FrameHeader.ofBytes (byteAt t.frame 1) (byteAt t.frame 2) (byteAt t.frame 3) (byteAt t.frame 4)).token

/-- R68 to R70: the frame is beyond the number the turn allows. -/
def Turn.beyondLimit (t : Turn) : Bool :=
  match t.kind with
  | .poll => decide (t.burstLimit < t.frames)
  | .command _ | .rollCall => decide (1 < t.frames)

/-- R72: the first kind in the table's order that applies to a frame with a good header. -/
def Turn.protocolError (t : Turn) (h : FrameHeader) : Option ProtocolError :=
  let kind := h.kind.toNat
  if h.src.toNat != t.unit then some .source
  else if h.dst != 0 then some .destination
  else if !t.allowsKind kind then some .kind
  else if !lengthAllowed kind h.len.toNat then some .length
  else if t.kind.isCommand && h.token != t.sentToken then some .token
  else if kind == 13 && (decide (1 < h.code.toNat) || h.token == 0) then some .code
  else if t.beyondLimit && kind != 9 then some .excess
  else none

/-- R72: the PROTOCOL record of the turn's first protocol error. -/
def Turn.protocolFault (t : Turn) (h : FrameHeader) (e : ProtocolError) : FaultRecord :=
  { kind := .protocol, unit := t.unit, tag := 0, detail := e.number, detailHigh := 0, word1 := h.kind.setWidth 32, word2 := wordOf t.frames }

/-- R73: a header check has been judged good. -/
def Part.headerGood (t : Turn) (h : FrameHeader) (p : Part) : Part :=
  match t.protocolError h with
  | some e =>
    let q := if t.protocolLogged then p else Part.raise .lineController [.hand (.fault (t.protocolFault h e))] p
    q.setTurn { t.garble.countError with protocolLogged := true, phase := .body h (some e) t.beyondLimit }
  | none => (p.setTurn { t with phase := .body h none false }).judgeGeneration t.unit h.gen

/-! ## The frame in reception -/

/-- The turn in progress and the header of its frame, when that is no protocol error and of the kind asked for. -/
def Part.goodFrame (kind : Nat) (p : Part) : Option (Turn × FrameHeader) :=
  match p.line.turn with
  | some t =>
    match t.phase with
    | .body h none _ => if h.kind.toNat = kind then some (t, h) else none
    | _ => none
  | none => none

/-- The same with the payload whose checks complete good. -/
def Part.goodContents (kind : Nat) (bytes : List Byte) (p : Part) : Option (Turn × FrameHeader × List Byte) :=
  match p.goodFrame kind with
  | some (t, h) =>
    match goodPayload h.len.toNat bytes with
    | some payload => some (t, h, payload)
    | none => none
  | none => none

/-- R69: the answer frame of a command turn with its answer held for the turn report. -/
def Part.holdAnswer (t : Turn) (a : Answer) (p : Part) : Part := p.frameEnds { t with answer := a } false

end Sys2Proof.Machine
end

