-- ==== Sys2Proof/Machine/Control.lean ====
section
/-! DEFINITION. The Run Controller's shared operations: start-up (R169 to R171, R127), drain and rest (R172, R173), halts and resets (R175 to R179), and the
swap of the change banks (R153, R154). -/

namespace Sys2Proof.Machine

/-! ## Waiting for room -/

/-- Accesses are performed, and what they let come about is resolved, until no block waits for room. -/
def State.awaitLoop : Nat → State → State
  | 0, s => s
  | n + 1, s => if s.part.port.free then s else State.awaitLoop n (s.performFront.onPart Part.settle)

/-- R174: a block that waits for room takes nothing further until its accesses are raised, so a step that lets blocks work begins when no
block waits any more (notes/assumptions/8.md). The bound is the work of the port and more than one step can add to it. -/
def State.awaitRoom (s : State) : State :=
  if s.part.working then s.awaitLoop (s.part.port.work + 4096) else s

/-- A change of the part by blocks that first wait for room where they must. -/
def State.onBlocks (f : Part → Part) (s : State) : State := s.awaitRoom.onPart f

/-! ## Halts -/

/-- R177: the transactions reported ACCEPTED that are still running. -/
def Part.abandonedCount (p : Part) : Nat := (p.te.pool.filter fun t => t.origin.isNone).length

/-- R176, R177: ABANDONED is set where a run is stopped, and keeps its value elsewhere. -/
def Part.countAbandoned (p : Part) : Part :=
  if p.started then { p with run := { p.run with abandoned := p.abandonedCount } } else p

/-- R166, R176: entry into HALTED: every block's state and the port's queues are discarded; the summary, SVCEN and the swap count stay, and STATE is
handed on (R167, R152, R181). -/
def Part.enterHalted (cause : HaltCause) (p : Part) : Part :=
  { run := { p.run with partState := .halted, haltCause := cause, lineFault := false, window := none, startPhase := .notStarting
                        drainLimit := 0, drainTimer := none, drainEnded := false }
    svc := { summary := p.svc.summary ||| bitState, enables := p.svc.enables, swapCount := p.svc.swapCount } }

/-- R168: a command that is not accepted sets REFUSED and changes nothing else. -/
def Part.refuseCommand (p : Part) : Part := { p with run := { p.run with refused := true } }

/-- R178: the part after a RESET. -/
def Part.softReset (p : Part) : Part := { Part.reset with run := { abandoned := p.countAbandoned.run.abandoned } }

/-! ## Start-up -/

/-- R168: START is accepted in IDLE, STOPPED and HALTED. -/
def Part.acceptsStart (p : Part) : Bool :=
  p.run.partState == .idle || p.run.partState == .stopped || p.run.partState == .halted

/-- R169 steps 1 to 5. -/
def Part.enterStarting (p : Part) : Part :=
  { p with
    run := { p.run with partState := .starting, haltCause := .noCause, refused := false, lineFault := false, clock := 0
                        window := some p.run.winbase, startPhase := .header }
    svc := { p.svc with summary := 0, activeBank := .bank0, swapCount := 0, bankQueue := [] } }

/-- R170: the read of the 64-byte header. -/
def headerRead (base : Nat) : Access := .read .header base 64

/-- R169, R170: an accepted START. It empties the bank queue (R152) and leaves writes that wait for room as they are (notes/assumptions/49.md). -/
def Part.beginStart (p : Part) : Part :=
  let q := p.enterStarting
  if Config.maxWindowBase < p.run.winbase.toNat then q.enterHalted .windowInvalid
  else q.submit .runController [headerRead q.base]

/-- R171 step 1: every block empties its tables, sets its START values and takes the captured values of the header (R170). -/
def Part.startTables (h : List Byte) (p : Part) : Part :=
  { p with
    run := { p.run with startPhase := .boardRead, drainLimit := Header.drainLimit h }
    svc := { p.svc with nextFault := 1, ringIndex := 0, journalLosses := 0, unadmitted := 0 }
    board := { interval := Header.sweepInterval h }
    te := {}
    line := { rate := Header.rate h, discovery := Header.discovery h }
    um := {}
    dir := { autoAdmission := Header.autoAdmission h == 1, defaults := Header.defaults h }
    jw := {} }

/-- R171: the initialisation writes, and behind them the reading of the 64 state bytes. -/
def startAccesses (base : Nat) : List Access := windowInit base ++ [stateBytesRead .startStates base]

/-- R170, R171: the header has been read. -/
def Part.checkHeader (h : List Byte) (p : Part) : Part :=
  if Header.valid h then
    Part.submit .runController (startAccesses p.base) (p.startTables h)
  else p.enterHalted .windowInvalid

/-- R127: the slots found TAKEN, ascending. -/
def takenSlots (states : List Byte) : List Nat := (List.range Config.slotCount).filter fun n => states.getD n 0 == stateTaken

/-- R127: the completion writes of the slots found TAKEN; BOARD follows the last DONE write (notes/assumptions/31.md). -/
def restartWrites (base : Nat) (time : Word) : List Nat → List Access
  | [] => []
  | [n] => completionWrites base n { outcome := .restarted } false time (.done n)
  | n :: m :: rest => completionWrites base n { outcome := .restarted } false time .silent ++ restartWrites base time (m :: rest)

/-- R127, R171 step 3. -/
def Part.restartSlots (states : List Byte) (p : Part) : Part :=
  Part.submit .boardController (restartWrites p.base p.run.clock (takenSlots states))
    { p with run := { p.run with startPhase := .writes } }

/-- Nothing is raised, waiting or unanswered but the reading of a sweep that a STOP ended. -/
def WindowPort.quiet (w : WindowPort) : Bool :=
  w.fifo.isEmpty && w.free && w.reports.all (Access.isReadOf .sweepStates)

/-- R171 step 4. -/
def Part.enterRunning (p : Part) : Part :=
  Part.startSweep { p with run := { p.run with partState := .running, startPhase := .notStarting }, port := {} }

/-! ## Drain and rest -/

/-- R124: what a STOP makes of a sweep: the reading ends, a take in the making is the last. -/
def SweepPhase.stop : SweepPhase → SweepPhase
  | .noSweep => .noSweep
  | .reading => .noSweep
  | .taking [] _ => .noSweep
  | .taking (n :: _) last => .taking [n] last

/-- R172: an accepted STOP. -/
def Part.beginDrain (p : Part) : Part :=
  { p with
    run := { p.run with partState := .draining, refused := false, drainEnded := false
                        drainTimer := some (after p.run.clock (100 * p.run.drainLimit)) }
    board := { p.board with sweepAgain := false, sweepTimer := none, sweep := p.board.sweep.stop } }

/-- R172: the drain timer has expired and the drain has not ended. -/
def Part.drainExpired (p : Part) : Bool :=
  match p.run.drainTimer with
  | some t => p.run.partState == .draining && !p.run.drainEnded && reached p.run.clock t
  | none => false

/-- R173: the line is quiet, the pool is empty with no ABORT waiting, and every write has been performed. -/
def Part.atRest (p : Part) : Bool :=
  p.run.partState == .draining && p.run.drainEnded && p.line.turn.isNone && p.line.choice.isNone && p.te.pool.isEmpty &&
  p.te.aborts.isEmpty && p.te.syncs.isEmpty && p.board.finishes.isEmpty && p.board.completions.isEmpty && p.svc.bankQueue.isEmpty && p.port.quiet

/-- R173: entry into STOPPED. -/
def Part.enterStopped (p : Part) : Part :=
  { p with
    run := { p.run with partState := .stopped, drainTimer := none, drainEnded := false }
    port := {}
    board := { p.board with sweepTimer := none }
    um := p.um.stopTimers
    dir := p.dir.stopTimers
    svc := { p.svc with summary := p.svc.summary ||| bitState } }

/-! ## The change banks -/

/-- R154: an acknowledgement of DIRECTORY or UNIT takes a swap. -/
def Part.takeSwap (p : Part) : Part :=
  { p with svc := { p.svc with swapCount := p.svc.swapCount + 1, activeBank := p.svc.activeBank.other
                               bankQueue := p.svc.bankQueue ++ [.swap (p.svc.swapCount + 1) p.svc.activeBank] } }

/-- R154, R187: the writes of a swap: zero over the six words of the directory map and the word of the unit map of the new active bank, then the
bank word. -/
def swapWrites (base : Nat) (count : Half) (frozen : BankId) : List Access :=
  zeroWords (bankAddr base frozen.other) 7 ++ [.write (bankWordAddr base) (bankWordBytes count frozen) .silent]

/-- R153: the item at the front of the bank queue has raised its writes and leaves the queue; the next begins. Writes of it that wait for room are no
longer part of the bank state that a START empties (R152; notes/assumptions/49.md). -/
def Part.bankItemDone (writes : List Access) (p : Part) : Part :=
  let svc := { p.svc with bankQueue := p.svc.bankQueue.drop 1 }
  Part.submit .serviceUnit (writes ++ svc.bankRead p.base) { p with svc := svc }

/-- R153 steps 1 and 2: the map word read back from memory, with the bit set. -/
def Memory.mapWordWith (m : Memory) (addr index : Nat) : List Byte :=
  le32 (wordOf (ofLeBytes (m.readBytes addr 4)) ||| mapBit index)

/-- R153, R171: a swap begins once the writes of the item before it are raised, and in STARTING once the initialisation writes are. -/
def Part.swapMayBegin (p : Part) : Bool :=
  p.windowHeld && p.run.startPhase != .header && !p.port.waits .serviceUnit && !p.port.waits .runController

/-- R153, R154: the item at the front of the bank queue is performed. -/
def State.performBankItem (s : State) : State :=
  match s.part.svc.bankQueue with
  | [] => s
  | .update b m i :: _ =>
    match s.claim (Access.isReadOf .bankWord) with
    | none => s
    | some s' =>
      let addr := mapWordAddr s'.part.base b m i
      s'.onPart (Part.bankItemDone [.write addr (s'.mem.mapWordWith addr i) (.bankBit m)])
  | .swap count frozen :: _ =>
    if s.part.swapMayBegin then
      s.onPart fun p => p.bankItemDone (swapWrites p.base count frozen)
    else s

end Sys2Proof.Machine
end

