-- ==== Sys2Proof/Machine/ControlCommands.lean ====
section
/-! DEFINITION. The meanings of the register writes, the resets, the bus error, start-up, the drain and the entries into RUNNING and STOPPED. -/

namespace Sys2Proof.Machine

/-- The answer of the system port to an access is taken and acted on; nothing happens when no such access is outstanding. -/
def State.onAnswer (what : Access → Bool) (f : Part → Part) (s : State) : State :=
  match s.claim what with
  | some s' => s'.onPart f
  | none => s

/-! ## Register writes -/

/-- START (R168, R169). -/
def execStart (s : State) : Host.Outcome State Fault Refusal :=
  .next (s.onPart fun p => if p.acceptsStart then p.beginStart else p.refuseCommand)

/-- STOP (R168, R172). -/
def execStop (s : State) : Host.Outcome State Fault Refusal :=
  if s.part.run.partState = .running then .next (s.onBlocks fun p => p.beginDrain.settle) else .next (s.onPart Part.refuseCommand)

/-- HALT (R168, R176), after the first `performed` accesses of the Window Port. -/
def execHalt (performed : Nat) (s : State) : Host.Outcome State Fault Refusal :=
  if s.part.started then
    .next ((s.perform performed).onPart fun p =>
      Part.enterHalted .hostHalt { p.countAbandoned with run := { p.countAbandoned.run with refused := false } })
  else .next (s.onPart Part.refuseCommand)

/-- RESET (R168, R178), after the first `performed` accesses of the Window Port. -/
def execReset (performed : Nat) (s : State) : Host.Outcome State Fault Refusal :=
  .next ((s.perform performed).onPart Part.softReset)

/-- UNKNOWN_COMMAND (R168): a value whose command byte is none of the four codes; any other value is a command of its own. -/
def execUnknownCommand (value : Word) (s : State) : Host.Outcome State Fault Refusal :=
  .next (s.onPart fun p => if 1 ≤ value.toNat % 256 ∧ value.toNat % 256 ≤ 4 then p else p.refuseCommand)

/-- WINBASE (R165, R184). -/
def execWinbase (value : Word) (s : State) : Host.Outcome State Fault Refusal :=
  .next (s.onPart fun p => { p with run := { p.run with winbase := value.setWidth 28 } })

/-- NUDGE (R112): a sweep starts, or the sweep-again flag is set; outside RUNNING the write is discarded. -/
def execNudge (_value : Word) (s : State) : Host.Outcome State Fault Refusal :=
  if s.part.run.partState = .running then
    .next (s.onBlocks fun p =>
      if p.board.sweep = .noSweep then p.startSweep else { p with board := { p.board with sweepAgain := true } })
  else .next s

/-- SVCPEND (R181, R154). -/
def execSvcpend (value : Word) (s : State) : Host.Outcome State Fault Refusal :=
  .next (s.onPart fun p =>
    let q := { p with svc := { p.svc with summary := p.svc.summary &&& ~~~(value.setWidth 5) } }
    if (value.getLsbD 1 || value.getLsbD 2) && p.windowHeld then q.takeSwap else q)

/-- SVCEN (R182). -/
def execSvcen (value : Word) (s : State) : Host.Outcome State Fault Refusal :=
  .next (s.onPart fun p => { p with svc := { p.svc with enables := value.setWidth 5 } })

/-- REGISTER_WRITE (R165): a write to IDENT, STATE, ABANDONED or CLOCK is ignored. -/
def execRegisterWrite (_offset : Nat) (_value : Word) (s : State) : Host.Outcome State Fault Refusal := .next s

/-! ## Resets and the bus error -/

/-- PIN_RESET (R179), after the first `performed` accesses of the Window Port. -/
def execPinReset (performed : Nat) (s : State) : Host.Outcome State Fault Refusal :=
  .next ((s.perform performed).onPart fun _ => Part.reset)

/-- BUS_ERROR (R175): the access after the first `performed` ones is answered by an error. -/
def execBusError (performed : Nat) (s : State) : Host.Outcome State Fault Refusal :=
  let s' := s.perform performed
  if s.part.windowHeld && !s'.part.port.fifo.isEmpty then .next (s'.onPart fun p => p.countAbandoned.enterHalted .busError)
  else .next s

/-! ## Start-up -/

/-- HEADER_CHECKS (R170, R171). -/
def execHeaderChecks (bytes : List Byte) (s : State) : Host.Outcome State Fault Refusal :=
  if s.part.run.partState = .starting ∧ s.part.run.startPhase = .header then
    .next (s.onAnswer (Access.isReadOf .header) (Part.checkHeader bytes))
  else .next s

/-- RESTARTED (R127, R171). -/
def execRestarted (states : List Byte) (s : State) : Host.Outcome State Fault Refusal :=
  if s.part.run.partState = .starting ∧ s.part.run.startPhase = .boardRead then
    .next (s.onAnswer (Access.isReadOf .startStates) fun p => (p.restartSlots states).settle)
  else .next s

/-- ENTRY_INTO_RUNNING (R171): every write raised has been performed and every answer taken (notes/assumptions/33.md). -/
def execEntryIntoRunning (s : State) : Host.Outcome State Fault Refusal :=
  if s.part.run.partState = .starting ∧ s.part.run.startPhase = .writes ∧ s.performAll.part.port.quiet = true then
    .next (s.performAll.onPart fun p => p.enterRunning.settle)
  else .next s

/-! ## Drain -/

/-- DRAIN_TIMER (R172, R173). -/
def execDrainTimer (s : State) : Host.Outcome State Fault Refusal :=
  .next (s.onBlocks fun p => if p.drainExpired then p.endDrain.settle else p)

/-- ENTRY_INTO_STOPPED (R173): the end work is done and every write has been performed (notes/assumptions/33.md). -/
def execEntryIntoStopped (s : State) : Host.Outcome State Fault Refusal :=
  let s' := s.performAll.onPart Part.settle
  if s'.part.atRest then .next (s'.onPart Part.enterStopped) else .next s

end Sys2Proof.Machine
end

