-- ==== Sys2Proof/Machine/BoardCommands.lean ====
section
/-! DEFINITION. The meanings of the sweep, of the twelve takes and of a slot passed over (R112 to R117). -/

namespace Sys2Proof.Machine

/-- SWEEP_TIMER (R112). -/
def execSweepTimer (s : State) : Host.Outcome State Fault Refusal :=
  .next (s.onBlocks fun p =>
    match p.board.sweepTimer with
    | some t => if p.run.partState = .running ∧ p.board.sweep = .noSweep ∧ reached p.run.clock t = true then p.startSweep else p
    | none => p)

/-- SWEEP (R113): the reading of the state bytes returns; a reading that a STOP has ended is dropped. -/
def execSweep (states : List Byte) (s : State) : Host.Outcome State Fault Refusal :=
  .next (s.awaitRoom.onAnswer (Access.isReadOf .sweepStates) fun p =>
    Part.settle (if p.run.partState = .running ∧ p.board.sweep = .reading then p.fixSweepSet states else p))

/-- R124: the take that a STOP found in the making, when it runs to its end after the end of the drain: what it leaves in flight ends as by the
end-of-drain notice (notes/assumptions/17.md). -/
def Part.takeAfterDrain (p : Part) : Part :=
  if p.run.partState = .draining ∧ p.run.drainEnded = true then (p.onceFree .drainEnd Part.drainRequests).settle else p

/-- A take and what follows it: the slot is refused or accepted, finished items are resolved, and the sweep goes on, at once or behind the end of the
take (R113). -/
def Part.takeStep (n : Nat) (slot : List Byte) (p : Part) : Part :=
  Part.settle (Part.sweepOn (p.take n (slot.take 64)).settle.takeAfterDrain)

/-- The slot at the front of the sweep's set. -/
def SweepPhase.front : SweepPhase → Option Nat
  | .taking (n :: _) _ => some n
  | .noSweep | .reading | .taking [] _ => none

/-- R114: the slot at the front of the sweep's set has been read, with this state byte in it; `fits` says that the row is the one of what was
read. Completions that waited are delivered and their tags released before the slot is considered (R118). -/
def State.slotRow (fits : Bool) (f : Nat → Part → Part) (s : State) : State :=
  match s.part.board.sweep.front with
  | some n => if s.part.working && fits then s.onAnswer (Access.isReadOf (.slot n)) (f n) else s
  | none => s

/-- R114: the slot is taken when it is still POSTED. -/
def State.takeRow (fits : List Byte → Bool) (slot : List Byte) (s : State) : State :=
  s.awaitRoom.slotRow (fits slot && byteAt slot 0x7F == statePosted) fun n => Part.takeStep n slot

/-- The row of a kind. -/
def ofKind (k : ReqKind) (slot : List Byte) : Bool := Req.kind slot == some k

/-- ENROLL (R42, R43, R54, R132). -/
def execEnroll (slot : List Byte) (s : State) : Host.Outcome State Fault Refusal := .next (s.takeRow (ofKind .enroll) slot)

/-- DISMISS (R44, R45, R133). -/
def execDismiss (slot : List Byte) (s : State) : Host.Outcome State Fault Refusal := .next (s.takeRow (ofKind .dismiss) slot)

/-- HOLD (R53, R135). -/
def execHold (slot : List Byte) (s : State) : Host.Outcome State Fault Refusal := .next (s.takeRow (ofKind .hold) slot)

/-- DECLARE (R16, R17, R136). -/
def execDeclare (slot : List Byte) (s : State) : Host.Outcome State Fault Refusal := .next (s.takeRow (ofKind .declare) slot)

/-- RETIRE (R19, R137). -/
def execRetire (slot : List Byte) (s : State) : Host.Outcome State Fault Refusal := .next (s.takeRow (ofKind .retire) slot)

/-- CLEAR (R21, R138). -/
def execClear (slot : List Byte) (s : State) : Host.Outcome State Fault Refusal := .next (s.takeRow (ofKind .clear) slot)

/-- TRANSACT (R84, R139). -/
def execTransact (slot : List Byte) (s : State) : Host.Outcome State Fault Refusal := .next (s.takeRow (ofKind .transact) slot)

/-- SYNC (R100, R142). -/
def execSync (slot : List Byte) (s : State) : Host.Outcome State Fault Refusal := .next (s.takeRow (ofKind .sync) slot)

/-- ABORT (R102 to R104, R143). -/
def execAbort (slot : List Byte) (s : State) : Host.Outcome State Fault Refusal := .next (s.takeRow (ofKind .abort) slot)

/-- LEND (R145, R155). -/
def execLend (slot : List Byte) (s : State) : Host.Outcome State Fault Refusal := .next (s.takeRow (ofKind .lend) slot)

/-- CUT (R147, R159). -/
def execCut (slot : List Byte) (s : State) : Host.Outcome State Fault Refusal := .next (s.takeRow (ofKind .cut) slot)

/-- BAD_KIND (R115): a kind byte that is none of the eleven codes. -/
def execBadKind (slot : List Byte) (s : State) : Host.Outcome State Fault Refusal :=
  .next (s.takeRow (fun x => (Req.kind x).isNone) slot)

/-- PASSED_OVER (R114): the state byte read with the slot is no longer POSTED; nothing is written and the sweep goes on. -/
def execPassedOver (state : Byte) (s : State) : Host.Outcome State Fault Refusal :=
  .next (s.awaitRoom.slotRow (state != statePosted) fun _ p => (p.settle.sweepNext false).settle)

end Sys2Proof.Machine
end

