-- ==== Sys2Proof/Machine/LineCommands.lean ====
section
/-! DEFINITION. The meanings of the rows of the drop line (R59 to R81). Times inside a turn are judged by their millisecond readings
(notes/assumptions/11.md). -/

namespace Sys2Proof.Machine

/-! ## Choice, idle check, commitment -/

/-- TURN_CHOICE (R79). -/
def execTurnChoice (s : State) : Host.Outcome State Fault Refusal :=
  .next (s.onPart fun p =>
    if p.lineFree then
      match p.arbitrate with
      | some ((unit, kind), cls) =>
        { p with line := { p.line with choice := some { unit := unit, kind := kind, cls := cls, since := p.run.clock } } }
      | none => p
    else p)

/-- POLL_DUE (R76): the line clock has reached a unit's poll due time. -/
def execPollDue (unit : Nat) (s : State) : Host.Outcome State Fault Refusal :=
  .next (s.onPart fun p =>
    if p.working then p.updateUnit unit fun u => { u with pollReady := u.pollReady || (u.pollDue.any fun d => reached p.run.clock d) }
    else p)

/-- ROLL_CALL_DUE (R77): the line clock has reached a unit's roll-call due time. -/
def execRollCallDue (unit : Nat) (s : State) : Host.Outcome State Fault Refusal :=
  .next (s.onPart fun p =>
    if p.working then p.updateUnit unit fun u => { u with rollReady := u.rollReady || (u.rollDue.any fun d => reached p.run.clock d) }
    else p)

/-- R65: the readings do not show the line idle for 2 byte times: its last activity lies within the last millisecond. Idle time from before the
choice counts (notes/assumptions/11.md). -/
def Part.idleUnseen (p : Part) : Bool := decide (elapsed p.run.clock p.line.idleSince ≤ 1)

/-- NOT_IDLE (R65, R67): 2 ms after the choice the line has not been idle. -/
def execNotIdle (s : State) : Host.Outcome State Fault Refusal :=
  .next (s.onBlocks fun p =>
    match p.line.choice with
    | some c =>
      if p.working ∧ 2 ≤ elapsed p.run.clock c.since ∧ p.idleUnseen then (p.beginFault causeNotIdle c.unit c.kind.frameCode 0).settle else p
    | none => p)

/-- COMMITMENT (R65, R80): the idle check is met. -/
def execCommitment (s : State) : Host.Outcome State Fault Refusal :=
  .next (s.onBlocks fun p =>
    match p.line.choice with
    | some c => if p.working ∧ (elapsed p.run.clock c.since ≤ 2 ∨ ¬ p.idleUnseen) then (p.commitChoice c).settle else p
    | none => p)

/-! ## The head frame -/

/-- R68, R94: a POLL transmitted whole has delivered the pending acknowledgement. -/
def Part.frameSent (t : Turn) (p : Part) : Part :=
  let q := p.setTurn { t with phase := .window p.run.clock }
  if t.kind = .poll then q.updateUnit t.unit fun u => { u with pendingAck := none } else q

/-- HEAD_FRAME_SENT (R64): the reply window opens. -/
def execHeadFrameSent (s : State) : Host.Outcome State Fault Refusal :=
  .next (s.onPart fun p =>
    match p.line.turn with
    | some t => if t.phase = .sending then p.frameSent t else p
    | none => p)

/-- R66: the readback of the head frame: of the bytes received the last is compared now, those before it came back as sent. The number of bytes
read back correctly, when that last one differs or its stop bit was low. -/
def Turn.readbackMismatch (t : Turn) (bytes : List Byte) (stopLow : Bool) : Option Nat :=
  let good := bytes.length - 1
  if bytes ≠ [] ∧ bytes.length ≤ t.frame.length ∧ bytes.take good = t.frame.take good ∧ (byteAt bytes good ≠ byteAt t.frame good ∨ stopLow = true)
  then some good else none

/-- READBACK (R66): a byte of the head frame came back altered. -/
def execReadback (received : List Byte × Bool) (s : State) : Host.Outcome State Fault Refusal :=
  .next (s.onBlocks fun p =>
    match p.line.turn with
    | some t =>
      match t.phase, t.readbackMismatch received.1 received.2 with
      | .sending, some good =>
        ((p.beginFault causeReadback t.unit t.kind.frameCode good).endTurn { t with answer := .interrupted }).settle
      | _, _ => p
    | none => p)

/-! ## The answer -/

/-- REPLY_WINDOW_EXPIRY (R64): no frame has begun within the reply window. -/
def execReplyWindowExpiry (s : State) : Host.Outcome State Fault Refusal :=
  .next (s.onBlocks fun p =>
    match p.line.turn with
    | some t =>
      match t.phase with
      | .window since => if t.replyWindow ≤ elapsed p.run.clock since then (p.endTurn t).settle else p
      | .sending | .gap _ | .header | .body _ _ _ => p
    | none => p)

/-- R64: a frame may begin within the reply window, or within the gap limit after another frame. -/
def Turn.mayBegin (t : Turn) (now : Word) : Bool :=
  match t.phase with
  | .window since => decide (elapsed now since ≤ t.replyWindow)
  | .gap since => decide (elapsed now since ≤ 1)
  | .sending | .header | .body _ _ _ => false

/-- FRAME_BEGINS (R64): the start bit of a frame's first byte. -/
def execFrameBegins (s : State) : Host.Outcome State Fault Refusal :=
  .next (s.onPart fun p =>
    match p.line.turn with
    | some t => if t.mayBegin p.run.clock then p.setTurn { t with phase := .header, frames := t.frames + 1 } else p
    | none => p)

/-- FRAME_HEADER (R61 to R63, R72, R73): the header check is judged. -/
def execFrameHeader (bytes : List Byte) (stopLow : Bool) (s : State) : Host.Outcome State Fault Refusal :=
  .next (s.onBlocks fun p =>
    match p.line.turn with
    | some t =>
      if t.phase = .header then
        match goodHeader bytes stopLow with
        | some h => (p.headerGood t h).settle
        | none => (p.headerFailure t).settle
      else p
    | none => p)

/-- BYTE_GAP (R62): more than 2 byte times between two bytes of a frame; on a protocol error frame nothing further is counted
(notes/assumptions/30.md). -/
def execByteGap (s : State) : Host.Outcome State Fault Refusal :=
  .next (s.onBlocks fun p =>
    match p.line.turn with
    | some t =>
      match t.phase with
      | .header => (p.headerFailure t).settle
      | .body h none last => if h.len = 0 then p else (p.frameEnds t.payloadFailure last).settle
      | .body h (some _) last => if h.len = 0 then p else (p.frameEnds t last).settle
      | .sending | .window _ | .gap _ => p
    | none => p)

/-- REPORT (R6, R68): an arrival. -/
def execReport (bytes : List Byte) (s : State) : Host.Outcome State Fault Refusal :=
  .next (s.onBlocks fun p =>
    match p.goodContents 8 bytes with
    | some (t, h, payload) => ((p.takeArrival { unit := t.unit, kind := h.code.toNat } payload).frameEnds t false).settle
    | none => p)

/-- END (R68): the turn ends. -/
def execEndFrame (s : State) : Host.Outcome State Fault Refusal :=
  .next (s.onBlocks fun p =>
    match p.goodFrame 9 with
    | some (t, _) => (p.endTurn t).settle
    | none => p)

/-- REPLY (R69). -/
def execReply (bytes : List Byte) (s : State) : Host.Outcome State Fault Refusal :=
  .next (s.onPart fun p =>
    match p.goodContents 10 bytes with
    | some (t, _, payload) => (p.holdAnswer t (.reply payload)).settle
    | none => p)

/-- REFUSE (R69): the payload byte is the reason. -/
def execRefuse (bytes : List Byte) (s : State) : Host.Outcome State Fault Refusal :=
  .next (s.onPart fun p =>
    match p.goodContents 11 bytes with
    | some (t, _, payload) => (p.holdAnswer t (.refuse (byteAt payload 0))).settle
    | none => p)

/-- DEFER (R69). -/
def execDefer (s : State) : Host.Outcome State Fault Refusal :=
  .next (s.onPart fun p =>
    match p.goodFrame 12 with
    | some (t, _) => (p.holdAnswer t .defer).settle
    | none => p)

/-- RESULT (R68, R93): the first RESULT of the turn with good checks is handed over, a later one discarded. -/
def execResult (bytes : List Byte) (s : State) : Host.Outcome State Fault Refusal :=
  .next (s.onBlocks fun p =>
    match p.goodContents 13 bytes with
    | some (t, h, payload) =>
      if t.resultHanded then (p.frameEnds t false).settle
      else ((p.takeResult t.unit h.token.toNat h.code.toNat payload).frameEnds { t with resultHanded := true } false).settle
    | none => p)

/-- ANNOUNCE (R33 to R35, R70). -/
def execAnnounce (bytes : List Byte) (s : State) : Host.Outcome State Fault Refusal :=
  .next (s.onBlocks fun p =>
    match p.goodContents 14 bytes with
    | some (t, h, payload) => ((p.takeAnnounce t.unit h.gen (halfAt payload 0) (natAt payload 2)).frameEnds t false).settle
    | none => p)

/-- GARBLED (R62, R71): a frame with a good header, received to its end, whose payload check fails. -/
def execGarbled (bytes : List Byte) (stopLow : Bool) (s : State) : Host.Outcome State Fault Refusal :=
  .next (s.onBlocks fun p =>
    match p.line.turn with
    | some t =>
      match t.phase with
      | .body h none last =>
        if h.len ≠ 0 ∧ bytes.length = h.len.toNat + 2 ∧ (stopLow = true ∨ goodPayload h.len.toNat bytes = none) then
          (p.frameEnds t.payloadFailure last).settle
        else p
      | .sending | .window _ | .gap _ | .header | .body _ (some _) _ => p
    | none => p)

/-- PROTOCOL_ERROR_FRAME_END (R72): a protocol error frame has been received to its end. -/
def execProtocolErrorFrameEnd (s : State) : Host.Outcome State Fault Refusal :=
  .next (s.onBlocks fun p =>
    match p.line.turn with
    | some t =>
      match t.phase with
      | .body _ (some _) last => (p.frameEnds t last).settle
      | .sending | .window _ | .gap _ | .header | .body _ none _ => p
    | none => p)

/-- GAP_LIMIT (R64): the gap limit passes with no further frame begun. -/
def execGapLimit (s : State) : Host.Outcome State Fault Refusal :=
  .next (s.onBlocks fun p =>
    match p.line.turn with
    | some t =>
      match t.phase with
      | .gap since => if 1 ≤ elapsed p.run.clock since then (p.endTurn t).settle else p
      | .sending | .window _ | .header | .body _ _ _ => p
    | none => p)

/-! ## Line faults -/

/-- LINE_FAULT_END (R67): the line has been idle for 20 ms; after the end of a drain a fault is left as it stands (R81). -/
def execLineFaultEnd (s : State) : Host.Outcome State Fault Refusal :=
  .next (s.onBlocks fun p =>
    match p.line.fault with
    | some start =>
      if p.working ∧ p.run.drainEnded = false ∧ 20 ≤ elapsed p.run.clock p.line.idleSince then (p.endFault start).settle else p
    | none => p)

/-- LINE_ACTIVITY (R64, R67): activity outside a turn, or in a line fault, moves the reading since which the line is idle. -/
def execLineActivity (s : State) : Host.Outcome State Fault Refusal :=
  .next (s.onPart fun p =>
    if p.line.turn.isNone || p.line.fault.isSome then { p with line := { p.line with idleSince := p.run.clock } } else p)

end Sys2Proof.Machine
end

