-- ==== Sys2Proof/Machine/PortCommands.lean ====
section
/-! DEFINITION. The meanings of the answers of the Window Port that set summary bits, of the bank queue and of room in the port's queues. -/

namespace Sys2Proof.Machine

/-- DONE_WRITE_PERFORMED (R122, R127): BOARD is handed on after a slot's DONE write, and the next completion is written. -/
def execDoneWritePerformed (slot : Nat) (s : State) : Host.Outcome State Fault Refusal :=
  .next (s.awaitRoom.onAnswer (Access.isReport (.done slot)) fun p => p.completionDone.settle)

/-- BANK_UPDATE (R153, R154): the item at the front of the bank queue. -/
def execBankUpdate (s : State) : Host.Outcome State Fault Refusal :=
  .next (s.awaitRoom.performBankItem.onPart Part.settle)

/-- The summary bit of a bank map write (R153). -/
def MapKind.summaryBit : MapKind → BitVec 5
  | .directory => bitDirectory
  | .unit => bitUnit

/-- The map of the first bank map write not yet answered. -/
def WindowPort.firstBankBit (w : WindowPort) : Option MapKind :=
  w.outstanding.findSome? fun
    | .write _ _ (.bankBit m) => some m
    | .write _ _ .silent | .write _ _ (.done _) | .write _ _ .newestFault | .read .. => none

/-- BANK_BIT_WRITTEN (R153): the summary bit of the map is set. -/
def execBankBitWritten (s : State) : Host.Outcome State Fault Refusal :=
  match s.awaitRoom.part.port.firstBankBit with
  | none => .next s.awaitRoom
  | some m => .next (s.awaitRoom.onAnswer (Access.isReport (.bankBit m)) fun p => (p.setSummary m.summaryBit).settle)

/-- FAULT_RECORD_WRITTEN (R163): FAULT is set after the newest fault sequence is written. -/
def execFaultRecordWritten (s : State) : Host.Outcome State Fault Refusal :=
  .next (s.awaitRoom.onAnswer (Access.isReport .newestFault) fun p => (p.setSummary bitFault).settle)

/-- QUEUE_ROOM (R174): the access at the front is performed, and the place that frees goes to the block that began to wait first. -/
def execQueueRoom (s : State) : Host.Outcome State Fault Refusal :=
  .next (s.performFront.onPart Part.settle)

end Sys2Proof.Machine
end

