-- ==== Sys2Proof/Machine/TimerCommands.lean ====
section
/-! DEFINITION. The meanings of the timers of the gate, the directory, the transactions, the SYNCs and the journal. A timer runs in RUNNING and DRAINING,
and its row acts when the line clock has reached its expiry. -/

namespace Sys2Proof.Machine

/-- SETTLE_TIMER_EXPIRY (R51). -/
def execSettleTimerExpiry (unit : Nat) (s : State) : Host.Outcome State Fault Refusal :=
  .next (s.onBlocks fun p =>
    match p.unitAt unit with
    | some u => if p.working && u.settleDue p.run.clock then (p.putUnit unit (some u.openGate) false).settle else p
    | none => p)

/-- STALE_TIMER_EXPIRY (R5, R13). -/
def execStaleTimerExpiry (entry : Nat) (s : State) : Host.Outcome State Fault Refusal :=
  .next (s.onBlocks fun p =>
    match p.entryAt entry with
    | some e =>
      if p.working && e.staleDue p.run.clock then (p.putEntry entry (some e.expire) e.policies.notify.state).settle else p
    | none => p)

/-- R96: what a reached deadline makes of a transaction; a SENDING one is settled at the end of its turn. -/
def Part.endAtDeadline (t : Transaction) (p : Part) : Part :=
  match t.state with
  | .pending => p.finishTxn t { outcome := .deadline }
  | .deferred => p.finishTxn t { outcome := .deadline, reserve := t.deferExpiry }
  | .sending => p

/-- DEADLINE_EXPIRY (R96). -/
def execDeadlineExpiry (seq : Nat) (s : State) : Host.Outcome State Fault Refusal :=
  .next (s.onBlocks fun p =>
    match p.findTxn seq with
    | some t => if p.working && t.deadline.any (reached p.run.clock) then (p.endAtDeadline t).settle else p
    | none => p)

/-- DEFER_EXPIRY (R92). -/
def execDeferExpiry (seq : Nat) (s : State) : Host.Outcome State Fault Refusal :=
  .next (s.onBlocks fun p =>
    match p.findTxn seq with
    | some t =>
      if p.working && t.state == .deferred && t.deferExpiry.any (reached p.run.clock) then
        (p.finishTxn t { outcome := .noResult }).settle
      else p
    | none => p)

/-- R89: the reservation of a token has expired. -/
def Reservation.due (token : Nat) (now : Word) (x : Reservation) : Bool := x.token == token && reached now x.expiry

/-- RESERVATION_EXPIRY (R89): the token is freed, with no record. -/
def execReservationExpiry (unit token : Nat) (s : State) : Host.Outcome State Fault Refusal :=
  .next (s.onPart fun p =>
    if p.working then
      p.updateUnit unit fun u => { u with reservations := u.reservations.filter fun x => !x.due token p.run.clock }
    else p)

/-- SYNC_DEADLINE (R101). -/
def execSyncDeadline (seq : Nat) (s : State) : Host.Outcome State Fault Refusal :=
  .next (s.onBlocks fun p =>
    match p.te.syncs.find? fun y => y.seq == seq with
    | some y => if p.working && y.deadline.any (reached p.run.clock) then (p.endSync y .deadline).settle else p
    | none => p)

/-- FLUSH_TIMER_EXPIRY (R158). -/
def execFlushTimerExpiry (s : State) : Host.Outcome State Fault Refusal :=
  .next (s.onBlocks fun p => if p.working && p.flushExpired then (p.completePage .ok).settle else p)

end Sys2Proof.Machine
end

