-- ==== Sys2Proof/Machine/Dispatch.lean ====
section
/-! DEFINITION. The meaning of every command: one arm for each row of spec/opcode_table.json. -/

namespace Sys2Proof.Machine

def exec (i : Instr) (s : State) : Host.Outcome State Fault Refusal :=
  match i with
  | .start => Sys2Proof.Machine.execStart s
  | .stop => Sys2Proof.Machine.execStop s
  | .halt performed => Sys2Proof.Machine.execHalt performed s
  | .reset performed => Sys2Proof.Machine.execReset performed s
  | .unknownCommand value => Sys2Proof.Machine.execUnknownCommand value s
  | .winbase value => Sys2Proof.Machine.execWinbase value s
  | .nudge value => Sys2Proof.Machine.execNudge value s
  | .svcpend value => Sys2Proof.Machine.execSvcpend value s
  | .svcen value => Sys2Proof.Machine.execSvcen value s
  | .registerWrite offset value => Sys2Proof.Machine.execRegisterWrite offset value s
  | .pinReset performed => Sys2Proof.Machine.execPinReset performed s
  | .busError performed => Sys2Proof.Machine.execBusError performed s
  | .headerChecks bytes => Sys2Proof.Machine.execHeaderChecks bytes s
  | .restarted states => Sys2Proof.Machine.execRestarted states s
  | .entryIntoRunning => Sys2Proof.Machine.execEntryIntoRunning s
  | .sweepTimer => Sys2Proof.Machine.execSweepTimer s
  | .sweep states => Sys2Proof.Machine.execSweep states s
  | .enroll slot => Sys2Proof.Machine.execEnroll slot s
  | .dismiss slot => Sys2Proof.Machine.execDismiss slot s
  | .hold slot => Sys2Proof.Machine.execHold slot s
  | .declare slot => Sys2Proof.Machine.execDeclare slot s
  | .retire slot => Sys2Proof.Machine.execRetire slot s
  | .clear slot => Sys2Proof.Machine.execClear slot s
  | .transact slot => Sys2Proof.Machine.execTransact slot s
  | .sync slot => Sys2Proof.Machine.execSync slot s
  | .abort slot => Sys2Proof.Machine.execAbort slot s
  | .lend slot => Sys2Proof.Machine.execLend slot s
  | .cut slot => Sys2Proof.Machine.execCut slot s
  | .badKind slot => Sys2Proof.Machine.execBadKind slot s
  | .doneWritePerformed slot => Sys2Proof.Machine.execDoneWritePerformed slot s
  | .turnChoice => Sys2Proof.Machine.execTurnChoice s
  | .pollDue unit => Sys2Proof.Machine.execPollDue unit s
  | .rollCallDue unit => Sys2Proof.Machine.execRollCallDue unit s
  | .notIdle => Sys2Proof.Machine.execNotIdle s
  | .commitment => Sys2Proof.Machine.execCommitment s
  | .headFrameSent => Sys2Proof.Machine.execHeadFrameSent s
  | .readback received => Sys2Proof.Machine.execReadback received s
  | .replyWindowExpiry => Sys2Proof.Machine.execReplyWindowExpiry s
  | .frameHeader bytes stopLow => Sys2Proof.Machine.execFrameHeader bytes stopLow s
  | .byteGap => Sys2Proof.Machine.execByteGap s
  | .report bytes => Sys2Proof.Machine.execReport bytes s
  | .endFrame => Sys2Proof.Machine.execEndFrame s
  | .reply bytes => Sys2Proof.Machine.execReply bytes s
  | .refuse bytes => Sys2Proof.Machine.execRefuse bytes s
  | .defer => Sys2Proof.Machine.execDefer s
  | .result bytes => Sys2Proof.Machine.execResult bytes s
  | .announce bytes => Sys2Proof.Machine.execAnnounce bytes s
  | .garbled bytes stopLow => Sys2Proof.Machine.execGarbled bytes stopLow s
  | .gapLimit => Sys2Proof.Machine.execGapLimit s
  | .lineFaultEnd => Sys2Proof.Machine.execLineFaultEnd s
  | .settleTimerExpiry unit => Sys2Proof.Machine.execSettleTimerExpiry unit s
  | .staleTimerExpiry entry => Sys2Proof.Machine.execStaleTimerExpiry entry s
  | .deadlineExpiry seq => Sys2Proof.Machine.execDeadlineExpiry seq s
  | .deferExpiry seq => Sys2Proof.Machine.execDeferExpiry seq s
  | .reservationExpiry unit token => Sys2Proof.Machine.execReservationExpiry unit token s
  | .syncDeadline seq => Sys2Proof.Machine.execSyncDeadline seq s
  | .flushTimerExpiry => Sys2Proof.Machine.execFlushTimerExpiry s
  | .drainTimer => Sys2Proof.Machine.execDrainTimer s
  | .entryIntoStopped => Sys2Proof.Machine.execEntryIntoStopped s
  | .bankUpdate => Sys2Proof.Machine.execBankUpdate s
  | .bankBitWritten => Sys2Proof.Machine.execBankBitWritten s
  | .faultRecordWritten => Sys2Proof.Machine.execFaultRecordWritten s
  | .queueRoom => Sys2Proof.Machine.execQueueRoom s
  | .frameBegins => Sys2Proof.Machine.execFrameBegins s
  | .protocolErrorFrameEnd => Sys2Proof.Machine.execProtocolErrorFrameEnd s
  | .lineActivity => Sys2Proof.Machine.execLineActivity s
  | .passedOver state => Sys2Proof.Machine.execPassedOver state s

end Sys2Proof.Machine
end

