-- ==== Sys2Proof/Machine/Step.lean ====
section
/-! DEFINITION. One step of the machine: the command at the front of the queue, or, on an empty queue, one millisecond of the line clock. -/

namespace Sys2Proof.Machine

/-- R180: one millisecond passes; the clock stands still in IDLE (notes/assumptions/1.md). -/
def Part.tick (p : Part) : Part :=
  if p.run.partState = .idle then p else { p with run := { p.run with clock := p.run.clock + 1 } }

def step (s : State) : Host.Outcome State Fault Refusal :=
  match s.pending with
  | [] => .next (s.onPart Part.tick)
  | c :: rest => exec c { s with pending := rest }

/-- The state with the command that a word spells at the front of its queue; no word spells one (Decode.lean). -/
def State.withFetchWord (s : State) (nbits w : Nat) : State :=
  match decodeTableWord nbits w with
  | some c => { s with pending := c :: s.pending }
  | none => s

end Sys2Proof.Machine
end

