-- ==== Sys2Proof/Safety.lean ====
section
/-! DEFINITION. The invariants of the CF-2430 that the statements speak of, and the situations in which their premises place the part. Every command answers
a next state, so safety here is what every state keeps. -/

namespace Sys2Proof.Machine

/-! ## Invariants -/

/-- The memory is in its canonical form. -/
abbrev State.MemoryCanonical (s : State) : Prop := s.mem.wf = true

/-- R174: the write queue holds at most 32 accesses and the read queue at most 8. -/
abbrev WindowPort.Bounded (w : WindowPort) : Prop :=
  w.writesQueued ≤ Config.writeQueueSize ∧ w.readsQueued ≤ Config.readQueueSize

abbrev State.PortBounded (s : State) : Prop := s.part.port.Bounded

/-- R83: the pool never holds more than 96 records and a unit's queue never holds more than 8. -/
def State.PoolBounded (s : State) : Prop :=
  s.part.te.pool.length ≤ Config.poolSize ∧ ∀ a : Nat, (s.part.unitQueue a).length ≤ Config.queueDepth

/-- R155: at most 8 pages are lent. -/
abbrev State.PagesBounded (s : State) : Prop := s.part.jw.pages.length ≤ Config.lentPages

/-- R24: addresses 0 and 31 have no place. -/
abbrev State.HeadPlacesEmpty (s : State) : Prop := s.part.unitAt 0 = none ∧ s.part.unitAt 31 = none

/-- R64, R67: no turn and no choice stand during a line fault, and no turn runs while one is chosen. -/
abbrev State.LineExclusive (s : State) : Prop :=
  (s.part.line.fault.isSome = true → s.part.line.turn = none ∧ s.part.line.choice = none) ∧
  (s.part.line.choice.isSome = true → s.part.line.turn = none)

/-- The take sequence `n` stands somewhere in the records of the board or of the Transaction Engine. -/
def Part.Names (p : Part) (n : Nat) : Prop :=
  (∃ h ∈ p.board.held, h.seq = n ∨ h.pred = some n) ∨ (∃ e ∈ p.board.registry, e.2 = n) ∨ (∃ f ∈ p.board.finishes, f.seq = n) ∨
  (∃ t ∈ p.te.pool, t.seq = n ∨ t.pred = some n) ∨ (∃ y ∈ p.te.syncs, y.seq = n ∨ y.pred = some n ∨ n ∈ y.waitingFor) ∨
  (∃ w ∈ p.te.aborts, w.seq = n ∨ w.target = n)

/-- Some request waits for the item of take sequence `n` to finish (R119): a request that the Board Controller holds, a transaction or a SYNC. The record of a
request handed to its block keeps the predecessor named at its take (R111) and waits for nothing. -/
def Part.Waits (p : Part) (n : Nat) : Prop :=
  (∃ h ∈ p.board.held, h.owner = .boardController ∧ h.pred = some n) ∨ (∃ t ∈ p.te.pool, t.pred = some n) ∨ (∃ y ∈ p.te.syncs, y.pred = some n)

/-- R114: every take sequence in use has been given to a take before. -/
def State.SequencesBelow (s : State) : Prop := ∀ n : Nat, s.part.Names n → n < s.part.board.nextSeq

/-- R82, R114, R155: no two transactions and no two lent pages share a take sequence, a page's lies below the next one, and a request that the Board
Controller holds is no TRANSACT and shares its take sequence with no transaction and no page. -/
abbrev State.Distinct (s : State) : Prop :=
  (s.part.te.pool.map (·.seq)).Nodup ∧ (s.part.jw.pages.map (·.seq)).Nodup ∧ (∀ g ∈ s.part.jw.pages, g.seq < s.part.board.nextSeq) ∧
  ∀ h ∈ s.part.board.held, h.owner = .boardController →
    Req.kind h.req ≠ some .transact ∧ (∀ x ∈ s.part.te.pool, x.seq ≠ h.seq) ∧ ∀ g ∈ s.part.jw.pages, g.seq ≠ h.seq

/-- R120, R121, R172: while no block waits for room, no work stands behind a wait, no finished item waits to be resolved, and a drain that has not ended still
has something to wait for. -/
abbrev State.Settled (s : State) : Prop :=
  s.part.port.waiting = [] → s.part.port.later = [] ∧ s.part.board.finishes = [] ∧
    ¬ (s.part.run.partState = .draining ∧ s.part.run.drainEnded = false ∧ s.part.drainDone = true)

/-- R100: every waiting SYNC has something left to wait for. -/
abbrev State.SyncsWait (s : State) : Prop := ∀ y ∈ s.part.te.syncs, y.finished ≠ y.captured ∨ y.pred ≠ none

/-! ## Situations -/

/-- RUNNING or DRAINING. -/
abbrev State.Working (s : State) : Prop := s.part.run.partState = .running ∨ s.part.run.partState = .draining

/-- Nothing waits to be done or resolved, and no drain can end. -/
abbrev State.Steady (s : State) : Prop :=
  s.part.board.finishes = [] ∧ s.part.port.later = [] ∧
  (s.part.run.partState = .running ∨ (s.part.run.partState = .draining ∧ s.part.run.drainEnded = true))

/-- No request in flight waits for a predecessor that has not finished. -/
def State.NoneWaits (s : State) : Prop := ∀ n : Nat, ¬ s.part.Waits n

/-- No block waits for room in the Window Port, and no work stands behind a wait. -/
abbrev State.PortFree (s : State) : Prop := s.part.port.waiting = [] ∧ s.part.port.later = []

/-- The same, and there is room for so many more writes and reads. -/
abbrev State.PortRoom (s : State) (writes reads : Nat) : Prop :=
  s.part.port.waiting = [] ∧ s.part.port.later = [] ∧ s.part.port.writesQueued + writes ≤ Config.writeQueueSize ∧
  s.part.port.readsQueued + reads ≤ Config.readQueueSize

/-- The one access outstanding in the Window Port is `a`. -/
abbrev State.OnlyAccess (s : State) (a : Access) : Prop := s.part.port = { fifo := [a] }

/-- From `s` to `t` the accesses `l` have been raised, in this order, and nothing has been performed. -/
def State.Raised (s t : State) (l : List Access) : Prop :=
  t.part.port = { s.part.port with fifo := s.part.port.fifo ++ l } ∧ t.mem = s.mem

/-- R153: what a bank bit raises at once: the read of its map word, where the bank queue was empty. -/
def Part.bankBitRead (p : Part) (m : MapKind) (i : Nat) : List Access :=
  if p.svc.bankQueue = [] then [.read .bankWord (mapWordAddr p.base p.svc.activeBank m i) 4] else []

/-- R14, R148: the rewrite of the mirror of entry number `n`, whose content becomes `new`; none where what it shows stays the same. -/
def State.entryMirror (s : State) (n : Nat) (new : Option Entry) : List Access :=
  let shown := (new.map (·.key)).getD (s.part.entrySlot n).shownKey
  if dirBody (s.part.entrySlot n).shownKey (s.part.entryAt n) = dirBody shown new then []
  else mirrorWrites (dirMirrorAddr s.part.base n) (s.part.entrySlot n).version (dirBody shown new)

/-- R40, R148: the rewrite of the mirror of the unit at address `a`, whose place becomes `new`; none where what it shows stays the same. -/
def State.unitMirror (s : State) (a : Nat) (new : Option FieldUnit) : List Access :=
  if unitBody (s.part.unitAt a) = unitBody new then []
  else mirrorWrites (unitMirrorAddr s.part.base a) (s.part.unitSlot a).version (unitBody new)

/-- R13, R14: from `s` to `t` the mirror of entry number `n`, whose content has become `new`, is rewritten once where what it shows has changed, and behind the
rewrite the bank bit follows where the change notifies. -/
def State.MirrorsEntry (s t : State) (n : Nat) (new : Option Entry) (notify : Bool) : Prop :=
  s.part.port.fifo ++ s.entryMirror n new ++ (if notify = true then s.part.bankBitRead .directory n else []) <+: t.part.port.fifo ∧
  t.part.svc.bankQueue = s.part.svc.bankQueue ++ if notify = true then [.update s.part.svc.activeBank .directory n] else []

/-- R14, R174: from `s` to `t` the mirror of entry number `n`, whose content has become `new`, is rewritten once where what it shows has changed, its writes raised
or behind accesses that wait for room. -/
def State.RewritesEntry (s t : State) (n : Nat) (new : Option Entry) : Prop :=
  (t.part.entrySlot n).version = (s.part.entrySlot n).version + (if s.entryMirror n new = [] then 0 else 2) ∧
  List.Sublist (s.entryMirror n new) t.part.port.outstanding

/-- R40, R174: from `s` to `t` the mirror of the unit at address `a`, whose place has become `new`, is rewritten once where what it shows has changed, its writes
raised or behind accesses that wait for room. -/
def State.RewritesUnit (s t : State) (a : Nat) (new : Option FieldUnit) : Prop :=
  (t.part.unitSlot a).version = (s.part.unitSlot a).version + (if s.unitMirror a new = [] then 0 else 2) ∧
  List.Sublist (s.unitMirror a new) t.part.port.outstanding

/-- R153, R174: the bank bit of number `i` is among the updates `more`, bound to the bank `bank`, or stands behind the accesses of the block `b` that wait for
room. -/
def State.BitAmong (t : State) (more : List BankItem) (bank : BankId) (b : Block) (m : MapKind) (i : Nat) : Prop :=
  .update bank m i ∈ more ∨ ∃ e ∈ t.part.port.waiting, e.block = b ∧ .hand (.bankBit m i) ∈ e.items

/-- R40, R13, R153: from `s` to `t` the block `b` has handed on the bank bit of number `i`, for the active bank, or hands it on behind accesses that wait for
room. -/
def State.HandsBit (s t : State) (b : Block) (m : MapKind) (i : Nat) : Prop :=
  ∃ more : List BankItem, t.part.svc.bankQueue = s.part.svc.bankQueue ++ more ∧ t.BitAmong more s.part.svc.activeBank b m i

/-- R44, R45, R40: from `s` to `t` the place at address `a`, whose mirror had the version `v`, has been emptied: the mirror shows EMPTY. -/
def State.ShowsEmpty (s t : State) (a : Nat) (v : BitVec 64) : Prop :=
  t.part.unitSlot a = { version := v + 2, place := none } ∧
  List.Sublist (mirrorWrites (unitMirrorAddr s.part.base a) v (unitBody none)) t.part.port.outstanding

/-- The slot at the front of a sweep's set has been read, its answer the only access outstanding, and no completion is on its way; the slot is
still POSTED and is of the kind `k`. -/
def State.TakesSlot (s : State) (n : Nat) (slot : List Byte) (k : ReqKind) : Prop :=
  s.part.run.partState = .running ∧ s.part.board.finishes = [] ∧ s.SequencesBelow ∧ s.OnlyAccess (slotRead s.part.base n) ∧
  (∃ rest last, s.part.board.sweep = .taking (n :: rest) last) ∧ slot.length = 128 ∧ byteAt slot 0x7F = statePosted ∧ Req.kind slot = some k ∧
  s.part.board.completions = []

/-- The request passes the six checks of R115. -/
abbrev State.Accepts (s : State) (slot : List Byte) : Prop := s.part.validate (slot.take 64) = none

/-- The request names no predecessor in flight: `after` is 0 or has no holder. -/
abbrev State.NoPredecessor (s : State) (r : List Byte) : Prop := s.part.holderOf (Req.afterTag r) = none

/-- R122: the completion of slot `n` with the result `res` within its take, the time of the take in it. -/
def State.takeCompletion (s : State) (n : Nat) (slot : List Byte) (res : Result) : Completion :=
  { slot := n, unmatched := Req.afterTag (slot.take 64) != 0, result := res, time := s.part.run.clock }

/-- R122: the two writes that complete slot `n` with the result `res` within its take. -/
def State.completionOf (s : State) (n : Nat) (slot : List Byte) (res : Result) : List Access :=
  completionWrites s.part.base n res (Req.afterTag (slot.take 64) != 0) s.part.run.clock (.done n)

/-- The request of slot `n` completed with the result `res` within its take: of the board's records only the next take sequence has changed, its
completion is the one on its way, nothing is left to resolve, and neither memory nor the Run Controller has changed. -/
def State.CompletedTake (s t : State) (n : Nat) (slot : List Byte) (res : Result) : Prop :=
  t.pending = s.pending ∧ t.mem = s.mem ∧ t.part.run = s.part.run ∧ t.part.board.held = s.part.board.held ∧
  t.part.board.registry = s.part.board.registry ∧ t.part.board.finishes = [] ∧ t.part.board.nextSeq = s.part.board.nextSeq + 1 ∧
  t.part.board.completions = [s.takeCompletion n slot res]

/-- The command of the take row of a kind byte; none of the eleven codes is BAD_KIND. -/
def takeCommand (slot : List Byte) : Option ReqKind → Instr
  | some .enroll => .enroll slot
  | some .dismiss => .dismiss slot
  | some .hold => .hold slot
  | some .declare => .declare slot
  | some .retire => .retire slot
  | some .clear => .clear slot
  | some .transact => .transact slot
  | some .sync => .sync slot
  | some .abort => .abort slot
  | some .lend => .lend slot
  | some .cut => .cut slot
  | none => .badKind slot

/-- The read of the slot at the front of a sweep's set is the only access outstanding, and no completion is on its way; `rest` are the slots behind
it, `last` the last one taken. -/
def State.SlotAnswered (s : State) (n : Nat) (rest : List Nat) (last : Option Nat) : Prop :=
  s.part.run.partState = .running ∧ s.part.board.finishes = [] ∧ s.SequencesBelow ∧ s.OnlyAccess (slotRead s.part.base n) ∧
  s.part.board.sweep = .taking (n :: rest) last ∧ s.part.board.completions = []

/-- R124: as `SlotAnswered`, of the take that a STOP found in the making: DRAINING, and no other slot of the set is to come. -/
def State.LastSlotAnswered (s : State) (n : Nat) (last : Option Nat) : Prop :=
  s.part.run.partState = .draining ∧ s.part.board.finishes = [] ∧ s.SequencesBelow ∧ s.OnlyAccess (slotRead s.part.base n) ∧
  s.part.board.sweep = .taking [n] last ∧ s.part.board.completions = []

/-- R111, R117: the record held of the request taken from slot `n` and handed to its owner, once it continues. -/
def State.recordOf (s : State) (n : Nat) (slot : List Byte) (owner : Block) (pred : Option Nat) : HeldRequest :=
  { slot := n, req := slot.take 64, takeTime := s.part.run.clock, seq := s.part.board.nextSeq, owner := owner, pred := pred
    unmatched := Req.afterTag (slot.take 64) != 0 && pred.isNone, taken := true }

/-- R117, R174: the same request while its take is still being made, its owner waiting for room with the completion. -/
def State.requestInTake (s : State) (n : Nat) (slot : List Byte) (owner : Block) : HeldRequest :=
  { s.recordOf n slot owner none with taken := false }

/-- R117, R113, R174: the take of slot `n` has not come to its end in `t`, because the block `owner` waits for room: the request's record is not held and its slot
is not written TAKEN, and the sweep goes on behind it. -/
def State.TakeWaits (s t : State) (n : Nat) (slot : List Byte) (owner : Block) : Prop :=
  t.part.port.waiting ≠ [] ∧ s.requestInTake n slot owner ∈ t.part.board.held ∧
  (∀ report : ReportTag, Access.write (stateByteAddr s.part.base n) [stateTaken] report ∉ t.part.port.outstanding) ∧
  t.part.board.sweep = s.part.board.sweep ∧ t.part.port.later.getLast? = some .sweepOn

/-- R113: from `s` to `t` the sweep has gone on past a slot of its set: the next of the slots `rest` is read, or the sweep has ended and its origin lies past
`last`, the last slot taken. -/
def State.SweepGoesOn (s t : State) (rest : List Nat) (last : Option Nat) : Prop :=
  (∀ m more, rest = m :: more →
    t.part.board.sweep = .taking rest last ∧ t.part.board.origin = s.part.board.origin ∧
    t.part.board.sweepCount = s.part.board.sweepCount ∧ Access.read (.slot m) (slotAddr s.part.base m) 128 ∈ t.part.port.outstanding) ∧
  (rest = [] →
    t.part.board.sweep = (if s.part.board.sweepAgain then .reading else .noSweep) ∧ t.part.board.sweepAgain = false ∧
    t.part.board.sweepCount = s.part.board.sweepCount + 1 ∧
    (∀ k, last = some k → t.part.board.origin = (k + 1) % 64) ∧ (last = none → t.part.board.origin = s.part.board.origin))

/-- R124: from `s` to `t` the sweep that a STOP ended has come to its end: it is not counted, and its origin lies past `last`, the last slot taken. -/
def State.SweepDropped (s t : State) (last : Option Nat) : Prop :=
  t.part.board.sweep = .noSweep ∧ t.part.board.sweepCount = s.part.board.sweepCount ∧ t.part.board.sweepTimer = s.part.board.sweepTimer ∧
  (∀ k, last = some k → t.part.board.origin = (k + 1) % 64) ∧ (last = none → t.part.board.origin = s.part.board.origin)

/-- R113, R117, R174: from `s` to `t` the sweep waits behind a take whose block waits for room: a request has not come to the end of its take. -/
def State.SweepWaits (s t : State) : Prop :=
  t.part.port.waiting ≠ [] ∧ .sweepOn ∈ t.part.port.later ∧ (∃ h ∈ t.part.board.held, h.taken = false) ∧
  t.part.board.sweep = s.part.board.sweep ∧ t.part.board.origin = s.part.board.origin ∧ t.part.board.sweepCount = s.part.board.sweepCount

/-- R118: the tag registry with the request's own tag. -/
def State.registryWith (s : State) (slot : List Byte) : List (Half × Nat) :=
  if Req.tag (slot.take 64) = 0 then s.part.board.registry else s.part.board.registry ++ [(Req.tag (slot.take 64), s.part.board.nextSeq)]

/-- R117: the TAKEN write of slot `n` is the first access raised. -/
def State.TakenWritten (s t : State) (n : Nat) : Prop :=
  [.write (stateByteAddr s.part.base n) [stateTaken] .silent] <+: t.part.port.fifo

/-- R122: from `s` to `t` the completion `c` has joined those on their way to the window, behind the ones that were there; where there were none, the two
writes of the first are raised, or wait for room (notes/assumptions/41.md). -/
def State.CompletesSlot (s t : State) (c : Completion) : Prop :=
  ∃ more : List Completion, t.part.board.completions = s.part.board.completions ++ more ∧ c ∈ more ∧
    ∀ (first : Completion) (rest : List Completion), s.part.board.completions = [] → more = first :: rest →
      List.Sublist (completionWrites s.part.base first.slot first.result first.unmatched first.time (.done first.slot)) t.part.port.outstanding

/-- R122: the request in flight with the take sequence `seq` completes in `t` with the result `res`. -/
def State.Completes (s t : State) (seq : Nat) (res : Result) : Prop :=
  ∀ h : HeldRequest, s.part.heldOf seq = some h →
    s.CompletesSlot t { slot := h.slot, unmatched := h.unmatched, result := res, time := s.part.run.clock }

/-- R174: the same, or the completion stands behind the accesses of the block `b` that wait for room, and the request is still held. -/
def State.CompletesOrWaits (s t : State) (b : Block) (seq : Nat) (res : Result) : Prop :=
  s.Completes t seq res ∨
    (∃ e ∈ t.part.port.waiting, e.block = b ∧ e.items.getLast? = some (.hand (.complete seq res))) ∧ t.part.heldOf seq = s.part.heldOf seq

/-- R157 step 5: after the completion of the open page its queue is `rest`: the withdrawn pages at the front complete ABORTED, and the first page that is not
withdrawn is open with the next page sequence. -/
def State.PassesOn (s t : State) (rest : List Page) : Prop :=
  ∀ withdrawn more : List Page, rest = withdrawn ++ more → (∀ g ∈ withdrawn, g.withdrawn = true) →
    (∀ g tail, more = g :: tail → g.withdrawn = false) →
    (∀ g ∈ withdrawn, s.Completes t g.seq { outcome := .aborted }) ∧
    (more = [] → t.part.jw = { s.part.jw with pages := [], opened := none }) ∧
    (more ≠ [] → t.part.jw = { s.part.jw with
      pages := more
      opened := some { pageSeq := s.part.jw.nextPage, count := 0, used := 32, firstTime := none, lastTime := none, gap := none, flushTimer := none }
      nextPage := if s.part.jw.nextPage = 0xFFFFFFFF then 1 else s.part.jw.nextPage + 1 })

/-- R98: the fault record `f` has been handed to the Service Unit from `s` to `t`, and its four writes are raised or wait for room. -/
def State.Logs (s t : State) (f : FaultRecord) : Prop :=
  ∃ (index : Nat) (seq : Word), List.Sublist (faultWrites s.part.base index seq f s.part.run.clock) t.part.port.outstanding

/-- R98: the transaction `x`, reported ACCEPTED, fails with the outcome `o`: a LATE_FAILURE record with the first 8 bytes of `data`. -/
def State.FailsLate (s t : State) (x : Transaction) (o : ReqOutcome) (data : List Byte) : Prop :=
  s.Logs t { kind := .lateFailure, unit := x.unit, tag := x.tag, detail := o.code, detailHigh := byteOf x.command
             word1 := wordOf (leAt data 0 4), word2 := wordOf (leAt data 4 4) }

/-- R163: no fault record has been handed to the Service Unit from `s` to `t`. -/
def State.LogsNothing (s t : State) : Prop :=
  t.part.svc.nextFault = s.part.svc.nextFault ∧ t.part.svc.ringIndex = s.part.svc.ringIndex

/-- R163: from `s` to `t` the fault record `f` is the first thing raised, under the next sequence number and ring index. -/
def State.Records (s t : State) (f : FaultRecord) : Prop :=
  s.part.port.fifo ++ faultWrites s.part.base s.part.svc.ringIndex s.part.svc.nextFault f s.part.run.clock <+: t.part.port.fifo ∧
  t.part.svc.nextFault = (if s.part.svc.nextFault = 0xFFFFFFFF then 1 else s.part.svc.nextFault + 1) ∧
  t.part.svc.ringIndex = (s.part.svc.ringIndex + 1) % 32

/-- Every unit but the one at address `a`, and the version of its mirror, is as it was. -/
def State.OtherUnits (s t : State) (a : Nat) : Prop := ∀ b : Nat, b ≠ a → t.part.unitSlot b = s.part.unitSlot b

/-- Every entry number but `n` is as it was: its entry, the key it last held and the version of its mirror. -/
def State.OtherEntries (s t : State) (n : Nat) : Prop := ∀ i : Nat, i ≠ n → t.part.entrySlot i = s.part.entrySlot i

/-! ## A row before and after its finishes are resolved (R120, R121) -/

/-- R120: from `s` to `t` the items of `ended` have finished, in this order, and nothing of it has been resolved: their tags are registered, the sweep is where
it was, and every other request is held as before. The statement FinishedItemReleasesItsWaiter says what `Part.settle` makes of them. -/
def State.Finished (s t : State) (ended : List Finish) : Prop :=
  t.part.board.finishes = ended ∧ t.part.board.registry = s.part.board.registry ∧ t.part.board.nextSeq = s.part.board.nextSeq ∧
  t.part.board.sweep = s.part.board.sweep ∧ List.Sublist t.part.board.held s.part.board.held ∧
  ∀ n : Nat, (∀ f ∈ ended, f.seq ≠ n) → t.part.heldOf n = s.part.heldOf n

/-- `r` is `t`, the state with the row's own effect, its finishes not resolved yet; or, where no request of `s` waits for a predecessor, the state in which they
are. -/
def State.ResolvedOrNot (s t r : State) : Prop := r = t ∨ s.NoneWaits ∧ r = t.onPart Part.resolve

/-- R104: the finishes of the ABORTs that wait for the transaction `seq`, in the order in which they began to wait. -/
def State.abortFinishes (s : State) (seq : Nat) : List Finish :=
  (s.part.te.aborts.filter fun w => w.target == seq).filterMap fun w => (s.part.heldOf w.seq).map fun _ => ⟨w.seq, true, false⟩

/-- R44, R45: the finish of the DISMISS that waits for the unit at address `a`, when its completion has been taken from `s` to `t`. -/
def State.dismissFinish (s t : State) (a : Nat) : List Finish :=
  (s.part.um.dismissWait.toList.filter fun d => d.unit == a && (s.part.heldOf d.seq).isSome && (t.part.heldOf d.seq).isNone).map
    fun d => ⟨d.seq, true, false⟩

/-- The take sequences of the items that the end of a turn with the transaction `seq` can finish are different. -/
abbrev State.EndsApart (s : State) (seq : Nat) : Prop :=
  (seq :: ((s.part.te.aborts.filter fun w => w.target == seq).map (·.seq) ++ s.part.um.dismissWait.toList.map (·.seq))).Nodup

/-- R157: the finishes of the completion of the open page `g`, and of the withdrawn pages next in the queue. -/
def State.pageFinishes (s : State) (g : Page) (withdrawn : List Page) : List Finish :=
  ((g, true) :: withdrawn.map fun x => (x, false)).filterMap fun c => (s.part.heldOf c.1.seq).map fun _ => ⟨c.1.seq, c.2, false⟩

/-- R52, R40: from `s` to `t` the LINE condition of every unit that is not DEPARTING has become `faulty`; of the unit at the address `but`, whose turn ends in the
same row, this says nothing. Where a factor set has changed the mirror is rewritten, in ascending address order, and the bank bit is handed on, at once or behind
the accesses that wait for room; where nothing shown has changed it is not. -/
def State.ShowsLine (s t : State) (faulty : Bool) (but : Option Nat) : Prop :=
  (∀ (a : Nat) (u : FieldUnit), 1 ≤ a ∧ a ≤ 30 → some a ≠ but → s.part.unitAt a = some u →
    (unitBody (t.part.unitAt a) = unitBody (some u) → t.part.unitSlot a = { s.part.unitSlot a with place := t.part.unitAt a }) ∧
    (u.link ≠ .departing → u.factors.line ≠ faulty →
      (t.part.unitSlot a).version = (s.part.unitSlot a).version + 2 ∧ s.HandsBit t .unitManager .unit a)) ∧
  (∀ a : Nat, s.part.unitAt a = none → t.part.unitSlot a = s.part.unitSlot a) ∧
  List.Sublist
    (unitAddresses.flatMap fun a =>
      if some a ≠ but ∧ (s.part.unitAt a).any (fun u => u.link != .departing && u.factors.line != faulty) then
        mirrorWrites (unitMirrorAddr s.part.base a) (s.part.unitSlot a).version (unitBody (t.part.unitAt a))
      else [])
    t.part.port.outstanding

/-- A turn is in progress and its frame has a good header `h` of the kind asked for, and no protocol error. -/
abbrev State.InFrame (s : State) (t : Turn) (h : FrameHeader) (kind : Nat) : Prop :=
  s.part.line.turn = some t ∧ t.phase = .body h none false ∧ h.kind.toNat = kind

/-- The command `c` ends the turn in progress, as `t`: its reply window or its gap limit has passed, the END frame has come, a protocol error frame beyond
the turn's limit has ended, or a header check has failed, which counts an error and garbles the answer frame (R69, R71). -/
def State.EndsTurn (s : State) (c : Instr) (t : Turn) : Prop :=
  ∃ x : Turn, s.part.line.turn = some x ∧
  ((c = .replyWindowExpiry ∧ t = x ∧ ∃ since, x.phase = .window since ∧ x.replyWindow ≤ elapsed s.part.run.clock since) ∨
   (c = .gapLimit ∧ t = x ∧ ∃ since, x.phase = .gap since ∧ 1 ≤ elapsed s.part.run.clock since) ∨
   (c = .endFrame ∧ t = x ∧ ∃ (h : FrameHeader) (last : Bool), x.phase = .body h none last ∧ h.kind.toNat = 9) ∨
   (c = .protocolErrorFrameEnd ∧ t = x ∧ ∃ (h : FrameHeader) (e : ProtocolError), x.phase = .body h (some e) true) ∨
   (x.phase = .header ∧ (c = .byteGap ∨ ∃ (bytes : List Byte) (low : Bool), c = .frameHeader bytes low ∧ goodHeader bytes low = none) ∧
    t = { x with errors := x.errors + 1, answer := if x.kind.isCommand = true ∧ x.frames = 1 then .garbled else x.answer }))

/-- The commands whose event is an answer of the system port, or that let accesses be performed (notes/assumptions/3.md, 4.md and 5.md); a command that
waits for room (`waitsForRoom`) may perform accesses before its own event. -/
def performsAccesses : Instr → Bool
  | .halt _ | .reset _ | .pinReset _ | .busError _ | .headerChecks _ | .restarted _ | .entryIntoRunning | .sweep _ | .enroll _ | .dismiss _
  | .hold _ | .declare _ | .retire _ | .clear _ | .transact _ | .sync _ | .abort _ | .lend _ | .cut _ | .badKind _ | .doneWritePerformed _
  | .entryIntoStopped | .bankUpdate | .bankBitWritten | .faultRecordWritten | .queueRoom | .passedOver _ => true
  | _ => false

/-- The commands that let blocks work which may have to wait for room first (R174; notes/assumptions/8.md); a STOP and a NUDGE do so in RUNNING. -/
def waitsForRoom (s : State) : Instr → Bool
  | .stop | .nudge _ => s.part.run.partState == .running
  | .drainTimer | .sweepTimer | .sweep _ | .enroll _ | .dismiss _ | .hold _ | .declare _ | .retire _ | .clear _ | .transact _ | .sync _ | .abort _
  | .lend _ | .cut _ | .badKind _ | .passedOver _ | .doneWritePerformed _ | .bankUpdate | .bankBitWritten | .faultRecordWritten | .notIdle
  | .commitment | .readback _ | .replyWindowExpiry | .frameHeader _ _ | .byteGap | .report _ | .endFrame | .result _ | .announce _ | .garbled _ _
  | .protocolErrorFrameEnd | .gapLimit | .lineFaultEnd | .settleTimerExpiry _ | .staleTimerExpiry _ | .deadlineExpiry _ | .deferExpiry _
  | .syncDeadline _ | .flushTimerExpiry => true
  | _ => false

end Sys2Proof.Machine
end

