-- ==== Sys2Proof/Certificates/Slice0/Obligations.lean ====
section
/-! DEFINITION. The statements for the provers. Log entries of notes/assumptions/ are cited as A1, A2 and so on. -/

open Sys2Proof Sys2Proof.Machine

/-! ## The queue, the clock, the answers -/

/-- A step runs the command at the front of the queue on the state with the queue's rest. -/
def Obligations.StepRunsTheFrontCommand : Prop :=
  ∀ (c : Instr) (rest : List Instr) (s : State), step { s with pending := c :: rest } = exec c { s with pending := rest }

/-- R180, with the model's choice A1: on an empty queue one millisecond of the line clock passes, but in IDLE; nothing else changes. -/
def Obligations.EmptyQueueTicksTheClock : Prop :=
  ∀ s : State, s.pending = [] →
    step s = .next { s with part := { s.part with run := { s.part.run with
      clock := if s.part.run.partState = .idle then s.part.run.clock else s.part.run.clock + 1 } } }

/-- Every command answers a next state and leaves the queue to the step. It changes memory only by performing accesses of the Window Port in the order raised
(R174): the first ones, and a command that is no answer of the system port performs none, but those that blocks waiting for room let go first. Where no block
waits for room and no work stands behind a wait, there are none of these; where the waiting ends, the command acts on the state in which it has ended. -/
def Obligations.CommandsAnswerAndPerformInOrder : Prop :=
  ∀ (c : Instr) (s : State),
    (∃ t : State, exec c s = .next t ∧ t.pending = s.pending ∧
      (∃ (b : State) (k : Nat), (b = s ∨ waitsForRoom s c = true ∧ b = s.awaitRoom) ∧ t.mem = (b.perform k).mem ∧
        (performsAccesses c = false → k = 0)) ∧
      ∃ l : List Access, t.mem = l.foldl Access.land s.mem ∧ (l <+: s.part.port.fifo ∨ s.part.port.fifo <+: l)) ∧
    (s.PortFree → s.awaitRoom = s) ∧
    (waitsForRoom s c = true → s.awaitRoom.PortFree → exec c s = exec c s.awaitRoom)

/-! ## Invariants -/

/-- R83, R155, R174, with the model's A6: every step keeps the canonical form of memory and the capacities of the Window Port's queues, of the pool and its
queues, and of the lent pages, each by itself. -/
def Obligations.EveryStepKeepsMemoryAndCapacities : Prop :=
  ∀ s t : State, step s = .next t →
    (s.MemoryCanonical → t.MemoryCanonical) ∧ (s.PortBounded → t.PortBounded) ∧ (s.PoolBounded → t.PoolBounded) ∧ (s.PagesBounded → t.PagesBounded)

/-- R24, R64, R67: every step keeps addresses 0 and 31 without a place, and keeps turns, choices and line faults apart. -/
def Obligations.EveryStepKeepsPlacesAndTheLine : Prop :=
  ∀ s t : State, step s = .next t → (s.HeadPlacesEmpty → t.HeadPlacesEmpty) ∧ (s.LineExclusive → t.LineExclusive)

/-- R114, R82, R155, with the model's choice A12: every take sequence in use lies below the next one to be given, and no two transactions and no two lent
pages share one. -/
def Obligations.EveryStepKeepsSequencesBelow : Prop :=
  ∀ s t : State, s.SequencesBelow → step s = .next t → t.SequencesBelow ∧ (s.Distinct → t.Distinct)

/-- R100, R120, R121, R172: after every step with which no block waits for room, no work is left that stood behind a wait, nothing that has finished is left
unresolved, and a drain that has not ended still waits for something; every waiting SYNC always waits for something. That a finish is resolved within the
step that brings it, or once no block waits, and that the drain's end is judged then are the model's choices A8, A14 and A15; a take in the making does not
hold the drain open, A17. -/
def Obligations.EveryStepKeepsTheMachineSettled : Prop :=
  ∀ s t : State, step s = .next t → (s.Settled → t.Settled) ∧ (s.SyncsWait → t.SyncsWait)

/-- R179, and the model's A6 and A9: the state after reset satisfies every invariant, and its registers read as R184 gives them. That an offset at which
none of the nine registers stands reads 0 is the model's choice A50. -/
def Obligations.ResetStateIsIdleAndSound : Prop :=
  State.reset.MemoryCanonical ∧ State.reset.PortBounded ∧ State.reset.PoolBounded ∧ State.reset.PagesBounded ∧ State.reset.HeadPlacesEmpty ∧
  State.reset.LineExclusive ∧ State.reset.SequencesBelow ∧ State.reset.Distinct ∧ State.reset.Settled ∧ State.reset.SyncsWait ∧ State.reset.pending = [] ∧
  State.reset.part.run.partState = .idle ∧ State.reset.part.run.haltCause = .noCause ∧ State.reset.part.run.refused = false ∧
  State.reset.part.run.lineFault = false ∧ State.reset.part.run.abandoned = 0 ∧ State.reset.part.run.clock = 0 ∧
  State.reset.part.run.winbase = 0 ∧ State.reset.part.svc.summary = 0 ∧ State.reset.part.svc.swapCount = 0 ∧
  State.reset.part.svc.enables = 0 ∧ State.reset.svcreqn = true ∧ State.reset.ldir = false ∧
  (∀ bit : Nat, State.reset.ltx bit = true) ∧
  State.reset.part.readRegister 0x00 = 0x24300101 ∧
  (∀ o : Nat, o ≠ 0x00 → State.reset.part.readRegister o = 0) ∧
  (∀ a : Nat, State.reset.part.unitAt a = none) ∧ (∀ n : Nat, State.reset.part.entryAt n = none) ∧
  State.reset.part.te.pool = [] ∧ State.reset.part.board.held = [] ∧ State.reset.part.board.completions = [] ∧
  State.reset.part.jw.pages = [] ∧ State.reset.part.port = {}

/-! ## The Window Port -/

/-- R174: QUEUE_ROOM performs the access at the front. A write lands in exactly its bytes, a read changes nothing, and the place that frees goes to the
block that began to wait first. A completion that its block hands on behind the access for which it waited is taken only now, and the work that stood behind
the wait is done where no block waits any more (A8). -/
def Obligations.FrontAccessIsPerformed : Prop :=
  ∀ (s : State) (a : Access) (rest : List Access), s.MemoryCanonical → s.Settled → s.part.port.fifo = a :: rest →
    ∃ t : State, exec .queueRoom s = .next t ∧
      (∀ (w : Nat) (b : List Byte) (r : ReportTag), a = .write w b r →
        (∀ i : Nat, i < b.length → t.mem.readByte (w + i) = byteAt b i) ∧
        (∀ x : Nat, x < w ∨ w + b.length ≤ x → t.mem.readByte x = s.mem.readByte x)) ∧
      (a.isRead = true → t.mem = s.mem) ∧
      (s.part.port.waiting = [] →
        t = { s with
              mem := t.mem
              part := { s.part with port :=
                { s.part.port with
                  fifo := rest
                  reports := s.part.port.reports ++ if a.reported = true then [a] else [] } } }) ∧
      (∀ (e : WaitEntry) (more : List WaitEntry) (x : Access) (items : List Item), s.part.port.waiting = e :: more →
        e.items = .access x :: items → x.isRead = a.isRead → s.PortBounded → rest ++ [x] <+: t.part.port.fifo) ∧
      (∀ (e : WaitEntry) (x : Access) (seq : Nat) (r : Result) (h : HeldRequest), s.part.port.waiting = [e] →
        e.items = [.access x, .hand (.complete seq r)] → x.isRead = a.isRead → s.PortBounded → s.part.heldOf seq = some h →
        s.part.board.completions ++ [{ slot := h.slot, unmatched := h.unmatched, result := r, time := s.part.run.clock }] <+:
          t.part.board.completions ∧ ∀ y ∈ t.part.board.held, y.seq ≠ seq) ∧
      (∀ (e : WaitEntry) (x : Access) (w : Work) (more : List Work), s.part.port.waiting = [e] → e.items = [.access x] → x.isRead = a.isRead →
        s.PortBounded → s.part.port.later = w :: more →
        t.part = (Part.doNext w more { s.part with port :=
          { fifo := rest ++ [x], waiting := [], later := w :: more
            reports := s.part.port.reports ++ if a.reported = true then [a] else [] } }).settle)

/-! ## Control, start-up, drain and rest -/

/-- R168: which CONTROL commands are refused, what a refusal changes, that an accepted command clears REFUSED, and the two orders of a HALT and a bus error.
It holds for every number of accesses performed before the HALT, the RESET or the error (the operand of A5). -/
def Obligations.ControlCommandsAreAcceptedOrRefused : Prop :=
  ∀ s : State,
    (s.part.run.partState = .starting ∨ s.part.run.partState = .running ∨ s.part.run.partState = .draining →
      exec .start s = .next { s with part := { s.part with run := { s.part.run with refused := true } } }) ∧
    (s.part.run.partState = .idle ∨ s.part.run.partState = .stopped ∨ s.part.run.partState = .halted →
      ∃ t, exec .start s = .next t ∧ t.part.run.refused = false ∧ (t.part.run.partState = .starting ∨ t.part.run.partState = .halted)) ∧
    (s.part.run.partState ≠ .running →
      exec .stop s = .next { s with part := { s.part with run := { s.part.run with refused := true } } }) ∧
    (s.part.run.partState = .running →
      ∃ t, exec .stop s = .next t ∧ t.part.run.refused = false ∧ t.part.run.partState = .draining) ∧
    (∀ k : Nat, s.part.run.partState = .idle ∨ s.part.run.partState = .stopped ∨ s.part.run.partState = .halted →
      exec (.halt k) s = .next { s with part := { s.part with run := { s.part.run with refused := true } } }) ∧
    (∀ k : Nat, s.part.run.partState = .starting ∨ s.part.run.partState = .running ∨ s.part.run.partState = .draining →
      ∃ t, exec (.halt k) s = .next t ∧ t.part.run.refused = false ∧ t.part.run.partState = .halted ∧ t.part.run.haltCause = .hostHalt ∧
        ∀ j : Nat, exec (.busError j) t = .next t) ∧
    (∀ k j : Nat, s.part.run.partState = .starting ∨ s.part.run.partState = .running ∨ s.part.run.partState = .draining →
      (s.perform k).part.port.fifo ≠ [] →
      ∃ t, exec (.busError k) s = .next t ∧ t.part.run.partState = .halted ∧ t.part.run.haltCause = .busError ∧
        exec (.halt j) t = .next { t with part := { t.part with run := { t.part.run with refused := true } } }) ∧
    (∀ k : Nat, ∃ t, exec (.reset k) s = .next t ∧ t.part.run.refused = false ∧ t.part.run.partState = .idle) ∧
    (∀ v : Word, v.toNat % 256 ≠ 1 ∧ v.toNat % 256 ≠ 2 ∧ v.toNat % 256 ≠ 3 ∧ v.toNat % 256 ≠ 4 →
      exec (.unknownCommand v) s = .next { s with part := { s.part with run := { s.part.run with refused := true } } })

/-- R169, R170: an accepted START enters STARTING with the clock at 0, the summary and the bank state cleared and WINBASE captured, and reads the header;
an invalid base halts the part at once. -/
def Obligations.StartEntersStartingOrHalts : Prop :=
  ∀ s : State, s.part.run.partState = .idle ∨ s.part.run.partState = .stopped ∨ s.part.run.partState = .halted → s.part.port = {} →
    (s.part.run.winbase.toNat ≤ 0x0FFFFFFA →
      exec .start s = .next { s with part := { s.part with
        run := { s.part.run with partState := .starting, haltCause := .noCause, refused := false, lineFault := false, clock := 0
                                 window := some s.part.run.winbase, startPhase := .header }
        svc := { s.part.svc with summary := 0, activeBank := .bank0, swapCount := 0, bankQueue := [] }
        port := { fifo := [.read .header (s.part.run.winbase.toNat * 4096) 64] } } }) ∧
    (0x0FFFFFFA < s.part.run.winbase.toNat →
      exec .start s = .next { s with part :=
        { run := { partState := .halted, haltCause := .windowInvalid, winbase := s.part.run.winbase, abandoned := s.part.run.abandoned }
          svc := { summary := 0b10000, enables := s.part.svc.enables } } })

/-- R172, R124: a STOP accepted while a transaction, a SYNC, an ABORT or a DISMISS holds the drain open enters DRAINING, starts the drain timer and ends
sweeping; a take in the making is the last (A17). -/
def Obligations.StopEntersDraining : Prop :=
  ∀ s : State, s.part.run.partState = .running → s.part.board.finishes = [] → s.PortFree →
    (s.part.te.pool ≠ [] ∨ s.part.te.syncs ≠ [] ∨ s.part.te.aborts ≠ [] ∨ s.part.um.dismissWait ≠ none) →
    ∃ phase : SweepPhase,
      exec .stop s = .next { s with part := { s.part with
        run := { s.part.run with partState := .draining, refused := false, drainEnded := false
                                 drainTimer := some (s.part.run.clock + wordOf (100 * s.part.run.drainLimit)) }
        board := { s.part.board with sweepAgain := false, sweepTimer := none, sweep := phase } } } ∧
      (∀ n rest last, s.part.board.sweep = .taking (n :: rest) last → phase = .taking [n] last) ∧
      ((∀ n rest last, s.part.board.sweep ≠ .taking (n :: rest) last) → phase = .noSweep)

/-- R172, R173, R107, R125, R162: the drain ends at the STOP that finds nothing left to wait for, when its timer expires, or with the step that leaves nothing
to wait for (A15): SYNCs, DISMISSes, lent pages, requests held for a predecessor and transactions that are not SENDING are gone, the choice is lost, and no
reservation or acknowledgement stays. Each of them completes STOPPED, a SYNC with its counts, a transaction with an origin with its token, send count and
Deferred flag (A38), a DISMISS at the notice (A34); those of the board come first, then the SYNCs in take order (A47), the transactions, the DISMISS (A16),
before anything that these finishes bring about. The open page completes OK, or STOPPED without a record, its head written; the other pages complete STOPPED
in lending order, the withdrawn ones ABORTED. Where there is room, and no other completion is on its way or due before it, the head is written first and the
writes of the open page's completion follow it at once. A take in the making goes on (A17). -/
def Obligations.DrainEndsAtOnceOrAtItsTimer : Prop :=
  (∀ (s : State) (c : Instr) (results : List (Nat × Result)), s.part.board.finishes = [] → s.PortFree →
    (c = .stop ∧ s.part.run.partState = .running ∧ s.part.te.pool = [] ∧ s.part.te.syncs = [] ∧ s.part.te.aborts = [] ∧
        s.part.um.dismissWait = none ∨
      c = .drainTimer ∧ s.part.run.partState = .draining ∧ s.part.run.drainEnded = false ∧
        ∃ d, s.part.run.drainTimer = some d ∧ reached s.part.run.clock d = true) →
    results =
      ((s.part.board.held.filter fun h => h.owner == .boardController).map fun h => (h.seq, { outcome := .stopped })) ++
      (s.part.te.syncs.map fun y => (y.seq, { outcome := .stopped, fields := [byteOf y.captured, byteOf y.finished, byteOf y.failed] })) ++
      ((s.part.te.pool.filter fun x => x.state != .sending && x.origin.isSome).map fun x => (x.seq, x.result { outcome := .stopped })) ++
      (s.part.um.dismissWait.toList.map fun d => (d.seq, { outcome := .stopped, fields := [byteOf d.retired, byteOf d.ended] })) →
    ∃ t : State, exec c s = .next t ∧ t.pending = s.pending ∧ t.mem = s.mem ∧
      t.part.run = { s.part.run with partState := .draining, drainEnded := true, drainTimer := none
                                     refused := if c = .stop then false else s.part.run.refused } ∧
      t.part.line = { s.part.line with choice := none } ∧ t.part.dir = s.part.dir ∧
      t.part.te.syncs = [] ∧ t.part.te.aborts = s.part.te.aborts ∧ (∀ x ∈ t.part.te.pool, x.state = .sending) ∧
      (s.Distinct → s.NoneWaits → t.part.te.pool = s.part.te.pool.filter fun x => x.state == .sending) ∧
      t.part.um.dismissWait = none ∧ t.part.jw.pages = [] ∧ t.part.jw.opened = none ∧ t.part.jw.drained = true ∧
      (∀ h ∈ t.part.board.held, h.owner ≠ .boardController) ∧ (t.part.port.waiting = [] → t.part.board.finishes = []) ∧
      t.part.board.sweep = (if c = .stop then s.part.board.sweep.stop else s.part.board.sweep) ∧
      (∀ a : Nat, 1 ≤ a ∧ a ≤ 30 →
        t.part.unitSlot a = { s.part.unitSlot a with place := (s.part.unitAt a).map fun u => { u with reservations := [], pendingAck := none } }) ∧
      (∀ h : HeldRequest, s.part.heldOf h.seq = some h → h.owner = .boardController → s.Completes t h.seq { outcome := .stopped }) ∧
      (∀ d : WaitingDismiss, s.part.um.dismissWait = some d → (∀ h ∈ s.part.board.held, h.owner = .boardController → h.seq ≠ d.seq) →
        (∀ x ∈ s.part.te.pool, x.seq ≠ d.seq) → (∀ y ∈ s.part.te.syncs, y.seq ≠ d.seq) →
        s.Completes t d.seq { outcome := .stopped, fields := [byteOf d.retired, byteOf d.ended] }) ∧
      (∀ x ∈ s.part.te.pool, x.state ≠ .sending → x.origin = none → s.FailsLate t x .stopped []) ∧
      ((results.map (·.1)).Nodup →
        s.part.board.completions ++ results.filterMap (fun r => (s.part.heldOf r.1).map fun h =>
          { slot := h.slot, unmatched := h.unmatched, result := r.2, time := s.part.run.clock }) <+: t.part.board.completions) ∧
      (∀ (g : Page) (rest : List Page) (o : OpenPage), s.part.jw.pages = g :: rest → s.part.jw.opened = some o →
        Access.write g.addr.toNat o.head .silent ∈ t.part.port.outstanding) ∧
      (∀ (g : Page) (rest : List Page) (o : OpenPage) (r : Result), s.part.jw.pages = g :: rest → s.part.jw.opened = some o → s.NoneWaits → s.PortRoom 3 0 →
        (∀ x ∈ s.part.te.pool, x.state ≠ .sending → x.origin.isSome = true) → (results.map (·.1) ++ (g :: rest).map (·.seq)).Nodup →
        r = { outcome := if o.count = 0 then .stopped else .ok
              fields := le32 o.pageSeq ++ leBytes 2 o.count ++ leBytes 2 o.used ++ le16 (o.gap.getD 0) } →
        t.part.board.completions = s.part.board.completions ++
          (results ++ (g.seq, r) :: rest.map fun g' => (g'.seq, { outcome := if g'.withdrawn = true then .aborted else .stopped })).filterMap (fun r =>
            (s.part.heldOf r.1).map fun h => { slot := h.slot, unmatched := h.unmatched, result := r.2, time := s.part.run.clock }) ∧
        (∀ h : HeldRequest, s.part.board.completions = [] → (∀ y ∈ results, s.part.heldOf y.1 = none) → s.part.heldOf g.seq = some h →
          s.part.port.fifo ++ .write g.addr.toNat o.head .silent ::
            completionWrites s.part.base h.slot r h.unmatched s.part.run.clock (.done h.slot) <+: t.part.port.fifo))) ∧
  (∀ p : Part, p.board.finishes = [] → p.port.waiting = [] → p.port.later = [] →
    (¬ (p.run.partState = .draining ∧ p.run.drainEnded = false ∧ p.te.pool = [] ∧ p.te.syncs = [] ∧ p.te.aborts = [] ∧ p.um.dismissWait = none) →
      p.closeDrain = p) ∧
    (p.run.partState = .draining → p.run.drainEnded = false → p.te.pool = [] → p.te.syncs = [] → p.te.aborts = [] → p.um.dismissWait = none →
      p.closeDrain.run = { p.run with drainEnded := true, drainTimer := none } ∧ p.closeDrain.line = { p.line with choice := none } ∧
      p.closeDrain.dir = p.dir ∧ p.closeDrain.te = p.te ∧ p.closeDrain.um.dismissWait = none ∧
      p.closeDrain.jw = { p.jw with pages := [], opened := none, drained := true } ∧
      (∀ a : Nat, 1 ≤ a ∧ a ≤ 30 →
        p.closeDrain.unitSlot a = { p.unitSlot a with place := (p.unitAt a).map fun u => { u with reservations := [], pendingAck := none } }) ∧
      (∀ h ∈ p.closeDrain.board.held, h.owner ≠ .boardController) ∧ (p.closeDrain.port.waiting = [] → p.closeDrain.board.finishes = []) ∧
      (((p.board.held.filter fun h => h.owner == .boardController).map (·.seq)).Nodup →
        p.board.completions ++ (p.board.held.filter fun h => h.owner == .boardController).filterMap (fun h => (p.heldOf h.seq).map fun h' =>
          { slot := h'.slot, unmatched := h'.unmatched, result := { outcome := .stopped }, time := p.run.clock }) <+: p.closeDrain.board.completions)))

/-- R175 to R177: a HALT, and a bus error on the access after the first `k` performed ones (A5), empty every block, count the ACCEPTED transactions into
ABANDONED and hand on STATE; a bus error that finds no window held is ignored. -/
def Obligations.HaltsAndBusErrorsEmptyThePart : Prop :=
  ∀ (s : State) (k : Nat),
    (s.part.run.partState = .starting ∨ s.part.run.partState = .running ∨ s.part.run.partState = .draining →
      exec (.halt k) s = .next { s with
        mem := (s.perform k).mem
        part :=
          { run := { partState := .halted, haltCause := .hostHalt, clock := s.part.run.clock, winbase := s.part.run.winbase
                     abandoned := (s.part.te.pool.filter fun x => x.origin.isNone).length }
            svc := { summary := s.part.svc.summary ||| 0b10000, enables := s.part.svc.enables, swapCount := s.part.svc.swapCount } } }) ∧
    (s.part.run.partState = .starting ∨ s.part.run.partState = .running ∨ s.part.run.partState = .draining ∨ s.part.run.partState = .stopped →
      (s.perform k).part.port.fifo ≠ [] →
      exec (.busError k) s = .next { s with
        mem := (s.perform k).mem
        part :=
          { run := { partState := .halted, haltCause := .busError, refused := s.part.run.refused, clock := s.part.run.clock
                     winbase := s.part.run.winbase
                     abandoned := if s.part.run.partState = .stopped then s.part.run.abandoned
                       else (s.part.te.pool.filter fun x => x.origin.isNone).length }
            svc := { summary := s.part.svc.summary ||| 0b10000, enables := s.part.svc.enables, swapCount := s.part.svc.swapCount } } }) ∧
    (s.part.run.partState = .idle ∨ s.part.run.partState = .halted → exec (.busError k) s = .next s)

/-- R178, R179: a soft reset keeps ABANDONED, or sets it where it stops a run; a pin reset clears it; every other register and block is at its reset value. -/
def Obligations.ResetsReturnThePartToIdle : Prop :=
  ∀ (s : State) (k : Nat),
    exec (.reset k) s = .next { s with
      mem := (s.perform k).mem
      part := { run := { abandoned :=
        if s.part.run.partState = .starting ∨ s.part.run.partState = .running ∨ s.part.run.partState = .draining
        then (s.part.te.pool.filter fun x => x.origin.isNone).length else s.part.run.abandoned } } } ∧
    exec (.pinReset k) s = .next { s with mem := (s.perform k).mem, part := {} }

/-- R165, R168, R182, R184: WINBASE and SVCEN take the value written, whatever the part state; a write to a register the host may not write changes nothing;
bits 7 to 0 of a value written to CONTROL, and the register's offset, pick the command that the write is. R165, R166, R184: what each of the nine registers
reads in any state; another offset reads 0, the model's choice A50. -/
def Obligations.RegisterWritesTakeEffect : Prop :=
  ∀ (s : State) (v : Word),
    exec (.winbase v) s = .next { s with part := { s.part with run := { s.part.run with winbase := v.setWidth 28 } } } ∧
    exec (.svcen v) s = .next { s with part := { s.part with svc := { s.part.svc with enables := v.setWidth 5 } } } ∧
    (∀ o : Nat, exec (.registerWrite o v) s = .next s) ∧
    (∀ k : Nat,
      (v.toNat % 256 = 1 → registerCommand 0x04 v k = some .start) ∧ (v.toNat % 256 = 2 → registerCommand 0x04 v k = some .stop) ∧
      (v.toNat % 256 = 3 → registerCommand 0x04 v k = some (.halt k)) ∧ (v.toNat % 256 = 4 → registerCommand 0x04 v k = some (.reset k)) ∧
      (v.toNat % 256 = 0 ∨ 4 < v.toNat % 256 → registerCommand 0x04 v k = some (.unknownCommand v)) ∧
      registerCommand 0x0C v k = some (.winbase v) ∧ registerCommand 0x10 v k = some (.nudge v) ∧ registerCommand 0x14 v k = some (.svcpend v) ∧
      registerCommand 0x18 v k = some (.svcen v) ∧
      ∀ o : Nat, o = 0x00 ∨ o = 0x08 ∨ o = 0x1C ∨ o = 0x20 → registerCommand o v k = some (.registerWrite o v)) ∧
    s.part.readRegister 0x00 = 0x24300101 ∧ s.part.readRegister 0x04 = 0 ∧ s.part.readRegister 0x10 = 0 ∧
    (∀ state cause : Nat,
      (s.part.run.partState, state) ∈ [(PartState.idle, 0), (.starting, 1), (.running, 2), (.draining, 3), (.stopped, 4), (.halted, 5)] →
      (s.part.run.haltCause, cause) ∈ [(HaltCause.noCause, 0), (.hostHalt, 1), (.busError, 2), (.windowInvalid, 3)] →
      (s.part.readRegister 0x08).toNat =
        state + 2 ^ 4 * cause + (if s.part.run.refused = true then 2 ^ 8 else 0) + if s.part.run.lineFault = true then 2 ^ 9 else 0) ∧
    (s.part.readRegister 0x0C).toNat = s.part.run.winbase.toNat ∧
    (s.part.readRegister 0x14).toNat = 2 ^ 16 * s.part.svc.swapCount.toNat + s.part.svc.summary.toNat ∧
    (s.part.readRegister 0x18).toNat = s.part.svc.enables.toNat ∧
    (s.part.run.abandoned < 2 ^ 32 → (s.part.readRegister 0x1C).toNat = s.part.run.abandoned) ∧ s.part.readRegister 0x20 = s.part.run.clock ∧
    ∀ o : Nat, o ∉ [0x00, 0x04, 0x08, 0x0C, 0x10, 0x14, 0x18, 0x1C, 0x20] → s.part.readRegister o = 0

/-- R181, R182, R154: an acknowledgement clears the bits written 1 and keeps the others, takes a swap of the change banks when it names DIRECTORY or UNIT and
a window is held. SVCREQ is active exactly while some bit is both set and enabled. A write to SVCEN is taken in any state and acts on SVCREQ with the write;
SVCPEND shows every set bit, enabled or not. After either reset the summary and SVCEN are clear and SVCREQ is inactive. At the take of a START the summary is
clear, SVCREQ is inactive and SVCEN is kept; where the base is invalid the halt in the same row then hands on STATE. -/
def Obligations.AcknowledgementsClearTheSummary : Prop :=
  ∀ (s : State) (v : Word),
    exec (.svcpend v) s = .next { s with part := { s.part with svc :=
      if (v.getLsbD 1 = true ∨ v.getLsbD 2 = true) ∧ s.part.run.partState ≠ .idle ∧ s.part.run.partState ≠ .halted then
        { s.part.svc with
          summary := s.part.svc.summary &&& ~~~(v.setWidth 5), swapCount := s.part.svc.swapCount + 1
          activeBank := if s.part.svc.activeBank = .bank0 then .bank1 else .bank0
          bankQueue := s.part.svc.bankQueue ++ [.swap (s.part.svc.swapCount + 1) s.part.svc.activeBank] }
      else { s.part.svc with summary := s.part.svc.summary &&& ~~~(v.setWidth 5) } } } ∧
    (s.svcreqn = false ↔ ∃ i : Nat, i < 5 ∧ s.part.svc.summary.getLsbD i = true ∧ s.part.svc.enables.getLsbD i = true) ∧
    (∃ t : State, exec (.svcen v) s = .next t ∧ t.part.svc = { s.part.svc with enables := v.setWidth 5 } ∧
      (t.svcreqn = false ↔ ∃ i : Nat, i < 5 ∧ s.part.svc.summary.getLsbD i = true ∧ v.getLsbD i = true)) ∧
    (∀ i : Nat, i < 5 → (s.part.readRegister 0x14).getLsbD i = s.part.svc.summary.getLsbD i) ∧
    (∀ k : Nat, ∃ t : State, exec (.reset k) s = .next t ∧ t.part.svc.summary = 0 ∧ t.part.svc.enables = 0 ∧ t.svcreqn = true) ∧
    (∀ k : Nat, ∃ t : State, exec (.pinReset k) s = .next t ∧ t.part.svc.summary = 0 ∧ t.part.svc.enables = 0 ∧ t.svcreqn = true) ∧
    (s.part.run.partState = .idle ∨ s.part.run.partState = .stopped ∨ s.part.run.partState = .halted →
      ∃ t : State, exec .start s = .next t ∧ t.part.svc.enables = s.part.svc.enables ∧
        (s.part.run.winbase.toNat ≤ 0x0FFFFFFA → t.part.svc.summary = 0 ∧ t.svcreqn = true) ∧
        (0x0FFFFFFA < s.part.run.winbase.toNat → t.part.svc.summary = 0b10000))

/-- R112: a NUDGE in RUNNING, or the expiry of the sweep timer, starts a sweep; during a sweep a NUDGE sets the sweep-again flag; outside RUNNING it is
discarded. That the state bytes are one read is the model's choice A7, and when the timer is past its expiry A10. -/
def Obligations.SweepsStartAtNudgeOrTimer : Prop :=
  ∀ (s : State) (v : Word),
    (s.part.run.partState ≠ .running → exec (.nudge v) s = .next s) ∧
    (s.part.run.partState = .running → s.part.board.sweep ≠ .noSweep → s.PortFree →
      exec (.nudge v) s = .next { s with part := { s.part with board := { s.part.board with sweepAgain := true } } }) ∧
    (∀ c : Instr, s.part.run.partState = .running → s.part.board.sweep = .noSweep → s.PortRoom 0 1 →
      (c = .nudge v ∨ c = .sweepTimer ∧ ∃ d, s.part.board.sweepTimer = some d ∧ reached s.part.run.clock d = true) →
      exec c s = .next { s with part := { s.part with
        board := { s.part.board with sweep := .reading, sweepTimer := none }
        port := { s.part.port with fifo := s.part.port.fifo ++ [.read .sweepStates (stateByteAddr s.part.base 0) 64] } } })

/-- R170, R171, R186: the header has been read in STARTING. What the checks of R170 ask of its 64 bytes; a header that passes them gives the captured values,
empty tables and the initialisation writes with the reading of the state bytes behind them; any other halts the part with cause WINDOW_INVALID. How the
initialisation is cut into accesses, and that the state bytes are one read, is the model's choice A7; the order of the writes A26. -/
def Obligations.HeaderIsCheckedAtStart : Prop :=
  ∀ (s : State) (bytes : List Byte), s.part.run.partState = .starting → s.part.run.startPhase = .header →
    s.OnlyAccess (.read .header s.part.base 64) →
    (Header.valid bytes = true ↔
      bytes.length = 64 ∧ leAt bytes 0x00 4 = 0x43465631 ∧ natAt bytes 0x04 = 1 ∧ natAt bytes 0x05 ≤ 2 ∧ natAt bytes 0x06 ≤ 250 ∧ natAt bytes 0x07 ≠ 0 ∧
      natAt bytes 0x08 ≠ 0 ∧ natAt bytes 0x09 ≤ 1 ∧ natAt bytes 0x0A ≤ 1 ∧ natAt bytes 0x0B ≤ 1 ∧ natAt bytes 0x0C ≤ 1 ∧ natAt bytes 0x0D ≤ 2 ∧
      natAt bytes 0x0E ≤ 1 ∧ natAt bytes 0x0F = 0 ∧ ∀ i : Nat, 0x14 ≤ i → i < 0x40 → natAt bytes i = 0) ∧
    (Header.valid bytes = true → ∀ q : Policies, q = Header.defaults bytes →
      q.maxInterval = halfAt bytes 0x10 ∧ q.minInterval = halfAt bytes 0x12 ∧ (q.early = .drop ↔ natAt bytes 0x0A = 1) ∧
      (q.stale = .dropContent ↔ natAt bytes 0x0B = 1) ∧ (q.change = .clear ↔ natAt bytes 0x0C = 1) ∧ (q.notify = .all ↔ natAt bytes 0x0D = 0) ∧
      (q.notify = .change ↔ natAt bytes 0x0D = 1) ∧ (q.journal = true ↔ natAt bytes 0x0E = 1)) ∧
    (Header.valid bytes = true →
      ∃ w : WindowPort,
        exec (.headerChecks bytes) s = .next { s with part :=
          { run := { s.part.run with startPhase := .boardRead, drainLimit := natAt bytes 8 }
            svc := { s.part.svc with nextFault := 1, ringIndex := 0, journalLosses := 0, unadmitted := 0 }
            board := { interval := natAt bytes 6 }
            te := {}
            line := { rate := natAt bytes 5, discovery := natAt bytes 7, position := 0, mark := .command }
            um := {}
            dir := { autoAdmission := natAt bytes 9 == 1, defaults := Header.defaults bytes }
            jw := {}
            port := w } } ∧
        w.outstanding = windowInit s.part.base ++ [.read .startStates (stateByteAddr s.part.base 0) 64] ∧ w.Bounded) ∧
    (Header.valid bytes = false →
      exec (.headerChecks bytes) s = .next { s with part :=
        { run := { partState := .halted, haltCause := .windowInvalid, refused := s.part.run.refused, clock := s.part.run.clock
                   winbase := s.part.run.winbase, abandoned := s.part.run.abandoned }
          svc := { summary := s.part.svc.summary ||| 0b10000, enables := s.part.svc.enables, swapCount := s.part.svc.swapCount } } })

/-- R127, R171: at start every slot found TAKEN is completed RESTARTED, in ascending order; when every write has been performed the part enters RUNNING and
a sweep starts. BOARD follows the last DONE write only, the model's choice A31; that the state bytes are one read is A7, that what is outstanding is
performed at the entry A33. -/
def Obligations.StartRestartsTakenSlotsThenRuns : Prop :=
  ∀ s : State, s.part.run.partState = .starting → s.part.board.finishes = [] →
    (∀ states : List Byte, s.part.run.startPhase = .boardRead → s.OnlyAccess (.read .startStates (stateByteAddr s.part.base 0) 64) →
      ∃ w : WindowPort,
        exec (.restarted states) s = .next { s with part := { s.part with run := { s.part.run with startPhase := .writes }, port := w } } ∧
        w.Bounded ∧
        w.outstanding = (((List.range 64).filter fun n => states.getD n 0 == 2).flatMap fun n =>
          completionWrites s.part.base n { outcome := .restarted } false s.part.run.clock
            (if ((List.range 64).filter fun n => states.getD n 0 == 2).getLast? = some n then .done n else .silent))) ∧
    (s.part.run.startPhase = .writes → s.PortFree → s.part.port.reports = [] → (∀ a ∈ s.part.port.fifo, a.reported = false) →
      exec .entryIntoRunning s = .next { s with
        mem := s.part.port.fifo.foldl Access.land s.mem
        part := { s.part with
          run := { s.part.run with partState := .running, startPhase := .notStarting }
          board := { s.part.board with sweep := .reading, sweepTimer := none }
          port := { fifo := [.read .sweepStates (stateByteAddr s.part.base 0) 64] } } })

/-- R173: with the drain ended, the line quiet, the pool empty, no ABORT waiting and every write and completion performed, the part enters STOPPED: the
timers stop and STATE is handed on. -/
def Obligations.StoppedIsEnteredAtRest : Prop :=
  ∀ s : State, s.part.run.partState = .draining → s.part.run.drainEnded = true → s.part.line.turn = none → s.part.line.choice = none →
    s.part.te = {} → s.part.board.finishes = [] → s.part.board.completions = [] → s.part.svc.bankQueue = [] → s.PortFree → s.part.port.reports = [] →
    (∀ a ∈ s.part.port.fifo, a.reported = false) →
    ∃ t : State, exec .entryIntoStopped s = .next t ∧ t.pending = s.pending ∧ t.mem = s.part.port.fifo.foldl Access.land s.mem ∧
      t.part.run = { s.part.run with partState := .stopped, drainTimer := none, drainEnded := false } ∧ t.part.port = {} ∧
      t.part.svc = { s.part.svc with summary := s.part.svc.summary ||| 0b10000 } ∧
      t.part.board = { s.part.board with sweepTimer := none } ∧ t.part.te = s.part.te ∧ t.part.line = s.part.line ∧ t.part.jw = s.part.jw ∧
      t.part.um.dismissWait = s.part.um.dismissWait ∧
      (∀ a : Nat, t.part.unitSlot a = { s.part.unitSlot a with place := (s.part.unitAt a).map fun u => { u with settle := none } }) ∧
      (∀ n : Nat, t.part.entrySlot n = { s.part.entrySlot n with entry := (s.part.entryAt n).map fun e => { e with staleTimer := none } })

/-- R122, R153, R163: the DONE write of a slot hands on BOARD, and the completion behind it is written (A41); a bank map write hands on DIRECTORY or UNIT, the
write of the newest fault sequence FAULT, each once it is performed. -/
def Obligations.PerformedWritesSetSummaryBits : Prop :=
  ∀ (s : State) (addr : Nat) (bytes : List Byte) (rest : List Access), s.Settled →
    (∀ n : Nat, s.part.port = { fifo := .write addr bytes (.done n) :: rest } → rest.length ≤ 30 →
      exec (.doneWritePerformed n) s = .next { s with
        mem := s.mem.writeBytes addr bytes
        part := { s.part with
          board := { s.part.board with completions := s.part.board.completions.drop 1 }
          port := { fifo := rest ++ (match s.part.board.completions.drop 1 with
            | x :: _ => completionWrites s.part.base x.slot x.result x.unmatched x.time (.done x.slot)
            | [] => []) }
          svc := { s.part.svc with summary := s.part.svc.summary ||| 0b00001 } } }) ∧
    (∀ (c : Instr) (tag : ReportTag) (bit : BitVec 5),
      (c = .bankBitWritten ∧ tag = .bankBit .directory ∧ bit = 0b00010) ∨ (c = .bankBitWritten ∧ tag = .bankBit .unit ∧ bit = 0b00100) ∨
        (c = .faultRecordWritten ∧ tag = .newestFault ∧ bit = 0b01000) →
      s.part.port = { fifo := .write addr bytes tag :: rest } →
      exec c s = .next { s with
        mem := s.mem.writeBytes addr bytes
        part := { s.part with port := { fifo := rest }, svc := { s.part.svc with summary := s.part.svc.summary ||| bit } } })

/-- R153, R154: the item at the front of the bank queue. An update writes the map word read, with its bit set; a swap zeroes both maps of the bank that
becomes active word by word and writes the bank word (R187); then the next item's read is raised. -/
def Obligations.BankQueueIsServedInOrder : Prop :=
  ∀ (s : State) (q : List BankItem), s.Settled →
    (∀ (b : BankId) (m : MapKind) (i : Nat), s.part.svc.bankQueue = .update b m i :: q →
      s.OnlyAccess (.read .bankWord (mapWordAddr s.part.base b m i) 4) →
      exec .bankUpdate s = .next { s with part := { s.part with
        svc := { s.part.svc with bankQueue := q }
        port := {
          fifo := .write (mapWordAddr s.part.base b m i)
              (le32 (wordOf (ofLeBytes (s.mem.readBytes (mapWordAddr s.part.base b m i) 4)) ||| 1 <<< (i % 32))) (.bankBit m) ::
            (match q with
              | .update b' m' i' :: _ => [.read .bankWord (mapWordAddr s.part.base b' m' i') 4]
              | _ => []) } } }) ∧
    (∀ (count : Half) (frozen : BankId), s.part.svc.bankQueue = .swap count frozen :: q → s.part.run.partState ≠ .idle →
      s.part.run.partState ≠ .halted → s.part.run.startPhase ≠ .header → s.PortRoom 8 1 →
      exec .bankUpdate s = .next { s with part := { s.part with
        svc := { s.part.svc with bankQueue := q }
        port := { s.part.port with
          fifo := s.part.port.fifo ++
          ((List.range 7).map fun i => .write (bankAddr s.part.base frozen.other + 4 * i) (List.replicate 4 0) .silent) ++
          [.write (s.part.base + 0x50) (le16 count ++ [byteOf frozen.index, 0]) .silent] ++
          (match q with
            | .update b' m' i' :: _ => [.read .bankWord (mapWordAddr s.part.base b' m' i') 4]
            | _ => []) } } })

/-! ## Requests that complete within their take -/

/-- ENROLL of an empty place (R42, R26, R46): the new unit, its mirror and bank bit, and the completion CREATED. -/
def Obligations.EnrollFillsAnEmptyPlace : Prop :=
  ∀ (s : State) (n : Nat) (slot : List Byte), s.TakesSlot n slot .enroll → s.Accepts slot → s.NoPredecessor (slot.take 64) →
    s.part.unitAt (Req.unit (slot.take 64)) = none →
    ∃ (t : State) (u : FieldUnit), exec (.enroll slot) s = .next t ∧ s.CompletedTake t n slot { outcome := .ok, fields := [1, u.gate.code] } ∧
      t.part.unitAt (Req.unit (slot.take 64)) = some u ∧
      s.OtherUnits t (Req.unit (slot.take 64)) ∧
      u.params = Req.unitParams (slot.take 64) ∧ u.link = .seeking ∧ u.streak = 0 ∧ u.missed = 0 ∧ u.cleanRun = 0 ∧
      u.generation = none ∧ u.unitClass = 0 ∧ u.deferDepth = 0 ∧ u.lastAccepted = none ∧ u.pendingAck = none ∧ u.reservations = [] ∧
      u.turns = 0 ∧ u.cleanTurns = 0 ∧ u.erroredTurns = 0 ∧ u.noAnswers = 0 ∧ u.unadmitted = 0 ∧ u.settle = none ∧
      u.rollDue = some s.part.run.clock ∧ u.pollDue = none ∧
      u.factors = { line := s.part.line.fault.isSome } ∧
      u.gate = (if s.part.line.fault.isSome && u.params.holdMask.line then .held else .opened) ∧
      t.part.te = s.part.te ∧ t.part.line = s.part.line ∧ t.part.dir = s.part.dir ∧ t.part.jw = s.part.jw ∧
      t.part.um.dismissWait = s.part.um.dismissWait ∧
      t.part.svc = { s.part.svc with bankQueue := s.part.svc.bankQueue ++ [.update s.part.svc.activeBank .unit (Req.unit (slot.take 64))] } ∧
      (t.part.unitSlot (Req.unit (slot.take 64))).version = (s.part.unitSlot (Req.unit (slot.take 64))).version + 2 ∧
      mirrorWrites (unitMirrorAddr s.part.base (Req.unit (slot.take 64))) (s.part.unitSlot (Req.unit (slot.take 64))).version (unitBody (some u)) ++
        s.part.bankBitRead .unit (Req.unit (slot.take 64)) ++ s.completionOf n slot { outcome := .ok, fields := [1, u.gate.code] }
        <+: t.part.port.fifo

/-- ENROLL of an enrolled unit (R43, R54): the parameters are replaced, the gate is re-judged, everything else is kept. R76: a changed poll interval counts
from the start of the last poll turn, where the unit has had one since it entered ONLINE by a roll call (A54). -/
def Obligations.EnrollReplacesTheParameters : Prop :=
  ∀ (s : State) (n : Nat) (slot : List Byte) (old : FieldUnit), s.TakesSlot n slot .enroll → s.Accepts slot → s.NoPredecessor (slot.take 64) →
    s.part.unitAt (Req.unit (slot.take 64)) = some old →
    ∃ (t : State) (u v : FieldUnit), exec (.enroll slot) s = .next t ∧ s.CompletedTake t n slot { outcome := .ok, fields := [2, u.gate.code] } ∧
      v.params = Req.unitParams (slot.take 64) ∧
      (v.params.pollInterval = old.params.pollInterval ∨ old.lastPoll = none → v = { old with params := v.params }) ∧
      (∀ start, v.params.pollInterval ≠ old.params.pollInterval → old.lastPoll = some start →
        v = { old with params := v.params, pollDue := some (start + wordOf (10 * v.params.pollInterval)), pollReady := false }) ∧
      u = v.judgeGate s.part.run.clock ∧
      t.part.unitAt (Req.unit (slot.take 64)) = some u ∧
      s.OtherUnits t (Req.unit (slot.take 64)) ∧
      t.part.te = s.part.te ∧ t.part.line = s.part.line ∧ t.part.dir = s.part.dir ∧ t.part.jw = s.part.jw ∧
      t.part.um.dismissWait = s.part.um.dismissWait ∧
      t.part.svc = { s.part.svc with bankQueue := s.part.svc.bankQueue ++
        if old.gate = u.gate ∧ old.factors = u.factors then [] else [.update s.part.svc.activeBank .unit (Req.unit (slot.take 64))] } ∧
      (t.part.unitSlot (Req.unit (slot.take 64))).version =
        (s.part.unitSlot (Req.unit (slot.take 64))).version + (if unitBody (some old) = unitBody (some u) then 0 else 2) ∧
      (if unitBody (some old) = unitBody (some u) then []
        else mirrorWrites (unitMirrorAddr s.part.base (Req.unit (slot.take 64))) (s.part.unitSlot (Req.unit (slot.take 64))).version
          (unitBody (some u))) ++
        (if old.gate = u.gate ∧ old.factors = u.factors then [] else s.part.bankBitRead .unit (Req.unit (slot.take 64))) ++
        s.completionOf n slot { outcome := .ok, fields := [2, u.gate.code] } <+: t.part.port.fifo

/-- HOLD (R53, R135): FORCED is set or released and the gate judged; where it already is so, nothing of the unit changes. -/
def Obligations.HoldSetsOrReleasesForced : Prop :=
  ∀ (s : State) (n : Nat) (slot : List Byte), s.TakesSlot n slot .hold → s.Accepts slot → s.NoPredecessor (slot.take 64) →
    ∃ (t : State) (old u : FieldUnit) (set : Bool), exec (.hold slot) s = .next t ∧
      s.CompletedTake t n slot { outcome := .ok, fields := [if old.factors.forced then 1 else 0, u.gate.code] } ∧
      (set = true ↔ Req.param (slot.take 64) 0 = 1) ∧ (set = false ↔ Req.param (slot.take 64) 0 = 2) ∧
      s.part.unitAt (Req.unit (slot.take 64)) = some old ∧ old.link ≠ .departing ∧
      (old.factors.forced = set → u = old) ∧
      (old.factors.forced ≠ set → u = FieldUnit.judgeGate s.part.run.clock { old with factors := { old.factors with forced := set } }) ∧
      t.part.unitAt (Req.unit (slot.take 64)) = some u ∧
      s.OtherUnits t (Req.unit (slot.take 64)) ∧
      t.part.te = s.part.te ∧ t.part.line = s.part.line ∧ t.part.dir = s.part.dir ∧ t.part.jw = s.part.jw ∧
      t.part.um.dismissWait = s.part.um.dismissWait ∧
      t.part.svc = { s.part.svc with bankQueue := s.part.svc.bankQueue ++
        if old.gate = u.gate ∧ old.factors = u.factors then [] else [.update s.part.svc.activeBank .unit (Req.unit (slot.take 64))] } ∧
      (t.part.unitSlot (Req.unit (slot.take 64))).version =
        (s.part.unitSlot (Req.unit (slot.take 64))).version + (if unitBody (some old) = unitBody (some u) then 0 else 2) ∧
      (if unitBody (some old) = unitBody (some u) then []
        else mirrorWrites (unitMirrorAddr s.part.base (Req.unit (slot.take 64))) (s.part.unitSlot (Req.unit (slot.take 64))).version
          (unitBody (some u))) ++
        (if old.gate = u.gate ∧ old.factors = u.factors then [] else s.part.bankBitRead .unit (Req.unit (slot.take 64))) ++
        s.completionOf n slot { outcome := .ok, fields := [if old.factors.forced then 1 else 0, u.gate.code] } <+: t.part.port.fifo

/-- DECLARE (R16, R17, R4, R13, R14): a key without an entry gets one at the lowest vacant number; an entry that exists takes the policies and intervals, its
origin becomes DECLARED, the rest is kept, and it does not notify. -/
def Obligations.DeclareCreatesOrUpdatesTheEntry : Prop :=
  ∀ (s : State) (n : Nat) (slot : List Byte), s.TakesSlot n slot .declare → s.Accepts slot → s.NoPredecessor (slot.take 64) →
    (s.part.findEntry (Req.key (slot.take 64)) = none →
      ∃ (t : State) (m : Nat) (e : Entry), exec (.declare slot) s = .next t ∧
        s.CompletedTake t n slot { outcome := .ok, fields := [byteOf m, 1, e.state.code] } ∧
        m < 192 ∧ s.part.entryAt m = none ∧ (∀ i : Nat, i < m → s.part.entryAt i ≠ none) ∧
        t.part.entryAt m = some e ∧ s.OtherEntries t m ∧
        e.key = Req.key (slot.take 64) ∧ e.origin = .declared ∧ e.state = .awaiting ∧ e.content = none ∧ e.arrivals = 0 ∧ e.chatter = 0 ∧
        e.lastArrival = none ∧ e.lastInterval = none ∧ e.firstAfterChange = false ∧ e.policies = Req.policies (slot.take 64) ∧
        e.staleTimer = (if e.policies.maxInterval = 0 then none else some s.part.run.clock) ∧
        t.part.te = s.part.te ∧ t.part.line = s.part.line ∧ t.part.um = s.part.um ∧ t.part.jw = s.part.jw ∧ s.RewritesEntry t m (some e) ∧
        t.part.svc = { s.part.svc with bankQueue := s.part.svc.bankQueue ++
          if e.policies.notify = .never then [] else [.update s.part.svc.activeBank .directory m] } ∧
        (if dirBody (s.part.entrySlot m).shownKey none = dirBody e.key (some e) then []
          else mirrorWrites (dirMirrorAddr s.part.base m) (s.part.entrySlot m).version (dirBody e.key (some e))) ++
          (if e.policies.notify = .never then [] else s.part.bankBitRead .directory m) ++
          s.completionOf n slot { outcome := .ok, fields := [byteOf m, 1, e.state.code] } <+: t.part.port.fifo) ∧
    (∀ (m : Nat) (old : Entry), s.part.findEntry (Req.key (slot.take 64)) = some m → s.part.entryAt m = some old →
      ∃ (t : State) (e : Entry), exec (.declare slot) s = .next t ∧ s.CompletedTake t n slot { outcome := .ok, fields := [byteOf m, 2, e.state.code] } ∧
        t.part.entryAt m = some e ∧ s.OtherEntries t m ∧
        e = { old with origin := .declared, policies := Req.policies (slot.take 64), staleTimer := e.staleTimer } ∧
        e.staleTimer =
          (if (Req.policies (slot.take 64)).maxInterval = old.policies.maxInterval then old.staleTimer
           else if old.state = .stale ∨ (Req.policies (slot.take 64)).maxInterval = 0 then none else some s.part.run.clock) ∧
        t.part.te = s.part.te ∧ t.part.line = s.part.line ∧ t.part.um = s.part.um ∧ t.part.jw = s.part.jw ∧ t.part.svc = s.part.svc ∧
        s.RewritesEntry t m (some e) ∧
        (if dirBody (s.part.entrySlot m).shownKey (some old) = dirBody e.key (some e) then []
          else mirrorWrites (dirMirrorAddr s.part.base m) (s.part.entrySlot m).version (dirBody e.key (some e))) ++
          s.completionOf n slot { outcome := .ok, fields := [byteOf m, 2, e.state.code] } <+: t.part.port.fifo)

/-- RETIRE (R19, R137): the entry of the key is vacant, its mirror shows VACANT with the retired key, and the arrival count is reported. -/
def Obligations.RetireVacatesTheEntry : Prop :=
  ∀ (s : State) (n : Nat) (slot : List Byte), s.TakesSlot n slot .retire → s.Accepts slot → s.NoPredecessor (slot.take 64) →
    ∃ (t : State) (m : Nat) (old : Entry), exec (.retire slot) s = .next t ∧
      s.CompletedTake t n slot { outcome := .ok, fields := [byteOf m, 0] ++ le16 old.arrivals } ∧
      s.part.entryAt m = some old ∧ old.key = Req.key (slot.take 64) ∧
      t.part.entryAt m = none ∧ s.OtherEntries t m ∧
      t.part.te = s.part.te ∧ t.part.line = s.part.line ∧ t.part.um = s.part.um ∧ t.part.jw = s.part.jw ∧ s.RewritesEntry t m none ∧
      t.part.svc = { s.part.svc with bankQueue := s.part.svc.bankQueue ++
        if old.policies.notify = .never then [] else [.update s.part.svc.activeBank .directory m] } ∧
      ((s.part.entrySlot m).shownKey = old.key →
        mirrorWrites (dirMirrorAddr s.part.base m) (s.part.entrySlot m).version (dirBody old.key none) ++
          (if old.policies.notify = .never then [] else s.part.bankBitRead .directory m) ++
          s.completionOf n slot { outcome := .ok, fields := [byteOf m, 0] ++ le16 old.arrivals } <+: t.part.port.fifo)

/-- CLEAR (R21, R138, R13, R14, R117): the selected entries are changed as the options say, every other number keeps its entry. A changed entry's mirror is
rewritten once where what it shows has changed; where its content is cleared from FRESH or STALE and its notify mode is not NONE, its bank bit is handed on.
The mirrors are rewritten in ascending entry number; that the bits are handed on in that order too is the model's choice (A55). The two counts are reported in
the completion of the slot, whose writes stand behind those of the mirrors. Where these are more than 30 they wait for room, and the completion with them; then
the take has not come to its end: the slot is not written TAKEN, its record is not held, and the sweep goes on behind it (A8). -/
def Obligations.ClearChangesTheSelectedEntries : Prop :=
  ∀ (s : State) (n : Nat) (slot : List Byte) (content : Bool) (selected notifying : List Nat) (res : Result),
    s.TakesSlot n slot .clear → s.Accepts slot → s.NoPredecessor (slot.take 64) → content = (byteOf (Req.param (slot.take 64) 0)).getLsbD 0 →
    selected = s.part.entriesWhere (clearSelects (slot.take 64)) →
    notifying = s.part.entriesWhere (fun e => content && clearSelects (slot.take 64) e && e.state != .awaiting && e.policies.notify != .never) →
    res = { outcome := .ok,
            fields := [byteOf selected.length,
              if content then byteOf (s.part.entriesWhere fun e => clearSelects (slot.take 64) e && e.state != .awaiting).length else 0] } →
    ∃ (t : State) (mirrors : List Access), exec (.clear slot) s = .next t ∧ mirrors = (selected.flatMap fun i => s.entryMirror i (t.part.entryAt i)) ∧
      t.pending = s.pending ∧ t.mem = s.mem ∧ t.part.run = s.part.run ∧
      t.part.te = s.part.te ∧ t.part.line = s.part.line ∧ t.part.um = s.part.um ∧ t.part.jw = s.part.jw ∧
      t.part.board.nextSeq = s.part.board.nextSeq + 1 ∧
      (∀ (i : Nat) (e : Entry), s.part.entryAt i = some e →
        (Req.unit (slot.take 64) = 255 ∨ Req.unit (slot.take 64) = e.key.unit) ∧ (Req.code (slot.take 64) = 255 ∨ Req.code (slot.take 64) = e.key.kind) →
        ∃ e' : Entry, t.part.entryAt i = some e' ∧
          e'.key = e.key ∧ e'.origin = e.origin ∧ e'.policies = e.policies ∧ e'.lastArrival = e.lastArrival ∧ e'.lastInterval = e.lastInterval ∧
          e'.firstAfterChange = e.firstAfterChange ∧
          (if content = true
            then e'.content = none ∧ e'.state = .awaiting ∧
              e'.staleTimer = (if e.policies.maxInterval = 0 then none else some s.part.run.clock)
            else e'.content = e.content ∧ e'.state = e.state ∧ e'.staleTimer = e.staleTimer) ∧
          (if (byteOf (Req.param (slot.take 64) 0)).getLsbD 1 then e'.arrivals = 0 ∧ e'.chatter = 0
            else e'.arrivals = e.arrivals ∧ e'.chatter = e.chatter) ∧
          s.RewritesEntry t i (some e')) ∧
      (∀ (i : Nat) (e : Entry), s.part.entryAt i = some e →
        ¬ ((Req.unit (slot.take 64) = 255 ∨ Req.unit (slot.take 64) = e.key.unit) ∧
          (Req.code (slot.take 64) = 255 ∨ Req.code (slot.take 64) = e.key.kind)) → t.part.entrySlot i = s.part.entrySlot i) ∧
      (∀ i : Nat, s.part.entryAt i = none → t.part.entrySlot i = s.part.entrySlot i) ∧
      (∃ more : List BankItem, t.part.svc = { s.part.svc with bankQueue := s.part.svc.bankQueue ++ more } ∧
        more <+: (notifying.map fun i => .update s.part.svc.activeBank .directory i) ∧
        ∀ i ∈ notifying, t.BitAmong more s.part.svc.activeBank .directoryEngine .directory i) ∧
      mirrors <+: t.part.port.outstanding.filter (fun a => !a.isRead) ∧
      (30 < mirrors.length →
        s.TakeWaits t n slot .directoryEngine ∧ t.part.board.held = s.part.board.held ++ [s.requestInTake n slot .directoryEngine] ∧
        ∃ e ∈ t.part.port.waiting, e.block = .directoryEngine ∧ e.items.getLast? = some (.hand (.complete s.part.board.nextSeq res))) ∧
      (mirrors.length ≤ 30 →
        s.CompletedTake t n slot res ∧
        mirrors ++ s.completionOf n slot res <+: t.part.port.fifo.filter (fun a => !a.isRead) ∧
        t.part.svc.bankQueue = s.part.svc.bankQueue ++ notifying.map fun i => .update s.part.svc.activeBank .directory i)

/-! ## Sweeps and takes -/

/-- R113: the state bytes have been read. The set is the slots read POSTED and not held (nor waiting for their completion write, A41), in ascending cyclic
order from the origin; the first is read, and with none the sweep ends at once. -/
def Obligations.SweepFixesTheSetOfSlots : Prop :=
  ∀ (s : State) (states : List Byte) (set : List Nat), s.part.run.partState = .running → s.part.board.finishes = [] →
    s.part.board.sweep = .reading → s.OnlyAccess (.read .sweepStates (stateByteAddr s.part.base 0) 64) →
    set = (((List.range 64).map fun i => (s.part.board.origin + i) % 64).filter fun n =>
      decide (states.getD n 0 = 1 ∧ (∀ h ∈ s.part.board.held, h.taken = true → h.slot ≠ n) ∧ ∀ x ∈ s.part.board.completions.drop 1, x.slot ≠ n)) →
    (∀ n rest, set = n :: rest →
      exec (.sweep states) s = .next { s with part := { s.part with
        board := { s.part.board with sweep := .taking (n :: rest) none }
        port := { fifo := [.read (.slot n) (s.part.base + 0x800 + 128 * n) 128] } } }) ∧
    (set = [] →
      exec (.sweep states) s = .next { s with part := { s.part with
        board := { s.part.board with
          sweep := if s.part.board.sweepAgain then .reading else .noSweep
          sweepCount := s.part.board.sweepCount + 1
          sweepAgain := false
          sweepTimer := if s.part.board.sweepAgain = true ∨ s.part.board.interval = 0 then none
            else some (s.part.run.clock + wordOf s.part.board.interval) }
        port := {
          fifo := .write (s.part.base + 0x5C) (le32 (s.part.board.sweepCount + 1)) .silent ::
            if s.part.board.sweepAgain then [.read .sweepStates (stateByteAddr s.part.base 0) 64] else [] } } })

/-- R113, R114, R124: every slot of the set is considered in its turn, taken or passed over; the next is read, and after the last the sweep ends with the
origin past the last slot taken. After the take that a STOP found in the making no slot is read and the sweep is not counted; what such a take leaves in
flight after the end of the drain ends as at the notice (A17): a LEND completes STOPPED. A take does the same to the part in DRAINING as in RUNNING, and an
ABORT that ends the last entry that the drain waits for ends the drain with it (R172, A15). Each take runs to its end before the next begins: where the take's
block waits for room the sweep goes on behind it, and where none waits at the end of the step it has gone on (R117, R174, A8). -/
def Obligations.SweepGoesOnAfterEachSlot : Prop :=
  ∀ (s : State) (n : Nat) (last last' : Option Nat) (c : Instr) (taken : Bool),
    (∃ slot : List Byte, slot.length = 128 ∧ byteAt slot 0x7F = statePosted ∧ c = takeCommand slot (Req.kind slot) ∧ taken = true ∧ last' = some n) ∨
      (∃ b : Byte, b ≠ statePosted ∧ c = .passedOver b ∧ taken = false ∧ last' = last) →
    (∀ (slot : List Byte) (rest : List Nat), s.SlotAnswered n rest last ∨ s.LastSlotAnswered n last → c = takeCommand slot (Req.kind slot) →
      slot.length = 128 → byteAt slot 0x7F = statePosted →
      exec c s = .next { s with part :=
        (Part.sweepOn (Part.take n (slot.take 64) { s.part with port := {} }).settle.takeAfterDrain).settle }) ∧
    (∀ rest : List Nat, s.SlotAnswered n rest last →
      ∃ t : State, exec c s = .next t ∧ t.pending = s.pending ∧ t.mem = s.mem ∧ t.part.run = s.part.run ∧
        t.part.board.nextSeq = s.part.board.nextSeq + taken.toNat ∧ (taken = false ∨ t.part.port.waiting = [] → t.part.board.finishes = []) ∧
        (taken = false → t.part = { s.part with board := t.part.board, port := t.part.port } ∧ t.part.board.held = s.part.board.held ∧
          t.part.board.registry = s.part.board.registry ∧ t.part.board.completions = []) ∧
        (s.SweepGoesOn t rest last' ∨ taken = true ∧ s.SweepWaits t) ∧
        (taken = false ∨ t.part.port.waiting = [] ∨ (∀ h ∈ t.part.board.held, h.taken = true) → s.SweepGoesOn t rest last')) ∧
    (s.LastSlotAnswered n last →
      ∃ t : State, exec c s = .next t ∧ t.pending = s.pending ∧ t.mem = s.mem ∧ t.part.run.partState = .draining ∧
        t.part.board.nextSeq = s.part.board.nextSeq + taken.toNat ∧ (t.part.port.waiting = [] → t.part.board.finishes = []) ∧
        (s.SweepDropped t last' ∨ taken = true ∧ s.SweepWaits t) ∧
        (taken = false ∨ t.part.port.waiting = [] ∨ (∀ h ∈ t.part.board.held, h.taken = true) → s.SweepDropped t last') ∧
        (∀ what addr len, Access.read what addr len ∈ t.part.port.outstanding → what = .bankWord) ∧
        (∀ slot : List Byte, c = .lend slot → s.part.run.drainEnded = true → s.part.jw.drained = true → s.Accepts slot →
          s.NoPredecessor (slot.take 64) →
          s.CompletesSlot t (s.takeCompletion n slot { outcome := .stopped }) ∧ ∀ h ∈ t.part.board.held, h.seq ≠ s.part.board.nextSeq) ∧
        (∀ (slot : List Byte) (m : Nat) (x : Transaction), c = .abort slot → Req.kind slot = some .abort → s.part.run.drainEnded = false → s.Accepts slot →
          s.NoPredecessor (slot.take 64) → ¬ s.part.Waits m → s.part.holderOf (Req.targetTag (slot.take 64)) = some m →
          s.part.te = { pool := [x] } → x.seq = m → x.state ≠ .sending → x.origin.isSome = true → s.part.um.dismissWait = none →
          t.part.te = {} ∧ t.part.run = { s.part.run with drainEnded := true, drainTimer := none } ∧
          s.Completes t m (x.result { outcome := .aborted }) ∧
          s.CompletesSlot t (s.takeCompletion n slot { outcome := .ok, fields := [1, 1, 7] })))

/-- R115, R116: the first check that fails decides the refusal; the slot is completed with it by two writes, the result part whole and then DONE (A7), and its
request leaves no other trace. R131, R132: an ENROLL of a DEPARTING unit is refused NO_UNIT unless it names a DISMISS of that unit in flight in `after`; that
any such DISMISS counts is the model's choice A51. A request is accepted only where its kind is known, its fields are in their ranges (R128, R131, R133, R135
to R139, R142, R143, R145, R147, byte by byte after R188), its tag is free and checks 4 to 6 find what the table of R115 asks for; where one of them fails it
is refused. -/
def Obligations.RefusedTakesCompleteAtOnce : Prop :=
  (∀ (s : State) (n : Nat) (rest : List Nat) (last : Option Nat) (slot : List Byte) (o : ReqOutcome), s.SlotAnswered n rest last →
    slot.length = 128 → byteAt slot 0x7F = statePosted → s.part.validate (slot.take 64) = some o →
    (Req.kind slot = none → o = .badKind) ∧
    (∀ k, Req.kind slot = some k →
      (Req.inRange s.part.base k (slot.take 64) = false → o = .badField) ∧
      (Req.inRange s.part.base k (slot.take 64) = true → s.part.holderOf (Req.tag (slot.take 64)) ≠ none → o = .dupTag) ∧
      (Req.inRange s.part.base k (slot.take 64) = true → s.part.holderOf (Req.tag (slot.take 64)) = none →
        (s.part.check4 k (slot.take 64) = some .noUnit → o = .noUnit) ∧
        (s.part.check4 k (slot.take 64) = none → s.part.check5 k (slot.take 64) = some .noEntry → o = .noEntry) ∧
        (s.part.check4 k (slot.take 64) = none → s.part.check5 k (slot.take 64) = none → s.part.check6 k (slot.take 64) = some o) ∧
        (k = .enroll → o = .noUnit ∧ (∃ u, s.part.unitAt (Req.unit (slot.take 64)) = some u ∧ u.link = .departing) ∧
          ∀ (m : Nat) (h : HeldRequest), s.part.holderOf (Req.afterTag (slot.take 64)) = some m → s.part.heldOf m = some h →
            Req.kind h.req = some .dismiss → Req.unit h.req ≠ Req.unit (slot.take 64)))) ∧
    ∃ t : State, exec (takeCommand slot (Req.kind slot)) s = .next t ∧ t.pending = s.pending ∧ t.mem = s.mem ∧
      t.part = { s.part with board := t.part.board, port := t.part.port } ∧ t.part.board.held = s.part.board.held ∧
      t.part.board.registry = s.part.board.registry ∧ t.part.board.finishes = [] ∧ t.part.board.nextSeq = s.part.board.nextSeq + 1 ∧
      t.part.board.completions = [{ slot := n, unmatched := false, result := { outcome := o }, time := s.part.run.clock }] ∧
      completionWrites s.part.base n { outcome := o } false s.part.run.clock (.done n) <+: t.part.port.fifo) ∧
  ∀ (p : Part) (r : List Byte),
    (p.validate r = none ↔ ∃ k, Req.kind r = some k ∧ Req.inRange p.base k r = true ∧ p.holderOf (Req.tag r) = none ∧
      (p.check4 k r = none ∧ p.check5 k r = none ∧ p.check6 k r = none ∨
        k = .enroll ∧ ∃ (m : Nat) (h : HeldRequest), p.holderOf (Req.afterTag r) = some m ∧ p.heldOf m = some h ∧ Req.kind h.req = some .dismiss ∧
          Req.unit h.req = Req.unit r)) ∧
    (∀ (base : Nat) (k : ReqKind), Req.inRange base k r = true ↔
      (halfAt r 0x04 = 0 ∨ halfAt r 0x04 ≠ halfAt r 0x02) ∧ (if k = .transact then natAt r 0x01 ≤ 3 else natAt r 0x01 = 0) ∧
      (k = .transact ∨ k = .sync ∨ leAt r 0x08 2 = 0) ∧
      (k ∈ [.enroll, .dismiss, .hold, .declare, .retire, .transact] → 1 ≤ natAt r 0x06 ∧ natAt r 0x06 ≤ 30) ∧
      (k = .clear ∨ k = .sync → 1 ≤ natAt r 0x06 ∧ natAt r 0x06 ≤ 30 ∨ natAt r 0x06 = 255) ∧
      (k ∈ [.declare, .retire, .transact] → natAt r 0x07 ≤ 63) ∧ (k = .clear → natAt r 0x07 ≤ 63 ∨ natAt r 0x07 = 255) ∧
      (k = .enroll → natAt r 0x0C ≠ 0 ∧ 1 ≤ natAt r 0x0D ∧ natAt r 0x0D ≤ 50 ∧ natAt r 0x0E ≤ 7 ∧ 1 ≤ natAt r 0x0F ∧ natAt r 0x0F ≤ 15 ∧
        1 ≤ natAt r 0x10 ∧ natAt r 0x10 ≤ 15 ∧ natAt r 0x11 ≤ 1 ∧ natAt r 0x13 ≤ 15 ∧ natAt r 0x14 ≠ 0 ∧ 1 ≤ natAt r 0x15 ∧ natAt r 0x15 ≤ 8) ∧
      (k = .hold → natAt r 0x0C = 1 ∨ natAt r 0x0C = 2) ∧
      (k = .declare → natAt r 0x10 ≤ 1 ∧ natAt r 0x11 ≤ 1 ∧ natAt r 0x12 ≤ 1 ∧ natAt r 0x13 ≤ 2 ∧ natAt r 0x14 ≤ 1) ∧
      (k = .clear → natAt r 0x0C ≤ 3) ∧ (k = .transact → natAt r 0x0A ≤ 24) ∧
      (k = .lend → leAt r 0x0C 5 % 256 = 0 ∧ 4 ≤ natAt r 0x11 ∧ natAt r 0x11 ≤ 64 ∧ leAt r 0x0C 5 + 256 * natAt r 0x11 ≤ 2 ^ 40 ∧
        (leAt r 0x0C 5 + 256 * natAt r 0x11 ≤ base ∨ base + 24 * 1024 ≤ leAt r 0x0C 5))) ∧
    (p.holderOf (Req.tag r) = none ↔ Req.tag r = 0 ∨ ∀ e ∈ p.board.registry, e.1 ≠ Req.tag r) ∧
    (∀ k : ReqKind,
      (p.check4 k r = none ∨ p.check4 k r = some .noUnit) ∧
      (p.check4 k r = none ↔
        (k ∈ [.transact, .dismiss, .hold, .declare, .retire] ∨ k ∈ [.clear, .sync] ∧ Req.unit r ≠ 255 →
          ∃ u, p.unitAt (Req.unit r) = some u ∧ u.link ≠ .departing) ∧
        (k = .enroll → ∀ u, p.unitAt (Req.unit r) = some u → u.link ≠ .departing)) ∧
      (p.check5 k r = none ∨ p.check5 k r = some .noEntry) ∧
      (p.check5 k r = none ↔ (k = .retire → ∃ (n : Nat) (e : Entry), n < 192 ∧ p.entryAt n = some e ∧ e.key = Req.key r)) ∧
      (k = .declare →
        ((∃ (n : Nat) (e : Entry), n < 192 ∧ p.entryAt n = some e ∧ e.key = Req.key r) ∨ (∃ n : Nat, n < 192 ∧ p.entryAt n = none) → p.check6 k r = none) ∧
        ((∀ n : Nat, n < 192 → ∃ e : Entry, p.entryAt n = some e ∧ e.key ≠ Req.key r) → p.check6 k r = some .noRoom)) ∧
      (k = .transact → p.check6 k r = if 96 ≤ p.te.pool.length then some .noRoom
        else if 8 ≤ (p.te.pool.filter fun x => x.unit == Req.unit r).length then some .queueFull else none) ∧
      (k = .lend → p.check6 k r = if 8 ≤ p.jw.pages.length then some .queueFull else none) ∧
      (k ≠ .declare → k ≠ .transact → k ≠ .lend → p.check6 k r = none))

/-- R117, R119: an accepted request of any kind but TRANSACT and SYNC whose predecessor is in flight is held by the Board Controller, its slot TAKEN. R132: so
is an ENROLL that names in `after` a DISMISS of its own unit in flight (A51), also when that has made the unit DEPARTING: it is accepted where checks 1 to 3
pass. -/
def Obligations.RequestsAreHeldForTheirPredecessor : Prop :=
  ∀ (s : State) (n m : Nat) (slot : List Byte) (k : ReqKind), s.TakesSlot n slot k → k ≠ .transact → k ≠ .sync →
    s.part.holderOf (Req.afterTag (slot.take 64)) = some m →
    (s.Accepts slot ∨ k = .enroll ∧ Req.inRange s.part.base .enroll (slot.take 64) = true ∧ s.part.holderOf (Req.tag (slot.take 64)) = none ∧
      ∃ h : HeldRequest, s.part.heldOf m = some h ∧ Req.kind h.req = some .dismiss ∧ Req.unit h.req = Req.unit (slot.take 64)) →
    ∃ t : State, exec (takeCommand slot (some k)) s = .next t ∧ t.pending = s.pending ∧ t.mem = s.mem ∧
      t.part = { s.part with board := t.part.board, port := t.part.port } ∧
      t.part.board.held = s.part.board.held ++ [s.recordOf n slot .boardController (some m)] ∧
      t.part.board.registry = s.registryWith slot ∧ t.part.board.finishes = [] ∧ t.part.board.nextSeq = s.part.board.nextSeq + 1 ∧
      t.part.board.completions = [] ∧
      s.TakenWritten t n

/-- R44, R45, R20, R106: DISMISS retires the unit's entries, ends its PENDING and DEFERRED transactions DISMISSED, and removes the unit at once, or leaves it
DEPARTING and waits when a turn with it is in progress; its counts are reported, at the removal where the writes before it find room, else once no block waits
any more; until then the take has not come to its end, its slot not written TAKEN and the sweep waiting behind it (R117, A8). R98: a transaction reported
ACCEPTED ends with a LATE_FAILURE record. Every other transaction stays. R40, R149, R13: the unit's mirror shows it DEPARTING, its bank bit behind, and EMPTY
once it is removed; each retired entry's mirror shows it VACANT, its bank bit handed on where its notify mode was not NONE. -/
def Obligations.DismissRemovesTheUnitOrWaits : Prop :=
  ∀ (s : State) (n a : Nat) (slot : List Byte) (retired ended : Nat), s.TakesSlot n slot .dismiss → s.Accepts slot →
    s.NoPredecessor (slot.take 64) → s.NoneWaits → s.Distinct → a = Req.unit (slot.take 64) →
    retired = (s.part.entriesWhere fun e => e.key.unit == a).length →
    ended = (s.part.te.pool.filter fun x => x.unit == a && x.state != .sending).length →
    ∃ t : State, exec (.dismiss slot) s = .next t ∧ t.pending = s.pending ∧ t.mem = s.mem ∧ t.part.run = s.part.run ∧
      t.part.line = s.part.line ∧ t.part.jw = s.part.jw ∧ s.OtherUnits t a ∧
      (∀ (i : Nat) (e : Entry), s.part.entryAt i = some e → t.part.entryAt i = if e.key.unit = a then none else some e) ∧
      (∀ i : Nat, s.part.entryAt i = none → t.part.entryAt i = none) ∧
      (∀ i : Nat, (∀ e, s.part.entryAt i = some e → e.key.unit ≠ a) → t.part.entrySlot i = s.part.entrySlot i) ∧
      (∃ (u : FieldUnit) (more : List BankItem), s.part.unitAt a = some u ∧
        mirrorWrites (unitMirrorAddr s.part.base a) (s.part.unitSlot a).version (unitBody (some { u with link := .departing })) ++
          s.part.bankBitRead .unit a <+: t.part.port.fifo ∧
        t.part.svc.bankQueue = s.part.svc.bankQueue ++ .update s.part.svc.activeBank .unit a :: more ∧
        (∀ (i : Nat) (e : Entry), s.part.entryAt i = some e → e.key.unit = a → s.RewritesEntry t i none ∧
          (e.policies.notify ≠ .never → t.BitAmong more s.part.svc.activeBank .directoryEngine .directory i)) ∧
        ((∀ x, s.part.line.turn = some x → x.unit ≠ a) →
          s.ShowsEmpty t a ((s.part.unitSlot a).version + 2) ∧ t.BitAmong more s.part.svc.activeBank .unitManager .unit a)) ∧
      t.part.te.pool = s.part.te.pool.filter (fun x => !(x.unit == a && x.state != .sending)) ∧
      (∀ x ∈ s.part.te.pool, x.unit = a → x.state ≠ .sending → x.origin = none → s.FailsLate t x .dismissed []) ∧
      ((∀ x ∈ s.part.te.pool, x.unit = a → x.state ≠ .sending → x.origin ≠ none) → s.LogsNothing t) ∧
      (∀ x : Transaction, s.part.findTxn x.seq = some x → x.unit = a → x.state ≠ .sending → x.origin.isSome = true →
        s.Completes t x.seq (x.result { outcome := .dismissed })) ∧
      ((∀ x, s.part.line.turn = some x → x.unit ≠ a) →
        t.part.unitAt a = none ∧ t.part.um.dismissWait = s.part.um.dismissWait ∧
        (s.CompletesSlot t (s.takeCompletion n slot { outcome := .ok, fields := [byteOf retired, byteOf ended] }) ∨
          s.TakeWaits t n slot .unitManager ∧
          t.part.port.later = [.dismissed s.part.board.nextSeq { outcome := .ok, fields := [byteOf retired, byteOf ended] }, .sweepOn]) ∧
        (3 * retired + 4 * ended ≤ 24 →
          s.CompletesSlot t (s.takeCompletion n slot { outcome := .ok, fields := [byteOf retired, byteOf ended] }))) ∧
      (∀ x, s.part.line.turn = some x → x.unit = a →
        (∃ u, s.part.unitAt a = some u ∧ t.part.unitAt a = some { u with
          link := .departing, settle := none, pollDue := none, pollReady := false, lastPoll := none, rollDue := none, rollReady := false
          reservations := [] }) ∧
        (t.part.unitSlot a).version = (s.part.unitSlot a).version + 2 ∧
        t.part.um.dismissWait = some { seq := s.part.board.nextSeq, unit := a, retired := retired, ended := ended } ∧
        s.recordOf n slot .unitManager none ∈ t.part.board.held ∧
        Access.write (stateByteAddr s.part.base n) [stateTaken] .silent ∈ t.part.port.outstanding)

/-- R84, R97: TRANSACT creates a PENDING transaction at the end of its unit's queue; with EARLY the slot completes ACCEPTED at once and the transaction has no
origin, else the slot stays TAKEN. A predecessor in flight is kept with the transaction. R122: the completion of an EARLY one is two writes, the result part
whole and then DONE (A7). -/
def Obligations.TransactCreatesATransaction : Prop :=
  ∀ (s : State) (n : Nat) (slot : List Byte), s.TakesSlot n slot .transact → s.Accepts slot →
    ∃ t : State, exec (.transact slot) s = .next t ∧ t.pending = s.pending ∧ t.mem = s.mem ∧
      t.part = { s.part with
        te := { s.part.te with pool := s.part.te.pool ++ [
          { tag := Req.tag (slot.take 64), origin := if Req.early (slot.take 64) then none else some n
            unit := Req.unit (slot.take 64), command := Req.code (slot.take 64), payload := Req.payload (slot.take 64)
            early := Req.early (slot.take 64), urgent := Req.urgent (slot.take 64)
            deadline := if Req.deadline (slot.take 64) = 0 then none else some (s.part.run.clock + wordOf (Req.deadline (slot.take 64)))
            pred := s.part.holderOf (Req.afterTag (slot.take 64)), token := none, retries := 0, sends := 0, state := .pending
            abortRequested := false, everDeferred := false, deferExpiry := none, seq := s.part.board.nextSeq }] }
        board := t.part.board
        port := t.part.port } ∧
      t.part.board.registry = s.registryWith slot ∧ t.part.board.finishes = [] ∧ t.part.board.nextSeq = s.part.board.nextSeq + 1 ∧
      (Req.early (slot.take 64) = true → t.part.board.held = s.part.board.held ∧
        t.part.board.completions = [{ slot := n
                                      unmatched := (s.recordOf n slot .transactionEngine (s.part.holderOf (Req.afterTag (slot.take 64)))).unmatched
                                      result := { outcome := .accepted }, time := s.part.run.clock }] ∧
        completionWrites s.part.base n { outcome := .accepted } (s.recordOf n slot .transactionEngine (s.part.holderOf (Req.afterTag (slot.take 64)))).unmatched
          s.part.run.clock (.done n) <+: t.part.port.fifo) ∧
      (Req.early (slot.take 64) = false →
        t.part.board.held = s.part.board.held ++
          [s.recordOf n slot .transactionEngine (s.part.holderOf (Req.afterTag (slot.take 64)))] ∧ s.TakenWritten t n)

/-- R100: SYNC captures the transactions of its scope and waits for them and for its predecessor; with nothing to wait for it completes OK at take. -/
def Obligations.SyncCapturesItsTransactions : Prop :=
  ∀ (s : State) (n : Nat) (slot : List Byte) (captured : List Transaction), s.TakesSlot n slot .sync → s.Accepts slot →
    captured = (if Req.unit (slot.take 64) = 255 then s.part.te.pool
      else s.part.te.pool.filter fun x => x.unit == Req.unit (slot.take 64)) →
    (captured = [] → s.NoPredecessor (slot.take 64) →
      ∃ t : State, exec (.sync slot) s = .next t ∧ s.CompletedTake t n slot { outcome := .ok, fields := [0, 0, 0] } ∧
        t.part = { s.part with board := t.part.board, port := t.part.port } ∧
        s.completionOf n slot { outcome := .ok, fields := [0, 0, 0] } <+: t.part.port.fifo) ∧
    (captured ≠ [] ∨ ¬ s.NoPredecessor (slot.take 64) →
      ∃ t : State, exec (.sync slot) s = .next t ∧ t.pending = s.pending ∧ t.mem = s.mem ∧
        t.part = { s.part with
          te := { s.part.te with syncs := s.part.te.syncs ++ [
            { seq := s.part.board.nextSeq
              deadline := if Req.deadline (slot.take 64) = 0 then none else some (s.part.run.clock + wordOf (Req.deadline (slot.take 64)))
              pred := s.part.holderOf (Req.afterTag (slot.take 64)), captured := captured.length, finished := 0, failed := 0
              waitingFor := captured.map fun x => x.seq }] }
          board := t.part.board
          port := t.part.port } ∧
        t.part.board.held = s.part.board.held ++
          [s.recordOf n slot .transactionEngine (s.part.holderOf (Req.afterTag (slot.take 64)))] ∧
        t.part.board.registry = s.registryWith slot ∧ t.part.board.finishes = [] ∧ s.TakenWritten t n)

/-- R102 to R104, R143, R144: an ABORT that finds no holder of its target tag completes NOT_FOUND, one that finds an ABORT handed to its block, or
its own tag, NOT_ABORTABLE; one that finds a SENDING transaction sets its abort-requested flag and waits for the end of the turn. -/
def Obligations.AbortFindsNothingOrWaits : Prop :=
  ∀ (s : State) (n : Nat) (slot : List Byte), s.TakesSlot n slot .abort → s.Accepts slot → s.NoPredecessor (slot.take 64) →
    (s.part.holderOf (Req.targetTag (slot.take 64)) = none →
      (Req.targetTag (slot.take 64) = 0 ∨ Req.targetTag (slot.take 64) ≠ Req.tag (slot.take 64)) →
      ∃ t : State, exec (.abort slot) s = .next t ∧ s.CompletedTake t n slot { outcome := .ok, fields := [3, 0, 0] } ∧
        t.part = { s.part with board := t.part.board, port := t.part.port } ∧
        s.completionOf n slot { outcome := .ok, fields := [3, 0, 0] } <+: t.part.port.fifo) ∧
    (∀ (m : Nat) (h : HeldRequest), s.part.holderOf (Req.targetTag (slot.take 64)) = some m → s.part.findTxn m = none →
      (∀ y ∈ s.part.te.syncs, y.seq ≠ m) → s.part.heldOf m = some h → h.owner ≠ .boardController → Req.kind h.req = some .abort →
      ∃ t : State, exec (.abort slot) s = .next t ∧ s.CompletedTake t n slot { outcome := .ok, fields := [4, 5, 0] } ∧
        t.part = { s.part with board := t.part.board, port := t.part.port } ∧
        s.completionOf n slot { outcome := .ok, fields := [4, 5, 0] } <+: t.part.port.fifo) ∧
    (Req.targetTag (slot.take 64) ≠ 0 → Req.targetTag (slot.take 64) = Req.tag (slot.take 64) →
      ∃ t : State, exec (.abort slot) s = .next t ∧ s.CompletedTake t n slot { outcome := .ok, fields := [4, 5, 0] } ∧
        t.part = { s.part with board := t.part.board, port := t.part.port } ∧
        s.completionOf n slot { outcome := .ok, fields := [4, 5, 0] } <+: t.part.port.fifo) ∧
    (∀ (m : Nat) (x : Transaction), s.part.holderOf (Req.targetTag (slot.take 64)) = some m → s.part.findTxn m = some x → x.state = .sending →
      ∃ t : State, exec (.abort slot) s = .next t ∧ t.pending = s.pending ∧ t.mem = s.mem ∧
        t.part = { s.part with
          te := { s.part.te with
            pool := s.part.te.pool.map fun y => if y.seq = m then { y with abortRequested := true } else y
            aborts := s.part.te.aborts ++ [{ seq := s.part.board.nextSeq, target := m }] }
          board := t.part.board
          port := t.part.port } ∧
        t.part.board.held = s.part.board.held ++ [s.recordOf n slot .transactionEngine none] ∧
        t.part.board.registry = s.registryWith slot ∧ t.part.board.finishes = [] ∧ s.TakenWritten t n)

/-- R102, R103, R144, R160: an ABORT of a PENDING or DEFERRED transaction ends it ABORTED at take, with no LATE_FAILURE record (R98); the token of a
DEFERRED one is reserved until its defer expiry (R89), where that is not reached yet (A45). A SYNC, a request held for its predecessor and a waiting DISMISS
complete ABORTED; the page of a LEND completes when it is open, and is withdrawn when it is not. -/
def Obligations.AbortEndsAWaitingTransaction : Prop :=
  ∀ (s : State) (n m : Nat) (slot : List Byte), s.TakesSlot n slot .abort → s.Accepts slot → s.NoPredecessor (slot.take 64) →
    ¬ s.part.Waits m → s.part.holderOf (Req.targetTag (slot.take 64)) = some m →
    (∀ x : Transaction, s.part.findTxn m = some x → x.state ≠ .sending → (∀ y ∈ s.part.te.syncs, m ∉ y.waitingFor) ∨ s.NoneWaits →
      ∃ t : State, exec (.abort slot) s = .next t ∧ t.pending = s.pending ∧ t.mem = s.mem ∧ t.part.run = s.part.run ∧
        t.part.line = s.part.line ∧ t.part.dir = s.part.dir ∧ t.part.jw = s.part.jw ∧ s.OtherUnits t x.unit ∧ s.LogsNothing t ∧
        t.part.te.pool = s.part.te.pool.filter (fun y => y.seq != m) ∧ t.part.te.aborts = s.part.te.aborts ∧
        ((∀ y ∈ s.part.te.syncs, m ∉ y.waitingFor) → t.part.te.syncs = s.part.te.syncs) ∧
        (∀ (u : FieldUnit) (k : Nat) (d : Word), 1 ≤ x.unit ∧ x.unit ≤ 30 → x.state = .deferred → s.part.unitAt x.unit = some u → x.token = some k →
          x.deferExpiry = some d →
          t.part.unitAt x.unit = some (if reached s.part.run.clock d = true then u
            else { u with reservations := u.reservations ++ [{ token := k, tag := x.tag, expiry := d }] })) ∧
        (x.state = .pending → t.part.unitAt x.unit = s.part.unitAt x.unit) ∧
        (t.part.unitSlot x.unit).version = (s.part.unitSlot x.unit).version ∧
        (x.origin.isSome = true → s.Completes t m (x.result { outcome := .aborted })) ∧
        s.CompletesSlot t (s.takeCompletion n slot { outcome := .ok, fields := [1, 1, 7] })) ∧
    (∀ y : SyncRecord, s.part.findTxn m = none → s.part.te.syncs.find? (fun z => z.seq == m) = some y →
      ∃ t : State, exec (.abort slot) s = .next t ∧ t.pending = s.pending ∧ t.mem = s.mem ∧
        t.part = { s.part with
          te := { s.part.te with syncs := s.part.te.syncs.filter fun z => z.seq != m }, board := t.part.board, port := t.part.port } ∧
        s.Completes t m { outcome := .aborted, fields := [byteOf y.captured, byteOf y.finished, byteOf y.failed] } ∧
        s.CompletesSlot t (s.takeCompletion n slot { outcome := .ok, fields := [1, 2, 7] })) ∧
    (∀ h : HeldRequest, s.part.findTxn m = none → (∀ y ∈ s.part.te.syncs, y.seq ≠ m) → s.part.heldOf m = some h →
      (h.owner = .boardController →
        ∃ t : State, exec (.abort slot) s = .next t ∧ t.pending = s.pending ∧ t.mem = s.mem ∧
          t.part = { s.part with board := t.part.board, port := t.part.port } ∧ t.part.board.held = s.part.board.held.filter (fun x => x.seq != m) ∧
          s.Completes t m { outcome := .aborted } ∧ s.CompletesSlot t (s.takeCompletion n slot { outcome := .ok, fields := [1, 6, 7] })) ∧
      (∀ d : WaitingDismiss, h.owner ≠ .boardController → Req.kind h.req ≠ some .abort → (∀ g ∈ s.part.jw.pages, g.seq ≠ m) →
        s.part.um.dismissWait = some d → d.seq = m →
        ∃ t : State, exec (.abort slot) s = .next t ∧ t.pending = s.pending ∧ t.mem = s.mem ∧
          t.part = { s.part with um := { s.part.um with dismissWait := none }, board := t.part.board, port := t.part.port } ∧
          s.Completes t m { outcome := .aborted, fields := [byteOf d.retired, byteOf d.ended] } ∧
          s.CompletesSlot t (s.takeCompletion n slot { outcome := .ok, fields := [1, 3, 7] })) ∧
      (∀ (g : Page) (rest : List Page) (o : OpenPage), h.owner ≠ .boardController → Req.kind h.req ≠ some .abort → s.part.jw.pages = g :: rest →
        s.part.jw.opened = some o → (∃ g' ∈ g :: rest, g'.seq = m) → s.NoneWaits → s.Distinct →
        ∃ t : State, exec (.abort slot) s = .next t ∧ t.pending = s.pending ∧ t.mem = s.mem ∧
          t.part = { s.part with jw := t.part.jw, board := t.part.board, port := t.part.port } ∧
          s.CompletesSlot t (s.takeCompletion n slot { outcome := .ok, fields := [1, 4, 7] }) ∧
          (g.seq = m → s.PassesOn t rest ∧ [.write g.addr.toNat o.head .silent] <+: t.part.port.fifo ∧
            s.Completes t m { outcome := .aborted, fields := le32 o.pageSeq ++ leBytes 2 o.count ++ leBytes 2 o.used ++ le16 (o.gap.getD 0) }) ∧
          (g.seq ≠ m → t.part.jw = { s.part.jw with pages := g :: rest.map fun x => if x.seq = m then { x with withdrawn := true } else x } ∧
            t.part.board.held = s.part.board.held)))

/-- R145, R155: LEND appends the page to the queue of lent pages and its slot stays TAKEN; the only page is open, with the next page sequence. A held LEND
whose predecessor succeeds after the end of the drain completes STOPPED, the journal being drained (R125, R162). -/
def Obligations.LendAppendsThePage : Prop :=
  (∀ (s : State) (n : Nat) (slot : List Byte) (g : Page), s.TakesSlot n slot .lend → s.Accepts slot → s.NoPredecessor (slot.take 64) →
    g = { seq := s.part.board.nextSeq, addr := BitVec.ofNat 40 (Req.pageAddress (slot.take 64)), size := Req.pageSize (slot.take 64)
          flushAge := Req.flushAge (slot.take 64), withdrawn := false } →
    s.part.jw.drained = false →
    ∃ t : State, exec (.lend slot) s = .next t ∧ t.pending = s.pending ∧ t.mem = s.mem ∧
      t.part = { s.part with
        jw := { s.part.jw with
          pages := s.part.jw.pages ++ [g]
          opened := if s.part.jw.pages = [] then
            some { pageSeq := s.part.jw.nextPage, count := 0, used := 32, firstTime := none, lastTime := none, gap := none
                   flushTimer := none } else s.part.jw.opened
          nextPage := if s.part.jw.pages = [] then
            (if s.part.jw.nextPage = 0xFFFFFFFF then 1 else s.part.jw.nextPage + 1) else s.part.jw.nextPage }
        board := t.part.board
        port := t.part.port } ∧
      t.part.board.held = s.part.board.held ++ [s.recordOf n slot .journalWriter none] ∧
      t.part.board.registry = s.registryWith slot ∧ t.part.board.finishes = [] ∧ s.TakenWritten t n) ∧
  (∀ (p : Part) (m w : Nat) (h : HeldRequest), p.run.partState = .draining → p.run.drainEnded = true → p.jw.drained = true → p.jw.pages = [] →
    p.port.waiting = [] → p.port.later = [] → p.port.writesQueued + 2 ≤ 32 → p.board.finishes = [⟨m, true, false⟩] → p.waitersOf m = [w] →
      (∀ k : Nat, k ≠ m → p.waitersOf k = []) →
    p.heldOf w = some h → h.owner = .boardController → h.pred = some m → Req.kind h.req = some .lend → p.findTxn w = none →
    (∀ y ∈ p.te.syncs, y.seq ≠ w) →
    p.settle = { p with board := p.settle.board, port := p.settle.port } ∧ p.settle.board.finishes = [] ∧
    (∀ x ∈ p.settle.board.held, x.seq ≠ w) ∧
    p.settle.board.completions = p.board.completions ++
      [{ slot := h.slot, unmatched := h.unmatched, result := { outcome := .stopped }, time := p.run.clock }])

/-- R159, R147, R157: CUT completes EMPTY when the open page holds no record or no page is open; else it completes the page CUT, its head written, and itself
OK with the page's sequence, record count and bytes used; withdrawn pages next in the queue complete ABORTED, and the first that is not withdrawn opens. -/
def Obligations.CutCompletesTheOpenPage : Prop :=
  ∀ (s : State) (n : Nat) (slot : List Byte), s.TakesSlot n slot .cut → s.Accepts slot → s.NoPredecessor (slot.take 64) →
    (s.part.jw.pages = [] ∨ s.part.jw.opened = none ∨ (∃ o, s.part.jw.opened = some o ∧ o.count = 0) →
      ∃ t : State, exec (.cut slot) s = .next t ∧ s.CompletedTake t n slot { outcome := .empty } ∧
        t.part = { s.part with board := t.part.board, port := t.part.port } ∧ s.completionOf n slot { outcome := .empty } <+: t.part.port.fifo) ∧
    (∀ (g : Page) (rest : List Page) (o : OpenPage), s.part.jw.pages = g :: rest → s.part.jw.opened = some o → o.count ≠ 0 → s.NoneWaits →
      s.Distinct →
      ∃ t : State, exec (.cut slot) s = .next t ∧ t.pending = s.pending ∧ t.mem = s.mem ∧
        t.part = { s.part with jw := t.part.jw, board := t.part.board, port := t.part.port } ∧ s.PassesOn t rest ∧
        [.write g.addr.toNat o.head .silent] <+: t.part.port.fifo ∧
        s.Completes t g.seq { outcome := .cut, fields := le32 o.pageSeq ++ leBytes 2 o.count ++ leBytes 2 o.used ++ le16 (o.gap.getD 0) } ∧
        s.CompletesSlot t (s.takeCompletion n slot { outcome := .ok, fields := le32 o.pageSeq ++ leBytes 2 o.count ++ leBytes 2 o.used }))

/-! ## The drop line -/

/-- R64, R67, R78, R79, R81: on a free line the arbiter chooses by class: the oldest URGENT head; else polls and commands, the class other than the mark
first; else the most overdue roll call. A line that is not free makes no choice: one with a turn in progress, a turn chosen or a line fault, or after the
end of the drain. A unit is due by the mark that POLL_DUE or ROLL_CALL_DUE left, or by the reading (A10, A32); the eligible heads are those of the statement
EligibilityAndTokensAreJudged. -/
def Obligations.ArbiterChoosesByClass : Prop :=
  ∀ (s : State) (urgent command : Nat → Transaction → Prop) (poll roll : Nat → Nat → Prop),
    (∀ a x, urgent a x ↔ 1 ≤ a ∧ a ≤ 30 ∧ s.part.eligibleHead a = some x ∧ x.urgent = true) →
    (∀ a x, command a x ↔ 1 ≤ a ∧ a ≤ 30 ∧ s.part.eligibleHead a = some x ∧ x.urgent = false) →
    (∀ a d, poll a d ↔ 1 ≤ a ∧ a ≤ 30 ∧ ∃ u, s.part.unitAt a = some u ∧ u.pollOverdue s.part.run.clock = some d) →
    (∀ a d, roll a d ↔ 1 ≤ a ∧ a ≤ 30 ∧ ∃ u, s.part.unitAt a = some u ∧ u.rollOverdue s.part.run.clock = some d) →
    (s.part.lineFree = true ↔
      s.Working ∧ s.part.run.drainEnded = false ∧ s.part.line.turn = none ∧ s.part.line.choice = none ∧ s.part.line.fault = none) ∧
    (s.part.lineFree = false → exec .turnChoice s = .next s) ∧
    (s.part.lineFree = true →
      ∃ choice : Option Choice,
        exec .turnChoice s = .next { s with part := { s.part with line := { s.part.line with choice := choice } } } ∧
        (choice = none ↔ (∀ a x, ¬ urgent a x) ∧ (∀ a x, ¬ command a x) ∧ (∀ a d, ¬ poll a d) ∧ (∀ a d, ¬ roll a d)) ∧
        ∀ c : Choice, choice = some c → c.since = s.part.run.clock ∧
          ((c.cls = .urgent ∧ ∃ x, urgent c.unit x ∧ c.kind = .command x.seq ∧ ∀ a y, urgent a y → x.seq ≤ y.seq) ∨
           (c.cls = .poll ∧ c.kind = .poll ∧ (∀ a x, ¬ urgent a x) ∧ (s.part.line.mark ≠ .poll ∨ ∀ a x, ¬ command a x) ∧
             ∃ d, poll c.unit d ∧ ∀ a e, poll a e → e ≤ d ∧ (e = d → c.unit ≤ a)) ∨
           (c.cls = .command ∧ (∀ a x, ¬ urgent a x) ∧ (s.part.line.mark = .poll ∨ ∀ a d, ¬ poll a d) ∧
             ∃ (x : Transaction) (i : Nat), command c.unit x ∧ c.kind = .command x.seq ∧ i < 30 ∧ c.unit = (s.part.line.position + i) % 30 + 1 ∧
               ∀ j y, j < i → ¬ command ((s.part.line.position + j) % 30 + 1) y) ∨
           (c.cls = .rollCall ∧ c.kind = .rollCall ∧ (∀ a x, ¬ urgent a x) ∧ (∀ a x, ¬ command a x) ∧ (∀ a d, ¬ poll a d) ∧
             ∃ d, roll c.unit d ∧ ∀ a e, roll a e → e ≤ d ∧ (e = d → c.unit ≤ a))))

/-- R76, R77, R64, R68, R94: a due time that is reached is noted with its unit; a head frame sent opens the reply window and, for a POLL, retires the
acknowledgement, with LDIR low and LTX high behind it (R59, R193); a frame begins within the reply window or the gap limit; activity outside a turn restarts
the idle measurement. The marks are the model's choice A32, the times of windows and gaps A11, the idle measurement A25. -/
def Obligations.LineEventsAreNoted : Prop :=
  ∀ s : State,
    (∀ (a : Nat) (u : FieldUnit), s.part.unitAt a = some u → 1 ≤ a ∧ a ≤ 30 → s.Working →
      (∃ t : State, exec (.pollDue a) s = .next t ∧ t = { s with part := { s.part with um := t.part.um } } ∧ s.OtherUnits t a ∧
        t.part.um.dismissWait = s.part.um.dismissWait ∧
        (∀ d, u.pollDue = some d →
          t.part.unitSlot a = { s.part.unitSlot a with place := some { u with pollReady := u.pollReady || reached s.part.run.clock d } }) ∧
        (u.pollDue = none → t.part.unitSlot a = s.part.unitSlot a)) ∧
      (∃ t : State, exec (.rollCallDue a) s = .next t ∧ t = { s with part := { s.part with um := t.part.um } } ∧ s.OtherUnits t a ∧
        t.part.um.dismissWait = s.part.um.dismissWait ∧
        (∀ d, u.rollDue = some d →
          t.part.unitSlot a = { s.part.unitSlot a with place := some { u with rollReady := u.rollReady || reached s.part.run.clock d } }) ∧
        (u.rollDue = none → t.part.unitSlot a = s.part.unitSlot a))) ∧
    (∀ (x : Turn) (u : FieldUnit), s.part.line.turn = some x → x.phase = .sending → s.part.unitAt x.unit = some u → 1 ≤ x.unit ∧ x.unit ≤ 30 →
      ∃ t : State, exec .headFrameSent s = .next t ∧
        t = { s with part := { s.part with
          um := t.part.um, line := { s.part.line with turn := some { x with phase := .window s.part.run.clock } } } } ∧
        s.OtherUnits t x.unit ∧ t.part.um.dismissWait = s.part.um.dismissWait ∧ t.ldir = false ∧ (∀ bit : Nat, t.ltx bit = true) ∧
        t.part.unitSlot x.unit = { s.part.unitSlot x.unit with place := some (if x.kind = .poll then { u with pendingAck := none } else u) }) ∧
    (∀ (x : Turn) (since : Word), s.part.line.turn = some x →
      (x.phase = .window since ∧ elapsed s.part.run.clock since ≤ x.replyWindow ∨ x.phase = .gap since ∧ elapsed s.part.run.clock since ≤ 1) →
      exec .frameBegins s = .next { s with part := { s.part with
        line := { s.part.line with turn := some { x with phase := .header, frames := x.frames + 1 } } } }) ∧
    ((s.part.line.turn = none ∨ s.part.line.fault ≠ none) →
      exec .lineActivity s = .next { s with part := { s.part with line := { s.part.line with idleSince := s.part.run.clock } } })

/-- R65, R67, R52, R40, R81: a choice whose line has not been idle 2 ms after it begins a line fault, where idle time from before the choice counts (A11);
20 ms of idle line, measured from the fault's begin or the last LINE_ACTIVITY (A25), end one. Both are logged and told to the gates and to STATE; the
record's writes are raised before the mirrors' (A44). Every unit whose factor set changes has its mirror rewritten, in ascending address order, and its bank
bit handed on. After the end of the drain a line fault is left as it stands. -/
def Obligations.LineFaultsBeginAndEnd : Prop :=
  ∀ s : State, s.Working → s.Settled → s.PortRoom 4 0 →
    (∀ c : Choice, s.part.line.choice = some c → 2 ≤ elapsed s.part.run.clock c.since → elapsed s.part.run.clock s.part.line.idleSince ≤ 1 →
      ∃ t : State, exec .notIdle s = .next t ∧ t.pending = s.pending ∧ t.mem = s.mem ∧
        t.part.line = { s.part.line with fault := some s.part.run.clock, idleSince := s.part.run.clock, choice := none } ∧
        t.part.run = { s.part.run with lineFault := true } ∧
        s.Records t { kind := .lineFaultBegin, unit := c.unit, tag := 0, detail := 1, detailHigh := 0, word1 := wordOf c.kind.frameCode
                      word2 := 0 } ∧
        t.part.te = s.part.te ∧ t.part.board = s.part.board ∧ t.part.dir = s.part.dir ∧ t.part.jw = s.part.jw ∧
        (∀ (a : Nat) (u : FieldUnit), 1 ≤ a ∧ a ≤ 30 → s.part.unitAt a = some u → t.part.unitAt a = some (if u.link = .departing then u
          else FieldUnit.judgeGate s.part.run.clock { u with factors := { u.factors with line := true } })) ∧
        s.ShowsLine t true none) ∧
    (∀ c : Choice, s.part.line.choice = some c →
      (elapsed s.part.run.clock c.since < 2 ∨ 2 ≤ elapsed s.part.run.clock s.part.line.idleSince) → exec .notIdle s = .next s) ∧
    (∀ start : Word, s.part.line.fault = some start → s.part.run.drainEnded = false → 20 ≤ elapsed s.part.run.clock s.part.line.idleSince →
      ∃ t : State, exec .lineFaultEnd s = .next t ∧ t.pending = s.pending ∧ t.mem = s.mem ∧
        t.part.line = { s.part.line with fault := none } ∧ t.part.run = { s.part.run with lineFault := false } ∧
        s.Records t { kind := .lineFaultEnd, unit := 0, tag := 0, detail := 0, detailHigh := 0, word1 := s.part.run.clock - start, word2 := 0 } ∧
        t.part.te = s.part.te ∧ t.part.board = s.part.board ∧ t.part.dir = s.part.dir ∧ t.part.jw = s.part.jw ∧
        (∀ (a : Nat) (u : FieldUnit), 1 ≤ a ∧ a ≤ 30 → s.part.unitAt a = some u → t.part.unitAt a = some (if u.link = .departing then u
          else FieldUnit.judgeGate s.part.run.clock { u with factors := { u.factors with line := false } })) ∧
        s.ShowsLine t false none) ∧
    (s.part.line.choice = none → exec .notIdle s = .next s) ∧
    (s.part.line.fault = none ∨ s.part.run.drainEnded = true ∨ elapsed s.part.run.clock s.part.line.idleSince < 20 → exec .lineFaultEnd s = .next s)

/-- R65, R80, R87, R88, R64, R76, R77, R79: at commitment a choice that no longer stands is withdrawn; one that stands starts its turn with its head frame,
moves the round-robin position and the mark, and sets the due time, or makes the transaction SENDING under its token, the first free one after the last
assigned. R59, R191: LDIR is high from then on, and LTX carries the frame's bytes, each behind a low start bit, least significant bit first, before a high
stop bit. The idle check is judged by the readings (A11); which turns stand is the statement EligibilityAndTokensAreJudged. No two transactions share a take
sequence, which every step keeps (EveryStepKeepsSequencesBelow). -/
def Obligations.CommitmentStartsOrWithdrawsTheTurn : Prop :=
  ∀ (s : State) (c : Choice), s.part.line.choice = some c → s.Working → s.Settled → s.part.port.waiting = [] →
    (elapsed s.part.run.clock c.since ≤ 2 ∨ 2 ≤ elapsed s.part.run.clock s.part.line.idleSince) →
    (s.part.choiceStands c = false →
      exec .commitment s = .next { s with part := { s.part with line := { s.part.line with choice := none } } }) ∧
    (∀ u : FieldUnit, s.part.choiceStands c = true → s.Distinct → s.part.unitAt c.unit = some u → 1 ≤ c.unit ∧ c.unit ≤ 30 →
      ∃ (t : State) (frame : List Byte) (v : FieldUnit), exec .commitment s = .next t ∧
        t = { s with part := { s.part with um := t.part.um, te := t.part.te, line := { s.part.line with
          choice := none
          position := if c.cls = .urgent ∨ c.cls = .command then c.unit else s.part.line.position
          mark := if c.cls = .poll ∨ c.cls = .command then c.cls else s.part.line.mark
          turn := some { unit := c.unit, kind := c.kind, start := s.part.run.clock, replyWindow := u.params.replyWindow
                         burstLimit := u.params.burstLimit, streakMode := u.params.streakMode, frame := frame, phase := .sending, frames := 0
                         errors := 0, protocolLogged := false, resultHanded := false, answer := .noFrame } } } } ∧
        t.part.unitSlot c.unit = { s.part.unitSlot c.unit with place := some v } ∧ s.OtherUnits t c.unit ∧
        t.part.um.dismissWait = s.part.um.dismissWait ∧ t.ldir = true ∧
        (∀ i : Nat, i < frame.length → t.ltx (10 * i) = false ∧ (∀ j : Nat, j < 8 → t.ltx (10 * i + 1 + j) = (byteAt frame i).getLsbD j) ∧
          t.ltx (10 * i + 9) = true) ∧
        (∀ bit : Nat, 10 * frame.length ≤ bit → t.ltx bit = true) ∧
        (c.kind = .poll → frame = headFrame c.unit 1 (u.pendingAck.getD 0) 0 [] ∧ t.part.te = s.part.te ∧
          v = { u with pollDue := some (s.part.run.clock + wordOf (10 * u.params.pollInterval)), pollReady := false
                       lastPoll := some s.part.run.clock }) ∧
        (c.kind = .rollCall → frame = headFrame c.unit 3 0 0 [] ∧ t.part.te = s.part.te ∧
          v = { u with rollDue := some (s.part.run.clock + wordOf (100 * s.part.line.discovery)), rollReady := false }) ∧
        (∀ (seq : Nat) (x : Transaction), c.kind = .command seq → s.part.eligibleHead c.unit = some x → s.part.findTxn seq = some x →
          ∃ k : Nat, frame = headFrame c.unit 2 k x.command x.payload ∧
            t.part.te = { s.part.te with pool := s.part.te.pool.map fun y =>
              if y.seq = seq then { y with token := some k, sends := if y.sends < 255 then y.sends + 1 else 255, state := .sending } else y } ∧
            (∀ k', x.token = some k' → k = k' ∧ v = u) ∧
            (x.token = none → v = { u with lastToken := k } ∧
              ((s.part.tokensInUse c.unit u).length < 15 → k ∉ s.part.tokensInUse c.unit u ∧
                ∃ i : Nat, i < 15 ∧ k = (u.lastToken + i) % 15 + 1 ∧ ∀ j : Nat, j < i → (u.lastToken + j) % 15 + 1 ∈ s.part.tokensInUse c.unit u))))

/-- R66, R67, R74, R90, R29, R30, R45, R52, R96, R98, R104: the bytes read back are compared with the head frame. A byte behind others that came back as
sent, altered or with its stop bit low, begins a line fault with cause READBACK, whose record is written before the units' mirrors (A44) and from which idle
time is measured (A25), and ends the turn INTERRUPTED: the unit's turn is counted but its health is not, and the transaction goes back to PENDING with its
retry count; it finishes instead ABORTED where an ABORT waits for it, DEADLINE past its deadline, STOPPED after the end of the drain (with its token, send
count and Deferred flag, A38), DISMISSED with a DEPARTING unit, before the unit takes the report (A13). Such a unit is removed, and the DISMISS that waits
for it completes OK (behind the unit's mirror writes where these wait for room, A8). R52, R40: every other unit whose factor set changes has its mirror
rewritten, in ascending address order, and its bank bit handed on; the turn's unit has its own rewritten for the line fault, where what it shows has changed,
and again for the turn, and its bank bit is handed on where its gate or factors have changed; when it is removed it shows EMPTY. A drain with nothing left to
wait for ends behind it all (A15, DrainEndsAtOnceOrAtItsTimer). Bytes that came back as sent change nothing. It holds also where requests wait for what
finishes here: the row answers t settled, t the state with the row's own effect and what has finished noted in its order, and FinishedItemReleasesItsWaiter
says what Part.settle makes of t; where no request waits for a predecessor, the effect is also that of the state in which the finishes have been resolved. -/
def Obligations.ReadbackMismatchInterruptsTheTurn : Prop :=
  ∀ (s : State) (x : Turn) (good : Nat) (byte : Byte) (low : Bool), s.part.line.turn = some x → x.phase = .sending → good < x.frame.length →
    s.Working → s.Settled → s.PortRoom 4 0 →
    (byte = byteAt x.frame good → low = false → exec (.readback (x.frame.take good ++ [byte], low)) s = .next s) ∧
    (byte ≠ byteAt x.frame good ∨ low = true →
    ∃ t : State, exec (.readback (x.frame.take good ++ [byte], low)) s = .next (t.onPart Part.settle) ∧
      (s.Steady → t.onPart Part.settle = t.onPart Part.resolve) ∧ t.pending = s.pending ∧ t.mem = s.mem ∧
      (∀ (seq : Nat) (y : Transaction) (u : FieldUnit) (late : Bool), x.kind = .command seq → s.part.findTxn seq = some y →
        s.part.unitAt y.unit = some u → 1 ≤ y.unit ∧ y.unit ≤ 30 → (late = true ↔ ∃ d, y.deadline = some d ∧ reached s.part.run.clock d = true) →
        (u.link ≠ .departing → y.abortRequested = false → late = false → s.part.run.drainEnded = false →
          s.Finished t (s.dismissFinish t x.unit) ∧ ∀ r : State, s.ResolvedOrNot t r →
            r.part.te = { s.part.te with pool := s.part.te.pool.map fun z => if z.seq = seq then { z with state := .pending } else z }) ∧
        (∀ o : ReqOutcome,
          (u.link = .departing ∧ o = .dismissed ∨ u.link ≠ .departing ∧ y.abortRequested = true ∧ o = .aborted ∨
            u.link ≠ .departing ∧ y.abortRequested = false ∧ late = true ∧ o = .deadline ∨
            u.link ≠ .departing ∧ y.abortRequested = false ∧ late = false ∧ s.part.run.drainEnded = true ∧ o = .stopped) →
          t.part.te.syncs = s.part.te.syncs ∧
          (s.EndsApart seq → s.Finished t (⟨seq, false, true⟩ :: (s.abortFinishes seq ++ s.dismissFinish t x.unit))) ∧
          ∀ r : State, s.ResolvedOrNot t r →
          r.part.te.pool = s.part.te.pool.filter (fun z => z.seq != seq) ∧
          (y.origin.isSome = true → s.Completes r seq (y.result { outcome := o })) ∧
          (y.origin = none → y.abortRequested = false → s.FailsLate r y o []) ∧
          (∀ w ∈ r.part.te.aborts, w.target ≠ seq) ∧
          (∀ w ∈ s.part.te.aborts, w.target = seq → w.seq ≠ seq → (∀ z ∈ s.part.te.syncs, z.seq ≠ w.seq) →
            s.Completes r w.seq { outcome := .ok, fields := [1, 1, o.code] }))) ∧
      (x.kind = .poll ∨ x.kind = .rollCall → s.Finished t (s.dismissFinish t x.unit)) ∧
      ∀ r : State, s.ResolvedOrNot t r →
      r.part.line = { s.part.line with turn := none, choice := none, fault := some s.part.run.clock, idleSince := s.part.run.clock } ∧
      r.part.run = { s.part.run with lineFault := true } ∧
      s.part.port.fifo ++ faultWrites s.part.base s.part.svc.ringIndex s.part.svc.nextFault
        { kind := .lineFaultBegin, unit := x.unit, tag := 0, detail := 2, detailHigh := 0, word1 := wordOf x.kind.frameCode
          word2 := wordOf good } s.part.run.clock <+: r.part.port.fifo ∧
      (∀ u : FieldUnit, 1 ≤ x.unit ∧ x.unit ≤ 30 → s.part.unitAt x.unit = some u → u.link ≠ .departing →
        ∃ v, r.part.unitAt x.unit = some v ∧
          v = FieldUnit.takeTurn x.kind .interrupted s.part.run.clock
            (FieldUnit.judgeGate s.part.run.clock { u with factors := { u.factors with line := true } }) ∧ v.link = u.link ∧ v.factors.line = true ∧
              v.turns = u.turns + 1 ∧ v.cleanTurns = u.cleanTurns ∧
          v.erroredTurns = u.erroredTurns ∧ v.noAnswers = u.noAnswers ∧ v.streak = u.streak ∧ v.missed = u.missed ∧ v.cleanRun = u.cleanRun ∧
          (∀ (first : List Access) (version : BitVec 64),
            first = s.unitMirror x.unit (some (FieldUnit.judgeGate s.part.run.clock { u with factors := { u.factors with line := true } })) →
            version = (s.part.unitSlot x.unit).version + (if first = [] then 0 else 2) →
            (r.part.unitSlot x.unit).version = version + 2 ∧
            List.Sublist (first ++ mirrorWrites (unitMirrorAddr s.part.base x.unit) version (unitBody (some v))) r.part.port.outstanding) ∧
          (u.link ≠ v.link ∨ u.gate ≠ v.gate ∨ u.factors ≠ v.factors → s.HandsBit r .unitManager .unit x.unit)) ∧
      s.ShowsLine r true (some x.unit) ∧
      (∀ (a : Nat) (u : FieldUnit), 1 ≤ a ∧ a ≤ 30 → a ≠ x.unit → s.part.unitAt a = some u → r.part.unitAt a = some (if u.link = .departing then u
        else FieldUnit.judgeGate s.part.run.clock { u with factors := { u.factors with line := true } })) ∧
      (x.kind = .poll ∨ x.kind = .rollCall → r.part.te = s.part.te) ∧
      (∀ u : FieldUnit, 1 ≤ x.unit ∧ x.unit ≤ 30 → s.part.unitAt x.unit = some u → u.link = .departing →
        r.part.unitAt x.unit = none ∧ s.ShowsEmpty r x.unit (s.part.unitSlot x.unit).version ∧ s.HandsBit r .unitManager .unit x.unit ∧
        (∀ (d : WaitingDismiss) (ended : Nat), s.part.um.dismissWait = some d → d.unit = x.unit →
          ((x.kind = .poll ∨ x.kind = .rollCall) ∧ ended = d.ended ∨
            (∃ (seq : Nat) (y : Transaction), x.kind = .command seq ∧ s.part.findTxn seq = some y ∧ y.unit = x.unit ∧ d.seq ≠ seq) ∧
              (∀ w ∈ s.part.te.aborts, w.seq ≠ d.seq) ∧ (∀ z ∈ s.part.te.syncs, z.seq ≠ d.seq) ∧ ended = d.ended + 1) →
          r.part.um.dismissWait = none ∧
          s.CompletesOrWaits r .unitManager d.seq { outcome := .ok, fields := [byteOf d.retired, byteOf ended] })))

/-- R61, R63, R71, R72, R73: a header check that fails ends the turn with an error counted, a command turn as one with a garbled answer
(CommandTurnIsSettled says how it is settled); a good header that is no protocol error begins the frame's body; a
protocol error is counted, and the first of a turn is logged. A frame is the protocol error of the first kind that applies: SOURCE, DESTINATION, KIND, LENGTH,
TOKEN, CODE, EXCESS. -/
def Obligations.HeaderCheckIsJudged : Prop :=
  ∀ (s : State) (x : Turn) (bytes : List Byte) (low : Bool), s.part.line.turn = some x → x.phase = .header → s.Settled → s.PortRoom 4 0 →
    (∀ u : FieldUnit, goodHeader bytes low = none → x.kind = .poll ∨ x.kind = .rollCall → x.answer ≠ .interrupted → x.frames ≠ 0 →
      1 ≤ x.unit ∧ x.unit ≤ 30 → s.part.unitAt x.unit = some u → u.link ≠ .departing →
      ∃ t : State, exec (.frameHeader bytes low) s = .next t ∧ t.pending = s.pending ∧ t.mem = s.mem ∧ t.part.run = s.part.run ∧
        t.part.line = { s.part.line with turn := none, idleSince := s.part.run.clock } ∧
        t.part.unitAt x.unit = some (u.takeTurn x.kind .errored s.part.run.clock) ∧ s.OtherUnits t x.unit ∧
        t.part.te = s.part.te ∧ t.part.board = s.part.board ∧ t.part.dir = s.part.dir ∧ t.part.jw = s.part.jw) ∧
    (∀ seq : Nat, goodHeader bytes low = none → x.kind = .command seq →
      ∃ t : State, exec (.frameHeader bytes low) s = .next t ∧ t.pending = s.pending ∧ t.mem = s.mem ∧ t.part.line.turn = none ∧
        s.EndsTurn (.frameHeader bytes low)
          { x with errors := x.errors + 1, answer := if x.kind.isCommand = true ∧ x.frames = 1 then .garbled else x.answer }) ∧
    (∀ h : FrameHeader, goodHeader bytes low = some h → x.protocolError h = none →
      (∀ u, s.part.unitAt x.unit = some u → u.generation = none ∨ u.generation = some h.gen ∨ u.link = .departing) →
      exec (.frameHeader bytes low) s = .next { s with part := { s.part with
        line := { s.part.line with turn := some { x with phase := .body h none false } } } }) ∧
    (∀ (h : FrameHeader) (e : ProtocolError), goodHeader bytes low = some h → x.protocolError h = some e →
      ∃ t : State, exec (.frameHeader bytes low) s = .next t ∧
        t = { s with part := { s.part with
          svc := t.part.svc, port := t.part.port
          line := { s.part.line with turn := some { x with
            errors := x.errors + 1
            protocolLogged := true
            answer := if x.kind.isCommand = true ∧ x.frames = 1 then .garbled else x.answer
            phase := .body h (some e) (if x.kind = .poll then decide (x.burstLimit < x.frames) else decide (1 < x.frames)) } } } } ∧
        (x.protocolLogged = true → t.part.svc = s.part.svc ∧ t.part.port = s.part.port) ∧
        (x.protocolLogged = false →
          s.Records t { kind := .protocol, unit := x.unit, tag := 0, detail := e.number, detailHigh := 0, word1 := h.kind.setWidth 32
                        word2 := wordOf x.frames })) ∧
    (∀ (h : FrameHeader) (kind length token code : Prop) (sent : BitVec 4),
      (∀ seq : Nat, x.kind = .command seq → ∃ (command : Nat) (payload : List Byte), x.frame = headFrame x.unit 2 sent.toNat command payload) →
      (kind ↔ (x.kind = .poll ∧ h.kind.toNat ∈ [8, 9, 13]) ∨ ((∃ seq, x.kind = .command seq) ∧ h.kind.toNat ∈ [10, 11, 12]) ∨
        (x.kind = .rollCall ∧ h.kind.toNat = 14 ∧ x.frames = 1)) →
      (length ↔ h.len.toNat ≤ 24 ∧ (h.kind.toNat = 9 ∨ h.kind.toNat = 12 → h.len = 0) ∧ (h.kind.toNat = 11 → h.len = 1) ∧
        (h.kind.toNat = 14 → h.len = 3)) →
      (token ↔ ∀ seq : Nat, x.kind = .command seq → h.token = sent) →
      (code ↔ (h.kind.toNat = 13 → h.code.toNat ≤ 1 ∧ h.token ≠ 0)) →
      (h.src.toNat ≠ x.unit → x.protocolError h = some .source) ∧
      (h.src.toNat = x.unit → h.dst ≠ 0 → x.protocolError h = some .destination) ∧
      (h.src.toNat = x.unit → h.dst = 0 →
        (¬ kind → x.protocolError h = some .kind) ∧
        (kind → ¬ length → x.protocolError h = some .length) ∧
        (kind → length → ¬ token → x.protocolError h = some .token) ∧
        (kind → length → token → ¬ code → x.protocolError h = some .code) ∧
        (kind → length → token → code → h.kind.toNat ≠ 9 → (if x.kind = .poll then x.burstLimit else 1) < x.frames →
          x.protocolError h = some .excess) ∧
        (kind → length → token → code → h.kind.toNat = 9 ∨ x.frames ≤ (if x.kind = .poll then x.burstLimit else 1) →
          x.protocolError h = none)))

/-- R37 to R39, R22, R50, R98, R105, R164: a good header with another generation changes the unit: UNIT_CHANGED is logged, the gate gets the CHANGED event,
DEFERRED transactions end UNIT_CHANGED with the tokens dropped, those reported ACCEPTED with a LATE_FAILURE record behind UNIT_CHANGED, every other
transaction stays, and the entries under change policy CLEAR are cleared. R40, R14, R13: the unit's mirror is rewritten in every case, where there is room
behind the record, and its bank bit handed on; it is rewritten again where the notice has dropped a last accepted token. A cleared entry's mirror is
rewritten where what it shows has changed, and its bank bit handed on where it was FRESH or STALE and its notify mode is not NONE. The Transaction Engine
acts on the notice first (A36); while the record and the unit's mirror wait for room, the notice waits behind them (A8). A drain with nothing left to wait
for ends behind it all (A15, DrainEndsAtOnceOrAtItsTimer). It holds also where requests wait for what finishes here: the row answers t settled, t the state
with the row's own effect and what has finished noted in its order, and FinishedItemReleasesItsWaiter says what Part.settle makes of t; where no request
waits for a predecessor, the effect is also that of the state in which the finishes have been resolved. -/
def Obligations.GenerationChangeActsOnTheUnit : Prop :=
  ∀ (s : State) (x : Turn) (h : FrameHeader) (u : FieldUnit) (old : BitVec 3) (bytes : List Byte) (low : Bool),
    s.part.line.turn = some x → x.phase = .header → goodHeader bytes low = some h → x.protocolError h = none → 1 ≤ x.unit ∧ x.unit ≤ 30 →
    s.part.unitAt x.unit = some u → u.link ≠ .departing → u.generation = some old → old ≠ h.gen → s.Working → s.Settled → s.Distinct →
    s.part.port.waiting = [] →
    ∃ t : State, exec (.frameHeader bytes low) s = .next (t.onPart Part.settle) ∧
      (s.Steady → t.onPart Part.settle = t.onPart Part.resolve) ∧ t.pending = s.pending ∧ t.mem = s.mem ∧
      (t.part.port.later ≠ [] → s.Finished t []) ∧
      (t.part.port.later = [] → t.part.te.syncs = s.part.te.syncs ∧
        s.Finished t ((s.part.te.pool.filter fun y => y.unit == x.unit && y.state == .deferred).map fun y => ⟨y.seq, false, true⟩)) ∧
      ∀ r : State, s.ResolvedOrNot t r →
      r.part.run = s.part.run ∧
      r.part.line = { s.part.line with turn := some { x with phase := .body h none false } } ∧ r.part.jw = s.part.jw ∧ s.OtherUnits r x.unit ∧
      (s.PortRoom 4 0 → s.part.port.fifo ++ faultWrites s.part.base s.part.svc.ringIndex s.part.svc.nextFault
        { kind := .unitChanged, unit := x.unit, tag := 0, detail := 0, detailHigh := 0, word1 := old.setWidth 32, word2 := h.gen.setWidth 32 }
        s.part.run.clock <+: r.part.port.fifo) ∧
      s.Logs r { kind := .unitChanged, unit := x.unit, tag := 0, detail := 0, detailHigh := 0, word1 := old.setWidth 32
                 word2 := h.gen.setWidth 32 } ∧
      (s.PortRoom 7 1 → r.part.port.later = [] ∧
        s.part.port.fifo ++ faultWrites s.part.base s.part.svc.ringIndex s.part.svc.nextFault
            { kind := .unitChanged, unit := x.unit, tag := 0, detail := 0, detailHigh := 0, word1 := old.setWidth 32, word2 := h.gen.setWidth 32 }
            s.part.run.clock ++
          mirrorWrites (unitMirrorAddr s.part.base x.unit) (s.part.unitSlot x.unit).version
            (unitBody (some (FieldUnit.changedEvent s.part.run.clock { u with generation := some h.gen }))) ++
          s.part.bankBitRead .unit x.unit <+: r.part.port.fifo) ∧
      (∀ (v : FieldUnit) (again : List Access), v = FieldUnit.changedEvent s.part.run.clock { u with generation := some h.gen } →
        again = (if r.part.port.later ≠ [] ∨ u.lastAccepted = none then []
          else mirrorWrites (unitMirrorAddr s.part.base x.unit) ((s.part.unitSlot x.unit).version + 2) (unitBody (some { v with lastAccepted := none }))) →
        (r.part.unitSlot x.unit).version = (s.part.unitSlot x.unit).version + (if again = [] then 2 else 4) ∧
        List.Sublist
          (mirrorWrites (unitMirrorAddr s.part.base x.unit) (s.part.unitSlot x.unit).version (unitBody (some v)) ++ again)
          r.part.port.outstanding ∧
        s.HandsBit r .unitManager .unit x.unit) ∧
      (r.part.port.later ≠ [] → r.part.port.later = [.unitChange x.unit] ∧ r.part.port.waiting ≠ [] ∧ r.part.te = s.part.te ∧ r.part.dir = s.part.dir ∧
        r.part.unitAt x.unit = some (FieldUnit.changedEvent s.part.run.clock { u with generation := some h.gen })) ∧
      (r.part.port.later = [] →
        r.part.unitAt x.unit = some { FieldUnit.changedEvent s.part.run.clock { u with generation := some h.gen } with
          reservations := [], pendingAck := none, lastAccepted := none } ∧
        r.part.te.pool = s.part.te.pool.filter (fun y => !(y.unit == x.unit && y.state == .deferred)) ∧
        (∀ y ∈ s.part.te.pool, y.unit = x.unit → y.state = .deferred → y.origin = none → s.FailsLate r y .unitChanged []) ∧
        ((∀ y ∈ s.part.te.pool, y.unit = x.unit → y.state = .deferred → y.origin ≠ none) →
          r.part.svc.ringIndex = (s.part.svc.ringIndex + 1) % 32) ∧
        (∀ y : Transaction, s.part.findTxn y.seq = some y → y.unit = x.unit → y.state = .deferred → y.origin.isSome = true →
          s.Completes r y.seq (y.result { outcome := .unitChanged })) ∧
        (∀ (i : Nat) (e : Entry), s.part.entryAt i = some e → r.part.entryAt i = some (
          if e.key.unit = x.unit ∧ e.policies.change = .clear then
            { e with content := none, state := .awaiting, firstAfterChange := true
                     staleTimer := if e.policies.maxInterval = 0 then none else some s.part.run.clock }
          else e) ∧
          (e.key.unit = x.unit ∧ e.policies.change = .clear → s.RewritesEntry r i (r.part.entryAt i) ∧
            (e.state ≠ .awaiting → e.policies.notify ≠ .never → s.HandsBit r .directoryEngine .directory i))) ∧
        (∀ i : Nat, (∀ e, s.part.entryAt i = some e → ¬ (e.key.unit = x.unit ∧ e.policies.change = .clear)) →
          r.part.entrySlot i = s.part.entrySlot i))

/-- R64, R68, R74, R75, R29, R40, R45: the end of a poll or roll-call turn frees the line; its unit is told the outcome and its mirror rewritten, and its
bank bit follows where its link state, gate or factors have changed; a DEPARTING unit is removed, its mirror shows EMPTY and its bank bit is handed on, where
there is room behind the mirror writes, and the DISMISS that waits for it completes OK with its counts, behind the unit's mirror writes where these wait for
room (A8). Windows and gaps are judged by the readings (A11), and the Transaction Engine settles a command before the unit counts its turn (A13). A drain
that waited for the DISMISS alone ends behind it (A15, DrainEndsAtOnceOrAtItsTimer). It holds also where requests wait for that DISMISS: the row answers t
settled, t the state in which it has finished, and FinishedItemReleasesItsWaiter says what Part.settle makes of t; where no request waits for a predecessor,
the effect is also that of the state in which the finish has been resolved. -/
def Obligations.TurnEndIsReportedToTheUnit : Prop :=
  ∀ (s : State) (c : Instr) (x : Turn) (u : FieldUnit), s.EndsTurn c x → x.kind = .poll ∨ x.kind = .rollCall → x.answer ≠ .interrupted →
    1 ≤ x.unit ∧ x.unit ≤ 30 → s.part.unitAt x.unit = some u → s.part.port.waiting = [] →
    (∀ v : FieldUnit, u.link ≠ .departing → s.Settled →
      v = u.takeTurn x.kind (if x.frames = 0 then .noAnswer else if x.errors = 0 then .clean else .errored) s.part.run.clock →
      ∃ t : State, exec c s = .next t ∧ t.pending = s.pending ∧ t.mem = s.mem ∧ t.part.run = s.part.run ∧
        t.part.line = { s.part.line with turn := none, idleSince := s.part.run.clock } ∧
        t.part.unitAt x.unit = some v ∧ s.OtherUnits t x.unit ∧
        t.part.te = s.part.te ∧ t.part.board = s.part.board ∧ t.part.dir = s.part.dir ∧ t.part.jw = s.part.jw ∧
        List.Sublist (mirrorWrites (unitMirrorAddr s.part.base x.unit) (s.part.unitSlot x.unit).version (unitBody (some v))) t.part.port.outstanding ∧
        (s.PortRoom 3 1 →
          s.Raised t (mirrorWrites (unitMirrorAddr s.part.base x.unit) (s.part.unitSlot x.unit).version (unitBody (some v)) ++
            if u.link = v.link ∧ u.gate = v.gate ∧ u.factors = v.factors then [] else s.part.bankBitRead .unit x.unit) ∧
          t.part.svc.bankQueue = s.part.svc.bankQueue ++
            if u.link = v.link ∧ u.gate = v.gate ∧ u.factors = v.factors then [] else [.update s.part.svc.activeBank .unit x.unit])) ∧
    (u.link = .departing → s.Working → s.Settled →
      ∃ t : State, exec c s = .next (t.onPart Part.settle) ∧ (s.Steady → t.onPart Part.settle = t.onPart Part.resolve) ∧
        t.pending = s.pending ∧ t.mem = s.mem ∧ s.Finished t (s.dismissFinish t x.unit) ∧ ∀ r : State, s.ResolvedOrNot t r →
        r.part.run = s.part.run ∧
        r.part.line = { s.part.line with turn := none, idleSince := s.part.run.clock } ∧
        r.part.unitAt x.unit = none ∧ s.OtherUnits r x.unit ∧ r.part.te = s.part.te ∧ r.part.dir = s.part.dir ∧ r.part.jw = s.part.jw ∧
        s.ShowsEmpty r x.unit (s.part.unitSlot x.unit).version ∧ s.HandsBit r .unitManager .unit x.unit ∧
        (s.PortRoom 3 1 →
          s.part.port.fifo ++ mirrorWrites (unitMirrorAddr s.part.base x.unit) (s.part.unitSlot x.unit).version (unitBody none) ++
            s.part.bankBitRead .unit x.unit <+: r.part.port.fifo ∧
          r.part.svc.bankQueue = s.part.svc.bankQueue ++ [.update s.part.svc.activeBank .unit x.unit]) ∧
        (∀ d : WaitingDismiss, s.part.um.dismissWait = some d → d.unit = x.unit →
          r.part.um.dismissWait = none ∧
          s.CompletesOrWaits r .unitManager d.seq { outcome := .ok, fields := [byteOf d.retired, byteOf d.ended] } ∧
          (s.PortRoom 3 0 → s.Completes r d.seq { outcome := .ok, fields := [byteOf d.retired, byteOf d.ended] })) ∧
        ((∀ d : WaitingDismiss, s.part.um.dismissWait = some d → d.unit ≠ x.unit) → r.part.um.dismissWait = s.part.um.dismissWait))

/-- R69, R71, R90, R91, R92, R98, R104, R29, R30, R44, R45, R75, R89: the end of a command turn, by a header check failure as well, settles its transaction
by the first line of the table that applies, its result part with token, send count and Deferred flag, STOPPED among the outcomes (A38); the ABORTs that
waited for it complete with the effect the settlement gives, and a transaction reported ACCEPTED that fails is logged as LATE_FAILURE unless an ABORT ended
it. Then the unit counts the turn with its outcome (A13), with the reservation the settlement left, its mirror is rewritten, and its bank bit is handed on
where its link state, gate or factors have changed; a DEPARTING unit is removed instead, its mirror showing EMPTY and its bank bit handed on, and the DISMISS
that waits for it completes OK, the settled transaction among those it has ended (behind the unit's mirror writes where these wait for room, A8). A drain
with nothing left to wait for ends behind it all (A15, DrainEndsAtOnceOrAtItsTimer). It holds also where requests wait for what finishes here: the row
answers t settled, t the state with the row's own effect and what has finished noted in its order, and FinishedItemReleasesItsWaiter says what Part.settle
makes of t; where no request waits for a predecessor, the effect is also that of the state in which the finishes have been resolved. -/
def Obligations.CommandTurnIsSettled : Prop :=
  ∀ (s : State) (c : Instr) (x : Turn) (u : FieldUnit) (seq : Nat) (y : Transaction) (late : Bool), s.EndsTurn c x → x.kind = .command seq →
    s.part.findTxn seq = some y → y.unit = x.unit → 1 ≤ x.unit ∧ x.unit ≤ 30 → s.part.unitAt x.unit = some u → x.answer ≠ .interrupted → s.Working →
    s.Settled → s.part.port.waiting = [] → (late = true ↔ ∃ d, y.deadline = some d ∧ reached s.part.run.clock d = true) →
    ∃ t : State, exec c s = .next (t.onPart Part.settle) ∧ (s.Steady → t.onPart Part.settle = t.onPart Part.resolve) ∧
      t.pending = s.pending ∧ t.mem = s.mem ∧
      (∀ (o : ReqOutcome) (payload : List Byte) (reason : Byte),
        (u.link = .departing ∧ o = .dismissed ∧ payload = [] ∧ reason = 0 ∨
         u.link ≠ .departing ∧ x.answer = .reply payload ∧ o = .ok ∧ reason = 0 ∨
         u.link ≠ .departing ∧ x.answer = .refuse reason ∧ o = .unitRefused ∧ payload = [] ∨
         u.link ≠ .departing ∧ (x.answer = .defer ∨ x.answer = .garbled ∨ x.answer = .noFrame) ∧ payload = [] ∧ reason = 0 ∧
           (y.abortRequested = true ∧ o = .aborted ∨ y.abortRequested = false ∧ late = true ∧ o = .deadline ∨
            y.abortRequested = false ∧ late = false ∧ s.part.run.drainEnded = true ∧ o = .stopped ∨
            y.abortRequested = false ∧ late = false ∧ s.part.run.drainEnded = false ∧ x.answer ≠ .defer ∧ u.params.retryLimit < y.retries + 1 ∧
              o = .noAnswer)) →
        t.part.te.syncs = s.part.te.syncs ∧
        (s.EndsApart seq → s.Finished t (⟨seq, o == .ok, true⟩ :: (s.abortFinishes seq ++ s.dismissFinish t x.unit))) ∧
        ∀ r : State, s.ResolvedOrNot t r →
        r.part.te.pool = s.part.te.pool.filter (fun z => z.seq != seq) ∧
        (y.origin.isSome = true → s.Completes r seq (y.result { outcome := o, payload := payload, reason := reason })) ∧
        (y.origin = none → o ≠ .ok → y.abortRequested = false ∨ o = .unitRefused →
          s.FailsLate r y o (if o = .unitRefused then [reason] else payload)) ∧
        (y.origin.isSome = true ∨ o = .ok ∨ o = .aborted ∨ o = .dismissed ∧ y.abortRequested = true → s.LogsNothing r) ∧
        (∀ w ∈ r.part.te.aborts, w.target ≠ seq) ∧
        (∀ w ∈ s.part.te.aborts, w.target = seq → w.seq ≠ seq → (∀ z ∈ s.part.te.syncs, z.seq ≠ w.seq) →
          s.Completes r w.seq { outcome := .ok, fields := [if o = .ok ∨ o = .unitRefused then 2 else 1, 1, o.code] })) ∧
      (u.link ≠ .departing → x.answer = .defer → y.abortRequested = false → late = false → s.part.run.drainEnded = false →
        s.Finished t [] ∧ ∀ r : State, s.ResolvedOrNot t r → r.part.te = { s.part.te with pool := s.part.te.pool.map fun z => if z.seq = seq then
          { z with state := .deferred, everDeferred := true
                   deferExpiry := some (s.part.run.clock + wordOf (100 * u.params.deferLimit)) } else z }) ∧
      (u.link ≠ .departing → x.answer = .garbled ∨ x.answer = .noFrame → y.abortRequested = false → late = false → s.part.run.drainEnded = false →
        y.retries + 1 ≤ u.params.retryLimit →
        s.Finished t [] ∧ ∀ r : State, s.ResolvedOrNot t r → r.part.te = { s.part.te with pool := s.part.te.pool.map fun z => if z.seq = seq then
          { z with state := .pending, retries := z.retries + 1 } else z }) ∧
      ∀ r : State, s.ResolvedOrNot t r →
      r.part.run = s.part.run ∧
      r.part.line = { s.part.line with turn := none, idleSince := s.part.run.clock } ∧ r.part.dir = s.part.dir ∧ r.part.jw = s.part.jw ∧
      s.OtherUnits r x.unit ∧
      (∀ (reserve : Option Nat) (v : FieldUnit), u.link ≠ .departing →
        reserve = (if x.answer = .defer ∧ (y.abortRequested = true ∨ late = true) ∧ s.part.run.drainEnded = false ∧
          reached s.part.run.clock (s.part.run.clock + wordOf (100 * u.params.deferLimit)) = false then y.token else none) →
        v = u.takeTurn x.kind (if x.frames = 0 then .noAnswer else if x.errors = 0 then .clean else .errored) s.part.run.clock →
        r.part.unitAt x.unit = some { v with reservations := u.reservations ++ reserve.toList.map fun k =>
          { token := k, tag := y.tag, expiry := s.part.run.clock + wordOf (100 * u.params.deferLimit) } } ∧
        List.Sublist (mirrorWrites (unitMirrorAddr s.part.base x.unit) (s.part.unitSlot x.unit).version (unitBody (some v)))
          r.part.port.outstanding ∧
        (r.part.unitSlot x.unit).version = (s.part.unitSlot x.unit).version + 2 ∧
        (u.link ≠ v.link ∨ u.gate ≠ v.gate ∨ u.factors ≠ v.factors → s.HandsBit r .unitManager .unit x.unit) ∧
        (u.link = v.link → u.gate = v.gate → u.factors = v.factors → r.part.svc.bankQueue = s.part.svc.bankQueue) ∧
        r.part.um.dismissWait = s.part.um.dismissWait) ∧
      (u.link = .departing → r.part.unitAt x.unit = none ∧
        s.ShowsEmpty r x.unit (s.part.unitSlot x.unit).version ∧ s.HandsBit r .unitManager .unit x.unit ∧
        (∀ d : WaitingDismiss, s.part.um.dismissWait = some d → d.unit = x.unit → d.seq ≠ seq → (∀ w ∈ s.part.te.aborts, w.seq ≠ d.seq) →
          r.part.um.dismissWait = none ∧
          s.CompletesOrWaits r .unitManager d.seq { outcome := .ok, fields := [byteOf d.retired, byteOf (d.ended + 1)] } ∧
          (s.PortRoom 9 0 → s.Completes r d.seq { outcome := .ok, fields := [byteOf d.retired, byteOf (d.ended + 1)] })) ∧
        ((∀ d : WaitingDismiss, s.part.um.dismissWait = some d → d.unit ≠ x.unit) → r.part.um.dismissWait = s.part.um.dismissWait))

/-- R6 to R14, R40, R41: a REPORT with good checks is an arrival: stored into its entry, judged early by the chatter guard, admitted at the lowest vacant
number, or counted as an unadmitted record, which rewrites the unit's mirror whatever the count; an arrival of a DEPARTING unit is discarded. The mirror of
what has changed is rewritten once; the bank bit follows where the stored arrival notifies (always under ALL, under CHANGE where the entry was not FRESH or
the content differs, never under NONE), where the admitted entry's mode is not NONE, and where the unit's count leaves 0. The total of unadmitted records is
written behind the unit's mirror (A42), a journal record behind the entry's (A43). It holds also where requests wait for the LEND of a page that the record
closes: the row answers t settled, t the state with the row's own effect and what has finished noted, and FinishedItemReleasesItsWaiter says what Part.settle
makes of t; where no request waits for a predecessor, the effect is also that of the state in which the finishes have been resolved. -/
def Obligations.ReportIsTakenAsAnArrival : Prop :=
  ∀ (s : State) (x : Turn) (h : FrameHeader) (bytes payload : List Byte) (u : FieldUnit) (key : Key), s.InFrame x h 8 →
    goodPayload h.len.toNat bytes = some payload → s.part.unitAt x.unit = some u → 1 ≤ x.unit ∧ x.unit ≤ 30 → s.Settled →
    s.part.port.waiting = [] → key = { unit := x.unit, kind := h.code.toNat } →
    ∃ t : State, exec (.report bytes) s = .next (t.onPart Part.settle) ∧
      (s.NoneWaits ∨ s.Steady → t.onPart Part.settle = t.onPart Part.resolve) ∧ t.pending = s.pending ∧ t.mem = s.mem ∧
      (∃ ended : List Finish, s.Finished t ended ∧ ∀ f ∈ ended, f.transaction = false ∧ ∃ g ∈ s.part.jw.pages, f.seq = g.seq) ∧
      ∀ r : State, s.ResolvedOrNot t r →
      r.part.run = s.part.run ∧ r.part.te = s.part.te ∧
      r.part.line = { s.part.line with turn := some { x with phase := .gap s.part.run.clock } } ∧ s.OtherUnits r x.unit ∧
      (u.link = .departing → r.part = { s.part with line := r.part.line }) ∧
      (∀ (m : Nat) (e : Entry) (early : Bool), u.link ≠ .departing → s.part.findEntry key = some m → s.part.entryAt m = some e →
        (early = true ↔ e.policies.minInterval ≠ 0 ∧ e.firstAfterChange = false ∧
          ∃ last, e.lastArrival = some last ∧ elapsed s.part.run.clock last < 10 * e.policies.minInterval.toNat) →
        r.part.um = s.part.um ∧ s.OtherEntries r m ∧
        (early = true → e.policies.early = .drop → r.part.jw = s.part.jw ∧
          r.part.entryAt m = some { e with chatter := if e.chatter = 0xFFFF then 0xFFFF else e.chatter + 1 } ∧
          (s.PortRoom 4 1 → s.MirrorsEntry r m (some { e with chatter := if e.chatter = 0xFFFF then 0xFFFF else e.chatter + 1 }) false)) ∧
        (∀ chatter : Half, early = true ∧ e.policies.early = .keep ∧ chatter = (if e.chatter = 0xFFFF then 0xFFFF else e.chatter + 1) ∨
            early = false ∧ chatter = e.chatter →
          ∃ (interval : Option Half) (e' : Entry) (notify : Bool),
            e' = { e with
              content := some payload, arrivals := e.arrivals + 1, chatter := chatter, lastInterval := interval
              lastArrival := some s.part.run.clock, state := .fresh, firstAfterChange := false
              staleTimer := if e.policies.maxInterval = 0 then none else some s.part.run.clock } ∧
            r.part.entryAt m = some e' ∧
            (e.lastArrival = none → interval = none) ∧
            (∀ last, e.lastArrival = some last → ∃ d : Half, interval = some d ∧ d.toNat = min (elapsed s.part.run.clock last) 65535) ∧
            (notify = true ↔ e.policies.notify = .all ∨ e.policies.notify = .change ∧ (e.state ≠ .fresh ∨ e.content ≠ some payload)) ∧
            (s.PortRoom 4 1 → s.MirrorsEntry r m (some e') notify))) ∧
      (∀ (m : Nat) (e' : Entry), u.link ≠ .departing → s.part.findEntry key = none → s.part.dir.autoAdmission = true → s.part.vacantEntry = some m →
        e' = { key := key, origin := .admitted, state := .fresh, content := some payload, policies := s.part.dir.defaults, arrivals := 1, chatter := 0
               lastArrival := some s.part.run.clock, lastInterval := none, firstAfterChange := false
               staleTimer := if s.part.dir.defaults.maxInterval = 0 then none else some s.part.run.clock } →
        r.part.um = s.part.um ∧ s.OtherEntries r m ∧ r.part.entryAt m = some e' ∧
        (s.PortRoom 4 1 → s.MirrorsEntry r m (some e') (s.part.dir.defaults.notify != .never))) ∧
      (∀ v : FieldUnit, u.link ≠ .departing → s.part.findEntry key = none → (s.part.dir.autoAdmission = false ∨ s.part.vacantEntry = none) →
        v = { u with unadmitted := if u.unadmitted < 65535 then u.unadmitted + 1 else 65535 } →
        r.part.dir = s.part.dir ∧ r.part.jw = s.part.jw ∧ r.part.svc.unadmitted = s.part.svc.unadmitted + 1 ∧ r.part.unitAt x.unit = some v ∧
        List.Sublist (mirrorWrites (unitMirrorAddr s.part.base x.unit) (s.part.unitSlot x.unit).version (unitBody (some v))) r.part.port.outstanding ∧
        (s.PortRoom 4 1 →
          s.Raised r (mirrorWrites (unitMirrorAddr s.part.base x.unit) (s.part.unitSlot x.unit).version (unitBody (some v)) ++
            (if u.unadmitted = 0 then s.part.bankBitRead .unit x.unit else []) ++
            [.write (s.part.base + 0x58) (le32 (s.part.svc.unadmitted + 1)) .silent]) ∧
          r.part.svc.bankQueue = s.part.svc.bankQueue ++
            if u.unadmitted = 0 then [.update s.part.svc.activeBank .unit x.unit] else []))

/-- R15, R8, R11, R146, R156, R157, R161: an arrival stored into an entry with the journal policy, kept early or admitted as well, is appended to the open
page when it fits. When it does not, the page completes OK with its fields and the record is the first of the next page that is not withdrawn, or is lost and
counted, as when no page is lent. The record is handed on behind the entry's mirror writes and bank bit (A43), and where there is room the first write that
it brings about stands behind theirs; where they wait for room, it waits behind them (A8). It holds also where requests wait for what finishes here: the row
answers t settled, t the state with the row's own effect and what has finished noted in its order, and FinishedItemReleasesItsWaiter says what Part.settle
makes of t; where no request waits for a predecessor, the effect is also that of the state in which the finishes have been resolved. -/
def Obligations.StoredArrivalIsJournaledOrLost : Prop :=
  ∀ (s : State) (x : Turn) (h : FrameHeader) (bytes payload : List Byte) (u : FieldUnit) (m : Nat) (key : Key) (rec : JournalRecord),
    s.InFrame x h 8 → goodPayload h.len.toNat bytes = some payload → s.part.unitAt x.unit = some u → u.link ≠ .departing →
    1 ≤ x.unit ∧ x.unit ≤ 30 → s.Settled → s.Distinct → s.part.port.waiting = [] →
    key = { unit := x.unit, kind := h.code.toNat } →
    (s.part.findEntry key = some m ∧ (∃ e : Entry, s.part.entryAt m = some e ∧ e.policies.journal = true ∧
        (e.early s.part.run.clock = false ∨ e.policies.early = .keep) ∧
        rec = { time := s.part.run.clock, key := e.key, content := payload, entry := m, early := e.early s.part.run.clock
                firstAfterChange := e.firstAfterChange }) ∨
      s.part.findEntry key = none ∧ s.part.dir.autoAdmission = true ∧ s.part.vacantEntry = some m ∧ s.part.dir.defaults.journal = true ∧
        rec = { time := s.part.run.clock, key := key, content := payload, entry := m, early := false, firstAfterChange := false }) →
    ∃ t : State, exec (.report bytes) s = .next (t.onPart Part.settle) ∧
      (s.NoneWaits ∨ s.Steady → t.onPart Part.settle = t.onPart Part.resolve) ∧
      (∀ (g : Page) (rest : List Page) (o : OpenPage), s.part.jw.pages = g :: rest → s.part.jw.opened = some o →
        256 * g.size < o.used + (12 + (payload.length + 3) / 4 * 4) → s.PortRoom 4 1 →
        ∀ withdrawn more : List Page, rest = withdrawn ++ more → (∀ g' ∈ withdrawn, g'.withdrawn = true) →
          (∀ g' tail, more = g' :: tail → g'.withdrawn = false) → s.Finished t (s.pageFinishes g withdrawn)) ∧
      (t.part.port.later ≠ [] ∨ s.part.jw.pages = [] ∨ s.part.jw.opened = none ∨
        (∃ (g : Page) (rest : List Page) (o : OpenPage), s.part.jw.pages = g :: rest ∧ s.part.jw.opened = some o ∧
          o.used + (12 + (payload.length + 3) / 4 * 4) ≤ 256 * g.size) → s.Finished t []) ∧
      ∀ (r : State) (raised : List Access), s.ResolvedOrNot t r →
      raised = s.entryMirror m (r.part.entryAt m) ++
        (if r.part.svc.bankQueue = s.part.svc.bankQueue then [] else s.part.bankBitRead .directory m) →
      (s.PortRoom 3 1 → r.part.port.later = []) ∧
      (r.part.port.later ≠ [] → r.part.port.later = [.record rec] ∧ r.part.port.waiting ≠ [] ∧ r.part.jw = s.part.jw ∧
        r.part.svc.journalLosses = s.part.svc.journalLosses) ∧
      (∀ (g : Page) (rest : List Page) (o : OpenPage), s.part.jw.pages = g :: rest → s.part.jw.opened = some o →
        o.used + (12 + (payload.length + 3) / 4 * 4) ≤ 256 * g.size → r.part.port.later = [] →
        Access.write (g.addr.toNat + o.used) rec.bytes .silent ∈ r.part.port.outstanding ∧
        (s.PortRoom 4 1 → s.part.port.fifo ++ raised ++ [.write (g.addr.toNat + o.used) rec.bytes .silent] <+: r.part.port.fifo) ∧
        r.part.jw = { s.part.jw with
          opened := some { o with
            count := o.count + 1, used := o.used + (12 + (payload.length + 3) / 4 * 4), firstTime := some (o.firstTime.getD s.part.run.clock)
            lastTime := some s.part.run.clock, gap := if o.count = 0 then some s.part.jw.pendingGap else o.gap
            flushTimer := if o.count = 0 then (if g.flushAge = 0 then none else some s.part.run.clock) else o.flushTimer }
          pendingGap := if o.count = 0 then 0 else s.part.jw.pendingGap
          gapReported := false }) ∧
      (∀ (g : Page) (rest : List Page) (o : OpenPage), s.part.jw.pages = g :: rest → s.part.jw.opened = some o →
        256 * g.size < o.used + (12 + (payload.length + 3) / 4 * 4) → s.PortRoom 4 1 →
        s.part.port.fifo ++ raised ++ [.write g.addr.toNat o.head .silent] <+: r.part.port.fifo ∧
        s.Completes r g.seq { outcome := .ok, fields := le32 o.pageSeq ++ leBytes 2 o.count ++ leBytes 2 o.used ++ le16 (o.gap.getD 0) } ∧
        ∀ withdrawn more : List Page, rest = withdrawn ++ more → (∀ g' ∈ withdrawn, g'.withdrawn = true) →
          (∀ g' tail, more = g' :: tail → g'.withdrawn = false) →
          (∀ g' ∈ withdrawn, s.Completes r g'.seq { outcome := .aborted }) ∧
          (∀ g' tail, more = g' :: tail →
            Access.write (g'.addr.toNat + 32) rec.bytes .silent ∈ r.part.port.outstanding ∧
            r.part.jw = { s.part.jw with
              pages := more
              opened := some { pageSeq := s.part.jw.nextPage, count := 1, used := 32 + (12 + (payload.length + 3) / 4 * 4)
                               firstTime := some s.part.run.clock, lastTime := some s.part.run.clock, gap := some s.part.jw.pendingGap
                               flushTimer := if g'.flushAge = 0 then none else some s.part.run.clock }
              nextPage := if s.part.jw.nextPage = 0xFFFFFFFF then 1 else s.part.jw.nextPage + 1
              pendingGap := 0
              gapReported := false }) ∧
          (more = [] →
            r.part.jw = { s.part.jw with
              pages := [], opened := none
              pendingGap := if s.part.jw.pendingGap = 0xFFFF then 0xFFFF else s.part.jw.pendingGap + 1, gapReported := true } ∧
            r.part.svc.journalLosses = s.part.svc.journalLosses + 1 ∧
            (s.part.jw.gapReported = false →
              s.Logs r { kind := .journalGap, unit := x.unit, tag := 0, detail := 0, detailHigh := 0, word1 := wordOf m
                         word2 := s.part.run.clock }) ∧
            (s.part.jw.gapReported = true → s.LogsNothing r))) ∧
      (s.part.jw.pages = [] → s.part.jw.opened = none → r.part.port.later = [] →
        r.part.jw = { s.part.jw with
          pendingGap := if s.part.jw.pendingGap = 0xFFFF then 0xFFFF else s.part.jw.pendingGap + 1, gapReported := true } ∧
        r.part.svc.journalLosses = s.part.svc.journalLosses + 1 ∧
        (s.PortRoom 4 1 → s.part.port.fifo ++ raised ++
          [.write (s.part.base + 0x54) (le32 (s.part.svc.journalLosses + 1)) .silent] <+: r.part.port.fifo) ∧
        r.part.svc.ringIndex = (if s.part.jw.gapReported then s.part.svc.ringIndex else (s.part.svc.ringIndex + 1) % 32))

/-- R62, R69, R71, R72, R74: a good answer frame is held as the turn's answer; a frame that fails its payload check is discarded, garbling the answer frame
and counted under the streak mode ANY; a protocol error frame ends. After each the gap limit runs. A gap before the header is complete ends the turn as a
header check failure does (CommandTurnIsSettled says how that settles a command). -/
def Obligations.FramesAreHeldOrDiscarded : Prop :=
  ∀ (s : State) (x : Turn) (h : FrameHeader), s.part.line.turn = some x → s.Settled → s.part.port.waiting = [] →
    (∀ (bytes payload : List Byte) (c : Instr) (answer : Answer), goodPayload h.len.toNat bytes = some payload → x.phase = .body h none false →
      (c = .reply bytes ∧ h.kind.toNat = 10 ∧ answer = .reply payload ∨ c = .refuse bytes ∧ h.kind.toNat = 11 ∧ answer = .refuse (byteAt payload 0) ∨
        c = .defer ∧ h.kind.toNat = 12 ∧ answer = .defer) →
      exec c s = .next { s with part := { s.part with
        line := { s.part.line with turn := some { x with answer := answer, phase := .gap s.part.run.clock } } } }) ∧
    (∀ (c : Instr), x.phase = .body h none false → h.len ≠ 0 →
      (c = .byteGap ∨ ∃ bytes low, c = .garbled bytes low ∧ bytes.length = h.len.toNat + 2 ∧
        (low = true ∨ bytes.drop h.len.toNat ≠ crc16Bytes (bytes.take h.len.toNat))) →
      exec c s = .next { s with part := { s.part with line := { s.part.line with turn := some { x with
        answer := if x.kind.isCommand = true ∧ x.frames = 1 then .garbled else x.answer
        errors := if x.streakMode = .any then x.errors + 1 else x.errors
        phase := .gap s.part.run.clock } } } }) ∧
    (∀ e : ProtocolError, x.phase = .body h (some e) false →
      exec .protocolErrorFrameEnd s = .next { s with part := { s.part with
        line := { s.part.line with turn := some { x with phase := .gap s.part.run.clock } } } }) ∧
    (∀ seq : Nat, x.phase = .header → x.kind = .command seq →
      ∃ t : State, exec .byteGap s = .next t ∧ t.pending = s.pending ∧ t.mem = s.mem ∧ t.part.line.turn = none ∧
        s.EndsTurn .byteGap
          { x with errors := x.errors + 1, answer := if x.kind.isCommand = true ∧ x.frames = 1 then .garbled else x.answer }) ∧
    (∀ (c : Instr) (u : FieldUnit), (c = .byteGap ∧ x.phase = .header ∨ c = .protocolErrorFrameEnd ∧ ∃ e, x.phase = .body h (some e) true) →
      x.kind = .poll ∨ x.kind = .rollCall → x.answer ≠ .interrupted → x.frames ≠ 0 → (c = .protocolErrorFrameEnd → x.errors ≠ 0) →
      1 ≤ x.unit ∧ x.unit ≤ 30 → s.part.unitAt x.unit = some u → u.link ≠ .departing →
      ∃ t : State, exec c s = .next t ∧ t.part.line = { s.part.line with turn := none, idleSince := s.part.run.clock } ∧
        t.part.unitAt x.unit = some (u.takeTurn x.kind .errored s.part.run.clock) ∧ s.OtherUnits t x.unit ∧ t.part.te = s.part.te)

/-- R68, R93, R94, R98: the first RESULT of a poll turn is judged by its token: a DEFERRED transaction finishes, a reservation gives a LATE_RESULT, the last
accepted token is acknowledged again, any other gives a STRAY_RESULT; a later RESULT, one of a DEPARTING unit and one after the drain change nothing. R40:
the unit's mirror is rewritten where the last accepted token has changed; where there is room its writes stand behind those of the completion or of the
record (A46). A drain with nothing left to wait for ends behind it all (A15, DrainEndsAtOnceOrAtItsTimer). It holds also where requests wait for what
finishes here: the row answers t settled, t the state with the row's own effect and what has finished noted in its order, and FinishedItemReleasesItsWaiter
says what Part.settle makes of t; where no request waits for a predecessor, the effect is also that of the state in which the finishes have been resolved. -/
def Obligations.ResultIsJudgedByItsToken : Prop :=
  ∀ (s : State) (x : Turn) (h : FrameHeader) (bytes payload : List Byte) (u : FieldUnit), s.InFrame x h 13 →
    goodPayload h.len.toNat bytes = some payload → s.part.unitAt x.unit = some u → 1 ≤ x.unit ∧ x.unit ≤ 30 → s.Working → s.Settled →
    s.PortRoom 4 0 →
    (x.resultHanded = true ∨ u.link = .departing ∨ s.part.run.drainEnded = true →
      exec (.result bytes) s = .next { s with part := { s.part with line := { s.part.line with
        turn := some { x with resultHanded := true, phase := .gap s.part.run.clock } } } }) ∧
    (x.resultHanded = false → u.link ≠ .departing → s.part.run.drainEnded = false →
      ∃ t : State, exec (.result bytes) s = .next (t.onPart Part.settle) ∧ (s.Steady → t.onPart Part.settle = t.onPart Part.resolve) ∧
        t.pending = s.pending ∧ t.mem = s.mem ∧ t.part.te.syncs = s.part.te.syncs ∧
        s.Finished t (((s.part.te.pool.filter fun z => z.unit == x.unit).find? (fun z => z.state == .deferred && z.token == some h.token.toNat)).toList.map
          fun y => ⟨y.seq, h.code = 0, true⟩) ∧
        ∀ r : State, s.ResolvedOrNot t r →
        r.part.run = s.part.run ∧ r.part.dir = s.part.dir ∧
        r.part.jw = s.part.jw ∧ s.OtherUnits r x.unit ∧
        r.part.line = { s.part.line with turn := some { x with resultHanded := true, phase := .gap s.part.run.clock } } ∧
        (∀ y : Transaction,
          (s.part.te.pool.filter fun z => z.unit == x.unit).find? (fun z => z.state == .deferred && z.token == some h.token.toNat) = some y →
          r.part.te.pool = s.part.te.pool.filter (fun z => z.seq != y.seq) ∧
          r.part.unitAt x.unit = some { u with pendingAck := some h.token.toNat, lastAccepted := some h.token.toNat } ∧
          s.RewritesUnit r x.unit (some { u with pendingAck := some h.token.toNat, lastAccepted := some h.token.toNat }) ∧
          (s.PortRoom 7 0 → y.origin = none → h.code ≠ 0 →
            s.part.port.fifo ++ faultWrites s.part.base s.part.svc.ringIndex s.part.svc.nextFault
                (y.lateFailure { outcome := .negative, payload := payload }) s.part.run.clock ++
              s.unitMirror x.unit (some { u with pendingAck := some h.token.toNat, lastAccepted := some h.token.toNat }) <+: r.part.port.fifo) ∧
          (∀ h' : HeldRequest, s.PortRoom 5 0 → y.origin.isSome = true → s.part.heldOf y.seq = some h' → s.part.board.completions = [] →
            s.part.port.fifo ++ completionWrites s.part.base h'.slot (y.result { outcome := if h.code = 0 then .ok else .negative, payload := payload })
                h'.unmatched s.part.run.clock (.done h'.slot) ++
              s.unitMirror x.unit (some { u with pendingAck := some h.token.toNat, lastAccepted := some h.token.toNat }) <+: r.part.port.fifo) ∧
          (y.origin.isSome = true →
            s.Completes r y.seq (y.result { outcome := if h.code = 0 then .ok else .negative, payload := payload })) ∧
          (y.origin = none → h.code ≠ 0 → s.FailsLate r y .negative payload) ∧ (y.origin.isSome = true ∨ h.code = 0 → s.LogsNothing r)) ∧
        ((s.part.te.pool.filter fun z => z.unit == x.unit).find? (fun z => z.state == .deferred && z.token == some h.token.toNat) = none →
          r.part.te = s.part.te ∧ r.part.board = s.part.board ∧
          (∀ x' : Reservation, u.reservations.find? (fun r => r.token == h.token.toNat) = some x' →
            r.part.unitAt x.unit = some { u with
              reservations := u.reservations.filter fun r => r.token != h.token.toNat
              pendingAck := some h.token.toNat, lastAccepted := some h.token.toNat } ∧
            s.Records r { kind := .lateResult, unit := x.unit, tag := x'.tag, detail := byteOf h.code.toNat, detailHigh := 0
                          word1 := wordOf h.token.toNat, word2 := wordOf payload.length } ∧
            s.RewritesUnit r x.unit (some { u with pendingAck := some h.token.toNat, lastAccepted := some h.token.toNat }) ∧
            (s.PortRoom 7 0 →
              s.part.port.fifo ++ faultWrites s.part.base s.part.svc.ringIndex s.part.svc.nextFault
                  { kind := .lateResult, unit := x.unit, tag := x'.tag, detail := byteOf h.code.toNat, detailHigh := 0
                    word1 := wordOf h.token.toNat, word2 := wordOf payload.length } s.part.run.clock ++
                s.unitMirror x.unit (some { u with pendingAck := some h.token.toNat, lastAccepted := some h.token.toNat }) <+: r.part.port.fifo)) ∧
          (u.reservations.find? (fun r => r.token == h.token.toNat) = none → u.lastAccepted = some h.token.toNat →
            r.part.unitAt x.unit = some { u with pendingAck := some h.token.toNat } ∧ r.part.svc = s.part.svc ∧ r.part.port = s.part.port ∧
            (r.part.unitSlot x.unit).version = (s.part.unitSlot x.unit).version) ∧
          (u.reservations.find? (fun r => r.token == h.token.toNat) = none → u.lastAccepted ≠ some h.token.toNat →
            r.part.um = s.part.um ∧
            s.Records r { kind := .strayResult, unit := x.unit, tag := 0, detail := byteOf h.code.toNat, detailHigh := 0
                          word1 := wordOf h.token.toNat, word2 := wordOf payload.length })))

/-- R33 to R36, R70: an accepted ANNOUNCE makes a SEEKING or LOST unit ONLINE with its class and defer depth; only a SEEKING unit takes the generation, and
only a LOST one has its health counts reset. R40: its mirror is rewritten, and behind the rewrite its bank bit is handed on, at once or behind the accesses that
wait for room. In any other link state nothing but the turn changes; that this is so of a unit that has become DEPARTING is the model's choice A53. -/
def Obligations.AnnounceMakesTheUnitOnline : Prop :=
  ∀ (s : State) (x : Turn) (h : FrameHeader) (bytes payload : List Byte) (u : FieldUnit), s.InFrame x h 14 →
    goodPayload h.len.toNat bytes = some payload → s.part.unitAt x.unit = some u → 1 ≤ x.unit ∧ x.unit ≤ 30 → s.Settled →
    s.part.port.waiting = [] →
    ∃ (t : State) (v : FieldUnit), exec (.announce bytes) s = .next t ∧ t.pending = s.pending ∧ t.mem = s.mem ∧ t.part.run = s.part.run ∧
      t.part.line = { s.part.line with turn := some { x with phase := .gap s.part.run.clock } } ∧ t.part.te = s.part.te ∧
      t.part.board = s.part.board ∧ t.part.dir = s.part.dir ∧ t.part.jw = s.part.jw ∧ t.part.unitAt x.unit = some v ∧ s.OtherUnits t x.unit ∧
      (u.link = .seeking → v = FieldUnit.judgeGate s.part.run.clock { u with
        generation := some h.gen, unitClass := halfAt payload 0, deferDepth := min (natAt payload 2) 4, link := .online
        factors := { u.factors with suspect := false, lost := false }, rollDue := none, rollReady := false, pollDue := none, pollReady := false
        lastPoll := none }) ∧
      (u.link = .lost → v = FieldUnit.judgeGate s.part.run.clock { u with
        unitClass := halfAt payload 0, deferDepth := min (natAt payload 2) 4, streak := 0, missed := 0, cleanRun := 0, link := .online
        factors := { u.factors with suspect := false, lost := false }, rollDue := none, rollReady := false, pollDue := none, pollReady := false
        lastPoll := none }) ∧
      (u.link = .seeking ∨ u.link = .lost →
        t.part.um.dismissWait = s.part.um.dismissWait ∧ (t.part.unitSlot x.unit).version = (s.part.unitSlot x.unit).version + 2 ∧
        t.part.svc = { s.part.svc with bankQueue := t.part.svc.bankQueue } ∧
        List.Sublist (mirrorWrites (unitMirrorAddr s.part.base x.unit) (s.part.unitSlot x.unit).version (unitBody (some v))) t.part.port.outstanding ∧
        (.update s.part.svc.activeBank .unit x.unit ∈ t.part.svc.bankQueue ∨
          ∃ e ∈ t.part.port.waiting, e.block = .unitManager ∧ .hand (.bankBit .unit x.unit) ∈ e.items) ∧
        (s.PortRoom 3 1 →
          s.Raised t (mirrorWrites (unitMirrorAddr s.part.base x.unit) (s.part.unitSlot x.unit).version (unitBody (some v)) ++
            s.part.bankBitRead .unit x.unit) ∧
          t.part.svc.bankQueue = s.part.svc.bankQueue ++ [.update s.part.svc.activeBank .unit x.unit])) ∧
      (u.link ≠ .seeking → u.link ≠ .lost → v = u ∧ t.part = { s.part with line := t.part.line })

/-! ## Rules of the unit, of the board, and timers -/

/-- R47 to R50, R29 to R32, R76, R77: the judgement of the gate by the enabled conditions and the settle time; what a CHANGED event makes of the gate in
each of its states, where CHANGED is in the hold mask, and nothing where it is not; and what a turn makes of a unit. Every turn is counted by its outcome. A
roll call that made the unit ONLINE gives it its first poll due time. A poll or command turn of an ONLINE or SUSPECT unit moves the health counts; where
they reach their thresholds the link state changes, with the factors SUSPECT and LOST that follow it and the gate judged anew, and entry into LOST ends
polling and makes a roll call due at once. The move between ONLINE
and SUSPECT keeps the poll due time and, the model's choice A54, the start of the last poll turn. -/
def Obligations.GateAndHealthAreJudged : Prop :=
  ∀ (u : FieldUnit) (now : Word) (enabled : Prop),
    (enabled ↔ u.factors.forced = true ∨ (u.factors.suspect = true ∧ u.params.holdMask.suspect = true) ∨
      (u.factors.lost = true ∧ u.params.holdMask.lost = true) ∨ (u.factors.line = true ∧ u.params.holdMask.line = true)) →
    (enabled → u.judgeGate now = { u with gate := .held, settle := none }) ∧
    (¬ enabled → u.gate ≠ .held → u.judgeGate now = u) ∧
    (¬ enabled → u.gate = .held → u.params.settleTime = 0 →
      u.judgeGate now = { u with gate := .opened, settle := none, factors := { u.factors with changed := false } }) ∧
    (¬ enabled → u.gate = .held → u.params.settleTime ≠ 0 →
      u.judgeGate now = { u with gate := .settling, settle := some { start := now, expiry := now + wordOf (100 * u.params.settleTime) } }) ∧
    (u.params.holdMask.changed = false → u.changedEvent now = u) ∧
    (u.params.holdMask.changed = true →
      (u.gate = .held → u.changedEvent now = { u with factors := { u.factors with changed := true } }) ∧
      (u.gate = .opened ∨ u.gate = .settling → u.params.settleTime = 0 →
        u.changedEvent now = { u with gate := .opened, settle := none, factors := { u.factors with changed := false } }) ∧
      (u.gate = .opened ∨ u.gate = .settling → u.params.settleTime ≠ 0 →
        u.changedEvent now = { u with
          gate := .settling, settle := some { start := now, expiry := now + wordOf (100 * u.params.settleTime) }
          factors := { u.factors with changed := true } })) ∧
    (∀ (k : TurnKind) (o : TurnOutcome) (c h : FieldUnit), u.streak ≤ 255 → u.missed ≤ 255 → u.cleanRun ≤ 255 →
      c = { u with
        turns := u.turns + 1
        cleanTurns := if o = .clean then u.cleanTurns + 1 else u.cleanTurns
        erroredTurns := if o = .errored then u.erroredTurns + 1 else u.erroredTurns
        noAnswers := if o = .noAnswer then u.noAnswers + 1 else u.noAnswers } →
      h = { c with
        streak := if o = .clean then 0 else if o = .errored then min (u.streak + 1) 255 else u.streak
        missed := if o = .clean ∨ o = .errored then 0 else if o = .noAnswer then min (u.missed + 1) 255 else u.missed
        cleanRun := if o = .clean then min (u.cleanRun + 1) 255 else if o = .errored then 0 else u.cleanRun } →
      (k = .rollCall →
        u.takeTurn k o now = if u.link = .online ∧ u.pollDue = none then { c with pollDue := some now, pollReady := false } else c) ∧
      (k ≠ .rollCall → u.link ≠ .online → u.link ≠ .suspect → u.takeTurn k o now = c) ∧
      (k ≠ .rollCall → u.link = .online ∨ u.link = .suspect →
        u.takeTurn k o now =
          if o = .errored ∧ u.link = .online ∧ u.params.streakThreshold ≤ h.streak then
            FieldUnit.judgeGate now { h with link := .suspect, factors := { u.factors with suspect := true, lost := false } }
          else if o = .clean ∧ u.link = .suspect ∧ u.params.streakThreshold ≤ h.cleanRun then
            FieldUnit.judgeGate now { h with link := .online, factors := { u.factors with suspect := false, lost := false } }
          else if o = .noAnswer ∧ u.params.silenceLimit ≤ h.missed then
            FieldUnit.judgeGate now { h with
              link := .lost, factors := { u.factors with suspect := false, lost := true }, pollDue := none, pollReady := false, lastPoll := none
              rollDue := some now, rollReady := false }
          else h))

/-- R118, R120, R121, R85, R98, R100: when an item has finished its tag is released. The one request that waited for it ends SKIPPED on a failure, an
ACCEPTED transaction with a LATE_FAILURE record. On a success a transaction and a SYNC lose their predecessor, a SYNC with nothing left to wait for completes
OK, and a request that the Board Controller held goes through checks 4 to 6 again and is refused, or handed to its block. Items that have finished are
resolved in the order they did, and several requests that waited for one of them are resolved in take order, one after another while none must wait for room;
on a failure their completions follow one another in that order. A finished transaction is counted by every SYNC that captured it, as failed unless OK; those
that have nothing left to wait for complete OK with their counts, in take order (A47). Behind it all a drain with nothing left to wait for ends (A15,
DrainEndsAtOnceOrAtItsTimer). -/
def Obligations.FinishedItemReleasesItsWaiter : Prop :=
  (∀ (p q : Part) (n w : Nat) (success transaction : Bool), p.port.waiting = [] → p.port.later = [] →
    p.board.finishes = [⟨n, success, transaction⟩] → (transaction = true → ∀ y ∈ p.te.syncs, n ∉ y.waitingFor) → p.waitersOf n = [w] →
    (∀ k : Nat, k ≠ n → p.waitersOf k = []) → (∀ y ∈ p.te.syncs, w ∉ y.waitingFor) →
    q = { p with board := { p.board with finishes := [], registry := p.board.registry.filter fun e => e.2 != n } } →
    (p.resolve.port.waiting = [] → p.resolve.board.finishes = []) ∧
    (∀ x : Transaction, p.findTxn w = some x → x.pred = some n →
      (success = true →
        p.resolve = { q with te := { p.te with pool := p.te.pool.map fun y => if y.seq = w then { y with pred := none } else y } }) ∧
      (success = false →
        p.resolve.te = { p.te with pool := p.te.pool.filter fun y => y.seq != w } ∧
        (∀ h, p.heldOf w = some h → x.origin.isSome = true → p.resolve.svc = p.svc ∧
          p.resolve.board.completions = p.board.completions ++
            [{ slot := h.slot, unmatched := h.unmatched, result := x.result { outcome := .skipped }, time := p.run.clock }]) ∧
        (x.origin = none → ∃ (index : Nat) (seq : Word), List.Sublist
          (faultWrites p.base index seq
            { kind := .lateFailure, unit := x.unit, tag := x.tag, detail := ReqOutcome.skipped.code, detailHigh := byteOf x.command, word1 := 0
              word2 := 0 } p.run.clock) p.resolve.port.outstanding))) ∧
    (∀ y : SyncRecord, p.findTxn w = none → p.te.syncs = [y] → y.seq = w → y.pred = some n →
      (success = true → y.finished ≠ y.captured → p.resolve = { q with te := { p.te with syncs := [{ y with pred := none }] } }) ∧
      (success = true ∧ y.finished = y.captured ∨ success = false →
        p.resolve = { q with te := { p.te with syncs := [] }, board := p.resolve.board, port := p.resolve.port } ∧
        ∀ h, p.heldOf w = some h → p.resolve.board.completions = p.board.completions ++
          [{ slot := h.slot, unmatched := h.unmatched, time := p.run.clock
             result := ({ outcome := if success then .ok else .skipped
                          fields := [byteOf y.captured, byteOf y.finished, byteOf y.failed] } : Result) }])) ∧
    (∀ h : HeldRequest, p.heldOf w = some h → h.owner = .boardController → h.pred = some n → p.findTxn w = none → (∀ y ∈ p.te.syncs, y.seq ≠ w) →
      (∀ outcome : ReqOutcome,
        (success = false ∧ outcome = .skipped ∨ success = true ∧ ∃ k, Req.kind h.req = some k ∧ q.checkState k h.req = some outcome) →
        p.resolve = { p with board := p.resolve.board, port := p.resolve.port } ∧ (∀ y ∈ p.resolve.board.held, y.seq ≠ w) ∧
        p.resolve.board.completions = p.board.completions ++
          [{ slot := h.slot, unmatched := h.unmatched, result := { outcome := outcome }, time := p.run.clock }]) ∧
      (∀ k : ReqKind, success = true → Req.kind h.req = some k → k ≠ .transact → k ≠ .sync → q.checkState k h.req = none →
        p.resolve = ((q.passToOwner w k.owner).handOver k w h.slot h.req none).resolve))) ∧
  (∀ (p : Part) (n : Nat) (success : Bool) (complete : SyncRecord → Bool), p.port.waiting = [] → p.port.later = [] →
    p.board.finishes = [⟨n, success, true⟩] → (∀ k : Nat, p.waitersOf k = []) → (p.te.syncs.map (·.seq)).Nodup →
    (∀ y : SyncRecord, complete y = true ↔ n ∈ y.waitingFor ∧ y.finished + 1 = y.captured ∧ y.pred = none) →
    p.resolve = { p with te := p.resolve.te, board := p.resolve.board, port := p.resolve.port } ∧ (∀ e ∈ p.resolve.board.registry, e.2 ≠ n) ∧
    p.resolve.te = { p.te with syncs := (p.te.syncs.filter fun y => !complete y).map fun y =>
      if n ∈ y.waitingFor then
        { y with finished := y.finished + 1, failed := if success then y.failed else y.failed + 1, waitingFor := y.waitingFor.filter (· != n) }
      else y } ∧
    p.resolve.board.completions = p.board.completions ++ (p.te.syncs.filter complete).filterMap fun y => (p.heldOf y.seq).map fun h =>
      { slot := h.slot, unmatched := h.unmatched, time := p.run.clock
        result := ({ outcome := .ok
                     fields := [byteOf y.captured, byteOf (y.finished + 1), byteOf (if success then y.failed else y.failed + 1)] } : Result) }) ∧
  (∀ (p q : Part) (n : Nat) (success transaction : Bool) (more : List Finish) (l : List Nat) (res : Nat → Result), p.port.waiting = [] →
    p.port.later = [] → p.board.finishes = ⟨n, success, transaction⟩ :: more → l.Perm (p.waitersOf n) → l.Pairwise (· < ·) →
    q = { p with board := { p.board with finishes := more, registry := p.board.registry.filter fun e => e.2 != n } } →
    ((∀ i : Nat, ((l.take i).foldl (fun r w => r.resolveWaiter n success w) q).port.waiting = []) →
      p.resolve = ((l.foldl (fun r w => r.resolveWaiter n success w) q).countFinish ⟨n, success, transaction⟩).resolve) ∧
    (more = [] → success = false → p.port.writesQueued + 2 ≤ 32 → (∀ k : Nat, k ≠ n → p.waitersOf k = []) →
      (∀ y ∈ p.te.syncs, ∀ w ∈ n :: l, w ∉ y.waitingFor) →
      (∀ w ∈ l,
        (∃ x, p.findTxn w = some x ∧ x.pred = some n ∧ x.origin.isSome = true ∧ res w = x.result { outcome := .skipped }) ∨
        (p.findTxn w = none ∧ ∃ y, p.te.syncs.find? (fun z => z.seq == w) = some y ∧ y.pred = some n ∧
          res w = { outcome := .skipped, fields := [byteOf y.captured, byteOf y.finished, byteOf y.failed] }) ∨
        (p.findTxn w = none ∧ (∀ y ∈ p.te.syncs, y.seq ≠ w) ∧ (∃ h, p.heldOf w = some h ∧ h.owner = .boardController ∧ h.pred = some n) ∧
          res w = { outcome := .skipped })) →
      p.resolve.board.completions = p.board.completions ++ l.filterMap fun w => (p.heldOf w).map fun h =>
        { slot := h.slot, unmatched := h.unmatched, result := res w, time := p.run.clock })) ∧
  ∀ p : Part, p.settle = p.resolve.closeDrain

/-- R51, R5, R13, R14, R40: a SETTLING gate whose timer has expired opens with CHANGED removed, the unit's mirror is rewritten and its bank bit follows; an
entry whose stale timer has expired becomes STALE and drops its content where its policy says so, its mirror is rewritten once, and its bank bit follows
unless its notify mode is NONE. -/
def Obligations.SettleAndStaleTimersExpire : Prop :=
  ∀ s : State, s.Working → s.Settled → s.part.port.waiting = [] →
    (∀ (a : Nat) (u v : FieldUnit) (timer : SettleTimer), 1 ≤ a ∧ a ≤ 30 → s.part.unitAt a = some u → u.gate = .settling → u.settle = some timer →
      reached s.part.run.clock timer.expiry = true →
      v = { u with gate := .opened, settle := none, factors := { u.factors with changed := false } } →
      ∃ t : State, exec (.settleTimerExpiry a) s = .next t ∧
        t = { s with part := { s.part with um := t.part.um, svc := t.part.svc, port := t.part.port } } ∧
        t.part.um.dismissWait = s.part.um.dismissWait ∧ s.OtherUnits t a ∧ t.part.unitAt a = some v ∧ s.RewritesUnit t a (some v) ∧
        (s.PortRoom 3 1 →
          s.Raised t (mirrorWrites (unitMirrorAddr s.part.base a) (s.part.unitSlot a).version (unitBody (some v)) ++ s.part.bankBitRead .unit a) ∧
          t.part.svc = { s.part.svc with bankQueue := s.part.svc.bankQueue ++ [.update s.part.svc.activeBank .unit a] })) ∧
    (∀ (n : Nat) (e e' : Entry) (start : Word), n < 192 → s.part.entryAt n = some e → e.staleTimer = some start →
      reached s.part.run.clock (start + wordOf (10 * e.policies.maxInterval.toNat)) = true →
      e' = { e with state := .stale, staleTimer := none, content := if e.policies.stale = .dropContent then none else e.content } →
      ∃ t : State, exec (.staleTimerExpiry n) s = .next t ∧
        t = { s with part := { s.part with dir := t.part.dir, svc := t.part.svc, port := t.part.port } } ∧
        s.OtherEntries t n ∧ t.part.entryAt n = some e' ∧ s.RewritesEntry t n (some e') ∧
        (s.PortRoom 3 1 → s.MirrorsEntry t n (some e') (e.policies.notify != .never)))

/-- R96, R92, R98, R101, R89: a reached deadline finishes a PENDING or DEFERRED transaction DEADLINE, the token of a DEFERRED one reserved until its defer
expiry where that is not reached yet, and leaves a SENDING one to the end of its turn; a reached defer expiry finishes NO_RESULT; a transaction reported
ACCEPTED that so ends is logged as LATE_FAILURE; a SYNC completes DEADLINE with its counts; a reservation past its expiry is freed. A drain with nothing left
to wait for ends behind it all (A15, DrainEndsAtOnceOrAtItsTimer). It holds also where requests wait for what finishes here: the row answers t settled, t the
state with the row's own effect and what has finished noted in its order, and FinishedItemReleasesItsWaiter says what Part.settle makes of t; where no
request waits for a predecessor, the effect is also that of the state in which the finishes have been resolved. -/
def Obligations.DeadlinesAndReservationsExpire : Prop :=
  ∀ s : State, s.Working → s.Settled → s.part.port.waiting = [] →
    (∀ (seq : Nat) (x : Transaction) (d : Word), s.part.findTxn seq = some x → x.deadline = some d → reached s.part.run.clock d = true →
      (x.state = .sending → exec (.deadlineExpiry seq) s = .next s) ∧
      (x.state ≠ .sending → ∃ t : State, exec (.deadlineExpiry seq) s = .next (t.onPart Part.settle) ∧
        (s.Steady → t.onPart Part.settle = t.onPart Part.resolve) ∧ t.pending = s.pending ∧ t.mem = s.mem ∧
        s.Finished t [⟨seq, false, true⟩] ∧ t.part.te.syncs = s.part.te.syncs ∧ ∀ r : State, s.ResolvedOrNot t r →
        r.part.run = s.part.run ∧ r.part.line = s.part.line ∧ r.part.dir = s.part.dir ∧ r.part.jw = s.part.jw ∧ s.OtherUnits r x.unit ∧
        r.part.te.pool = s.part.te.pool.filter (fun y => y.seq != seq) ∧ r.part.te.aborts = s.part.te.aborts ∧
        (x.origin.isSome = true → s.Completes r seq (x.result { outcome := .deadline }) ∧ s.LogsNothing r) ∧
        (x.origin = none → s.FailsLate r x .deadline []) ∧
        (x.state = .pending → r.part.unitAt x.unit = s.part.unitAt x.unit) ∧
        (r.part.unitSlot x.unit).version = (s.part.unitSlot x.unit).version ∧
        (∀ (u : FieldUnit) (k : Nat) (e : Word), 1 ≤ x.unit ∧ x.unit ≤ 30 → x.state = .deferred → s.part.unitAt x.unit = some u → x.token = some k →
          x.deferExpiry = some e →
          r.part.unitAt x.unit = some (if reached s.part.run.clock e = true then u
            else { u with reservations := u.reservations ++ [{ token := k, tag := x.tag, expiry := e }] })))) ∧
    (∀ (seq : Nat) (x : Transaction) (d : Word), s.part.findTxn seq = some x → x.state = .deferred → x.deferExpiry = some d →
      reached s.part.run.clock d = true →
      ∃ t : State, exec (.deferExpiry seq) s = .next (t.onPart Part.settle) ∧
        (s.Steady → t.onPart Part.settle = t.onPart Part.resolve) ∧ t.pending = s.pending ∧ t.mem = s.mem ∧
        s.Finished t [⟨seq, false, true⟩] ∧ t.part.te.syncs = s.part.te.syncs ∧ ∀ r : State, s.ResolvedOrNot t r →
        r.part.run = s.part.run ∧ r.part.line = s.part.line ∧ r.part.dir = s.part.dir ∧ r.part.jw = s.part.jw ∧ r.part.um = s.part.um ∧
        r.part.te.pool = s.part.te.pool.filter (fun y => y.seq != seq) ∧ r.part.te.aborts = s.part.te.aborts ∧
        (x.origin.isSome = true → s.Completes r seq (x.result { outcome := .noResult }) ∧ s.LogsNothing r) ∧
        (x.origin = none → s.FailsLate r x .noResult [])) ∧
    (∀ (seq : Nat) (y : SyncRecord) (d : Word), s.part.te.syncs.find? (fun z => z.seq == seq) = some y → y.deadline = some d →
      reached s.part.run.clock d = true →
      ∃ t : State, exec (.syncDeadline seq) s = .next (t.onPart Part.settle) ∧ (s.Steady → t.onPart Part.settle = t.onPart Part.resolve) ∧
        s.Finished t ((s.part.heldOf seq).toList.map fun _ => ⟨seq, false, false⟩) ∧
        (s.NoneWaits → s.PortRoom 2 0 → t.part.resolve.board.finishes = []) ∧ ∀ r : State, s.ResolvedOrNot t r →
        r = { s with part := { s.part with
          te := { s.part.te with syncs := s.part.te.syncs.filter fun z => z.seq != seq }, board := r.part.board, port := r.part.port } } ∧
        (∀ h ∈ r.part.board.held, h.seq ≠ seq) ∧
        s.Completes r seq { outcome := .deadline, fields := [byteOf y.captured, byteOf y.finished, byteOf y.failed] }) ∧
    (∀ (a token : Nat) (u : FieldUnit), 1 ≤ a ∧ a ≤ 30 → s.part.unitAt a = some u →
      ∃ t : State, exec (.reservationExpiry a token) s = .next t ∧ t = { s with part := { s.part with um := t.part.um } } ∧
        t.part.um.dismissWait = s.part.um.dismissWait ∧ s.OtherUnits t a ∧
        t.part.unitSlot a = { s.part.unitSlot a with place := some { u with
          reservations := u.reservations.filter fun r => !decide (r.token = token ∧ reached s.part.run.clock r.expiry = true) } })

/-- R158, R157, R146: the open page whose flush timer has expired completes OK: its head is written, its LEND completes with the page's counts, withdrawn
pages next in the queue complete ABORTED, and the first that is not withdrawn opens. It holds also where requests wait for what finishes here: the row
answers t settled, t the state with the row's own effect and what has finished noted in its order, and FinishedItemReleasesItsWaiter says what Part.settle
makes of t; where no request waits for a predecessor, the effect is also that of the state in which the finishes have been resolved. -/
def Obligations.FlushTimerCompletesThePage : Prop :=
  ∀ (s : State) (g : Page) (rest : List Page) (o : OpenPage) (start : Word), s.Working → s.Settled → s.Distinct →
    s.part.port.waiting = [] → s.part.jw.pages = g :: rest → s.part.jw.opened = some o → o.flushTimer = some start →
    reached s.part.run.clock (start + wordOf (10 * g.flushAge)) = true →
    ∃ t : State, exec .flushTimerExpiry s = .next (t.onPart Part.settle) ∧
      (s.NoneWaits ∨ s.Steady → t.onPart Part.settle = t.onPart Part.resolve) ∧
      (t.part.resolve.port.waiting = [] → t.part.resolve.board.finishes = []) ∧
      (s.NoneWaits → s.PortRoom 3 0 → t.part.resolve.board.finishes = []) ∧
      (Config.writeQueueSize ≤ s.part.port.writesQueued → s.Finished t []) ∧
      (∀ withdrawn more : List Page, rest = withdrawn ++ more → (∀ g' ∈ withdrawn, g'.withdrawn = true) →
        (∀ g' tail, more = g' :: tail → g'.withdrawn = false) → s.PortRoom 1 0 → s.Finished t (s.pageFinishes g withdrawn)) ∧
      ∀ r : State, s.ResolvedOrNot t r →
      r = { s with part := { s.part with jw := r.part.jw, board := r.part.board, port := r.part.port } } ∧
      (s.PortRoom 3 0 → s.PassesOn r rest ∧ s.part.port.fifo ++ [.write g.addr.toNat o.head .silent] <+: r.part.port.fifo ∧
        s.Completes r g.seq { outcome := .ok, fields := le32 o.pageSeq ++ leBytes 2 o.count ++ leBytes 2 o.used ++ le16 (o.gap.getD 0) }) ∧
      (rest = [] → r.part.jw = { s.part.jw with pages := [], opened := none })

/-- R80, R86, R88: what the other statements name: a unit's eligible head, the tokens of a unit in use, and whether a chosen turn still stands. -/
def Obligations.EligibilityAndTokensAreJudged : Prop :=
  ∀ (p : Part) (a : Nat),
    (∀ (u : FieldUnit) (x : Transaction) (outstanding : Nat), p.unitAt a = some u →
      outstanding = (p.te.pool.filter fun y => y.unit == a && y.state == .deferred).length + u.reservations.length →
      (p.eligibleHead a = some x ↔
        (p.te.pool.filter fun y => y.unit == a && y.state == .pending).head? = some x ∧ x.pred = none ∧ (u.link = .online ∨ u.link = .suspect) ∧
          u.gate = .opened ∧ (outstanding < u.deferDepth ∨ outstanding = 0))) ∧
    (p.unitAt a = none → p.eligibleHead a = none) ∧
    (∀ (u : FieldUnit) (k : Nat), k ∈ p.tokensInUse a u ↔
      (∃ x ∈ p.te.pool, x.unit = a ∧ x.token = some k) ∨ ∃ r ∈ u.reservations, r.token = k) ∧
    (∀ c : Choice, c.unit = a →
      (∀ seq, c.kind = .command seq → (p.choiceStands c = true ↔ ∃ x, p.eligibleHead a = some x ∧ x.seq = seq)) ∧
      (c.kind = .poll → (p.choiceStands c = true ↔ ∃ u, p.unitAt a = some u ∧ (u.link = .online ∨ u.link = .suspect))) ∧
      (c.kind = .rollCall → (p.choiceStands c = true ↔ ∃ u, p.unitAt a = some u ∧ (u.link = .seeking ∨ u.link = .lost))))
end

