-- ==== Sys2Proof/Laws/Memory.lean ====
section
/-! SUPPORT. Host memory: a write lands in its bytes and nowhere else, and every operation keeps the canonical form. -/

namespace Sys2Proof.Machine

theorem Memory.wfFrom_mono {m : Memory} {lo lo' : Nat} (h : lo' ≤ lo) (hw : Memory.wfFrom lo m = true) :
    Memory.wfFrom lo' m = true := by
  cases m with
  | nil => rfl
  | cons c rest =>
    obtain ⟨k, b⟩ := c
    simp only [Memory.wfFrom, Bool.and_eq_true, decide_eq_true_eq] at hw ⊢
    exact ⟨⟨by omega, hw.1.2⟩, hw.2⟩

/-- Below the first address a canonical memory may list, everything reads 0. -/
theorem Memory.readByte_below {m : Memory} {lo a : Nat} (hw : Memory.wfFrom lo m = true) (h : a < lo) : m.readByte a = 0 := by
  induction m generalizing lo with
  | nil => rfl
  | cons c rest ih =>
    obtain ⟨k, b⟩ := c
    simp only [Memory.wfFrom, Bool.and_eq_true, decide_eq_true_eq] at hw
    have hk : k ≠ a := by omega
    simp only [Memory.readByte, hk, if_false]
    exact ih hw.2 (by omega)

/-- R174, with the canonical form: writing one byte keeps it. -/
theorem Memory.writeByte_wfFrom {m : Memory} {lo a : Nat} {b : Byte} (h : lo ≤ a) (hw : Memory.wfFrom lo m = true) :
    Memory.wfFrom lo (m.writeByte a b) = true := by
  induction m generalizing lo with
  | nil =>
    unfold Memory.writeByte
    split <;> simp_all [Memory.wfFrom]
  | cons c rest ih =>
    obtain ⟨k, x⟩ := c
    simp only [Memory.wfFrom, Bool.and_eq_true, decide_eq_true_eq] at hw
    unfold Memory.writeByte
    split
    · split
      · simp only [Memory.wfFrom, Bool.and_eq_true, decide_eq_true_eq]; exact hw
      · rename_i hlt hb
        simp only [Memory.wfFrom, Bool.and_eq_true, decide_eq_true_eq]
        exact ⟨⟨h, by simpa using hb⟩, ⟨by omega, hw.1.2⟩, hw.2⟩
    · split
      · split
        · exact Memory.wfFrom_mono (by omega) hw.2
        · rename_i _ hak hb
          simp only [Memory.wfFrom, Bool.and_eq_true, decide_eq_true_eq]
          exact ⟨⟨h, by simpa using hb⟩, hak ▸ hw.2⟩
      · simp only [Memory.wfFrom, Bool.and_eq_true, decide_eq_true_eq]
        exact ⟨hw.1, ih (by omega) hw.2⟩

theorem Memory.writeByte_wf {m : Memory} (a : Nat) (b : Byte) (hw : m.wf = true) : (m.writeByte a b).wf = true :=
  Memory.writeByte_wfFrom (Nat.zero_le a) hw

theorem Memory.writeBytes_wf {m : Memory} (a : Nat) (bs : List Byte) (hw : m.wf = true) : (m.writeBytes a bs).wf = true := by
  induction bs generalizing m a with
  | nil => exact hw
  | cons b rest ih => exact ih (a + 1) (Memory.writeByte_wf a b hw)

/-- Reading after writing one byte. -/
theorem Memory.readByte_writeByte_from {m : Memory} {lo : Nat} (hw : Memory.wfFrom lo m = true) (a : Nat) (b : Byte) (x : Nat) :
    (m.writeByte a b).readByte x = if x = a then b else m.readByte x := by
  induction m generalizing lo with
  | nil =>
    unfold Memory.writeByte
    by_cases hx : x = a
    · subst hx; split <;> simp_all [Memory.readByte]
    · have : a ≠ x := fun h => hx h.symm
      split <;> simp [Memory.readByte, this]
  | cons c rest ih =>
    obtain ⟨k, y⟩ := c
    simp only [Memory.wfFrom, Bool.and_eq_true, decide_eq_true_eq] at hw
    unfold Memory.writeByte
    split
    · rename_i hlt
      have hbelow : Memory.readByte rest a = 0 := Memory.readByte_below hw.2 (by omega)
      split
      · rename_i hb
        subst hb
        by_cases hx : x = a
        · subst hx
          have : k ≠ x := by omega
          simp [Memory.readByte, this, hbelow]
        · simp [hx]
      · by_cases hx : x = a
        · subst hx; simp [Memory.readByte]
        · have : a ≠ x := fun h => hx h.symm
          simp [Memory.readByte, this, hx]
    · split
      · rename_i _ hak
        subst hak
        have hbelow : Memory.readByte rest a = 0 := Memory.readByte_below hw.2 (by omega)
        split
        · rename_i hb
          subst hb
          by_cases hx : x = a
          · subst hx; simp [hbelow]
          · have : a ≠ x := fun h => hx h.symm
            simp [Memory.readByte, this, hx]
        · by_cases hx : x = a
          · subst hx; simp [Memory.readByte]
          · have : a ≠ x := fun h => hx h.symm
            simp [Memory.readByte, this, hx]
      · by_cases hkx : k = x
        · subst hkx
          rename_i h1 h2
          have : k ≠ a := fun h => h2 h.symm
          simp [Memory.readByte, this]
        · simp only [Memory.readByte, hkx, if_false]
          exact ih hw.2

theorem Memory.readByte_writeByte {m : Memory} (hw : m.wf = true) (a : Nat) (b : Byte) (x : Nat) :
    (m.writeByte a b).readByte x = if x = a then b else m.readByte x :=
  Memory.readByte_writeByte_from hw a b x

/-- Reading after writing bytes: inside them the byte written, outside them the byte before. -/
theorem Memory.readByte_writeBytes {m : Memory} (hw : m.wf = true) (a : Nat) (bs : List Byte) (x : Nat) :
    (m.writeBytes a bs).readByte x = if a ≤ x ∧ x < a + bs.length then bs.getD (x - a) 0 else m.readByte x := by
  induction bs generalizing m a with
  | nil =>
    have : ¬ (a ≤ x ∧ x < a + 0) := by omega
    simp only [Memory.writeBytes, List.length_nil, this, if_false]
  | cons b rest ih =>
    have hw' := Memory.writeByte_wf a b hw
    simp only [Memory.writeBytes, ih hw' (a + 1), List.length_cons]
    by_cases hx : x = a
    · subst hx
      have h1 : ¬ (x + 1 ≤ x ∧ x < x + 1 + rest.length) := by omega
      have h2 : x ≤ x ∧ x < x + (rest.length + 1) := by omega
      simp only [h1, if_false, h2, and_self, if_true, Nat.sub_self, List.getD_cons_zero]
      rw [Memory.readByte_writeByte hw]; simp
    · by_cases h : a + 1 ≤ x ∧ x < a + 1 + rest.length
      · have h2 : a ≤ x ∧ x < a + (rest.length + 1) := by omega
        simp only [h, and_self, if_true, h2]
        have : x - a = (x - (a + 1)) + 1 := by omega
        rw [this, List.getD_cons_succ]
      · have h2 : ¬ (a ≤ x ∧ x < a + (rest.length + 1)) := by omega
        simp only [h, if_false, h2]
        rw [Memory.readByte_writeByte hw]; simp [hx]

end Sys2Proof.Machine
end

