-- ==== Sys2Proof/Laws/State.lean ====
section
/-! SUPPORT. One lemma for each field of each named update, true by unfolding, so that no proof unfolds a record update. -/

namespace Sys2Proof.Machine

/-! ## State.onPart -/

@[simp] theorem State.onPart_pending (f : Part → Part) (s : State) : (s.onPart f).pending = s.pending := by rfl
@[simp] theorem State.onPart_part (f : Part → Part) (s : State) : (s.onPart f).part = f s.part := by rfl
@[simp] theorem State.onPart_mem (f : Part → Part) (s : State) : (s.onPart f).mem = s.mem := by rfl

/-! ## Part.setSummary -/

@[simp] theorem Part.setSummary_run (b : BitVec 5) (p : Part) : (p.setSummary b).run = p.run := by rfl
@[simp] theorem Part.setSummary_port (b : BitVec 5) (p : Part) : (p.setSummary b).port = p.port := by rfl
@[simp] theorem Part.setSummary_summary (b : BitVec 5) (p : Part) : (p.setSummary b).svc.summary = p.svc.summary ||| b := by rfl
@[simp] theorem Part.setSummary_board (b : BitVec 5) (p : Part) : (p.setSummary b).board = p.board := by rfl
@[simp] theorem Part.setSummary_te (b : BitVec 5) (p : Part) : (p.setSummary b).te = p.te := by rfl
@[simp] theorem Part.setSummary_line (b : BitVec 5) (p : Part) : (p.setSummary b).line = p.line := by rfl
@[simp] theorem Part.setSummary_um (b : BitVec 5) (p : Part) : (p.setSummary b).um = p.um := by rfl
@[simp] theorem Part.setSummary_dir (b : BitVec 5) (p : Part) : (p.setSummary b).dir = p.dir := by rfl
@[simp] theorem Part.setSummary_jw (b : BitVec 5) (p : Part) : (p.setSummary b).jw = p.jw := by rfl

/-! ## Part.setTurn -/

@[simp] theorem Part.setTurn_run (t : Turn) (p : Part) : (p.setTurn t).run = p.run := by rfl
@[simp] theorem Part.setTurn_port (t : Turn) (p : Part) : (p.setTurn t).port = p.port := by rfl
@[simp] theorem Part.setTurn_svc (t : Turn) (p : Part) : (p.setTurn t).svc = p.svc := by rfl
@[simp] theorem Part.setTurn_board (t : Turn) (p : Part) : (p.setTurn t).board = p.board := by rfl
@[simp] theorem Part.setTurn_te (t : Turn) (p : Part) : (p.setTurn t).te = p.te := by rfl
@[simp] theorem Part.setTurn_turn (t : Turn) (p : Part) : (p.setTurn t).line.turn = some t := by rfl
@[simp] theorem Part.setTurn_um (t : Turn) (p : Part) : (p.setTurn t).um = p.um := by rfl
@[simp] theorem Part.setTurn_dir (t : Turn) (p : Part) : (p.setTurn t).dir = p.dir := by rfl
@[simp] theorem Part.setTurn_jw (t : Turn) (p : Part) : (p.setTurn t).jw = p.jw := by rfl

/-! ## Part.mapTxn -/

@[simp] theorem Part.mapTxn_run (n : Nat) (f : Transaction → Transaction) (p : Part) : (p.mapTxn n f).run = p.run := by rfl
@[simp] theorem Part.mapTxn_port (n : Nat) (f : Transaction → Transaction) (p : Part) : (p.mapTxn n f).port = p.port := by rfl
@[simp] theorem Part.mapTxn_svc (n : Nat) (f : Transaction → Transaction) (p : Part) : (p.mapTxn n f).svc = p.svc := by rfl
@[simp] theorem Part.mapTxn_board (n : Nat) (f : Transaction → Transaction) (p : Part) : (p.mapTxn n f).board = p.board := by rfl
@[simp] theorem Part.mapTxn_syncs (n : Nat) (f : Transaction → Transaction) (p : Part) : (p.mapTxn n f).te.syncs = p.te.syncs := by rfl
@[simp] theorem Part.mapTxn_aborts (n : Nat) (f : Transaction → Transaction) (p : Part) : (p.mapTxn n f).te.aborts = p.te.aborts := by rfl
@[simp] theorem Part.mapTxn_line (n : Nat) (f : Transaction → Transaction) (p : Part) : (p.mapTxn n f).line = p.line := by rfl
@[simp] theorem Part.mapTxn_um (n : Nat) (f : Transaction → Transaction) (p : Part) : (p.mapTxn n f).um = p.um := by rfl
@[simp] theorem Part.mapTxn_dir (n : Nat) (f : Transaction → Transaction) (p : Part) : (p.mapTxn n f).dir = p.dir := by rfl
@[simp] theorem Part.mapTxn_jw (n : Nat) (f : Transaction → Transaction) (p : Part) : (p.mapTxn n f).jw = p.jw := by rfl

/-! ## Part.noteFinish and Part.passToOwner -/

@[simp] theorem Part.noteFinish_run (n : Nat) (b x : Bool) (p : Part) : (p.noteFinish n b x).run = p.run := by rfl
@[simp] theorem Part.noteFinish_port (n : Nat) (b x : Bool) (p : Part) : (p.noteFinish n b x).port = p.port := by rfl
@[simp] theorem Part.noteFinish_svc (n : Nat) (b x : Bool) (p : Part) : (p.noteFinish n b x).svc = p.svc := by rfl
@[simp] theorem Part.noteFinish_held (n : Nat) (b x : Bool) (p : Part) : (p.noteFinish n b x).board.held = p.board.held := by rfl
@[simp] theorem Part.noteFinish_finishes (n : Nat) (b x : Bool) (p : Part) :
    (p.noteFinish n b x).board.finishes = p.board.finishes ++ [⟨n, b, x⟩] := by rfl
@[simp] theorem Part.noteFinish_te (n : Nat) (b x : Bool) (p : Part) : (p.noteFinish n b x).te = p.te := by rfl
@[simp] theorem Part.noteFinish_line (n : Nat) (b x : Bool) (p : Part) : (p.noteFinish n b x).line = p.line := by rfl
@[simp] theorem Part.noteFinish_um (n : Nat) (b x : Bool) (p : Part) : (p.noteFinish n b x).um = p.um := by rfl
@[simp] theorem Part.noteFinish_dir (n : Nat) (b x : Bool) (p : Part) : (p.noteFinish n b x).dir = p.dir := by rfl
@[simp] theorem Part.noteFinish_jw (n : Nat) (b x : Bool) (p : Part) : (p.noteFinish n b x).jw = p.jw := by rfl

/-! ## Part.refuseCommand and Part.takeSwap -/

@[simp] theorem Part.refuseCommand_refused (p : Part) : p.refuseCommand.run.refused = true := by rfl
@[simp] theorem Part.refuseCommand_partState (p : Part) : p.refuseCommand.run.partState = p.run.partState := by rfl
@[simp] theorem Part.refuseCommand_svc (p : Part) : p.refuseCommand.svc = p.svc := by rfl
@[simp] theorem Part.takeSwap_run (p : Part) : p.takeSwap.run = p.run := by rfl
@[simp] theorem Part.takeSwap_port (p : Part) : p.takeSwap.port = p.port := by rfl
@[simp] theorem Part.takeSwap_summary (p : Part) : p.takeSwap.svc.summary = p.svc.summary := by rfl
@[simp] theorem Part.takeSwap_swapCount (p : Part) : p.takeSwap.svc.swapCount = p.svc.swapCount + 1 := by rfl
@[simp] theorem Part.takeSwap_activeBank (p : Part) : p.takeSwap.svc.activeBank = p.svc.activeBank.other := by rfl

end Sys2Proof.Machine
end

