-- ==== Sys2Proof/Laws/Port.lean ====
section
/-! SUPPORT. What raising, handing on and performing accesses can change: the port, the Service Unit and the Board Controller, and, where accesses are
performed, memory; never the other blocks, never the queue of commands. -/

namespace Sys2Proof.Machine

/-! ## Raising -/

/-- Everything but the Window Port is as before. -/
def Part.SameButPort (p q : Part) : Prop :=
  q.run = p.run ∧ q.svc = p.svc ∧ q.board = p.board ∧ q.te = p.te ∧ q.line = p.line ∧ q.um = p.um ∧ q.dir = p.dir ∧ q.jw = p.jw

/-- Everything but the Window Port, the Service Unit and the Board Controller is as before. -/
def Part.SameOwners (p q : Part) : Prop :=
  q.run = p.run ∧ q.te = p.te ∧ q.line = p.line ∧ q.um = p.um ∧ q.dir = p.dir ∧ q.jw = p.jw

theorem Part.SameOwners.refl (p : Part) : p.SameOwners p := ⟨rfl, rfl, rfl, rfl, rfl, rfl⟩

theorem Part.SameOwners.trans {p q r : Part} (h : p.SameOwners q) (h' : q.SameOwners r) : p.SameOwners r := by
  obtain ⟨a1, a2, a3, a4, a5, a6⟩ := h
  obtain ⟨b1, b2, b3, b4, b5, b6⟩ := h'
  exact ⟨b1.trans a1, b2.trans a2, b3.trans a3, b4.trans a4, b5.trans a5, b6.trans a6⟩

theorem Part.submit_same (b : Block) (l : List Access) (p : Part) : p.SameButPort (p.submit b l) :=
  ⟨by rfl, by rfl, by rfl, by rfl, by rfl, by rfl, by rfl, by rfl⟩

theorem Part.SameButPort.owners {p q : Part} (h : p.SameButPort q) : p.SameOwners q :=
  ⟨h.1, h.2.2.2.1, h.2.2.2.2.1, h.2.2.2.2.2.1, h.2.2.2.2.2.2.1, h.2.2.2.2.2.2.2⟩

theorem Part.submit_owners (b : Block) (l : List Access) (p : Part) : p.SameOwners (p.submit b l) := (p.submit_same b l).owners

theorem Part.takeBankBit_owners (m : MapKind) (i : Nat) (p : Part) : p.SameOwners (p.takeBankBit m i) := by
  unfold Part.takeBankBit
  dsimp only
  split
  · exact ⟨by rfl, by rfl, by rfl, by rfl, by rfl, by rfl⟩
  · exact ⟨by rfl, by rfl, by rfl, by rfl, by rfl, by rfl⟩

theorem Part.takeFault_owners (f : FaultRecord) (p : Part) : p.SameOwners (p.takeFault f) :=
  ⟨by rfl, by rfl, by rfl, by rfl, by rfl, by rfl⟩

theorem Part.takeJournalLoss_owners (p : Part) : p.SameOwners p.takeJournalLoss :=
  ⟨by rfl, by rfl, by rfl, by rfl, by rfl, by rfl⟩

theorem Part.takeUnadmitted_owners (p : Part) : p.SameOwners p.takeUnadmitted :=
  ⟨by rfl, by rfl, by rfl, by rfl, by rfl, by rfl⟩

/-- R122: a completion is a matter of the board and of the port. -/
theorem Part.writeCompletion_owners (n : Nat) (u : Bool) (r : Result) (p : Part) : p.SameOwners (p.writeCompletion n u r) := by
  unfold Part.writeCompletion
  dsimp only
  split <;> exact ⟨by rfl, by rfl, by rfl, by rfl, by rfl, by rfl⟩

theorem Part.completeSlot_owners (n : Nat) (r : Result) (p : Part) : p.SameOwners (p.completeSlot n r) := by
  unfold Part.completeSlot
  split
  · exact .refl p
  · exact Part.SameOwners.trans ⟨by rfl, by rfl, by rfl, by rfl, by rfl, by rfl⟩ (Part.writeCompletion_owners _ _ _ _)

theorem Part.completeRequest_owners (n : Nat) (r : Result) (p : Part) : p.SameOwners (p.completeRequest n r) := by
  unfold Part.completeRequest
  split
  · exact .refl p
  · exact (p.completeSlot_owners n r).trans ⟨by rfl, by rfl, by rfl, by rfl, by rfl, by rfl⟩

theorem Part.deliver_owners (h : Handover) (p : Part) : p.SameOwners (p.deliver h) := by
  unfold Part.deliver
  split
  · exact p.takeBankBit_owners _ _
  · exact p.takeFault_owners _
  · exact p.takeJournalLoss_owners
  · exact p.takeUnadmitted_owners
  · exact p.completeRequest_owners _ _

theorem Part.raiseFree_owners (b : Block) (l : List Item) (p : Part) : p.SameOwners (Part.raiseFree b l p) := by
  induction l generalizing p with
  | nil => exact .refl p
  | cons i rest ih =>
    cases i with
    | hand h => exact (p.deliver_owners h).trans (ih _)
    | access a =>
      unfold Part.raiseFree
      split
      · exact Part.SameOwners.trans (q := { p with port := p.port.push a }) ⟨by rfl, by rfl, by rfl, by rfl, by rfl, by rfl⟩ (ih _)
      · exact ⟨by rfl, by rfl, by rfl, by rfl, by rfl, by rfl⟩

/-- A block that raises accesses and hands things on changes the port, the Service Unit and the Board Controller alone. -/
theorem Part.raise_owners (b : Block) (l : List Item) (p : Part) : p.SameOwners (Part.raise b l p) := by
  unfold Part.raise
  split
  · exact ⟨by rfl, by rfl, by rfl, by rfl, by rfl, by rfl⟩
  · exact Part.raiseFree_owners b l p

theorem Part.refill_owners (p : Part) : p.SameOwners p.refill := by
  unfold Part.refill
  split
  · exact .refl p
  · rename_i e _
    exact Part.SameOwners.trans
      (q := { p with port := { p.port with waiting := p.port.waiting.filter fun x => x.block != e.block } })
      ⟨by rfl, by rfl, by rfl, by rfl, by rfl, by rfl⟩ (Part.raiseFree_owners _ _ _)

/-! ## Performing -/

/-- The queue of commands, and everything in the part but the port, the Service Unit and the Board Controller, is as before; canonical memory
stays canonical. -/
def State.SameOwners (s t : State) : Prop :=
  t.pending = s.pending ∧ s.part.SameOwners t.part ∧ (s.mem.wf = true → t.mem.wf = true)

theorem State.SameOwners.refl (s : State) : s.SameOwners s := ⟨rfl, .refl _, id⟩

theorem State.SameOwners.trans {s t u : State} (h : s.SameOwners t) (h' : t.SameOwners u) : s.SameOwners u :=
  ⟨h'.1.trans h.1, h.2.1.trans h'.2.1, fun w => h'.2.2 (h.2.2 w)⟩

theorem State.performFront_same (s : State) : s.SameOwners s.performFront := by
  unfold State.performFront
  split
  · exact .refl s
  · rename_i a rest _
    refine ⟨rfl, ?_, ?_⟩
    · exact Part.SameOwners.trans
        (q := { s.part with port := { s.part.port with
          fifo := rest, reports := if a.reported then s.part.port.reports ++ [a] else s.part.port.reports } })
        ⟨by rfl, by rfl, by rfl, by rfl, by rfl, by rfl⟩ (Part.refill_owners _)
    · intro hw
      cases a with
      | read w x n => exact hw
      | write x bs r => exact Memory.writeBytes_wf x bs hw

theorem State.perform_same (n : Nat) (s : State) : s.SameOwners (State.perform n s) := by
  induction n generalizing s with
  | zero => exact .refl s
  | succ n ih => exact s.performFront_same.trans (ih _)

theorem State.performUntil_same (what : Access → Bool) (n : Nat) (s : State) : s.SameOwners (State.performUntil what n s) := by
  induction n generalizing s with
  | zero => exact .refl s
  | succ n ih =>
    unfold State.performUntil
    split
    · exact .refl s
    · exact s.performFront_same.trans (ih _)

theorem State.performAll_same (s : State) : s.SameOwners s.performAll := State.perform_same _ s

/-- Taking an answer performs accesses and changes nothing but what performing changes. -/
theorem State.claim_same {what : Access → Bool} {s t : State} (h : s.claim what = some t) : s.SameOwners t := by
  unfold State.claim at h
  split at h
  · have e := Option.some.inj h
    subst e
    exact (State.performUntil_same what _ s).trans
      ⟨rfl, ⟨by rfl, by rfl, by rfl, by rfl, by rfl, by rfl⟩, id⟩
  · exact absurd h (by simp)

/-- The queue of commands and canonical memory through a change of the part alone. -/
theorem State.onPart_mem_wf (f : Part → Part) (s : State) (h : s.mem.wf = true) : (s.onPart f).mem.wf = true := h

/-- The write at the front of the port lands in its bytes and nowhere else (R174). -/
theorem State.performFront_readByte {s : State} {addr : Nat} {bytes : List Byte} {r : ReportTag} {rest : List Access}
    (hw : s.mem.wf = true) (hf : s.part.port.fifo = .write addr bytes r :: rest) (x : Nat) :
    s.performFront.mem.readByte x =
      if addr ≤ x ∧ x < addr + bytes.length then bytes.getD (x - addr) 0 else s.mem.readByte x := by
  have : s.performFront.mem = s.mem.writeBytes addr bytes := by simp [State.performFront, hf, Access.land]
  rw [this]
  exact Memory.readByte_writeBytes hw addr bytes x

end Sys2Proof.Machine
end

