-- ==== Sys2Proof/Laws/Bounds.lean ====
section
/-! SUPPORT. What the shared operations of the blocks keep: the limits of the port's queues (R174), of the pool and the unit queues (R83) and of the lent
pages (R155), the two addresses without a place (R24), the take sequences in use (R114), what is left to resolve (R121); and, but for the
operations of the line and of the Run Controller, the line and the Run Controller's state. -/

namespace Sys2Proof.Machine

/-! ## The port's queues -/

theorem WindowPort.push_bounded {w : WindowPort} {a : Access} (h : w.Bounded) (hr : w.hasRoom a = true) : (w.push a).Bounded := by
  obtain ⟨hw, hd⟩ := h
  unfold WindowPort.hasRoom at hr
  cases ha : a.isRead <;> simp only [ha, Bool.false_eq_true, if_false, if_true, decide_eq_true_eq] at hr
  · refine ⟨?_, ?_⟩
    · simp only [WindowPort.writesQueued, WindowPort.push] at hr ⊢
      simp [List.filter_append, ha]; omega
    · simp only [WindowPort.readsQueued, WindowPort.push] at hd ⊢
      simp [List.filter_append, ha]; omega
  · refine ⟨?_, ?_⟩
    · simp only [WindowPort.writesQueued, WindowPort.push] at hw ⊢
      simp [List.filter_append, ha]; omega
    · simp only [WindowPort.readsQueued, WindowPort.push] at hr ⊢
      simp [List.filter_append, ha]; omega

theorem WindowPort.bounded_of_fifo {w w' : WindowPort} (hf : w'.fifo = w.fifo) (h : w.Bounded) : w'.Bounded := by
  simpa only [WindowPort.Bounded, WindowPort.writesQueued, WindowPort.readsQueued, hf] using h

theorem WindowPort.bounded_of_cons {w w' : WindowPort} {a : Access} (hf : w.fifo = a :: w'.fifo) (h : w.Bounded) : w'.Bounded := by
  have hw := (List.sublist_cons_self a w'.fifo).filter fun a => !a.isRead
  have hr := (List.sublist_cons_self a w'.fifo).filter Access.isRead
  simp only [WindowPort.Bounded, WindowPort.writesQueued, WindowPort.readsQueued, hf] at h ⊢
  exact ⟨hw.length_le.trans h.1, hr.length_le.trans h.2⟩

theorem WindowPort.empty_bounded : WindowPort.Bounded {} := ⟨by decide, by decide⟩

theorem WindowPort.park_fifo (b : Block) (l : List Item) (w : WindowPort) : (w.park b l).fifo = w.fifo := by
  unfold WindowPort.park; split <;> rfl

theorem WindowPort.park_later (b : Block) (l : List Item) (w : WindowPort) : (w.park b l).later = w.later := by
  unfold WindowPort.park; split <;> rfl

theorem WindowPort.submit_later (b : Block) (l : List Access) (w : WindowPort) : (w.submit b l).later = w.later := by
  have h : ∀ (l : List Access) (w : WindowPort), (WindowPort.submitFree b l w).later = w.later := by
    intro l
    induction l with
    | nil => intro w; rfl
    | cons a rest ih =>
      intro w
      unfold WindowPort.submitFree
      split
      · exact ih (w.push a)
      · exact WindowPort.park_later _ _ _
  unfold WindowPort.submit
  split
  · exact WindowPort.park_later _ _ _
  · exact h l w

theorem WindowPort.submitFree_bounded (b : Block) (l : List Access) {w : WindowPort} (h : w.Bounded) :
    (WindowPort.submitFree b l w).Bounded := by
  induction l generalizing w with
  | nil => exact h
  | cons a rest ih =>
    unfold WindowPort.submitFree
    split
    · rename_i hr; exact ih (WindowPort.push_bounded h hr)
    · exact WindowPort.bounded_of_fifo (WindowPort.park_fifo _ _ _) h

theorem WindowPort.submit_bounded (b : Block) (l : List Access) {w : WindowPort} (h : w.Bounded) : (w.submit b l).Bounded := by
  unfold WindowPort.submit
  split
  · exact WindowPort.bounded_of_fifo (WindowPort.park_fifo _ _ _) h
  · exact WindowPort.submitFree_bounded b l h

/-! ## The relation -/

/-- The held requests that wait for a predecessor. -/
def Part.waitingHeld (p : Part) : List HeldRequest := p.board.held.filter fun h => h.owner == .boardController

/-- What a resolution can still have to do: every finish to resolve, every item that can still finish, every held request that can still be
handed over. -/
def Part.weight (p : Part) : Nat :=
  p.board.finishes.length + p.te.pool.length + p.board.held.length + p.waitingHeld.length

/-- From `p` to `q` no bound can be lost: a bounded port stays bounded; neither the pool nor a unit's queue nor the lent pages nor the weight grow;
the two addresses without a place stay so; no take sequence comes into use, and none is waited for anew. -/
structure Part.Tame (p q : Part) : Prop where
  port : p.port.Bounded → q.port.Bounded
  pool : q.te.pool.length ≤ p.te.pool.length
  queue : ∀ a : Nat, (q.unitQueue a).length ≤ (p.unitQueue a).length
  pages : q.jw.pages.length ≤ p.jw.pages.length
  places : (p.unitAt 0 = none ∧ p.unitAt 31 = none) → (q.unitAt 0 = none ∧ q.unitAt 31 = none)
  next : q.board.nextSeq = p.board.nextSeq
  waits : ∀ n : Nat, q.Waits n → p.Waits n
  names : ∀ n : Nat, q.Names n → p.Names n
  weight : q.weight ≤ p.weight

/-- The same, with the Run Controller, the Line Controller and the work behind a wait untouched. -/
structure Part.Calm (p q : Part) : Prop extends Part.Tame p q where
  run : q.run = p.run
  line : q.line = p.line
  later : q.port.later = p.port.later

theorem Part.Tame.refl (p : Part) : p.Tame p :=
  ⟨id, le_refl _, fun _ => le_refl _, le_refl _, id, rfl, fun _ => id, fun _ => id, le_refl _⟩

theorem Part.Tame.trans {p q r : Part} (h : p.Tame q) (h' : q.Tame r) : p.Tame r :=
  ⟨fun x => h'.port (h.port x), h'.pool.trans h.pool, fun a => (h'.queue a).trans (h.queue a), h'.pages.trans h.pages,
   fun x => h'.places (h.places x), h'.next.trans h.next, fun n x => h.waits n (h'.waits n x), fun n x => h.names n (h'.names n x),
   h'.weight.trans h.weight⟩

theorem Part.Calm.refl (p : Part) : p.Calm p := ⟨.refl p, rfl, rfl, rfl⟩

theorem Part.Calm.trans {p q r : Part} (h : p.Calm q) (h' : q.Calm r) : p.Calm r :=
  ⟨h.toTame.trans h'.toTame, h'.run.trans h.run, h'.line.trans h.line, h'.later.trans h.later⟩

/-- All of it but the take sequences and the weight. -/
structure Part.Mild (p q : Part) : Prop where
  port : p.port.Bounded → q.port.Bounded
  pool : q.te.pool.length ≤ p.te.pool.length
  queue : ∀ a : Nat, (q.unitQueue a).length ≤ (p.unitQueue a).length
  pages : q.jw.pages.length ≤ p.jw.pages.length
  places : (p.unitAt 0 = none ∧ p.unitAt 31 = none) → (q.unitAt 0 = none ∧ q.unitAt 31 = none)
  next : q.board.nextSeq = p.board.nextSeq
  waits : ∀ n : Nat, q.Waits n → p.Waits n
  run : q.run = p.run
  line : q.line = p.line
  later : q.port.later = p.port.later

theorem Part.Calm.mild {p q : Part} (h : p.Calm q) : p.Mild q := ⟨h.port, h.pool, h.queue, h.pages, h.places, h.next, h.waits, h.run, h.line, h.later⟩

theorem Part.Mild.trans {p q r : Part} (h : p.Mild q) (h' : q.Mild r) : p.Mild r :=
  ⟨fun x => h'.port (h.port x), h'.pool.trans h.pool, fun a => (h'.queue a).trans (h.queue a), h'.pages.trans h.pages,
   fun x => h'.places (h.places x), h'.next.trans h.next, fun n x => h.waits n (h'.waits n x), h'.run.trans h.run, h'.line.trans h.line,
   h'.later.trans h.later⟩

theorem Part.Mild.calm {p q : Part} (h : p.Mild q) (hn : ∀ n : Nat, q.Names n → p.Names n) (hw : q.weight ≤ p.weight) : p.Calm q :=
  ⟨⟨h.port, h.pool, h.queue, h.pages, h.places, h.next, h.waits, hn, hw⟩, h.run, h.line, h.later⟩

/-- A change of nothing but the port, the Service Unit and the Directory Engine, and of other parts of the rest. -/
theorem Part.Tame.of_same {p q : Part} (hp : p.port.Bounded → q.port.Bounded) (ht : q.te = p.te) (hj : q.jw.pages = p.jw.pages)
    (hu : q.um.slots = p.um.slots) (hb : q.board = p.board) : p.Tame q := by
  refine ⟨hp, by rw [ht], fun a => ?_, by rw [hj], fun h => ?_, by rw [hb], fun n h => ?_, fun n h => ?_, ?_⟩
  · simp only [Part.unitQueue, ht]; exact le_refl _
  · simpa only [Part.unitAt, Part.unitSlot, hu] using h
  · simpa only [Part.Waits, ht, hb] using h
  · simpa only [Part.Names, ht, hb] using h
  · simp only [Part.weight, Part.waitingHeld, ht, hb]; exact le_refl _

theorem Part.Calm.of_same {p q : Part} (hr : q.run = p.run) (hl : q.line = p.line) (hw : q.port.later = p.port.later)
    (hp : p.port.Bounded → q.port.Bounded)
    (ht : q.te = p.te) (hj : q.jw.pages = p.jw.pages) (hu : q.um.slots = p.um.slots) (hb : q.board = p.board) : p.Calm q :=
  ⟨.of_same hp ht hj hu hb, hr, hl, hw⟩

/-- A change of nothing but the port. -/
theorem Part.Calm.of_port {p q : Part} (h : p.SameButPort q) (hw : q.port.later = p.port.later) (hp : p.port.Bounded → q.port.Bounded) :
    p.Calm q := by
  obtain ⟨h1, _, h3, h4, h5, h6, _, h8⟩ := h
  exact .of_same h1 h5 hw hp h4 (by rw [h8]) (by rw [h6]) h3

/-- A change of nothing but the port's waiting blocks and answers, the Service Unit and the Directory Engine. -/
theorem Part.Calm.of_eq {p q : Part} (hr : q.run = p.run := by rfl) (hl : q.line = p.line := by rfl) (hw : q.port.later = p.port.later := by rfl)
    (hf : q.port.fifo = p.port.fifo := by rfl) (ht : q.te = p.te := by rfl) (hj : q.jw.pages = p.jw.pages := by rfl)
    (hu : q.um.slots = p.um.slots := by rfl) (hb : q.board = p.board := by rfl) : p.Calm q :=
  .of_same hr hl hw (WindowPort.bounded_of_fifo hf) ht hj hu hb

/-- Where the board and the Transaction Engine hold no record, no take sequence is in use. -/
theorem Part.not_names_of_empty {p : Part} (hb : p.board.held = [] ∧ p.board.registry = [] ∧ p.board.finishes = []) (ht : p.te = {}) (n : Nat) :
    ¬ p.Names n := by
  obtain ⟨h1, h2, h3⟩ := hb
  unfold Part.Names
  simp [h1, h2, h3, ht]

/-- A change of the board alone that brings no take sequence into use and leaves no more to resolve. -/
theorem Part.setBoard_calm' (b : BoardController) (p : Part) (hn : b.nextSeq = p.board.nextSeq)
    (hv : ∀ n, (∃ h ∈ b.held, h.owner = .boardController ∧ h.pred = some n) → ∃ h ∈ p.board.held, h.owner = .boardController ∧ h.pred = some n)
    (hs : ∀ n, ({ p with board := b } : Part).Names n → p.Names n) (hw : ({ p with board := b } : Part).weight ≤ p.weight) :
    p.Calm { p with board := b } :=
  ⟨⟨id, le_refl _, fun _ => le_refl _, le_refl _, id, hn, fun n h => h.imp (hv n) id, hs, hw⟩, rfl, rfl, rfl⟩

/-- A change of the Board Controller alone that leaves its records and the next take sequence. -/
theorem Part.setBoard_calm (b : BoardController) (p : Part) (h1 : b.held = p.board.held) (h2 : b.registry = p.board.registry)
    (h3 : b.finishes = p.board.finishes) (h4 : b.nextSeq = p.board.nextSeq) : p.Calm { p with board := b } := by
  refine Part.setBoard_calm' b p h4 (fun n h => by rwa [h1] at h) (fun n h => ?_) ?_
  · simpa only [Part.Names, h1, h2, h3] using h
  · simp only [Part.weight, Part.waitingHeld, h1, h3]; exact le_refl _

/-- A list of operations each of which is calm. -/
theorem Part.Calm.foldl {α : Type} {f : Part → α → Part} (h : ∀ (p : Part) (x : α), p.Calm (f p x)) (l : List α) (p : Part) :
    p.Calm (l.foldl f p) := by
  induction l generalizing p with
  | nil => exact .refl p
  | cons x rest ih => exact (h p x).trans (ih _)

/-! ## Raising and completing -/

theorem Part.submit_calm (b : Block) (l : List Access) (p : Part) : p.Calm (p.submit b l) :=
  .of_port (p.submit_same b l) (WindowPort.submit_later _ _ _) (WindowPort.submit_bounded b l)

/-- A change of the Service Unit followed by accesses raised. -/
theorem Part.serve_calm (v : ServiceUnit) (b : Block) (l : List Access) (p : Part) : p.Calm ({ p with svc := v }.submit b l) :=
  Part.Calm.trans (q := { p with svc := v }) .of_eq
    (Part.submit_calm _ _ _)

theorem Part.takeBankBit_calm (m : MapKind) (i : Nat) (p : Part) : p.Calm (p.takeBankBit m i) := by
  unfold Part.takeBankBit
  dsimp only
  split
  · exact p.serve_calm _ _ _
  · exact .of_eq

theorem Part.takeFault_calm (f : FaultRecord) (p : Part) : p.Calm (p.takeFault f) := p.serve_calm _ _ _
theorem Part.takeJournalLoss_calm (p : Part) : p.Calm p.takeJournalLoss := p.serve_calm _ _ _
theorem Part.takeUnadmitted_calm (p : Part) : p.Calm p.takeUnadmitted := p.serve_calm _ _ _

/-- The record of an in-flight request is freed: what can still finish falls by one at least. -/
theorem Part.freeHeld_weight (n : Nat) (p : Part) (h : (p.heldOf n).isSome = true) :
    ({ p with board := { p.board with held := p.board.held.filter fun x => x.seq != n } } : Part).weight + 1 ≤ p.weight := by
  have hw : (p.board.held.filter fun x => x.seq != n).length + 1 ≤ p.board.held.length := by
    obtain ⟨x, hx⟩ := Option.isSome_iff_exists.mp h
    have hm := List.mem_of_find?_eq_some hx
    have hq := List.find?_some hx
    simp only [beq_iff_eq] at hq
    have hlt : (p.board.held.filter fun x => x.seq != n).length < p.board.held.length := by
      rw [List.length_filter_lt_length_iff_exists]; exact ⟨x, hm, by simp [hq]⟩
    omega
  have hb : ((p.board.held.filter fun x => x.seq != n).filter fun h => h.owner == .boardController).length ≤ p.waitingHeld.length :=
    (List.filter_sublist.filter _).length_le
  simp only [Part.weight, Part.waitingHeld] at hb ⊢
  omega

theorem Part.freeHeld_calm (n : Nat) (p : Part) :
    p.Calm { p with board := { p.board with held := p.board.held.filter fun x => x.seq != n } } := by
  refine Part.setBoard_calm' _ p rfl (fun k h => ?_) (fun k h => ?_) ?_
  · obtain ⟨x, hx, hk⟩ := h
    exact ⟨x, List.mem_of_mem_filter hx, hk⟩
  · rcases h with ⟨x, hx, hk⟩ | h
    · exact Or.inl ⟨x, List.mem_of_mem_filter hx, hk⟩
    · exact Or.inr h
  · have h1 : (p.board.held.filter fun x => x.seq != n).length ≤ p.board.held.length := List.length_filter_le _ _
    have h2 : ((p.board.held.filter fun x => x.seq != n).filter fun h => h.owner == .boardController).length ≤ p.waitingHeld.length :=
      (List.filter_sublist.filter _).length_le
    simp only [Part.weight, Part.waitingHeld] at h2 ⊢
    omega

/-- R122: a completion taken brings no take sequence into use. -/
theorem Part.writeCompletion_calm (n : Nat) (u : Bool) (r : Result) (p : Part) : p.Calm (p.writeCompletion n u r) := by
  unfold Part.writeCompletion
  dsimp only
  split
  · exact Part.Calm.trans (Part.setBoard_calm _ p (by rfl) (by rfl) (by rfl) (by rfl)) (Part.submit_calm _ _ _)
  · exact Part.setBoard_calm _ p (by rfl) (by rfl) (by rfl) (by rfl)

theorem Part.writeCompletion_weight (n : Nat) (u : Bool) (r : Result) (p : Part) : (p.writeCompletion n u r).weight = p.weight := by
  unfold Part.writeCompletion
  dsimp only
  split <;> rfl

theorem Part.completeSlot_calm (n : Nat) (r : Result) (p : Part) : p.Calm (p.completeSlot n r) := by
  unfold Part.completeSlot
  split
  · exact .refl p
  · exact (p.freeHeld_calm n).trans (Part.writeCompletion_calm _ _ _ _)

/-- R122: the next completion comes to its turn. -/
theorem Part.completionDone_calm (p : Part) : p.Calm p.completionDone := by
  unfold Part.completionDone
  exact Part.Calm.trans (Part.Calm.trans (q := p.setSummary bitBoard)
    .of_eq (Part.setBoard_calm _ _ (by rfl) (by rfl) (by rfl) (by rfl)))
    (Part.submit_calm _ _ _)

theorem Part.submit_weight (b : Block) (l : List Access) (p : Part) : (p.submit b l).weight = p.weight := by rfl

theorem Part.noteFinish_weight (n : Nat) (b x : Bool) (p : Part) : (p.noteFinish n b x).weight = p.weight + 1 := by
  simp only [Part.weight, Part.waitingHeld, Part.noteFinish, List.length_append, List.length_singleton]; omega

theorem Part.noteFinish_mild (n : Nat) (b x : Bool) (p : Part) : p.Mild (p.noteFinish n b x) :=
  ⟨id, le_refl _, fun _ => le_refl _, le_refl _, id, by rfl, fun _ => id, by rfl, by rfl, by rfl⟩

/-- A finish is noted of an item in flight. -/
theorem Part.noteFinish_names (n : Nat) (b x : Bool) (p : Part) (k : Nat) (h : (p.noteFinish n b x).Names k) : k = n ∨ p.Names k := by
  rcases h with h | h | ⟨f, hf, hk⟩ | h
  · exact Or.inr (Or.inl h)
  · exact Or.inr (Or.inr (Or.inl h))
  · simp only [Part.noteFinish, List.mem_append, List.mem_singleton] at hf
    rcases hf with hf | hf
    · exact Or.inr (Or.inr (Or.inr (Or.inl ⟨f, hf, hk⟩)))
    · subst hf; exact Or.inl hk.symm
  · exact Or.inr (Or.inr (Or.inr (Or.inr h)))

theorem Part.heldOf_names {n : Nat} {p : Part} {h : HeldRequest} (e : p.heldOf n = some h) : p.Names n := by
  have hq := List.find?_some e
  simp only [beq_iff_eq] at hq
  exact Or.inl ⟨h, List.mem_of_find?_eq_some e, Or.inl hq⟩

theorem Part.completeRequest_calm (n : Nat) (r : Result) (p : Part) : p.Calm (p.completeRequest n r) := by
  unfold Part.completeRequest
  split
  · exact .refl p
  · rename_i h he
    have hc := p.completeSlot_calm n r
    refine ⟨⟨hc.port, hc.pool, hc.queue, hc.pages, hc.places, hc.next, hc.waits, fun k hk => ?_, ?_⟩, hc.run, hc.line, hc.later⟩
    · rcases Part.noteFinish_names _ _ _ _ _ hk with rfl | hk
      · exact Part.heldOf_names he
      · exact hc.names k hk
    · rw [Part.noteFinish_weight]
      have := p.freeHeld_weight n (by rw [he]; rfl)
      unfold Part.completeSlot
      simp only [he, Part.writeCompletion_weight]
      exact this

theorem Part.deliver_calm (h : Handover) (p : Part) : p.Calm (p.deliver h) := by
  cases h with
  | bankBit m i => exact p.takeBankBit_calm m i
  | fault f => exact p.takeFault_calm f
  | journalLoss => exact p.takeJournalLoss_calm
  | unadmitted => exact p.takeUnadmitted_calm
  | complete n r => exact p.completeRequest_calm n r

theorem Part.raiseFree_calm (b : Block) (l : List Item) (p : Part) : p.Calm (Part.raiseFree b l p) := by
  induction l generalizing p with
  | nil => exact .refl p
  | cons i rest ih =>
    cases i with
    | hand h => exact (p.deliver_calm h).trans (ih _)
    | access a =>
      unfold Part.raiseFree
      split
      · rename_i hr
        exact Part.Calm.trans (q := { p with port := p.port.push a })
          (.of_same (by rfl) (by rfl) (by rfl) (fun h => WindowPort.push_bounded h hr) (by rfl) (by rfl) (by rfl) (by rfl)) (ih _)
      · exact .of_eq (hw := WindowPort.park_later _ _ _) (hf := WindowPort.park_fifo _ _ _)

theorem Part.raise_calm (b : Block) (l : List Item) (p : Part) : p.Calm (Part.raise b l p) := by
  unfold Part.raise
  split
  · exact .of_eq (hw := WindowPort.park_later _ _ _) (hf := WindowPort.park_fifo _ _ _)
  · exact Part.raiseFree_calm b l p

/-- The completion of a request, behind the accesses its block has raised. -/
theorem Part.finishRequest_calm (b : Block) (n : Nat) (r : Result) (p : Part) : p.Calm (p.finishRequest b n r) := p.raise_calm b _

theorem Part.refill_calm (p : Part) : p.Calm p.refill := by
  unfold Part.refill
  split
  · exact .refl p
  · rename_i e _
    exact Part.Calm.trans
      (q := { p with port := { p.port with waiting := p.port.waiting.filter fun x => x.block != e.block } })
      .of_eq (Part.raiseFree_calm _ _ _)

/-! ## Performing -/

theorem State.performFront_calm (s : State) : s.part.Calm s.performFront.part := by
  unfold State.performFront
  split
  · exact .refl _
  · rename_i a rest hf
    refine Part.Calm.trans (q := { s.part with port := { s.part.port with
      fifo := rest, reports := if a.reported then s.part.port.reports ++ [a] else s.part.port.reports } }) ?_ (Part.refill_calm _)
    exact .of_same (by rfl) (by rfl) (by rfl) (WindowPort.bounded_of_cons (a := a) hf) (by rfl) (by rfl) (by rfl) (by rfl)

theorem State.perform_calm (n : Nat) (s : State) : s.part.Calm (State.perform n s).part := by
  induction n generalizing s with
  | zero => exact .refl _
  | succ n ih => exact s.performFront_calm.trans (ih _)

theorem State.performUntil_calm (what : Access → Bool) (n : Nat) (s : State) : s.part.Calm (State.performUntil what n s).part := by
  induction n generalizing s with
  | zero => exact .refl _
  | succ n ih =>
    unfold State.performUntil
    split
    · exact .refl _
    · exact s.performFront_calm.trans (ih _)

theorem State.performAll_calm (s : State) : s.part.Calm s.performAll.part := State.perform_calm _ s

theorem State.claim_calm {what : Access → Bool} {s t : State} (h : s.claim what = some t) : s.part.Calm t.part := by
  unfold State.claim at h
  split at h
  · have e := Option.some.inj h
    subst e
    exact (State.performUntil_calm what _ s).trans .of_eq
  · exact absurd h (by simp)

/-! ## Units -/

theorem Part.putUnit_slots (a : Nat) (new : Option FieldUnit) (f : Bool) (p : Part) :
    (p.putUnit a new f).um = if 1 ≤ a ∧ a ≤ 30 then
        { p.um with slots := p.um.slots.setIfInBounds a (UnitSlot.mk
            (if f || unitBody (p.unitSlot a).place != unitBody new then (p.unitSlot a).version + 2 else (p.unitSlot a).version) new) }
      else p.um := by
  unfold Part.putUnit
  split
  · exact (Part.raise_owners _ _ _).2.2.2.1
  · rfl

/-- R40: after a place is written it holds what was written, and every other place what it held. -/
theorem Part.unitAt_putUnit (a : Nat) (new : Option FieldUnit) (f : Bool) (p : Part) (b : Nat) :
    (p.putUnit a new f).unitAt b = if b = a ∧ 1 ≤ a ∧ a ≤ 30 then new else p.unitAt b := by
  unfold Part.unitAt Part.unitSlot
  rw [Part.putUnit_slots]
  by_cases h : 1 ≤ a ∧ a ≤ 30
  · simp only [h, and_self, if_true, and_true, Vector.getElem?_setIfInBounds]
    by_cases hb : b = a
    · subst hb
      have : b < 32 := by omega
      simp [this]
    · have : a ≠ b := fun e => hb e.symm
      simp [hb, this]
  · simp [h]

theorem Part.putUnit_calm (a : Nat) (new : Option FieldUnit) (f : Bool) (p : Part) : p.Calm (p.putUnit a new f) := by
  have hu := fun b => p.unitAt_putUnit a new f b
  have hp : (p.unitAt 0 = none ∧ p.unitAt 31 = none) → ((p.putUnit a new f).unitAt 0 = none ∧ (p.putUnit a new f).unitAt 31 = none) := by
    intro h
    rw [hu 0, hu 31]
    have h0 : ¬ (0 = a ∧ 1 ≤ a ∧ a ≤ 30) := by omega
    have h1 : ¬ (31 = a ∧ 1 ≤ a ∧ a ≤ 30) := by omega
    simp only [h0, h1, if_false]; exact h
  revert hp
  unfold Part.putUnit
  split
  · intro hp
    dsimp only at hp ⊢
    have h2 := Part.raise_calm .unitManager
      ((if f || unitBody (p.unitSlot a).place != unitBody new then mirrorWrites (unitMirrorAddr p.base a) (p.unitSlot a).version (unitBody new)
        else []).map Item.access ++ if unitBitChange (p.unitSlot a).place new then [Item.hand (.bankBit .unit a)] else [])
      { p with um := { p.um with slots := p.um.slots.setIfInBounds a (UnitSlot.mk
            (if f || unitBody (p.unitSlot a).place != unitBody new then (p.unitSlot a).version + 2 else (p.unitSlot a).version) new) } }
    exact ⟨⟨h2.port, h2.pool, h2.queue, h2.pages, hp, h2.next, h2.waits, h2.names, h2.weight⟩, h2.run, h2.line, h2.later⟩
  · intro _; exact .refl p

theorem Part.updateUnit_calm (a : Nat) (f : FieldUnit → FieldUnit) (p : Part) : p.Calm (p.updateUnit a f) := by
  unfold Part.updateUnit
  split
  · exact p.putUnit_calm _ _ _
  · exact .refl p

theorem Part.doEnroll_calm (n : Nat) (r : List Byte) (p : Part) : p.Calm (p.doEnroll n r) := by
  unfold Part.doEnroll
  split
  · exact (p.putUnit_calm _ _ _).trans (Part.finishRequest_calm _ _ _ _)
  · exact (p.putUnit_calm _ _ _).trans (Part.finishRequest_calm _ _ _ _)

theorem Part.doHold_calm (n : Nat) (r : List Byte) (p : Part) : p.Calm (p.doHold n r) := by
  unfold Part.doHold
  split
  · exact p.finishRequest_calm _ _ _
  · exact (p.putUnit_calm _ _ _).trans (Part.finishRequest_calm _ _ _ _)

theorem Part.takeAnnounce_calm (a : Nat) (g : BitVec 3) (c : Half) (d : Nat) (p : Part) : p.Calm (p.takeAnnounce a g c d) := by
  unfold Part.takeAnnounce
  split
  · exact .refl p
  · split
    · exact p.putUnit_calm _ _ _
    · exact .refl p

/-- A change of the DISMISS that waits alone. -/
theorem Part.setWait_calm (w : Option WaitingDismiss) (p : Part) : p.Calm { p with um := { p.um with dismissWait := w } } :=
  .of_eq

theorem Part.removeUnit_calm (a : Nat) (p : Part) : p.Calm (p.removeUnit a) := by
  unfold Part.removeUnit
  dsimp only
  split
  · split
    · exact ((p.putUnit_calm _ _ _).trans (Part.setWait_calm _ _)).trans (Part.finishRequest_calm _ _ _ _)
    · exact p.putUnit_calm _ _ _
  · exact p.putUnit_calm _ _ _

theorem Part.unitTurnEnd_calm (a : Nat) (k : TurnKind) (o : TurnOutcome) (p : Part) : p.Calm (p.unitTurnEnd a k o) := by
  unfold Part.unitTurnEnd
  split
  · exact .refl p
  · split
    · exact p.removeUnit_calm a
    · exact p.putUnit_calm _ _ _

theorem Part.reportLineFault_calm (f : Bool) (p : Part) : p.Calm (p.reportLineFault f) := by
  unfold Part.reportLineFault
  refine Part.Calm.foldl (fun q a => ?_) _ _
  unfold Part.lineCondition
  split
  · exact .refl q
  · split
    · exact .refl q
    · exact q.putUnit_calm _ _ _

theorem Part.countUnadmitted_calm (a : Nat) (p : Part) : p.Calm (p.countUnadmitted a) := by
  unfold Part.countUnadmitted
  split
  · exact p.putUnit_calm _ _ _
  · exact .refl p

end Sys2Proof.Machine
end

