-- ==== Sys2Proof/Laws/Blocks.lean ====
section
/-! SUPPORT. The same of the operations of the Journal Writer, the Directory Engine, the Transaction Engine and the Board Controller (Laws/Bounds.lean). -/

namespace Sys2Proof.Machine

/-! ## Journal -/

theorem JournalWriter.passOn_pages (j : JournalWriter) (l : List Page) : (j.passOn l).1.pages.length ≤ l.length := by
  induction l with
  | nil => simp [JournalWriter.passOn]
  | cons g rest ih =>
    unfold JournalWriter.passOn
    split
    · simp only [List.length_cons]; omega
    · simp [JournalWriter.openFront]

theorem JournalWriter.completeOpen_pages (o : ReqOutcome) (j : JournalWriter) : (j.completeOpen o).1.pages.length ≤ j.pages.length := by
  unfold JournalWriter.completeOpen
  split
  · rename_i g rest _ hp _
    have := j.passOn_pages rest
    simp only [hp, List.length_cons]; omega
  · exact le_refl _

/-- A change of the Journal Writer that lends no page. -/
theorem Part.setJournal_calm (j : JournalWriter) (p : Part) (h : j.pages.length ≤ p.jw.pages.length) : p.Calm { p with jw := j } :=
  ⟨⟨id, le_refl _, fun _ => le_refl _, h, id, rfl, fun _ => id, fun _ => id, le_refl _⟩, rfl, rfl, rfl⟩

theorem Part.completePage_calm (o : ReqOutcome) (p : Part) : p.Calm (p.completePage o) :=
  (Part.setJournal_calm _ p (JournalWriter.completeOpen_pages o p.jw)).trans (Part.raise_calm _ _ _)

theorem Part.loseRecord_calm (rec : JournalRecord) (p : Part) : p.Calm (p.loseRecord rec) := by
  unfold Part.loseRecord
  exact Part.Calm.trans (Part.setJournal_calm _ p (by exact le_refl _)) (Part.raise_calm _ _ _)

theorem Part.placeRecord_calm (rec : JournalRecord) (p : Part) : p.Calm (p.placeRecord rec) := by
  unfold Part.placeRecord
  split
  · exact Part.Calm.trans (Part.setJournal_calm _ p (by exact le_refl _)) (Part.raise_calm _ _ _)
  · exact p.loseRecord_calm rec

theorem Part.takeRecord_calm (rec : JournalRecord) (p : Part) : p.Calm (p.takeRecord rec) := by
  unfold Part.takeRecord
  split
  · exact (p.completePage_calm _).trans (Part.placeRecord_calm _ _)
  · exact p.placeRecord_calm rec

theorem Part.doCut_calm (n : Nat) (p : Part) : p.Calm (p.doCut n) := by
  unfold Part.doCut
  split
  · split
    · exact Part.raise_calm _ _ _
    · exact (p.completePage_calm _).trans (Part.raise_calm _ _ _)
  · exact Part.raise_calm _ _ _

theorem Part.withdrawPage_calm (n : Nat) (p : Part) : p.Calm (p.withdrawPage n) := by
  unfold Part.withdrawPage
  split
  · rename_i g rest _ hp _
    split
    · exact p.completePage_calm _
    · exact Part.setJournal_calm _ p (by simp [hp])
  · exact .refl p

theorem Part.drainJournal_calm (p : Part) : p.Calm p.drainJournal := by
  unfold Part.drainJournal
  exact Part.Calm.trans (Part.setJournal_calm _ p (by simp)) (Part.raise_calm _ _ _)

/-- R155: a LEND lends one page at most; nothing else grows. -/
theorem Part.doLend_tame (n : Nat) (r : List Byte) (p : Part) :
    (p.doLend n r).run = p.run ∧ (p.doLend n r).line = p.line ∧ (p.port.Bounded → (p.doLend n r).port.Bounded) ∧
    (p.doLend n r).te = p.te ∧ (p.doLend n r).um = p.um ∧ (p.doLend n r).jw.pages.length ≤ p.jw.pages.length + 1 ∧
    (p.doLend n r).board.nextSeq = p.board.nextSeq ∧ (∀ k, (p.doLend n r).Waits k → p.Waits k) ∧ (∀ k, (p.doLend n r).Names k → p.Names k) ∧ (p.doLend n r).weight ≤ p.weight ∧ (p.doLend n r).port.later = p.port.later := by
  unfold Part.doLend
  split
  · have h := Part.raise_owners .journalWriter [.hand (.complete n { outcome := .stopped })] p
    have h2 := Part.raise_calm .journalWriter [.hand (.complete n { outcome := .stopped })] p
    exact ⟨h.1, h.2.2.1, h2.port, h.2.1, h.2.2.2.1, by rw [h.2.2.2.2.2]; omega, h2.next, h2.waits, h2.names, h2.weight, h2.later⟩
  · dsimp only
    split
    · exact ⟨by rfl, by rfl, id, by rfl, by rfl, by simp [JournalWriter.openFront], by rfl, fun _ => id, fun _ => id, le_refl _, by rfl⟩
    · exact ⟨by rfl, by rfl, id, by rfl, by rfl, by simp, by rfl, fun _ => id, fun _ => id, le_refl _, by rfl⟩

/-! ## Directory -/

/-- A change of the Directory Engine alone. -/
theorem Part.setDirectory_calm (d : DirectoryEngine) (p : Part) : p.Calm { p with dir := d } :=
  .of_eq

theorem Part.putEntry_calm (n : Nat) (new : Option Entry) (f : Bool) (p : Part) : p.Calm (p.putEntry n new f) := by
  unfold Part.putEntry
  split
  · exact Part.Calm.trans (Part.setDirectory_calm _ p) (Part.raise_calm _ _ _)
  · exact .refl p

theorem Part.doDeclare_calm (n : Nat) (r : List Byte) (p : Part) : p.Calm (p.doDeclare n r) := by
  unfold Part.doDeclare
  dsimp only
  split
  · split
    · exact (p.putEntry_calm _ _ _).trans (Part.finishRequest_calm _ _ _ _)
    · exact .refl p
  · split
    · exact (p.putEntry_calm _ _ _).trans (Part.finishRequest_calm _ _ _ _)
    · exact p.finishRequest_calm _ _ _

theorem Part.retireEntry_calm (n : Nat) (p : Part) : p.Calm (p.retireEntry n) := by
  unfold Part.retireEntry
  split
  · exact p.putEntry_calm _ _ _
  · exact .refl p

theorem Part.doRetire_calm (n : Nat) (r : List Byte) (p : Part) : p.Calm (p.doRetire n r) := by
  unfold Part.doRetire
  split
  · exact (p.retireEntry_calm _).trans (Part.finishRequest_calm _ _ _ _)
  · exact p.finishRequest_calm _ _ _

theorem Part.clearNumber_calm (a b : Bool) (n : Nat) (p : Part) : p.Calm (p.clearNumber a b n) := by
  unfold Part.clearNumber
  split
  · exact p.putEntry_calm _ _ _
  · exact .refl p

theorem Part.doClear_calm (n : Nat) (r : List Byte) (p : Part) : p.Calm (p.doClear n r) :=
  (Part.Calm.foldl (fun q x => q.clearNumber_calm _ _ x) _ p).trans (Part.finishRequest_calm _ _ _ _)

theorem Part.retireUnit_calm (a : Nat) (p : Part) : p.Calm (p.retireUnit a) :=
  Part.Calm.foldl (fun q x => q.retireEntry_calm x) _ p

theorem Part.changeClearUnit_calm (a : Nat) (p : Part) : p.Calm (p.changeClearUnit a) := by
  refine Part.Calm.foldl (fun q x => ?_) _ p
  unfold Part.changeClear
  split
  · exact q.putEntry_calm _ _ _
  · exact .refl q

/-! ## Transactions -/

/-- A change of the Transaction Engine that takes nothing on. -/
theorem Part.setEngine_calm (e : TransactionEngine) (p : Part) (h : e.pool.Sublist p.te.pool)
    (hy : ∀ y ∈ e.syncs, ∃ x ∈ p.te.syncs, y.seq = x.seq ∧ (y.pred = x.pred ∨ y.pred = none) ∧ ∀ n ∈ y.waitingFor, n ∈ x.waitingFor)
    (hw : ∀ w ∈ e.aborts, w ∈ p.te.aborts) : p.Calm { p with te := e } := by
  refine ⟨⟨id, h.length_le, fun _ => (h.filter _).length_le, le_refl _, id, rfl, fun n hn => ?_, fun n hn => ?_, ?_⟩, rfl, rfl, rfl⟩
  · rcases hn with h1 | ⟨t, ht, h1⟩ | ⟨y, hm, h1⟩
    · exact Or.inl h1
    · exact Or.inr (Or.inl ⟨t, h.subset ht, h1⟩)
    · obtain ⟨x, hx, _, e2, _⟩ := hy y hm
      refine Or.inr (Or.inr ⟨x, hx, ?_⟩)
      rcases e2 with e2 | e2
      · exact e2 ▸ h1
      · rw [e2] at h1; exact absurd h1 (by simp)
  · rcases hn with h1 | h1 | h1 | ⟨t, ht, h1⟩ | ⟨y, hm, h1⟩ | ⟨w, hm, h1⟩
    · exact Or.inl h1
    · exact Or.inr (Or.inl h1)
    · exact Or.inr (Or.inr (Or.inl h1))
    · exact Or.inr (Or.inr (Or.inr (Or.inl ⟨t, h.subset ht, h1⟩)))
    · obtain ⟨x, hx, e1, e2, e3⟩ := hy y hm
      refine Or.inr (Or.inr (Or.inr (Or.inr (Or.inl ⟨x, hx, ?_⟩))))
      rcases h1 with h1 | h1 | h1
      · exact Or.inl (e1 ▸ h1)
      · rcases e2 with e2 | e2
        · exact Or.inr (Or.inl (e2 ▸ h1))
        · rw [e2] at h1; exact absurd h1 (by simp)
      · exact Or.inr (Or.inr (e3 n h1))
    · exact Or.inr (Or.inr (Or.inr (Or.inr (Or.inr ⟨w, hw w hm, h1⟩))))
  · have := h.length_le
    simp only [Part.weight, Part.waitingHeld]; omega

theorem SyncRecord.self_rel {l : List SyncRecord} {y : SyncRecord} (h : y ∈ l) :
    ∃ x ∈ l, y.seq = x.seq ∧ (y.pred = x.pred ∨ y.pred = none) ∧ ∀ n ∈ y.waitingFor, n ∈ x.waitingFor :=
  ⟨y, h, rfl, Or.inl rfl, fun _ => id⟩

/-- A change of transaction records that keeps their unit and sequence and takes on no predecessor. -/
theorem Part.mapTxn_calm (n : Nat) (f : Transaction → Transaction) (p : Part) (hf : ∀ t, (f t).unit = t.unit)
    (hs : ∀ t, (f t).seq = t.seq) (hp : ∀ t, (f t).pred = t.pred ∨ (f t).pred = none) : p.Calm (p.mapTxn n f) := by
  refine ⟨⟨id, by simp [Part.mapTxn], fun a => ?_, le_refl _, id, rfl, fun k hk => ?_, fun k hk => ?_, ?_⟩, by rfl, by rfl, by rfl⟩
  · have h : ∀ l : List Transaction,
        ((l.map fun t => if t.seq = n then f t else t).filter fun t => t.unit == a).length = (l.filter fun t => t.unit == a).length := by
      intro l
      induction l with
      | nil => rfl
      | cons t rest ih =>
        have hu : (if t.seq = n then f t else t).unit = t.unit := by split <;> simp [hf]
        simp only [List.map_cons, List.filter_cons, hu]
        split <;> simp [ih]
    exact (h p.te.pool).le
  · rcases hk with h1 | ⟨t, ht, h1⟩ | h1
    · exact Or.inl h1
    · simp only [Part.mapTxn, List.mem_map] at ht
      obtain ⟨x, hx, rfl⟩ := ht
      refine Or.inr (Or.inl ⟨x, hx, ?_⟩)
      split at h1
      · rcases hp x with e | e
        · exact e ▸ h1
        · rw [e] at h1; exact absurd h1 (by simp)
      · exact h1
    · exact Or.inr (Or.inr h1)
  · rcases hk with h1 | h1 | h1 | ⟨t, ht, h1⟩ | h1
    · exact Or.inl h1
    · exact Or.inr (Or.inl h1)
    · exact Or.inr (Or.inr (Or.inl h1))
    · simp only [Part.mapTxn, List.mem_map] at ht
      obtain ⟨x, hx, rfl⟩ := ht
      refine Or.inr (Or.inr (Or.inr (Or.inl ⟨x, hx, ?_⟩)))
      split at h1
      · rcases h1 with h1 | h1
        · exact Or.inl (hs x ▸ h1)
        · rcases hp x with e | e
          · exact Or.inr (e ▸ h1)
          · rw [e] at h1; exact absurd h1 (by simp)
      · exact h1
    · exact Or.inr (Or.inr (Or.inr (Or.inr h1)))
  · simp [Part.weight, Part.waitingHeld, Part.mapTxn]

theorem Part.endSync_calm (y : SyncRecord) (o : ReqOutcome) (p : Part) : p.Calm (p.endSync y o) :=
  Part.Calm.trans (Part.setEngine_calm { p.te with syncs := p.te.syncs.filter fun x => x.seq != y.seq } p (List.Sublist.refl _)
    (fun _ h => SyncRecord.self_rel (List.mem_of_mem_filter h)) (fun _ => id)) (Part.completeRequest_calm _ _ _)

theorem Part.endSyncs_calm (ys : List SyncRecord) (p : Part) : p.Calm (p.endSyncs ys) := Part.Calm.foldl (fun q y => q.endSync_calm y .ok) _ p

theorem Part.reserveToken_calm (t : Transaction) (e : Ending) (p : Part) : p.Calm (p.reserveToken t e) := by
  unfold Part.reserveToken
  split
  · split
    · exact .refl p
    · exact p.updateUnit_calm _ _
  · exact .refl p

theorem Part.reportEnding_calm (t : Transaction) (e : Ending) (p : Part) : p.Calm (p.reportEnding t e) := by
  unfold Part.reportEnding
  split
  · exact p.completeSlot_calm _ _
  · split
    · exact .refl p
    · exact Part.raise_calm _ _ _

/-- A SYNC that counts a finish takes nothing on. -/
theorem Part.countSyncs_calm (n : Nat) (ok : Bool) (p : Part) :
    p.Calm { p with te := { p.te with syncs := p.te.syncs.map (SyncRecord.count n ok) } } := by
  refine Part.setEngine_calm _ p (by exact List.Sublist.refl _) (fun y hy => ?_) (fun _ => id)
  obtain ⟨x, hx, rfl⟩ := List.mem_map.mp hy
  refine ⟨x, hx, ?_⟩
  unfold SyncRecord.count
  split
  · exact ⟨rfl, Or.inl rfl, fun _ => List.mem_of_mem_filter⟩
  · exact ⟨rfl, Or.inl rfl, fun _ => id⟩


/-! ### Finishing -/

theorem Part.endSync_pool (y : SyncRecord) (o : ReqOutcome) (p : Part) : (p.endSync y o).te.pool = p.te.pool := by
  unfold Part.endSync; rw [(Part.completeRequest_owners _ _ _).2.1]

theorem Part.endSyncs_pool (ys : List SyncRecord) (p : Part) : (p.endSyncs ys).te.pool = p.te.pool := by
  have h : ∀ (l : List SyncRecord) (q : Part), (l.foldl (fun q y => q.endSync y .ok) q).te.pool = q.te.pool := by
    intro l
    induction l with
    | nil => intro q; rfl
    | cons y rest ih => intro q; exact (ih _).trans (q.endSync_pool y .ok)
  exact h _ p

theorem Part.updateUnit_te (a : Nat) (f : FieldUnit → FieldUnit) (p : Part) : (p.updateUnit a f).te = p.te := by
  unfold Part.updateUnit
  split
  · unfold Part.putUnit
    split
    · exact (Part.raise_owners _ _ _).2.1
    · rfl
  · rfl

/-- The part with a record taken from the pool. -/
def Part.without (n : Nat) (p : Part) : Part := { p with te := { p.te with pool := p.te.pool.filter fun x => x.seq != n } }

theorem Part.without_calm (n : Nat) (p : Part) : p.Calm (p.without n) :=
  Part.setEngine_calm _ p (by exact List.filter_sublist) (fun _ h => SyncRecord.self_rel h) (fun _ => id)

theorem Part.without_weight (n : Nat) (p : Part) :
    (p.without n).weight + p.te.pool.length = p.weight + (p.te.pool.filter fun x => x.seq != n).length := by
  simp only [Part.weight, Part.waitingHeld, Part.without]; omega

/-- R85: a finish takes the record from the pool, and leaves one item more to resolve. -/
theorem Part.finishTxn_facts (t : Transaction) (e : Ending) (p : Part) :
    p.Mild (p.finishTxn t e) ∧ (p.finishTxn t e).te.pool = (p.te.pool.filter fun x => x.seq != t.seq) ∧
    (∀ n, (p.finishTxn t e).Names n → n = t.seq ∨ p.Names n) ∧
    (p.finishTxn t e).weight + p.te.pool.length ≤ p.weight + (p.te.pool.filter fun x => x.seq != t.seq).length + 1 := by
  have h0 := p.without_calm t.seq
  have hw := p.without_weight t.seq
  have h1 := Part.reserveToken_calm t e (p.without t.seq)
  have h2 := Part.reportEnding_calm t e ((p.without t.seq).reserveToken t e)
  have h01 := (h0.trans h1).trans h2
  have hq := h1.trans h2
  obtain ⟨q, hqdef⟩ : ∃ q, q = (((p.without t.seq).reserveToken t e).reportEnding t e) := ⟨_, rfl⟩
  rw [← hqdef] at h01 hq
  have hte : q.te.pool = (p.te.pool.filter fun x => x.seq != t.seq) := by
    rw [hqdef]
    have e2 : (((p.without t.seq).reserveToken t e).reportEnding t e).te = ((p.without t.seq).reserveToken t e).te := by
      unfold Part.reportEnding
      split
      · exact (Part.completeSlot_owners _ _ _).2.1
      · split
        · rfl
        · exact (Part.raise_owners _ _ _).2.1
    have e1 : ((p.without t.seq).reserveToken t e).te = (p.without t.seq).te := by
      unfold Part.reserveToken
      split
      · split
        · rfl
        · exact Part.updateUnit_te _ _ _
      · rfl
    rw [e2, e1]; rfl
  have h3 := q.noteFinish_mild t.seq (e.outcome == .ok) true
  have hdef : p.finishTxn t e = q.noteFinish t.seq (e.outcome == .ok) true := by rw [hqdef]; rfl
  rw [hdef]
  refine ⟨h01.mild.trans h3, ?_, fun n hn => ?_, ?_⟩
  · rw [Part.noteFinish_te]; exact hte
  · rcases Part.noteFinish_names _ _ _ _ _ hn with h | h
    · exact Or.inl h
    · exact Or.inr (h01.names n h)
  · rw [Part.noteFinish_weight]
    have w2 := hq.weight
    omega

theorem Part.finishTxn_calm (t : Transaction) (e : Ending) (p : Part) (ht : ∃ x ∈ p.te.pool, x.seq = t.seq) : p.Calm (p.finishTxn t e) := by
  obtain ⟨hm, hp, hn, hw⟩ := p.finishTxn_facts t e
  refine hm.calm (fun n h => ?_) ?_
  · rcases hn n h with rfl | h
    · obtain ⟨x, hx, hs⟩ := ht
      exact Or.inr (Or.inr (Or.inr (Or.inl ⟨x, hx, Or.inl hs⟩)))
    · exact h
  · have : (p.te.pool.filter fun x => x.seq != t.seq).length < p.te.pool.length := by
      rw [List.length_filter_lt_length_iff_exists]
      obtain ⟨x, hx, hs⟩ := ht
      exact ⟨x, hx, by simp [hs]⟩
    omega

/-- Records of the pool that finish, each once. -/
theorem Part.finishList_facts (ts : List Transaction) (e : Ending) (p : Part) :
    p.Mild (ts.foldl (fun q t => q.finishTxn t e) p) ∧
    (ts.foldl (fun q t => q.finishTxn t e) p).te.pool = (p.te.pool.filter fun x => !(ts.map (·.seq)).contains x.seq) ∧
    (∀ n, (ts.foldl (fun q t => q.finishTxn t e) p).Names n → n ∈ ts.map (·.seq) ∨ p.Names n) ∧
    (ts.foldl (fun q t => q.finishTxn t e) p).weight + p.te.pool.length ≤
      p.weight + (ts.foldl (fun q t => q.finishTxn t e) p).te.pool.length + ts.length := by
  induction ts generalizing p with
  | nil =>
    refine ⟨(Part.Calm.refl p).mild, ?_, fun n h => Or.inr h, ?_⟩
    · simp
    · simp
  | cons t rest ih =>
    obtain ⟨hm, hp, hn, hw⟩ := p.finishTxn_facts t e
    obtain ⟨im, ip, in', iw⟩ := ih (p.finishTxn t e)
    simp only [List.foldl_cons]
    refine ⟨hm.trans im, ?_, fun n h => ?_, ?_⟩
    · rw [ip, hp, List.filter_filter]
      congr 1
      funext x
      by_cases hx : x.seq = t.seq <;> simp [hx]
    · rcases in' n h with h | h
      · exact Or.inl (by simp only [List.map_cons, List.mem_cons]; exact Or.inr h)
      · rcases hn n h with h | h
        · exact Or.inl (by simp [h])
        · exact Or.inr h
    · rw [hp] at iw
      simp only [List.length_cons]
      omega

theorem Part.finishAll_calm (ts : List Transaction) (o : ReqOutcome) (p : Part) (hs : ts.Sublist p.te.pool) : p.Calm (p.finishAll ts o) := by
  obtain ⟨hm, hp, hn, hw⟩ := p.finishList_facts ts { outcome := o }
  refine Part.Mild.calm hm (fun n h => ?_) ?_
  · rcases hn n h with h | h
    · obtain ⟨t, ht, rfl⟩ := List.mem_map.mp h
      exact Or.inr (Or.inr (Or.inr (Or.inl ⟨t, hs.subset ht, Or.inl rfl⟩)))
    · exact h
  · have hl : (p.te.pool.filter fun x => !(ts.map (·.seq)).contains x.seq).length + ts.length ≤ p.te.pool.length := by
      have h1 : ts.Sublist (p.te.pool.filter fun x => (ts.map (·.seq)).contains x.seq) := by
        have h2 := hs.filter fun x => (ts.map (·.seq)).contains x.seq
        have h3 : (ts.filter fun x => (ts.map (·.seq)).contains x.seq) = ts := by
          rw [List.filter_eq_self]
          intro x hx
          simp only [List.contains_iff_mem]
          exact List.mem_map.mpr ⟨x, hx, rfl⟩
        rwa [h3] at h2
      have h4 := h1.length_le
      have h5 := List.length_eq_length_filter_add (l := p.te.pool) fun x => (ts.map (·.seq)).contains x.seq
      omega
    rw [hp] at hw
    exact Nat.le_of_add_le_add_right (b := p.te.pool.length) (by
      show (p.finishAll ts o).weight + p.te.pool.length ≤ p.weight + p.te.pool.length
      have hw' : (p.finishAll ts o).weight + p.te.pool.length ≤ _ := hw
      omega)

theorem Part.markSending_calm (t : Transaction) (k : Nat) (p : Part) : p.Calm (p.markSending t k) :=
  (Part.mapTxn_calm t.seq (fun x => { x with token := some k, sends := saturate 255 x.sends, state := .sending }) p (fun _ => rfl)
    (fun _ => rfl) (fun _ => Or.inl rfl)).trans (Part.updateUnit_calm _ _ _)

theorem Part.endAborts_calm (n : Nat) (o : ReqOutcome) (p : Part) : p.Calm (p.endAborts n o) :=
  Part.Calm.foldl (fun q (w : WaitingAbort) => Part.Calm.trans
    (Part.setEngine_calm { q.te with aborts := q.te.aborts.filter fun x => x.seq != w.seq } q (List.Sublist.refl _)
      (fun _ h => SyncRecord.self_rel h) (fun _ => List.mem_of_mem_filter)) (Part.completeRequest_calm _ _ _)) _ p

theorem Part.countDismissed_calm (a : Nat) (p : Part) : p.Calm (p.countDismissed a) := by
  unfold Part.countDismissed
  split
  · split
    · exact Part.setWait_calm _ p
    · exact .refl p
  · exact .refl p

theorem Part.countDismissed_te (a : Nat) (p : Part) : (p.countDismissed a).te = p.te := by
  unfold Part.countDismissed
  split
  · split <;> rfl
  · rfl

theorem Part.findTxn_mem {n : Nat} {p : Part} {t : Transaction} (h : p.findTxn n = some t) : t ∈ p.te.pool ∧ t.seq = n := by
  refine ⟨List.mem_of_find?_eq_some h, ?_⟩
  have := List.find?_some h
  simpa using this

theorem Part.settleCommand_calm (n : Nat) (a : Answer) (p : Part) : p.Calm (p.settleCommand n a) := by
  unfold Part.settleCommand
  split
  · exact .refl p
  · rename_i t ht
    have hm := (Part.findTxn_mem ht).1
    split
    · exact .refl p
    · split
      · dsimp only
        split
        · refine ((p.countDismissed_calm _).trans (Part.finishTxn_calm _ _ _ ?_)).trans (Part.endAborts_calm _ _ _)
          exact ⟨t, by rw [Part.countDismissed_te]; exact hm, rfl⟩
        · exact (p.finishTxn_calm _ _ ⟨t, hm, rfl⟩).trans (Part.endAborts_calm _ _ _)
      · exact Part.mapTxn_calm n _ p (fun _ => rfl) (fun _ => rfl) (fun _ => Or.inl rfl)
      · exact Part.mapTxn_calm n _ p (fun _ => rfl) (fun _ => rfl) (fun _ => Or.inl rfl)

theorem Part.takeResult_calm (a k c : Nat) (l : List Byte) (p : Part) : p.Calm (p.takeResult a k c l) := by
  unfold Part.takeResult
  split
  · exact .refl p
  · split
    · exact .refl p
    · split
      · rename_i t ht
        have hm := List.mem_of_mem_filter (List.mem_of_find?_eq_some ht)
        exact (p.finishTxn_calm _ _ ⟨t, hm, rfl⟩).trans (Part.updateUnit_calm _ _ _)
      · split
        · exact ((p.updateUnit_calm _ _).trans (Part.raise_calm _ _ _)).trans (Part.updateUnit_calm _ _ _)
        · split
          · exact p.updateUnit_calm _ _
          · exact Part.raise_calm _ _ _

/-- R84: a TRANSACT puts one record into the pool and into its unit's queue; nothing else grows. -/
theorem Part.doTransact_tame (n slot : Nat) (r : List Byte) (pred : Option Nat) (p : Part) :
    (p.doTransact n slot r pred).run = p.run ∧ (p.doTransact n slot r pred).line = p.line ∧
    (p.port.Bounded → (p.doTransact n slot r pred).port.Bounded) ∧
    (p.doTransact n slot r pred).te.pool.length = p.te.pool.length + 1 ∧
    (∀ a, ((p.doTransact n slot r pred).unitQueue a).length = (p.unitQueue a).length + if a = Req.unit r then 1 else 0) ∧
    (p.doTransact n slot r pred).jw = p.jw ∧ (p.doTransact n slot r pred).um = p.um ∧
    (p.doTransact n slot r pred).board.nextSeq = p.board.nextSeq ∧
    (∀ k, (p.doTransact n slot r pred).Waits k → p.Waits k ∨ pred = some k) ∧
    (∀ k, (p.doTransact n slot r pred).Names k → p.Names k ∨ k = n ∨ pred = some k) ∧
    (p.doTransact n slot r pred).weight ≤ p.weight + 1 ∧ (p.doTransact n slot r pred).port.later = p.port.later := by
  have hq : ∀ (l : List Transaction) (t : Transaction) (a : Nat), ((l ++ [t]).filter fun x => x.unit == a).length =
      (l.filter fun x => x.unit == a).length + if a = t.unit then 1 else 0 := by
    intro l t a
    rw [List.filter_append, List.length_append]
    by_cases h : a = t.unit
    · subst h; simp
    · have : ¬ t.unit = a := fun e => h e.symm
      simp [this, h]
  unfold Part.doTransact
  dsimp only
  have hn : ∀ (t : Transaction) (k : Nat), t.seq = n → t.pred = pred →
      ({ p with te := { p.te with pool := p.te.pool ++ [t] } } : Part).Names k → p.Names k ∨ k = n ∨ pred = some k := by
    intro t k hs hp hk
    rcases hk with h1 | h1 | h1 | ⟨x, hx, h1⟩ | h1
    · exact Or.inl (Or.inl h1)
    · exact Or.inl (Or.inr (Or.inl h1))
    · exact Or.inl (Or.inr (Or.inr (Or.inl h1)))
    · simp only [List.mem_append, List.mem_singleton] at hx
      rcases hx with hx | rfl
      · exact Or.inl (Or.inr (Or.inr (Or.inr (Or.inl ⟨x, hx, h1⟩))))
      · rcases h1 with h1 | h1
        · exact Or.inr (Or.inl (h1.symm.trans hs))
        · exact Or.inr (Or.inr (hp.symm.trans h1))
    · exact Or.inl (Or.inr (Or.inr (Or.inr (Or.inr h1))))
  have hv : ∀ (t : Transaction) (k : Nat), t.pred = pred →
      ({ p with te := { p.te with pool := p.te.pool ++ [t] } } : Part).Waits k → p.Waits k ∨ pred = some k := by
    intro t k hp hk
    rcases hk with h1 | ⟨x, hx, h1⟩ | h1
    · exact Or.inl (Or.inl h1)
    · simp only [List.mem_append, List.mem_singleton] at hx
      rcases hx with hx | rfl
      · exact Or.inl (Or.inr (Or.inl ⟨x, hx, h1⟩))
      · exact Or.inr (hp.symm.trans h1)
    · exact Or.inl (Or.inr (Or.inr h1))
  split
  · have h := Part.completeSlot_owners n { outcome := .accepted }
    refine ⟨(h _).1, (h _).2.2.1, fun hb => (Part.completeSlot_calm _ _ _).port hb, by rw [(h _).2.1]; simp, fun a => ?_,
      (h _).2.2.2.2.2, (h _).2.2.2.1, (Part.completeSlot_calm _ _ _).next, fun k hk => ?_, fun k hk => ?_, ?_,
      (Part.completeSlot_calm _ _ _).later⟩
    · simp only [Part.unitQueue, (h _).2.1]
      exact hq _ _ _
    · refine hv _ k ?_ ((Part.completeSlot_calm _ _ _).waits k hk); rfl
    · refine hn _ k ?_ ?_ ((Part.completeSlot_calm _ _ _).names k hk) <;> rfl
    · refine (Part.completeSlot_calm _ _ _).weight.trans ?_
      simp only [Part.weight, Part.waitingHeld, List.length_append, List.length_singleton]; omega
  · refine ⟨by rfl, by rfl, id, by simp, fun a => hq _ _ _, by rfl, by rfl, by rfl, fun k hk => hv _ k (by rfl) hk,
      fun k hk => hn _ k (by rfl) (by rfl) hk, ?_, by rfl⟩
    simp only [Part.weight, Part.waitingHeld, List.length_append, List.length_singleton]; omega

theorem Part.Waits.names {p : Part} {n : Nat} (h : p.Waits n) : p.Names n := by
  rcases h with ⟨x, hx, _, h⟩ | ⟨x, hx, h⟩ | ⟨x, hx, h⟩
  · exact Or.inl ⟨x, hx, Or.inr h⟩
  · exact Or.inr (Or.inr (Or.inr (Or.inl ⟨x, hx, Or.inr h⟩)))
  · exact Or.inr (Or.inr (Or.inr (Or.inr (Or.inl ⟨x, hx, Or.inr (Or.inl h)⟩))))

/-- The transaction an ABORT found stands in the pool. -/
def AbortTarget.inPool (p : Part) : AbortTarget → Prop
  | .txn t => t ∈ p.te.pool
  | .nothing | .sync _ | .held _ | .dismiss _ | .lend _ | .abort => True

theorem Part.abortTarget_inPool (n : Nat) (p : Part) : (p.abortTarget n).inPool p := by
  unfold Part.abortTarget
  split
  · rename_i t _ h; exact (Part.findTxn_mem h).1
  · trivial
  · split
    · trivial
    · split
      · trivial
      · split
        · trivial
        · split
          · trivial
          · split
            · split <;> trivial
            · trivial

theorem Part.abortItem_calm (n : Nat) (t : AbortTarget) (p : Part) (hn : p.Names n) (ht : t.inPool p) : p.Calm (p.abortItem n t) := by
  unfold Part.abortItem
  split
  · exact p.completeRequest_calm _ _
  · exact p.completeRequest_calm _ _
  · exact (p.endSync_calm _ _).trans (Part.completeRequest_calm _ _ _)
  · exact (p.completeRequest_calm _ _).trans (Part.completeRequest_calm _ _ _)
  · exact ((Part.setWait_calm _ p).trans (Part.completeRequest_calm _ _ _)).trans (Part.completeRequest_calm _ _ _)
  · exact (p.withdrawPage_calm _).trans (Part.finishRequest_calm _ _ _ _)
  · rename_i t
    have hm : ∃ x ∈ p.te.pool, x.seq = t.seq := ⟨t, ht, rfl⟩
    split
    · exact (p.finishTxn_calm _ _ hm).trans (Part.completeRequest_calm _ _ _)
    · exact (p.finishTxn_calm _ _ hm).trans (Part.completeRequest_calm _ _ _)
    · dsimp only
      have h1 := Part.mapTxn_calm t.seq (fun x => { x with abortRequested := true }) p (fun _ => rfl) (fun _ => rfl) (fun _ => Or.inl rfl)
      refine ⟨⟨h1.port, h1.pool, h1.queue, h1.pages, h1.places, h1.next, h1.waits, fun k hk => ?_, h1.weight⟩, h1.run, h1.line, h1.later⟩
      rcases hk with h2 | h2 | h2 | h2 | h2 | ⟨w, hw, h2⟩
      · exact h1.names k (Or.inl h2)
      · exact h1.names k (Or.inr (Or.inl h2))
      · exact h1.names k (Or.inr (Or.inr (Or.inl h2)))
      · exact h1.names k (Or.inr (Or.inr (Or.inr (Or.inl h2))))
      · exact h1.names k (Or.inr (Or.inr (Or.inr (Or.inr (Or.inl h2)))))
      · simp only [List.mem_append, List.mem_singleton] at hw
        rcases hw with hw | rfl
        · exact h1.names k (Or.inr (Or.inr (Or.inr (Or.inr (Or.inr ⟨w, hw, h2⟩)))))
        · rcases h2 with h2 | h2
          · exact h2 ▸ hn
          · exact Or.inr (Or.inr (Or.inr (Or.inl ⟨t, ht, Or.inl h2⟩)))

theorem Part.doAbort_calm (n : Nat) (r : List Byte) (p : Part) (hn : p.Names n) : p.Calm (p.doAbort n r) := by
  unfold Part.doAbort
  split
  · exact p.abortItem_calm _ _ hn trivial
  · exact p.abortItem_calm _ _ hn (p.abortTarget_inPool _)

theorem Part.failDeferred_calm (a : Nat) (p : Part) : p.Calm (p.failDeferred a) :=
  (p.finishAll_calm _ _ (List.filter_sublist.trans List.filter_sublist)).trans (Part.updateUnit_calm _ _ _)

theorem Part.dismissTransactions_calm (a : Nat) (p : Part) : p.Calm (p.dismissTransactions a) :=
  (p.finishAll_calm _ _ (List.filter_sublist.trans List.filter_sublist)).trans (Part.updateUnit_calm _ _ _)

theorem Part.drainTransactions_calm (p : Part) : p.Calm p.drainTransactions :=
  ((Part.Calm.foldl (fun q y => q.endSync_calm y .stopped) _ p).trans (Part.finishAll_calm _ _ _ List.filter_sublist)).trans
    (Part.Calm.foldl (fun q a => q.updateUnit_calm a _) _ _)

/-! ## Board -/

theorem Part.writeTaken_calm (slot : Nat) (p : Part) : p.Calm (p.writeTaken slot) := p.submit_calm _ _

/-- A record that becomes held keeps its take sequence, its predecessor and its owner. -/
theorem Part.holdRecord_calm (n : Nat) (p : Part) : p.Calm (p.holdRecord n) := by
  obtain ⟨f, hf⟩ : ∃ f : HeldRequest → HeldRequest, f = fun h => if h.seq = n then { h with taken := true } else h := ⟨_, rfl⟩
  have hdef : p.holdRecord n = { p with board := { p.board with held := p.board.held.map f } } := by rw [hf]; rfl
  have hs : ∀ x, (f x).seq = x.seq ∧ (f x).pred = x.pred ∧ (f x).owner = x.owner := by
    intro x; rw [hf]; dsimp only; split <;> exact ⟨rfl, rfl, rfl⟩
  have ho : (fun h : HeldRequest => h.owner == Block.boardController) ∘ f = fun h => h.owner == Block.boardController := by
    funext x; simp only [Function.comp, (hs x).2.2]
  rw [hdef]
  refine Part.setBoard_calm' _ p rfl (fun k h => ?_) (fun k h => ?_) ?_
  · obtain ⟨x, hx, hk⟩ := h
    obtain ⟨y, hy, rfl⟩ := List.mem_map.mp hx
    exact ⟨y, hy, by rwa [(hs y).2.1, (hs y).2.2] at hk⟩
  · rcases h with ⟨x, hx, hk⟩ | h
    · obtain ⟨y, hy, rfl⟩ := List.mem_map.mp hx
      exact Or.inl ⟨y, hy, by rwa [(hs y).1, (hs y).2.1] at hk⟩
    · exact Or.inr h
  · simp only [Part.weight, Part.waitingHeld, List.length_map, List.filter_map, ho, le_refl]

/-- R117: the answer of the owning block takes nothing on. -/
theorem Part.answerTake_calm (n : Nat) (p : Part) : p.Calm (p.answerTake n) := by
  unfold Part.answerTake
  split
  · split
    · exact (p.holdRecord_calm n).trans (Part.writeTaken_calm _ _)
    · exact .refl p
  · exact .refl p

/-- R117: a request that has completed within its take is answered with nothing further. -/
theorem Part.answerTake_completed {n : Nat} {p : Part} (h : p.heldOf n = none) : p.answerTake n = p := by
  unfold Part.answerTake; rw [h]

/-- R117: a request that its block keeps in hand beyond its take becomes held, its slot TAKEN. -/
theorem Part.answerTake_continues {n : Nat} {p : Part} {h : HeldRequest} (e : p.heldOf n = some h) (ht : h.taken = false)
    (hk : p.keepsInHand h = true) : p.answerTake n = (p.holdRecord n).writeTaken h.slot := by
  unfold Part.answerTake; rw [e]; exact if_pos ⟨ht, hk⟩

theorem BoardController.moveOrigin_same (last : Option Nat) (b : BoardController) :
    (b.moveOrigin last).held = b.held ∧ (b.moveOrigin last).registry = b.registry ∧ (b.moveOrigin last).finishes = b.finishes ∧
    (b.moveOrigin last).nextSeq = b.nextSeq := by
  unfold BoardController.moveOrigin; split <;> exact ⟨rfl, rfl, rfl, rfl⟩

/-- A change of the Board Controller alone that leaves its records, with accesses raised. -/
theorem Part.setBoard_submit_calm (b : BoardController) (k : Block) (l : List Access) (p : Part) (h1 : b.held = p.board.held)
    (h2 : b.registry = p.board.registry) (h3 : b.finishes = p.board.finishes) (h4 : b.nextSeq = p.board.nextSeq) :
    p.Calm (Part.submit k l { p with board := b }) :=
  (Part.setBoard_calm b p h1 h2 h3 h4).trans (Part.submit_calm _ _ _)

theorem Part.startSweep_calm (p : Part) : p.Calm p.startSweep := by
  unfold Part.startSweep
  refine Part.setBoard_submit_calm _ _ _ p ?_ ?_ ?_ ?_ <;> rfl

theorem Part.endSweep_calm (l : Option Nat) (p : Part) : p.Calm (p.endSweep l) := by
  have h := BoardController.moveOrigin_same l p.board
  unfold Part.endSweep
  dsimp only
  split
  · refine Part.Calm.trans (Part.setBoard_submit_calm _ _ _ p ?_ ?_ ?_ ?_) (Part.startSweep_calm _)
    exacts [h.1, h.2.1, h.2.2.1, h.2.2.2]
  · refine Part.setBoard_submit_calm _ _ _ p ?_ ?_ ?_ ?_
    exacts [h.1, h.2.1, h.2.2.1, h.2.2.2]

theorem Part.dropSweep_calm (l : Option Nat) (p : Part) : p.Calm (p.dropSweep l) := by
  have h := BoardController.moveOrigin_same l p.board
  unfold Part.dropSweep
  refine Part.setBoard_calm _ p ?_ ?_ ?_ ?_
  exacts [h.1, h.2.1, h.2.2.1, h.2.2.2]

theorem Part.sweepNext_calm (b : Bool) (p : Part) : p.Calm (p.sweepNext b) := by
  unfold Part.sweepNext
  split
  · exact .refl p
  · exact .refl p
  · exact .refl p
  · dsimp only
    split
    · split
      · exact p.endSweep_calm _
      · exact p.dropSweep_calm _
    · refine Part.setBoard_submit_calm _ _ _ p ?_ ?_ ?_ ?_ <;> rfl

theorem Part.fixSweepSet_calm (l : List Byte) (p : Part) : p.Calm (p.fixSweepSet l) := by
  unfold Part.fixSweepSet
  split
  · exact p.endSweep_calm _
  · refine Part.setBoard_submit_calm _ _ _ p ?_ ?_ ?_ ?_ <;> rfl

/-! ## Hand-overs that complete nothing -/

/-- The item completes no request. -/
def Item.plain : Item → Bool
  | .hand (.complete _ _) => false
  | .hand _ | .access _ => true

theorem Part.deliver_board (h : Handover) (p : Part) (hp : (Item.hand h).plain = true) : (p.deliver h).board = p.board := by
  cases h with
  | bankBit m i =>
    show (p.takeBankBit m i).board = p.board
    unfold Part.takeBankBit
    dsimp only
    split <;> rfl
  | fault f => rfl
  | journalLoss => rfl
  | unadmitted => rfl
  | complete n r => exact absurd hp (by simp [Item.plain])

theorem Part.raiseFree_board (b : Block) (l : List Item) (p : Part) (hp : l.all Item.plain = true) : (Part.raiseFree b l p).board = p.board := by
  induction l generalizing p with
  | nil => rfl
  | cons i rest ih =>
    simp only [List.all_cons, Bool.and_eq_true] at hp
    cases i with
    | hand h => exact (ih _ hp.2).trans (p.deliver_board h hp.1)
    | access a =>
      unfold Part.raiseFree
      split
      · exact ih _ hp.2
      · rfl

/-- What a block raises and hands on leaves the board alone where it completes nothing. -/
theorem Part.raise_board (b : Block) (l : List Item) (p : Part) (hp : l.all Item.plain = true) : (Part.raise b l p).board = p.board := by
  unfold Part.raise
  split
  · rfl
  · exact Part.raiseFree_board b l p hp

theorem Item.all_plain_access (l : List Access) : (l.map Item.access).all Item.plain = true := by
  induction l with
  | nil => rfl
  | cons a rest ih => simp [Item.plain]

/-- The writing of a place: the board, the Transaction Engine, the Directory Engine, the Journal Writer, the line and the Run Controller are as they were. -/
theorem Part.putUnit_frame (a : Nat) (new : Option FieldUnit) (f : Bool) (p : Part) :
    (p.putUnit a new f).board = p.board ∧ (p.putUnit a new f).te = p.te ∧ (p.putUnit a new f).dir = p.dir ∧
    (p.putUnit a new f).jw = p.jw ∧ (p.putUnit a new f).um.dismissWait = p.um.dismissWait := by
  unfold Part.putUnit
  split
  · dsimp only
    have h := Part.raise_owners Block.unitManager
    refine ⟨?_, (h _ _).2.1, (h _ _).2.2.2.2.1, (h _ _).2.2.2.2.2, by rw [(h _ _).2.2.2.1]⟩
    rw [Part.raise_board]
    rw [List.all_append, Item.all_plain_access]
    split <;> rfl
  · exact ⟨rfl, rfl, rfl, rfl, rfl⟩

theorem Part.updateUnit_frame (a : Nat) (f : FieldUnit → FieldUnit) (p : Part) :
    (p.updateUnit a f).board = p.board ∧ (p.updateUnit a f).te = p.te ∧ (p.updateUnit a f).dir = p.dir ∧
    (p.updateUnit a f).jw = p.jw ∧ (p.updateUnit a f).um.dismissWait = p.um.dismissWait := by
  unfold Part.updateUnit
  split
  · exact p.putUnit_frame _ _ _
  · exact ⟨rfl, rfl, rfl, rfl, rfl⟩

/-- The writing of an entry: only the Directory Engine, the port and the Service Unit can change. -/
theorem Part.putEntry_frame (n : Nat) (new : Option Entry) (f : Bool) (p : Part) :
    (p.putEntry n new f).board = p.board ∧ (p.putEntry n new f).te = p.te ∧ (p.putEntry n new f).um = p.um ∧
    (p.putEntry n new f).jw = p.jw ∧ (p.putEntry n new f).run = p.run ∧ (p.putEntry n new f).line = p.line := by
  unfold Part.putEntry
  split
  · dsimp only
    have h := Part.raise_owners Block.directoryEngine
    refine ⟨?_, (h _ _).2.1, (h _ _).2.2.2.1, (h _ _).2.2.2.2.2, (h _ _).1, (h _ _).2.2.1⟩
    rw [Part.raise_board]
    rw [List.all_append, Item.all_plain_access]
    split <;> rfl
  · exact ⟨rfl, rfl, rfl, rfl, rfl, rfl⟩

/-! ## Control -/

theorem Part.bankItemDone_calm (l : List Access) (p : Part) : p.Calm (p.bankItemDone l) := by
  unfold Part.bankItemDone
  dsimp only
  exact Part.Calm.trans Part.Calm.of_eq (Part.submit_calm _ _ _)

theorem Part.restartSlots_tame (l : List Byte) (p : Part) : p.Tame (p.restartSlots l) := by
  unfold Part.restartSlots
  refine Part.Tame.trans (q := { p with run := { p.run with startPhase := .writes } }) ?_ (Part.submit_calm _ _ _).toTame
  exact .of_same id (by rfl) (by rfl) (by rfl) (by rfl)

end Sys2Proof.Machine
end

