-- ==== Sys2Proof/Laws/Board.lean ====
section
/-! SUPPORT. What taking, handing over, resolving and settling keep: the bounds as one property of the part, and that a resolution runs to its end (R121). -/

namespace Sys2Proof.Machine

/-! ## The bounds -/

/-- The bounds of the part. -/
inductive Limit where
  | port | pool | pages | places | names
  deriving DecidableEq

/-- R174, R83, R155, R24, R114: a bound holds. -/
def Part.Within (k : Limit) (p : Part) : Prop :=
  match k with
  | .port => p.port.Bounded
  | .pool => p.te.pool.length ≤ Config.poolSize ∧ ∀ a : Nat, (p.unitQueue a).length ≤ Config.queueDepth
  | .pages => p.jw.pages.length ≤ Config.lentPages
  | .places => p.unitAt 0 = none ∧ p.unitAt 31 = none
  | .names => ∀ n : Nat, p.Names n → n < p.board.nextSeq

theorem Part.Tame.within {p q : Part} (h : p.Tame q) (k : Limit) (g : p.Within k) : q.Within k := by
  cases k with
  | port => exact h.port g
  | pool => exact ⟨h.pool.trans g.1, fun a => (h.queue a).trans (g.2 a)⟩
  | pages => exact h.pages.trans g
  | places => exact h.places g
  | names => exact fun n hn => by rw [h.next]; exact g n (h.names n hn)

/-- The bounds speak of five blocks alone. -/
theorem Part.Within.of_same {p q : Part} {k : Limit} (g : p.Within k) (hp : q.port = p.port) (ht : q.te = p.te) (hj : q.jw = p.jw)
    (hu : q.um = p.um) (hb : q.board = p.board) : q.Within k :=
  (Part.Tame.of_same (p := p) (q := q) (by rw [hp]; exact id) ht (by rw [hj]) (by rw [hu]) hb).within k g

/-- The bounds kept, with the Run Controller and the Line Controller untouched. -/
structure Part.Keeps (p q : Part) : Prop where
  within : ∀ k, p.Within k → q.Within k
  run : q.run = p.run
  line : q.line = p.line

theorem Part.Calm.keeps {p q : Part} (h : p.Calm q) : p.Keeps q := ⟨h.toTame.within, h.run, h.line⟩

theorem Part.Keeps.trans {p q r : Part} (h : p.Keeps q) (h' : q.Keeps r) : p.Keeps r :=
  ⟨fun k g => h'.within k (h.within k g), h'.run.trans h.run, h'.line.trans h.line⟩

theorem Part.Keeps.refl (p : Part) : p.Keeps p := ⟨fun _ => id, rfl, rfl⟩

/-! ## Work behind a wait -/

/-- What a piece of work can still ask of the part, its completion included. -/
def Work.cost : Work → Nat
  | .dismissal _ _ => 2
  | .record _ | .dismissed _ _ | .unitChange _ | .drainEnd | .waiters _ _ | .sweepOn => 1

/-- What the work in hand can still have to do. -/
def Part.effort (p : Part) : Nat := 2 * p.weight + (p.port.later.map Work.cost).sum

theorem Part.Calm.effort {p q : Part} (h : p.Calm q) : q.effort ≤ p.effort := by
  have := h.weight
  simp only [Part.effort, h.later]; omega

/-- A change of the list of work alone. -/
theorem Part.setLater_keeps (l : List Work) (p : Part) : p.Keeps { p with port := { p.port with later := l } } :=
  ⟨(Part.Tame.of_same (WindowPort.bounded_of_fifo (by rfl)) (by rfl) (by rfl) (by rfl) (by rfl)).within, by rfl, by rfl⟩

theorem Part.onceFree_eq {p : Part} (h : p.port.free = true) (w : Work) (act : Part → Part) : p.onceFree w act = act p := by
  unfold Part.onceFree; rw [if_pos h]

/-- R174: work is done at once or put off; what doing it keeps is kept. -/
theorem Part.onceFree_keeps {w : Work} {act : Part → Part} {p : Part} (h : p.Keeps (act p)) : p.Keeps (p.onceFree w act) := by
  unfold Part.onceFree
  split
  · exact h
  · exact p.setLater_keeps _

theorem Part.onceFree_effort {w : Work} {act : Part → Part} {p : Part} (h : (act p).effort ≤ p.effort + w.cost) :
    (p.onceFree w act).effort ≤ p.effort + w.cost := by
  unfold Part.onceFree
  split
  · exact h
  · show 2 * p.weight + ((p.port.later ++ [w]).map Work.cost).sum ≤ _
    simp only [Part.effort, List.map_append, List.map_cons, List.map_nil, List.sum_append, List.sum_cons, List.sum_nil]; omega

/-- R15: a journal record goes to the Journal Writer, now or later. -/
theorem Part.handRecord_keeps (r : JournalRecord) (p : Part) : p.Keeps (p.handRecord r) := Part.onceFree_keeps (p.takeRecord_calm r).keeps

theorem Part.storeArrival_keeps (n : Nat) (e : Entry) (c : List Byte) (b : Bool) (p : Part) : p.Keeps (p.storeArrival n e c b) := by
  unfold Part.storeArrival
  dsimp only
  split
  · exact (p.putEntry_calm _ _ _).keeps.trans (Part.handRecord_keeps _ _)
  · exact (p.putEntry_calm _ _ _).keeps

theorem Part.admit_keeps (n : Nat) (k : Key) (c : List Byte) (p : Part) : p.Keeps (p.admitArrival n k c) := by
  unfold Part.admitArrival
  dsimp only
  split
  · exact (p.putEntry_calm _ _ _).keeps.trans (Part.handRecord_keeps _ _)
  · exact (p.putEntry_calm _ _ _).keeps

theorem Part.takeArrival_keeps (k : Key) (c : List Byte) (p : Part) : p.Keeps (p.takeArrival k c) := by
  unfold Part.takeArrival
  split
  · exact .refl p
  · split
    · split
      · split
        · split
          · exact (p.putEntry_calm _ _ _).keeps
          · exact p.storeArrival_keeps _ _ _ _
        · exact p.storeArrival_keeps _ _ _ _
      · exact .refl p
    · split
      · exact p.admit_keeps _ _ _
      · exact ((p.countUnadmitted_calm _).trans (Part.raise_calm _ _ _)).keeps

/-- R44: a DISMISS from its notice on. -/
theorem Part.dismissUnit_keeps (n a : Nat) (p : Part) : p.Keeps (p.dismissUnit n a) ∧ (p.dismissUnit n a).effort ≤ p.effort + 1 := by
  unfold Part.dismissUnit
  dsimp only
  have h := (p.retireUnit_calm a).trans (Part.dismissTransactions_calm a _)
  split
  · have h' := fun w => h.trans (Part.setWait_calm w _)
    exact ⟨(h' _).keeps, (h' _).effort.trans (Nat.le_succ _)⟩
  · have h' := h.trans (Part.putUnit_calm a none false _)
    refine ⟨h'.keeps.trans (Part.onceFree_keeps (Part.completeRequest_calm _ _ _).keeps), ?_⟩
    refine (Part.onceFree_effort ((Part.completeRequest_calm _ _ _).effort.trans (Nat.le_add_right _ _))).trans ?_
    exact Nat.add_le_add_right h'.effort 1

theorem Part.doDismiss_keeps (n : Nat) (r : List Byte) (p : Part) : p.Keeps (p.doDismiss n r) ∧ (p.doDismiss n r).effort ≤ p.effort + 2 := by
  unfold Part.doDismiss
  have h := p.updateUnit_calm (Req.unit r) FieldUnit.depart
  have h' := Part.dismissUnit_keeps n (Req.unit r) (p.updateUnit (Req.unit r) FieldUnit.depart)
  refine ⟨h.keeps.trans (Part.onceFree_keeps h'.1), (Part.onceFree_effort (h'.2.trans ?_)).trans (Nat.add_le_add_right h.effort 2)⟩
  exact Nat.add_le_add_left (Nat.le_succ 1) _

theorem Part.noticeUnitChange_calm (a : Nat) (p : Part) : p.Calm (p.noticeUnitChange a) :=
  (p.failDeferred_calm a).trans (Part.changeClearUnit_calm a _)

theorem Part.judgeGeneration_keeps (a : Nat) (g : BitVec 3) (p : Part) : p.Keeps (p.judgeGeneration a g) := by
  unfold Part.judgeGeneration
  split
  · exact .refl p
  · split
    · exact .refl p
    · split
      · exact .refl p
      · unfold Part.changeGeneration
        exact ((Part.raise_calm _ _ p).trans (Part.putUnit_calm _ _ _ _)).keeps.trans
          (Part.onceFree_keeps (Part.noticeUnitChange_calm _ _).keeps)

/-! ## Handing over -/

/-- The room that check 6 of R115 asks for. -/
theorem Part.checkState_room {k : ReqKind} {r : List Byte} {p : Part} (h : p.checkState k r = none) :
    (k = .transact → p.te.pool.length < Config.poolSize ∧ (p.unitQueue (Req.unit r)).length < Config.queueDepth) ∧
    (k = .lend → p.jw.pages.length < Config.lentPages) := by
  simp only [Part.checkState, Option.or_eq_none_iff] at h
  obtain ⟨_, _, h6⟩ := h
  constructor
  · rintro rfl
    simp only [Part.check6] at h6
    split at h6
    · exact absurd h6 (by simp)
    · split at h6
      · exact absurd h6 (by simp)
      · omega
  · rintro rfl
    simp only [Part.check6] at h6
    split at h6
    · exact absurd h6 (by simp)
    · omega

/-- R100: a SYNC brings no take sequence into use but its own and its predecessor's, and makes nothing waited for but its predecessor. -/
theorem Part.doSync_keeps (n : Nat) (r : List Byte) (pred : Option Nat) (p : Part) (hn : p.Names n) (hp : ∀ k, pred = some k → p.Names k) :
    p.Keeps (p.doSync n r pred) ∧ (p.doSync n r pred).effort ≤ p.effort ∧ ∀ k, (p.doSync n r pred).Waits k → p.Waits k ∨ pred = some k := by
  unfold Part.doSync
  dsimp only
  refine ⟨Part.Keeps.trans ?_ (Part.endSyncs_calm _ _).keeps, (Part.endSyncs_calm _ _).effort, fun k hk => ?_⟩
  · refine ⟨fun l g => ?_, rfl, rfl⟩
    cases l with
    | port | pool | pages | places => exact g
    | names =>
      intro m hm
      refine g m ?_
      rcases hm with h1 | h1 | h1 | h1 | ⟨y, hy, h1⟩ | h1
      · exact Or.inl h1
      · exact Or.inr (Or.inl h1)
      · exact Or.inr (Or.inr (Or.inl h1))
      · exact Or.inr (Or.inr (Or.inr (Or.inl h1)))
      · simp only [List.mem_append, List.mem_singleton] at hy
        rcases hy with hy | rfl
        · exact Or.inr (Or.inr (Or.inr (Or.inr (Or.inl ⟨y, hy, h1⟩))))
        · rcases h1 with h1 | h1 | h1
          · exact h1 ▸ hn
          · exact hp m h1
          · obtain ⟨t, ht, rfl⟩ := List.mem_map.mp h1
            refine Or.inr (Or.inr (Or.inr (Or.inl ⟨t, ?_, Or.inl rfl⟩)))
            split at ht
            · exact ht
            · exact List.mem_of_mem_filter ht
      · exact Or.inr (Or.inr (Or.inr (Or.inr (Or.inr h1))))
  · rcases (Part.endSyncs_calm _ _).waits k hk with h1 | h1 | ⟨y, hy, h1⟩
    · exact Or.inl (Or.inl h1)
    · exact Or.inl (Or.inr (Or.inl h1))
    · simp only [List.mem_append, List.mem_singleton] at hy
      rcases hy with hy | rfl
      · exact Or.inl (Or.inr (Or.inr ⟨y, hy, h1⟩))
      · exact Or.inr h1

/-- A request that passed its checks keeps every bound in the hands of its block; the work in hand grows by one request at most. -/
theorem Part.handOver_keeps (k : ReqKind) (n slot : Nat) (r : List Byte) (pred : Option Nat) (p : Part)
    (hr : (k = .transact → p.te.pool.length < Config.poolSize ∧ (p.unitQueue (Req.unit r)).length < Config.queueDepth) ∧
      (k = .lend → p.jw.pages.length < Config.lentPages))
    (hn : p.Names n) (hp : ∀ m, pred = some m → p.Names m) :
    p.Keeps (p.handOver k n slot r pred) ∧ (p.handOver k n slot r pred).effort ≤ p.effort + 2 := by
  have of_calm : ∀ {q : Part}, p.Calm q → p.Keeps q ∧ q.effort ≤ p.effort + 2 := fun h => ⟨h.keeps, by have := h.effort; omega⟩
  cases k with
  | enroll => exact of_calm (p.doEnroll_calm n r)
  | dismiss => exact p.doDismiss_keeps n r
  | hold => exact of_calm (p.doHold_calm n r)
  | declare => exact of_calm (p.doDeclare_calm n r)
  | retire => exact of_calm (p.doRetire_calm n r)
  | clear => exact of_calm (p.doClear_calm n r)
  | sync =>
    obtain ⟨h1, h2, _⟩ := p.doSync_keeps n r pred hn hp
    exact ⟨h1, h2.trans (Nat.le_add_right _ _)⟩
  | abort => exact of_calm (p.doAbort_calm n r hn)
  | cut => exact of_calm (p.doCut_calm n)
  | transact =>
    obtain ⟨h1, h2, h3, h4, h5, h6, h7, h8, _, h9, h10, h11⟩ := p.doTransact_tame n slot r pred
    obtain ⟨r1, r2⟩ := hr.1 rfl
    refine ⟨⟨fun k g => ?_, h1, h2⟩, by simp only [Part.handOver, Part.effort, h11]; omega⟩
    cases k with
    | port => exact h3 g
    | pool =>
      refine ⟨?_, fun a => ?_⟩
      · show (p.doTransact n slot r pred).te.pool.length ≤ _
        rw [h4]; omega
      · show ((p.doTransact n slot r pred).unitQueue a).length ≤ _
        rw [h5]
        by_cases ha : a = Req.unit r
        · subst ha; simp only [if_true]; omega
        · simp only [ha, if_false]; exact g.2 a
    | pages =>
      show (p.doTransact n slot r pred).jw.pages.length ≤ _
      rw [h6]; exact g
    | places =>
      show (p.doTransact n slot r pred).unitAt 0 = none ∧ (p.doTransact n slot r pred).unitAt 31 = none
      simpa only [Part.Within, Part.unitAt, Part.unitSlot, h7] using g
    | names =>
      intro m hm
      show m < (p.doTransact n slot r pred).board.nextSeq
      rw [h8]
      rcases h9 m hm with hm | rfl | hm
      · exact g m hm
      · exact g _ hn
      · exact g _ (hp m hm)
  | lend =>
    obtain ⟨h1, h2, h3, h4, h5, h6, h7, _, h8, h9, h10⟩ := p.doLend_tame n r
    have r1 := hr.2 rfl
    refine ⟨⟨fun k g => ?_, h1, h2⟩, ?_⟩
    · cases k with
      | port => exact h3 g
      | pool =>
        refine ⟨?_, fun a => ?_⟩
        · show (p.doLend n r).te.pool.length ≤ _
          rw [h4]; exact g.1
        · show ((p.doLend n r).unitQueue a).length ≤ _
          simp only [Part.unitQueue, h4]; exact g.2 a
      | pages =>
        show (p.doLend n r).jw.pages.length ≤ _
        omega
      | places =>
        show (p.doLend n r).unitAt 0 = none ∧ (p.doLend n r).unitAt 31 = none
        simpa only [Part.Within, Part.unitAt, Part.unitSlot, h5] using g
      | names =>
        intro m hm
        show m < (p.doLend n r).board.nextSeq
        rw [h7]; exact g m (h8 m hm)
    · show (p.doLend n r).effort ≤ _
      simp only [Part.effort, h10]; omega

/-! ## Resolution -/

/-- R120: a held request that proceeds no longer waits. -/
theorem Part.passToOwner_keeps (n : Nat) (k : ReqKind) (p : Part) (h : HeldRequest) (hh : p.heldOf n = some h) (ho : h.owner = .boardController) :
    p.Keeps (p.passToOwner n k.owner) ∧ (p.passToOwner n k.owner).effort + 2 ≤ p.effort ∧ (p.passToOwner n k.owner).Names n := by
  have hk : k.owner ≠ Block.boardController := by cases k <;> decide
  have hm := List.mem_of_find?_eq_some hh
  have hs : h.seq = n := by have := List.find?_some hh; simpa using this
  obtain ⟨f, hf⟩ : ∃ f : HeldRequest → HeldRequest, f = fun h => if h.seq = n then { h with owner := k.owner, pred := none } else h := ⟨_, rfl⟩
  have hdef : p.passToOwner n k.owner = { p with board := { p.board with held := p.board.held.map f } } := by rw [hf]; rfl
  have hfs : ∀ x, (f x).seq = x.seq := by intro x; rw [hf]; dsimp only; split <;> rfl
  have hfp : ∀ x m, (f x).pred = some m → x.pred = some m := by
    intro x m; rw [hf]; dsimp only; split
    · intro e; exact absurd e (by simp)
    · exact id
  have hnames : ∀ m, (p.passToOwner n k.owner).Names m → p.Names m := by
    intro m hm'
    rw [hdef] at hm'
    rcases hm' with ⟨x, hx, h1⟩ | h1
    · obtain ⟨y, hy, rfl⟩ := List.mem_map.mp hx
      refine Or.inl ⟨y, hy, ?_⟩
      rcases h1 with h1 | h1
      · exact Or.inl (hfs y ▸ h1)
      · exact Or.inr (hfp y m h1)
    · exact Or.inr h1
  have hwlt : ((p.board.held.map f).filter fun h => h.owner == .boardController).length < p.waitingHeld.length := by
    have hgen : ∀ l : List HeldRequest, ((l.map f).filter fun h => h.owner == .boardController).length ≤
        (l.filter fun h => h.owner == .boardController).length := by
      intro l
      induction l with
      | nil => simp
      | cons x rest ih =>
        have hx : (f x).owner = .boardController → x.owner = .boardController := by
          rw [hf]; dsimp only; split
          · intro e; exact absurd e hk
          · exact id
        simp only [List.map_cons, List.filter_cons]
        by_cases e : (f x).owner = .boardController
        · have e2 := hx e
          simp only [e, e2, beq_self_eq_true, if_true, List.length_cons]; omega
        · have e1 : ((f x).owner == Block.boardController) = false := by simpa using e
          simp only [e1, Bool.false_eq_true, if_false]
          split
          · simp only [List.length_cons]; omega
          · exact ih
    have hstrict : ∀ l : List HeldRequest, h ∈ l → ((l.map f).filter fun h => h.owner == .boardController).length <
        (l.filter fun h => h.owner == .boardController).length := by
      intro l
      induction l with
      | nil => intro e; simp at e
      | cons x rest ih =>
        intro e
        simp only [List.map_cons, List.filter_cons]
        rcases List.mem_cons.mp e with rfl | e
        · have e1 : ((f h).owner == Block.boardController) = false := by rw [hf]; dsimp only; rw [if_pos hs]; simpa using hk
          simp only [e1, ho, beq_self_eq_true, Bool.false_eq_true, if_false, if_true, List.length_cons]
          exact Nat.lt_succ_of_le (hgen rest)
        · have i := ih e
          have hx : (f x).owner = .boardController → x.owner = .boardController := by
            rw [hf]; dsimp only; split
            · intro e; exact absurd e hk
            · exact id
          by_cases e : (f x).owner = .boardController
          · have e2 := hx e
            simp only [e, e2, beq_self_eq_true, if_true, List.length_cons]; omega
          · have e1 : ((f x).owner == Block.boardController) = false := by simpa using e
            simp only [e1, Bool.false_eq_true, if_false]
            split
            · simp only [List.length_cons]; omega
            · exact i
    exact hstrict _ hm
  refine ⟨⟨fun k g => ?_, by rw [hdef], by rw [hdef]⟩, ?_, ?_⟩
  · cases k with
    | port => rw [hdef]; exact g
    | pool => rw [hdef]; exact g
    | pages => rw [hdef]; exact g
    | places => rw [hdef]; exact g
    | names =>
      intro m hm
      have := g m (hnames m hm)
      rw [hdef]; exact this
  · rw [hdef]
    simp only [Part.effort, Part.weight, Part.waitingHeld, List.length_map] at hwlt ⊢
    omega
  · rw [hdef]
    exact Or.inl ⟨f h, List.mem_map.mpr ⟨h, hm, rfl⟩, Or.inl ((hfs h).trans hs)⟩

theorem Part.resolveHeld_keeps (h : HeldRequest) (b : Bool) (p : Part) (hh : p.heldOf h.seq = some h) (ho : h.owner = .boardController) :
    p.Keeps (p.resolveHeld h b) ∧ (p.resolveHeld h b).effort ≤ p.effort := by
  unfold Part.resolveHeld
  split
  · split
    · exact ⟨.refl p, le_refl _⟩
    · rename_i k _
      split
      · have := p.completeRequest_calm h.seq
        exact ⟨(this _).keeps, (this _).effort⟩
      · rename_i hc
        obtain ⟨h1, h2, h3⟩ := p.passToOwner_keeps h.seq k h hh ho
        have hroom := Part.checkState_room hc
        have h4 := Part.handOver_keeps k h.seq h.slot h.req none (p.passToOwner h.seq k.owner) hroom h3 (fun m e => absurd e (by simp))
        exact ⟨h1.trans h4.1, by have := h4.2; omega⟩
  · have := p.completeRequest_calm h.seq
    exact ⟨(this _).keeps, (this _).effort⟩

theorem Part.resolveWaiter_keeps (n : Nat) (b : Bool) (w : Nat) (p : Part) :
    p.Keeps (p.resolveWaiter n b w) ∧ (p.resolveWaiter n b w).effort ≤ p.effort := by
  have of_calm : ∀ {q : Part}, p.Calm q → p.Keeps q ∧ q.effort ≤ p.effort := fun h => ⟨h.keeps, h.effort⟩
  unfold Part.resolveWaiter
  split
  · rename_i t ht
    split
    · exact of_calm (.refl p)
    · split
      · exact of_calm (Part.mapTxn_calm w _ p (fun _ => rfl) (fun _ => rfl) (fun _ => Or.inr rfl))
      · exact of_calm (p.finishTxn_calm _ _ ⟨t, (Part.findTxn_mem ht).1, rfl⟩)
  · split
    · exact of_calm (.refl p)
    · split
      · refine of_calm (Part.Calm.trans (Part.setEngine_calm _ p ?_ (fun y hy => ?_) ?_) (Part.endSyncs_calm _ _))
        · exact List.Sublist.refl _
        · obtain ⟨x, hx, rfl⟩ := List.mem_map.mp hy
          refine ⟨x, hx, ?_⟩
          split
          · exact ⟨rfl, Or.inr rfl, fun _ => id⟩
          · exact ⟨rfl, Or.inl rfl, fun _ => id⟩
        · exact fun _ => id
      · exact of_calm (p.endSync_calm _ _)
  · split
    · rename_i h hh
      split
      · rename_i hc
        simp only [Bool.and_eq_true, beq_iff_eq] at hc
        have hs : h.seq = w := by have := List.find?_some hh; simpa using this
        exact p.resolveHeld_keeps h b (by rw [hs]; exact hh) hc.1
      · exact of_calm (.refl p)
    · exact of_calm (.refl p)

/-- R85 step 6: the count of a finish takes nothing on. -/
theorem Part.countFinish_calm (f : Finish) (p : Part) : p.Calm (p.countFinish f) := by
  unfold Part.countFinish
  split
  · exact (p.countSyncs_calm f.seq f.success).trans (Part.endSyncs_calm _ _)
  · exact .refl p

/-- R120: the requests that wait on a finish are resolved and the finish is counted, or a block waits for room and one piece of work stands for the rest. -/
theorem Part.resolveWaiters_keeps (f : Finish) (l : List Nat) (p : Part) :
    p.Keeps (p.resolveWaiters f l) ∧
    ((p.resolveWaiters f l).effort ≤ p.effort ∨ ((p.resolveWaiters f l).port.waiting ≠ [] ∧ (p.resolveWaiters f l).effort ≤ p.effort + 1)) := by
  induction l generalizing p with
  | nil => exact ⟨(p.countFinish_calm f).keeps, Or.inl (p.countFinish_calm f).effort⟩
  | cons w rest ih =>
    unfold Part.resolveWaiters
    split
    · have h1 := p.resolveWaiter_keeps f.seq f.success w
      have h2 := ih (p.resolveWaiter f.seq f.success w)
      exact ⟨h1.1.trans h2.1, h2.2.imp (fun g => g.trans h1.2) (fun g => ⟨g.1, g.2.trans (Nat.succ_le_succ h1.2)⟩)⟩
    · rename_i h
      refine ⟨p.setLater_keeps _, Or.inr ⟨fun e => h (List.isEmpty_iff.mpr e), ?_⟩⟩
      show 2 * p.weight + ((p.port.later ++ [Work.waiters f (w :: rest)]).map Work.cost).sum ≤ _
      simp only [Part.effort, List.map_append, List.map_cons, List.map_nil, List.sum_append, List.sum_cons, List.sum_nil, Work.cost]; omega

theorem Part.resolveFinish_keeps (f : Finish) (p : Part) : p.Keeps (p.resolveFinish f) ∧ (p.resolveFinish f).effort ≤ p.effort + 1 := by
  unfold Part.resolveFinish
  dsimp only
  have h0 : p.Calm { p with board := { p.board with registry := p.board.registry.filter fun e => e.2 != f.seq } } := by
    refine Part.setBoard_calm' _ p rfl (fun _ => id) (fun n h => ?_) (le_refl _)
    rcases h with h | ⟨e, he, h⟩ | h
    · exact Or.inl h
    · exact Or.inr (Or.inl ⟨e, List.mem_of_mem_filter he, h⟩)
    · exact Or.inr (Or.inr h)
  generalize ({ p with board := { p.board with registry := p.board.registry.filter fun e => e.2 != f.seq } } : Part) = q at h0 ⊢
  have h1 := Part.resolveWaiters_keeps f (inTakeOrder (q.waitersOf f.seq)) q
  have h2 := h0.effort
  exact ⟨h0.keeps.trans h1.1, by rcases h1.2 with g | g <;> omega⟩

theorem Part.popFinish_keeps {f : Finish} {rest : List Finish} {p : Part} (h : p.board.finishes = f :: rest) :
    p.Keeps { p with board := { p.board with finishes := rest } } ∧
    ({ p with board := { p.board with finishes := rest } } : Part).effort + 2 = p.effort := by
  constructor
  · refine (Part.setBoard_calm' { p.board with finishes := rest } p rfl (fun _ => id) (fun n hn => ?_) ?_).keeps
    · rcases hn with hn | hn | ⟨g, hg, hn⟩ | hn
      · exact Or.inl hn
      · exact Or.inr (Or.inl hn)
      · exact Or.inr (Or.inr (Or.inl ⟨g, by rw [h]; exact List.mem_cons_of_mem _ hg, hn⟩))
      · exact Or.inr (Or.inr (Or.inr hn))
    · simp only [Part.weight, Part.waitingHeld, h, List.length_cons]; omega
  · simp only [Part.effort, Part.weight, Part.waitingHeld, h, List.length_cons]; omega

/-! ## The end-of-drain notice -/

theorem Part.drainBoard_calm (p : Part) : p.Calm p.drainBoard :=
  Part.Calm.foldl (fun q (h : HeldRequest) => q.completeRequest_calm h.seq { outcome := .stopped }) _ p

theorem Part.drainDismiss_calm (p : Part) : p.Calm p.drainDismiss := by
  unfold Part.drainDismiss
  split
  · exact (Part.setWait_calm none p).trans (Part.completeRequest_calm _ _ _)
  · exact .refl p

/-- R173: what the end-of-drain notice makes of the requests in flight takes nothing on. -/
theorem Part.drainRequests_calm (p : Part) : p.Calm p.drainRequests :=
  ((p.drainBoard_calm.trans (Part.drainTransactions_calm _)).trans (Part.drainDismiss_calm _)).trans (Part.drainJournal_calm _)

/-! ## The work in hand -/

/-- A piece of work keeps every bound and asks for less than it was, unless a block comes to wait for room in the middle of it. -/
theorem Part.doWork_keeps (w : Work) (p : Part) :
    p.Keeps (p.doWork w) ∧
    ((p.doWork w).effort + 1 ≤ p.effort + w.cost ∨ ((p.doWork w).port.waiting ≠ [] ∧ (p.doWork w).effort ≤ p.effort + w.cost)) := by
  have of_calm : ∀ {q : Part}, p.Calm q → w.cost = 1 →
      p.Keeps q ∧ (q.effort + 1 ≤ p.effort + w.cost ∨ (q.port.waiting ≠ [] ∧ q.effort ≤ p.effort + w.cost)) :=
    fun g hw => ⟨g.keeps, Or.inl (by have := g.effort; omega)⟩
  cases w with
  | record r => exact of_calm (p.takeRecord_calm r) rfl
  | dismissal n a =>
    have g := p.dismissUnit_keeps n a
    have c := Part.answerTake_calm n (p.dismissUnit n a)
    exact ⟨g.1.trans c.keeps, Or.inl (by have := g.2; have := c.effort; simp only [Work.cost, Part.doWork]; omega)⟩
  | dismissed n r => exact of_calm (p.completeRequest_calm n r) rfl
  | unitChange a => exact of_calm (p.noticeUnitChange_calm a) rfl
  | drainEnd => exact of_calm p.drainRequests_calm rfl
  | waiters f l =>
    have g := p.resolveWaiters_keeps f l
    exact ⟨g.1, g.2.imp Nat.succ_le_succ id⟩
  | sweepOn => exact of_calm (p.sweepNext_calm true) rfl

/-- The same of the first work of those that stood behind a wait, with the others after it. -/
theorem Part.doNext_keeps {w : Work} {rest : List Work} {p : Part} (h : p.port.later = w :: rest) :
    p.Keeps (p.doNext w rest) ∧
    ((p.doNext w rest).effort + 1 ≤ p.effort ∨ ((p.doNext w rest).port.waiting ≠ [] ∧ (p.doNext w rest).effort ≤ p.effort)) := by
  have k := p.setLater_keeps []
  have e : ({ p with port := { p.port with later := [] } } : Part).effort + w.cost + (rest.map Work.cost).sum = p.effort := by
    show 2 * p.weight + 0 + w.cost + (rest.map Work.cost).sum = _
    simp only [Part.effort, h, List.map_cons, List.sum_cons]; omega
  have g := Part.doWork_keeps w { p with port := { p.port with later := [] } }
  unfold Part.doNext
  dsimp only
  generalize Part.doWork w { p with port := { p.port with later := [] } } = q at g ⊢
  have e2 : ({ q with port := { q.port with later := q.port.later ++ rest } } : Part).effort = q.effort + (rest.map Work.cost).sum := by
    show 2 * q.weight + ((q.port.later ++ rest).map Work.cost).sum = _
    simp only [Part.effort, List.map_append, List.sum_append]; omega
  have k2 := q.setLater_keeps (q.port.later ++ rest)
  generalize ({ q with port := { q.port with later := q.port.later ++ rest } } : Part) = r at e2 k2 ⊢
  exact ⟨(k.trans g.1).trans k2, g.2.imp (fun g => by omega) (fun g => ⟨g.1, by omega⟩)⟩

/-- While a block waits for room, so does the work in hand. -/
theorem Part.resolveSteps_waiting {p : Part} (h : p.port.waiting ≠ []) (n : Nat) : Part.resolveSteps n p = p := by
  cases n with
  | zero => rfl
  | succ n => unfold Part.resolveSteps; rw [if_neg (by simpa using h)]

/-- R121: with as many steps as there is effort, the work in hand is done, or a block waits for room. -/
theorem Part.resolveSteps_keeps (n : Nat) (p : Part) :
    p.Keeps (Part.resolveSteps n p) ∧
    (p.effort ≤ n → (Part.resolveSteps n p).port.waiting = [] →
      (Part.resolveSteps n p).port.later = [] ∧ (Part.resolveSteps n p).board.finishes = []) := by
  induction n generalizing p with
  | zero =>
    refine ⟨.refl p, fun h _ => ?_⟩
    have h1 : p.board.finishes.length = 0 := by simp only [Part.effort, Part.weight] at h; omega
    have h2 : (p.port.later.map Work.cost).sum = 0 := by simp only [Part.effort] at h; omega
    refine ⟨?_, List.length_eq_zero_iff.mp h1⟩
    show p.port.later = []
    cases e : p.port.later with
    | nil => rfl
    | cons w rest =>
      rw [e, List.map_cons, List.sum_cons] at h2
      have : 1 ≤ w.cost := by cases w <;> simp [Work.cost]
      omega
  | succ n ih =>
    unfold Part.resolveSteps
    split
    · split
      · rename_i w rest h
        obtain ⟨h1, h2⟩ := Part.doNext_keeps h
        obtain ⟨h5, h6⟩ := ih (p.doNext w rest)
        refine ⟨h1.trans h5, fun hn hw => ?_⟩
        rcases h2 with h2 | h2
        · exact h6 (by omega) hw
        · rw [Part.resolveSteps_waiting h2.1] at hw; exact absurd hw h2.1
      · rename_i f rest _ h
        obtain ⟨h1, h2⟩ := Part.popFinish_keeps h
        obtain ⟨h3, h4⟩ := Part.resolveFinish_keeps f { p with board := { p.board with finishes := rest } }
        obtain ⟨h5, h6⟩ := ih (Part.resolveFinish f { p with board := { p.board with finishes := rest } })
        exact ⟨(h1.trans h3).trans h5, fun hw => h6 (by omega)⟩
      · rename_i h1 h2; exact ⟨.refl p, fun _ _ => ⟨h1, h2⟩⟩
    · rename_i h
      exact ⟨.refl p, fun _ hw => absurd (List.isEmpty_iff.mpr hw) h⟩

theorem Part.resolve_keeps (p : Part) : p.Keeps p.resolve := (Part.resolveSteps_keeps _ p).1

/-- R120: of what a row leaves, the resolution of its finishes keeps the bounds and touches neither the queue nor memory. -/
theorem State.ResolvedOrNot.keeps {s t r : State} (h : s.ResolvedOrNot t r) : t.part.Keeps r.part ∧ r.pending = t.pending ∧ r.mem = t.mem := by
  rcases h with rfl | ⟨_, rfl⟩
  · exact ⟨.refl _, rfl, rfl⟩
  · exact ⟨Part.resolve_keeps _, rfl, rfl⟩

/-- The units themselves are framed with their slots. -/
theorem State.OtherUnits.unitAt {s t : State} {a b : Nat} (h : s.OtherUnits t a) (hb : b ≠ a) : t.part.unitAt b = s.part.unitAt b := by
  simp only [Part.unitAt, h b hb]

/-- The entries themselves are framed with their slots. -/
theorem State.OtherEntries.entryAt {s t : State} {n i : Nat} (h : s.OtherEntries t n) (hi : i ≠ n) : t.part.entryAt i = s.part.entryAt i := by
  simp only [Part.entryAt, h i hi]

theorem Part.effort_le (p : Part) :
    p.effort ≤ 2 * (p.board.finishes.length + 2 * p.board.held.length + p.te.pool.length + p.port.later.length) := by
  have h1 : p.waitingHeld.length ≤ p.board.held.length := List.length_filter_le _ _
  have h2 : ∀ l : List Work, (l.map Work.cost).sum ≤ 2 * l.length := by
    intro l
    induction l with
    | nil => simp
    | cons w rest ih =>
      have : w.cost ≤ 2 := by cases w <;> simp [Work.cost]
      simp only [List.map_cons, List.sum_cons, List.length_cons]; omega
  have := h2 p.port.later
  simp only [Part.effort, Part.weight]; omega

/-- R120, R121: the work in hand is done, or a block waits for room. -/
theorem Part.resolve_finishes (p : Part) (h : p.resolve.port.waiting = []) : p.resolve.port.later = [] ∧ p.resolve.board.finishes = [] :=
  (Part.resolveSteps_keeps _ p).2 p.effort_le h

/-- More steps than there is effort change nothing. -/
theorem Part.resolveSteps_enough (n m : Nat) (p : Part) (hn : p.effort ≤ n) (hm : p.effort ≤ m) :
    Part.resolveSteps n p = Part.resolveSteps m p := by
  induction n generalizing m p with
  | zero =>
    have h1 : p.board.finishes = [] := List.length_eq_zero_iff.mp (by simp only [Part.effort, Part.weight] at hn; omega)
    have h2 : p.port.later = [] := by
      cases e : p.port.later with
      | nil => rfl
      | cons w rest =>
        simp only [Part.effort, e, List.map_cons, List.sum_cons] at hn
        have : 1 ≤ w.cost := by cases w <;> simp [Work.cost]
        omega
    cases m with
    | zero => rfl
    | succ m => simp [Part.resolveSteps, h1, h2]
  | succ n ih =>
    cases m with
    | zero =>
      have h1 : p.board.finishes = [] := List.length_eq_zero_iff.mp (by simp only [Part.effort, Part.weight] at hm; omega)
      have h2 : p.port.later = [] := by
        cases e : p.port.later with
        | nil => rfl
        | cons w rest =>
          simp only [Part.effort, e, List.map_cons, List.sum_cons] at hm
          have : 1 ≤ w.cost := by cases w <;> simp [Work.cost]
          omega
      simp [Part.resolveSteps, h1, h2]
    | succ m =>
      simp only [Part.resolveSteps]
      split
      · split
        · rename_i w rest h
          rcases (Part.doNext_keeps h).2 with g | g
          · exact ih m _ (Nat.le_of_succ_le_succ (g.trans hn)) (Nat.le_of_succ_le_succ (g.trans hm))
          · rw [Part.resolveSteps_waiting g.1, Part.resolveSteps_waiting g.1]
        · rename_i f rest _ h
          have h2 := (Part.popFinish_keeps h).2
          have h4 := (Part.resolveFinish_keeps f { p with board := { p.board with finishes := rest } }).2
          have g := (Nat.succ_le_succ h4).trans h2.le
          exact ih m _ (Nat.le_of_succ_le_succ (g.trans hn)) (Nat.le_of_succ_le_succ (g.trans hm))
        · rfl
      · rfl

theorem Part.resolve_enough {n : Nat} {p : Part} (h : p.effort ≤ n) : Part.resolveSteps n p = p.resolve :=
  Part.resolveSteps_enough _ _ _ h p.effort_le

/-- The work that stood behind a wait is done first. -/
theorem Part.resolve_later {w : Work} {rest : List Work} {p : Part} (hw : p.port.waiting = []) (h : p.port.later = w :: rest) :
    p.resolve = (p.doNext w rest).resolve := by
  have hk := (Part.doNext_keeps h).2
  have hp := Part.resolve_enough (n := p.effort + 1) (p := p) (by omega)
  rw [← hp, Part.resolveSteps, if_pos (List.isEmpty_iff.mpr hw)]
  simp only [h]
  exact Part.resolve_enough (by omega)

/-- Then the finishes, in the order they reached the Board Controller. -/
theorem Part.resolve_finish {f : Finish} {rest : List Finish} {p : Part} (hw : p.port.waiting = []) (hl : p.port.later = [])
    (h : p.board.finishes = f :: rest) : p.resolve = (Part.resolveFinish f { p with board := { p.board with finishes := rest } }).resolve := by
  have h2 := (Part.popFinish_keeps h).2
  have h4 := (Part.resolveFinish_keeps f { p with board := { p.board with finishes := rest } }).2
  have hp := Part.resolve_enough (n := p.effort + 1) (p := p) (by omega)
  rw [← hp, Part.resolveSteps, if_pos (List.isEmpty_iff.mpr hw)]
  simp only [h, hl]
  exact Part.resolve_enough (Nat.le_of_succ_le ((Nat.succ_le_succ h4).trans h2.le))

/-- Where nothing is in hand, a resolution changes nothing. -/
theorem Part.resolve_eq_self {p : Part} (hl : p.port.later = []) (h : p.board.finishes = []) : p.resolve = p := by
  have : ∀ n, Part.resolveSteps n p = p := by
    intro n
    cases n with
    | zero => rfl
    | succ n => unfold Part.resolveSteps; simp only [h, hl, ite_self]
  exact this _

/-- While a block waits for room, so does the work in hand. -/
theorem Part.resolve_waiting {p : Part} (h : p.port.waiting ≠ []) : p.resolve = p := Part.resolveSteps_waiting h _

/-! ## The end of a drain, and settling -/

/-- R173: the end of the drain: every bound kept, the drain marked as ended, no choice left. -/
theorem Part.endDrain_facts (p : Part) :
    (∀ k, p.Within k → p.endDrain.Within k) ∧ p.endDrain.run = { p.run with drainEnded := true, drainTimer := none } ∧
    p.endDrain.line = { p.line with choice := none } := by
  have h := Part.drainRequests_calm { p with run := { p.run with drainEnded := true, drainTimer := none } }
  unfold Part.endDrain
  dsimp only
  generalize Part.drainRequests _ = q at h ⊢
  refine ⟨fun k g => ?_, h.run, by rw [h.line]⟩
  have g1 : ({ p with run := { p.run with drainEnded := true, drainTimer := none } } : Part).Within k := by
    refine g.of_same ?_ ?_ ?_ ?_ ?_ <;> rfl
  refine (h.toTame.within k g1).of_same ?_ ?_ ?_ ?_ ?_ <;> rfl

/-- What settling keeps and leaves: every bound; and where no block waits for room nothing in hand, and a drain that goes on has something to wait for. -/
theorem Part.settle_facts (p : Part) :
    (∀ k, p.Within k → p.settle.Within k) ∧
    (p.settle.port.waiting = [] → p.settle.port.later = [] ∧ p.settle.board.finishes = [] ∧
      ¬ (p.settle.run.partState = .draining ∧ p.settle.run.drainEnded = false ∧ p.settle.drainDone = true)) ∧
    p.settle.run.partState = p.run.partState ∧
    (p.settle.line = p.line ∧ p.settle.run = p.run ∨
      p.settle.line = { p.line with choice := none } ∧ p.settle.run = { p.run with drainEnded := true, drainTimer := none }) := by
  have h := p.resolve_keeps
  have hf := p.resolve_finishes
  unfold Part.settle Part.closeDrain
  split
  · obtain ⟨e1, e2, e3⟩ := p.resolve.endDrain_facts
    have k := p.resolve.endDrain.resolve_keeps
    refine ⟨fun l g => k.within l (e1 l (h.within l g)), fun hw => ?_, ?_, Or.inr ⟨?_, ?_⟩⟩
    · obtain ⟨r1, r2⟩ := Part.resolve_finishes _ hw
      exact ⟨r1, r2, by rw [k.run, e2]; simp⟩
    · rw [k.run, e2]; show p.resolve.run.partState = _; rw [h.run]
    · rw [k.line, e3, h.line]
    · rw [k.run, e2, h.run]
  · rename_i hc
    refine ⟨h.within, fun hw => ?_, by rw [h.run], Or.inl ⟨h.line, h.run⟩⟩
    obtain ⟨r1, r2⟩ := hf hw
    refine ⟨r1, r2, fun hd => hc ⟨hd.1, hd.2.1, hd.2.2, ?_⟩⟩
    simp [WindowPort.free, hw, r1]

/-- Nothing in hand and no drain that can end: settling changes nothing. -/
theorem Part.settle_eq_self {p : Part} (hl : p.port.later = []) (h : p.board.finishes = [])
    (hd : ¬ (p.run.partState = .draining ∧ p.run.drainEnded = false ∧ p.drainDone = true)) : p.settle = p := by
  unfold Part.settle Part.closeDrain
  rw [Part.resolve_eq_self hl h, if_neg fun e => hd ⟨e.1, e.2.1, e.2.2.1⟩]

/-- Where no drain can end, settling is the resolution. -/
theorem Part.settle_eq_resolve {p : Part} (h : p.run.partState = .running ∨ p.run.drainEnded = true) : p.settle = p.resolve := by
  unfold Part.settle Part.closeDrain
  have hr := p.resolve_keeps.run
  split
  · rename_i hc
    rw [hr] at hc
    rcases h with h | h
    · rw [h] at hc; exact absurd hc.1 (by decide)
    · rw [h] at hc; exact absurd hc.2.1 (by decide)
  · rfl

/-! ## Taking -/

/-- A part whose board alone has changed, and which names nothing new but a take given before. -/
theorem Part.Within.setBoard {p : Part} {k : Limit} (g : p.Within k) (b : BoardController) (hn : p.board.nextSeq ≤ b.nextSeq)
    (h : ∀ n, ({ p with board := b } : Part).Names n → p.Names n ∨ n < b.nextSeq) : ({ p with board := b } : Part).Within k := by
  cases k with
  | port => exact g
  | pool => exact g
  | pages => exact g
  | places => exact g
  | names =>
    intro n hm
    rcases h n hm with h | h
    · exact Nat.lt_of_lt_of_le (g n h) hn
    · exact h

/-- R114: a new take sequence keeps every bound. -/
theorem Part.nextSeq_within {p : Part} {k : Limit} (g : p.Within k) :
    ({ p with board := { p.board with nextSeq := p.board.nextSeq + 1 } } : Part).Within k :=
  g.setBoard { p.board with nextSeq := p.board.nextSeq + 1 } (Nat.le_succ _) fun _ h => Or.inl h

theorem Part.holderOf_names {tag : Half} {n : Nat} {p : Part} (h : p.holderOf tag = some n) : p.Names n := by
  unfold Part.holderOf at h
  split at h
  · exact absurd h (by simp)
  · split at h
    · rename_i e he
      exact Or.inr (Or.inl ⟨e, List.mem_of_find?_eq_some he, Option.some.inj h⟩)
    · exact absurd h (by simp)

theorem Part.register_same (tag : Half) (n : Nat) (p : Part) :
    (p.register tag n).run = p.run ∧ (p.register tag n).line = p.line ∧ (p.register tag n).te = p.te ∧ (p.register tag n).jw = p.jw ∧
    (p.register tag n).um = p.um ∧ (p.register tag n).dir = p.dir ∧ (p.register tag n).port = p.port ∧ (p.register tag n).svc = p.svc ∧
    (p.register tag n).board.held = p.board.held ∧ (p.register tag n).board.nextSeq = p.board.nextSeq ∧
    (p.register tag n).board.finishes = p.board.finishes ∧ (p.register tag n).board.sweep = p.board.sweep := by
  unfold Part.register; split <;> exact ⟨rfl, rfl, rfl, rfl, rfl, rfl, rfl, rfl, rfl, rfl, rfl, rfl⟩

theorem Part.register_within {p : Part} {k : Limit} (g : p.Within k) (tag : Half) (n : Nat) (h : n < p.board.nextSeq) :
    (p.register tag n).Within k := by
  unfold Part.register
  split
  · exact g
  · refine g.setBoard { p.board with registry := p.board.registry ++ [(tag, n)] } (le_refl _) (fun m hm => ?_)
    rcases hm with hm | ⟨e, he, hm⟩ | hm
    · exact Or.inl (Or.inl hm)
    · simp only [List.mem_append, List.mem_singleton] at he
      rcases he with he | rfl
      · exact Or.inl (Or.inr (Or.inl ⟨e, he, hm⟩))
      · exact Or.inr (hm ▸ h)
    · exact Or.inl (Or.inr (Or.inr hm))

/-- The part with the record of an accepted request. -/
def Part.hold (h : HeldRequest) (p : Part) : Part := { p with board := { p.board with held := p.board.held ++ [h] } }

theorem Part.hold_names (h : HeldRequest) (p : Part) : (p.hold h).Names h.seq :=
  Or.inl ⟨h, by simp [Part.hold], Or.inl rfl⟩

theorem Part.hold_within {p : Part} {k : Limit} (g : p.Within k) (h : HeldRequest) (hs : h.seq < p.board.nextSeq)
    (hp : ∀ n, h.pred = some n → p.Names n) : (p.hold h).Within k := by
  refine g.setBoard { p.board with held := p.board.held ++ [h] } (le_refl _) (fun m hm => ?_)
  rcases hm with ⟨x, hx, hm⟩ | hm
  · simp only [List.mem_append, List.mem_singleton] at hx
    rcases hx with hx | rfl
    · exact Or.inl (Or.inl ⟨x, hx, hm⟩)
    · rcases hm with rfl | hm
      · exact Or.inr hs
      · exact Or.inl (hp m hm)
  · exact Or.inl (Or.inr hm)

/-- The record that R117 and R119 make of an accepted request. -/
def Part.acceptRecord (k : ReqKind) (seq slot : Nat) (r : List Byte) (p : Part) : HeldRequest :=
  let pred := (p.register (Req.tag r) seq).holderOf (Req.afterTag r)
  { slot := slot, req := r, takeTime := p.run.clock, seq := seq
    owner := if (pred.isSome && !k.waitsInBlock) = true then .boardController else k.owner
    pred := pred, unmatched := Req.afterTag r != 0 && pred.isNone, taken := pred.isSome && !k.waitsInBlock }

/-- An accepted request: where it waits for a predecessor the Board Controller holds it and its slot is TAKEN; else it is handed over, and its block's answer
follows. -/
theorem Part.accept_eq (k : ReqKind) (seq slot : Nat) (r : List Byte) (p : Part) :
    p.accept k seq slot r =
      if ((p.acceptRecord k seq slot r).pred.isSome && !k.waitsInBlock) = true then
        ((p.register (Req.tag r) seq).hold (p.acceptRecord k seq slot r)).writeTaken slot
      else (((p.register (Req.tag r) seq).hold (p.acceptRecord k seq slot r)).handOver k seq slot r
        (p.acceptRecord k seq slot r).pred).answerTake seq := by rfl

/-- R117, R119: an accepted request keeps every bound. -/
theorem Part.accept_keeps (k : ReqKind) (seq slot : Nat) (r : List Byte) (p : Part)
    (hroom : (k = .transact → p.te.pool.length < Config.poolSize ∧ (p.unitQueue (Req.unit r)).length < Config.queueDepth) ∧
      (k = .lend → p.jw.pages.length < Config.lentPages)) (hs : seq < p.board.nextSeq) : p.Keeps (p.accept k seq slot r) := by
  obtain ⟨s1, s2, s3, s4, s5, s6, s7, s8, s9, s10, s11, _⟩ := p.register_same (Req.tag r) seq
  have hpred : ∀ n, (p.acceptRecord k seq slot r).pred = some n → (p.register (Req.tag r) seq).Names n := fun n h => Part.holderOf_names h
  have hheld : p.Keeps ((p.register (Req.tag r) seq).hold (p.acceptRecord k seq slot r)) :=
    ⟨fun _ g => Part.hold_within (Part.register_within g _ _ hs) _ (by rw [s10]; exact hs) hpred, s1, s2⟩
  rw [Part.accept_eq]
  split
  · exact hheld.trans (Part.writeTaken_calm _ _).keeps
  · refine Part.Keeps.trans ?_ (Part.answerTake_calm _ _).keeps
    refine hheld.trans (Part.handOver_keeps k seq slot r _ _ ?_ (Part.hold_names _ _) (fun n h => ?_)).1
    · have e1 : ((p.register (Req.tag r) seq).hold (p.acceptRecord k seq slot r)).te = p.te := s3
      have e2 : ((p.register (Req.tag r) seq).hold (p.acceptRecord k seq slot r)).jw = p.jw := s4
      simpa only [Part.unitQueue, e1, e2] using hroom
    · exact Or.inl ⟨_, by simp [Part.hold], Or.inr h⟩

/-- The room that a request has found that passed its checks at take. -/
theorem Part.validate_room {k : ReqKind} {r : List Byte} {p : Part} (h : p.validate r = none) (hk : Req.kind r = some k) :
    (k = .transact → p.te.pool.length < Config.poolSize ∧ (p.unitQueue (Req.unit r)).length < Config.queueDepth) ∧
    (k = .lend → p.jw.pages.length < Config.lentPages) := by
  unfold Part.validate at h
  simp only [hk] at h
  split at h
  · exact absurd h (by simp)
  · split at h
    · exact absurd h (by simp)
    · unfold Part.checkAtTake at h
      split at h
      · rename_i he; rw [he.1]; exact ⟨by simp, by simp⟩
      · exact Part.checkState_room h

/-- R114 to R117: a take keeps every bound. -/
theorem Part.take_keeps (slot : Nat) (r : List Byte) (p : Part) : p.Keeps (p.take slot r) := by
  have h0 : p.Keeps { p with board := { p.board with nextSeq := p.board.nextSeq + 1 } } := ⟨fun _ g => Part.nextSeq_within g, rfl, rfl⟩
  unfold Part.take
  dsimp only
  split
  · exact h0.trans (Part.writeCompletion_calm _ _ _ _).keeps
  · rename_i k hv hk
    refine h0.trans (Part.accept_keeps _ _ _ _ _ ?_ (Nat.lt_succ_self _))
    exact Part.validate_room (p := { p with board := { p.board with nextSeq := p.board.nextSeq + 1 } }) hv hk
  · exact h0

/-! ## Every bound after a step -/

/-- What a step that settles leaves: every bound kept; where no block waits for room nothing in hand and no drain that can end; the line but for its choice as
it was. -/
structure Part.Closes (p q : Part) : Prop where
  within : ∀ k, p.Within k → q.Within k
  settled : q.port.waiting = [] → q.port.later = [] ∧ q.board.finishes = [] ∧
    ¬ (q.run.partState = .draining ∧ q.run.drainEnded = false ∧ q.drainDone = true)
  state : q.run.partState = p.run.partState
  line : q.line = p.line ∨ q.line = { p.line with choice := none }

theorem Part.Keeps.settles {p q : Part} (h : p.Keeps q) : p.Closes q.settle := by
  obtain ⟨s1, s2, s4, s5⟩ := q.settle_facts
  refine ⟨fun k g => s1 k (h.within k g), s2, by rw [s4, h.run], ?_⟩
  rcases s5 with s5 | s5
  · exact Or.inl (by rw [s5.1, h.line])
  · exact Or.inr (by rw [s5.1, h.line])

theorem Part.Keeps.closes {p q r : Part} (h : p.Keeps q) (h' : q.Closes r) : p.Closes r :=
  ⟨fun k g => h'.within k (h.within k g), h'.settled, by rw [h'.state, h.run], by rw [← h.line]; exact h'.line⟩

theorem Part.Closes.trans {p q r : Part} (h : p.Closes q) (h' : q.Closes r) : p.Closes r := by
  refine ⟨fun k g => h'.within k (h.within k g), h'.settled, by rw [h'.state, h.state], ?_⟩
  rcases h.line with e | e <;> rcases h'.line with e' | e' <;> simp [e, e']

/-- R124: a take that runs to its end after the end of the drain. -/
theorem Part.takeAfterDrain_closes {p q : Part} (h : p.Closes q) : p.Closes q.takeAfterDrain := by
  unfold Part.takeAfterDrain
  split
  · exact h.trans (Part.onceFree_keeps (Part.drainRequests_calm q).keeps).settles
  · exact h

/-- R113: the sweep goes on, now or behind the end of the take. -/
theorem Part.sweepOn_keeps (p : Part) : p.Keeps p.sweepOn := by
  unfold Part.sweepOn
  split
  · exact p.setLater_keeps _
  · exact (p.sweepNext_calm true).keeps

theorem Part.takeStep_closes (n : Nat) (slot : List Byte) (p : Part) : p.Closes (p.takeStep n slot) :=
  (Part.takeAfterDrain_closes (p.take_keeps n (slot.take 64)).settles).trans (Part.sweepOn_keeps _).settles

end Sys2Proof.Machine
end

