-- ==== Sys2Proof/Laws/Line.lean ====
section
/-! SUPPORT. What the operations of the drop line and of the Run Controller keep: every bound, and that turns, choices and line faults exclude one another. -/

namespace Sys2Proof.Machine

/-- R64, R67, on the line alone. -/
def LineController.Exclusive (l : LineController) : Prop :=
  (l.fault.isSome = true → l.turn = none ∧ l.choice = none) ∧ (l.choice.isSome = true → l.turn = none)

/-- What a command is to keep: one of the bounds, or that the line is exclusive. -/
inductive Kept where
  | bound (k : Limit)
  | line
  deriving DecidableEq

/-- It holds. -/
def Part.Sound (k : Kept) (p : Part) : Prop :=
  match k with
  | .bound l => p.Within l
  | .line => p.line.Exclusive

theorem Part.Keeps.sound {k : Kept} {p q : Part} (h : p.Keeps q) (g : p.Sound k) : q.Sound k := by
  cases k with
  | bound l => exact h.within l g
  | line => show q.line.Exclusive; rw [h.line]; exact g

theorem Part.Calm.sound {k : Kept} {p q : Part} (h : p.Calm q) (g : p.Sound k) : q.Sound k := h.keeps.sound g

theorem LineController.exclusive_noChoice {l : LineController} (h : l.Exclusive) : ({ l with choice := none } : LineController).Exclusive :=
  ⟨fun e => ⟨(h.1 e).1, rfl⟩, fun e => absurd e (by simp)⟩

theorem Part.Closes.sound {k : Kept} {p q : Part} (h : p.Closes q) (g : p.Sound k) : q.Sound k := by
  cases k with
  | bound l => exact h.within l g
  | line =>
    show q.line.Exclusive
    rcases h.line with e | e
    · rw [e]; exact g
    · rw [e]; exact LineController.exclusive_noChoice g

/-- Settling keeps what is sound. -/
theorem Part.settle_sound {k : Kept} {p : Part} (g : p.Sound k) : p.settle.Sound k := (Part.Keeps.refl p).settles.sound g

/-- With a turn in progress there is neither a fault nor a choice. -/
theorem LineController.Exclusive.of_turn {l : LineController} (h : l.Exclusive) {t : Turn} (ht : l.turn = some t) :
    l.fault = none ∧ l.choice = none := by
  constructor
  · cases hf : l.fault with
    | none => rfl
    | some w => have := (h.1 (by rw [hf]; rfl)).1; rw [ht] at this; exact absurd this (by simp)
  · cases hc : l.choice with
    | none => rfl
    | some c => have := h.2 (by rw [hc]; rfl); rw [ht] at this; exact absurd this (by simp)

/-! ## The line -/

/-- A change of the line alone keeps every bound. -/
theorem Part.Sound.setLine {k : Kept} {p : Part} (g : p.Sound k) (l : LineController) (h : p.line.Exclusive → l.Exclusive) :
    ({ p with line := l } : Part).Sound k := by
  cases k with
  | bound x => exact Part.Within.of_same (p := p) g rfl rfl rfl rfl rfl
  | line => exact h g

/-- A change whose bounds and whose line are known. -/
theorem Part.Sound.of_facts {k : Kept} {p q : Part} {l : LineController} (g : p.Sound k) (hw : ∀ x, p.Within x → q.Within x) (hl : q.line = l)
    (h : p.line.Exclusive → l.Exclusive) : q.Sound k := by
  cases k with
  | bound x => exact hw x g
  | line => show q.line.Exclusive; rw [hl]; exact h g

theorem Part.setTurn_sound {k : Kept} {p : Part} (g : p.Sound k) {t : Turn} (ht : p.line.turn = some t) (t' : Turn) :
    (p.setTurn t').Sound k := by
  refine g.setLine { p.line with turn := some t' } (fun x => ?_)
  obtain ⟨h1, h2⟩ := x.of_turn ht
  refine ⟨fun e => ?_, fun e => ?_⟩
  · simp [h1] at e
  · simp [h2] at e

/-- R75: the end of a turn, and the line it leaves. -/
theorem Part.endTurn_facts (t : Turn) (p : Part) :
    (∀ x, p.Within x → (p.endTurn t).Within x) ∧ (p.endTurn t).run = p.run ∧
    (p.endTurn t).line = { p.line with turn := none, idleSince := p.run.clock } := by
  unfold Part.endTurn
  dsimp only
  have h : ∀ q : Part, q.Calm ((match t.kind with
      | .command seq => q.settleCommand seq t.answer
      | .poll => q
      | .rollCall => q).unitTurnEnd t.unit t.kind t.outcome) := by
    intro q
    refine Part.Calm.trans ?_ (Part.unitTurnEnd_calm _ _ _ _)
    split
    · exact q.settleCommand_calm _ _
    · exact .refl q
    · exact .refl q
  have k := h { p with line := { p.line with turn := none, idleSince := p.run.clock } }
  exact ⟨fun x g => k.toTame.within x (Part.Within.of_same g rfl rfl rfl rfl rfl), k.run, k.line⟩

theorem Part.endTurn_sound {k : Kept} {p : Part} (g : p.Sound k) (t : Turn) : (p.endTurn t).Sound k := by
  obtain ⟨h1, _, h3⟩ := p.endTurn_facts t
  exact g.of_facts h1 h3 fun x => ⟨fun e => ⟨rfl, (x.1 e).2⟩, fun _ => rfl⟩

theorem Part.frameEnds_sound {k : Kept} {p : Part} (g : p.Sound k) {t : Turn} (ht : p.line.turn = some t) (t' : Turn) (b : Bool) :
    (p.frameEnds t' b).Sound k := by
  unfold Part.frameEnds
  split
  · exact Part.endTurn_sound g t'
  · exact Part.setTurn_sound g ht _

/-- R67: the begin of a line fault, and the line it leaves. -/
theorem Part.beginFault_facts (c : Byte) (a k n : Nat) (p : Part) :
    (∀ x, p.Within x → (p.beginFault c a k n).Within x) ∧ (p.beginFault c a k n).run = { p.run with lineFault := true } ∧
    (p.beginFault c a k n).line = { p.line with fault := some p.run.clock, idleSince := p.run.clock, choice := none } := by
  unfold Part.beginFault
  dsimp only
  have h := fun (l : List Item) (q : Part) => (Part.raise_calm .lineController l q).trans (Part.reportLineFault_calm true _)
  have k := h [.hand (.fault { kind := .lineFaultBegin, unit := a, tag := 0, detail := c, detailHigh := 0, word1 := wordOf k, word2 := wordOf n })]
    { p with line := { p.line with fault := some p.run.clock, idleSince := p.run.clock, choice := none }, run := { p.run with lineFault := true } }
  exact ⟨fun x g => k.toTame.within x (Part.Within.of_same g rfl rfl rfl rfl rfl), k.run, k.line⟩

/-- A line fault that begins with no turn in progress, or is followed by the end of the turn. -/
theorem Part.beginFault_sound {k : Kept} {p : Part} (g : p.Sound k) (c : Byte) (a f n : Nat) (h : p.line.Exclusive → p.line.turn = none) :
    (p.beginFault c a f n).Sound k := by
  obtain ⟨h1, _, h3⟩ := p.beginFault_facts c a f n
  exact g.of_facts h1 h3 fun x => ⟨fun _ => ⟨h x, rfl⟩, fun e => absurd e (by simp)⟩

theorem Part.readback_sound {k : Kept} {p : Part} (g : p.Sound k) (c : Byte) (a f n : Nat) (t : Turn) :
    ((p.beginFault c a f n).endTurn t).Sound k := by
  obtain ⟨h1, _, h3⟩ := p.beginFault_facts c a f n
  obtain ⟨k1, _, k3⟩ := (p.beginFault c a f n).endTurn_facts t
  refine g.of_facts (fun x w => k1 x (h1 x w)) k3 fun _ => ?_
  rw [h3]
  exact ⟨fun _ => ⟨rfl, rfl⟩, fun _ => rfl⟩

/-- R67: the end of a line fault, and the line it leaves. -/
theorem Part.endFault_facts (w : Word) (p : Part) :
    (∀ x, p.Within x → (p.endFault w).Within x) ∧ (p.endFault w).run = { p.run with lineFault := false } ∧
    (p.endFault w).line = { p.line with fault := none } := by
  unfold Part.endFault
  dsimp only
  have h := fun (l : List Item) (q : Part) => (Part.raise_calm .lineController l q).trans (Part.reportLineFault_calm false _)
  have k := h [.hand (.fault { kind := .lineFaultEnd, unit := 0, tag := 0, detail := 0, detailHigh := 0, word1 := p.run.clock - w, word2 := 0 })]
    { p with line := { p.line with fault := none }, run := { p.run with lineFault := false } }
  exact ⟨fun x g => k.toTame.within x (Part.Within.of_same g rfl rfl rfl rfl rfl), k.run, k.line⟩

theorem Part.endFault_sound {k : Kept} {p : Part} (g : p.Sound k) (w : Word) : (p.endFault w).Sound k := by
  obtain ⟨h1, _, h3⟩ := p.endFault_facts w
  exact g.of_facts h1 h3 fun x => ⟨fun e => absurd e (by simp), x.2⟩

theorem Part.updateUnit_line (a : Nat) (f : FieldUnit → FieldUnit) (p : Part) : (p.updateUnit a f).line = p.line := (p.updateUnit_calm a f).line

/-- R80: the start of a turn, and the line it leaves. -/
theorem Part.startTurn_facts (c : Choice) (u : FieldUnit) (p : Part) :
    (∀ x, p.Within x → (p.startTurn c u).Within x) ∧ (p.startTurn c u).run = p.run ∧
    (p.startTurn c u).line = { p.line.started c with turn := some (startedTurn c u p.run.clock (p.chosenFrame c u)) } := by
  unfold Part.startTurn
  dsimp only
  have h : ∀ q : Part, q.Calm (match c.kind with
      | .poll => q.updateUnit c.unit (FieldUnit.turnStarts c.kind p.run.clock p.line.discovery)
      | .rollCall => q.updateUnit c.unit (FieldUnit.turnStarts c.kind p.run.clock p.line.discovery)
      | .command seq => match p.findTxn seq with
        | some t => (q.updateUnit c.unit (FieldUnit.turnStarts c.kind p.run.clock p.line.discovery)).markSending t (p.commitToken c.unit u t)
        | none => q.updateUnit c.unit (FieldUnit.turnStarts c.kind p.run.clock p.line.discovery)) := by
    intro q
    split
    · exact q.updateUnit_calm _ _
    · exact q.updateUnit_calm _ _
    · split
      · exact (q.updateUnit_calm _ _).trans (Part.markSending_calm _ _ _)
      · exact q.updateUnit_calm _ _
  have k := h { p with line := { p.line.started c with turn := some (startedTurn c u p.run.clock (p.chosenFrame c u)) } }
  exact ⟨fun x g => k.toTame.within x (Part.Within.of_same g rfl rfl rfl rfl rfl), k.run, k.line⟩

theorem Part.commitChoice_sound {k : Kept} {p : Part} (g : p.Sound k) {c : Choice} (hc : p.line.choice = some c) : (p.commitChoice c).Sound k := by
  have h0 : ({ p with line := { p.line with choice := none } } : Part).Sound k := g.setLine _ LineController.exclusive_noChoice
  unfold Part.commitChoice
  split
  · rename_i u _
    split
    · obtain ⟨h1, _, h3⟩ := p.startTurn_facts c u
      refine g.of_facts h1 h3 fun x => ?_
      have hf : p.line.fault = none := by
        cases h : p.line.fault with
        | none => rfl
        | some w => have := (x.1 (by rw [h]; rfl)).2; rw [hc] at this; exact absurd this (by simp)
      refine ⟨fun e => ?_, fun e => ?_⟩
      · simp [LineController.started, hf] at e
      · simp [LineController.started] at e
    · exact h0
  · exact h0

theorem Part.headerGood_sound {k : Kept} {p : Part} (g : p.Sound k) {t : Turn} (ht : p.line.turn = some t) (h : FrameHeader) :
    (p.headerGood t h).Sound k := by
  unfold Part.headerGood
  split
  · dsimp only
    split
    · exact Part.setTurn_sound g ht _
    · have k := Part.raise_calm .lineController [.hand (.fault (t.protocolFault h ‹_›))] p
      exact Part.setTurn_sound (k.sound g) (by rw [k.line]; exact ht) _
  · exact (Part.judgeGeneration_keeps _ _ _).sound (Part.setTurn_sound g ht _)

theorem Part.goodFrame_turn {k : Nat} {t : Turn} {h : FrameHeader} {p : Part} (e : p.goodFrame k = some (t, h)) : p.line.turn = some t := by
  unfold Part.goodFrame at e
  split at e
  · rename_i t' ht
    split at e
    · split at e
      · rw [ht]; simp only [Option.some.injEq, Prod.mk.injEq] at e; rw [e.1]
      · exact absurd e (by simp)
    · exact absurd e (by simp)
  · exact absurd e (by simp)

theorem Part.goodContents_turn {k : Nat} {l : List Byte} {t : Turn} {h : FrameHeader} {x : List Byte} {p : Part}
    (e : p.goodContents k l = some (t, h, x)) : p.line.turn = some t := by
  unfold Part.goodContents at e
  split at e
  · rename_i t' h' hg
    split at e
    · simp only [Option.some.injEq, Prod.mk.injEq] at e
      rw [← e.1]; exact Part.goodFrame_turn hg
    · exact absurd e (by simp)
  · exact absurd e (by simp)

/-! ## The Run Controller -/

theorem Part.reset_sound (k : Kept) : (Part.reset).Sound k := by
  cases k with
  | bound l =>
    cases l with
    | port => exact WindowPort.empty_bounded
    | pool => exact ⟨by decide, fun a => by simp [Part.unitQueue, Part.reset]⟩
    | pages => exact Nat.zero_le _
    | places => exact ⟨by decide, by decide⟩
    | names => exact fun n h => absurd h (Part.not_names_of_empty ⟨rfl, rfl, rfl⟩ rfl n)
  | line => exact ⟨fun e => absurd e (by decide), fun e => absurd e (by decide)⟩

/-- A change of nothing but the Run Controller, the Service Unit and the Directory Engine. -/
theorem Part.Sound.of_same {k : Kept} {p q : Part} (g : p.Sound k) (hp : q.port = p.port) (ht : q.te = p.te) (hj : q.jw = p.jw)
    (hu : q.um = p.um) (hb : q.board = p.board) (hl : q.line = p.line) : q.Sound k :=
  g.of_facts (fun _ w => w.of_same hp ht hj hu hb) hl id

/-- A part whose blocks are empty. -/
theorem Part.Sound.of_empty {k : Kept} {p : Part} (hp : p.port = {}) (hb : p.board = {}) (ht : p.te = {}) (hl : p.line = {}) (hu : p.um = {})
    (hj : p.jw = {}) : p.Sound k := (Part.reset_sound k).of_same hp ht hj hu hb hl

theorem Part.enterHalted_sound (k : Kept) (c : HaltCause) (p : Part) : (p.enterHalted c).Sound k := by
  refine Part.Sound.of_empty ?_ ?_ ?_ ?_ ?_ ?_ <;> rfl

theorem Part.softReset_sound (k : Kept) (p : Part) : p.softReset.Sound k := by
  refine Part.Sound.of_empty ?_ ?_ ?_ ?_ ?_ ?_ <;> rfl

/-- R171 step 1: the tables at a start. -/
theorem Part.startTables_sound {k : Kept} {p : Part} (g : p.Sound k) (h : List Byte) : (p.startTables h).Sound k := by
  cases k with
  | bound l =>
    cases l with
    | port => exact g
    | pool => exact ⟨Nat.zero_le _, fun a => Nat.zero_le _⟩
    | pages => exact Nat.zero_le _
    | places => exact Part.reset_sound (.bound .places)
    | names => exact fun n h => absurd h (Part.not_names_of_empty ⟨rfl, rfl, rfl⟩ rfl n)
  | line => exact ⟨fun e => absurd e (by simp [Part.startTables]), fun e => absurd e (by simp [Part.startTables])⟩

end Sys2Proof.Machine
end

