-- ==== Sys2Proof/Laws/Room.lean ====
section
/-! SUPPORT. What raising, completing, taking an answer and resolving do, in full, where the Window Port has room and nobody waits: the lemmas that the
proofs about single commands rest on. -/

namespace Sys2Proof.Machine

/-! ## Room -/

/-- No block waits, and there is room for the accesses of a list. -/
def WindowPort.Fits (w : WindowPort) (l : List Access) : Prop :=
  w.waiting = [] ∧ w.writesQueued + (l.filter fun a => !a.isRead).length ≤ Config.writeQueueSize ∧
  w.readsQueued + (l.filter Access.isRead).length ≤ Config.readQueueSize

/-- The port with accesses raised. -/
def WindowPort.with (w : WindowPort) (l : List Access) : WindowPort := { w with fifo := w.fifo ++ l }

@[simp] theorem WindowPort.with_nil (w : WindowPort) : w.with [] = w := by simp [WindowPort.with]

@[simp] theorem WindowPort.with_with (w : WindowPort) (l m : List Access) : (w.with l).with m = w.with (l ++ m) := by
  simp [WindowPort.with, List.append_assoc]

theorem WindowPort.push_eq (w : WindowPort) (a : Access) : w.push a = w.with [a] := rfl

theorem WindowPort.fits_cons {w : WindowPort} {a : Access} {l : List Access} (h : w.Fits (a :: l)) : w.hasRoom a = true ∧ (w.push a).Fits l := by
  obtain ⟨h1, h2, h3⟩ := h
  cases ha : a.isRead
  · simp only [List.filter_cons, ha, Bool.not_false, if_true, List.length_cons, Bool.false_eq_true, if_false] at h2 h3
    refine ⟨?_, h1, ?_, ?_⟩
    · simp only [WindowPort.hasRoom, ha, Bool.false_eq_true, if_false, decide_eq_true_eq]; omega
    · simp only [WindowPort.writesQueued, WindowPort.push] at h2 ⊢; simp [List.filter_append, ha]; omega
    · simp only [WindowPort.readsQueued, WindowPort.push] at h3 ⊢; simp [List.filter_append, ha]; omega
  · simp only [List.filter_cons, ha, Bool.not_true, if_true, List.length_cons, Bool.false_eq_true, if_false] at h2 h3
    refine ⟨?_, h1, ?_, ?_⟩
    · simp only [WindowPort.hasRoom, ha, if_true, decide_eq_true_eq]; omega
    · simp only [WindowPort.writesQueued, WindowPort.push] at h2 ⊢; simp [List.filter_append, ha]; omega
    · simp only [WindowPort.readsQueued, WindowPort.push] at h3 ⊢; simp [List.filter_append, ha]; omega

theorem WindowPort.fits_append {w : WindowPort} {l m : List Access} (h : w.Fits (l ++ m)) : w.Fits l ∧ (w.with l).Fits m := by
  obtain ⟨h1, h2, h3⟩ := h
  simp only [List.filter_append, List.length_append] at h2 h3
  refine ⟨⟨h1, by omega, by omega⟩, h1, ?_, ?_⟩
  · simp only [WindowPort.writesQueued, WindowPort.with, List.filter_append, List.length_append] at h2 ⊢; omega
  · simp only [WindowPort.readsQueued, WindowPort.with, List.filter_append, List.length_append] at h3 ⊢; omega

theorem WindowPort.not_waits {w : WindowPort} (h : w.waiting = []) (b : Block) : w.waits b = false := by simp [WindowPort.waits, h]

theorem WindowPort.submit_fits (b : Block) (l : List Access) (w : WindowPort) (h : w.Fits l) : w.submit b l = w.with l := by
  have h0 : ∀ (l : List Access) (w : WindowPort), w.Fits l → WindowPort.submitFree b l w = w.with l := by
    intro l
    induction l with
    | nil => intro w _; simp [WindowPort.submitFree]
    | cons a rest ih =>
      intro w h
      obtain ⟨h1, h2⟩ := WindowPort.fits_cons h
      simp only [WindowPort.submitFree, h1, if_true]
      rw [ih _ h2, WindowPort.push_eq, WindowPort.with_with]
      rfl
  unfold WindowPort.submit
  rw [WindowPort.not_waits h.1]
  simp only [Bool.false_eq_true, if_false]
  exact h0 l w h

/-- R174: with room, a block raises its accesses at once, behind the others. -/
theorem Part.submit_fits (b : Block) (l : List Access) (p : Part) (h : p.port.Fits l) : p.submit b l = { p with port := p.port.with l } := by
  unfold Part.submit
  rw [WindowPort.submit_fits b l p.port h]

theorem Part.raiseFree_accesses (b : Block) (l : List Access) (rest : List Item) (p : Part) (h : p.port.Fits l) :
    Part.raiseFree b (l.map Item.access ++ rest) p = Part.raiseFree b rest { p with port := p.port.with l } := by
  induction l generalizing p with
  | nil => simp
  | cons a l ih =>
    obtain ⟨h1, h2⟩ := WindowPort.fits_cons h
    simp only [List.map_cons, List.cons_append, Part.raiseFree, h1, if_true]
    rw [ih { p with port := p.port.push a } h2]
    rw [WindowPort.push_eq, WindowPort.with_with]
    rfl

theorem WindowPort.free_iff {w : WindowPort} : w.free = true ↔ w.waiting = [] ∧ w.later = [] := by simp [WindowPort.free]

theorem Part.raise_free {p : Part} (h : p.port.waiting = []) (b : Block) (l : List Item) : Part.raise b l p = Part.raiseFree b l p := by
  unfold Part.raise
  rw [WindowPort.not_waits h]
  simp

/-- R153: a bank bit, with room for the read of its map word. -/
theorem Part.takeBankBit_fits (m : MapKind) (i : Nat) (p : Part) (h : p.port.Fits (p.bankBitRead m i)) :
    p.takeBankBit m i = { p with svc := { p.svc with bankQueue := p.svc.bankQueue ++ [.update p.svc.activeBank m i] }
                                 port := p.port.with (p.bankBitRead m i) } := by
  unfold Part.takeBankBit
  dsimp only
  by_cases hq : p.svc.bankQueue = []
  · have hr : p.bankBitRead m i = [.read .bankWord (mapWordAddr p.base p.svc.activeBank m i) 4] := by simp [Part.bankBitRead, hq]
    rw [hr] at h ⊢
    simp only [hq, List.isEmpty_nil, if_true, List.nil_append, ServiceUnit.bankRead]
    exact Part.submit_fits _ _ _ h
  · have hr : p.bankBitRead m i = [] := by simp [Part.bankBitRead, hq]
    rw [hr]
    simp [List.isEmpty_iff, hq]

/-- The accesses of a mirror rewrite and, behind them, of a bank bit, all raised at once. -/
theorem Part.raise_record (b : Block) (l : List Access) (bit : Bool) (m : MapKind) (i : Nat) (p : Part)
    (h : p.port.Fits (l ++ if bit then p.bankBitRead m i else [])) :
    Part.raise b (l.map Item.access ++ if bit then [Item.hand (.bankBit m i)] else []) p =
      { p with
        svc := if bit then { p.svc with bankQueue := p.svc.bankQueue ++ [.update p.svc.activeBank m i] } else p.svc
        port := p.port.with (l ++ if bit then p.bankBitRead m i else []) } := by
  obtain ⟨h1, h2⟩ := WindowPort.fits_append h
  rw [Part.raise_free h.1, Part.raiseFree_accesses _ _ _ _ h1]
  cases bit with
  | false => simp [Part.raiseFree]
  | true =>
    simp only [if_true] at h2 ⊢
    simp only [Part.raiseFree, Part.deliver]
    rw [Part.takeBankBit_fits m i { p with port := p.port.with l } h2, WindowPort.with_with]
    rfl

/-! ## Places and entries -/

/-- The accesses of a change of a place (R40, R148). -/
def Part.unitAccesses (a : Nat) (new : Option FieldUnit) (always : Bool) (p : Part) : List Access :=
  (if always || unitBody (p.unitAt a) != unitBody new then mirrorWrites (unitMirrorAddr p.base a) (p.unitSlot a).version (unitBody new) else []) ++
  if unitBitChange (p.unitAt a) new then p.bankBitRead .unit a else []

theorem Part.putUnit_fits (a : Nat) (new : Option FieldUnit) (always : Bool) (p : Part) (ha : 1 ≤ a ∧ a ≤ 30)
    (h : p.port.Fits (p.unitAccesses a new always)) :
    (p.putUnit a new always).port = p.port.with (p.unitAccesses a new always) ∧
    (p.putUnit a new always).svc = if unitBitChange (p.unitAt a) new then
      { p.svc with bankQueue := p.svc.bankQueue ++ [.update p.svc.activeBank .unit a] } else p.svc := by
  unfold Part.putUnit
  rw [if_pos ha]
  dsimp only
  rw [Part.raise_record .unitManager _ (unitBitChange (p.unitSlot a).place new) .unit a _ (by exact h)]
  exact ⟨rfl, rfl⟩

theorem Part.entrySlot_put (n : Nat) (x : EntrySlot) (v : Vector EntrySlot 192) (m : Nat) (hn : n < 192) :
    ((v.setIfInBounds n x)[m]?.getD {}) = if m = n then x else v[m]?.getD {} := by
  simp only [Vector.getElem?_setIfInBounds]
  by_cases e : m = n
  · subst e; simp [hn]
  · have : n ≠ m := fun h => e h.symm
    simp [e, this]

/-- R1: after a number is written it holds what was written, and every other number what it held. -/
theorem Part.entryAt_putEntry (n : Nat) (new : Option Entry) (f : Bool) (p : Part) (m : Nat) :
    (p.putEntry n new f).entryAt m = if m = n ∧ n < Config.entryCount then new else p.entryAt m := by
  unfold Part.entryAt Part.entrySlot Part.putEntry
  by_cases hn : n < Config.entryCount
  · simp only [hn, if_true, and_true]
    have hd : ∀ (l : List Item) (q : Part), (Part.raise .directoryEngine l q).dir = q.dir := fun l q => (Part.raise_owners _ _ _).2.2.2.2.1
    rw [hd]
    dsimp only
    rw [Part.entrySlot_put n _ _ m hn]
    by_cases e : m = n <;> simp [e]
  · simp [hn]

/-- The accesses of a change of an entry (R13, R14, R148). -/
def Part.entryAccesses (n : Nat) (new : Option Entry) (notify : Bool) (p : Part) : List Access :=
  (if dirBody (p.entrySlot n).shownKey (p.entryAt n) != dirBody (match new with
      | some e => e.key
      | none => (p.entrySlot n).shownKey) new then
    mirrorWrites (dirMirrorAddr p.base n) (p.entrySlot n).version (dirBody (match new with
      | some e => e.key
      | none => (p.entrySlot n).shownKey) new) else []) ++
  if notify then p.bankBitRead .directory n else []

theorem Part.putEntry_fits (n : Nat) (new : Option Entry) (notify : Bool) (p : Part) (hn : n < Config.entryCount)
    (h : p.port.Fits (p.entryAccesses n new notify)) :
    (p.putEntry n new notify).port = p.port.with (p.entryAccesses n new notify) ∧
    (p.putEntry n new notify).svc = if notify then
      { p.svc with bankQueue := p.svc.bankQueue ++ [.update p.svc.activeBank .directory n] } else p.svc := by
  unfold Part.putEntry
  rw [if_pos hn]
  dsimp only
  rw [Part.raise_record .directoryEngine _ notify .directory n _ (by exact h)]
  exact ⟨rfl, rfl⟩

/-! ## Completing -/

theorem Part.heldOf_filter_ne (n : Nat) (l : List HeldRequest) (h : ∀ x ∈ l, x.seq ≠ n) : (l.filter fun x => x.seq != n) = l := by
  rw [List.filter_eq_self]
  intro x hx
  simpa using h x hx

/-- R122: where no completion is on its way, one that is taken raises its two writes. -/
theorem Part.writeCompletion_fits {n : Nat} {b : Bool} {r : Result} {p : Part} (hc : p.board.completions = [])
    (hf : p.port.Fits (completionWrites p.base n r b p.run.clock (.done n))) :
    p.writeCompletion n b r = { p with
      board := { p.board with completions := [{ slot := n, unmatched := b, result := r, time := p.run.clock }] }
      port := p.port.with (completionWrites p.base n r b p.run.clock (.done n)) } := by
  unfold Part.writeCompletion
  simp only [hc, List.isEmpty_nil, if_true, List.nil_append]
  rw [Part.submit_fits]
  · rfl
  · exact hf

/-- R122: whatever the room, a completion that is taken changes the board's completions and the port alone. -/
theorem Part.writeCompletion_frame (n : Nat) (b : Bool) (r : Result) (p : Part) :
    ∃ w : WindowPort, p.writeCompletion n b r = { p with
      board := { p.board with completions := p.board.completions ++ [{ slot := n, unmatched := b, result := r, time := p.run.clock }] }
      port := w } := by
  unfold Part.writeCompletion
  dsimp only
  split
  · exact ⟨_, rfl⟩
  · exact ⟨_, rfl⟩

/-- R122: the completion of a request that is held, the only one on its way, with room for its two writes. -/
theorem Part.completeRequest_fits {n : Nat} {r : Result} {p : Part} {h : HeldRequest} (e : p.heldOf n = some h) (hc : p.board.completions = [])
    (hf : p.port.Fits (completionWrites p.base h.slot r h.unmatched p.run.clock (.done h.slot))) :
    (p.completeRequest n r).port = p.port.with (completionWrites p.base h.slot r h.unmatched p.run.clock (.done h.slot)) := by
  unfold Part.completeRequest Part.completeSlot
  simp only [e, Part.noteFinish_port]
  rw [Part.writeCompletion_fits (by exact hc) (by exact hf)]
  rfl

/-- R122: whatever the room, a completion changes the board and the port alone. -/
theorem Part.completeRequest_board {n : Nat} (r : Result) {p : Part} {h : HeldRequest} (e : p.heldOf n = some h) :
    (p.completeRequest n r).board = { p.board with
      held := p.board.held.filter fun x => x.seq != n
      finishes := p.board.finishes ++ [⟨n, r.outcome.success, false⟩]
      completions := p.board.completions ++ [{ slot := h.slot, unmatched := h.unmatched, result := r, time := p.run.clock }] } ∧
    (p.completeRequest n r).svc = p.svc := by
  unfold Part.completeRequest Part.completeSlot
  simp only [e]
  obtain ⟨w, hw⟩ := Part.writeCompletion_frame h.slot h.unmatched r
    { p with board := { p.board with held := p.board.held.filter fun x => x.seq != n } }
  rw [hw]
  exact ⟨rfl, rfl⟩

/-- Where no block waits, a block's completion of a request is taken at once. -/
theorem Part.finishRequest_eq {p : Part} (h : p.port.waiting = []) (b : Block) (n : Nat) (r : Result) :
    p.finishRequest b n r = p.completeRequest n r := by
  unfold Part.finishRequest
  rw [Part.raise_free h]
  rfl

/-! ## Resolving where nobody waits -/

theorem Part.waitersOf_nil {n : Nat} {p : Part} (h : ¬ p.Waits n) : p.waitersOf n = [] := by
  simp only [Part.Waits, not_or, not_exists, not_and] at h
  obtain ⟨h1, h2, h3⟩ := h
  simp only [Part.waitersOf, List.append_eq_nil_iff, List.map_eq_nil_iff, List.filter_eq_nil_iff]
  refine ⟨⟨fun x hx => ?_, fun x hx => ?_⟩, fun x hx => ?_⟩
  · have := h1 x hx; simpa using this
  · have := h2 x hx; simp [this]
  · have := h3 x hx; simp [this]

/-- No waiting SYNC has captured what has finished, or it is no transaction. -/
def Part.Uncounted (p : Part) (f : Finish) : Prop := f.transaction = false ∨ ∀ y ∈ p.te.syncs, f.seq ∉ y.waitingFor

theorem Part.countFinish_uncounted {f : Finish} {p : Part} (h : p.Uncounted f) : p.countFinish f = p := by
  unfold Part.countFinish
  rcases h with h | h
  · simp [h]
  · split
    · have h1 : (p.te.syncs.filter fun y => y.waitingFor.contains f.seq) = [] := by
        rw [List.filter_eq_nil_iff]; intro y hy; simpa using h y hy
      have h2 : p.te.syncs.map (SyncRecord.count f.seq f.success) = p.te.syncs := by
        conv_rhs => rw [← List.map_id p.te.syncs]
        refine List.map_congr_left fun y hy => ?_
        have := h y hy
        simp [SyncRecord.count, this]
      rw [h1, h2]
      rfl
    · rfl

theorem Part.resolveFinish_unwaited {f : Finish} {p : Part} (h : ¬ p.Waits f.seq) (hu : p.Uncounted f) :
    p.resolveFinish f = { p with board := { p.board with registry := p.board.registry.filter fun e => e.2 != f.seq } } := by
  unfold Part.resolveFinish
  dsimp only
  have hw : Part.waitersOf f.seq { p with board := { p.board with registry := p.board.registry.filter fun e => e.2 != f.seq } } = [] :=
    Part.waitersOf_nil (p := { p with board := { p.board with registry := p.board.registry.filter fun e => e.2 != f.seq } }) h
  rw [hw]
  exact Part.countFinish_uncounted (p := { p with board := { p.board with registry := p.board.registry.filter fun e => e.2 != f.seq } }) hu

/-- R118, R120: where nobody waits on what has finished and no SYNC counts it, a resolution releases the tags and does nothing else. -/
theorem Part.resolve_unwaited {p : Part} (hport : p.port.free = true) (h : ∀ f ∈ p.board.finishes, ¬ p.Waits f.seq ∧ p.Uncounted f) :
    p.resolve = { p with board := { p.board with
      finishes := [], registry := p.board.registry.filter fun e => !(p.board.finishes.map (·.seq)).contains e.2 } } := by
  have hgen : ∀ (n : Nat) (p : Part), p.port.free = true → p.board.finishes.length ≤ n → (∀ f ∈ p.board.finishes, ¬ p.Waits f.seq ∧ p.Uncounted f) →
      Part.resolveSteps n p = { p with board := { p.board with
        finishes := [], registry := p.board.registry.filter fun e => !(p.board.finishes.map (·.seq)).contains e.2 } } := by
    intro n
    induction n with
    | zero =>
      intro p _ hl _
      have he : p.board.finishes = [] := List.length_eq_zero_iff.mp (Nat.le_zero.mp hl)
      have hr : (p.board.registry.filter fun e => !([] : List Nat).contains e.2) = p.board.registry := by simp
      have hb : p.board = { p.board with finishes := [], registry := p.board.registry } := by rw [← he]
      simp only [he, List.map_nil, Part.resolveSteps]
      rw [hr, ← hb]
    | succ n ih =>
      intro p hp hl hw
      obtain ⟨hp1, hp2⟩ := WindowPort.free_iff.mp hp
      unfold Part.resolveSteps
      rw [if_pos (by simp [hp1])]
      split
      · rename_i e; rw [hp2] at e; exact absurd e (by simp)
      rotate_left
      · rename_i _ he
        have hr : (p.board.registry.filter fun e => !([] : List Nat).contains e.2) = p.board.registry := by simp
        have hb : p.board = { p.board with finishes := [], registry := p.board.registry } := by rw [← he]
        simp only [he, List.map_nil]
        rw [hr, ← hb]
      · rename_i f rest _ he
        have h0 := hw f (by rw [he]; simp)
        have h1 : ¬ ({ p with board := { p.board with finishes := rest } } : Part).Waits f.seq := h0.1
        rw [Part.resolveFinish_unwaited h1 h0.2]
        rw [ih]
        · simp only [he, List.map_cons, List.filter_filter]
          congr 2
          congr 1
          funext e
          by_cases hx : e.2 = f.seq <;> simp [hx]
        · exact hp
        · rw [he] at hl; simpa using hl
        · intro g hg
          exact hw g (by rw [he]; exact List.mem_cons_of_mem _ hg)
  exact hgen _ p hport (by omega) h

/-! ## Waiting for room -/

/-- R174: where no block waits and no work stands behind a wait, nothing is waited for. -/
theorem State.awaitRoom_eq {s : State} (h : s.part.port.free = true) : s.awaitRoom = s := by
  unfold State.awaitRoom
  split
  · unfold State.awaitLoop
    simp [h]
  · rfl

theorem State.onBlocks_eq {s : State} (h : s.part.port.free = true) (f : Part → Part) : s.onBlocks f = s.onPart f := by
  unfold State.onBlocks
  rw [State.awaitRoom_eq h]

/-! ## Taking the answer of the access at the front -/

theorem State.claim_front {s : State} {what : Access → Bool} {a : Access} {rest : List Access} (hp : s.part.port = { fifo := a :: rest })
    (hr : a.reported = true) (hw : what a = true) :
    s.claim what = some { s with
      mem := a.land s.mem
      part := { s.part with port := { fifo := rest } } } := by
  have ho : s.part.port.outstanding.any what = true := by simp [WindowPort.outstanding, hp, hw]
  have hfront : s.performFront = { s with
      mem := a.land s.mem
      part := { s.part with port := { fifo := rest, reports := [a] } } } := by
    unfold State.performFront
    simp only [hp, hr, if_true, List.nil_append]
    unfold Part.refill
    simp only [List.find?_nil]
  have hu : ∀ n, State.performUntil what (n + 2) s = { s with
      mem := a.land s.mem
      part := { s.part with port := { fifo := rest, reports := [a] } } } := by
    intro n
    have hno : s.part.port.reports.any what = false := by simp [hp]
    rw [State.performUntil]
    simp only [hno, Bool.false_eq_true, if_false]
    rw [hfront, State.performUntil]
    simp [hw]
  unfold State.claim
  rw [if_pos ho]
  have hwork : s.part.port.work = rest.length + 2 := by simp [WindowPort.work, hp]
  rw [hwork]
  simp only [hu]
  simp [takeFirst, hw]

/-- The answer of a read that is the only access outstanding. -/
theorem State.onAnswer_only {s : State} {w : ReadWhat} {x n : Nat} (h : s.OnlyAccess (.read w x n)) (f : Part → Part) :
    s.onAnswer (Access.isReadOf w) f = { s with part := f { s.part with port := {} } } := by
  unfold State.onAnswer
  rw [State.claim_front h rfl (by simp [Access.isReadOf])]
  rfl

end Sys2Proof.Machine
end

