-- ==== Sys2Proof/Laws/Takes.lean ====
section
/-! SUPPORT. What the take of a slot does, from the answer of its read to the sweep's next access, for the requests that pass their checks and name no
predecessor in flight. -/

namespace Sys2Proof.Machine

/-! ## The request part of a slot -/

theorem byteAt_take {l : List Byte} {i : Nat} (h : i < 64) : byteAt (l.take 64) i = byteAt l i := by
  simp only [byteAt, List.getD_eq_getElem?_getD, List.getElem?_take, h, if_true]

theorem Req.kind_take (slot : List Byte) : Req.kind (slot.take 64) = Req.kind slot := by
  simp only [Req.kind, Req.kindCode, natAt, byteAt_take (show 0 < 64 by decide)]

/-- The checks that an accepted request has passed; R132 lets an ENROLL that names its unit's DISMISS pass without the last three. -/
theorem Part.validate_none {p : Part} {r : List Byte} {k : ReqKind} (h : p.validate r = none) (hk : Req.kind r = some k) :
    Req.inRange p.base k r = true ∧ p.holderOf (Req.tag r) = none ∧
    (p.check4 k r = none ∧ p.check5 k r = none ∧ p.check6 k r = none ∨ k = .enroll ∧ p.namesItsDismiss r = true) := by
  unfold Part.validate at h
  simp only [hk] at h
  split at h
  · exact absurd h (by simp)
  · rename_i h1
    split at h
    · exact absurd h (by simp)
    · rename_i h2
      refine ⟨by simpa using h1, by simpa using h2, ?_⟩
      unfold Part.checkAtTake at h
      split at h
      · rename_i h3; exact Or.inr h3
      · simp only [Part.checkState, Option.or_eq_none_iff] at h; exact Or.inl h

/-- R132: when an ENROLL names its unit's DISMISS. -/
theorem Part.namesItsDismiss_iff {p : Part} {r : List Byte} :
    p.namesItsDismiss r = true ↔ ∃ (m : Nat) (h : HeldRequest), p.holderOf (Req.afterTag r) = some m ∧ p.heldOf m = some h ∧
      Req.kind h.req = some .dismiss ∧ Req.unit h.req = Req.unit r := by
  unfold Part.namesItsDismiss
  constructor
  · intro h
    split at h
    · rename_i m hm
      split at h
      · rename_i x hx; exact ⟨m, x, hm, hx, by simpa using h⟩
      · exact absurd h (by simp)
    · exact absurd h (by simp)
  · rintro ⟨m, h, e1, e2, e3, e4⟩
    simp [e1, e2, e3, e4]

theorem Part.checkUnit_none {p : Part} {a : Nat} (h : p.checkUnit a = none) : ∃ u, p.unitAt a = some u ∧ u.link ≠ .departing := by
  unfold Part.checkUnit Part.unitPresent at h
  cases e : p.unitAt a with
  | none => simp [e] at h
  | some u => exact ⟨u, rfl, by simpa [e] using h⟩

/-! ## The accepted request -/

/-- The part with the take sequence given, the tag registered and the record held, as the owning block finds it. -/
def Part.accepted (k : ReqKind) (n : Nat) (r : List Byte) (p : Part) : Part :=
  let p1 : Part := { p with board := { p.board with nextSeq := p.board.nextSeq + 1 } }
  (p1.register (Req.tag r) p.board.nextSeq).hold (p1.acceptRecord k p.board.nextSeq n r)

theorem Part.holderOf_register {tag : Half} {seq : Nat} {p : Part} {x : Half} (hx : x ≠ tag ∨ x = 0) :
    (p.register tag seq).holderOf x = p.holderOf x := by
  unfold Part.register
  split
  · rfl
  · rename_i ht
    unfold Part.holderOf
    by_cases h0 : x = 0
    · simp [h0]
    · have hne : x ≠ tag := by rcases hx with h | h; exact h; exact absurd h h0
      have hne' : (tag == x) = false := by simpa using fun e : tag = x => hne e.symm
      simp only [h0, if_false, List.find?_append, List.find?_cons, hne', List.find?_nil, Option.or_none]

/-- The part as its block finds it differs in the board alone. -/
theorem Part.accepted_same (k : ReqKind) (n : Nat) (r : List Byte) (p : Part) :
    (p.accepted k n r).run = p.run ∧ (p.accepted k n r).line = p.line ∧ (p.accepted k n r).te = p.te ∧ (p.accepted k n r).jw = p.jw ∧
    (p.accepted k n r).um = p.um ∧ (p.accepted k n r).dir = p.dir ∧ (p.accepted k n r).port = p.port ∧ (p.accepted k n r).svc = p.svc := by
  obtain ⟨h1, h2, h3, h4, h5, h6, h7, h8, _⟩ :=
    Part.register_same (Req.tag r) p.board.nextSeq { p with board := { p.board with nextSeq := p.board.nextSeq + 1 } }
  exact ⟨h1, h2, h3, h4, h5, h6, h7, h8⟩

/-- R118: the board as the owning block finds it: a nonzero tag registered, the record held. -/
theorem Part.accepted_board (k : ReqKind) (n : Nat) (r : List Byte) (p : Part) :
    ∃ h : HeldRequest, (p.accepted k n r).board = { p.board with
        nextSeq := p.board.nextSeq + 1
        registry := p.board.registry ++ (if Req.tag r = 0 then [] else [(Req.tag r, p.board.nextSeq)])
        held := p.board.held ++ [h] } ∧
      h.seq = p.board.nextSeq ∧ h.slot = n ∧ h.req = r ∧ h = Part.acceptRecord k p.board.nextSeq n r
        { p with board := { p.board with nextSeq := p.board.nextSeq + 1 } } := by
  refine ⟨_, ?_, rfl, rfl, rfl, rfl⟩
  unfold Part.accepted Part.hold Part.register
  dsimp only
  split
  · simp
  · rfl

/-- The tag and `after` of a request that passed its checks differ, or `after` is 0. -/
theorem Req.after_ne_tag {base : Nat} {k : ReqKind} {r : List Byte} (h : Req.inRange base k r = true) :
    Req.afterTag r ≠ Req.tag r ∨ Req.afterTag r = 0 := by
  unfold Req.inRange Req.commonInRange at h
  simp only [Bool.and_eq_true, Bool.or_eq_true, beq_iff_eq, bne_iff_ne, ne_eq] at h
  rcases h.1.1.1 with h | h
  · exact Or.inr h
  · exact Or.inl h

/-- The record of an accepted request, where `after` names nobody in flight. -/
theorem Part.acceptRecord_noPred {k : ReqKind} {n : Nat} {r : List Byte} {p : Part} (hr : Req.inRange p.base k r = true)
    (hp : p.holderOf (Req.afterTag r) = none) :
    Part.acceptRecord k p.board.nextSeq n r { p with board := { p.board with nextSeq := p.board.nextSeq + 1 } } =
      { slot := n, req := r, takeTime := p.run.clock, seq := p.board.nextSeq, owner := k.owner, pred := none
        unmatched := Req.afterTag r != 0, taken := false } := by
  have h : (Part.register (Req.tag r) p.board.nextSeq
      ({ p with board := { p.board with nextSeq := p.board.nextSeq + 1 } } : Part)).holderOf (Req.afterTag r) = none := by
    rw [Part.holderOf_register (Req.after_ne_tag hr)]
    exact hp
  unfold Part.acceptRecord
  dsimp only
  rw [h]
  simp

theorem Part.Below.ne {p : Part} (h : ∀ n : Nat, p.Names n → n < p.board.nextSeq) :
    (∀ x ∈ p.board.held, x.seq ≠ p.board.nextSeq) ∧ (∀ e ∈ p.board.registry, e.2 ≠ p.board.nextSeq) ∧ ¬ p.Waits p.board.nextSeq ∧
    p.findTxn p.board.nextSeq = none := by
  refine ⟨fun x hx e => ?_, fun e he e' => ?_, fun hw => ?_, ?_⟩
  · exact absurd (h _ (Or.inl ⟨x, hx, Or.inl e⟩)) (Nat.lt_irrefl _)
  · exact absurd (h _ (Or.inr (Or.inl ⟨e, he, e'⟩))) (Nat.lt_irrefl _)
  · exact absurd (h _ hw.names) (Nat.lt_irrefl _)
  · unfold Part.findTxn
    rw [List.find?_eq_none]
    intro t ht e
    exact absurd (h _ (Or.inr (Or.inr (Or.inr (Or.inl ⟨t, ht, Or.inl (by simpa using e)⟩))))) (Nat.lt_irrefl _)

theorem List.filter_ne_seq {l : List HeldRequest} {h : HeldRequest} {n : Nat} (hl : ∀ x ∈ l, x.seq ≠ n) (hs : h.seq = n) :
    ((l ++ [h]).filter fun x => x.seq != n) = l := by
  rw [List.filter_append, Part.heldOf_filter_ne n l hl]
  simp [hs]

/-- The record held is the one its sequence names. -/
theorem Part.heldOf_append {n : Nat} {p : Part} {l : List HeldRequest} {h : HeldRequest} (e : p.board.held = l ++ [h])
    (hl : ∀ x ∈ l, x.seq ≠ n) (hs : h.seq = n) : p.heldOf n = some h := by
  unfold Part.heldOf
  rw [e, List.find?_append]
  have : (l.find? fun x => x.seq == n) = none := by
    rw [List.find?_eq_none]; intro x hx; simpa using hl x hx
  rw [this]
  simp [hs]

/-! ## The sweep goes on -/

theorem WindowPort.park_fifo_prefix (b : Block) (l : List Item) (w : WindowPort) : w.fifo <+: (w.park b l).fifo := by
  rw [WindowPort.park_fifo]

theorem WindowPort.submit_prefix (b : Block) (l : List Access) (w : WindowPort) : w.fifo <+: (w.submit b l).fifo := by
  have h : ∀ (l : List Access) (w : WindowPort), w.fifo <+: (WindowPort.submitFree b l w).fifo := by
    intro l
    induction l with
    | nil => intro w; exact List.prefix_rfl
    | cons a rest ih =>
      intro w
      unfold WindowPort.submitFree
      split
      · exact (List.prefix_append w.fifo [a]).trans (ih (w.push a))
      · exact WindowPort.park_fifo_prefix _ _ _
  unfold WindowPort.submit
  split
  · exact WindowPort.park_fifo_prefix _ _ _
  · exact h l w

theorem BoardController.moveOrigin_completions (l : Option Nat) (b : BoardController) : (b.moveOrigin l).completions = b.completions := by
  cases l <;> rfl

/-- A sweep that goes on changes the board and the port alone, and raises behind what is raised. -/
theorem Part.sweepNext_frame (b : Bool) (p : Part) :
    (∃ (x : BoardController) (w : WindowPort), p.sweepNext b = { p with board := x, port := w } ∧ p.port.fifo <+: w.fifo ∧
      x.held = p.board.held ∧ x.registry = p.board.registry ∧ x.finishes = p.board.finishes ∧ x.nextSeq = p.board.nextSeq ∧
      x.completions = p.board.completions) := by
  have hk := fun l => BoardController.moveOrigin_completions l p.board
  have hm := fun l => BoardController.moveOrigin_same l p.board
  unfold Part.sweepNext
  split
  · exact ⟨p.board, p.port, rfl, List.prefix_rfl, rfl, rfl, rfl, rfl, rfl⟩
  · exact ⟨p.board, p.port, rfl, List.prefix_rfl, rfl, rfl, rfl, rfl, rfl⟩
  · exact ⟨p.board, p.port, rfl, List.prefix_rfl, rfl, rfl, rfl, rfl, rfl⟩
  · dsimp only
    split
    · split
      · unfold Part.endSweep
        dsimp only
        split
        · exact ⟨_, _, rfl, (WindowPort.submit_prefix _ _ _).trans (WindowPort.submit_prefix _ _ _), (hm _).1, (hm _).2.1, (hm _).2.2.1,
            (hm _).2.2.2, hk _⟩
        · exact ⟨_, _, rfl, WindowPort.submit_prefix _ _ _, (hm _).1, (hm _).2.1, (hm _).2.2.1, (hm _).2.2.2, hk _⟩
      · exact ⟨_, _, rfl, List.prefix_rfl, (hm _).1, (hm _).2.1, (hm _).2.2.1, (hm _).2.2.2, hk _⟩
    · exact ⟨_, _, rfl, WindowPort.submit_prefix _ _ _, rfl, rfl, rfl, rfl, rfl⟩

/-! ## The take row -/

/-- The row of a take, where the read of the slot is the only access outstanding: the take of the slot, on an empty port. -/
theorem State.takeRow_eq {s : State} {n : Nat} {slot : List Byte} {k : ReqKind} (h : s.TakesSlot n slot k) (fits : List Byte → Bool)
    (hf : fits slot = true) :
    s.takeRow fits slot = { s with part := Part.takeStep n slot { s.part with port := {} } } := by
  obtain ⟨h1, _, _, h4, ⟨rest, last, h5⟩, _, h7, _, _⟩ := h
  unfold State.takeRow
  rw [State.awaitRoom_eq (by rw [h4]; rfl)]
  unfold State.slotRow
  simp only [h5, SweepPhase.front]
  have hw : (s.part.working && (fits slot && byteAt slot 0x7F == statePosted)) = true := by
    simp [Part.working, h1, hf, h7]
  rw [if_pos hw]
  exact State.onAnswer_only h4 _

/-- Where a part whose finishes nobody waits on runs on, settling releases the tags and does nothing else. -/
theorem Part.settle_unwaited {p : Part} (hr : p.run.partState = .running ∨ p.run.drainEnded = true)
    (hport : p.port.free = true) (h : ∀ f ∈ p.board.finishes, ¬ p.Waits f.seq ∧ p.Uncounted f) :
    p.settle = { p with board := { p.board with
      finishes := [], registry := p.board.registry.filter fun e => !(p.board.finishes.map (·.seq)).contains e.2 } } := by
  rw [Part.settle_eq_resolve hr, Part.resolve_unwaited hport h]

theorem Part.settle_running {p : Part} (hr : p.run.partState = .running) (hl : p.port.later = []) (h : p.board.finishes = []) : p.settle = p := by
  refine Part.settle_eq_self hl h ?_
  rw [hr]; simp

/-- R113: where no block waits for room and nothing is in hand, the sweep goes on within the step. -/
theorem Part.sweepOn_settle {q : Part} (hr : q.run.partState = .running) (hw : q.port.waiting = []) (hl : q.port.later = []) :
    q.sweepOn.settle = (q.sweepNext true).settle := by
  unfold Part.sweepOn
  split
  · rw [Part.settle_eq_resolve (Or.inl (by exact hr)), Part.settle_eq_resolve (Or.inl (by rw [(q.sweepNext_calm true).run]; exact hr))]
    rw [Part.resolve_later (p := { q with port := { q.port with later := q.port.later ++ [.sweepOn] } }) (w := .sweepOn) (rest := []) hw
      (congrArg (· ++ [Work.sweepOn]) hl)]
    have e : ({ q with port := { q.port with later := [] } } : Part) = q := by rw [← hl]
    have e2 : ({ q with port := { q.port with later := q.port.later ++ [.sweepOn] } } : Part).doNext .sweepOn [] = q.sweepNext true := by
      unfold Part.doNext Part.doWork
      simp only [e, List.append_nil]
    rw [e2]
  · rfl

/-- What a take leaves: the request gone to its block, then the sweep goes on. -/
theorem Part.takeStep_settled {p q : Part} {n : Nat} {slot : List Byte} (hq : (p.take n (slot.take 64)).settle = q)
    (hr : q.run.partState = .running) (hw : q.port.waiting = []) (hl : q.port.later = []) (hf : q.board.finishes = []) :
    ∃ (x : BoardController) (w : WindowPort), p.takeStep n slot = { q with board := x, port := w } ∧ q.port.fifo <+: w.fifo ∧
      x.held = q.board.held ∧ x.registry = q.board.registry ∧ x.finishes = [] ∧ x.nextSeq = q.board.nextSeq ∧
      x.completions = q.board.completions := by
  obtain ⟨x, w, h1, h2, h3, h4, h5, h6, h7⟩ := q.sweepNext_frame true
  refine ⟨x, w, ?_, h2, h3, h4, h5.trans hf, h6, h7⟩
  have ha : q.takeAfterDrain = q := by simp [Part.takeAfterDrain, hr]
  unfold Part.takeStep
  have hlater := (q.sweepNext_calm true).later
  rw [h1] at hlater
  rw [hq, ha, Part.sweepOn_settle hr hw hl, h1]
  refine Part.settle_running ?_ (hlater.trans hl) ?_
  · exact hr
  · exact h5.trans hf

/-- An accepted request that waits for nobody: it is handed over, and the answer of its block follows. -/
theorem Part.take_accepted {p : Part} {n : Nat} {r : List Byte} {k : ReqKind} (hv : p.validate r = none) (hk : Req.kind r = some k)
    (hp : p.holderOf (Req.afterTag r) = none) :
    p.take n r = ((p.accepted k n r).handOver k p.board.nextSeq n r none).answerTake p.board.nextSeq := by
  have hr := (Part.validate_none hv hk).1
  have hrec := Part.acceptRecord_noPred (n := n) hr hp
  unfold Part.take
  simp only [hv, hk]
  rw [Part.accept_eq]
  have e : (Part.acceptRecord k p.board.nextSeq n r { p with board := { p.board with nextSeq := p.board.nextSeq + 1 } }).pred = none := by
    rw [hrec]
  rw [e]
  simp only [Option.isSome_none, Bool.false_and, Bool.false_eq_true, if_false]
  rfl

/-- A request that completes within its take: everything its block has changed stands, the board is as before but for the take sequence, and behind
the accesses of the block stand the two writes of the completion. -/
theorem Part.takeStep_completes {p q : Part} {n : Nat} {slot : List Byte} {k : ReqKind} {res : Result}
    (hrun : p.run.partState = .running) (hfin : p.board.finishes = []) (hcom : p.board.completions = []) (hbelow : ∀ m : Nat, p.Names m → m < p.board.nextSeq)
    (hv : p.validate (slot.take 64) = none) (hk : Req.kind slot = some k) (hp : p.holderOf (Req.afterTag (slot.take 64)) = none)
    (hq : (p.accepted k n (slot.take 64)).handOver k p.board.nextSeq n (slot.take 64) none = q.completeRequest p.board.nextSeq res)
    (hqb : q.board = (p.accepted k n (slot.take 64)).board) (hqr : q.run = p.run) (hqs : q.te = p.te) (hlat : q.port.later = [])
    (hfit : q.port.Fits (completionWrites p.base n res (Req.afterTag (slot.take 64) != 0) p.run.clock (.done n))) :
    ∃ (x : BoardController) (w : WindowPort), p.takeStep n slot = { q with board := x, port := w } ∧
      x.held = p.board.held ∧ x.registry = p.board.registry ∧ x.finishes = [] ∧ x.nextSeq = p.board.nextSeq + 1 ∧
      x.completions = [{ slot := n, unmatched := Req.afterTag (slot.take 64) != 0, result := res, time := p.run.clock }] ∧
      q.port.fifo ++ completionWrites p.base n res (Req.afterTag (slot.take 64) != 0) p.run.clock (.done n) <+: w.fifo := by
  have hk' : Req.kind (slot.take 64) = some k := by rw [Req.kind_take]; exact hk
  have hr := (Part.validate_none hv hk').1
  obtain ⟨h, hb, hs, hslot, hreq, hdef⟩ := p.accepted_board k n (slot.take 64)
  have hun : h.unmatched = (Req.afterTag (slot.take 64) != 0) := by rw [hdef, Part.acceptRecord_noPred hr hp]
  have hpr : h.pred = none := by rw [hdef, Part.acceptRecord_noPred hr hp]
  obtain ⟨n1, n2, n3, n4⟩ := Part.Below.ne hbelow
  have hheld : q.board.held = p.board.held ++ [h] := by rw [hqb, hb]
  have hof : q.heldOf p.board.nextSeq = some h := Part.heldOf_append hheld n1 hs
  obtain ⟨c1, c2⟩ := Part.completeRequest_board res hof
  have cowner := q.completeRequest_owners p.board.nextSeq res
  have hbase : q.base = p.base := by unfold Part.base; rw [hqr]
  have hqc : q.board.completions = [] := by rw [hqb, hb]; exact hcom
  have cport := Part.completeRequest_fits (r := res) hof hqc (by rw [hbase, hslot, hun, hqr]; exact hfit)
  rw [hbase, hslot, hun, hqr] at cport
  have cfree : (q.completeRequest p.board.nextSeq res).port.free = true := by
    rw [cport, WindowPort.free_iff]; exact ⟨hfit.1, hlat⟩
  generalize hc : q.completeRequest p.board.nextSeq res = c at *
  have cheld : c.board.held = p.board.held := by
    rw [c1]
    show (q.board.held.filter fun x => x.seq != p.board.nextSeq) = p.board.held
    rw [hheld]; exact List.filter_ne_seq n1 hs
  have cfin : c.board.finishes = [⟨p.board.nextSeq, res.outcome.success, false⟩] := by
    rw [c1, hqb, hb]
    show p.board.finishes ++ [_] = _
    rw [hfin]; rfl
  have cnext : c.board.nextSeq = p.board.nextSeq + 1 := by rw [c1, hqb, hb]
  have creg : c.board.registry = p.board.registry ++ (if Req.tag (slot.take 64) = 0 then [] else [(Req.tag (slot.take 64), p.board.nextSeq)]) := by
    rw [c1, hqb, hb]
  have hwt : c.answerTake p.board.nextSeq = c := by
    refine Part.answerTake_completed ?_
    unfold Part.heldOf
    rw [cheld, List.find?_eq_none]
    intro x hx; simpa using n1 x hx
  have ccom : c.board.completions = [{ slot := n, unmatched := Req.afterTag (slot.take 64) != 0, result := res, time := p.run.clock }] := by
    rw [c1, hqb, hb]
    show p.board.completions ++ [_] = _
    rw [hcom, hslot, hun, hqr]; rfl
  have hwait : ∀ f ∈ c.board.finishes, ¬ c.Waits f.seq ∧ c.Uncounted f := by
    rw [cfin]
    intro f hf
    refine ⟨?_, Or.inl (by rw [List.mem_singleton.mp hf])⟩
    have hf' : f = ⟨p.board.nextSeq, res.outcome.success, false⟩ := by simpa using hf
    rw [hf']
    intro hw
    apply n3
    have hte : c.te = p.te := by rw [cowner.2.1, hqs]
    rcases hw with hw | hw | hw
    · rw [cheld] at hw; exact Or.inl hw
    · rw [hte] at hw; exact Or.inr (Or.inl hw)
    · rw [hte] at hw; exact Or.inr (Or.inr hw)
  have hcrun : c.run = p.run := by rw [cowner.1, hqr]
  have htake : (p.take n (slot.take 64)).settle = { c with board := { c.board with
      finishes := [], registry := c.board.registry.filter fun e => !(c.board.finishes.map (·.seq)).contains e.2 } } := by
    rw [Part.take_accepted hv hk' hp, hq, hwt]
    exact Part.settle_unwaited (Or.inl (by rw [hcrun]; exact hrun)) cfree hwait
  have hregf : (c.board.registry.filter fun e => !(c.board.finishes.map (·.seq)).contains e.2) = p.board.registry := by
    rw [creg, cfin, List.filter_append]
    have h1 : (p.board.registry.filter fun e => !([(⟨p.board.nextSeq, res.outcome.success, false⟩ : Finish)].map (·.seq)).contains e.2) = p.board.registry := by
      rw [List.filter_eq_self]
      intro e he
      have := n2 e he
      simpa using this
    rw [h1]
    split <;> simp
  obtain ⟨x, w, e1, e2, e3, e4, e5, e6, e7⟩ := Part.takeStep_settled (slot := slot) htake (by show c.run.partState = _; rw [hcrun]; exact hrun)
    (WindowPort.free_iff.mp cfree).1 (WindowPort.free_iff.mp cfree).2 rfl
  refine ⟨x, w, ?_, e3.trans cheld, e4.trans hregf, e5, e6.trans cnext, e7.trans ccom, ?_⟩
  · rw [e1]
    obtain ⟨o1, o2, o3, o4, o5, o6⟩ := cowner
    have e : ({ c with board := x, port := w } : Part) = { q with board := x, port := w } := by
      cases c; cases q
      simp only at o1 o2 o3 o4 o5 o6 c2
      subst o1 o2 o3 o4 o5 o6 c2
      rfl
    exact e
  · refine List.IsPrefix.trans ?_ e2
    show q.port.fifo ++ _ <+: c.port.fifo
    rw [cport]
    exact List.prefix_rfl

/-- An empty port has room for eight accesses. -/
theorem WindowPort.fits_empty {l : List Access} (h : l.length ≤ 8) : WindowPort.Fits {} l := by
  refine ⟨rfl, ?_, ?_⟩
  · have : (l.filter fun a => !a.isRead).length ≤ l.length := List.length_filter_le _ _
    have e : WindowPort.writesQueued {} = 0 := rfl
    rw [e]; show 0 + _ ≤ 32; omega
  · have : (l.filter Access.isRead).length ≤ l.length := List.length_filter_le _ _
    have e : WindowPort.readsQueued {} = 0 := rfl
    rw [e]; show 0 + _ ≤ 8; omega

theorem Part.bankBitRead_length (m : MapKind) (i : Nat) (p : Part) : (p.bankBitRead m i).length ≤ 1 := by
  unfold Part.bankBitRead; split <;> simp

theorem Part.unitAccesses_length (a : Nat) (new : Option FieldUnit) (f : Bool) (p : Part) : (p.unitAccesses a new f).length ≤ 4 := by
  have := p.bankBitRead_length .unit a
  unfold Part.unitAccesses
  rw [List.length_append]
  split <;> split <;> simp [mirrorWrites] <;> omega

theorem Part.entryAccesses_length (a : Nat) (new : Option Entry) (f : Bool) (p : Part) : (p.entryAccesses a new f).length ≤ 4 := by
  have h1 := p.bankBitRead_length .directory a
  have h2 : (if f = true then p.bankBitRead .directory a else []).length ≤ 1 := by
    split
    · exact h1
    · simp
  unfold Part.entryAccesses
  rw [List.length_append]
  have h3 : ∀ (c : Bool) (l : List Access), l.length ≤ 3 → (if c = true then l else []).length ≤ 3 := by
    intro c l hl
    split
    · exact hl
    · simp
  have h4 := h3 (dirBody (p.entrySlot a).shownKey (p.entryAt a) != dirBody (match new with
      | some e => e.key
      | none => (p.entrySlot a).shownKey) new) (mirrorWrites (dirMirrorAddr p.base a) (p.entrySlot a).version (dirBody (match new with
      | some e => e.key
      | none => (p.entrySlot a).shownKey) new)) (by simp [mirrorWrites])
  exact Nat.add_le_add h4 h2

/-- The take row of a request that completes within its take (`Part.takeStep_completes`), from the situation TakesSlot. -/
theorem State.takeRow_completes {s : State} {q : Part} {n : Nat} {slot : List Byte} {k : ReqKind} {res : Result} (hT : s.TakesSlot n slot k)
    (hA : s.Accepts slot) (hN : s.NoPredecessor (slot.take 64))
    (hq : (Part.accepted k n (slot.take 64) { s.part with port := {} }).handOver k s.part.board.nextSeq n (slot.take 64) none =
      q.completeRequest s.part.board.nextSeq res)
    (hqb : q.board = (Part.accepted k n (slot.take 64) { s.part with port := {} }).board) (hqr : q.run = s.part.run)
    (hqs : q.te = s.part.te) (hqp : q.port.free = true) (hql : q.port.fifo.length ≤ 6) :
    ∃ (x : BoardController) (w : WindowPort), s.takeRow (ofKind k) slot = { s with part := { q with board := x, port := w } } ∧
      s.CompletedTake { s with part := { q with board := x, port := w } } n slot res ∧
      q.port.fifo ++ s.completionOf n slot res <+: w.fifo := by
  have hT' := hT
  obtain ⟨h1, h2, h3, _, _, _, _, h8, h9⟩ := hT'
  obtain ⟨hw, hlat⟩ := WindowPort.free_iff.mp hqp
  have hfit : q.port.Fits (s.completionOf n slot res) := by
    refine ⟨hw, ?_, ?_⟩
    · have a1 : q.port.writesQueued ≤ q.port.fifo.length := List.length_filter_le _ _
      have a2 : ((s.completionOf n slot res).filter fun a => !a.isRead).length ≤ 2 := List.length_filter_le _ _
      show _ + _ ≤ 32
      exact Nat.le_trans (Nat.add_le_add a1 a2) (by omega)
    · have a1 : q.port.readsQueued ≤ q.port.fifo.length := List.length_filter_le _ _
      have a2 : ((s.completionOf n slot res).filter Access.isRead).length ≤ 2 := List.length_filter_le _ _
      show _ + _ ≤ 8
      exact Nat.le_trans (Nat.add_le_add a1 a2) (by omega)
  obtain ⟨x, w, e1, e2, e3, e4, e5, e7, e6⟩ := Part.takeStep_completes (p := { s.part with port := {} }) (slot := slot) (n := n) h1 h2 h9 h3 hA h8 hN hq hqb hqr hqs hlat hfit
  refine ⟨x, w, ?_, ⟨rfl, rfl, hqr, e2, e3, e4, e5, e7⟩, e6⟩
  rw [State.takeRow_eq hT (ofKind k) (by simp [ofKind, h8]), e1]

end Sys2Proof.Machine
end

