-- ==== Sys2Proof/WellFormed.lean ====
section
/-! DEFINITION. Which commands are well formed: every operand within the range the spec gives the row's event. The meanings themselves are
total; an ill-formed command is one no event of the hardware brings. -/

namespace Sys2Proof

/-- R24: the addresses of field units. -/
def unitAddress (u : Nat) : Bool := decide (1 ≤ u) && decide (u ≤ 30)

/-- R109, R188: a slot read at take is 128 bytes long and its kind byte is `kind`. -/
def slotOfKind (kind : Byte) (slot : List Byte) : Bool :=
  slot.length == 128 && slot.getD 0 0 == kind

/-- R60: what follows the header check byte: nothing, or 1 to 31 payload bytes and the two bytes of the payload check. -/
def frameRest (bytes : List Byte) : Bool :=
  bytes.length == 0 || (decide (3 ≤ bytes.length) && decide (bytes.length ≤ 33))

namespace Instr

/-- Every operand is one that the row's event can bring. -/
def wellFormed : Instr → Bool
  | .start | .stop | .halt _ | .reset _ | .winbase _ | .nudge _ | .svcpend _ | .svcen _ => true
  | .pinReset _ | .busError _ => true
  | .unknownCommand v => !decide (1 ≤ (v.setWidth 8).toNat ∧ (v.setWidth 8).toNat ≤ 4)
  | .registerWrite o _ => o == 0x00 || o == 0x08 || o == 0x1C || o == 0x20
  | .headerChecks b => b.length == 64
  | .restarted b | .sweep b => b.length == Config.slotCount
  | .entryIntoRunning | .sweepTimer => true
  | .enroll b => slotOfKind 1 b
  | .dismiss b => slotOfKind 2 b
  | .hold b => slotOfKind 3 b
  | .declare b => slotOfKind 4 b
  | .retire b => slotOfKind 5 b
  | .clear b => slotOfKind 6 b
  | .transact b => slotOfKind 7 b
  | .sync b => slotOfKind 8 b
  | .abort b => slotOfKind 9 b
  | .lend b => slotOfKind 10 b
  | .cut b => slotOfKind 11 b
  | .badKind b => b.length == 128 && !decide (1 ≤ (b.getD 0 0).toNat ∧ (b.getD 0 0).toNat ≤ 11)
  | .doneWritePerformed n => decide (n < Config.slotCount)
  | .turnChoice | .notIdle | .commitment | .headFrameSent => true
  | .pollDue u | .rollCallDue u => unitAddress u
  | .readback r => decide (1 ≤ r.1.length) && decide (r.1.length ≤ 39)
  | .replyWindowExpiry => true
  | .frameHeader b _ => decide (1 ≤ b.length) && decide (b.length ≤ 6)
  | .byteGap | .endFrame | .defer | .gapLimit | .frameBegins | .protocolErrorFrameEnd => true
  | .report b | .reply b | .result b => frameRest b
  | .refuse b => b.length == 3
  | .announce b => b.length == 5
  | .garbled b _ => b.length != 0 && frameRest b
  | .lineFaultEnd | .lineActivity => true
  | .settleTimerExpiry u => unitAddress u
  | .staleTimerExpiry n => decide (n < Config.entryCount)
  | .deadlineExpiry _ | .deferExpiry _ | .syncDeadline _ => true
  | .reservationExpiry u t => unitAddress u && decide (1 ≤ t) && decide (t ≤ 15)
  | .flushTimerExpiry | .drainTimer | .entryIntoStopped => true
  | .bankUpdate | .bankBitWritten | .faultRecordWritten | .queueRoom => true
  | .passedOver b => b != 1

end Instr

end Sys2Proof
end

