-- ==== Sys2Proof/Tests/Slice0.lean ====
section
/-! SUPPORT. Tests: the well-formedness checks, values the spec gives, and for every statement with hypotheses a state that meets them. -/

set_option Elab.async false

open Sys2Proof Sys2Proof.Machine

namespace Sys2Proof.Tests

/-! ## Small states -/

def params : UnitParams :=
  { pollInterval := 10, replyWindow := 5, retryLimit := 2, silenceLimit := 3, streakThreshold := 2, streakMode := .any, settleTime := 1
    holdMask := { changed := true, suspect := true, lost := true, line := true }, deferLimit := 4, burstLimit := 2 }

/-- A unit in ONLINE of generation 1 whose poll is due. -/
def online : FieldUnit :=
  { newUnit params false 0 with link := .online, generation := some 1, deferDepth := 2, rollDue := none, pollDue := some 4000 }

/-- A part in RUNNING with its window at address 0. -/
def running : Machine.Part :=
  { run := { partState := .running, window := some 0, clock := 5000, drainLimit := 2 }, board := { interval := 10, nextSeq := 10 }
    line := { rate := 2, discovery := 1 } }

def state (p : Machine.Part) : State := { pending := [], part := p, mem := [] }

def withUnit (a : Nat) (u : FieldUnit) (p : Machine.Part) : Machine.Part :=
  { p with um := { p.um with slots := p.um.slots.setIfInBounds a { place := some u } } }

def withEntry (n : Nat) (e : Entry) (p : Machine.Part) : Machine.Part :=
  { p with dir := { p.dir with slots := p.dir.slots.setIfInBounds n { shownKey := e.key, entry := some e } } }

/-- An entry that may be judged early, whose arrivals are journaled. -/
def entry (unit kind : Nat) : Entry :=
  { newEntry { unit := unit, kind := kind } .declared { maxInterval := 3, minInterval := 2, journal := true, change := .clear } (some 4000) with
    state := .fresh, content := some [1, 2], arrivals := 4, lastArrival := some 4000 }

/-- A transaction of unit 5 with origin slot 7. -/
def txn (seq : Nat) (st : TxnState) : Transaction :=
  { tag := 0x70, origin := some 7, unit := 5, command := 3, payload := [9], early := false, urgent := false, deadline := none, pred := none
    token := if st = .pending then none else some 4, retries := 0, sends := 0, state := st, abortRequested := false, everDeferred := false
    deferExpiry := if st = .deferred then some 4500 else none, seq := seq }

def held (seq slot : Nat) (owner : Block) (pred : Option Nat) (req : List Byte) : HeldRequest :=
  { slot := slot, req := padTo 64 req, takeTime := 100, seq := seq, owner := owner, pred := pred, unmatched := false, taken := true }

/-- A part with a transaction in flight under tag 70h. -/
def withTxn (x : Transaction) (p : Machine.Part) : Machine.Part :=
  { p with te := { p.te with pool := p.te.pool ++ [x] }
           board := { p.board with held := p.board.held ++ [held x.seq 7 .transactionEngine none [7]]
                                   registry := p.board.registry ++ [(x.tag, x.seq)] } }

def page (seq : Nat) : Page := { seq := seq, addr := 0x10000, size := 4, flushAge := 5, withdrawn := false }

def opened (count used : Nat) : OpenPage :=
  { pageSeq := 1, count := count, used := used, firstTime := some 10, lastTime := some 20, gap := some 0, flushTimer := some 100 }

/-- A part with the pages of two LENDs, the first open. -/
def withPages (o : OpenPage) (p : Machine.Part) : Machine.Part :=
  { p with jw := { p.jw with pages := [page 2, page 3], opened := some o, nextPage := 2 }
           board := { p.board with held := p.board.held ++ [held 2 20 .journalWriter none [10], held 3 21 .journalWriter none [10]] } }

/-- The slot 3 is being taken, the last of its sweep. -/
def taking (p : Machine.Part) : State :=
  state { p with board := { p.board with sweep := .taking [3] none }, port := { fifo := [slotRead p.base 3] } }

/-- A slot as read at take: the given first bytes, zeros, POSTED. -/
def slotOf (bytes : List Byte) : List Byte := padTo 127 bytes ++ [1]

/-- Kind, tag 11h, `after`, unit, code, deadline, payload length, then the parameter block. -/
def request (kind : Byte) (flags after unit code : Byte) (more : List Byte) : List Byte :=
  slotOf ([kind, flags, 0x11, 0, after, 0, unit, code] ++ more)

def enrollSlot : List Byte := request 1 0 0 5 0 [0, 0, 0, 0, 20, 5, 2, 3, 2, 0, 1, 15, 4, 2]
def dismissSlot : List Byte := request 2 0 0 5 0 []
def holdSlot (a : Byte) : List Byte := request 3 0 0 5 0 [0, 0, 0, 0, a]
def declareSlot (kind : Byte) : List Byte := request 4 0 0 5 kind [0, 0, 0, 0, 7, 0, 2, 0, 1, 1, 1, 1, 1]
def retireSlot : List Byte := request 5 0 0 5 6 []
def clearSlot (unit options : Byte) : List Byte := request 6 0 0 unit 0xFF [0, 0, 0, 0, options]
def transactSlot (flags after : Byte) : List Byte := request 7 flags after 5 3 ([9, 0, 1] ++ List.replicate 21 0 ++ [0xAB])
def syncSlot (after : Byte) : List Byte := request 8 0 after 0xFF 0 []
def abortSlot (target : Byte) : List Byte := request 9 0 0 0 0 [0, 0, 0, 0, target, 0]
def lendSlot : List Byte := request 10 0 0 0 0 [0, 0, 0, 0, 0, 0, 2, 0, 0, 4, 5, 0]
def cutSlot : List Byte := request 11 0 0 0 0 []

/-! ## Checks for the premises that speak of every take sequence -/

def namesBelow (p : Machine.Part) : Bool :=
  let m := p.board.nextSeq
  let below (o : Option Nat) : Bool := o.all fun n => decide (n < m)
  (p.board.held.all fun h => decide (h.seq < m) && below h.pred) && (p.board.registry.all fun e => decide (e.2 < m)) &&
  (p.board.finishes.all fun f => decide (f.seq < m)) && (p.te.pool.all fun t => decide (t.seq < m) && below t.pred) &&
  (p.te.syncs.all fun y => decide (y.seq < m) && below y.pred && y.waitingFor.all fun n => decide (n < m)) &&
  (p.te.aborts.all fun w => decide (w.seq < m) && decide (w.target < m))

theorem sequencesBelow {s : State} (h : namesBelow s.part = true) : s.SequencesBelow := by
  unfold namesBelow at h
  simp only [Bool.and_eq_true, List.all_eq_true, decide_eq_true_eq] at h
  obtain ⟨⟨⟨⟨⟨h1, h2⟩, h3⟩, h4⟩, h5⟩, h6⟩ := h
  rintro n (inHeld | inRegistry | inFinishes | inPool | inSyncs | inAborts)
  · obtain ⟨r, hr, rfl | e⟩ := inHeld
    · exact (h1 r hr).1
    · simpa [e] using (h1 r hr).2
  · obtain ⟨r, hr, rfl⟩ := inRegistry
    exact h2 r hr
  · obtain ⟨f, hf, rfl⟩ := inFinishes
    exact h3 f hf
  · obtain ⟨t, ht, rfl | e⟩ := inPool
    · exact (h4 t ht).1
    · simpa [e] using (h4 t ht).2
  · obtain ⟨y, hy, rfl | e | e⟩ := inSyncs
    · exact (h5 y hy).1.1
    · simpa [e] using (h5 y hy).1.2
    · exact (h5 y hy).2 n e
  · obtain ⟨w, hw, rfl | rfl⟩ := inAborts
    · exact (h6 w hw).1
    · exact (h6 w hw).2

def noPred (p : Machine.Part) : Bool :=
  (p.board.held.all fun h => h.owner != .boardController || h.pred.isNone) && (p.te.pool.all fun t => t.pred.isNone) &&
  p.te.syncs.all fun y => y.pred.isNone

theorem noneWaits {s : State} (h : noPred s.part = true) : s.NoneWaits := by
  unfold noPred at h
  simp only [Bool.and_eq_true, List.all_eq_true] at h
  intro n hn
  rcases hn with ⟨x, hx, o, e⟩ | ⟨x, hx, e⟩ | ⟨x, hx, e⟩
  · have := h.1.1 x hx; rw [o, e] at this; exact absurd this (by simp)
  · have := h.1.2 x hx; rw [e] at this; exact absurd this (by simp)
  · have := h.2 x hx; rw [e] at this; exact absurd this (by simp)

/-- The state takes slot 3, the last of its sweep. -/
def takesThree (s : State) (slot : List Byte) (k : ReqKind) : Bool :=
  decide (s.part.run.partState = .running) && decide (s.part.board.finishes = []) && namesBelow s.part &&
  decide (s.part.port = { fifo := [slotRead s.part.base 3] }) && decide (s.part.board.sweep = .taking [3] none) && decide (slot.length = 128) &&
  decide (byteAt slot 0x7F = statePosted) && decide (Req.kind slot = some k) && decide (s.part.board.completions = [])

theorem takesSlot {s : State} {slot : List Byte} {k : ReqKind} (h : takesThree s slot k = true) : s.TakesSlot 3 slot k := by
  unfold takesThree at h
  simp only [Bool.and_eq_true, decide_eq_true_eq] at h
  obtain ⟨⟨⟨⟨⟨⟨⟨⟨h1, h2⟩, h3⟩, h4⟩, h5⟩, h6⟩, h7⟩, h8⟩, h9⟩ := h
  exact ⟨h1, h2, sequencesBelow h3, h4, ⟨[], none, h5⟩, h6, h7, h8, h9⟩

/-! ## Premises of the take statements -/

def TakeSituation (s : State) (slot : List Byte) (k : ReqKind) : Prop :=
  s.TakesSlot 3 slot k ∧ s.Accepts slot ∧ s.NoPredecessor (slot.take 64)

theorem situation {s : State} {slot : List Byte} {k : ReqKind}
    (h : (takesThree s slot k && decide (s.part.validate (slot.take 64) = none) && decide (s.part.holderOf (Req.afterTag (slot.take 64)) = none)) = true) :
    TakeSituation s slot k := by
  simp only [Bool.and_eq_true, decide_eq_true_eq] at h
  exact ⟨takesSlot h.1.1, h.1.2, h.2⟩

theorem witness_EnrollFillsAnEmptyPlace : TakeSituation (taking running) enrollSlot .enroll ∧ (taking running).part.unitAt 5 = none :=
  ⟨situation (by decide +kernel), by decide +kernel⟩

def polled : FieldUnit := { online with lastPoll := some 4900 }

theorem witness_EnrollReplacesTheParameters :
    TakeSituation (taking (withUnit 5 polled running)) enrollSlot .enroll ∧ (taking (withUnit 5 polled running)).part.unitAt 5 = some polled ∧
    (Req.unitParams (enrollSlot.take 64)).pollInterval ≠ polled.params.pollInterval ∧ TakeSituation (taking (withUnit 5 online running)) enrollSlot .enroll ∧
    online.lastPoll = none :=
  ⟨situation (by decide +kernel), by decide +kernel, by decide +kernel, situation (by decide +kernel), by decide +kernel⟩

theorem witness_HoldSetsOrReleasesForced :
    TakeSituation (taking (withUnit 5 online running)) (holdSlot 1) .hold ∧ TakeSituation (taking (withUnit 5 online running)) (holdSlot 2) .hold :=
  ⟨situation (by decide +kernel), situation (by decide +kernel)⟩

def withEntries : Machine.Part := withEntry 0 (entry 5 6) (withEntry 191 (entry 8 63) (withUnit 5 online running))

theorem witness_DeclareCreatesOrUpdatesTheEntry :
    TakeSituation (taking withEntries) (declareSlot 7) .declare ∧ (taking withEntries).part.findEntry { unit := 5, kind := 7 } = none ∧
    TakeSituation (taking withEntries) (declareSlot 6) .declare ∧ (taking withEntries).part.findEntry { unit := 5, kind := 6 } = some 0 ∧
    (taking withEntries).part.entryAt 0 = some (entry 5 6) :=
  ⟨situation (by decide +kernel), by decide +kernel, situation (by decide +kernel), by decide +kernel⟩

theorem witness_RetireVacatesTheEntry : TakeSituation (taking withEntries) retireSlot .retire := situation (by decide +kernel)

/-- So many entries of unit 5, every second one notifying. -/
def manyEntries (n : Nat) : Machine.Part :=
  (List.range n).foldl (fun p i => withEntry i { entry 5 i with policies := { notify := if i % 2 = 0 then .all else .never } } p)
    (withUnit 5 online running)

theorem witness_ClearChangesTheSelectedEntries :
    TakeSituation (taking withEntries) (clearSlot 5 0) .clear ∧ TakeSituation (taking withEntries) (clearSlot 0xFF 3) .clear ∧
    (taking withEntries).part.entryAt 191 = some (entry 8 63) ∧ (taking withEntries).part.entryAt 1 = none ∧
    TakeSituation (taking (manyEntries 10)) (clearSlot 0xFF 1) .clear ∧
    ((manyEntries 10).entriesWhere (clearSelects ((clearSlot 0xFF 1).take 64))).length = 10 ∧
    TakeSituation (taking (manyEntries 11)) (clearSlot 0xFF 1) .clear ∧
    ((manyEntries 11).entriesWhere (clearSelects ((clearSlot 0xFF 1).take 64))).length = 11 :=
  ⟨situation (by decide +kernel), situation (by decide +kernel), by decide +kernel, by decide +kernel, situation (by decide +kernel),
   by decide +kernel, situation (by decide +kernel), by decide +kernel⟩

/-- The state after a command. -/
def after (c : Instr) (s : State) : State :=
  match exec c s with
  | .next t => t
  | .fault _ | .refused _ => s

/-- R174, R117: of 11 cleared entries the last mirror rewrite waits for room, and the result of the CLEAR waits behind it; the record is not held, and the sweep
waits behind the take. -/
theorem test_clearCompletesBehindItsMirrors :
    (after (.clear (clearSlot 0xFF 1)) (taking (manyEntries 10))).part.board.completions.length = 1 ∧
    (after (.clear (clearSlot 0xFF 1)) (taking (manyEntries 11))).part.board.completions = [] ∧
    (after (.clear (clearSlot 0xFF 1)) (taking (manyEntries 11))).part.port.waits .directoryEngine = true ∧
    (after (.clear (clearSlot 0xFF 1)) (taking (manyEntries 11))).part.board.held.map (·.taken) = [false] ∧
    (after (.clear (clearSlot 0xFF 1)) (taking (manyEntries 11))).part.port.later = [.sweepOn] ∧
    (after (.clear (clearSlot 0xFF 1)) (taking (manyEntries 11))).part.board.sweep = .taking [3] none := by decide +kernel

/-- R117: once there is room the slot goes from POSTED to DONE, no TAKEN write between, and the sweep ends behind it. -/
theorem test_clearIsNeverWrittenTaken :
    (after .queueRoom (after (.clear (clearSlot 0xFF 1)) (taking (manyEntries 11)))).part.port.outstanding.all
      (fun | .write _ bytes _ => bytes != [stateTaken] | .read .. => true) = true ∧
    ((after .queueRoom)^[6] (after (.clear (clearSlot 0xFF 1)) (taking (manyEntries 11)))).part.board.completions.length = 1 ∧
    ((after .queueRoom)^[6] (after (.clear (clearSlot 0xFF 1)) (taking (manyEntries 11)))).part.board.sweep = .noSweep := by decide +kernel

def unitOnly : Machine.Part := withUnit 5 polled running

/-- Unit 5 with a PENDING and a DEFERRED transaction, unit 6 with a PENDING one, a DEPARTING unit 8, two entries. -/
def busy : Machine.Part :=
  withTxn (txn 4 .pending) (withTxn { txn 5 .deferred with tag := 0x71, token := some 6 }
    (withTxn { txn 6 .pending with unit := 6, tag := 0x72 }
      (withEntry 0 (entry 5 6) (withEntry 191 (entry 8 63) (withUnit 8 { online with link := .departing } unitOnly)))))

/-- The same with unit 5's DEFERRED transaction reported ACCEPTED. -/
def busyEarly : Machine.Part :=
  withTxn (txn 4 .pending) (withTxn { txn 5 .deferred with tag := 0x71, token := some 6, origin := none, early := true } unitOnly)

def turn (u : Nat) (k : TurnKind) (ph : TurnPhase) : Turn :=
  { unit := u, kind := k, start := 4990, replyWindow := 5, burstLimit := 2, streakMode := .any, frame := headFrame u k.frameCode 4 0 []
    phase := ph, frames := 1, errors := 0, protocolLogged := false, resultHanded := false, answer := .noFrame }

def withTurn (x : Turn) (p : Machine.Part) : Machine.Part := { p with line := { p.line with turn := some x } }

theorem witness_RequestsAreHeldForTheirPredecessor :
    (taking (withTxn (txn 4 .pending) unitOnly)).TakesSlot 3 (request 3 0 0x70 5 0 [0, 0, 0, 0, 1]) .hold ∧
    (taking (withTxn (txn 4 .pending) unitOnly)).Accepts (request 3 0 0x70 5 0 [0, 0, 0, 0, 1]) ∧
    (taking (withTxn (txn 4 .pending) unitOnly)).part.holderOf 0x70 = some 4 :=
  ⟨takesSlot (by decide +kernel), by decide +kernel⟩

/-- The DISMISS of unit 5, of take sequence 6 and tag 70h, waits for the end of the turn in progress. -/
def leaving : Machine.Part :=
  let p := withTurn (turn 5 .poll (.gap 4990)) (withUnit 5 { polled with link := .departing } running)
  { p with um := { p.um with dismissWait := some { seq := 6, unit := 5, retired := 0, ended := 0 } }
           board := { p.board with held := [held 6 12 .unitManager none (dismissSlot.take 64)], registry := [(0x70, 6)] } }

/-- An ENROLL of unit 5 that names the tag 70h in `after`. -/
def enrollAfterSlot : List Byte := request 1 0 0x70 5 0 [0, 0, 0, 0, 20, 5, 2, 3, 2, 0, 1, 15, 4, 2]

/-- The DISMISS of unit 5, of take sequence 6 and tag 70h, is held for the transaction 4; the unit is not DEPARTING yet. -/
def dismissHeld : Machine.Part :=
  let p := withTxn { txn 4 .pending with tag := 0x71 } unitOnly
  { p with board := { p.board with held := p.board.held ++ [held 6 12 .boardController (some 4) (dismissSlot.take 64)]
                                   registry := p.board.registry ++ [(0x70, 6)] } }

theorem witness_EnrollIsHeldForItsDismiss :
    (taking dismissHeld).TakesSlot 3 enrollAfterSlot .enroll ∧ (taking dismissHeld).Accepts enrollAfterSlot ∧
    (taking dismissHeld).part.holderOf (Req.afterTag (enrollAfterSlot.take 64)) = some 6 ∧
    (taking leaving).TakesSlot 3 enrollAfterSlot .enroll ∧ Req.inRange (taking leaving).part.base .enroll (enrollAfterSlot.take 64) = true ∧
    (taking leaving).part.holderOf (Req.tag (enrollAfterSlot.take 64)) = none ∧
    (taking leaving).part.holderOf (Req.afterTag (enrollAfterSlot.take 64)) = some 6 ∧
    (taking leaving).part.heldOf 6 = some (held 6 12 .unitManager none (dismissSlot.take 64)) ∧
    Req.kind (held 6 12 .unitManager none (dismissSlot.take 64)).req = some .dismiss ∧
    Req.unit (held 6 12 .unitManager none (dismissSlot.take 64)).req = Req.unit (enrollAfterSlot.take 64) :=
  ⟨takesSlot (by decide +kernel), by decide +kernel, by decide +kernel, takesSlot (by decide +kernel), by decide +kernel⟩

/-- The DISMISS 6 has completed, OK or not, and the ENROLL 7 of the unit waited for it. -/
def dismissed (ok : Bool) : Machine.Part :=
  { running with board := { running.board with held := [held 7 3 .boardController (some 6) (enrollAfterSlot.take 64)]
                                               finishes := [{ seq := 6, success := ok, transaction := false }] } }

/-- R132: an ENROLL that names the DISMISS of its unit in flight is held, also of a DEPARTING unit; it creates the unit once the DISMISS has completed OK, and is
SKIPPED where that was ABORTED. An ENROLL of a DEPARTING unit that does not name it is refused. -/
theorem test_enrollNamesTheDismissOfItsUnit :
    (after (.enroll enrollAfterSlot) (taking dismissHeld)).part.board.held.map (·.owner) = [.transactionEngine, .boardController, .boardController] ∧
    (after (.enroll enrollAfterSlot) (taking leaving)).part.board.held.map (·.owner) = [.unitManager, .boardController] ∧
    ((dismissed true).settle.unitAt 5).map (·.link) = some .seeking ∧
    (dismissed true).settle.board.completions.map (fun c => (c.slot, c.result.outcome)) = [(3, .ok)] ∧
    (dismissed false).settle.board.completions.map (fun c => (c.slot, c.result.outcome)) = [(3, .skipped)] ∧
    (after (.enroll enrollSlot) (taking leaving)).part.board.completions.map (·.result.outcome) = [.noUnit] := by decide +kernel

theorem witness_DismissRemovesTheUnitOrWaits :
    TakeSituation (taking busy) dismissSlot .dismiss ∧ (taking busy).NoneWaits ∧
    TakeSituation (taking (withTurn (turn 5 .poll .header) busy)) dismissSlot .dismiss ∧ (taking (withTurn (turn 5 .poll .header) busy)).NoneWaits ∧
    (taking busy).Distinct ∧ TakeSituation (taking busyEarly) dismissSlot .dismiss ∧ (taking busyEarly).Distinct ∧
    ((taking busy).part.entriesWhere fun e => e.key.unit == 5).length = 1 ∧
    ((taking busy).part.te.pool.filter fun x => x.unit == 5 && x.state != .sending).length = 2 ∧
    TakeSituation (taking (manyEntries 9)) dismissSlot .dismiss ∧ (taking (manyEntries 9)).NoneWaits ∧ (taking (manyEntries 9)).Distinct ∧
    ((manyEntries 9).entriesWhere fun e => e.key.unit == 5).length = 9 :=
  ⟨situation (by decide +kernel), noneWaits (by decide +kernel), situation (by decide +kernel), noneWaits (by decide +kernel), by decide +kernel,
   situation (by decide +kernel), by decide +kernel, by decide +kernel, by decide +kernel, situation (by decide +kernel),
   noneWaits (by decide +kernel), by decide +kernel⟩

theorem witness_TransactCreatesATransaction :
    (taking busy).TakesSlot 3 (transactSlot 1 0x70) .transact ∧ (taking busy).Accepts (transactSlot 1 0x70) ∧
    TakeSituation (taking busy) (transactSlot 2 0) .transact :=
  ⟨takesSlot (by decide +kernel), by decide +kernel, situation (by decide +kernel)⟩

theorem witness_SyncCapturesItsTransactions :
    (taking busy).TakesSlot 3 (syncSlot 0x70) .sync ∧ (taking busy).Accepts (syncSlot 0x70) ∧
    TakeSituation (taking unitOnly) (syncSlot 0) .sync ∧ unitOnly.te.pool = [] :=
  ⟨takesSlot (by decide +kernel), by decide +kernel, situation (by decide +kernel), rfl⟩

/-- A part in which the tag 70h is that of the in-flight request `n`, held for `owner`, whose request part begins with the kind byte. -/
def tagged (n : Nat) (owner : Block) (pred : Option Nat) (kind : Byte) (p : Machine.Part) : Machine.Part :=
  { p with board := { p.board with held := p.board.held ++ [held n 12 owner pred [kind]], registry := [(0x70, n)] } }

theorem notWaited {p : Machine.Part} {n : Nat}
    (h : ((p.board.held.all fun h => h.owner != .boardController || h.pred != some n) && (p.te.pool.all fun t => t.pred != some n) && p.te.syncs.all fun y => y.pred != some n) = true) :
    ¬ p.Waits n := by
  simp only [Bool.and_eq_true, List.all_eq_true] at h
  intro hn
  rcases hn with ⟨x, hx, o, e⟩ | ⟨x, hx, e⟩ | ⟨x, hx, e⟩
  · have := h.1.1 x hx; rw [o, e] at this; simp at this
  · have := h.1.2 x hx; rw [e] at this; simp at this
  · have := h.2 x hx; rw [e] at this; simp at this

theorem witness_AbortFindsNothingOrWaits :
    TakeSituation (taking unitOnly) (abortSlot 0) .abort ∧ TakeSituation (taking unitOnly) (abortSlot 0x70) .abort ∧
    TakeSituation (taking (withTxn (txn 4 .sending) unitOnly)) (abortSlot 0x70) .abort ∧
    (taking (withTxn (txn 4 .sending) unitOnly)).part.findTxn 4 = some (txn 4 .sending) ∧
    TakeSituation (taking (tagged 6 .transactionEngine none 9 unitOnly)) (abortSlot 0x70) .abort ∧
    (taking (tagged 6 .transactionEngine none 9 unitOnly)).part.heldOf 6 = some (held 6 12 .transactionEngine none [9]) ∧
    Req.kind (held 6 12 .transactionEngine none [9]).req = some .abort :=
  ⟨situation (by decide +kernel), situation (by decide +kernel), situation (by decide +kernel), by decide +kernel, situation (by decide +kernel),
   by decide +kernel⟩

theorem witness_AbortOfItsOwnTag :
    TakeSituation (taking unitOnly) (abortSlot 0x11) .abort ∧ Req.targetTag ((abortSlot 0x11).take 64) = Req.tag ((abortSlot 0x11).take 64) ∧
    Req.targetTag ((abortSlot 0x11).take 64) ≠ 0 := ⟨situation (by decide +kernel), by decide +kernel⟩

theorem witness_AbortEndsAWaitingTransaction :
    TakeSituation (taking busy) (abortSlot 0x70) .abort ∧ TakeSituation (taking busy) (abortSlot 0x71) .abort ∧ ¬ (taking busy).part.Waits 4 ∧
    ¬ (taking busy).part.Waits 5 ∧ (taking busy).part.holderOf 0x71 = some 5 ∧ ((taking busy).part.findTxn 4).map (·.state) = some .pending ∧
    ((taking busy).part.findTxn 5).map (·.state) = some .deferred :=
  ⟨situation (by decide +kernel), situation (by decide +kernel), notWaited (by decide +kernel), notWaited (by decide +kernel), by decide +kernel⟩

def waitingSync : SyncRecord := { seq := 6, deadline := none, pred := none, captured := 2, finished := 1, failed := 0, waitingFor := [5] }

/-- The SYNC of take sequence 6 waits. -/
def syncing (p : Machine.Part) : Machine.Part := { p with te := { p.te with syncs := [waitingSync] } }

/-- The SYNC has captured the DEFERRED transaction 5. -/
theorem witness_AbortIsCounted :
    TakeSituation (taking (syncing busy)) (abortSlot 0x71) .abort ∧ (taking (syncing busy)).part.holderOf 0x71 = some 5 ∧
    (taking (syncing busy)).NoneWaits ∧ ¬ (taking (syncing busy)).part.Waits 5 ∧ 5 ∈ waitingSync.waitingFor :=
  ⟨situation (by decide +kernel), by decide +kernel, noneWaits (by decide +kernel), notWaited (by decide +kernel), by decide⟩

theorem witness_AbortEndsASyncOrAHeldRequest :
    TakeSituation (taking (tagged 6 .transactionEngine none 8 (syncing unitOnly))) (abortSlot 0x70) .abort ∧
    ¬ (taking (tagged 6 .transactionEngine none 8 (syncing unitOnly))).part.Waits 6 ∧
    TakeSituation (taking (tagged 6 .boardController (some 4) 3 (withTxn (txn 4 .pending) unitOnly))) (abortSlot 0x70) .abort ∧
    ¬ (taking (tagged 6 .boardController (some 4) 3 (withTxn (txn 4 .pending) unitOnly))).part.Waits 6 :=
  ⟨situation (by decide +kernel), notWaited (by decide +kernel), situation (by decide +kernel), notWaited (by decide +kernel)⟩

/-- The DISMISS of take sequence 6 waits for the end of a turn. -/
def dismissing : Machine.Part :=
  tagged 6 .unitManager none 2 { unitOnly with um := { unitOnly.um with dismissWait := some { seq := 6, unit := 5, retired := 1, ended := 2 } } }

def lending : Machine.Part := withPages (opened 2 100) busy

/-- Two lent pages, the tag 70h on the one of take sequence `n`. -/
def tagOfPage (n : Nat) : Machine.Part :=
  let p := withPages (opened 2 100) unitOnly
  { p with board := { p.board with registry := [(0x70, n)] } }

theorem witness_AbortEndsADismissOrALend :
    TakeSituation (taking dismissing) (abortSlot 0x70) .abort ∧ ¬ (taking dismissing).part.Waits 6 ∧
    TakeSituation (taking (tagOfPage 2)) (abortSlot 0x70) .abort ∧ (taking (tagOfPage 2)).NoneWaits ∧ (taking (tagOfPage 2)).Distinct ∧
    TakeSituation (taking (tagOfPage 3)) (abortSlot 0x70) .abort ∧ (taking (tagOfPage 3)).Distinct ∧
    (taking (tagOfPage 3)).part.heldOf 3 = some (held 3 21 .journalWriter none [10]) :=
  ⟨situation (by decide +kernel), notWaited (by decide +kernel), situation (by decide +kernel), noneWaits (by decide +kernel), by decide +kernel,
   situation (by decide +kernel), by decide +kernel⟩

theorem witness_LendAppendsThePage :
    TakeSituation (taking busy) lendSlot .lend ∧ TakeSituation (taking lending) lendSlot .lend :=
  ⟨situation (by decide +kernel), situation (by decide +kernel)⟩

/-- After the end of the drain the ABORT of take sequence 4 has succeeded, and the LEND of take sequence 6 waited for it. -/
def lateLend : Machine.Part :=
  { unitOnly with run := { unitOnly.run with partState := .draining, drainEnded := true }, jw := { drained := true }
                  board := { unitOnly.board with held := [held 6 12 .boardController (some 4) [10]]
                                                 finishes := [{ seq := 4, success := true, transaction := false }] } }

theorem witness_LendAfterTheDrain :
    lateLend.waitersOf 4 = [6] ∧ lateLend.heldOf 6 = some (held 6 12 .boardController (some 4) [10]) ∧
    Req.kind (held 6 12 .boardController (some 4) [10]).req = some .lend ∧ lateLend.findTxn 6 = none ∧ lateLend.port = {} ∧
    (∀ k : Nat, k ≠ 4 → lateLend.waitersOf k = []) := by
  refine ⟨by decide +kernel, by decide +kernel, by decide +kernel, by decide +kernel, rfl, fun k hk => ?_⟩
  have h : ((some 4 : Option Nat) == some k) = false := by simpa using fun e : 4 = k => hk e.symm
  unfold Machine.Part.waitersOf lateLend unitOnly withUnit running
  simp [held, h]

/-- Three lent pages, of which the second is withdrawn. -/
def withdrawing : Machine.Part :=
  let p := withPages (opened 2 100) busy
  { p with jw := { p.jw with pages := [page 2, { page 3 with withdrawn := true }, page 1] } }

theorem witness_CutCompletesTheOpenPage :
    TakeSituation (taking busy) cutSlot .cut ∧ TakeSituation (taking (withPages (opened 0 32) busy)) cutSlot .cut ∧
    TakeSituation (taking lending) cutSlot .cut ∧ (taking lending).NoneWaits ∧ (taking lending).Distinct ∧
    TakeSituation (taking withdrawing) cutSlot .cut ∧ (taking withdrawing).NoneWaits ∧ (taking withdrawing).Distinct :=
  ⟨situation (by decide +kernel), situation (by decide +kernel), situation (by decide +kernel), noneWaits (by decide +kernel), by decide +kernel,
   situation (by decide +kernel), noneWaits (by decide +kernel), by decide +kernel⟩

/-! ## Premises of the sweep statements -/

/-- A slot has been read in a sweep with `rest` still to come. -/
def sweeping (rest : List Nat) : State :=
  state { unitOnly with board := { unitOnly.board with sweep := .taking (3 :: rest) (some 2) }, port := { fifo := [slotRead 0 3] } }

def states : List Byte := (List.range 64).map fun i => if i = 3 ∨ i = 60 then 1 else 2

def readingStates : State :=
  state { unitOnly with board := { unitOnly.board with sweep := .reading, origin := 4 }, port := { fifo := [stateBytesRead .sweepStates 0] } }

theorem witness_SweepFixesTheSetOfSlots :
    readingStates.part.run.partState = .running ∧ readingStates.part.board.sweep = .reading ∧ readingStates.part.board.finishes = [] ∧
    readingStates.OnlyAccess (.read .sweepStates (stateByteAddr 0 0) 64) ∧
    (((List.range 64).map fun i => (4 + i) % 64).filter fun n => states.getD n 0 == 1) = [60, 3] := by decide +kernel

theorem witness_SweepGoesOnAfterEachSlot :
    (sweeping []).SlotAnswered 3 [] (some 2) ∧ (sweeping [4]).SlotAnswered 3 [4] (some 2) ∧ holdSlot 1 = slotOf (holdSlot 1) ∧
    (holdSlot 1).length = 128 ∧ byteAt (holdSlot 1) 0x7F = statePosted :=
  ⟨⟨by decide +kernel, by decide +kernel, sequencesBelow (by decide +kernel), by decide +kernel, by decide +kernel, rfl⟩,
   ⟨by decide +kernel, by decide +kernel, sequencesBelow (by decide +kernel), by decide +kernel, by decide +kernel, rfl⟩,
   by decide +kernel⟩

/-- The take that a STOP found in the making, after the end of the drain. -/
def lastTake : State :=
  let p := (sweeping []).part
  state { p with run := { p.run with partState := .draining, drainEnded := true }, jw := { drained := true } }

theorem witness_SweepEndsWithTheLastTake :
    lastTake.LastSlotAnswered 3 (some 2) ∧ lastTake.Accepts lendSlot ∧ lastTake.NoPredecessor (lendSlot.take 64) ∧ Req.kind lendSlot = some .lend :=
  ⟨⟨by decide +kernel, by decide +kernel, sequencesBelow (by decide +kernel), by decide +kernel, by decide +kernel, rfl⟩, by decide +kernel⟩

/-- The same before the end of the drain, which waits for the transaction 4 alone. -/
def lastEntry : State :=
  let p := withTxn (txn 4 .pending) (sweeping []).part
  state { p with run := { p.run with partState := .draining, drainTimer := some 9000 } }

theorem witness_AbortEndsTheLastEntry :
    lastEntry.LastSlotAnswered 3 (some 2) ∧ lastEntry.Accepts (abortSlot 0x70) ∧ lastEntry.NoPredecessor ((abortSlot 0x70).take 64) ∧
    Req.kind (abortSlot 0x70) = some .abort ∧ ¬ lastEntry.part.Waits 4 ∧ lastEntry.part.holderOf (Req.targetTag ((abortSlot 0x70).take 64)) = some 4 ∧
    lastEntry.part.te = { pool := [txn 4 .pending] } ∧ lastEntry.part.um.dismissWait = none :=
  ⟨⟨by decide +kernel, by decide +kernel, sequencesBelow (by decide +kernel), by decide +kernel, by decide +kernel, rfl⟩, by decide +kernel,
   by decide +kernel, by decide +kernel, notWaited (by decide +kernel), by decide +kernel⟩

/-- R172, R102: the ABORT ends the last entry and with it the drain; the target completes before the ABORT (A52). -/
theorem test_abortOfTheLastEntryEndsTheDrain :
    (after (.abort (abortSlot 0x70)) lastEntry).part.run.drainEnded = true ∧ (after (.abort (abortSlot 0x70)) lastEntry).part.te.pool = [] ∧
    (after (.abort (abortSlot 0x70)) lastEntry).part.board.completions.map (fun c => (c.slot, c.result.outcome)) = [(7, .aborted), (3, .ok)] := by
  decide +kernel

/-- A pool of `n` transactions, `m` of them for unit 5. -/
def poolOf (n m : Nat) : Machine.Part :=
  { unitOnly with te := { pool := (List.range n).map fun i => if i < m then txn i .pending else { txn i .pending with unit := 6 } } }

/-- R115: a request that is accepted, and one of each kind whose check 4 or check 6 is judged. -/
theorem witness_AcceptedRequestsPassEveryCheck :
    (taking unitOnly).Accepts enrollSlot ∧ unitOnly.check4 .hold (holdSlot 1) = none ∧ unitOnly.check4 .enroll (request 1 0 0 6 0 []) = none ∧
    leaving.check4 .enroll enrollSlot = some .noUnit ∧ unitOnly.check6 .declare (declareSlot 7) = none ∧
    ((List.range 192).foldl (fun p n => withEntry n (entry 8 0) p) unitOnly).check6 .declare (declareSlot 7) = some .noRoom := by
  decide +kernel

/-- R115: check 6 of a TRANSACT to unit 5 and of a LEND on both sides of their limits; a full pool comes before a full unit queue. -/
theorem witness_CapacitiesAreJudged :
    (poolOf 95 7).check6 .transact (transactSlot 0 0) = none ∧ (poolOf 96 7).check6 .transact (transactSlot 0 0) = some .noRoom ∧
    (poolOf 95 8).check6 .transact (transactSlot 0 0) = some .queueFull ∧ (poolOf 96 8).check6 .transact (transactSlot 0 0) = some .noRoom ∧
    (taking (poolOf 96 7)).part.validate ((transactSlot 0 0).take 64) = some .noRoom ∧
    (taking (poolOf 95 8)).part.validate ((transactSlot 0 0).take 64) = some .queueFull ∧
    Machine.Part.check6 .lend lendSlot { unitOnly with jw := { pages := List.replicate 7 (page 1) } } = none ∧
    Machine.Part.check6 .lend lendSlot { unitOnly with jw := { pages := List.replicate 8 (page 1) } } = some .queueFull := by
  decide +kernel

/-- R131: an ENROLL of a DEPARTING unit that does not name its DISMISS is refused. -/
theorem witness_EnrollOfADepartingUnitIsRefused :
    (taking leaving).SlotAnswered 3 [] none ∧ (taking leaving).part.validate (enrollSlot.take 64) = some .noUnit ∧ enrollSlot.length = 128 ∧
    byteAt enrollSlot 0x7F = statePosted :=
  ⟨⟨by decide +kernel, by decide +kernel, sequencesBelow (by decide +kernel), by decide +kernel, by decide +kernel, rfl⟩, by decide +kernel⟩

theorem witness_RefusedTakesCompleteAtOnce :
    (sweeping []).SlotAnswered 3 [] (some 2) ∧ (sweeping []).part.validate ((request 12 0 0 5 0 []).take 64) = some .badKind ∧
    (sweeping []).part.validate ((holdSlot 3).take 64) = some .badField ∧
    (sweeping []).part.validate ((request 2 0 0 6 0 []).take 64) = some .noUnit ∧ (sweeping []).part.validate (retireSlot.take 64) = some .noEntry ∧
    (taking { busy with board := { busy.board with registry := [(0x11, 1)] } }).part.validate (dismissSlot.take 64) = some .dupTag ∧
    (taking { unitOnly with jw := { pages := List.replicate 8 (page 1) } }).part.validate (lendSlot.take 64) = some .queueFull :=
  ⟨⟨by decide +kernel, by decide +kernel, sequencesBelow (by decide +kernel), by decide +kernel, by decide +kernel, rfl⟩,
   by decide +kernel⟩

/-! ## Premises of the statements about the queue, the port, control and start-up -/

theorem witness_EmptyQueueTicksTheClock : State.reset.pending = [] ∧ (state running).pending = [] := by decide

theorem witness_EveryStepKeepsMemoryAndCapacities :
    (state busy).MemoryCanonical ∧ (state busy).PortBounded ∧ (state busy).PagesBounded ∧ busy.te.pool.length ≤ 96 := by decide +kernel

theorem witness_PoolBounded : State.PoolBounded (state unitOnly) := ⟨by decide, fun _ => by show 0 ≤ 8; omega⟩

theorem witness_EveryStepKeepsPlacesAndTheLine : (state busy).HeadPlacesEmpty ∧ (state busy).LineExclusive := by decide +kernel

theorem witness_EveryStepKeepsSequencesBelow : (state busy).SequencesBelow ∧ (state lending).Distinct :=
  ⟨sequencesBelow (by decide +kernel), by decide +kernel⟩

theorem witness_CommandsAnswerAndPerformInOrder :
    (state busy).PortFree ∧ waitsForRoom (state busy) .stop = true ∧ (state busy).awaitRoom.PortFree := by decide +kernel

theorem witness_EveryStepKeepsTheMachineSettled : (state busy).Settled ∧ (state busy).SyncsWait := by decide +kernel

/-- The write queue is full, one block waits. -/
def crowded : State :=
  state { unitOnly with port := { fifo := List.replicate 32 (.write 0x400 [1] .silent)
                                  waiting := [{ block := .boardController, items := [.access (.write 0x800 [2] .silent)] }] } }

/-- The completion of the request 4 stands behind the access that waits. -/
def crowdedCompletion : State :=
  state { crowded.part with
    board := { crowded.part.board with held := [held 4 9 .directoryEngine none [6]] }
    port := { crowded.part.port with
      waiting := [{ block := .directoryEngine, items := [.access (.write 0x800 [2] .silent), .hand (.complete 4 { outcome := .ok })] }] } }

/-- A DISMISS is to complete once no block waits. -/
def crowdedWork : State :=
  state { crowdedCompletion.part with port := { crowded.part.port with later := [.dismissed 4 { outcome := .ok }] } }

theorem witness_CompletionsAndWorkWaitForRoom :
    crowdedCompletion.MemoryCanonical ∧ crowdedCompletion.Settled ∧ crowdedCompletion.PortBounded ∧ crowdedCompletion.part.port.waiting.length = 1 ∧
    crowdedCompletion.part.heldOf 4 = some (held 4 9 .directoryEngine none [6]) ∧ crowdedWork.Settled ∧ crowdedWork.PortBounded ∧
    crowdedWork.part.port.later.length = 1 ∧ crowdedWork.part.port.waiting.length = 1 := by decide +kernel

theorem witness_FrontAccessIsPerformed :
    crowded.MemoryCanonical ∧ crowded.Settled ∧ crowded.PortBounded ∧ crowded.part.port.fifo.head? = some (.write 0x400 [1] .silent) ∧
    readingStates.MemoryCanonical ∧ readingStates.Settled ∧ readingStates.part.port.waiting = [] := by decide +kernel

theorem witness_ControlCommandsAreAcceptedOrRefused :
    (state running).part.run.partState = .running ∧ State.reset.part.run.partState = .idle ∧ ((taking running).perform 0).part.port.fifo ≠ [] := by
  decide +kernel

theorem witness_StartEntersStartingOrHalts :
    State.reset.part.run.partState = .idle ∧ State.reset.part.port = {} ∧ (0x0FFFFFFA : BitVec 28).toNat ≤ 0x0FFFFFFA ∧
    0x0FFFFFFA < (0x0FFFFFFB : BitVec 28).toNat := by decide

theorem witness_StopEntersDraining :
    (state busy).part.run.partState = .running ∧ (state busy).part.board.finishes = [] ∧ (state busy).PortFree ∧ (state busy).part.te.pool ≠ [] ∧
    (sweeping [4]).part.board.sweep = .taking [3, 4] (some 2) := by decide +kernel

def draining (p : Machine.Part) : State := state { p with run := { p.run with partState := .draining, drainTimer := some 4999 } }

theorem witness_DrainEndsAtOnceOrAtItsTimer :
    unitOnly.run.partState = .running ∧ unitOnly.te.pool = [] ∧ unitOnly.te.syncs = [] ∧ unitOnly.te.aborts = [] ∧ unitOnly.um.dismissWait = none ∧
    (state unitOnly).PortFree ∧ (draining busy).part.run.partState = .draining ∧ (draining busy).part.board.finishes = [] ∧
    (draining busy).part.run.drainEnded = false ∧ (draining busy).PortFree ∧ (draining busy).Distinct ∧
      reached (draining busy).part.run.clock 4999 = true := by
  decide +kernel

/-- The drain is to end with transactions, a SYNC, a DISMISS and two lent pages waiting. -/
def closing : State :=
  let p := (draining lending).part
  state { p with te := { p.te with syncs := [{ waitingSync with seq := 9 }] }
                 um := { p.um with dismissWait := some { seq := 8, unit := 8, retired := 1, ended := 2 } }
                 board := { p.board with held := p.board.held ++ [held 9 9 .transactionEngine none [8], held 8 8 .unitManager none [2]] } }

theorem witness_DrainEndCompletesInOrder :
    closing.part.run.partState = .draining ∧ closing.part.run.drainEnded = false ∧ closing.part.run.drainTimer = some 4999 ∧
    closing.part.board.finishes = [] ∧ closing.PortRoom 3 0 ∧ closing.NoneWaits ∧ closing.Distinct ∧ closing.part.jw.opened = some (opened 2 100) ∧
    closing.part.te.pool.map (fun x => x.seq) = [6, 5, 4] ∧
    ([9, 6, 5, 4, 8] ++ closing.part.jw.pages.map fun g : Page => g.seq).Nodup :=
  ⟨by decide +kernel, by decide +kernel, by decide +kernel, by decide +kernel, by decide +kernel, noneWaits (by decide +kernel), by decide +kernel⟩

/-- Two lent pages are all that is in flight. -/
def closingPages : State := draining (withPages (opened 2 100) unitOnly)

theorem witness_DrainEndWritesTheHeadFirst :
    closingPages.part.run.drainEnded = false ∧ closingPages.part.board.finishes = [] ∧ closingPages.PortRoom 3 0 ∧ closingPages.NoneWaits ∧
    closingPages.part.board.completions = [] ∧ (closingPages.part.board.held.filter fun h => h.owner == .boardController) = [] ∧
    closingPages.part.te = {} ∧ closingPages.part.um.dismissWait = none ∧ closingPages.part.jw.pages = [page 2, page 3] ∧
    closingPages.part.heldOf 2 = some (held 2 20 .journalWriter none [10]) :=
  ⟨by decide +kernel, by decide +kernel, by decide +kernel, noneWaits (by decide +kernel), by decide +kernel⟩

/-- R172, R107, R162 (A16, A47): what the end of the drain completes, in its order. -/
theorem test_drainEndCompletesInOrder :
    (after .drainTimer closing).part.board.completions.map (fun c => (c.slot, c.result.outcome)) =
      [(9, .stopped), (7, .stopped), (7, .stopped), (7, .stopped), (8, .stopped), (20, .ok), (21, .stopped)] := by decide +kernel

theorem witness_DrainEndsWithNothingToWaitFor :
    (draining unitOnly).part.board.finishes = [] ∧ (draining unitOnly).PortFree ∧ (draining unitOnly).part.te.pool = [] ∧
    (draining unitOnly).part.um.dismissWait = none ∧ (draining busy).part.te.pool ≠ [] := by decide +kernel

theorem witness_HaltsAndBusErrorsEmptyThePart :
    (taking busy).part.run.partState = .running ∧ ((taking busy).perform 0).part.port.fifo ≠ [] ∧ State.reset.part.run.partState = .idle := by
  decide +kernel

theorem witness_AcknowledgementsClearTheSummary :
    (2 : Word).getLsbD 1 = true ∧ (state running).part.run.partState ≠ .idle ∧ (1 : Word).getLsbD 1 = false ∧ (1 : Word).getLsbD 2 = false ∧
    State.reset.part.run.partState = .idle ∧ (0x0FFFFFFA : BitVec 28).toNat ≤ 0x0FFFFFFA ∧ 0x0FFFFFFA < (0x0FFFFFFB : BitVec 28).toNat := by
  decide +kernel

/-- R182: SVCEN makes a set bit reach SVCREQ and takes it away; a START clears the summary and keeps SVCEN. -/
theorem test_enablesActOnTheServiceRequest :
    (after (.svcen 1) (state { running with svc := { summary := 1 } })).svcreqn = false ∧
    (after (.svcen 2) (state { running with svc := { summary := 1, enables := 1 } })).svcreqn = true ∧
    (after .start (state { svc := { summary := 1, enables := 1 } })).svcreqn = true ∧
    (after .start (state { svc := { summary := 1, enables := 1 } })).part.svc.enables = 1 := by decide +kernel

theorem witness_SweepsStartAtNudgeOrTimer :
    (state running).part.run.partState = .running ∧ (state running).part.board.sweep = .noSweep ∧ (state running).PortRoom 0 1 ∧
    (sweeping []).part.board.sweep ≠ .noSweep ∧ State.reset.part.run.partState ≠ .running ∧ reached 5000 4000 = true := by decide +kernel

def starting (ph : StartPhase) (l : List Access) : State :=
  state { run := { partState := .starting, startPhase := ph, window := some 1, winbase := 1, clock := 3 }, port := { fifo := l } }

/-- A header that passes the checks of R170, at the bounds of its ranges. -/
def header : List Byte := [0x31, 0x56, 0x46, 0x43, 1, 2, 250, 1, 1, 1, 1, 1, 1, 2, 1, 0, 5, 0, 6, 0] ++ List.replicate 44 0

theorem witness_HeaderIsCheckedAtStart :
    (starting .header [headerRead 4096]).OnlyAccess (.read .header (starting .header [headerRead 4096]).part.base 64) ∧ Header.valid header = true ∧
    Header.valid (header.set 5 3) = false ∧ Header.valid (header.set 6 251) = false ∧ Header.valid (header.set 7 0) = false ∧
    Header.valid (header.set 8 0) = false ∧ Header.valid (header.set 63 1) = false := by decide +kernel

theorem witness_StartRestartsTakenSlotsThenRuns :
    (starting .boardRead [stateBytesRead .startStates 4096]).OnlyAccess (.read .startStates (stateByteAddr 4096 0) 64) ∧
    (starting .writes [.write 5 [1] .silent]).PortFree ∧ (starting .writes [.write 5 [1] .silent]).part.board.finishes = [] ∧
    Access.reported (.write 5 [1] .silent) = false := by decide +kernel

/-- A drain that has ended, all work done but one write. -/
def atRest : State :=
  state { unitOnly with run := { unitOnly.run with partState := .draining, drainEnded := true }, port := { fifo := [.write 5 [1] .silent] } }

theorem witness_StoppedIsEnteredAtRest :
    atRest.part.run.partState = .draining ∧ atRest.part.run.drainEnded = true ∧ atRest.part.line.turn = none ∧ atRest.part.line.choice = none ∧
    atRest.part.te = {} ∧ atRest.part.board.finishes = [] ∧ atRest.part.board.completions = [] ∧ atRest.part.svc.bankQueue = [] ∧ atRest.PortFree ∧
    atRest.part.port.reports = [] ∧ (∀ a ∈ atRest.part.port.fifo, a.reported = false) := by decide +kernel

theorem witness_PerformedWritesSetSummaryBits :
    (state { unitOnly with port := { fifo := [.write 5 [3] (.done 3)] } }).Settled ∧
    (state { unitOnly with port := { fifo := [.write 5 [3] (.bankBit .unit)] } }).Settled := by decide +kernel

def bank (q : List BankItem) (l : List Access) : State := state { unitOnly with svc := { bankQueue := q }, port := { fifo := l } }

theorem witness_BankQueueIsServedInOrder :
    (bank [.update .bank1 .directory 191] [.read .bankWord (mapWordAddr 0 .bank1 .directory 191) 4]).Settled ∧
    (bank [.update .bank1 .directory 191] [.read .bankWord (mapWordAddr 0 .bank1 .directory 191) 4]).OnlyAccess
      (.read .bankWord (mapWordAddr 0 .bank1 .directory 191) 4) ∧
    (bank [.swap 5 .bank0] []).PortRoom 8 1 ∧ (bank [.swap 5 .bank0] []).part.run.startPhase ≠ .header := by decide +kernel

/-! ## Premises of the statements about the line -/

theorem witness_ArbiterChoosesByClass :
    (state busy).part.lineFree = true ∧ (state (withTurn (turn 5 .poll .sending) busy)).part.lineFree = false ∧
    ((state busy).part.eligibleHead 5).isSome = true := by decide +kernel

theorem witness_LineEventsAreNoted :
    (state unitOnly).part.unitAt 5 = some polled ∧ (state unitOnly).Working ∧ elapsed 5000 4995 ≤ (turn 5 .poll (.window 4995)).replyWindow ∧
    elapsed 5000 4999 ≤ 1 ∧ (state unitOnly).part.line.turn = none := by decide +kernel

/-- A turn with unit 5 has been chosen. -/
def chosen (k : TurnKind) (c : TurnClass) (since : Word) (p : Machine.Part) : State :=
  state { p with line := { p.line with choice := some { unit := 5, kind := k, cls := c, since := since } } }

/-- The same on a line that was active at the last reading. -/
def unquiet (k : TurnKind) (c : TurnClass) (since : Word) (p : Machine.Part) : State :=
  chosen k c since { p with line := { p.line with idleSince := 4999 } }

def faulty : State := state { busy with line := { busy.line with fault := some 4000, idleSince := 4980 } }

theorem witness_LineFaultsBeginAndEnd :
    (unquiet .poll .poll 4998 busy).Working ∧ (unquiet .poll .poll 4998 busy).Settled ∧ (unquiet .poll .poll 4998 busy).PortRoom 4 0 ∧
    2 ≤ elapsed 5000 4998 ∧ elapsed 5000 (unquiet .poll .poll 4998 busy).part.line.idleSince ≤ 1 ∧
    2 ≤ elapsed 5000 (chosen .poll .poll 4998 busy).part.line.idleSince ∧ faulty.Working ∧ faulty.Settled ∧ faulty.PortRoom 4 0 ∧
      20 ≤ elapsed 5000 faulty.part.line.idleSince := by
  decide +kernel

/-- A line fault after the end of the drain. -/
def faultyAtRest : State := state { faulty.part with run := { faulty.part.run with partState := .draining, drainEnded := true } }

theorem witness_LineFaultStandsAfterTheDrain :
    faultyAtRest.Working ∧ faultyAtRest.Settled ∧ faultyAtRest.PortRoom 4 0 ∧ faultyAtRest.part.line.fault = some 4000 ∧
    20 ≤ elapsed 5000 faultyAtRest.part.line.idleSince ∧ polled.factors.line ≠ true := by decide +kernel

theorem witness_CommitmentStartsOrWithdrawsTheTurn :
    elapsed 5000 4998 ≤ 2 ∧ 2 ≤ elapsed 5000 (chosen .poll .poll 4900 busy).part.line.idleSince ∧ (chosen .poll .poll 4998 busy).Settled ∧
    (chosen .poll .poll 4998 busy).part.port.waiting = [] ∧
    (chosen .poll .poll 4998 busy).part.choiceStands { unit := 5, kind := .poll, cls := .poll, since := 4998 } = true ∧
    (chosen .rollCall .rollCall 4998 busy).part.choiceStands { unit := 5, kind := .rollCall, cls := .rollCall, since := 4998 } = false ∧
    (chosen (.command 4) .command 4998 busy).part.choiceStands { unit := 5, kind := .command 4, cls := .command, since := 4998 } = true ∧
    (chosen (.command 4) .command 4998 busy).part.eligibleHead 5 = some (txn 4 .pending) ∧
    (chosen (.command 4) .command 4998 busy).part.findTxn 4 = some (txn 4 .pending) ∧ (chosen (.command 4) .command 4998 busy).Distinct := by
  decide +kernel

def sendingCommand : State := state (withTurn (turn 5 (.command 4) .sending) (withTxn (txn 4 .sending) unitOnly))

theorem witness_ReadbackMismatchInterruptsTheTurn :
    (state (withTurn (turn 5 .poll .sending) unitOnly)).Steady ∧ (state (withTurn (turn 5 .poll .sending) unitOnly)).NoneWaits ∧
    (state (withTurn (turn 5 .poll .sending) unitOnly)).PortRoom 4 0 ∧ 5 < (turn 5 .poll .sending).frame.length ∧
    sendingCommand.Steady ∧ sendingCommand.NoneWaits ∧ sendingCommand.PortRoom 4 0 ∧ sendingCommand.part.findTxn 4 = some (txn 4 .sending) :=
  ⟨by decide +kernel, noneWaits (by decide +kernel), by decide +kernel, by decide +kernel, by decide +kernel, noneWaits (by decide +kernel),
   by decide +kernel⟩

/-- A command turn is being sent whose transaction is `x`, in DRAINING, the drain ended or waiting for it; an ABORT waits for the transaction. -/
def drainingCommand (ended : Bool) (x : Transaction) : State :=
  let p := (draining (withTurn (turn 5 (.command 4) .sending) (withTxn x unitOnly))).part
  state { p with run := { p.run with drainEnded := ended }
                 te := { p.te with aborts := [{ seq := 9, target := 4 }] }
                 board := { p.board with held := p.board.held ++ [held 9 8 .transactionEngine none [9]] } }

/-- The same in RUNNING, its unit DEPARTING and the DISMISS of take sequence 8 waiting. -/
def departingCommand : State :=
  let p := withUnit 5 { polled with link := .departing } sendingCommand.part
  state { p with um := { p.um with dismissWait := some { seq := 8, unit := 5, retired := 0, ended := 0 } }
                 board := { p.board with held := p.board.held ++ [held 8 9 .unitManager none [2]] } }

theorem witness_InterruptedCommandFinishes :
    (drainingCommand false { txn 4 .sending with abortRequested := true }).Working ∧
    (drainingCommand false { txn 4 .sending with abortRequested := true }).Settled ∧
    (drainingCommand false { txn 4 .sending with abortRequested := true }).NoneWaits ∧
    (drainingCommand false { txn 4 .sending with abortRequested := true }).PortRoom 4 0 ∧
    (drainingCommand true (txn 4 .sending)).Steady ∧ (drainingCommand true (txn 4 .sending)).part.findTxn 4 = some (txn 4 .sending) ∧
    (drainingCommand false { txn 4 .sending with deadline := some 4000 }).Settled ∧ reached 5000 4000 = true ∧ departingCommand.Steady ∧
    departingCommand.PortRoom 4 0 ∧ (departingCommand.part.unitAt 5).map (·.link) = some .departing :=
  ⟨by decide +kernel, by decide +kernel, noneWaits (by decide +kernel), by decide +kernel⟩

/-- R90, R104, R172: the interrupted turn of the last entry, whose ABORT waits, ends the drain. -/
theorem test_interruptedAbortEndsTheDrain :
    (after (.readback ([0], false)) (drainingCommand false { txn 4 .sending with abortRequested := true })).part.run.drainEnded = true ∧
    (after (.readback ([0], false)) (drainingCommand false { txn 4 .sending with abortRequested := true })).part.board.completions.map
      (fun c => (c.slot, c.result.outcome)) = [(7, .aborted), (8, .ok)] ∧
    ((after (.readback ([0], false)) departingCommand).part.unitAt 5).isNone = true ∧
    (after (.readback ([0], false)) departingCommand).part.board.completions.map (fun c => (c.slot, c.result.outcome)) =
      [(7, .dismissed), (9, .ok)] := by decide +kernel

def headerOf (kind gen token code len : Nat) : FrameHeader :=
  { dst := 0, src := 5, kind := BitVec.ofNat 4 kind, gen := BitVec.ofNat 3 gen, token := BitVec.ofNat 4 token, code := BitVec.ofNat 6 code
    len := BitVec.ofNat 5 len }

/-- The bytes of a frame up to its header check byte. -/
def headerBytes (h : FrameHeader) : List Byte := 0x7E :: h.bytes ++ [crc8 h.bytes]

def inHeader : State := state (withTurn (turn 5 .poll .header) busy)

theorem witness_HeaderCheckIsJudged :
    inHeader.Settled ∧ inHeader.PortRoom 4 0 ∧ goodHeader [1] false = none ∧ goodHeader (headerBytes (headerOf 8 1 0 3 2)) true = none ∧
    goodHeader (headerBytes (headerOf 8 1 0 3 2)) false = some (headerOf 8 1 0 3 2) ∧
    (state (withTurn (turn 5 (.command 4) .header) (withTxn (txn 4 .sending) unitOnly))).Settled ∧
    (turn 5 .poll .header).protocolError (headerOf 8 1 0 3 2) = none ∧ (turn 5 .poll .header).protocolError (headerOf 14 1 0 3 3) = some .kind ∧
    inHeader.part.unitAt 5 = some polled ∧ polled.generation = some (headerOf 8 1 0 3 2).gen := by decide +kernel

/-- R63, R72: each kind of protocol error has a header, and a good one has none, also where the turn's limit is reached. -/
theorem witness_ProtocolErrorsAreJudged :
    (turn 5 (.command 4) .header).frame = headFrame 5 2 (4 : BitVec 4).toNat 0 [] ∧
    (turn 5 .poll .header).protocolError { headerOf 8 1 0 3 2 with src := 6 } = some .source ∧
    (turn 5 .poll .header).protocolError { headerOf 8 1 0 3 2 with dst := 1 } = some .destination ∧
    (turn 5 (.command 4) .header).protocolError (headerOf 8 1 4 0 1) = some .kind ∧
    { turn 5 .rollCall .header with frames := 2 }.protocolError (headerOf 14 1 0 0 3) = some .kind ∧
    (turn 5 .poll .header).protocolError (headerOf 8 1 0 3 25) = some .length ∧ (turn 5 .poll .header).protocolError (headerOf 9 1 0 0 1) = some .length ∧
    (turn 5 (.command 4) .header).protocolError (headerOf 10 1 5 0 1) = some .token ∧
    (turn 5 (.command 4) .header).protocolError (headerOf 10 1 4 0 1) = none ∧
    (turn 5 .poll .header).protocolError (headerOf 13 1 0 0 1) = some .code ∧ (turn 5 .poll .header).protocolError (headerOf 13 1 4 2 1) = some .code ∧
    { turn 5 .poll .header with frames := 3 }.protocolError (headerOf 8 1 0 3 2) = some .excess ∧
    { turn 5 .poll .header with frames := 2 }.protocolError (headerOf 8 1 0 3 2) = none ∧
    { turn 5 .poll .header with frames := 3 }.protocolError (headerOf 9 1 0 0 0) = none := by decide +kernel

def reserved : FieldUnit := { polled with reservations := [{ token := 7, tag := 0x55, expiry := 9000 }], lastAccepted := some 8 }

theorem witness_GenerationChangeFailsLate :
    (state (withTurn (turn 5 .poll .header) busyEarly)).Steady ∧ (state (withTurn (turn 5 .poll .header) busyEarly)).NoneWaits ∧
    (state (withTurn (turn 5 .poll .header) busyEarly)).Distinct :=
  ⟨by decide +kernel, noneWaits (by decide +kernel), by decide +kernel⟩

theorem witness_GenerationChangeActsOnTheUnit :
    inHeader.Distinct ∧ inHeader.Steady ∧ inHeader.NoneWaits ∧ inHeader.PortRoom 7 1 ∧ inHeader.part.unitAt 5 = some polled ∧ polled.generation = some 1 ∧
    (1 : BitVec 3) ≠ (headerOf 8 2 0 3 2).gen ∧ goodHeader (headerBytes (headerOf 8 2 0 3 2)) false = some (headerOf 8 2 0 3 2) ∧
    (turn 5 .poll .header).protocolError (headerOf 8 2 0 3 2) = none :=
  ⟨by decide +kernel, by decide +kernel, noneWaits (by decide +kernel), by decide +kernel⟩

/-- The unit whose generation changes has a last accepted token, which the notice drops, and a notifying entry under change policy CLEAR. -/
theorem witness_GenerationChangeDropsTheToken :
    reserved.lastAccepted ≠ none ∧ (state (withTurn (turn 5 .poll .header) (withUnit 5 reserved busy))).PortRoom 7 1 ∧
    (state (withTurn (turn 5 .poll .header) (withUnit 5 reserved busy))).part.unitAt 5 = some reserved ∧ (entry 5 6).policies.change = .clear ∧
    (entry 5 6).state ≠ .awaiting ∧ (entry 5 6).policies.notify ≠ .never := by decide +kernel

/-- The drain waits for a DEFERRED transaction, whose unit's frame begins. -/
def drainingHeader : State := draining (withTurn (turn 5 .poll .header) (withTxn { txn 5 .deferred with token := some 6 } unitOnly))

theorem witness_GenerationChangeEndsTheDrain :
    drainingHeader.Working ∧ drainingHeader.Settled ∧ drainingHeader.NoneWaits ∧ drainingHeader.Distinct ∧ drainingHeader.PortRoom 7 1 ∧
    (after (.frameHeader (headerBytes (headerOf 8 2 0 3 2)) false) drainingHeader).part.run.drainEnded = true :=
  ⟨by decide +kernel, by decide +kernel, noneWaits (by decide +kernel), by decide +kernel⟩

/-- The DISMISS of unit 8 waits for the turn in progress. -/
def departing : State :=
  state { withTurn (turn 8 .poll (.gap 4999)) busy with
    um := { busy.um with dismissWait := some { seq := 3, unit := 8, retired := 1, ended := 2 } }
    board := { busy.board with held := busy.board.held ++ [held 3 9 .unitManager none [2]] } }

theorem witness_TurnEndIsReportedToTheUnit :
    (state (withTurn (turn 5 .poll (.window 4995)) busy)).EndsTurn .replyWindowExpiry (turn 5 .poll (.window 4995)) ∧
    (state (withTurn (turn 5 .poll (.window 4995)) busy)).Settled ∧ (state (withTurn (turn 5 .poll (.window 4995)) busy)).PortRoom 3 1 ∧
    departing.EndsTurn .gapLimit (turn 8 .poll (.gap 4999)) ∧ departing.Steady ∧ departing.NoneWaits ∧ departing.PortRoom 3 1 ∧
    (departing.part.unitAt 8).map (·.link) = some .departing :=
  ⟨⟨_, rfl, .inl ⟨rfl, rfl, 4995, rfl, by decide +kernel⟩⟩, by decide +kernel, by decide +kernel,
   ⟨_, rfl, .inr (.inl ⟨rfl, rfl, 4999, rfl, by decide +kernel⟩)⟩, by decide +kernel, noneWaits (by decide +kernel), by decide +kernel⟩

def commandTurn (a : Answer) : Turn := { turn 5 (.command 4) (.gap 4990) with answer := a }

/-- The turn of a command for which an ABORT waits is over. -/
def answered (a : Answer) (x : Transaction) : State :=
  state (withTurn (commandTurn a) { unitOnly with
    te := { pool := [x], aborts := [{ seq := 9, target := 4 }] }
    board := { running.board with held := [held 4 7 .transactionEngine none [7], held 9 8 .transactionEngine none [9]]
                                  registry := [(0x70, 4), (0x79, 9)] } })

theorem witness_CommandTurnIsSettled :
    (answered (.reply [9]) (txn 4 .sending)).EndsTurn .gapLimit (commandTurn (.reply [9])) ∧ (answered (.reply [9]) (txn 4 .sending)).Steady ∧
    (answered (.reply [9]) (txn 4 .sending)).NoneWaits ∧ (answered .defer (txn 4 .sending)).part.findTxn 4 = some (txn 4 .sending) ∧
    (answered .garbled { txn 4 .sending with deadline := some 4000 }).Steady ∧ reached 5000 4000 = true :=
  ⟨⟨_, rfl, .inr (.inl ⟨rfl, rfl, 4990, rfl, by decide +kernel⟩)⟩, by decide +kernel, noneWaits (by decide +kernel), by decide +kernel⟩

/-- The unit of the command turn is DEPARTING, and its DISMISS waits for the end of the turn. -/
def answeredDeparting : State :=
  let p := withUnit 5 { polled with link := .departing } (answered (.reply [9]) (txn 4 .sending)).part
  state { p with um := { p.um with dismissWait := some { seq := 3, unit := 5, retired := 1, ended := 2 } }
                 board := { p.board with held := p.board.held ++ [held 3 9 .unitManager none [2]] } }

theorem witness_CommandTurnOfADepartingUnit :
    answeredDeparting.EndsTurn .gapLimit (commandTurn (.reply [9])) ∧ answeredDeparting.Steady ∧ answeredDeparting.NoneWaits ∧
    answeredDeparting.PortRoom 9 0 ∧ answeredDeparting.part.um.dismissWait = some { seq := 3, unit := 5, retired := 1, ended := 2 } ∧
    (∀ w ∈ answeredDeparting.part.te.aborts, w.seq ≠ 3) ∧ answeredDeparting.part.heldOf 3 = some (held 3 9 .unitManager none [2]) :=
  ⟨⟨_, rfl, .inr (.inl ⟨rfl, rfl, 4990, rfl, by decide +kernel⟩)⟩, by decide +kernel, noneWaits (by decide +kernel), by decide +kernel⟩

/-- A command turn without an answer that makes its unit LOST, and one that changes nothing of its link state, gate or factors. -/
theorem witness_CommandTurnChangesTheLink :
    ({ polled with missed := 2 }.takeTurn (.command 4) .noAnswer 5000).link ≠ polled.link ∧
    (polled.takeTurn (.command 4) .clean 5000).link = polled.link ∧ (polled.takeTurn (.command 4) .clean 5000).gate = polled.gate ∧
    (polled.takeTurn (.command 4) .clean 5000).factors = polled.factors ∧
    { commandTurn .noFrame with frames := 0 }.outcome = .noAnswer ∧ (commandTurn (.reply [9])).outcome = .clean := by decide +kernel

theorem witness_TurnEndsEndTheDrain :
    (draining departing.part).Settled ∧ (draining departing.part).NoneWaits ∧ (draining (answered (.reply [9]) (txn 4 .sending)).part).Settled ∧
    (draining (answered (.reply [9]) (txn 4 .sending)).part).NoneWaits ∧
    (draining (answered (.reply [9]) (txn 4 .sending)).part).EndsTurn .gapLimit (commandTurn (.reply [9])) ∧
    (after .gapLimit (draining (answered (.reply [9]) (txn 4 .sending)).part)).part.run.drainEnded = true :=
  ⟨by decide +kernel, noneWaits (by decide +kernel), by decide +kernel, noneWaits (by decide +kernel),
   ⟨_, rfl, .inr (.inl ⟨rfl, rfl, 4990, rfl, by decide +kernel⟩)⟩, by decide +kernel⟩

/-- An ABORT was requested of the transaction that is now answered with DEFER. -/
theorem witness_CommandTurnLeavesAReservation :
    (answered .defer { txn 4 .sending with abortRequested := true }).EndsTurn .gapLimit (commandTurn .defer) ∧
    (answered .defer { txn 4 .sending with abortRequested := true }).Steady ∧ (txn 4 .sending).token = some 4 ∧
    reached 5000 (5000 + wordOf (100 * params.deferLimit)) = false :=
  ⟨⟨_, rfl, .inr (.inl ⟨rfl, rfl, 4990, rfl, by decide +kernel⟩)⟩, by decide +kernel, rfl, by decide +kernel⟩

/-- The header check of the answer frame of a command turn fails. -/
def badAnswer : State := state (withTurn (turn 5 (.command 4) .header) (withTxn { txn 4 .sending with origin := none, early := true } unitOnly))

theorem witness_HeaderFailureEndsACommandTurn :
    badAnswer.EndsTurn (.frameHeader [1] false) { turn 5 (.command 4) .header with errors := 1, answer := .garbled } ∧
    badAnswer.EndsTurn .byteGap { turn 5 (.command 4) .header with errors := 1, answer := .garbled } ∧ badAnswer.Steady ∧ badAnswer.NoneWaits ∧
    badAnswer.part.port.waiting = [] ∧ (badAnswer.part.findTxn 4).map (·.origin) = some none :=
  ⟨⟨_, rfl, .inr (.inr (.inr (.inr ⟨rfl, .inr ⟨[1], false, rfl, by decide +kernel⟩, rfl⟩)))⟩,
   ⟨_, rfl, .inr (.inr (.inr (.inr ⟨rfl, .inl rfl, rfl⟩)))⟩, by decide +kernel, noneWaits (by decide +kernel), rfl, by decide +kernel⟩

/-- A frame of a poll turn with unit 5 whose header was good. -/
def bodyTurn (h : FrameHeader) : Turn := turn 5 .poll (.body h none false)

def inBody (h : FrameHeader) (p : Machine.Part) : State := state (withTurn (bodyTurn h) p)

def withCheck (l : List Byte) : List Byte := l ++ crc16Bytes l

theorem witness_ReportIsTakenAsAnArrival :
    (inBody (headerOf 8 1 0 6 2) busy).InFrame (bodyTurn (headerOf 8 1 0 6 2)) (headerOf 8 1 0 6 2) 8 ∧
    goodPayload 2 (withCheck [1, 2]) = some [1, 2] ∧ (inBody (headerOf 8 1 0 6 2) busy).part.unitAt 5 = some polled ∧
    (inBody (headerOf 8 1 0 6 2) busy).Settled ∧ (inBody (headerOf 8 1 0 6 2) busy).NoneWaits ∧
    (inBody (headerOf 8 1 0 6 2) busy).part.findEntry { unit := 5, kind := 6 } = some 0 ∧
    (inBody (headerOf 8 1 0 7 2) busy).part.findEntry { unit := 5, kind := 7 } = none ∧
    (inBody (headerOf 8 1 0 7 2) busy).part.vacantEntry = some 1 ∧ elapsed 5000 4980 = 10 * 2 ∧
    (inBody (headerOf 8 1 0 6 2) busy).PortRoom 4 1 ∧ polled.unadmitted = 0 ∧ (entry 5 6).policies.notify = .all ∧ (entry 5 6).state = .fresh :=
  ⟨by decide +kernel, by decide +kernel, by decide +kernel, by decide +kernel, noneWaits (by decide +kernel), by decide +kernel⟩

theorem witness_StoredArrivalIsJournaledOrLost :
    (inBody (headerOf 8 1 0 6 2) lending).InFrame (bodyTurn (headerOf 8 1 0 6 2)) (headerOf 8 1 0 6 2) 8 ∧
    (inBody (headerOf 8 1 0 6 2) lending).Settled ∧ (inBody (headerOf 8 1 0 6 2) lending).NoneWaits ∧
    (inBody (headerOf 8 1 0 6 2) lending).PortRoom 4 1 ∧ (inBody (headerOf 8 1 0 6 2) withdrawing).Distinct ∧ lending.entryAt 0 = some (entry 5 6) ∧
      (entry 5 6).early 5000 = false ∧
    (inBody (headerOf 8 1 0 6 2) busy).PortRoom 4 1 ∧ busy.jw.pages = [] ∧ busy.jw.opened = none ∧ (entry 5 6).policies.journal = true ∧
    (opened 3 1008).used + (12 + (2 + 3) / 4 * 4) ≤ 256 * (page 2).size ∧ 256 * (page 2).size < (opened 3 1009).used + (12 + (2 + 3) / 4 * 4) :=
  ⟨by decide +kernel, by decide +kernel, noneWaits (by decide +kernel), by decide +kernel⟩

theorem witness_FramesAreHeldOrDiscarded :
    (inBody (headerOf 10 1 4 0 1) busy).Settled ∧ goodPayload 1 (withCheck [9]) = some [9] ∧ goodPayload 0 [] = some [] ∧
    goodPayload 1 [9, 0, 0] = none ∧ (headerOf 10 1 4 0 1).len ≠ 0 := by decide +kernel

theorem witness_ResultIsJudgedByItsToken :
    (inBody (headerOf 13 1 6 1 2) busy).InFrame (bodyTurn (headerOf 13 1 6 1 2)) (headerOf 13 1 6 1 2) 13 ∧
    (inBody (headerOf 13 1 6 1 2) busy).Steady ∧ (inBody (headerOf 13 1 6 1 2) busy).NoneWaits ∧ (inBody (headerOf 13 1 6 1 2) busy).PortRoom 4 0 ∧
    (busy.te.pool.find? fun z => z.state == .deferred && z.token == some 6).isSome = true ∧
    (inBody (headerOf 13 1 7 1 2) (withUnit 5 reserved busy)).part.unitAt 5 = some reserved :=
  ⟨by decide +kernel, by decide +kernel, noneWaits (by decide +kernel), by decide +kernel⟩

/-- The completion, the LATE_FAILURE record and the records of a late and of a stray RESULT have room with the mirror rewrite behind them; token 8 is the last
accepted one of the unit. -/
theorem witness_ResultRewritesTheMirrorBehind :
    (inBody (headerOf 13 1 6 1 2) busy).PortRoom 7 0 ∧ busy.heldOf 5 = some (held 5 7 .transactionEngine none [7]) ∧ busy.board.completions = [] ∧
    (inBody (headerOf 13 1 6 1 2) busyEarly).PortRoom 7 0 ∧
    (busyEarly.te.pool.find? fun z => z.state == .deferred && z.token == some 6).map (·.origin) = some none ∧ (headerOf 13 1 6 1 2).code ≠ 0 ∧
    reserved.reservations.find? (fun r => r.token == 7) = some { token := 7, tag := 0x55, expiry := 9000 } ∧ reserved.lastAccepted = some 8 ∧
    reserved.reservations.find? (fun r => r.token == 8) = none := by decide +kernel

theorem witness_ResultEndsTheDrain :
    (inBody (headerOf 13 1 6 1 2) drainingHeader.part).Settled ∧ (inBody (headerOf 13 1 6 1 2) drainingHeader.part).NoneWaits ∧
    (inBody (headerOf 13 1 6 1 2) drainingHeader.part).PortRoom 4 0 ∧
    (after (.result (withCheck [1, 2])) (inBody (headerOf 13 1 6 1 2) drainingHeader.part)).part.run.drainEnded = true :=
  ⟨by decide +kernel, noneWaits (by decide +kernel), by decide +kernel⟩

theorem witness_AnnounceMakesTheUnitOnline :
    (inBody (headerOf 14 3 0 0 3) (withUnit 5 { online with link := .seeking } running)).InFrame (bodyTurn (headerOf 14 3 0 0 3))
      (headerOf 14 3 0 0 3) 14 ∧ goodPayload 3 (withCheck [1, 2, 9]) = some [1, 2, 9] ∧
    (inBody (headerOf 14 3 0 0 3) (withUnit 5 { online with link := .seeking } running)).Settled ∧
    (inBody (headerOf 14 3 0 0 3) (withUnit 5 { online with link := .lost } running)).PortRoom 3 1 ∧
    (inBody (headerOf 14 3 0 0 3) (withUnit 5 { online with link := .departing } running)).Settled := by decide +kernel

/-! ## Premises of the statements about rules and timers -/

theorem witness_GateAndHealthAreJudged :
    polled.link = .online ∧ polled.streak ≤ 255 ∧ polled.missed ≤ 255 ∧ polled.cleanRun ≤ 255 ∧ (newUnit params false 0).link = .seeking := by
  decide +kernel

theorem witness_ChangedEventIsJudged :
    polled.params.holdMask.changed = true ∧ polled.gate = .opened ∧ polled.params.settleTime ≠ 0 ∧
    { polled.params.holdMask with changed := false }.changed = false := by decide +kernel

/-- R31, R47, R77: the third turn without an answer makes the unit LOST, with the factor LOST, its gate held and a roll call due. -/
theorem test_silentUnitIsLost :
    { polled with missed := 2 }.takeTurn .poll .noAnswer 5000 =
      { polled with missed := 3, turns := 1, noAnswers := 1, link := .lost, factors := { lost := true }, gate := .held, pollDue := none
                    lastPoll := none, rollDue := some 5000 } := by decide +kernel

/-- The request 4 has finished; the request 6 waited for it. -/
def finished (ok : Bool) (te : TransactionEngine) (h : HeldRequest) : Machine.Part :=
  { unitOnly with te := te
                  board := { running.board with held := [h], finishes := [{ seq := 4, success := ok, transaction := true }] } }

def waitingTxn : TransactionEngine := { pool := [{ txn 6 .pending with pred := some 4 }] }

def waitingForFour : SyncRecord := { waitingSync with pred := some 4 }

theorem onlyFourIsWaitedFor {p : Machine.Part}
    (h : ((p.board.held.all fun h => h.pred == none || h.pred == some 4) && (p.te.pool.all fun t => t.pred == some 4) &&
      p.te.syncs.all fun y => y.pred == some 4) = true) (k : Nat) (hk : k ≠ 4) : p.waitersOf k = [] := by
  simp only [Bool.and_eq_true, List.all_eq_true, beq_iff_eq, Bool.or_eq_true] at h
  refine List.eq_nil_iff_forall_not_mem.mpr fun n hn => ?_
  simp only [Machine.Part.waitersOf, List.mem_append, List.mem_map, List.mem_filter, Bool.and_eq_true, beq_iff_eq] at hn
  rcases hn with (⟨x, ⟨hx, _, e⟩, _⟩ | ⟨x, ⟨hx, e⟩, _⟩) | ⟨x, ⟨hx, e⟩, _⟩
  · rcases h.1.1 x hx with h' | h' <;> rw [e] at h' <;> simp at h'
    exact hk h'
  · have h' := h.1.2 x hx; rw [e] at h'; exact hk (Option.some.inj h')
  · have h' := h.2 x hx; rw [e] at h'; exact hk (Option.some.inj h')

theorem witness_FinishedItemReleasesItsWaiter :
    (finished true waitingTxn (held 6 7 .transactionEngine (some 4) [7])).waitersOf 4 = [6] ∧
    (∀ k : Nat, k ≠ 4 → (finished false waitingTxn (held 6 7 .transactionEngine (some 4) [7])).waitersOf k = []) ∧
    (finished true { syncs := [waitingForFour] } (held 6 7 .transactionEngine (some 4) [8])).waitersOf 4 = [6] ∧
    (∀ k : Nat, k ≠ 4 → (finished true { syncs := [waitingForFour] } (held 6 7 .transactionEngine (some 4) [8])).waitersOf k = []) ∧
    (finished true {} (held 6 7 .boardController (some 4) (holdSlot 1))).waitersOf 4 = [6] ∧
    (finished true {} (held 6 7 .boardController (some 4) (holdSlot 1))).checkState .hold (held 6 7 .boardController (some 4) (holdSlot 1)).req = none ∧
    (∀ k : Nat, k ≠ 4 → (finished true {} (held 6 7 .boardController (some 4) (holdSlot 1))).waitersOf k = []) :=
  ⟨by decide +kernel, onlyFourIsWaitedFor (by decide +kernel), by decide +kernel, onlyFourIsWaitedFor (by decide +kernel), by decide +kernel,
   by decide +kernel, onlyFourIsWaitedFor (by decide +kernel)⟩

/-- The transaction 4 has finished; the SYNC 6 waits for it alone, the SYNC 7 for the transaction 5 as well. -/
def captured (ok : Bool) : Machine.Part :=
  finished ok { syncs := [{ waitingSync with waitingFor := [4] }, { waitingSync with seq := 7, captured := 3, waitingFor := [4, 5] }] }
    (held 6 7 .transactionEngine none [8])

theorem witness_FinishedItemIsCounted :
    (captured true).run.partState = .running ∧ (captured true).port = {} ∧ (captured true).board.finishes = [⟨4, true, true⟩] ∧
    (∀ k : Nat, (captured true).waitersOf k = []) ∧ ((captured true).te.syncs.map (·.seq)).Nodup ∧
    (captured true).heldOf 6 = some (held 6 7 .transactionEngine none [8]) := by
  refine ⟨rfl, rfl, rfl, fun k => ?_, by decide +kernel⟩
  unfold Machine.Part.waitersOf captured finished unitOnly withUnit running
  simp [held, waitingSync]

/-- R85, R100: the failed transaction is counted as failed, and the SYNC that waited for it alone completes OK. -/
theorem test_syncCountsAFinish :
    (captured false).settle.te.syncs = [{ waitingSync with seq := 7, captured := 3, finished := 2, failed := 1, waitingFor := [5] }] ∧
    (captured false).settle.board.completions =
      [{ slot := 7, unmatched := false, result := { outcome := .ok, fields := [2, 2, 1] }, time := 5000 }] := by decide +kernel

/-- Two EARLY transactions wait for the failed transaction 4, with room for a single write. -/
def cascade : Machine.Part :=
  { finished false { pool := [6, 7].map fun n => { txn n .pending with pred := some 4, origin := none, early := true } }
      (held 9 7 .transactionEngine none [8]) with
    port := { fifo := List.replicate 31 (.write 0x400 [1] .silent) } }

/-- R174: the fault record of the first waits for room, and the second is resolved behind it. -/
theorem test_secondWaiterStandsBehindTheWait :
    cascade.settle.port.later = [.waiters ⟨4, false, true⟩ [7]] ∧ cascade.settle.te.pool.map (·.seq) = [7] ∧
    cascade.settle.port.waits .serviceUnit = true := by decide +kernel

/-- The SYNC 6, the transaction 7 and the held request 8 wait for the failed transaction 4. -/
def threeWaiters : Machine.Part :=
  let p := finished false { pool := [{ txn 7 .pending with pred := some 4, origin := some 1 }], syncs := [waitingForFour] }
    (held 8 2 .boardController (some 4) (holdSlot 1))
  { p with board := { p.board with held := p.board.held ++ [held 7 1 .transactionEngine (some 4) [7], held 6 0 .transactionEngine (some 4) [8]] } }

theorem witness_WaitersAreResolvedInTakeOrder :
    [6, 7, 8].Perm (threeWaiters.waitersOf 4) ∧ [6, 7, 8].Pairwise (· < ·) ∧ threeWaiters.port = {} ∧
    (∀ k : Nat, k ≠ 4 → threeWaiters.waitersOf k = []) ∧ (∀ y ∈ threeWaiters.te.syncs, ∀ w ∈ [4, 6, 7, 8], w ∉ y.waitingFor) :=
  ⟨by decide +kernel, by decide, rfl, onlyFourIsWaitedFor (by decide +kernel), by decide +kernel⟩

/-- A second item has finished behind the transaction 4, and none of the three must wait for room. -/
theorem witness_WaitersOfTheFirstFinish :
    ({ threeWaiters with board := { threeWaiters.board with finishes := threeWaiters.board.finishes ++ [⟨9, true, false⟩] } } : Machine.Part).waitersOf 4 =
      [8, 7, 6] ∧
    ∀ i : Nat, (([6, 7, 8].take i).foldl (fun (r : Machine.Part) w => r.resolveWaiter 4 false w)
      { threeWaiters with board := { threeWaiters.board with finishes := [⟨9, true, false⟩] } }).port.waiting = [] := by
  refine ⟨by decide +kernel, fun i => ?_⟩
  have h : ∀ j < 4, (([6, 7, 8].take j).foldl (fun (r : Machine.Part) w => r.resolveWaiter 4 false w)
      { threeWaiters with board := { threeWaiters.board with finishes := [⟨9, true, false⟩] } }).port.waiting = [] := by decide +kernel
  rcases Nat.lt_or_ge i 4 with hi | hi
  · exact h i hi
  · rw [List.take_of_length_le (by simpa using Nat.le_of_succ_le hi)]
    exact h 3 (by decide)

/-- R120, R121: they complete SKIPPED in take order. -/
theorem test_waitersAreResolvedInTakeOrder :
    threeWaiters.settle.board.completions.map (fun c => (c.slot, c.result.outcome)) = [(0, .skipped), (1, .skipped), (2, .skipped)] := by decide +kernel

def settling : State :=
  state (withEntry 0 (entry 5 6) (withUnit 5 { polled with
    gate := .settling, settle := some { start := 4900, expiry := 5000 }, factors := { changed := true } } running))

theorem witness_SettleAndStaleTimersExpire :
    settling.Working ∧ settling.Settled ∧ settling.PortRoom 3 1 ∧ reached 5000 5000 = true ∧ settling.part.entryAt 0 = some (entry 5 6) ∧
    reached 5000 (4000 + wordOf (10 * (entry 5 6).policies.maxInterval.toNat)) = true := by decide +kernel

def overdue (st : TxnState) : State := state (withTxn { txn 4 st with deadline := some 5000 } (withUnit 5 reserved unitOnly))

theorem witness_DeadlinesAndReservationsExpire :
    (overdue .sending).Steady ∧ (overdue .sending).PortRoom 2 0 ∧ (overdue .pending).NoneWaits ∧ (overdue .deferred).NoneWaits ∧
      (overdue .sending).NoneWaits ∧
    ((overdue .deferred).part.findTxn 4).map (·.deferExpiry) = some (some 4500) ∧ (overdue .pending).part.unitAt 5 = some reserved :=
  ⟨by decide +kernel, by decide +kernel, noneWaits (by decide +kernel), noneWaits (by decide +kernel), noneWaits (by decide +kernel),
   by decide +kernel⟩

theorem witness_DeadlineEndsTheDrain :
    (draining (overdue .pending).part).Settled ∧ (draining (overdue .pending).part).NoneWaits ∧ (draining (overdue .pending).part).Working ∧
    (after (.deadlineExpiry 4) (draining (overdue .pending).part)).part.run.drainEnded = true :=
  ⟨by decide +kernel, noneWaits (by decide +kernel), by decide +kernel⟩

theorem witness_FlushTimerCompletesThePage :
    (state withdrawing).Distinct ∧ (state withdrawing).NoneWaits ∧ (state lending).Distinct ∧ (state lending).Working ∧ (state lending).Settled ∧
      (state lending).NoneWaits ∧ (state lending).PortRoom 3 0 ∧
    (state lending).part.jw.opened = some (opened 2 100) ∧ reached 5000 (100 + wordOf (10 * (page 2).flushAge)) = true :=
  ⟨by decide +kernel, noneWaits (by decide +kernel), by decide +kernel, by decide +kernel, by decide +kernel, noneWaits (by decide +kernel),
   by decide +kernel⟩

/-! ## Rows that finish something a request waits for -/

/-- In `s` a HOLD of unit 5, of take sequence 7 and taken from slot 11, is held for the item `n`. -/
def waitingOn (n : Nat) (s : State) : State :=
  let h := held 7 11 .boardController (some n) ((holdSlot 1).take 64)
  { s with part := { s.part with board := { s.part.board with held := s.part.board.held ++ [h] } } }

/-- The HOLD waits for the item `n`, in a state in which nothing waits to be done. -/
abbrev Awaited (s : State) (n : Nat) : Prop := s.Working ∧ s.Settled ∧ s.part.port.waiting = [] ∧ s.part.waitersOf n = [7]

theorem witness_LineRowFinishesAnAwaitedItem :
    Awaited (waitingOn 4 (drainingCommand false { txn 4 .sending with abortRequested := true })) 4 ∧
    (waitingOn 4 (drainingCommand false { txn 4 .sending with abortRequested := true })).EndsApart 4 ∧
    Awaited (waitingOn 4 departingCommand) 4 ∧ (waitingOn 4 departingCommand).EndsApart 4 ∧ (waitingOn 4 departingCommand).PortRoom 4 0 ∧
    Awaited (waitingOn 5 inHeader) 5 ∧ (waitingOn 5 inHeader).Distinct ∧ (waitingOn 5 inHeader).PortRoom 7 1 ∧
    Awaited (waitingOn 3 departing) 3 ∧ (waitingOn 3 departing).PortRoom 3 1 :=
  ⟨by decide +kernel, by decide +kernel, by decide +kernel, by decide +kernel, by decide +kernel, by decide +kernel, by decide +kernel⟩

theorem witness_CommandTurnFinishesAnAwaitedItem :
    Awaited (waitingOn 4 (answered (.reply [9]) (txn 4 .sending))) 4 ∧ (waitingOn 4 (answered (.reply [9]) (txn 4 .sending))).EndsApart 4 ∧
    Awaited (waitingOn 4 (draining (answered (.reply [9]) (txn 4 .sending)).part)) 4 ∧
    Awaited (waitingOn 4 answeredDeparting) 4 ∧ (waitingOn 4 answeredDeparting).EndsApart 4 ∧
    (waitingOn 4 answeredDeparting).part.line.turn = some (commandTurn (.reply [9])) :=
  ⟨by decide +kernel, by decide +kernel, by decide +kernel, by decide +kernel, by decide +kernel, by decide +kernel⟩

/-- The open page has no room for the record that comes; its LEND is waited for. -/
def closingReport : State := waitingOn 2 (inBody (headerOf 8 1 0 6 2) (withPages (opened 3 1009) busy))

theorem witness_FrameFinishesAnAwaitedItem :
    Awaited closingReport 2 ∧ closingReport.Distinct ∧ closingReport.PortRoom 4 1 ∧
    Awaited (waitingOn 5 (inBody (headerOf 13 1 6 1 2) busy)) 5 ∧ (waitingOn 5 (inBody (headerOf 13 1 6 1 2) busy)).PortRoom 7 0 :=
  ⟨by decide +kernel, by decide +kernel, by decide +kernel, by decide +kernel, by decide +kernel⟩

theorem witness_TimerFinishesAnAwaitedItem :
    Awaited (waitingOn 4 (overdue .pending)) 4 ∧ Awaited (waitingOn 4 (overdue .deferred)) 4 ∧
    Awaited (waitingOn 4 (draining (overdue .pending).part)) 4 ∧ Awaited (waitingOn 6 (state (syncing unitOnly))) 6 ∧
    Awaited (waitingOn 2 (state withdrawing)) 2 ∧ (waitingOn 2 (state withdrawing)).Distinct ∧ (waitingOn 2 (state withdrawing)).PortRoom 3 0 :=
  ⟨by decide +kernel, by decide +kernel, by decide +kernel, by decide +kernel, by decide +kernel, by decide +kernel, by decide +kernel⟩

/-- The write queue is full when the flush timer of the open page has expired. -/
def lendingFull : State := state { lending with port := { fifo := List.replicate 32 (.write 0x400 [1] .silent) } }

theorem witness_FlushTimerFindsNoRoom :
    lendingFull.Working ∧ lendingFull.Settled ∧ lendingFull.Distinct ∧ lendingFull.part.port.waiting = [] ∧
    Config.writeQueueSize ≤ lendingFull.part.port.writesQueued := by decide +kernel

/-- The records of requests handed to their block keep the predecessor of their take, and nobody waits. -/
def keptPredecessors (p : Machine.Part) : State :=
  state { p with board := { p.board with held := p.board.held.map fun h => { h with pred := some 2 } } }

theorem witness_KeptPredecessorsAreNotWaitedFor :
    (keptPredecessors (answered (.reply [9]) (txn 4 .sending)).part).NoneWaits ∧ (keptPredecessors busy).NoneWaits ∧
    (keptPredecessors busy).part.board.held.map (·.pred) = [some 2, some 2, some 2] ∧ (keptPredecessors busy).part.waitersOf 2 = [] :=
  ⟨noneWaits (by decide +kernel), noneWaits (by decide +kernel), by decide +kernel⟩

/-- R90, R104, R120: the command 4 ends OK, and the HOLD that waited for it is carried out behind the ABORT that came too late; R96: at its deadline the HOLD
is SKIPPED. -/
theorem test_waiterProceedsOrIsSkipped :
    (after .gapLimit (waitingOn 4 (answered (.reply [9]) (txn 4 .sending)))).part.board.completions.map (fun c => (c.slot, c.result.outcome)) =
      [(7, .ok), (8, .ok), (11, .ok)] ∧
    ((after .gapLimit (waitingOn 4 (answered (.reply [9]) (txn 4 .sending)))).part.unitAt 5).map (·.factors.forced) = some true ∧
    (after (.deadlineExpiry 4) (waitingOn 4 (overdue .pending))).part.board.completions.map (fun c => (c.slot, c.result.outcome)) =
      [(7, .deadline), (11, .skipped)] := by decide +kernel

theorem witness_EligibilityAndTokensAreJudged :
    busy.unitAt 5 = some polled ∧ busy.unitAt 7 = none ∧ busy.eligibleHead 5 = some (txn 4 .pending) ∧ 6 ∈ busy.tokensInUse 5 polled ∧
    busy.choiceStands { unit := 5, kind := .command 4, cls := .command, since := 0 } = true := by decide +kernel

/-! ## Values the spec gives -/

/-- R59, R191: a byte on the line: the start bit, the data bits from the least significant one on, the stop bit. -/
theorem test_characterOnTheLine :
    characterBits 0x7E = [false, false, true, true, true, true, true, true, false, true] ∧
    frameBits [0x01, 0x80] = [false, true, false, false, false, false, false, false, false, true,
                              false, false, false, false, false, false, false, false, true, true] := by decide +kernel

/-- R61: the check values of the two CRCs over the digits 1 to 9. -/
theorem test_checksOfTheLine :
    crc8 [0x31, 0x32, 0x33, 0x34, 0x35, 0x36, 0x37, 0x38, 0x39] = 0xF4 ∧
    crc16 [0x31, 0x32, 0x33, 0x34, 0x35, 0x36, 0x37, 0x38, 0x39] = 0x29B1 := by decide +kernel

/-- R191: the fields of a frame header stand where the table puts them. -/
theorem test_frameHeaderRoundTrip :
    (headerOf 8 5 11 42 24).bytes = [0x01, 0x62, 0xDD, 0x58] ∧ FrameHeader.ofBytes 0x01 0x62 0xDD 0x58 = headerOf 8 5 11 42 24 := by
  decide +kernel

/-! ## Well-formedness: an ill-formed term for each check -/

theorem test_wellFormed_refuses :
    (Instr.unknownCommand 4).wellFormed = false ∧ (Instr.registerWrite 4 0).wellFormed = false ∧ (Instr.headerChecks []).wellFormed = false ∧
    (Instr.restarted []).wellFormed = false ∧ (Instr.sweep []).wellFormed = false ∧ (Instr.enroll dismissSlot).wellFormed = false ∧
    (Instr.dismiss enrollSlot).wellFormed = false ∧ (Instr.hold enrollSlot).wellFormed = false ∧ (Instr.declare enrollSlot).wellFormed = false ∧
    (Instr.retire enrollSlot).wellFormed = false ∧ (Instr.clear enrollSlot).wellFormed = false ∧ (Instr.transact enrollSlot).wellFormed = false ∧
    (Instr.sync enrollSlot).wellFormed = false ∧ (Instr.abort enrollSlot).wellFormed = false ∧ (Instr.lend enrollSlot).wellFormed = false ∧
    (Instr.cut enrollSlot).wellFormed = false ∧ (Instr.badKind cutSlot).wellFormed = false ∧ (Instr.doneWritePerformed 64).wellFormed = false ∧
    (Instr.pollDue 0).wellFormed = false ∧ (Instr.rollCallDue 31).wellFormed = false ∧ (Instr.readback ([], false)).wellFormed = false ∧
    (Instr.frameHeader [] false).wellFormed = false ∧ (Instr.report [1]).wellFormed = false ∧
    (Instr.reply [1, 2]).wellFormed = false ∧ (Instr.refuse []).wellFormed = false ∧ (Instr.result [1]).wellFormed = false ∧
    (Instr.announce [1]).wellFormed = false ∧ (Instr.garbled [] false).wellFormed = false ∧ (Instr.settleTimerExpiry 31).wellFormed = false ∧
    (Instr.staleTimerExpiry 192).wellFormed = false ∧ (Instr.reservationExpiry 5 0).wellFormed = false ∧
    (Instr.reservationExpiry 0 1).wellFormed = false ∧ (Instr.passedOver 1).wellFormed = false := by decide +kernel

theorem test_wellFormed_accepts :
    (Instr.enroll enrollSlot).wellFormed = true ∧ (Instr.cut cutSlot).wellFormed = true ∧ (Instr.report (withCheck [1, 2])).wellFormed = true ∧
    (Instr.staleTimerExpiry 191).wellFormed = true ∧ (Instr.reservationExpiry 30 15).wellFormed = true := by decide +kernel

end Sys2Proof.Tests
end

/-! SUPPORT. Control, start-up and the service line: which CONTROL commands a part accepts (R168), what each one, accepted or refused, makes of the
Run Controller and of the Service Unit, and the level of SVCREQ (R182); with them the statements O10 and O17. -/

namespace Sys2Proof.Machine

/-! ## The part states that decide about a command -/

theorem Part.started_iff {p : Part} :
    p.started = true ↔ p.run.partState = .starting ∨ p.run.partState = .running ∨ p.run.partState = .draining := by
  simp [Part.started, or_assoc]

theorem Part.not_started_iff {p : Part} :
    p.started = false ↔ p.run.partState = .idle ∨ p.run.partState = .stopped ∨ p.run.partState = .halted := by
  unfold Part.started
  cases p.run.partState <;> decide

/-- R168: START is accepted exactly where HALT is refused. -/
theorem Part.acceptsStart_eq_not_started (p : Part) : p.acceptsStart = !p.started := by
  unfold Part.acceptsStart Part.started
  cases p.run.partState <;> rfl

/-- R154: a window is held in every part state but IDLE and HALTED. -/
theorem Part.windowHeld_iff {p : Part} : p.windowHeld = true ↔ p.run.partState ≠ .idle ∧ p.run.partState ≠ .halted := by
  unfold Part.windowHeld Part.started
  cases p.run.partState <;> decide

theorem Part.windowHeld_of_started {p : Part} (h : p.started = true) : p.windowHeld = true := by
  simp [Part.windowHeld, h]

/-! ## The answer to each command, accepted or not (R168, R175, R178) -/

theorem exec_start_refused {s : State} (h : s.part.started = true) : exec .start s = .next (s.onPart Part.refuseCommand) := by
  simp [exec, execStart, State.onPart, Part.acceptsStart_eq_not_started, h]

theorem exec_start_accepted {s : State} (h : s.part.started = false) : exec .start s = .next (s.onPart Part.beginStart) := by
  simp [exec, execStart, State.onPart, Part.acceptsStart_eq_not_started, h]

theorem exec_stop_refused {s : State} (h : s.part.run.partState ≠ .running) : exec .stop s = .next (s.onPart Part.refuseCommand) :=
  if_neg h

theorem exec_stop_accepted {s : State} (h : s.part.run.partState = .running) :
    exec .stop s = .next (s.onBlocks fun p => p.beginDrain.settle) :=
  if_pos h

theorem exec_halt_refused {s : State} (h : s.part.started = false) (k : Nat) : exec (.halt k) s = .next (s.onPart Part.refuseCommand) :=
  if_neg (by simp [h])

theorem exec_halt_accepted {s : State} (h : s.part.started = true) (k : Nat) :
    exec (.halt k) s = .next ((s.perform k).onPart fun p =>
      Part.enterHalted .hostHalt { p.countAbandoned with run := { p.countAbandoned.run with refused := false } }) :=
  if_pos h

theorem exec_busError_taken {s : State} {k : Nat} (hw : s.part.windowHeld = true) (hf : (s.perform k).part.port.fifo ≠ []) :
    exec (.busError k) s = .next ((s.perform k).onPart fun p => p.countAbandoned.enterHalted .busError) :=
  if_pos (by simp [hw, hf])

theorem exec_busError_ignored {s : State} (h : s.part.windowHeld = false) (k : Nat) : exec (.busError k) s = .next s :=
  if_neg (by simp [h])

theorem exec_reset (k : Nat) (s : State) : exec (.reset k) s = .next ((s.perform k).onPart Part.softReset) := by rfl

theorem exec_pinReset (k : Nat) (s : State) : exec (.pinReset k) s = .next ((s.perform k).onPart fun _ => Part.reset) := by rfl

theorem exec_unknownCommand_refused {v : Word} (h : ¬ (1 ≤ v.toNat % 256 ∧ v.toNat % 256 ≤ 4)) (s : State) :
    exec (.unknownCommand v) s = .next (s.onPart Part.refuseCommand) := by
  simp only [exec, execUnknownCommand, State.onPart, h, if_false]

/-! ## What an accepted command makes of the Run Controller and of the Service Unit -/

@[simp] theorem Part.enterHalted_partState (c : HaltCause) (p : Part) : (p.enterHalted c).run.partState = .halted := by rfl
@[simp] theorem Part.enterHalted_haltCause (c : HaltCause) (p : Part) : (p.enterHalted c).run.haltCause = c := by rfl
@[simp] theorem Part.enterHalted_refused (c : HaltCause) (p : Part) : (p.enterHalted c).run.refused = p.run.refused := by rfl
@[simp] theorem Part.enterHalted_summary (c : HaltCause) (p : Part) : (p.enterHalted c).svc.summary = p.svc.summary ||| bitState := by rfl
@[simp] theorem Part.enterHalted_enables (c : HaltCause) (p : Part) : (p.enterHalted c).svc.enables = p.svc.enables := by rfl

theorem Part.enterHalted_not_started (c : HaltCause) (p : Part) : (p.enterHalted c).started = false := by rfl
theorem Part.enterHalted_holds_no_window (c : HaltCause) (p : Part) : (p.enterHalted c).windowHeld = false := by rfl

@[simp] theorem Part.enterStarting_partState (p : Part) : p.enterStarting.run.partState = .starting := by rfl
@[simp] theorem Part.enterStarting_refused (p : Part) : p.enterStarting.run.refused = false := by rfl
@[simp] theorem Part.enterStarting_summary (p : Part) : p.enterStarting.svc.summary = 0 := by rfl
@[simp] theorem Part.enterStarting_enables (p : Part) : p.enterStarting.svc.enables = p.svc.enables := by rfl

/-- R169, R170: a START on a valid base enters STARTING; the read of the header touches neither the Run Controller nor the Service Unit. -/
theorem Part.beginStart_of_valid {p : Part} (h : p.run.winbase.toNat ≤ Config.maxWindowBase) :
    p.beginStart.run = p.enterStarting.run ∧ p.beginStart.svc = p.enterStarting.svc := by
  have hb : p.beginStart = p.enterStarting.submit .runController [headerRead p.enterStarting.base] := if_neg (by omega)
  obtain ⟨hrun, hsvc, -⟩ := p.enterStarting.submit_same .runController [headerRead p.enterStarting.base]
  exact ⟨hb ▸ hrun, hb ▸ hsvc⟩

/-- R170: a START on an invalid base halts in the same row. -/
theorem Part.beginStart_of_invalid {p : Part} (h : Config.maxWindowBase < p.run.winbase.toNat) :
    p.beginStart = p.enterStarting.enterHalted .windowInvalid :=
  if_pos h

/-- R168, R169: an accepted START clears REFUSED and leaves the part in STARTING or HALTED, SVCEN as it was. -/
theorem Part.beginStart_facts (p : Part) :
    p.beginStart.run.refused = false ∧ (p.beginStart.run.partState = .starting ∨ p.beginStart.run.partState = .halted) ∧
    p.beginStart.svc.enables = p.svc.enables := by
  rcases Nat.lt_or_ge Config.maxWindowBase p.run.winbase.toNat with h | h
  · simp [Part.beginStart_of_invalid h]
  · obtain ⟨hrun, hsvc⟩ := Part.beginStart_of_valid h
    simp [hrun, hsvc]

theorem Part.beginDrain_run_facts (p : Part) : p.beginDrain.run.refused = false ∧ p.beginDrain.run.partState = .draining := ⟨rfl, rfl⟩

/-- R168: settling, and with it the end of a drain, leaves REFUSED alone. -/
theorem Part.settle_refused (p : Part) : p.settle.run.refused = p.run.refused := by
  obtain ⟨-, -, -, ⟨-, hrun⟩ | ⟨-, hrun⟩⟩ := p.settle_facts <;> rw [hrun]

theorem Part.settle_partState (p : Part) : p.settle.run.partState = p.run.partState := by
  obtain ⟨-, -, hstate, -⟩ := p.settle_facts
  exact hstate

/-! ## CONTROL (R168) -/

/-- R168, R175: a HALT taken first leaves the part in HALTED with the host's cause, and a bus error behind it is ignored. -/
theorem exec_halt_then_busError {s : State} (h : s.part.started = true) (k : Nat) :
    ∃ t, exec (.halt k) s = .next t ∧ t.part.run.refused = false ∧ t.part.run.partState = .halted ∧ t.part.run.haltCause = .hostHalt ∧
      ∀ j : Nat, exec (.busError j) t = .next t :=
  ⟨_, exec_halt_accepted h k, rfl, rfl, rfl, exec_busError_ignored (Part.enterHalted_holds_no_window _ _)⟩

/-- R168, R175: a bus error taken first leaves the part in HALTED with its own cause, and a HALT behind it is refused. -/
theorem exec_busError_then_halt {s : State} (h : s.part.started = true) {k : Nat} (hf : (s.perform k).part.port.fifo ≠ []) (j : Nat) :
    ∃ t, exec (.busError k) s = .next t ∧ t.part.run.partState = .halted ∧ t.part.run.haltCause = .busError ∧
      exec (.halt j) t = .next (t.onPart Part.refuseCommand) :=
  ⟨_, exec_busError_taken (Part.windowHeld_of_started h) hf, rfl, rfl, exec_halt_refused (Part.enterHalted_not_started _ _) j⟩

/-- R168, R172: an accepted STOP clears REFUSED and enters DRAINING, whether or not the drain ends with it. -/
theorem exec_stop_drains {s : State} (h : s.part.run.partState = .running) :
    ∃ t, exec .stop s = .next t ∧ t.part.run.refused = false ∧ t.part.run.partState = .draining := by
  obtain ⟨hrefused, hstate⟩ := s.awaitRoom.part.beginDrain_run_facts
  exact ⟨_, exec_stop_accepted h, (Part.settle_refused _).trans hrefused, (Part.settle_partState _).trans hstate⟩

/-- Settles O10: every clause is the answer to one command in the part states that accept it, or in those that refuse it. -/
theorem controlCommandsAreAcceptedOrRefused : Obligations.ControlCommandsAreAcceptedOrRefused := by
  intro s
  refine ⟨fun h => ?startRefused, fun h => ?startAccepted, ?stopRefused, ?stopAccepted, fun k h => ?haltRefused, fun k h => ?haltFirst,
    fun k j h hf => ?errorFirst, fun k => ?reset, fun v h => ?unknown⟩
  case startRefused => exact exec_start_refused (Part.started_iff.mpr h)
  case startAccepted =>
    obtain ⟨hrefused, hstate, -⟩ := s.part.beginStart_facts
    exact ⟨_, exec_start_accepted (Part.not_started_iff.mpr h), hrefused, hstate⟩
  case stopRefused => exact exec_stop_refused
  case stopAccepted => exact exec_stop_drains
  case haltRefused => exact exec_halt_refused (Part.not_started_iff.mpr h) k
  case haltFirst => exact exec_halt_then_busError (Part.started_iff.mpr h) k
  case errorFirst => exact exec_busError_then_halt (Part.started_iff.mpr h) hf j
  case reset => exact ⟨_, exec_reset k s, rfl, rfl⟩
  case unknown => exact exec_unknownCommand_refused (by omega) s

/-! ## The level of SVCREQ (R182) -/

theorem and_ne_zero_iff_common_bit {w : Nat} (x y : BitVec w) :
    x &&& y ≠ 0 ↔ ∃ i : Nat, i < w ∧ x.getLsbD i = true ∧ y.getLsbD i = true := by
  rw [Ne, BitVec.eq_of_getLsbD_eq_iff]
  simp

/-- R182: SVCREQn is low exactly while some bit is both set and enabled. -/
theorem State.svcreqn_eq_false_iff (s : State) :
    s.svcreqn = false ↔ ∃ i : Nat, i < 5 ∧ s.part.svc.summary.getLsbD i = true ∧ s.part.svc.enables.getLsbD i = true := by
  rw [← and_ne_zero_iff_common_bit]
  simp [State.svcreqn, Part.svcreqActive]

theorem State.svcreqn_of_summary_zero {s : State} (h : s.part.svc.summary = 0) : s.svcreqn = true := by
  simp [State.svcreqn, Part.svcreqActive, h]

/-- R182, R184: bits 4 to 0 of a value written to SVCEN are what stands in it. -/
theorem getLsbD_setWidth_five (v : Word) {i : Nat} (h : i < 5) : (v.setWidth 5).getLsbD i = v.getLsbD i := by
  simp [h]

theorem exec_svcen (v : Word) (s : State) :
    exec (.svcen v) s = .next (s.onPart fun p => { p with svc := { p.svc with enables := v.setWidth 5 } }) := by rfl

/-- R182: a write to SVCEN acts on SVCREQ with the write. -/
theorem exec_svcen_sets_level (v : Word) (s : State) :
    ∃ t : State, exec (.svcen v) s = .next t ∧ t.part.svc = { s.part.svc with enables := v.setWidth 5 } ∧
      (t.svcreqn = false ↔ ∃ i : Nat, i < 5 ∧ s.part.svc.summary.getLsbD i = true ∧ v.getLsbD i = true) := by
  refine ⟨_, exec_svcen v s, rfl, (State.svcreqn_eq_false_iff _).trans (exists_congr fun i => and_congr_right fun hi => ?_)⟩
  show _ ∧ (v.setWidth 5).getLsbD i = true ↔ _
  rw [getLsbD_setWidth_five v hi]
  rfl

/-! ## SVCPEND (R181, R154, R184) -/

/-- R184: the summary stands in the low bits of SVCPEND, below the swap count. -/
theorem Part.readRegister_svcpend_getLsbD (p : Part) {i : Nat} (h : i < 5) :
    (p.readRegister 0x14).getLsbD i = p.svc.summary.getLsbD i := by
  have hr : p.readRegister 0x14 = p.svc.swapCount ++ p.svc.summary.setWidth 16 := by rfl
  have hi : i < 16 := by omega
  rw [hr, BitVec.getLsbD_append, if_pos hi, BitVec.getLsbD_setWidth, decide_eq_true hi, Bool.true_and]

theorem BankId.other_eq_ite (b : BankId) : b.other = if b = .bank0 then .bank1 else .bank0 := by cases b <;> rfl

/-- R181: the bits written 1 leave the summary. -/
def Part.acknowledge (v : Word) (p : Part) : Part := { p with svc := { p.svc with summary := p.svc.summary &&& ~~~(v.setWidth 5) } }

/-- R154: an acknowledgement that names DIRECTORY or UNIT while a window is held takes a swap. -/
theorem exec_svcpend_swap {v : Word} {s : State} (hbits : v.getLsbD 1 = true ∨ v.getLsbD 2 = true) (hw : s.part.windowHeld = true) :
    exec (.svcpend v) s = .next (s.onPart fun p => (p.acknowledge v).takeSwap) := by
  have hc : ((v.getLsbD 1 || v.getLsbD 2) && s.part.windowHeld) = true := by simpa [hw] using hbits
  simp only [exec, execSvcpend, State.onPart, hc, if_true]
  rfl

theorem exec_svcpend_noSwap {v : Word} {s : State} (h : ¬ ((v.getLsbD 1 = true ∨ v.getLsbD 2 = true) ∧ s.part.windowHeld = true)) :
    exec (.svcpend v) s = .next (s.onPart (Part.acknowledge v)) := by
  have hc : ¬ ((v.getLsbD 1 || v.getLsbD 2) && s.part.windowHeld) = true := by simpa using h
  simp only [exec, execSvcpend, State.onPart, hc]
  rfl

/-! ## The summary at a START (R169, R170) -/

/-- R169, R181: an accepted START clears the summary, and the halt on an invalid base hands on STATE behind it. -/
theorem Part.beginStart_summary (p : Part) :
    p.beginStart.svc.summary = if Config.maxWindowBase < p.run.winbase.toNat then bitState else 0 := by
  split
  · next h => simp [Part.beginStart_of_invalid h]
  · next h =>
    obtain ⟨-, hsvc⟩ := Part.beginStart_of_valid (Nat.le_of_not_lt h)
    simp [hsvc]

/-- Settles O17: an acknowledgement with and without a swap, the level of SVCREQ, and the summary that each reset and a START leave. -/
theorem acknowledgementsClearTheSummary : Obligations.AcknowledgementsClearTheSummary := by
  intro s v
  refine ⟨?acknowledge, s.svcreqn_eq_false_iff, exec_svcen_sets_level v s, fun i => s.part.readRegister_svcpend_getLsbD,
    fun k => ⟨_, exec_reset k s, rfl, rfl, State.svcreqn_of_summary_zero rfl⟩,
    fun k => ⟨_, exec_pinReset k s, rfl, rfl, State.svcreqn_of_summary_zero rfl⟩, fun h => ?start⟩
  case acknowledge =>
    split
    · next h =>
      obtain ⟨hbits, hstate⟩ := h
      rw [exec_svcpend_swap hbits (Part.windowHeld_iff.mpr hstate), ← BankId.other_eq_ite]
      rfl
    · next h => exact exec_svcpend_noSwap fun ⟨hbits, hw⟩ => h ⟨hbits, Part.windowHeld_iff.mp hw⟩
  case start =>
    obtain ⟨-, -, henables⟩ := s.part.beginStart_facts
    have hsummary := s.part.beginStart_summary
    refine ⟨_, exec_start_accepted (Part.not_started_iff.mpr h), henables, fun hvalid => ?_, fun hinvalid => ?_⟩
    · have hzero : s.part.beginStart.svc.summary = 0 := hsummary.trans (if_neg (Nat.not_lt.mpr hvalid))
      exact ⟨hzero, State.svcreqn_of_summary_zero hzero⟩
    · exact hsummary.trans (if_pos hinvalid)

end Sys2Proof.Machine

section
/-! SUPPORT. What the blocks raise in the Window Port besides the sweep (R112, R113, R174): a member of the accesses outstanding after a step was so before, or is
one of those raised; of the reads, those of bank words alone are raised by a block that is not sweeping. -/

namespace Sys2Proof.Machine

/-! ## The accesses outstanding after a step -/

theorem WindowPort.park_mem {a : Access} {b : Block} {l : List Item} {w : WindowPort} (h : a ∈ (w.park b l).outstanding) :
    a ∈ w.outstanding ∨ .access a ∈ l := by
  have hitem : ∀ {m : List Item}, a ∈ (m.filterMap fun | .access a => some a | .hand _ => none) → .access a ∈ m := fun {m} hm => by
    obtain ⟨x, hx, he⟩ := List.mem_filterMap.mp hm
    cases x with
    | access y =>
      obtain rfl := Option.some.inj he
      exact hx
    | hand y => exact absurd he (by simp)
  have hback : ∀ {m : List Item}, .access a ∈ m → a ∈ (m.filterMap fun | .access a => some a | .hand _ => none) := fun hm =>
    List.mem_filterMap.mpr ⟨_, hm, rfl⟩
  unfold WindowPort.outstanding WindowPort.park at *
  split at h
  · rcases List.mem_append.mp h with h | h
    · exact .inl (List.mem_append_left _ h)
    · obtain ⟨e, he, ha⟩ := List.mem_flatMap.mp h
      obtain ⟨e', he', rfl⟩ := List.mem_map.mp he
      split at ha
      · rcases List.mem_append.mp (hitem ha) with ha | ha
        · exact .inl (List.mem_append_right _ (List.mem_flatMap.mpr ⟨e', he', hback ha⟩))
        · exact .inr ha
      · exact .inl (List.mem_append_right _ (List.mem_flatMap.mpr ⟨e', he', ha⟩))
  · rcases List.mem_append.mp h with h | h
    · exact .inl (List.mem_append_left _ h)
    · obtain ⟨e, he, ha⟩ := List.mem_flatMap.mp h
      rcases List.mem_append.mp he with he | he
      · exact .inl (List.mem_append_right _ (List.mem_flatMap.mpr ⟨e, he, ha⟩))
      · rw [List.mem_singleton.mp he] at ha
        exact .inr (hitem ha)

theorem WindowPort.push_mem {a c : Access} {w : WindowPort} (h : a ∈ (w.push c).outstanding) : a ∈ w.outstanding ∨ a = c := by
  unfold WindowPort.outstanding WindowPort.push at *
  simp only [List.mem_append, List.mem_singleton] at h ⊢
  tauto

theorem WindowPort.submit_mem {a : Access} {b : Block} {l : List Access} {w : WindowPort} (h : a ∈ (w.submit b l).outstanding) : a ∈ w.outstanding ∨ a ∈ l := by
  have haccess : ∀ {m : List Access}, Item.access a ∈ m.map Item.access → a ∈ m := fun hm => by
    obtain ⟨x, hx, e⟩ := List.mem_map.mp hm
    rwa [← Item.access.inj e]
  have hfree : ∀ {l : List Access} {w : WindowPort}, a ∈ (WindowPort.submitFree b l w).outstanding → a ∈ w.outstanding ∨ a ∈ l := fun {l} => by
    induction l with
    | nil => exact fun h => .inl h
    | cons x rest ih =>
      intro w h
      unfold WindowPort.submitFree at h
      split at h
      · rcases ih h with h | h
        · exact (WindowPort.push_mem h).imp id fun e => by rw [e]; exact List.mem_cons_self
        · exact .inr (List.mem_cons_of_mem _ h)
      · exact (WindowPort.park_mem h).imp id haccess
  unfold WindowPort.submit at h
  split at h
  · exact (WindowPort.park_mem h).imp id haccess
  · exact hfree h

/-! ## The sweep left alone -/

/-- A write, or the read of a bank word: an access that a block raises outside a start and a sweep. -/
def Access.ofBlocks : Access → Bool
  | .read what _ _ => what == .bankWord
  | .write .. => true

/-- Handed on, or such an access. -/
def Item.ofBlocks : Item → Bool
  | .access a => a.ofBlocks
  | .hand _ => true

/-- From `w` to `w'` no sweep has come to stand behind a wait, and of the reads those of bank words alone have been raised. -/
structure WindowPort.LeavesSweep (w w' : WindowPort) : Prop where
  later : .sweepOn ∈ w'.later → .sweepOn ∈ w.later
  reads : ∀ a ∈ w'.outstanding, a ∈ w.outstanding ∨ a.ofBlocks = true

theorem WindowPort.LeavesSweep.refl (w : WindowPort) : w.LeavesSweep w := ⟨id, fun _ => .inl⟩

theorem WindowPort.LeavesSweep.trans {w w' w'' : WindowPort} (h : w.LeavesSweep w') (h' : w'.LeavesSweep w'') : w.LeavesSweep w'' :=
  ⟨h.later ∘ h'.later, fun a ha => (h'.reads a ha).elim (h.reads a) .inr⟩

theorem WindowPort.push_leavesSweep {a : Access} (ha : a.ofBlocks = true) (w : WindowPort) : w.LeavesSweep (w.push a) :=
  ⟨id, fun _ hx => (WindowPort.push_mem hx).imp id (by rintro rfl; exact ha)⟩

theorem WindowPort.park_leavesSweep {l : List Item} (hl : l.all Item.ofBlocks = true) (b : Block) (w : WindowPort) : w.LeavesSweep (w.park b l) :=
  ⟨fun h => by rwa [WindowPort.park_later] at h, fun x hx => (WindowPort.park_mem hx).imp id fun hm => List.all_eq_true.mp hl (.access x) hm⟩

theorem WindowPort.submit_leavesSweep {l : List Access} (hl : l.all Access.ofBlocks = true) (b : Block) (w : WindowPort) : w.LeavesSweep (w.submit b l) :=
  ⟨fun h => by rwa [WindowPort.submit_later] at h, fun _ hx => (WindowPort.submit_mem hx).imp id fun hm => List.all_eq_true.mp hl _ hm⟩

theorem WindowPort.setLater_leavesSweep {l : List Work} {w : WindowPort} (h : .sweepOn ∈ l → .sweepOn ∈ w.later) : w.LeavesSweep { w with later := l } :=
  ⟨h, fun _ => .inl⟩

/-- The records of the sweep, and the next take sequence. -/
def BoardController.sweepState (b : BoardController) : SweepPhase × Bool × Option Word × Nat × Word × Nat :=
  (b.sweep, b.sweepAgain, b.sweepTimer, b.origin, b.sweepCount, b.nextSeq)

/-- From `p` to `q` nothing has been taken and no sweep has started, gone on or ended. -/
structure Part.LeavesSweep (p q : Part) : Prop where
  portSweep : p.port.LeavesSweep q.port
  sweepState : q.board.sweepState = p.board.sweepState

theorem Part.LeavesSweep.refl (p : Part) : p.LeavesSweep p := ⟨.refl _, rfl⟩

theorem Part.LeavesSweep.trans {p q r : Part} (h : p.LeavesSweep q) (h' : q.LeavesSweep r) : p.LeavesSweep r :=
  ⟨h.portSweep.trans h'.portSweep, h'.sweepState.trans h.sweepState⟩

/-- A change of neither the port nor the sweep. -/
theorem Part.LeavesSweep.of_same {p q : Part} (hp : q.port = p.port := by rfl) (hb : q.board.sweepState = p.board.sweepState := by rfl) : p.LeavesSweep q :=
  ⟨hp ▸ .refl _, hb⟩

/-- The writes of a mirror, and behind them perhaps a bank bit. -/
theorem mirrorItems_ofBlocks (rewrite : Bool) (addr : Nat) (v : BitVec 64) (body : List Byte) (bit : Bool) (m : MapKind) (i : Nat) :
    ((if rewrite = true then mirrorWrites addr v body else []).map Item.access ++ (if bit = true then [Item.hand (.bankBit m i)] else [])).all Item.ofBlocks = true := by
  cases rewrite <;> cases bit <;> rfl

theorem Completion.writes_ofBlocks (base : Nat) (c : Completion) : (c.writes base).all Access.ofBlocks = true := rfl

theorem bankRead_ofBlocks (v : ServiceUnit) (base : Nat) : (v.bankRead base).all Access.ofBlocks = true := by
  unfold ServiceUnit.bankRead
  split <;> rfl

end Sys2Proof.Machine
end

section
/-! SUPPORT. What the work of the blocks can only add to: the accesses raised and waiting (R174), the completions on their way (R122), the queue of bank updates
(R153); and what it cannot take on: a transaction or a page that was not there, a request newly held for a predecessor, a SYNC with nothing to wait for (R100). -/

namespace Sys2Proof.Machine

/-! ## The port only grows -/

/-- A block that waits goes on waiting, with further items behind those it has. -/
def WaitEntry.Extends (e e' : WaitEntry) : Prop := e'.block = e.block ∧ e.items <+: e'.items

theorem WaitEntry.Extends.refl (e : WaitEntry) : e.Extends e := ⟨rfl, List.prefix_refl _⟩

theorem WaitEntry.Extends.trans {e e' e'' : WaitEntry} (h : e.Extends e') (h' : e'.Extends e'') : e.Extends e'' :=
  ⟨h'.1.trans h.1, h.2.trans h'.2⟩

/-- The second list begins with the entries of the first in their order, each extended. -/
def WaitEntry.ListExtends : List WaitEntry → List WaitEntry → Prop
  | [], _ => True
  | _ :: _, [] => False
  | e :: l, e' :: l' => e.Extends e' ∧ ListExtends l l'

theorem WaitEntry.ListExtends.refl (l : List WaitEntry) : WaitEntry.ListExtends l l := by
  induction l with
  | nil => trivial
  | cons e l ih => exact ⟨.refl e, ih⟩

theorem WaitEntry.ListExtends.append (l n : List WaitEntry) : WaitEntry.ListExtends l (l ++ n) := by
  induction l with
  | nil => trivial
  | cons e l ih => exact ⟨.refl e, ih⟩

theorem WaitEntry.ListExtends.map {f : WaitEntry → WaitEntry} (hf : ∀ e : WaitEntry, e.Extends (f e)) (l : List WaitEntry) :
    WaitEntry.ListExtends l (l.map f) := by
  induction l with
  | nil => trivial
  | cons e l ih => exact ⟨hf e, ih⟩

theorem WaitEntry.ListExtends.trans {l l' l'' : List WaitEntry} (h : WaitEntry.ListExtends l l') (h' : WaitEntry.ListExtends l' l'') :
    WaitEntry.ListExtends l l'' := by
  induction l generalizing l' l'' with
  | nil => trivial
  | cons e l ih =>
    match l', l'' with
    | [], _ => exact h.elim
    | _ :: _, [] => exact h'.elim
    | _ :: _, _ :: _ => exact ⟨h.1.trans h'.1, ih h.2 h'.2⟩

theorem WaitEntry.ListExtends.mem {l l' : List WaitEntry} (h : WaitEntry.ListExtends l l') {e : WaitEntry} (he : e ∈ l) :
    ∃ e' ∈ l', e.Extends e' := by
  induction l generalizing l' with
  | nil => exact absurd he List.not_mem_nil
  | cons x l ih =>
    match l' with
    | [] => exact h.elim
    | y :: l' =>
      rcases List.mem_cons.mp he with rfl | he
      · exact ⟨y, List.mem_cons_self, h.1⟩
      · obtain ⟨e', he', hx⟩ := ih h.2 he
        exact ⟨e', List.mem_cons_of_mem _ he', hx⟩

/-- The accesses among the items that wait, in their order. -/
def WaitEntry.accesses (l : List WaitEntry) : List Access :=
  l.flatMap fun e => e.items.filterMap fun
    | .access a => some a
    | .hand _ => none

theorem WaitEntry.ListExtends.accesses {l l' : List WaitEntry} (h : WaitEntry.ListExtends l l') :
    (WaitEntry.accesses l).Sublist (WaitEntry.accesses l') := by
  induction l generalizing l' with
  | nil => exact List.nil_sublist _
  | cons e l ih =>
    match l' with
    | [] => exact h.elim
    | e' :: l' => exact (h.1.2.sublist.filterMap _).append (ih h.2)

theorem WindowPort.outstanding_eq (w : WindowPort) : w.outstanding = w.reports ++ w.fifo ++ WaitEntry.accesses w.waiting := by
  rfl

/-- From `w` to `w'` accesses have been raised or wait behind those that did, and nothing has been performed; the Transaction Engine and the Line Controller, which
raise no access of their own, do not begin to wait. -/
structure WindowPort.Grows (w w' : WindowPort) : Prop where
  reports : w'.reports = w.reports
  fifo : w.fifo <+: w'.fifo
  waiting : WaitEntry.ListExtends w.waiting w'.waiting
  engine : w.waits .transactionEngine = false → w'.waits .transactionEngine = false
  line : w.waits .lineController = false → w'.waits .lineController = false

/-- The blocks that raise accesses, and so may come to wait for room. -/
def Block.raises : Block → Bool
  | .transactionEngine | .lineController => false
  | .runController | .boardController | .unitManager | .directoryEngine | .journalWriter | .serviceUnit => true

theorem WindowPort.Grows.refl (w : WindowPort) : w.Grows w := ⟨rfl, List.prefix_refl _, .refl _, id, id⟩

theorem WindowPort.Grows.trans {w w' w'' : WindowPort} (h : w.Grows w') (h' : w'.Grows w'') : w.Grows w'' :=
  ⟨h'.reports.trans h.reports, h.fifo.trans h'.fifo, h.waiting.trans h'.waiting, fun x => h'.engine (h.engine x), fun x => h'.line (h.line x)⟩

theorem WindowPort.Grows.of_eq {w w' : WindowPort} (hr : w'.reports = w.reports := by rfl) (hf : w'.fifo = w.fifo := by rfl)
    (hw : w'.waiting = w.waiting := by rfl) : w.Grows w' := by
  refine ⟨hr, by rw [hf], by rw [hw]; exact .refl _, ?_, ?_⟩ <;> simp only [WindowPort.waits, hw, imp_self]

theorem WindowPort.Grows.waiting_ne_nil {w w' : WindowPort} (h : w.Grows w') (hw : w.waiting ≠ []) : w'.waiting ≠ [] := by
  intro e
  obtain ⟨x, l, hx⟩ := List.exists_cons_of_ne_nil hw
  have := h.waiting
  rw [hx, e] at this
  exact this

theorem WindowPort.Grows.waiting_nil {w w' : WindowPort} (h : w.Grows w') (hw : w'.waiting = []) : w.waiting = [] :=
  Classical.not_not.mp fun e => h.waiting_ne_nil e hw

theorem WindowPort.Grows.outstanding {w w' : WindowPort} (h : w.Grows w') : w.outstanding.Sublist w'.outstanding := by
  rw [w.outstanding_eq, w'.outstanding_eq, h.reports]
  exact ((List.Sublist.refl _).append h.fifo.sublist).append h.waiting.accesses

theorem WindowPort.push_grows (a : Access) (w : WindowPort) : w.Grows (w.push a) :=
  ⟨rfl, List.prefix_append _ _, .refl _, id, id⟩

theorem WindowPort.waits_iff {w : WindowPort} {b : Block} : w.waits b = true ↔ ∃ e ∈ w.waiting, e.block = b := by
  simp [WindowPort.waits]

theorem WindowPort.park_waits {b c : Block} (h : c ≠ b) (l : List Item) (w : WindowPort) : (w.park b l).waits c = w.waits c := by
  unfold WindowPort.park
  split
  · simp only [WindowPort.waits, List.any_map]
    congr 1
    funext e
    simp only [Function.comp]
    split <;> rfl
  · simp [WindowPort.waits, h.symm]

/-- R174: a block's items join those it has, or begin to wait behind the other blocks. -/
theorem WindowPort.park_grows {b : Block} (hb : b.raises = true ∨ w.waits b = true) (l : List Item) : WindowPort.Grows w (w.park b l) := by
  have hother : ∀ c : Block, c.raises = false → w.waits c = false → (w.park b l).waits c = false := by
    intro c hc hw
    rw [WindowPort.park_waits _ l w]
    · exact hw
    · rintro rfl
      rcases hb with hb | hb
      · rw [hc] at hb; exact absurd hb (by decide)
      · rw [hw] at hb; exact absurd hb (by decide)
  refine ⟨?_, by rw [WindowPort.park_fifo], ?_, hother _ rfl, hother _ rfl⟩
  · unfold WindowPort.park; split <;> rfl
  · unfold WindowPort.park
    split
    · refine .map (fun e => ?_) _
      split
      · exact ⟨rfl, List.prefix_append _ _⟩
      · exact .refl e
    · exact .append _ _

theorem WindowPort.submitFree_grows {b : Block} (hb : b.raises = true) (l : List Access) (w : WindowPort) :
    w.Grows (WindowPort.submitFree b l w) := by
  induction l generalizing w with
  | nil => exact .refl w
  | cons a rest ih =>
    unfold WindowPort.submitFree
    split
    · exact (w.push_grows a).trans (ih _)
    · exact WindowPort.park_grows (.inl hb) _

theorem WindowPort.submit_grows {b : Block} (hb : b.raises = true) (l : List Access) (w : WindowPort) : w.Grows (w.submit b l) := by
  unfold WindowPort.submit
  split
  · exact WindowPort.park_grows (.inl hb) _
  · exact WindowPort.submitFree_grows hb l w

/-! ### Accesses that a block raises are outstanding -/

theorem WaitEntry.accesses_append (l : List WaitEntry) (e : WaitEntry) :
    WaitEntry.accesses (l ++ [e]) = WaitEntry.accesses l ++ WaitEntry.accesses [e] := by
  simp only [WaitEntry.accesses, List.flatMap_append]

theorem WaitEntry.accesses_of_mem {l : List WaitEntry} {e : WaitEntry} (h : e ∈ l) : (WaitEntry.accesses [e]).Sublist (WaitEntry.accesses l) := by
  obtain ⟨a, b, rfl⟩ := List.append_of_mem h
  simp only [WaitEntry.accesses, List.flatMap_append, List.flatMap_cons, List.flatMap_nil, List.append_nil]
  exact (List.sublist_append_left _ _).trans (List.sublist_append_right _ _)

theorem WaitEntry.accesses_singleton (b : Block) (m : List Item) (l : List Access) :
    WaitEntry.accesses [{ block := b, items := m ++ l.map Item.access }] = WaitEntry.accesses [{ block := b, items := m }] ++ l := by
  simp only [WaitEntry.accesses, List.flatMap_cons, List.flatMap_nil, List.append_nil, List.filterMap_append]
  congr 1
  induction l with
  | nil => rfl
  | cons a rest ih => simp only [List.map_cons, List.filterMap_cons, ih]

theorem WindowPort.park_accesses (b : Block) (l : List Access) (w : WindowPort) :
    l.Sublist (WaitEntry.accesses (w.park b (l.map Item.access)).waiting) := by
  unfold WindowPort.park
  split
  · next h =>
    obtain ⟨e, he, hb⟩ := WindowPort.waits_iff.mp h
    have hmem : ({ block := e.block, items := e.items ++ l.map Item.access } : WaitEntry) ∈
        w.waiting.map fun e => if e.block == b then { e with items := e.items ++ l.map Item.access } else e :=
      List.mem_map.mpr ⟨e, he, by simp [hb]⟩
    refine List.Sublist.trans ?_ (WaitEntry.accesses_of_mem hmem)
    rw [WaitEntry.accesses_singleton]
    exact List.sublist_append_right _ _
  · have h := WaitEntry.accesses_singleton b [] l
    rw [List.nil_append] at h
    rw [WaitEntry.accesses_append, h]
    exact (List.sublist_append_right _ _).trans (List.sublist_append_right _ _)

theorem WindowPort.submitFree_sublist (b : Block) (l : List Access) (w : WindowPort) : (w.fifo ++ l).Sublist (WindowPort.submitFree b l w).outstanding := by
  induction l generalizing w with
  | nil =>
    rw [WindowPort.submitFree, List.append_nil, WindowPort.outstanding_eq]
    exact (List.sublist_append_right _ _).trans (List.sublist_append_left _ _)
  | cons a rest ih =>
    unfold WindowPort.submitFree
    split
    · have h := ih (w.push a)
      rwa [show (w.push a).fifo = w.fifo ++ [a] from rfl, List.append_assoc] at h
    · rw [WindowPort.outstanding_eq, WindowPort.park_fifo]
      exact (List.sublist_append_right _ _).append (w.park_accesses b (a :: rest))

/-- R174: what a block raises is raised or waits. -/
theorem WindowPort.submit_sublist (b : Block) (l : List Access) (w : WindowPort) : l.Sublist (w.submit b l).outstanding := by
  unfold WindowPort.submit
  split
  · rw [WindowPort.outstanding_eq]
    exact (w.park_accesses b l).trans (List.sublist_append_right _ _)
  · exact (List.sublist_append_right _ _).trans (w.submitFree_sublist b l)

/-! ## What a row's work adds -/

/-- R122: where no completion was on its way, the two writes of the first that has come are raised, or wait for room. -/
def Part.RaisesFirst (p q : Part) : Prop :=
  p.board.completions = [] → ∀ (c : Completion) (rest : List Completion), q.board.completions = c :: rest → (c.writes p.base).Sublist q.port.outstanding

theorem Part.RaisesFirst.of_eq {p q : Part} (h : q.board.completions = p.board.completions) : p.RaisesFirst q := fun hp c rest hq => by
  rw [h, hp] at hq
  exact absurd hq (List.cons_ne_nil c rest).symm

/-- From `p` to `q` blocks have worked: the port has grown, completions have come behind those on their way and updates behind those in the bank queue; the run goes
on with its window and its clock; no SYNC has come to wait that has nothing to wait for. -/
structure Part.Works (p q : Part) : Prop where
  port : p.port.Grows q.port
  completions : p.board.completions <+: q.board.completions
  bankQueue : p.svc.bankQueue <+: q.svc.bankQueue
  activeBank : q.svc.activeBank = p.svc.activeBank
  window : q.run.window = p.run.window
  clock : q.run.clock = p.run.clock
  syncs : ∀ y ∈ q.te.syncs, y ∈ p.te.syncs ∨ y.ready = false
  first : p.RaisesFirst q

theorem Part.Works.refl (p : Part) : p.Works p :=
  ⟨.refl _, List.prefix_refl _, List.prefix_refl _, rfl, rfl, rfl, fun _ => .inl, .of_eq rfl⟩

theorem Part.Works.base {p q : Part} (h : p.Works q) : q.base = p.base := by unfold Part.base; rw [h.window]

theorem Part.Works.trans {p q r : Part} (h : p.Works q) (h' : q.Works r) : p.Works r := by
  refine ⟨h.port.trans h'.port, h.completions.trans h'.completions, h.bankQueue.trans h'.bankQueue, h'.activeBank.trans h.activeBank,
   h'.window.trans h.window, h'.clock.trans h.clock, fun y hy => (h'.syncs y hy).elim (h.syncs y) .inr, fun hp c rest hr => ?_⟩
  cases hq : q.board.completions with
  | nil => exact h.base ▸ h'.first hq c rest hr
  | cons c' rest' =>
    have hc := h'.completions
    rw [hq, hr, List.cons_prefix_cons] at hc
    exact hc.1 ▸ (h.first hp c' rest' hq).trans h'.port.outstanding

/-- No transaction, no page and no request held for a predecessor has been taken on: those of `q` are those of `p`. -/
structure Part.Adopts (p q : Part) : Prop where
  pool : (q.te.pool.map (·.seq)).Sublist (p.te.pool.map (·.seq))
  pages : (q.jw.pages.map (·.seq)).Sublist (p.jw.pages.map (·.seq))
  next : p.board.nextSeq ≤ q.board.nextSeq ∨ q.jw.pages = []
  held : ∀ h ∈ q.board.held, ∃ x ∈ p.board.held, (h.owner = .boardController → x.owner = .boardController) ∧ x.seq = h.seq ∧ x.req = h.req

theorem Part.Adopts.refl (p : Part) : p.Adopts p :=
  ⟨List.Sublist.refl _, List.Sublist.refl _, .inl (le_refl _), fun h hh => ⟨h, hh, id, rfl, rfl⟩⟩

theorem Part.Adopts.trans {p q r : Part} (h : p.Adopts q) (h' : q.Adopts r) : p.Adopts r := by
  refine ⟨h'.pool.trans h.pool, h'.pages.trans h.pages, ?_, fun x hx => ?_⟩
  · rcases h'.next with n' | n'
    · rcases h.next with n | n
      · exact .inl (n.trans n')
      · have hp := h'.pages
        rw [n] at hp
        exact .inr (List.map_eq_nil_iff.mp (List.sublist_nil.mp hp))
    · exact .inr n'
  · obtain ⟨y, hy, oy, sy, ry⟩ := h'.held x hx
    obtain ⟨z, hz, oz, sz, rz⟩ := h.held y hy
    exact ⟨z, hz, oz ∘ oy, sz.trans sy, rz.trans ry⟩

/-- Work that takes nothing on. -/
structure Part.Carries (p q : Part) : Prop extends Part.Works p q, Part.Adopts p q

theorem Part.Carries.refl (p : Part) : p.Carries p := ⟨.refl p, .refl p⟩

theorem Part.Carries.trans {p q r : Part} (h : p.Carries q) (h' : q.Carries r) : p.Carries r :=
  ⟨h.toWorks.trans h'.toWorks, h.toAdopts.trans h'.toAdopts⟩

/-- A row's work that takes nothing on and leaves the sweep alone. -/
structure Part.Serves (p q : Part) : Prop extends Part.Carries p q, Part.LeavesSweep p q

theorem Part.Serves.refl (p : Part) : p.Serves p := ⟨.refl p, .refl p⟩

theorem Part.Serves.trans {p q r : Part} (h : p.Serves q) (h' : q.Serves r) : p.Serves r :=
  ⟨h.toCarries.trans h'.toCarries, h.toLeavesSweep.trans h'.toLeavesSweep⟩

theorem Part.Serves.foldl {α : Type} {f : Part → α → Part} (h : ∀ (p : Part) (x : α), p.Serves (f p x)) (l : List α) (p : Part) :
    p.Serves (l.foldl f p) := by
  induction l generalizing p with
  | nil => exact .refl p
  | cons x rest ih => exact (h p x).trans (ih _)

/-- A change of the port, and of fields that the relation does not speak of. -/
theorem Part.Carries.of_port {p q : Part} (hp : p.port.Grows q.port) (hr : q.run = p.run := by rfl) (hs : q.svc.bankQueue = p.svc.bankQueue := by rfl)
    (ha : q.svc.activeBank = p.svc.activeBank := by rfl) (hb : q.board = p.board := by rfl) (ht : q.te = p.te := by rfl)
    (hj : q.jw.pages = p.jw.pages := by rfl) : p.Carries q := by
  refine ⟨⟨hp, by rw [hb], by rw [hs], ha, by rw [hr], by rw [hr], fun y hy => .inl (ht ▸ hy), .of_eq (by rw [hb])⟩,
    ⟨by rw [ht], by rw [hj], .inl (by rw [hb]), fun h hh => ⟨h, hb ▸ hh, id, rfl, rfl⟩⟩⟩

theorem Part.Serves.of_port {p q : Part} (hp : p.port.Grows q.port) (hl : p.port.LeavesSweep q.port) (hr : q.run = p.run := by rfl)
    (hs : q.svc.bankQueue = p.svc.bankQueue := by rfl) (ha : q.svc.activeBank = p.svc.activeBank := by rfl) (hb : q.board = p.board := by rfl)
    (ht : q.te = p.te := by rfl) (hj : q.jw.pages = p.jw.pages := by rfl) : p.Serves q :=
  ⟨.of_port hp hr hs ha hb ht hj, hl, by rw [hb]⟩

/-- A change of the Board Controller alone that adds no record and no completion. -/
theorem Part.setBoard_carries (b : BoardController) (p : Part) (hc : b.completions = p.board.completions) (hn : b.nextSeq = p.board.nextSeq)
    (hh : ∀ h ∈ b.held, ∃ x ∈ p.board.held, (h.owner = .boardController → x.owner = .boardController) ∧ x.seq = h.seq ∧ x.req = h.req) :
    p.Carries { p with board := b } :=
  ⟨⟨.refl _, by rw [hc], List.prefix_refl _, rfl, rfl, rfl, fun _ => .inl, .of_eq hc⟩, ⟨List.Sublist.refl _, List.Sublist.refl _, .inl hn.ge, hh⟩⟩

theorem Part.setBoard_serves (b : BoardController) (p : Part) (hc : b.completions = p.board.completions)
    (hs : b.sweepState = p.board.sweepState)
    (hh : ∀ h ∈ b.held, ∃ x ∈ p.board.held, (h.owner = .boardController → x.owner = .boardController) ∧ x.seq = h.seq ∧ x.req = h.req) :
    p.Serves { p with board := b } :=
  ⟨p.setBoard_carries b hc (by simp only [BoardController.sweepState, Prod.mk.injEq] at hs; exact hs.2.2.2.2.2) hh, .refl _, hs⟩

/-- A change of the Transaction Engine alone that adds no transaction and no SYNC that is ready. -/
theorem Part.setEngine_serves (e : TransactionEngine) (p : Part) (hp : (e.pool.map (·.seq)).Sublist (p.te.pool.map (·.seq)))
    (hs : ∀ y ∈ e.syncs, y ∈ p.te.syncs ∨ y.ready = false) : p.Serves { p with te := e } :=
  ⟨⟨⟨.refl _, List.prefix_refl _, List.prefix_refl _, rfl, rfl, rfl, hs, .of_eq rfl⟩,
   ⟨hp, List.Sublist.refl _, .inl (le_refl _), fun h hh => ⟨h, hh, id, rfl, rfl⟩⟩⟩, .of_same⟩

/-! ## Raising and completing -/

theorem Part.submit_carries {b : Block} (hb : b.raises = true) (l : List Access) (p : Part) : p.Carries (p.submit b l) :=
  .of_port (WindowPort.submit_grows hb l p.port)

theorem Part.submit_serves {b : Block} (hb : b.raises = true) {l : List Access} (hl : l.all Access.ofBlocks = true) (p : Part) : p.Serves (p.submit b l) :=
  .of_port (WindowPort.submit_grows hb l p.port) (WindowPort.submit_leavesSweep hl b p.port)

/-- A change of the Service Unit's totals followed by accesses raised. -/
theorem Part.takeFault_serves (f : FaultRecord) (p : Part) : p.Serves (p.takeFault f) :=
  .of_port (WindowPort.submit_grows rfl _ p.port) (WindowPort.submit_leavesSweep rfl _ p.port)

theorem Part.takeJournalLoss_serves (p : Part) : p.Serves p.takeJournalLoss :=
  .of_port (WindowPort.submit_grows rfl _ p.port) (WindowPort.submit_leavesSweep rfl _ p.port)

theorem Part.takeUnadmitted_serves (p : Part) : p.Serves p.takeUnadmitted :=
  .of_port (WindowPort.submit_grows rfl _ p.port) (WindowPort.submit_leavesSweep rfl _ p.port)

theorem Part.setBankQueue_serves (l : List BankItem) (p : Part) :
    p.Serves { p with svc := { p.svc with bankQueue := p.svc.bankQueue ++ l } } :=
  ⟨⟨⟨.refl _, List.prefix_refl _, List.prefix_append _ _, rfl, rfl, rfl, fun _ => .inl, .of_eq rfl⟩,
   ⟨List.Sublist.refl _, List.Sublist.refl _, .inl (le_refl _), fun h hh => ⟨h, hh, id, rfl, rfl⟩⟩⟩, .of_same⟩

theorem Part.takeBankBit_serves (m : MapKind) (i : Nat) (p : Part) : p.Serves (p.takeBankBit m i) := by
  unfold Part.takeBankBit
  dsimp only
  split
  · exact (p.setBankQueue_serves _).trans (Part.submit_serves rfl (bankRead_ofBlocks _ _) _)
  · exact p.setBankQueue_serves _

theorem Part.writeCompletion_serves (n : Nat) (u : Bool) (r : Result) (p : Part) : p.Serves (p.writeCompletion n u r) := by
  have hadopts : ∀ w : WindowPort,
      p.Adopts { p with board := { p.board with completions := p.board.completions ++ [⟨n, u, r, p.run.clock⟩] }, port := w } := fun w =>
    ⟨List.Sublist.refl _, List.Sublist.refl _, .inl (le_refl _), fun h hh => ⟨h, hh, id, rfl, rfl⟩⟩
  unfold Part.writeCompletion
  dsimp only
  split
  · refine ⟨⟨⟨WindowPort.submit_grows rfl _ p.port, List.prefix_append _ _, List.prefix_refl _, rfl, rfl, rfl, fun _ => .inl, fun hp c rest hc => ?_⟩,
      hadopts _⟩, WindowPort.submit_leavesSweep (Completion.writes_ofBlocks _ _) _ p.port, rfl⟩
    obtain ⟨rfl, _⟩ := List.cons.inj ((congrArg (· ++ [_]) hp).symm.trans hc)
    exact WindowPort.submit_sublist _ _ p.port
  · next hne =>
    exact ⟨⟨⟨.refl _, List.prefix_append _ _, List.prefix_refl _, rfl, rfl, rfl, fun _ => .inl, fun hp => absurd (List.isEmpty_iff.mpr hp) hne⟩,
      hadopts _⟩, .of_same⟩

/-- Records freed. -/
theorem Part.filterHeld_serves (f : HeldRequest → Bool) (p : Part) :
    p.Serves { p with board := { p.board with held := p.board.held.filter f } } :=
  Part.setBoard_serves _ p rfl rfl fun h hh => ⟨h, List.mem_of_mem_filter hh, id, rfl, rfl⟩

theorem Part.completeSlot_serves (n : Nat) (r : Result) (p : Part) : p.Serves (p.completeSlot n r) := by
  unfold Part.completeSlot
  split
  · exact .refl p
  · exact (p.filterHeld_serves _).trans (Part.writeCompletion_serves _ _ _ _)

theorem Part.noteFinish_serves (n : Nat) (b x : Bool) (p : Part) : p.Serves (p.noteFinish n b x) :=
  Part.setBoard_serves _ p rfl rfl fun h hh => ⟨h, hh, id, rfl, rfl⟩

theorem Part.completeRequest_serves (n : Nat) (r : Result) (p : Part) : p.Serves (p.completeRequest n r) := by
  unfold Part.completeRequest
  split
  · exact .refl p
  · exact (p.completeSlot_serves n r).trans (Part.noteFinish_serves _ _ _ _)

theorem Part.deliver_serves (h : Handover) (p : Part) : p.Serves (p.deliver h) := by
  cases h with
  | bankBit m i => exact p.takeBankBit_serves m i
  | fault f => exact p.takeFault_serves f
  | journalLoss => exact p.takeJournalLoss_serves
  | unadmitted => exact p.takeUnadmitted_serves
  | complete n r => exact p.completeRequest_serves n r

/-- The item is handed on, and so needs no room. -/
def Item.handed : Item → Bool
  | .hand _ => true
  | .access _ => false

theorem Item.handed_ofBlocks {l : List Item} (h : l.all Item.handed = true) : l.all Item.ofBlocks = true :=
  List.all_eq_true.mpr fun i hi => by
    cases i with
    | hand x => rfl
    | access a => exact absurd (List.all_eq_true.mp h _ hi) (by simp [Item.handed])

/-- Items that the relation allows the block `b` to raise. -/
def Item.Raisable (b : Block) (l : List Item) : Prop := (b.raises = true ∧ l.all Item.ofBlocks = true) ∨ l.all Item.handed = true

theorem Item.Raisable.ofBlocks {b : Block} {l : List Item} (h : Item.Raisable b l) : l.all Item.ofBlocks = true := h.elim And.right Item.handed_ofBlocks

theorem Item.Raisable.tail {b : Block} {i : Item} {l : List Item} (h : Item.Raisable b (i :: l)) : Item.Raisable b l :=
  h.imp (fun h => ⟨h.1, (Bool.and_eq_true_iff.mp (List.all_cons ▸ h.2)).2⟩) fun h => (Bool.and_eq_true_iff.mp (List.all_cons ▸ h)).2

theorem Part.raiseFree_serves {b : Block} {l : List Item} (hb : Item.Raisable b l) (p : Part) : p.Serves (Part.raiseFree b l p) := by
  induction l generalizing p with
  | nil => exact .refl p
  | cons i rest ih =>
    cases i with
    | hand h => exact (p.deliver_serves h).trans (ih hb.tail _)
    | access a =>
      have hb' : b.raises = true := hb.elim And.left fun h => absurd (Bool.and_eq_true_iff.mp (List.all_cons ▸ h)).1 (by simp [Item.handed])
      have ha : a.ofBlocks = true := List.all_eq_true.mp hb.ofBlocks (.access a) List.mem_cons_self
      unfold Part.raiseFree
      split
      · exact (Part.Serves.of_port (q := { p with port := p.port.push a }) (p.port.push_grows a) (WindowPort.push_leavesSweep ha p.port)).trans (ih hb.tail _)
      · exact .of_port (WindowPort.park_grows (.inl hb') _) (WindowPort.park_leavesSweep hb.ofBlocks _ _)

theorem Part.raise_serves {b : Block} {l : List Item} (hb : Item.Raisable b l) (p : Part) : p.Serves (Part.raise b l p) := by
  unfold Part.raise
  split
  · next h => exact .of_port (WindowPort.park_grows (.inr h) _) (WindowPort.park_leavesSweep hb.ofBlocks _ _)
  · exact Part.raiseFree_serves hb p

theorem Part.finishRequest_serves (b : Block) (n : Nat) (r : Result) (p : Part) : p.Serves (p.finishRequest b n r) :=
  Part.raise_serves (.inr rfl) p

/-! ## Units -/

/-- A change of the Unit Manager alone. -/
theorem Part.setUnits_serves (u : UnitManager) (p : Part) : p.Serves { p with um := u } := .of_port (.refl _) (.refl _)

/-- A change of the Directory Engine alone. -/
theorem Part.setDirectory_serves (d : DirectoryEngine) (p : Part) : p.Serves { p with dir := d } := .of_port (.refl _) (.refl _)

/-- A change of the Line Controller alone. -/
theorem Part.setLine_serves (l : LineController) (p : Part) : p.Serves { p with line := l } := .of_port (.refl _) (.refl _)

/-- A change of the work that stands behind a wait. -/
theorem Part.setLater_carries (l : List Work) (p : Part) : p.Carries { p with port := { p.port with later := l } } := .of_port .of_eq

theorem Part.setLater_serves {l : List Work} {p : Part} (h : .sweepOn ∈ l → .sweepOn ∈ p.port.later) : p.Serves { p with port := { p.port with later := l } } :=
  .of_port .of_eq (WindowPort.setLater_leavesSweep h)

theorem Part.putUnit_serves (a : Nat) (new : Option FieldUnit) (f : Bool) (p : Part) : p.Serves (p.putUnit a new f) := by
  unfold Part.putUnit
  split
  · exact (p.setUnits_serves _).trans (Part.raise_serves (.inl ⟨rfl, mirrorItems_ofBlocks _ _ _ _ _ _ _⟩) _)
  · exact .refl p

theorem Part.updateUnit_serves (a : Nat) (f : FieldUnit → FieldUnit) (p : Part) : p.Serves (p.updateUnit a f) := by
  unfold Part.updateUnit
  split
  · exact p.putUnit_serves _ _ _
  · exact .refl p

theorem Part.doEnroll_serves (n : Nat) (r : List Byte) (p : Part) : p.Serves (p.doEnroll n r) := by
  unfold Part.doEnroll
  split <;> exact (p.putUnit_serves _ _ _).trans (Part.finishRequest_serves _ _ _ _)

theorem Part.doHold_serves (n : Nat) (r : List Byte) (p : Part) : p.Serves (p.doHold n r) := by
  unfold Part.doHold
  split
  · exact p.finishRequest_serves _ _ _
  · exact (p.putUnit_serves _ _ _).trans (Part.finishRequest_serves _ _ _ _)

theorem Part.takeAnnounce_serves (a : Nat) (g : BitVec 3) (c : Half) (d : Nat) (p : Part) : p.Serves (p.takeAnnounce a g c d) := by
  unfold Part.takeAnnounce
  split
  · exact .refl p
  · split
    · exact p.putUnit_serves _ _ _
    · exact .refl p

theorem Part.removeUnit_serves (a : Nat) (p : Part) : p.Serves (p.removeUnit a) := by
  unfold Part.removeUnit
  dsimp only
  split
  · split
    · exact ((p.putUnit_serves _ _ _).trans (Part.setUnits_serves _ _)).trans (Part.finishRequest_serves _ _ _ _)
    · exact p.putUnit_serves _ _ _
  · exact p.putUnit_serves _ _ _

theorem Part.unitTurnEnd_serves (a : Nat) (k : TurnKind) (o : TurnOutcome) (p : Part) : p.Serves (p.unitTurnEnd a k o) := by
  unfold Part.unitTurnEnd
  split
  · exact .refl p
  · split
    · exact p.removeUnit_serves a
    · exact p.putUnit_serves _ _ _

theorem Part.lineCondition_serves (f : Bool) (a : Nat) (p : Part) : p.Serves (p.lineCondition f a) := by
  unfold Part.lineCondition
  split
  · exact .refl p
  · split
    · exact .refl p
    · exact p.putUnit_serves _ _ _

theorem Part.reportLineFault_serves (f : Bool) (p : Part) : p.Serves (p.reportLineFault f) :=
  Part.Serves.foldl (fun q a => q.lineCondition_serves f a) _ p

theorem Part.countUnadmitted_serves (a : Nat) (p : Part) : p.Serves (p.countUnadmitted a) := by
  unfold Part.countUnadmitted
  split
  · exact p.putUnit_serves _ _ _
  · exact .refl p

/-! ## Journal -/

/-- A change of the Journal Writer alone that adds no page. -/
theorem Part.setJournal_serves (j : JournalWriter) (p : Part) (h : (j.pages.map (·.seq)).Sublist (p.jw.pages.map (·.seq))) :
    p.Serves { p with jw := j } :=
  ⟨⟨⟨.refl _, List.prefix_refl _, List.prefix_refl _, rfl, rfl, rfl, fun _ => .inl, .of_eq rfl⟩,
   ⟨List.Sublist.refl _, h, .inl (le_refl _), fun h hh => ⟨h, hh, id, rfl, rfl⟩⟩⟩, .of_same⟩

theorem JournalWriter.passOn_sublist (j : JournalWriter) (l : List Page) : (j.passOn l).1.pages.Sublist l := by
  induction l with
  | nil => exact List.Sublist.refl _
  | cons g rest ih =>
    unfold JournalWriter.passOn
    split
    · exact ih.cons g
    · exact List.Sublist.refl _

theorem JournalWriter.completeOpen_sublist (o : ReqOutcome) (j : JournalWriter) : (j.completeOpen o).1.pages.Sublist j.pages := by
  unfold JournalWriter.completeOpen
  split
  · next g rest _ hp _ => rw [hp]; exact (j.passOn_sublist rest).cons g
  · exact List.Sublist.refl _

theorem JournalWriter.passOn_ofBlocks (j : JournalWriter) (l : List Page) : (j.passOn l).2.all Item.ofBlocks = true := by
  induction l with
  | nil => rfl
  | cons g rest ih =>
    unfold JournalWriter.passOn
    split
    · exact ih
    · rfl

theorem JournalWriter.completeOpen_ofBlocks (o : ReqOutcome) (j : JournalWriter) : (j.completeOpen o).2.all Item.ofBlocks = true := by
  unfold JournalWriter.completeOpen
  split
  · exact JournalWriter.passOn_ofBlocks _ _
  · rfl

theorem JournalWriter.drainItems_ofBlocks (j : JournalWriter) : j.drainItems.all Item.ofBlocks = true := by
  have hrest : ∀ l : List Page, (l.map Page.drainItem).all Item.ofBlocks = true := fun l => by
    rw [List.all_map]
    exact List.all_eq_true.mpr fun _ _ => rfl
  unfold JournalWriter.drainItems
  split
  · exact hrest _
  · exact hrest _

theorem Part.completePage_serves (o : ReqOutcome) (p : Part) : p.Serves (p.completePage o) :=
  (Part.setJournal_serves _ p ((JournalWriter.completeOpen_sublist o p.jw).map _)).trans (Part.raise_serves (.inl ⟨rfl, p.jw.completeOpen_ofBlocks o⟩) _)

theorem Part.loseRecord_serves (rec : JournalRecord) (p : Part) : p.Serves (p.loseRecord rec) :=
  (Part.setJournal_serves _ p (by exact List.Sublist.refl _)).trans (Part.raise_serves (.inr (by split <;> rfl)) _)

theorem Part.placeRecord_serves (rec : JournalRecord) (p : Part) : p.Serves (p.placeRecord rec) := by
  unfold Part.placeRecord
  split
  · exact (Part.setJournal_serves _ p (by exact List.Sublist.refl _)).trans (Part.raise_serves (.inl ⟨rfl, rfl⟩) _)
  · exact p.loseRecord_serves rec

theorem Part.takeRecord_serves (rec : JournalRecord) (p : Part) : p.Serves (p.takeRecord rec) := by
  unfold Part.takeRecord
  split
  · exact (p.completePage_serves _).trans (Part.placeRecord_serves _ _)
  · exact p.placeRecord_serves rec

theorem Part.doCut_serves (n : Nat) (p : Part) : p.Serves (p.doCut n) := by
  unfold Part.doCut
  split
  · split
    · exact Part.raise_serves (.inl ⟨rfl, rfl⟩) p
    · exact (p.completePage_serves _).trans (Part.raise_serves (.inl ⟨rfl, rfl⟩) _)
  · exact Part.raise_serves (.inl ⟨rfl, rfl⟩) p

theorem Part.withdrawPage_serves (n : Nat) (p : Part) : p.Serves (p.withdrawPage n) := by
  unfold Part.withdrawPage
  split
  · next g rest _ hp _ =>
    split
    · exact p.completePage_serves _
    · refine Part.setJournal_serves _ p ?_
      have hmap : (rest.map fun x => if x.seq = n then { x with withdrawn := true } else x).map (·.seq) = rest.map (·.seq) := by
        rw [List.map_map]
        exact List.map_congr_left fun x _ => by simp only [Function.comp]; split <;> rfl
      simp only [hp, List.map_cons, hmap]
      exact List.Sublist.refl _
  · exact .refl p

theorem Part.drainJournal_serves (p : Part) : p.Serves p.drainJournal :=
  (Part.setJournal_serves _ p (by exact List.nil_sublist _)).trans (Part.raise_serves (.inl ⟨rfl, p.jw.drainItems_ofBlocks⟩) _)

/-! ## Directory -/

theorem Part.putEntry_serves (n : Nat) (new : Option Entry) (f : Bool) (p : Part) : p.Serves (p.putEntry n new f) := by
  unfold Part.putEntry
  split
  · exact (p.setDirectory_serves _).trans (Part.raise_serves (.inl ⟨rfl, mirrorItems_ofBlocks _ _ _ _ _ _ _⟩) _)
  · exact .refl p

theorem Part.doDeclare_serves (n : Nat) (r : List Byte) (p : Part) : p.Serves (p.doDeclare n r) := by
  unfold Part.doDeclare
  dsimp only
  split
  · split
    · exact (p.putEntry_serves _ _ _).trans (Part.finishRequest_serves _ _ _ _)
    · exact .refl p
  · split
    · exact (p.putEntry_serves _ _ _).trans (Part.finishRequest_serves _ _ _ _)
    · exact p.finishRequest_serves _ _ _

theorem Part.retireEntry_serves (n : Nat) (p : Part) : p.Serves (p.retireEntry n) := by
  unfold Part.retireEntry
  split
  · exact p.putEntry_serves _ _ _
  · exact .refl p

theorem Part.doRetire_serves (n : Nat) (r : List Byte) (p : Part) : p.Serves (p.doRetire n r) := by
  unfold Part.doRetire
  split
  · exact (p.retireEntry_serves _).trans (Part.finishRequest_serves _ _ _ _)
  · exact p.finishRequest_serves _ _ _

theorem Part.clearNumber_serves (a b : Bool) (n : Nat) (p : Part) : p.Serves (p.clearNumber a b n) := by
  unfold Part.clearNumber
  split
  · exact p.putEntry_serves _ _ _
  · exact .refl p

theorem Part.doClear_serves (n : Nat) (r : List Byte) (p : Part) : p.Serves (p.doClear n r) :=
  (Part.Serves.foldl (fun q n => q.clearNumber_serves _ _ n) _ p).trans (Part.finishRequest_serves _ _ _ _)

theorem Part.retireUnit_serves (a : Nat) (p : Part) : p.Serves (p.retireUnit a) :=
  Part.Serves.foldl (fun q n => q.retireEntry_serves n) _ p

theorem Part.changeClear_serves (n : Nat) (p : Part) : p.Serves (p.changeClear n) := by
  unfold Part.changeClear
  split
  · exact p.putEntry_serves _ _ _
  · exact .refl p

theorem Part.changeClearUnit_serves (a : Nat) (p : Part) : p.Serves (p.changeClearUnit a) :=
  Part.Serves.foldl (fun q n => q.changeClear_serves n) _ p

theorem Part.onceFree_serves {w : Work} {act : Part → Part} {p : Part} (h : p.Serves (act p)) (hw : w ≠ .sweepOn := by simp) :
    p.Serves (p.onceFree w act) := by
  unfold Part.onceFree
  split
  · exact h
  · exact Part.setLater_serves fun hm => (List.mem_append.mp hm).elim id fun hm => absurd (List.mem_singleton.mp hm).symm hw

theorem Part.handRecord_serves (r : JournalRecord) (p : Part) : p.Serves (p.handRecord r) := Part.onceFree_serves (p.takeRecord_serves r)

theorem Part.storeArrival_serves (n : Nat) (e : Entry) (c : List Byte) (b : Bool) (p : Part) : p.Serves (p.storeArrival n e c b) := by
  unfold Part.storeArrival
  dsimp only
  split
  · exact (p.putEntry_serves _ _ _).trans (Part.handRecord_serves _ _)
  · exact p.putEntry_serves _ _ _

theorem Part.admitArrival_serves (n : Nat) (k : Key) (c : List Byte) (p : Part) : p.Serves (p.admitArrival n k c) := by
  unfold Part.admitArrival
  dsimp only
  split
  · exact (p.putEntry_serves _ _ _).trans (Part.handRecord_serves _ _)
  · exact p.putEntry_serves _ _ _

theorem Part.leaveUnadmitted_serves (k : Key) (p : Part) : p.Serves (p.leaveUnadmitted k) :=
  (p.countUnadmitted_serves _).trans (Part.raise_serves (.inl ⟨rfl, rfl⟩) _)

theorem Part.takeArrival_serves (k : Key) (c : List Byte) (p : Part) : p.Serves (p.takeArrival k c) := by
  unfold Part.takeArrival
  split
  · exact .refl p
  · split
    · split
      · split
        · split
          · exact p.putEntry_serves _ _ _
          · exact p.storeArrival_serves _ _ _ _
        · exact p.storeArrival_serves _ _ _ _
      · exact .refl p
    · split
      · exact p.admitArrival_serves _ _ _
      · exact p.leaveUnadmitted_serves k

/-! ## Transactions -/

/-- A change of transaction records that keeps their take sequences. -/
theorem Part.mapTxn_serves (n : Nat) (f : Transaction → Transaction) (p : Part) (hf : ∀ t, (f t).seq = t.seq) : p.Serves (p.mapTxn n f) := by
  refine Part.setEngine_serves _ p ?_ fun _ => .inl
  rw [List.map_map]
  have : (fun t : Transaction => t.seq) ∘ (fun t => if t.seq = n then f t else t) = fun t => t.seq := by
    funext t
    simp only [Function.comp]
    split
    · exact hf t
    · rfl
  rw [this]

theorem Part.endSync_serves (y : SyncRecord) (o : ReqOutcome) (p : Part) : p.Serves (p.endSync y o) :=
  (Part.setEngine_serves { p.te with syncs := p.te.syncs.filter fun x => x.seq != y.seq } p (List.Sublist.refl _)
    fun _ h => .inl (List.mem_of_mem_filter h)).trans (Part.completeRequest_serves _ _ _)

theorem Part.endSyncs_serves (ys : List SyncRecord) (p : Part) : p.Serves (p.endSyncs ys) :=
  Part.Serves.foldl (fun q y => q.endSync_serves y .ok) _ p

theorem Part.reserveToken_serves (t : Transaction) (e : Ending) (p : Part) : p.Serves (p.reserveToken t e) := by
  unfold Part.reserveToken
  split
  · split
    · exact .refl p
    · exact p.updateUnit_serves _ _
  · exact .refl p

theorem Part.reportEnding_serves (t : Transaction) (e : Ending) (p : Part) : p.Serves (p.reportEnding t e) := by
  unfold Part.reportEnding
  split
  · exact p.completeSlot_serves _ _
  · split
    · exact .refl p
    · exact Part.raise_serves (.inr rfl) p

theorem Part.without_serves (n : Nat) (p : Part) : p.Serves (p.without n) :=
  Part.setEngine_serves _ p (by exact List.filter_sublist.map _) fun _ => .inl

theorem Part.finishTxn_serves (t : Transaction) (e : Ending) (p : Part) : p.Serves (p.finishTxn t e) :=
  (((p.without_serves t.seq).trans (Part.reserveToken_serves t e _)).trans (Part.reportEnding_serves t e _)).trans
    (Part.noteFinish_serves _ _ _ _)

theorem Part.finishAll_serves (ts : List Transaction) (o : ReqOutcome) (p : Part) : p.Serves (p.finishAll ts o) :=
  Part.Serves.foldl (fun q t => q.finishTxn_serves t _) _ p

theorem Part.markSending_serves (t : Transaction) (k : Nat) (p : Part) : p.Serves (p.markSending t k) :=
  (Part.mapTxn_serves t.seq (fun x => { x with token := some k, sends := saturate 255 x.sends, state := .sending }) p fun _ => rfl).trans
    (Part.updateUnit_serves _ _ _)

/-- ABORTs leave the Transaction Engine. -/
theorem Part.setAborts_serves (l : List WaitingAbort) (p : Part) : p.Serves { p with te := { p.te with aborts := l } } :=
  Part.setEngine_serves _ p (List.Sublist.refl _) fun _ => .inl

theorem Part.endAborts_serves (n : Nat) (o : ReqOutcome) (p : Part) : p.Serves (p.endAborts n o) :=
  Part.Serves.foldl (fun q (_ : WaitingAbort) => (q.setAborts_serves _).trans (Part.completeRequest_serves _ _ _)) _ p

theorem Part.countDismissed_serves (a : Nat) (p : Part) : p.Serves (p.countDismissed a) := by
  unfold Part.countDismissed
  split
  · split
    · exact p.setUnits_serves _
    · exact .refl p
  · exact .refl p

theorem Part.settleCommand_serves (n : Nat) (a : Answer) (p : Part) : p.Serves (p.settleCommand n a) := by
  unfold Part.settleCommand
  split
  · exact .refl p
  · split
    · exact .refl p
    · split
      · dsimp only
        split
        · exact ((p.countDismissed_serves _).trans (Part.finishTxn_serves _ _ _)).trans (Part.endAborts_serves _ _ _)
        · exact (p.finishTxn_serves _ _).trans (Part.endAborts_serves _ _ _)
      · exact p.mapTxn_serves n _ fun _ => rfl
      · exact p.mapTxn_serves n _ fun _ => rfl

theorem Part.takeResult_serves (a k c : Nat) (l : List Byte) (p : Part) : p.Serves (p.takeResult a k c l) := by
  unfold Part.takeResult
  split
  · exact .refl p
  · split
    · exact .refl p
    · split
      · exact (p.finishTxn_serves _ _).trans (Part.updateUnit_serves _ _ _)
      · split
        · exact ((p.updateUnit_serves _ _).trans (Part.raise_serves (.inr rfl) _)).trans (Part.updateUnit_serves _ _ _)
        · split
          · exact p.updateUnit_serves _ _
          · exact Part.raise_serves (.inr rfl) p

theorem Part.abortItem_serves (n : Nat) (t : AbortTarget) (p : Part) : p.Serves (p.abortItem n t) := by
  cases t with
  | nothing => exact p.completeRequest_serves _ _
  | abort => exact p.completeRequest_serves _ _
  | sync y => exact (p.endSync_serves _ _).trans (Part.completeRequest_serves _ _ _)
  | held m => exact (p.completeRequest_serves _ _).trans (Part.completeRequest_serves _ _ _)
  | dismiss d => exact ((p.setUnits_serves _).trans (Part.completeRequest_serves _ _ _)).trans (Part.completeRequest_serves _ _ _)
  | lend m => exact (p.withdrawPage_serves _).trans (Part.finishRequest_serves _ _ _ _)
  | txn t =>
    unfold Part.abortItem
    dsimp only
    split
    · exact (p.finishTxn_serves _ _).trans (Part.completeRequest_serves _ _ _)
    · exact (p.finishTxn_serves _ _).trans (Part.completeRequest_serves _ _ _)
    · exact (p.mapTxn_serves _ (fun x => { x with abortRequested := true }) fun _ => rfl).trans (Part.setAborts_serves _ _)

theorem Part.doAbort_serves (n : Nat) (r : List Byte) (p : Part) : p.Serves (p.doAbort n r) := by
  unfold Part.doAbort
  split
  · exact p.abortItem_serves _ _
  · exact p.abortItem_serves _ _

theorem Part.failDeferred_serves (a : Nat) (p : Part) : p.Serves (p.failDeferred a) :=
  (p.finishAll_serves _ _).trans (Part.updateUnit_serves _ _ _)

theorem Part.dismissTransactions_serves (a : Nat) (p : Part) : p.Serves (p.dismissTransactions a) :=
  (p.finishAll_serves _ _).trans (Part.updateUnit_serves _ _ _)

theorem Part.drainTransactions_serves (p : Part) : p.Serves p.drainTransactions :=
  ((Part.Serves.foldl (fun q y => q.endSync_serves y .stopped) _ p).trans (Part.finishAll_serves _ _ _)).trans
    (Part.Serves.foldl (fun q a => q.updateUnit_serves a _) _ _)

theorem Part.dismissUnit_serves (n a : Nat) (p : Part) : p.Serves (p.dismissUnit n a) := by
  have h := (p.retireUnit_serves a).trans (Part.dismissTransactions_serves a _)
  unfold Part.dismissUnit
  dsimp only
  split
  · exact h.trans (Part.setUnits_serves _ _)
  · exact (h.trans (Part.putUnit_serves _ _ _ _)).trans (Part.onceFree_serves (Part.completeRequest_serves _ _ _))

theorem Part.doDismiss_serves (n : Nat) (r : List Byte) (p : Part) : p.Serves (p.doDismiss n r) :=
  (p.updateUnit_serves _ _).trans (Part.onceFree_serves (Part.dismissUnit_serves _ _ _))

theorem Part.noticeUnitChange_serves (a : Nat) (p : Part) : p.Serves (p.noticeUnitChange a) :=
  (p.failDeferred_serves a).trans (Part.changeClearUnit_serves a _)

theorem Part.judgeGeneration_serves (a : Nat) (g : BitVec 3) (p : Part) : p.Serves (p.judgeGeneration a g) := by
  unfold Part.judgeGeneration
  split
  · exact .refl p
  · split
    · exact .refl p
    · split
      · exact .refl p
      · exact ((Part.raise_serves (.inl ⟨rfl, rfl⟩) p).trans (Part.putUnit_serves _ _ _ _)).trans
          (Part.onceFree_serves (Part.noticeUnitChange_serves _ _))

/-! ## The requests that take something on -/

theorem Part.doTransact_works (n slot : Nat) (r : List Byte) (pred : Option Nat) (p : Part) : p.Works (p.doTransact n slot r pred) := by
  have h : ∀ l : List Transaction, p.Works { p with te := { p.te with pool := l } } := fun _ =>
    ⟨.refl _, List.prefix_refl _, List.prefix_refl _, rfl, rfl, rfl, fun _ => .inl, .of_eq rfl⟩
  unfold Part.doTransact
  dsimp only
  split
  · exact (h _).trans (Part.completeSlot_serves _ _ _).toWorks
  · exact h _

theorem Part.doLend_works (n : Nat) (r : List Byte) (p : Part) : p.Works (p.doLend n r) := by
  have h : ∀ j : JournalWriter, p.Works { p with jw := j } := fun _ =>
    ⟨.refl _, List.prefix_refl _, List.prefix_refl _, rfl, rfl, rfl, fun _ => .inl, .of_eq rfl⟩
  unfold Part.doLend
  dsimp only
  split
  · exact (Part.raise_serves (.inl ⟨rfl, rfl⟩) p).toWorks
  · split <;> exact h _

/-- The SYNCs that end are gone, and no other. -/
theorem Part.endSync_syncs (y : SyncRecord) (o : ReqOutcome) (p : Part) : (p.endSync y o).te.syncs = p.te.syncs.filter fun x => x.seq != y.seq := by
  unfold Part.endSync
  rw [(Part.completeRequest_owners _ _ _).2.1]

/-- R100: of the SYNCs that wait, those stay whose take sequence is none of those that are ready. -/
theorem Part.endSyncs_syncs (ys : List SyncRecord) (p : Part) :
    (p.endSyncs ys).te.syncs = p.te.syncs.filter fun x => !((ys.filter SyncRecord.ready).map (·.seq)).contains x.seq := by
  unfold Part.endSyncs
  generalize ys.filter SyncRecord.ready = l
  induction l generalizing p with
  | nil => simp
  | cons y rest ih =>
    rw [List.foldl_cons, ih, Part.endSync_syncs, List.filter_filter]
    congr 1
    funext x
    by_cases hx : x.seq = y.seq <;> simp [hx]

/-- R100: SYNCs change, and of those changed the ones with nothing left to wait for complete. -/
theorem Part.endSyncs_works {l ys : List SyncRecord} {p : Part} (h : ∀ y ∈ l, y ∈ p.te.syncs ∨ y ∈ ys) :
    p.Works (Part.endSyncs ys { p with te := { p.te with syncs := l } }) := by
  have hs := Part.endSyncs_serves ys { p with te := { p.te with syncs := l } }
  refine ⟨hs.port, hs.completions, hs.bankQueue, hs.activeBank, hs.window, hs.clock, fun y hy => ?_, hs.first⟩
  rw [Part.endSyncs_syncs, List.mem_filter] at hy
  obtain ⟨hy, hout⟩ := hy
  rcases h y hy with hy | hy
  · exact .inl hy
  · refine .inr (Bool.not_eq_true _ ▸ fun hr => ?_)
    have hin : y.seq ∈ (ys.filter SyncRecord.ready).map (·.seq) := List.mem_map.mpr ⟨y, List.mem_filter.mpr ⟨hy, hr⟩, rfl⟩
    simp only [Bool.not_eq_true', List.contains_eq_mem, decide_eq_false_iff_not] at hout
    exact hout hin

theorem Part.endSyncs_leavesSweep {l ys : List SyncRecord} {p : Part} : p.LeavesSweep (Part.endSyncs ys { p with te := { p.te with syncs := l } }) :=
  Part.LeavesSweep.trans (q := { p with te := { p.te with syncs := l } }) .of_same (Part.endSyncs_serves ys _).toLeavesSweep

theorem Part.endSyncs_adopts {l ys : List SyncRecord} {p : Part} : p.Adopts (Part.endSyncs ys { p with te := { p.te with syncs := l } }) :=
  Part.Adopts.trans (q := { p with te := { p.te with syncs := l } })
    ⟨List.Sublist.refl _, List.Sublist.refl _, .inl (le_refl _), fun h hh => ⟨h, hh, id, rfl, rfl⟩⟩ (Part.endSyncs_serves ys _).toAdopts

theorem Part.doSync_serves (n : Nat) (r : List Byte) (pred : Option Nat) (p : Part) : p.Serves (p.doSync n r pred) :=
  ⟨⟨Part.endSyncs_works fun _ hy => (List.mem_append.mp hy), Part.endSyncs_adopts⟩, Part.endSyncs_leavesSweep⟩

theorem Part.countFinish_serves (f : Finish) (p : Part) : p.Serves (p.countFinish f) := by
  unfold Part.countFinish
  split
  · refine ⟨⟨Part.endSyncs_works fun y hy => ?_, Part.endSyncs_adopts⟩, Part.endSyncs_leavesSweep⟩
    obtain ⟨x, hx, rfl⟩ := List.mem_map.mp hy
    by_cases hc : x.waitingFor.contains f.seq = true
    · exact .inr (List.mem_map.mpr ⟨x, List.mem_filter.mpr ⟨hx, hc⟩, rfl⟩)
    · exact .inl (by rwa [SyncRecord.count, if_neg hc])
  · exact .refl p

theorem Part.handOver_works (k : ReqKind) (n slot : Nat) (r : List Byte) (pred : Option Nat) (p : Part) : p.Works (p.handOver k n slot r pred) := by
  cases k with
  | enroll => exact (p.doEnroll_serves n r).toWorks
  | dismiss => exact (p.doDismiss_serves n r).toWorks
  | hold => exact (p.doHold_serves n r).toWorks
  | declare => exact (p.doDeclare_serves n r).toWorks
  | retire => exact (p.doRetire_serves n r).toWorks
  | clear => exact (p.doClear_serves n r).toWorks
  | transact => exact p.doTransact_works n slot r pred
  | sync => exact (p.doSync_serves n r pred).toWorks
  | abort => exact (p.doAbort_serves n r).toWorks
  | lend => exact p.doLend_works n r
  | cut => exact (p.doCut_serves n).toWorks

/-- R117: all but TRANSACT and LEND, which take on a transaction and a page. -/
theorem Part.handOver_adopts {k : ReqKind} (ht : k ≠ .transact) (hl : k ≠ .lend) (n slot : Nat) (r : List Byte) (pred : Option Nat) (p : Part) :
    p.Adopts (p.handOver k n slot r pred) := by
  cases k with
  | enroll => exact (p.doEnroll_serves n r).toAdopts
  | dismiss => exact (p.doDismiss_serves n r).toAdopts
  | hold => exact (p.doHold_serves n r).toAdopts
  | declare => exact (p.doDeclare_serves n r).toAdopts
  | retire => exact (p.doRetire_serves n r).toAdopts
  | clear => exact (p.doClear_serves n r).toAdopts
  | transact => exact absurd rfl ht
  | sync => exact (p.doSync_serves n r pred).toAdopts
  | abort => exact (p.doAbort_serves n r).toAdopts
  | lend => exact absurd rfl hl
  | cut => exact (p.doCut_serves n).toAdopts

theorem Part.doTransact_leavesSweep (n slot : Nat) (r : List Byte) (pred : Option Nat) (p : Part) : p.LeavesSweep (p.doTransact n slot r pred) := by
  have h : ∀ l : List Transaction, p.LeavesSweep { p with te := { p.te with pool := l } } := fun _ => .of_same
  unfold Part.doTransact
  dsimp only
  split
  · exact (h _).trans (Part.completeSlot_serves _ _ _).toLeavesSweep
  · exact h _

theorem Part.doLend_leavesSweep (n : Nat) (r : List Byte) (p : Part) : p.LeavesSweep (p.doLend n r) := by
  unfold Part.doLend
  dsimp only
  split
  · exact (Part.raise_serves (.inl ⟨rfl, rfl⟩) p).toLeavesSweep
  · split <;> exact .of_same

theorem Part.handOver_leavesSweep (k : ReqKind) (n slot : Nat) (r : List Byte) (pred : Option Nat) (p : Part) : p.LeavesSweep (p.handOver k n slot r pred) := by
  cases k with
  | enroll => exact (p.doEnroll_serves n r).toLeavesSweep
  | dismiss => exact (p.doDismiss_serves n r).toLeavesSweep
  | hold => exact (p.doHold_serves n r).toLeavesSweep
  | declare => exact (p.doDeclare_serves n r).toLeavesSweep
  | retire => exact (p.doRetire_serves n r).toLeavesSweep
  | clear => exact (p.doClear_serves n r).toLeavesSweep
  | transact => exact p.doTransact_leavesSweep n slot r pred
  | sync => exact (p.doSync_serves n r pred).toLeavesSweep
  | abort => exact (p.doAbort_serves n r).toLeavesSweep
  | lend => exact p.doLend_leavesSweep n r
  | cut => exact (p.doCut_serves n).toLeavesSweep

/-! ## The Board Controller -/

theorem Part.writeTaken_serves (slot : Nat) (p : Part) : p.Serves (p.writeTaken slot) := p.submit_serves rfl rfl

theorem Part.holdRecord_serves (n : Nat) (p : Part) : p.Serves (p.holdRecord n) := by
  refine Part.setBoard_serves _ p rfl rfl fun h hh => ?_
  obtain ⟨x, hx, rfl⟩ := List.mem_map.mp hh
  refine ⟨x, hx, ?_⟩
  split <;> exact ⟨id, rfl, rfl⟩

theorem Part.answerTake_serves (n : Nat) (p : Part) : p.Serves (p.answerTake n) := by
  unfold Part.answerTake
  split
  · split
    · exact (p.holdRecord_serves n).trans (Part.writeTaken_serves _ _)
    · exact .refl p
  · exact .refl p

/-- R117: every kind of request has its owning block. -/
theorem ReqKind.owner_ne_board (k : ReqKind) : k.owner ≠ .boardController := by cases k <;> decide

/-- R120: a record passed to its owner is held for no predecessor any more. -/
theorem Part.passToOwner_serves (n : Nat) (k : ReqKind) (p : Part) : p.Serves (p.passToOwner n k.owner) := by
  refine Part.setBoard_serves _ p rfl rfl fun h hh => ?_
  obtain ⟨x, hx, rfl⟩ := List.mem_map.mp hh
  refine ⟨x, hx, ?_⟩
  split
  · exact ⟨fun ho => absurd ho k.owner_ne_board, rfl, rfl⟩
  · exact ⟨id, rfl, rfl⟩

theorem Part.drainBoard_serves (p : Part) : p.Serves p.drainBoard := Part.Serves.foldl (fun q _ => q.completeRequest_serves _ _) _ p

theorem Part.drainDismiss_serves (p : Part) : p.Serves p.drainDismiss := by
  unfold Part.drainDismiss
  split
  · exact (p.setUnits_serves _).trans (Part.completeRequest_serves _ _ _)
  · exact .refl p

theorem Part.drainRequests_serves (p : Part) : p.Serves p.drainRequests :=
  ((p.drainBoard_serves.trans (Part.drainTransactions_serves _)).trans (Part.drainDismiss_serves _)).trans (Part.drainJournal_serves _)

/-- A change of the sweep. -/
theorem Part.setSweep_carries (b : BoardController) (p : Part) (hc : b.completions = p.board.completions) (hn : b.nextSeq = p.board.nextSeq)
    (hh : b.held = p.board.held) : p.Carries { p with board := b } :=
  Part.setBoard_carries b p hc hn fun h hx => ⟨h, hh ▸ hx, id, rfl, rfl⟩

theorem Part.setPhase_carries (x : SweepPhase) (p : Part) : p.Carries { p with board := { p.board with sweep := x } } :=
  p.setSweep_carries { p.board with sweep := x } rfl rfl rfl

theorem Part.startSweep_carries (p : Part) : p.Carries p.startSweep :=
  (Part.setSweep_carries { p.board with sweep := .reading, sweepTimer := none } p rfl rfl rfl).trans (Part.submit_carries rfl _ _)

theorem Part.endSweep_carries (l : Option Nat) (p : Part) : p.Carries (p.endSweep l) := by
  have h : ∀ (s : Option Word), p.Carries (Part.submit .boardController [.write (sweepCountAddr p.base) (le32 (p.board.sweepCount + 1)) .silent]
      { p with board := { p.board.moveOrigin l with
        sweep := .noSweep, sweepCount := p.board.sweepCount + 1, sweepTimer := s, sweepAgain := false } }) := fun s =>
    (Part.setSweep_carries { p.board.moveOrigin l with
      sweep := .noSweep, sweepCount := p.board.sweepCount + 1, sweepTimer := s, sweepAgain := false } p
      (BoardController.moveOrigin_completions l p.board) (BoardController.moveOrigin_same l p.board).2.2.2
      (BoardController.moveOrigin_same l p.board).1).trans (Part.submit_carries rfl _ _)
  unfold Part.endSweep
  dsimp only
  split
  · exact (h _).trans (Part.startSweep_carries _)
  · exact h _

theorem Part.dropSweep_carries (l : Option Nat) (p : Part) : p.Carries (p.dropSweep l) :=
  Part.setSweep_carries _ p (BoardController.moveOrigin_completions l p.board) (BoardController.moveOrigin_same l p.board).2.2.2
    (BoardController.moveOrigin_same l p.board).1

theorem Part.sweepNext_carries (b : Bool) (p : Part) : p.Carries (p.sweepNext b) := by
  unfold Part.sweepNext
  split
  · exact .refl p
  · exact .refl p
  · exact .refl p
  · dsimp only
    split
    · split
      · exact p.endSweep_carries _
      · exact p.dropSweep_carries _
    · exact (p.setPhase_carries _).trans (Part.submit_carries rfl _ _)

theorem Part.sweepOn_carries (p : Part) : p.Carries p.sweepOn := by
  unfold Part.sweepOn
  split
  · exact p.setLater_carries _
  · exact p.sweepNext_carries true

theorem Part.fixSweepSet_carries (l : List Byte) (p : Part) : p.Carries (p.fixSweepSet l) := by
  unfold Part.fixSweepSet
  split
  · exact p.endSweep_carries _
  · exact (p.setPhase_carries _).trans (Part.submit_carries rfl _ _)

end Sys2Proof.Machine
end

section
/-! SUPPORT. The drop line, the resolutions and the takes serve as well; and what a command can make of the part: a chain of moves, of takes and of resolutions
(`Part.Acts`), at whose end nothing is left in hand where nothing was (R121). -/

namespace Sys2Proof.Machine

/-! ## The drop line -/

/-- A change of the Run Controller that keeps the window and the clock. -/
theorem Part.setRun_serves (r : RunController) (p : Part) (hw : r.window = p.run.window) (hc : r.clock = p.run.clock) : p.Serves { p with run := r } :=
  ⟨⟨⟨.refl _, List.prefix_refl _, List.prefix_refl _, rfl, hw, hc, fun _ => .inl, .of_eq rfl⟩,
   ⟨List.Sublist.refl _, List.Sublist.refl _, .inl (le_refl _), fun h hh => ⟨h, hh, id, rfl, rfl⟩⟩⟩, .of_same⟩

theorem Part.setTurn_serves (t : Turn) (p : Part) : p.Serves (p.setTurn t) := p.setLine_serves _

theorem Part.endTurn_serves (t : Turn) (p : Part) : p.Serves (p.endTurn t) := by
  have h := p.setLine_serves { p.line with turn := none, idleSince := p.run.clock }
  unfold Part.endTurn
  dsimp only
  refine Part.Serves.trans ?_ (Part.unitTurnEnd_serves _ _ _ _)
  split
  · exact h.trans (Part.settleCommand_serves _ _ _)
  · exact h
  · exact h

theorem Part.frameEnds_serves (t : Turn) (b : Bool) (p : Part) : p.Serves (p.frameEnds t b) := by
  unfold Part.frameEnds
  split
  · exact p.endTurn_serves t
  · exact p.setTurn_serves _

theorem Part.beginFault_serves (c : Byte) (a k n : Nat) (p : Part) : p.Serves (p.beginFault c a k n) :=
  (((p.setLine_serves { p.line with fault := some p.run.clock, idleSince := p.run.clock, choice := none }).trans
    (Part.setRun_serves { p.run with lineFault := true } _ rfl rfl)).trans (Part.raise_serves (.inr rfl) _)).trans (Part.reportLineFault_serves _ _)

theorem Part.endFault_serves (w : Word) (p : Part) : p.Serves (p.endFault w) :=
  (((p.setLine_serves { p.line with fault := none }).trans (Part.setRun_serves { p.run with lineFault := false } _ rfl rfl)).trans
    (Part.raise_serves (.inr rfl) _)).trans (Part.reportLineFault_serves _ _)

theorem Part.startTurn_serves (c : Choice) (u : FieldUnit) (p : Part) : p.Serves (p.startTurn c u) := by
  have h := (p.setLine_serves { p.line.started c with turn := some (startedTurn c u p.run.clock (p.chosenFrame c u)) }).trans
    (Part.updateUnit_serves c.unit (FieldUnit.turnStarts c.kind p.run.clock p.line.discovery) _)
  unfold Part.startTurn
  dsimp only
  split
  · exact h
  · exact h
  · split
    · exact h.trans (Part.markSending_serves _ _ _)
    · exact h

theorem Part.commitChoice_serves (c : Choice) (p : Part) : p.Serves (p.commitChoice c) := by
  unfold Part.commitChoice
  split
  · split
    · exact p.startTurn_serves _ _
    · exact p.setLine_serves _
  · exact p.setLine_serves _

theorem Part.headerGood_serves (t : Turn) (h : FrameHeader) (p : Part) : p.Serves (p.headerGood t h) := by
  unfold Part.headerGood
  split
  · dsimp only
    split
    · exact p.setTurn_serves _
    · exact (Part.raise_serves (.inr rfl) p).trans (Part.setTurn_serves _ _)
  · exact (p.setTurn_serves _).trans (Part.judgeGeneration_serves _ _ _)

theorem Part.endAtDeadline_serves (t : Transaction) (p : Part) : p.Serves (p.endAtDeadline t) := by
  unfold Part.endAtDeadline
  split
  · exact p.finishTxn_serves _ _
  · exact p.finishTxn_serves _ _
  · exact .refl p

theorem Part.endDrain_serves (p : Part) : p.Serves p.endDrain :=
  ((p.setRun_serves { p.run with drainEnded := true, drainTimer := none } rfl rfl).trans (Part.drainRequests_serves _)).trans (Part.setLine_serves _ _)

/-! ## Resolutions -/

/-- R120: what resolves a finish serves and keeps every bound, but for the request that its predecessor lets proceed. -/
theorem Part.resolveWaiter_induct {P : Part → Prop} (hs : ∀ p q : Part, p.Serves q → p.Keeps q → P p → P q)
    (hh : ∀ (p : Part) (h : HeldRequest) (b : Bool), p.heldOf h.seq = some h → h.owner = .boardController → P p → P (p.resolveHeld h b))
    (n : Nat) (b : Bool) (w : Nat) (p : Part) (hp : P p) : P (p.resolveWaiter n b w) := by
  have hk := (p.resolveWaiter_keeps n b w).1
  by_cases hheld : ∃ h, p.resolveWaiter n b w = p.resolveHeld h b ∧ p.heldOf h.seq = some h ∧ h.owner = .boardController
  · obtain ⟨h, e, h1, h2⟩ := hheld
    rw [e]
    exact hh p h b h1 h2 hp
  · refine hs p _ ?_ hk hp
    revert hheld
    unfold Part.resolveWaiter
    split
    · intro _
      split
      · exact .refl p
      · split
        · exact p.mapTxn_serves w (fun x => { x with pred := none }) fun _ => rfl
        · exact p.finishTxn_serves _ _
    · intro _
      split
      · exact .refl p
      · split
        · refine ⟨⟨Part.endSyncs_works fun y hy => ?_, Part.endSyncs_adopts⟩, Part.endSyncs_leavesSweep⟩
          obtain ⟨x, hx, rfl⟩ := List.mem_map.mp hy
          by_cases hw : x.seq = w
          · rw [if_pos hw]
            exact .inr (List.mem_map.mpr ⟨x, List.mem_filter.mpr ⟨hx, by simpa using hw⟩, rfl⟩)
          · rw [if_neg hw]
            exact .inl hx
        · exact p.endSync_serves _ _
    · split
      · next h hh' =>
        split
        · next hc =>
          intro hno
          simp only [Bool.and_eq_true, beq_iff_eq] at hc
          have hseq : h.seq = w := by simpa using List.find?_some hh'
          exact absurd ⟨h, rfl, by rw [hseq]; exact hh', hc.1⟩ hno
        · exact fun _ => .refl p
      · exact fun _ => .refl p

theorem Part.resolveWaiters_induct {P : Part → Prop} (hs : ∀ p q : Part, p.Serves q → p.Keeps q → P p → P q)
    (hh : ∀ (p : Part) (h : HeldRequest) (b : Bool), p.heldOf h.seq = some h → h.owner = .boardController → P p → P (p.resolveHeld h b))
    (f : Finish) (l : List Nat) (p : Part) (hp : P p) : P (p.resolveWaiters f l) := by
  induction l generalizing p with
  | nil => exact hs _ _ (p.countFinish_serves f) (p.countFinish_calm f).keeps hp
  | cons w rest ih =>
    unfold Part.resolveWaiters
    split
    · exact ih _ (Part.resolveWaiter_induct hs hh _ _ _ p hp)
    · exact hs _ _ (Part.setLater_serves fun hm => (List.mem_append.mp hm).elim id fun hm => absurd (List.mem_singleton.mp hm) (by simp)) (p.setLater_keeps _) hp

/-- R120: the tag of a finished item is released. -/
theorem Part.release_serves (n : Nat) (p : Part) :
    p.Serves { p with board := { p.board with registry := p.board.registry.filter fun e => e.2 != n } } :=
  Part.setBoard_serves _ p rfl rfl fun h hh => ⟨h, hh, id, rfl, rfl⟩

theorem Part.release_keeps (n : Nat) (p : Part) :
    p.Keeps { p with board := { p.board with registry := p.board.registry.filter fun e => e.2 != n } } := by
  refine (Part.setBoard_calm' { p.board with registry := p.board.registry.filter fun e => e.2 != n } p rfl (fun _ => id) (fun m h => ?_)
    (le_refl _)).keeps
  rcases h with h | ⟨e, he, h⟩ | h
  · exact .inl h
  · exact .inr (.inl ⟨e, List.mem_of_mem_filter he, h⟩)
  · exact .inr (.inr h)

/-- The first finish leaves the list of those to be resolved. -/
theorem Part.setFinishes_serves (l : List Finish) (p : Part) : p.Serves { p with board := { p.board with finishes := l } } :=
  Part.setBoard_serves _ p rfl rfl fun h hh => ⟨h, hh, id, rfl, rfl⟩

theorem Part.doWork_induct {P : Part → Prop} (hs : ∀ p q : Part, p.Carries q → p.Keeps q → P p → P q)
    (hh : ∀ (p : Part) (h : HeldRequest) (b : Bool), p.heldOf h.seq = some h → h.owner = .boardController → P p → P (p.resolveHeld h b))
    (w : Work) (p : Part) (hp : P p) : P (p.doWork w) := by
  have hk := (p.doWork_keeps w).1
  cases w with
  | record r => exact hs _ _ (p.takeRecord_serves r).toCarries hk hp
  | dismissal n a => exact hs _ _ ((p.dismissUnit_serves n a).trans (Part.answerTake_serves n _)).toCarries hk hp
  | dismissed n r => exact hs _ _ (p.completeRequest_serves n r).toCarries hk hp
  | unitChange a => exact hs _ _ (p.noticeUnitChange_serves a).toCarries hk hp
  | drainEnd => exact hs _ _ p.drainRequests_serves.toCarries hk hp
  | waiters f l => exact Part.resolveWaiters_induct (fun p q h => hs p q h.toCarries) hh f l p hp
  | sweepOn => exact hs _ _ (p.sweepNext_carries true) hk hp

/-- R120, R121: what holds of a part and is kept by work that serves, and by a request that proceeds, holds when the work in hand is done. -/
theorem Part.resolve_induct {P : Part → Prop} (hs : ∀ p q : Part, p.Carries q → p.Keeps q → P p → P q)
    (hh : ∀ (p : Part) (h : HeldRequest) (b : Bool), p.heldOf h.seq = some h → h.owner = .boardController → P p → P (p.resolveHeld h b))
    {p : Part} (hp : P p) : P p.resolve := by
  unfold Part.resolve
  generalize 2 * (p.board.finishes.length + 2 * p.board.held.length + p.te.pool.length + p.port.later.length) = n
  induction n generalizing p with
  | zero => exact hp
  | succ n ih =>
    unfold Part.resolveSteps
    split
    · split
      · next w rest hw =>
        refine ih ?_
        have h1 := hs _ _ (p.setLater_carries []) (p.setLater_keeps []) hp
        have h2 := Part.doWork_induct hs hh w _ h1
        exact hs _ _ (Part.setLater_carries _ _) (Part.setLater_keeps _ _) h2
      · next f rest _ hf =>
        refine ih ?_
        have h1 := hs _ _ (p.setFinishes_serves rest).toCarries (Part.popFinish_keeps hf).1 hp
        have h2 := hs _ _ (Part.release_serves f.seq _).toCarries (Part.release_keeps f.seq _) h1
        exact Part.resolveWaiters_induct (fun p q h => hs p q h.toCarries) hh f _ _ h2
      · exact hp
    · exact hp

theorem Part.resolveHeld_works (h : HeldRequest) (b : Bool) (p : Part) : p.Works (p.resolveHeld h b) := by
  unfold Part.resolveHeld
  split
  · split
    · exact .refl p
    · next k _ =>
      split
      · exact (p.completeRequest_serves _ _).toWorks
      · exact (p.passToOwner_serves _ k).toWorks.trans (Part.handOver_works _ _ _ _ _ _)
  · exact (p.completeRequest_serves _ _).toWorks

theorem Part.resolve_works (p : Part) : p.Works p.resolve :=
  Part.resolve_induct (P := p.Works) (fun _ _ h _ hp => hp.trans h.toWorks) (fun _ h b _ _ hp => hp.trans (Part.resolveHeld_works h b _)) (.refl p)

theorem Part.closeDrain_works (p : Part) : p.Works p.closeDrain := by
  unfold Part.closeDrain
  split
  · exact p.endDrain_serves.toWorks.trans (Part.resolve_works _)
  · exact .refl p

/-- R120, R121, R172: settling adds, and takes nothing back. -/
theorem Part.settle_works (p : Part) : p.Works p.settle := p.resolve_works.trans (Part.closeDrain_works _)

/-! ## Resolutions while no sweep waits -/

theorem Part.resolveHeld_leavesSweep (h : HeldRequest) (b : Bool) (p : Part) : p.LeavesSweep (p.resolveHeld h b) := by
  unfold Part.resolveHeld
  split
  · split
    · exact .refl p
    · next k _ =>
      split
      · exact (p.completeRequest_serves _ _).toLeavesSweep
      · exact (p.passToOwner_serves _ k).toLeavesSweep.trans (Part.handOver_leavesSweep _ _ _ _ _ _)
  · exact (p.completeRequest_serves _ _).toLeavesSweep

theorem Part.resolveWaiters_leavesSweep (f : Finish) (l : List Nat) (p : Part) : p.LeavesSweep (p.resolveWaiters f l) :=
  Part.resolveWaiters_induct (P := p.LeavesSweep) (fun _ _ h _ hp => hp.trans h.toLeavesSweep)
    (fun _ h b _ _ hp => hp.trans (Part.resolveHeld_leavesSweep h b _)) f l p (.refl p)

theorem Part.doWork_leavesSweep {w : Work} (hw : w ≠ .sweepOn) (p : Part) : p.LeavesSweep (p.doWork w) := by
  cases w with
  | record r => exact (p.takeRecord_serves r).toLeavesSweep
  | dismissal n a => exact ((p.dismissUnit_serves n a).trans (Part.answerTake_serves n _)).toLeavesSweep
  | dismissed n r => exact (p.completeRequest_serves n r).toLeavesSweep
  | unitChange a => exact (p.noticeUnitChange_serves a).toLeavesSweep
  | drainEnd => exact p.drainRequests_serves.toLeavesSweep
  | waiters f l => exact p.resolveWaiters_leavesSweep f l
  | sweepOn => exact absurd rfl hw

/-- R113: a resolution leaves the sweep alone where the sweep does not stand behind a wait. -/
theorem Part.resolve_leavesSweep {p : Part} (h : .sweepOn ∉ p.port.later) : p.LeavesSweep p.resolve := by
  unfold Part.resolve
  generalize 2 * (p.board.finishes.length + 2 * p.board.held.length + p.te.pool.length + p.port.later.length) = n
  induction n generalizing p with
  | zero => exact .refl p
  | succ n ih =>
    have hnext : ∀ {q : Part}, p.LeavesSweep q → p.LeavesSweep (Part.resolveSteps n q) := fun hq => hq.trans (ih fun hm => h (hq.portSweep.later hm))
    unfold Part.resolveSteps
    split
    · split
      · next w rest hw =>
        rw [hw, List.mem_cons, not_or] at h
        refine hnext ?_
        have hempty : p.Serves { p with port := { p.port with later := [] } } := Part.setLater_serves fun hm => absurd hm List.not_mem_nil
        have hwork := hempty.toLeavesSweep.trans (Part.doWork_leavesSweep (Ne.symm h.1) _)
        refine hwork.trans (Part.setLater_serves fun hm => (List.mem_append.mp hm).elim id fun hm => absurd hm h.2).toLeavesSweep
      · next f rest _ hf =>
        exact hnext (((p.setFinishes_serves rest).trans (Part.release_serves f.seq _)).toLeavesSweep.trans (Part.resolveWaiters_leavesSweep f _ _))
      · exact .refl p
    · exact .refl p

theorem Part.settle_leavesSweep {p : Part} (h : .sweepOn ∉ p.port.later) : p.LeavesSweep p.settle := by
  have hp := Part.resolve_leavesSweep h
  unfold Part.settle Part.closeDrain
  split
  · have hend := hp.trans p.resolve.endDrain_serves.toLeavesSweep
    exact hend.trans (Part.resolve_leavesSweep fun hm => h (hend.portSweep.later hm))
  · exact hp

/-! ## Takes -/

/-- A record comes to be held, with its tag registered and the next take sequence risen: nothing that the relation speaks of. -/
theorem Part.setBoard_works (b : BoardController) (p : Part) (hc : b.completions = p.board.completions) : p.Works { p with board := b } :=
  ⟨.refl _, by rw [hc], List.prefix_refl _, rfl, rfl, rfl, fun _ => .inl, .of_eq hc⟩

theorem Part.register_works (x : Half) (n : Nat) (p : Part) : p.Works (p.register x n) := by
  unfold Part.register
  split
  · exact .refl p
  · exact p.setBoard_works _ rfl

theorem Part.accept_works (k : ReqKind) (n slot : Nat) (r : List Byte) (p : Part) : p.Works (p.accept k n slot r) := by
  have h : p.Works ((p.register (Req.tag r) n).hold (p.acceptRecord k n slot r)) :=
    (p.register_works _ _).trans (Part.setBoard_works _ _ rfl)
  rw [Part.accept_eq]
  split
  · exact h.trans (Part.writeTaken_serves _ _).toWorks
  · exact (h.trans (Part.handOver_works _ _ _ _ _ _)).trans (Part.answerTake_serves _ _).toWorks

theorem Part.take_works (n : Nat) (r : List Byte) (p : Part) : p.Works (p.take n r) := by
  have h : p.Works { p with board := { p.board with nextSeq := p.board.nextSeq + 1 } } := p.setBoard_works _ rfl
  unfold Part.take
  dsimp only
  split
  · exact h.trans (Part.writeCompletion_serves _ _ _ _).toWorks
  · exact h.trans (Part.accept_works _ _ _ _ _)
  · exact h

/-! ## Take sequences stay apart (R82, R114, R155) -/

/-- `State.Distinct` of the part. -/
def Part.Apart (p : Part) : Prop :=
  (p.te.pool.map (·.seq)).Nodup ∧ (p.jw.pages.map (·.seq)).Nodup ∧ (∀ g ∈ p.jw.pages, g.seq < p.board.nextSeq) ∧
  ∀ h ∈ p.board.held, h.owner = .boardController →
    Req.kind h.req ≠ some .transact ∧ (∀ x ∈ p.te.pool, x.seq ≠ h.seq) ∧ ∀ g ∈ p.jw.pages, g.seq ≠ h.seq

/-- A part that has taken nothing on keeps its take sequences apart. -/
theorem Part.Adopts.apart {p q : Part} (h : p.Adopts q) (g : p.Apart) : q.Apart := by
  obtain ⟨g1, g2, g3, g4⟩ := g
  have hpool : ∀ x ∈ q.te.pool, ∃ y ∈ p.te.pool, y.seq = x.seq := fun x hx => by
    simpa using h.pool.subset (List.mem_map.mpr ⟨x, hx, rfl⟩)
  have hpages : ∀ x ∈ q.jw.pages, ∃ y ∈ p.jw.pages, y.seq = x.seq := fun x hx => by
    simpa using h.pages.subset (List.mem_map.mpr ⟨x, hx, rfl⟩)
  refine ⟨h.pool.nodup g1, h.pages.nodup g2, fun x hx => ?_, fun x hx ho => ?_⟩
  · rcases h.next with hn | hn
    · obtain ⟨y, hy, e⟩ := hpages x hx
      exact e ▸ (g3 y hy).trans_le hn
    · rw [hn] at hx
      exact absurd hx List.not_mem_nil
  · obtain ⟨y, hy, oy, sy, ry⟩ := h.held x hx
    obtain ⟨k1, k2, k3⟩ := g4 y hy (oy ho)
    refine ⟨ry ▸ k1, fun z hz e => ?_, fun z hz e => ?_⟩
    · obtain ⟨w, hw, ew⟩ := hpool z hz
      exact k2 w hw (ew.trans (e.trans sy.symm))
    · obtain ⟨w, hw, ew⟩ := hpages z hz
      exact k3 w hw (ew.trans (e.trans sy.symm))

/-- No transaction, no page and no request that the Board Controller holds has the take sequence `n`, which has been given. -/
structure Part.Unshared (p : Part) (n : Nat) : Prop where
  below : n < p.board.nextSeq
  pool : ∀ x ∈ p.te.pool, x.seq ≠ n
  pages : ∀ g ∈ p.jw.pages, g.seq ≠ n
  held : ∀ h ∈ p.board.held, h.owner = .boardController → h.seq ≠ n

theorem Part.doTransact_apart {n slot : Nat} {r : List Byte} {pred : Option Nat} {p : Part} (h : p.Unshared n) (g : p.Apart) :
    (p.doTransact n slot r pred).Apart := by
  obtain ⟨g1, g2, g3, g4⟩ := g
  have hadd : ∀ t : Transaction, t.seq = n → ({ p with te := { p.te with pool := p.te.pool ++ [t] } } : Part).Apart := by
    rintro t rfl
    refine ⟨?_, g2, g3, fun x hx ho => ?_⟩
    · rw [List.map_append]
      refine List.nodup_append'.mpr ⟨g1, List.nodup_singleton _, ?_⟩
      simpa [List.disjoint_singleton] using h.pool
    · obtain ⟨k1, k2, k3⟩ := g4 x hx ho
      refine ⟨k1, fun z hz => ?_, k3⟩
      rcases List.mem_append.mp hz with hz | hz
      · exact k2 z hz
      · rw [List.mem_singleton.mp hz]
        exact (h.held x hx ho).symm
  unfold Part.doTransact
  dsimp only
  split
  · exact (Part.completeSlot_serves _ _ _).toAdopts.apart (hadd _ rfl)
  · exact hadd _ rfl

theorem Part.doLend_apart {n : Nat} {r : List Byte} {p : Part} (h : p.Unshared n) (g : p.Apart) : (p.doLend n r).Apart := by
  obtain ⟨g1, g2, g3, g4⟩ := id g
  have hadd : ∀ (j : JournalWriter) (x : Page), x.seq = n → j.pages = p.jw.pages ++ [x] → ({ p with jw := j } : Part).Apart := by
    rintro j x rfl hj
    have hmem : ∀ y ∈ j.pages, y ∈ p.jw.pages ∨ y = x := by simp [hj]
    refine ⟨g1, ?_, fun y hy => ?_, fun z hz ho => ?_⟩
    · show (j.pages.map (·.seq)).Nodup
      rw [hj, List.map_append]
      refine List.nodup_append'.mpr ⟨g2, List.nodup_singleton _, ?_⟩
      simpa [List.disjoint_singleton] using h.pages
    · rcases hmem y hy with hy | rfl
      · exact g3 y hy
      · exact h.below
    · obtain ⟨k1, k2, k3⟩ := g4 z hz ho
      refine ⟨k1, k2, fun y hy => ?_⟩
      rcases hmem y hy with hy | rfl
      · exact k3 y hy
      · exact (h.held z hz ho).symm
  unfold Part.doLend
  dsimp only
  split
  · exact (Part.raise_serves (.inl ⟨rfl, rfl⟩) p).toAdopts.apart g
  · split
    · next he =>
      refine hadd _ ⟨n, BitVec.ofNat 40 (Req.pageAddress r), Req.pageSize r, Req.flushAge r, false⟩ rfl ?_
      rw [List.isEmpty_iff.mp he]
      rfl
    · exact hadd _ _ rfl rfl

/-- R117: a hand-over under a take sequence that nothing else has. -/
theorem Part.handOver_apart {k : ReqKind} {n slot : Nat} {r : List Byte} {pred : Option Nat} {p : Part} (h : p.Unshared n) (g : p.Apart) :
    (p.handOver k n slot r pred).Apart := by
  by_cases ht : k = .transact
  · subst ht; exact Part.doTransact_apart h g
  · by_cases hl : k = .lend
    · subst hl; exact Part.doLend_apart h g
    · exact (Part.handOver_adopts ht hl _ _ _ _ _).apart g

/-- R120: a request that proceeds is held under its take sequence alone. -/
theorem Part.resolveHeld_apart {h : HeldRequest} {b : Bool} {p : Part} (hh : p.heldOf h.seq = some h) (ho : h.owner = .boardController)
    (hn : p.Within .names) (g : p.Apart) : (p.resolveHeld h b).Apart := by
  unfold Part.resolveHeld
  split
  · split
    · exact g
    · next k _ =>
      split
      · exact (p.completeRequest_serves _ _).toAdopts.apart g
      · have hpass := (p.passToOwner_serves h.seq k).toAdopts
        obtain ⟨_, hpool, hpages⟩ := g.2.2.2 h (List.mem_of_find?_eq_some hh) ho
        refine Part.handOver_apart ⟨hn _ (Part.heldOf_names hh), hpool, hpages, fun x hx hox => ?_⟩ (hpass.apart g)
        obtain ⟨y, _, rfl⟩ := List.mem_map.mp hx
        split at hox
        · exact absurd hox k.owner_ne_board
        · next hne => rw [if_neg hne]; exact hne
  · exact (p.completeRequest_serves _ _).toAdopts.apart g

theorem Part.resolve_apart {p : Part} (hn : p.Within .names) (g : p.Apart) : p.resolve.Apart :=
  (Part.resolve_induct (P := fun q => q.Within .names ∧ q.Apart) (fun _ _ hs hk hp => ⟨hk.within .names hp.1, hs.toAdopts.apart hp.2⟩)
    (fun q h b hh ho hp => ⟨(q.resolveHeld_keeps h b hh ho).1.within .names hp.1, Part.resolveHeld_apart hh ho hp.1 hp.2⟩) ⟨hn, g⟩).2

theorem Part.register_adopts (x : Half) (n : Nat) (p : Part) : p.Adopts (p.register x n) := by
  obtain ⟨_, _, s3, s4, _, _, _, _, s9, s10, _, _⟩ := p.register_same x n
  exact ⟨by rw [s3], by rw [s4], .inl s10.ge, fun h hh => ⟨h, s9 ▸ hh, id, rfl, rfl⟩⟩

/-- R117, R119: an accepted request takes a take sequence that has just been given. -/
theorem Part.accept_apart {k : ReqKind} {n slot : Nat} {r : List Byte} {p : Part} (hk : Req.kind r = some k) (h : p.Unshared n) (g : p.Apart) :
    (p.accept k n slot r).Apart := by
  obtain ⟨_, _, s3, s4, _, _, _, _, s9, s10, _, _⟩ := p.register_same (Req.tag r) n
  have hreg := (p.register_adopts (Req.tag r) n).apart g
  generalize hq : p.register (Req.tag r) n = q at s3 s4 s9 s10 hreg
  have hheld : ∀ x : HeldRequest, x.seq = n → x.req = r → (x.owner = .boardController → k ≠ .transact) → (q.hold x).Apart := by
    intro x hx hxr hxo
    obtain ⟨g1, g2, g3, g4⟩ := hreg
    refine ⟨g1, g2, g3, fun y hy ho => ?_⟩
    rcases List.mem_append.mp hy with hy | hy
    · exact g4 y hy ho
    · rw [List.mem_singleton.mp hy] at ho ⊢
      refine ⟨?_, fun z hz => ?_, fun z hz => ?_⟩
      · rw [hxr, hk]; simpa using hxo ho
      · rw [hx]; exact h.pool z (s3 ▸ hz)
      · rw [hx]; exact h.pages z (s4 ▸ hz)
  rw [Part.accept_eq, hq]
  split
  · next hw =>
    refine (Part.writeTaken_serves _ _).toAdopts.apart (hheld _ rfl rfl fun _ => ?_)
    rintro rfl
    simp [ReqKind.waitsInBlock] at hw
  · next hw =>
    have howner : (p.acceptRecord k n slot r).owner = k.owner := if_neg hw
    refine (Part.answerTake_serves _ _).toAdopts.apart (Part.handOver_apart ⟨?_, ?_, ?_, fun x hx ho => ?_⟩
      (hheld _ rfl rfl fun e => absurd (howner.symm.trans e) k.owner_ne_board))
    · exact h.below.trans_eq s10.symm
    · exact fun x hx => h.pool x (s3 ▸ hx)
    · exact fun x hx => h.pages x (s4 ▸ hx)
    · rcases List.mem_append.mp hx with hx | hx
      · exact h.held x (s9 ▸ hx) ho
      · rw [List.mem_singleton.mp hx] at ho
        exact absurd (howner.symm.trans ho) k.owner_ne_board

theorem Part.take_apart (n : Nat) (r : List Byte) {p : Part} (hn : p.Within .names) (g : p.Apart) : (p.take n r).Apart := by
  have hnew : ({ p with board := { p.board with nextSeq := p.board.nextSeq + 1 } } : Part).Apart :=
    ⟨g.1, g.2.1, fun x hx => Nat.lt_succ_of_lt (g.2.2.1 x hx), g.2.2.2⟩
  unfold Part.take
  dsimp only
  split
  · exact (Part.writeCompletion_serves _ _ _ _).toAdopts.apart hnew
  · next hk =>
    refine Part.accept_apart hk ⟨Nat.lt_succ_self _, fun x hx e => ?_, fun x hx e => ?_, fun x hx _ e => ?_⟩ hnew
    · exact absurd (hn _ (.inr (.inr (.inr (.inl ⟨x, hx, .inl e⟩))))) (lt_irrefl _)
    · exact absurd (e ▸ g.2.2.1 x hx) (lt_irrefl _)
    · exact absurd (hn _ (.inl ⟨x, hx, .inl e⟩)) (lt_irrefl _)
  · exact hnew

end Sys2Proof.Machine
end

section
/-! SUPPORT. What one command makes of the part: a chain of moves, takes and resolutions, at whose end nothing is in hand where nothing was (R121); and of
memory: the accesses of the Window Port performed in the order raised (R174). -/

namespace Sys2Proof.Machine

/-! ## Moves -/

/-- From `p` to `q` every bound is kept, nothing is taken on and no SYNC has come to wait that has nothing to wait for. -/
structure Part.Moves (p q : Part) : Prop extends Part.Adopts p q where
  sound : ∀ k : Kept, p.Sound k → q.Sound k
  syncs : ∀ y ∈ q.te.syncs, y ∈ p.te.syncs ∨ y.ready = false

theorem Part.Moves.refl (p : Part) : p.Moves p := ⟨.refl p, fun _ => id, fun _ => .inl⟩

theorem Part.Moves.trans {p q r : Part} (h : p.Moves q) (h' : q.Moves r) : p.Moves r :=
  ⟨h.toAdopts.trans h'.toAdopts, fun k g => h'.sound k (h.sound k g), fun y hy => (h'.syncs y hy).elim (h.syncs y) .inr⟩

theorem Part.Carries.moves {p q : Part} (h : p.Carries q) (hs : ∀ k : Kept, p.Sound k → q.Sound k) : p.Moves q := ⟨h.toAdopts, hs, h.syncs⟩

theorem Part.Carries.moves_of_keeps {p q : Part} (h : p.Carries q) (hk : p.Keeps q) : p.Moves q := h.moves fun _ => hk.sound

theorem Part.Carries.moves_of_calm {p q : Part} (h : p.Carries q) (hc : p.Calm q) : p.Moves q := h.moves_of_keeps hc.keeps

/-- A change that leaves the Transaction Engine, the lent pages and the next take sequence, and adds no record. -/
theorem Part.Calm.moves {p q : Part} (h : p.Calm q) (ht : q.te = p.te) (hj : q.jw.pages = p.jw.pages) (hh : q.board.held.Sublist p.board.held) :
    p.Moves q :=
  ⟨⟨by rw [ht], by rw [hj], .inl h.next.ge, fun x hx => ⟨x, hh.subset hx, id, rfl, rfl⟩⟩, fun _ => h.sound, fun y hy => .inl (ht ▸ hy)⟩

/-- A change of the Run Controller, the Service Unit and the Directory Engine alone. -/
theorem Part.Moves.of_same {p q : Part} (hp : q.port = p.port := by rfl) (ht : q.te = p.te := by rfl) (hj : q.jw = p.jw := by rfl)
    (hu : q.um = p.um := by rfl) (hb : q.board = p.board := by rfl) (hl : q.line = p.line := by rfl) : p.Moves q :=
  ⟨⟨by rw [ht], by rw [hj], .inl (by rw [hb]), fun x hx => ⟨x, hb ▸ hx, id, rfl, rfl⟩⟩, fun _ g => g.of_same hp ht hj hu hb hl,
   fun y hy => .inl (ht ▸ hy)⟩

/-- A part whose blocks are empty. -/
theorem Part.Moves.of_empty {p q : Part} (hs : ∀ k : Kept, q.Sound k) (hb : q.board.held = []) (ht : q.te = {}) (hj : q.jw.pages = []) : p.Moves q :=
  ⟨⟨by simp [ht], by simp [hj], .inr hj, by simp [hb]⟩, fun k _ => hs k, by simp [ht]⟩

theorem Part.enterHalted_moves (c : HaltCause) (p : Part) : p.Moves (p.enterHalted c) :=
  .of_empty (fun k => p.enterHalted_sound k c) (by rfl) (by rfl) (by rfl)

/-! ## Performing -/

theorem Part.writeCompletion_held (n : Nat) (u : Bool) (r : Result) (p : Part) : (p.writeCompletion n u r).board.held = p.board.held := by
  obtain ⟨w, hw⟩ := p.writeCompletion_frame n u r
  rw [hw]

theorem Part.deliver_held (h : Handover) (p : Part) : (p.deliver h).board.held.Sublist p.board.held := by
  cases h with
  | complete n r =>
    show (p.completeRequest n r).board.held.Sublist _
    unfold Part.completeRequest Part.completeSlot
    split
    · exact List.Sublist.refl _
    · show (Part.writeCompletion _ _ _ _).board.held.Sublist _
      rw [Part.writeCompletion_held]
      exact List.filter_sublist
  | bankBit m i => rw [Part.deliver_board _ _ rfl]
  | fault f => rw [Part.deliver_board _ _ rfl]
  | journalLoss => rw [Part.deliver_board _ _ rfl]
  | unadmitted => rw [Part.deliver_board _ _ rfl]

theorem Part.raiseFree_held (b : Block) (l : List Item) (p : Part) : (Part.raiseFree b l p).board.held.Sublist p.board.held := by
  induction l generalizing p with
  | nil => exact List.Sublist.refl _
  | cons i rest ih =>
    cases i with
    | hand h => exact (ih _).trans (p.deliver_held h)
    | access a =>
      unfold Part.raiseFree
      split
      · exact ih _
      · exact List.Sublist.refl _

/-- What a block raises, of whatever items, comes behind the accesses that are there. -/
theorem Part.raiseFree_fifo (b : Block) (l : List Item) (p : Part) : p.port.fifo <+: (Part.raiseFree b l p).port.fifo := by
  induction l generalizing p with
  | nil => exact List.prefix_refl _
  | cons i rest ih =>
    cases i with
    | hand h => exact (p.deliver_serves h).port.fifo.trans (ih _)
    | access a =>
      unfold Part.raiseFree
      split
      · exact (p.port.push_grows a).fifo.trans (ih { p with port := p.port.push a })
      · rw [WindowPort.park_fifo]

theorem Part.refill_held (p : Part) : p.refill.board.held.Sublist p.board.held := by
  unfold Part.refill
  split
  · exact List.Sublist.refl _
  · exact Part.raiseFree_held _ _ _

theorem Part.refill_fifo (p : Part) : p.port.fifo <+: p.refill.port.fifo := by
  unfold Part.refill
  split
  · exact List.prefix_refl _
  · next e _ =>
    exact Part.raiseFree_fifo e.block e.items { p with port := { p.port with waiting := p.port.waiting.filter fun x => x.block != e.block } }

/-- The part when the access at its front has been performed, before the place that frees is given on. -/
def Part.popFront (a : Access) (rest : List Access) (p : Part) : Part :=
  { p with port := { p.port with fifo := rest, reports := if a.reported then p.port.reports ++ [a] else p.port.reports } }

theorem State.performFront_empty {s : State} (h : s.part.port.fifo = []) : s.performFront = s := by
  simp only [State.performFront, h]

theorem State.performFront_cons {s : State} {a : Access} {rest : List Access} (h : s.part.port.fifo = a :: rest) :
    s.performFront = { s with mem := a.land s.mem, part := (s.part.popFront a rest).refill } := by
  simp only [State.performFront, h, Part.popFront]

/-- From `s` to `t` accesses have been performed, in the order raised, and others raised behind them. -/
structure State.Performs (s t : State) : Prop where
  moves : s.part.Moves t.part
  pending : t.pending = s.pending
  lands : ∃ l raised : List Access, t.mem = l.foldl Access.land s.mem ∧ s.part.port.fifo ++ raised = l ++ t.part.port.fifo

theorem State.Performs.refl (s : State) : s.Performs s := ⟨.refl _, rfl, [], [], rfl, by simp⟩

/-- R174: of the accesses performed, those raised first come first. -/
theorem State.lands_trans {s t u : State}
    (h : ∃ l raised : List Access, t.mem = l.foldl Access.land s.mem ∧ s.part.port.fifo ++ raised = l ++ t.part.port.fifo)
    (h' : ∃ l raised : List Access, u.mem = l.foldl Access.land t.mem ∧ t.part.port.fifo ++ raised = l ++ u.part.port.fifo) :
    ∃ l raised : List Access, u.mem = l.foldl Access.land s.mem ∧ s.part.port.fifo ++ raised = l ++ u.part.port.fifo := by
  obtain ⟨l, x, hm, hf⟩ := h
  obtain ⟨l', x', hm', hf'⟩ := h'
  refine ⟨l ++ l', x ++ x', by rw [hm', hm, List.foldl_append], ?_⟩
  rw [← List.append_assoc, hf, List.append_assoc, hf', List.append_assoc]

theorem State.Performs.trans {s t u : State} (h : s.Performs t) (h' : t.Performs u) : s.Performs u :=
  ⟨h.moves.trans h'.moves, h'.pending.trans h.pending, State.lands_trans h.lands h'.lands⟩

theorem State.performFront_performs (s : State) : s.Performs s.performFront := by
  cases h : s.part.port.fifo with
  | nil => rw [State.performFront_empty h]; exact .refl s
  | cons a rest =>
    have hsame := s.performFront_same.2.1
    refine ⟨s.performFront_calm.moves hsame.2.1 (by rw [hsame.2.2.2.2.2]) ?_, s.performFront_same.1, [a], ?_⟩
    · rw [State.performFront_cons h]
      exact Part.refill_held _
    · obtain ⟨more, hmore⟩ := Part.refill_fifo (s.part.popFront a rest)
      refine ⟨more, by rw [State.performFront_cons h]; rfl, ?_⟩
      rw [State.performFront_cons h, ← hmore, h]
      rfl

theorem State.perform_performs (n : Nat) (s : State) : s.Performs (State.perform n s) := by
  induction n generalizing s with
  | zero => exact .refl s
  | succ n ih => exact s.performFront_performs.trans (ih _)

/-- Performing until an answer is there performs some number of accesses. -/
theorem State.performUntil_eq (what : Access → Bool) (n : Nat) (s : State) : ∃ k, State.performUntil what n s = State.perform k s := by
  induction n generalizing s with
  | zero => exact ⟨0, rfl⟩
  | succ n ih =>
    unfold State.performUntil
    split
    · exact ⟨0, rfl⟩
    · obtain ⟨k, hk⟩ := ih s.performFront
      exact ⟨k + 1, hk⟩

/-- Taking an answer: the accesses up to it have been performed, and it is no longer kept. -/
theorem State.claim_performs {what : Access → Bool} {s t : State} (h : s.claim what = some t) :
    s.part.Moves t.part ∧ t.pending = s.pending ∧ ∃ k, t.mem = (s.perform k).mem := by
  unfold State.claim at h
  split at h
  · obtain ⟨k, hk⟩ := State.performUntil_eq what s.part.port.work s
    have hp := State.perform_performs k s
    rw [hk] at h
    obtain rfl := Option.some.inj h
    refine ⟨hp.moves.trans (Part.Calm.moves ?_ rfl rfl (List.Sublist.refl _)), hp.pending, k, rfl⟩
    exact Part.Calm.of_eq
  · exact absurd h (by simp)

/-! ## What a command makes of the part -/

/-- A chain of moves, takes and resolutions leads from one part to another. -/
inductive Part.Acts : Part → Part → Prop where
  | moves {p q : Part} (h : p.Moves q) : Acts p q
  | take (n : Nat) (r : List Byte) (p : Part) : Acts p (p.take n r)
  | resolve (p : Part) : Acts p p.resolve
  | trans {p q r : Part} (h : Acts p q) (h' : Acts q r) : Acts p r

theorem Part.Acts.refl (p : Part) : p.Acts p := .moves (.refl p)

/-- What every move, every take and every resolution keeps, a chain of them keeps. -/
theorem Part.Acts.preserves {P : Part → Prop} (hm : ∀ p q : Part, p.Moves q → P p → P q) (ht : ∀ n r p, P p → P (Part.take n r p))
    (hr : ∀ p, P p → P (Part.resolve p)) {p q : Part} (h : p.Acts q) : P p → P q := by
  induction h with
  | moves h => exact hm _ _ h
  | take n r p => exact ht n r p
  | resolve p => exact hr p
  | trans _ _ ih ih' => exact fun hp => ih' (ih hp)

/-- R121, R172: where no block waits for room, nothing is in hand, and no drain can end. -/
def Part.Rests (p : Part) : Prop :=
  p.port.waiting = [] → p.port.later = [] ∧ p.board.finishes = [] ∧
    ¬ (p.run.partState = .draining ∧ p.run.drainEnded = false ∧ p.drainDone = true)

theorem Part.settle_rests (p : Part) : p.settle.Rests := p.settle_facts.2.1

/-- A step that leaves no more in hand than was. -/
structure Part.Advances (p q : Part) : Prop where
  acts : p.Acts q
  rests : p.Rests → q.Rests

/-- A step at whose end nothing is in hand. -/
structure Part.Concludes (p q : Part) : Prop where
  acts : p.Acts q
  rests : q.Rests

theorem Part.Concludes.advances {p q : Part} (h : p.Concludes q) : p.Advances q := ⟨h.acts, fun _ => h.rests⟩

theorem Part.Advances.refl (p : Part) : p.Advances p := ⟨.refl p, id⟩

theorem Part.Advances.trans {p q r : Part} (h : p.Advances q) (h' : q.Advances r) : p.Advances r :=
  ⟨h.acts.trans h'.acts, fun g => h'.rests (h.rests g)⟩

theorem Part.Acts.concludes {p q r : Part} (h : p.Acts q) (h' : q.Concludes r) : p.Concludes r := ⟨h.trans h'.acts, h'.rests⟩

theorem Part.endDrain_moves (p : Part) : p.Moves p.endDrain := by
  refine p.endDrain_serves.moves fun k g => ?_
  obtain ⟨h1, _, h3⟩ := p.endDrain_facts
  exact g.of_facts h1 h3 LineController.exclusive_noChoice

theorem Part.settle_acts (p : Part) : p.Acts p.settle := by
  unfold Part.settle Part.closeDrain
  split
  · exact (Part.Acts.resolve p).trans ((Part.Acts.moves (Part.endDrain_moves _)).trans (.resolve _))
  · exact .resolve p

/-- A change of the part, and what follows it. -/
theorem Part.Acts.settles {p q : Part} (h : p.Acts q) : p.Concludes q.settle := ⟨h.trans q.settle_acts, q.settle_rests⟩

theorem Part.Moves.settles {p q : Part} (h : p.Moves q) : p.Concludes q.settle := (Part.Acts.moves h).settles

/-- A move that raises accesses and finishes nothing; a drain has no more to end it than before. -/
theorem Part.Moves.advances {p q : Part} (h : p.Moves q) (hw : q.port.waiting = [] → p.port.waiting = []) (hl : q.port.later = p.port.later)
    (hf : q.board.finishes = p.board.finishes)
    (hd : q.run.partState = .draining ∧ q.run.drainEnded = false ∧ q.drainDone = true →
      p.run.partState = .draining ∧ p.run.drainEnded = false ∧ p.drainDone = true) : p.Advances q :=
  ⟨.moves h, fun g e => by
    obtain ⟨g1, g2, g3⟩ := g (hw e)
    exact ⟨hl.trans g1, hf.trans g2, fun x => g3 (hd x)⟩⟩

/-! ## What a command makes of the state -/

/-- The answer `t` of the command `c` on `s`. -/
structure State.Row (c : Instr) (s t : State) : Prop where
  pending : t.pending = s.pending
  part : s.part.Advances t.part
  mem : ∃ (b : State) (k : Nat), (b = s ∨ waitsForRoom s c = true ∧ b = s.awaitRoom) ∧ t.mem = (b.perform k).mem ∧ (performsAccesses c = false → k = 0)

theorem State.row_onPart {c : Instr} {s : State} {f : Part → Part} (h : s.part.Advances (f s.part)) : s.Row c (s.onPart f) :=
  ⟨rfl, h, s, 0, .inl rfl, rfl, fun _ => rfl⟩

theorem State.row_refl (c : Instr) (s : State) : s.Row c s := ⟨rfl, .refl _, s, 0, .inl rfl, rfl, fun _ => rfl⟩

/-- Accesses are performed first. -/
theorem State.row_perform {c : Instr} {s : State} {f : Part → Part} (k : Nat) (hc : performsAccesses c = true)
    (h : ∀ p : Part, p.Concludes (f p)) : s.Row c ((s.perform k).onPart f) :=
  ⟨(s.perform_performs k).pending, ((Part.Acts.moves (s.perform_performs k).moves).concludes (h _)).advances, s, k, .inl rfl, rfl,
   fun e => absurd (hc.symm.trans e) (by simp)⟩

/-- The answer of the system port is taken first. -/
theorem State.onAnswer_row {c : Instr} {s : State} {what : Access → Bool} {f : Part → Part} (hc : performsAccesses c = true)
    (h : ∀ t : State, s.claim what = some t → t.part.Concludes (f t.part)) : s.Row c (s.onAnswer what f) := by
  unfold State.onAnswer
  split
  · next t ht =>
    obtain ⟨hm, hp, k, hk⟩ := State.claim_performs ht
    exact ⟨hp, ((Part.Acts.moves hm).concludes (h t ht)).advances, s, k, .inl rfl, hk, fun e => absurd (hc.symm.trans e) (by simp)⟩
  · exact s.row_refl c

theorem State.awaitLoop_facts (n : Nat) (s : State) : s.part.Advances (State.awaitLoop n s).part ∧ (State.awaitLoop n s).pending = s.pending ∧
    (State.awaitLoop n s).part.run.partState = s.part.run.partState ∧
    ∃ l raised : List Access, (State.awaitLoop n s).mem = l.foldl Access.land s.mem ∧
      s.part.port.fifo ++ raised = l ++ (State.awaitLoop n s).part.port.fifo := by
  induction n generalizing s with
  | zero => exact ⟨.refl _, rfl, rfl, [], [], rfl, by simp [State.awaitLoop]⟩
  | succ n ih =>
    unfold State.awaitLoop
    split
    · exact ⟨.refl _, rfl, rfl, [], [], rfl, by simp⟩
    · obtain ⟨h1, h2, h3, h4⟩ := ih (s.performFront.onPart Part.settle)
      have hp := s.performFront_performs
      refine ⟨hp.moves.settles.advances.trans h1, h2.trans hp.pending, h3.trans ?_, State.lands_trans ?_ h4⟩
      · exact (Part.settle_partState _).trans (by rw [s.performFront_same.2.1.1])
      · obtain ⟨l, raised, hm, hf⟩ := hp.lands
        obtain ⟨more, hmore⟩ := (Part.settle_works s.performFront.part).port.fifo
        exact ⟨l, raised ++ more, hm, by
          rw [← List.append_assoc, hf, List.append_assoc, hmore]; rfl⟩

end Sys2Proof.Machine
end

section
/-! SUPPORT. The forms that the rows of the commands take, and what each operation of the Run Controller and of the board makes of the part. -/

namespace Sys2Proof.Machine

/-! ## Waiting for room, and answers -/

theorem State.awaitRoom_facts (s : State) : s.part.Advances s.awaitRoom.part ∧ s.awaitRoom.pending = s.pending ∧
    s.awaitRoom.part.run.partState = s.part.run.partState ∧
    ∃ l raised : List Access, s.awaitRoom.mem = l.foldl Access.land s.mem ∧ s.part.port.fifo ++ raised = l ++ s.awaitRoom.part.port.fifo := by
  unfold State.awaitRoom
  split
  · exact State.awaitLoop_facts _ s
  · exact ⟨.refl _, rfl, rfl, [], [], rfl, by simp⟩

theorem State.row_onBlocks {c : Instr} {s : State} {f : Part → Part} (hc : waitsForRoom s c = true) (h : ∀ p : Part, p.Advances (f p)) :
    s.Row c (s.onBlocks f) :=
  ⟨s.awaitRoom_facts.2.1, s.awaitRoom_facts.1.trans (h _), s.awaitRoom, 0, .inr ⟨hc, rfl⟩, rfl, fun _ => rfl⟩

/-- What a command makes of the state that takes an answer, or lets accesses be performed. -/
structure State.Answered (s t : State) : Prop where
  pending : t.pending = s.pending
  part : s.part.Advances t.part
  mem : ∃ k, t.mem = (s.perform k).mem

theorem State.Answered.refl (s : State) : s.Answered s := ⟨rfl, .refl _, 0, rfl⟩

theorem State.Answered.row {c : Instr} {s t : State} (h : s.Answered t) (hc : performsAccesses c = true) : s.Row c t := by
  obtain ⟨k, hk⟩ := h.mem
  exact ⟨h.pending, h.part, s, k, .inl rfl, hk, fun e => absurd (hc.symm.trans e) (by simp)⟩

theorem State.Answered.row_awaited {c : Instr} {s t : State} (h : s.awaitRoom.Answered t) (hw : waitsForRoom s c = true)
    (hc : performsAccesses c = true) : s.Row c t := by
  obtain ⟨k, hk⟩ := h.mem
  exact ⟨h.pending.trans s.awaitRoom_facts.2.1, s.awaitRoom_facts.1.trans h.part, s.awaitRoom, k, .inr ⟨hw, rfl⟩, hk,
    fun e => absurd (hc.symm.trans e) (by simp)⟩

theorem State.perform_answered {s : State} {f : Part → Part} (k : Nat) (h : (s.perform k).part.Concludes (f (s.perform k).part)) :
    s.Answered ((s.perform k).onPart f) :=
  ⟨(s.perform_performs k).pending, ((Part.Acts.moves (s.perform_performs k).moves).concludes h).advances, k, rfl⟩

theorem State.onAnswer_answered {s : State} {what : Access → Bool} {f : Part → Part}
    (h : ∀ t : State, s.claim what = some t → t.part.Concludes (f t.part)) : s.Answered (s.onAnswer what f) := by
  unfold State.onAnswer
  split
  · next t ht =>
    obtain ⟨hm, hp, k, hk⟩ := State.claim_performs ht
    exact ⟨hp, ((Part.Acts.moves hm).concludes (h t ht)).advances, k, hk⟩
  · exact .refl s

theorem State.slotRow_answered {b : Bool} {f : Nat → Part → Part} (s : State) (h : ∀ n p, Part.Concludes p (f n p)) : s.Answered (s.slotRow b f) := by
  unfold State.slotRow
  split
  · split
    · exact State.onAnswer_answered fun t _ => h _ t.part
    · exact .refl s
  · exact .refl s

/-! ## Start-up -/

theorem Part.beginStart_advances (p : Part) : p.Advances p.beginStart := by
  by_cases h : Config.maxWindowBase < p.run.winbase.toNat
  · rw [Part.beginStart_of_invalid h]
    exact ⟨.moves (Part.Moves.trans (q := p.enterStarting) .of_same (Part.enterHalted_moves _ _)), fun _ _ => ⟨rfl, rfl, by simp⟩⟩
  · have hb : p.beginStart = p.enterStarting.submit .runController [headerRead p.enterStarting.base] := by
      rw [Part.beginStart]; exact if_neg h
    have hs := (Part.submit_carries (b := .runController) rfl [headerRead p.enterStarting.base] p.enterStarting)
    rw [hb]
    refine Part.Moves.advances (Part.Moves.trans (q := p.enterStarting) .of_same (hs.moves_of_calm (Part.submit_calm _ _ _)))
      (fun e => hs.port.waiting_nil e) (WindowPort.submit_later _ _ _) rfl (fun e => ?_)
    exact absurd e.1 (by simp [Part.submit])

/-- A block whose items are parked waits. -/
theorem WindowPort.park_waiting (b : Block) (l : List Item) (w : WindowPort) : (w.park b l).waiting ≠ [] := by
  unfold WindowPort.park
  split
  · next h =>
    obtain ⟨e, he, _⟩ := WindowPort.waits_iff.mp h
    simpa using List.ne_nil_of_mem he
  · simp

/-- R174: accesses that are all raised are no more writes than the queue takes. -/
theorem WindowPort.submitFree_writes (b : Block) (l : List Access) (w : WindowPort) (h : (WindowPort.submitFree b l w).waiting = []) :
    w.writesQueued + (l.filter fun a => !a.isRead).length ≤ max Config.writeQueueSize w.writesQueued := by
  induction l generalizing w with
  | nil => simp
  | cons a rest ih =>
    unfold WindowPort.submitFree at h
    split at h
    · next hr =>
      have hq := ih _ h
      have hpush : (w.push a).writesQueued = w.writesQueued + if a.isRead then 0 else 1 := by
        cases ha : a.isRead <;> simp [WindowPort.writesQueued, WindowPort.push, List.filter_append, ha]
      rw [hpush] at hq
      cases ha : a.isRead
      · simp only [WindowPort.hasRoom, ha, Bool.false_eq_true, if_false, decide_eq_true_eq] at hr
        simp only [ha, Bool.false_eq_true, if_false] at hq
        simp only [List.filter_cons, ha, Bool.not_false, if_true, List.length_cons]
        omega
      · simp only [ha, if_true] at hq
        simp only [List.filter_cons, ha, Bool.not_true, Bool.false_eq_true, if_false]
        exact hq
    · exact absurd h (WindowPort.park_waiting _ _ _)

/-- More writes than the queue takes leave their block waiting. -/
theorem WindowPort.submit_waits {b : Block} {l : List Access} (hl : Config.writeQueueSize < (l.filter fun a => !a.isRead).length) (w : WindowPort) :
    (w.submit b l).waiting ≠ [] := by
  intro h
  unfold WindowPort.submit at h
  split at h
  · exact WindowPort.park_waiting _ _ _ h
  · have := WindowPort.submitFree_writes b l w h
    omega

/-- R171: the initialisation writes are more than the write queue takes. -/
theorem startAccesses_writes (base : Nat) : Config.writeQueueSize < ((startAccesses base).filter fun a => !a.isRead).length := by
  have hring : (((List.range Config.ringSize).map fun i => Access.write (faultRecordAddr base i) (zeros 32) .silent).filter fun a => !a.isRead).length =
      Config.ringSize := by
    rw [List.filter_eq_self.mpr (by simp [Access.isRead])]
    simp
  have harea : 0 < ((serviceAreaInit base).filter fun a => !a.isRead).length := by simp [serviceAreaInit, Access.isRead]
  simp only [startAccesses, windowInit, List.filter_append, List.length_append, hring]
  simp only [Config.writeQueueSize, Config.ringSize]
  omega

theorem Part.startTables_moves (h : List Byte) (p : Part) : p.Moves (p.startTables h) :=
  ⟨⟨List.nil_sublist _, List.nil_sublist _, .inr rfl, by simp [Part.startTables]⟩, fun _ g => Part.startTables_sound g h, by simp [Part.startTables]⟩

/-- R170, R171: a header that passes leaves the Run Controller waiting for room, as the initialisation has more writes than the queue takes. -/
theorem Part.checkHeader_concludes (h : List Byte) {p : Part} : p.Concludes (p.checkHeader h) := by
  unfold Part.checkHeader
  split
  · have hs := Part.submit_carries (b := .runController) rfl (startAccesses p.base) (p.startTables h)
    exact ⟨.moves ((p.startTables_moves h).trans (hs.moves_of_calm (Part.submit_calm _ _ _))),
      fun e => absurd e (WindowPort.submit_waits (startAccesses_writes _) _)⟩
  · exact ⟨.moves (p.enterHalted_moves _), fun _ => ⟨rfl, rfl, by simp⟩⟩

theorem Part.restartSlots_moves (l : List Byte) (p : Part) : p.Moves (p.restartSlots l) :=
  Part.Moves.trans (q := { p with run := { p.run with startPhase := .writes } }) .of_same
    ((Part.submit_carries rfl _ _).moves_of_calm (Part.submit_calm _ _ _))

/-- The port alone changes, within its limits. -/
theorem Part.setPort_moves {w : WindowPort} {p : Part} (hw : p.port.Bounded → w.Bounded) : p.Moves { p with port := w } := by
  refine ⟨⟨List.Sublist.refl _, List.Sublist.refl _, .inl (le_refl _), fun h hh => ⟨h, hh, id, rfl, rfl⟩⟩, fun k g => ?_, fun _ => .inl⟩
  cases k with
  | line => exact g
  | bound l =>
    cases l with
    | port => exact hw g
    | pool => exact g
    | pages => exact g
    | places => exact g
    | names => exact g

theorem Part.startSweep_moves (p : Part) : p.Moves p.startSweep := p.startSweep_carries.moves_of_calm p.startSweep_calm

theorem Part.enterRunning_moves (p : Part) : p.Moves p.enterRunning := by
  have hr : p.Moves { p with run := { p.run with partState := .running, startPhase := .notStarting } } := .of_same
  exact (hr.trans (Part.setPort_moves fun _ => WindowPort.empty_bounded)).trans (Part.startSweep_moves _)

/-! ## Drain and rest -/

theorem Part.beginDrain_moves (p : Part) : p.Moves p.beginDrain := by
  have hr : p.Moves { p with run := p.beginDrain.run } := .of_same
  exact hr.trans ((Part.setBoard_calm p.beginDrain.board { p with run := p.beginDrain.run } rfl rfl rfl rfl).moves rfl rfl (List.Sublist.refl _))

theorem Part.unitAt_stopTimers (p : Part) (a : Nat) :
    ({ p with um := p.um.stopTimers } : Part).unitAt a = (p.unitAt a).map fun u => { u with settle := none } := by
  simp only [Part.unitAt, Part.unitSlot, UnitManager.stopTimers, Vector.getElem?_map]
  cases p.um.slots[a]? <;> rfl

theorem Part.stopTimers_moves (p : Part) : p.Moves { p with um := p.um.stopTimers } := by
  refine ⟨⟨List.Sublist.refl _, List.Sublist.refl _, .inl (le_refl _), fun h hh => ⟨h, hh, id, rfl, rfl⟩⟩, fun k g => ?_, fun _ => .inl⟩
  cases k with
  | line => exact g
  | bound l =>
    cases l with
    | port => exact g
    | pool => exact g
    | pages => exact g
    | places =>
      obtain ⟨h0, h31⟩ := g
      exact ⟨by rw [Part.unitAt_stopTimers, h0]; rfl, by rw [Part.unitAt_stopTimers, h31]; rfl⟩
    | names => exact g

theorem Part.enterStopped_moves (p : Part) : p.Moves p.enterStopped := by
  have h1 : p.Moves { p with run := p.enterStopped.run, dir := p.enterStopped.dir, svc := p.enterStopped.svc } := .of_same
  have h2 := (Part.setBoard_calm p.enterStopped.board { p with run := p.enterStopped.run, dir := p.enterStopped.dir, svc := p.enterStopped.svc }
    rfl rfl rfl rfl).moves rfl rfl (List.Sublist.refl _)
  exact ((h1.trans h2).trans (Part.setPort_moves fun _ => WindowPort.empty_bounded)).trans (Part.stopTimers_moves _)

/-- R173: at rest every finish has been resolved. -/
theorem Part.enterStopped_concludes {p : Part} (h : p.atRest = true) : p.Concludes p.enterStopped := by
  refine ⟨.moves p.enterStopped_moves, fun _ => ⟨rfl, ?_, by simp [Part.enterStopped]⟩⟩
  simp only [Part.atRest, Bool.and_eq_true, List.isEmpty_iff] at h
  exact h.1.1.1.2

/-! ## The board and the banks -/

theorem Part.settle_concludes (p : Part) : p.Concludes p.settle := (Part.Moves.refl p).settles

theorem Part.completionDone_moves (p : Part) : p.Moves p.completionDone :=
  p.completionDone_calm.moves rfl rfl (List.Sublist.refl _)

theorem Part.bankItemDone_moves (l : List Access) (p : Part) : p.Moves (p.bankItemDone l) :=
  (p.bankItemDone_calm l).moves rfl rfl (List.Sublist.refl _)

theorem Part.takeAfterDrain_acts {p q : Part} (h : p.Acts q) : p.Acts q.takeAfterDrain := by
  unfold Part.takeAfterDrain
  split
  · have hm : q.Moves (q.onceFree .drainEnd Part.drainRequests) :=
      (Part.onceFree_serves q.drainRequests_serves).moves_of_keeps (Part.onceFree_keeps q.drainRequests_calm.keeps)
    exact (h.trans (.moves hm)).trans (Part.settle_acts _)
  · exact h

theorem Part.takeStep_concludes (n : Nat) (slot : List Byte) (p : Part) : p.Concludes (p.takeStep n slot) := by
  have htake := Part.takeAfterDrain_acts ((Part.Acts.take n (slot.take 64) p).trans (Part.settle_acts _))
  exact (htake.trans (.moves ((Part.sweepOn_carries _).moves_of_keeps (Part.sweepOn_keeps _)))).settles

theorem Part.sweepPast_concludes (p : Part) : p.Concludes (p.settle.sweepNext false).settle :=
  (p.settle_acts.trans (.moves ((Part.sweepNext_carries _ _).moves_of_calm (Part.sweepNext_calm _ _)))).settles

theorem State.takeRow_row {c : Instr} {s : State} (fits : List Byte → Bool) (slot : List Byte) (hw : waitsForRoom s c = true)
    (hc : performsAccesses c = true) : s.Row c (s.takeRow fits slot) :=
  (State.slotRow_answered _ fun n p => p.takeStep_concludes n slot).row_awaited hw hc

theorem State.performBankItem_answered (s : State) : s.Answered (s.performBankItem.onPart Part.settle) := by
  have hself : s.Answered (s.onPart Part.settle) := ⟨rfl, s.part.settle_concludes.advances, 0, rfl⟩
  unfold State.performBankItem
  split
  · exact hself
  · split
    · exact hself
    · next t ht =>
      obtain ⟨hm, hp, k, hk⟩ := State.claim_performs ht
      exact ⟨hp, (Part.Moves.settles (hm.trans (Part.bankItemDone_moves _ _))).advances, k, hk⟩
  · split
    · exact ⟨rfl, (Part.Moves.settles (Part.bankItemDone_moves _ _)).advances, 0, rfl⟩
    · exact hself

/-! ## Rows that leave what is in hand as it is -/

/-- Work that serves, and touches neither what is in hand nor what a drain waits for. -/
theorem Part.Carries.advances {p q : Part} (h : p.Carries q) (hs : ∀ k : Kept, p.Sound k → q.Sound k) (hl : q.port.later = p.port.later)
    (hf : q.board.finishes = p.board.finishes) (hr : q.run = p.run) (ht : q.te = p.te) (hd : q.um.dismissWait = p.um.dismissWait) :
    p.Advances q :=
  (h.moves hs).advances (fun e => h.port.waiting_nil e) hl hf fun e => by
    rw [hr, Part.drainDone, ht, hd] at e
    exact e

theorem Part.updateUnit_advances (a : Nat) (f : FieldUnit → FieldUnit) (p : Part) : p.Advances (p.updateUnit a f) := by
  have hc := p.updateUnit_calm a f
  obtain ⟨hb, ht, _, _, hd⟩ := p.updateUnit_frame a f
  exact (p.updateUnit_serves a f).advances (fun _ => hc.sound) hc.later (by rw [hb]) hc.run ht hd

/-- A change of the line that keeps it exclusive. -/
theorem Part.setLine_advances {l : LineController} {p : Part} (h : p.line.Exclusive → l.Exclusive) : p.Advances { p with line := l } :=
  (p.setLine_serves l).advances (fun _ g => g.setLine l h) rfl rfl rfl rfl rfl

theorem Part.setTurn_advances {t : Turn} {p : Part} (ht : p.line.turn = some t) (t' : Turn) : p.Advances (p.setTurn t') :=
  (p.setTurn_serves t').advances (fun _ g => Part.setTurn_sound g ht t') rfl rfl rfl rfl rfl

theorem Part.frameSent_advances {t : Turn} {p : Part} (ht : p.line.turn = some t) (t' : Turn) : p.Advances (p.frameSent t') := by
  unfold Part.frameSent
  dsimp only
  split
  · exact (Part.setTurn_advances ht _).trans (Part.updateUnit_advances _ _ _)
  · exact Part.setTurn_advances ht _

/-- A change of the Run Controller and the Service Unit that neither begins a drain nor lets one go on. -/
theorem Part.setRegisters_advances {r : RunController} {v : ServiceUnit} {p : Part} (hs : r.partState = p.run.partState)
    (hd : r.drainEnded = p.run.drainEnded) : p.Advances { p with run := r, svc := v } :=
  Part.Moves.advances .of_same id rfl rfl fun e => ⟨hs ▸ e.1, hd ▸ e.2.1, e.2.2⟩

theorem Part.startSweep_advances (p : Part) : p.Advances p.startSweep :=
  p.startSweep_carries.advances (fun _ => p.startSweep_calm.sound) (WindowPort.submit_later _ _ _) rfl rfl rfl rfl

/-- R64, R67: a choice is made where no turn, no choice and no fault stands. -/
theorem LineController.Exclusive.choose {l : LineController} (hf : l.fault = none) (ht : l.turn = none) (c : Option Choice) :
    ({ l with choice := c } : LineController).Exclusive :=
  ⟨fun e => absurd (hf ▸ e) (by simp), fun _ => ht⟩

end Sys2Proof.Machine
end

section
/-! SUPPORT. The row of each command. -/

namespace Sys2Proof.Machine

/-! ## The commands -/

/-- Work after which the part settles. -/
theorem Part.Carries.settles {p q : Part} (h : p.Carries q) (hs : ∀ k : Kept, p.Sound k → q.Sound k) : p.Advances q.settle :=
  (h.moves hs).settles.advances

theorem Part.Calm.settles_serving {p q : Part} (hc : p.Calm q) (h : p.Serves q) : p.Advances q.settle := h.settles fun _ => hc.sound

/-- R75: a turn that ends. -/
theorem Part.endTurn_advances (t : Turn) (p : Part) : p.Advances (p.endTurn t).settle :=
  (p.endTurn_serves t).settles fun _ g => Part.endTurn_sound g t

/-- A frame that ends, after what its contents have brought about. -/
theorem Part.frameEnds_advances {t : Turn} {p q : Part} (ht : p.line.turn = some t) (hs : p.Serves q) (hk : p.Keeps q) (t' : Turn) (b : Bool) :
    p.Advances (q.frameEnds t' b).settle :=
  (hs.trans (q.frameEnds_serves t' b)).settles fun _ g => Part.frameEnds_sound (hk.sound g) (hk.line ▸ ht) t' b

/-- A command that is not accepted. -/
theorem Part.refuseCommand_advances (p : Part) : p.Advances p.refuseCommand :=
  Part.setRegisters_advances (r := { p.run with refused := true }) (v := p.svc) rfl rfl

/-- Whatever the part was, a halt leaves nothing in hand. -/
theorem Part.enterHalted_concludes (c : HaltCause) (p q : Part) : p.Concludes (q.enterHalted c) :=
  ⟨.moves (.of_empty (fun j => q.enterHalted_sound j c) (by rfl) (by rfl) (by rfl)), fun _ => ⟨by rfl, by rfl, by simp⟩⟩

theorem Part.softReset_concludes (p : Part) : p.Concludes p.softReset :=
  ⟨.moves (.of_empty (fun j => p.softReset_sound j) (by rfl) (by rfl) (by rfl)), fun _ => ⟨by rfl, by rfl, by simp [Part.softReset]⟩⟩

theorem Part.reset_concludes (p : Part) : p.Concludes Part.reset :=
  ⟨.moves (.of_empty Part.reset_sound (by rfl) (by rfl) (by rfl)), fun _ => ⟨by rfl, by rfl, fun e => absurd e.1 (by decide)⟩⟩

theorem Part.setSummary_moves (b : BitVec 5) (p : Part) : p.Moves (p.setSummary b) := .of_same

theorem Part.endAtDeadline_calm {t : Transaction} {p : Part} (ht : t ∈ p.te.pool) : p.Calm (p.endAtDeadline t) := by
  unfold Part.endAtDeadline
  split
  · exact p.finishTxn_calm t _ ⟨t, ht, rfl⟩
  · exact p.finishTxn_calm t _ ⟨t, ht, rfl⟩
  · exact .refl p

/-- Every state has its row for the command: a next state that keeps the queue, and what the command makes of the part and of memory. -/
def HasRow (c : Instr) : Prop := ∀ s : State, ∃ t : State, exec c s = .next t ∧ s.Row c t

theorem waitsForRoom_stop {s : State} (h : s.part.run.partState = .running) : waitsForRoom s .stop = true :=
  Eq.trans (b := s.part.run.partState == .running) rfl (beq_iff_eq.mpr h)

theorem waitsForRoom_nudge {s : State} (h : s.part.run.partState = .running) (v : Word) : waitsForRoom s (.nudge v) = true :=
  Eq.trans (b := s.part.run.partState == .running) rfl (beq_iff_eq.mpr h)

/-! ### The rows -/

theorem exec_start_hasRow : HasRow .start := by
  intro s
  refine ⟨_, rfl, State.row_onPart ?_⟩
  split
  · exact s.part.beginStart_advances
  · exact s.part.refuseCommand_advances

theorem exec_stop_hasRow : HasRow .stop := by
  intro s
  by_cases h : s.part.run.partState = .running
  · exact ⟨_, exec_stop_accepted h, State.row_onBlocks (waitsForRoom_stop h) fun p => p.beginDrain_moves.settles.advances⟩
  · exact ⟨_, exec_stop_refused h, State.row_onPart s.part.refuseCommand_advances⟩

theorem exec_halt_hasRow (k : Nat) : HasRow (.halt k) := by
  intro s
  cases h : s.part.started with
  | true =>
    refine ⟨_, exec_halt_accepted h k, State.Answered.row ?_ rfl⟩
    exact State.perform_answered k (Part.enterHalted_concludes _ _ _)
  | false =>
    exact ⟨_, exec_halt_refused h k, State.row_onPart s.part.refuseCommand_advances⟩

theorem exec_reset_hasRow (k : Nat) : HasRow (.reset k) := by
  intro s
  exact ⟨_, exec_reset k s, (State.perform_answered k (Part.softReset_concludes _)).row rfl⟩

theorem exec_unknownCommand_hasRow (v : Word) : HasRow (.unknownCommand v) := by
  intro s
  refine ⟨_, rfl, State.row_onPart ?_⟩
  split
  · exact .refl _
  · exact s.part.refuseCommand_advances

theorem exec_winbase_hasRow (v : Word) : HasRow (.winbase v) := by
  intro s
  exact ⟨_, rfl, State.row_onPart (Part.setRegisters_advances (v := s.part.svc) rfl rfl)⟩

theorem exec_nudge_hasRow (v : Word) : HasRow (.nudge v) := by
  intro s
  by_cases h : s.part.run.partState = .running
  · refine ⟨_, if_pos h, State.row_onBlocks (waitsForRoom_nudge h v) fun p => ?_⟩
    split
    · exact p.startSweep_advances
    · exact (Part.setBoard_carries { p.board with sweepAgain := true } p rfl rfl fun h hh => ⟨h, hh, id, rfl, rfl⟩).advances
        (fun _ => (Part.setBoard_calm { p.board with sweepAgain := true } p rfl rfl rfl rfl).sound) rfl rfl rfl rfl rfl
  · exact ⟨_, if_neg h, s.row_refl _⟩

theorem exec_svcpend_hasRow (v : Word) : HasRow (.svcpend v) := by
  intro s
  refine ⟨_, rfl, State.row_onPart ?_⟩
  split
  · exact Part.setRegisters_advances (r := s.part.run) rfl rfl
  · exact Part.setRegisters_advances (r := s.part.run) rfl rfl

theorem exec_svcen_hasRow (v : Word) : HasRow (.svcen v) := by
  intro s
  exact ⟨_, rfl, State.row_onPart (Part.setRegisters_advances (r := s.part.run) rfl rfl)⟩

theorem exec_registerWrite_hasRow (o : Nat) (v : Word) : HasRow (.registerWrite o v) := by
  intro s
  exact ⟨_, rfl, s.row_refl _⟩

theorem exec_pinReset_hasRow (k : Nat) : HasRow (.pinReset k) := by
  intro s
  exact ⟨_, exec_pinReset k s, (State.perform_answered (f := fun _ => Part.reset) k (Part.reset_concludes _)).row rfl⟩

theorem exec_busError_hasRow (k : Nat) : HasRow (.busError k) := by
  intro s
  by_cases h : (s.part.windowHeld && !(s.perform k).part.port.fifo.isEmpty) = true
  · refine ⟨_, if_pos h, State.Answered.row ?_ rfl⟩
    exact State.perform_answered k (Part.enterHalted_concludes _ _ _)
  · exact ⟨_, if_neg h, s.row_refl _⟩

theorem exec_headerChecks_hasRow (bytes : List Byte) : HasRow (.headerChecks bytes) := by
  intro s
  by_cases h : s.part.run.partState = .starting ∧ s.part.run.startPhase = .header
  · exact ⟨_, if_pos h, (State.onAnswer_answered fun t _ => Part.checkHeader_concludes bytes).row rfl⟩
  · exact ⟨_, if_neg h, s.row_refl _⟩

theorem exec_restarted_hasRow (states : List Byte) : HasRow (.restarted states) := by
  intro s
  by_cases h : s.part.run.partState = .starting ∧ s.part.run.startPhase = .boardRead
  · exact ⟨_, if_pos h, (State.onAnswer_answered fun t _ => (Part.restartSlots_moves states t.part).settles).row rfl⟩
  · exact ⟨_, if_neg h, s.row_refl _⟩

theorem exec_entryIntoRunning_hasRow : HasRow .entryIntoRunning := by
  intro s
  by_cases h : s.part.run.partState = .starting ∧ s.part.run.startPhase = .writes ∧ s.performAll.part.port.quiet = true
  · exact ⟨_, if_pos h, (State.perform_answered _ (Part.enterRunning_moves _).settles).row rfl⟩
  · exact ⟨_, if_neg h, s.row_refl _⟩

theorem exec_sweepTimer_hasRow : HasRow .sweepTimer := by
  intro s
  refine ⟨_, rfl, State.row_onBlocks rfl fun p => ?_⟩
  split
  · split
    · exact p.startSweep_advances
    · exact .refl p
  · exact .refl p

theorem exec_sweep_hasRow (states : List Byte) : HasRow (.sweep states) := by
  intro s
  refine ⟨_, rfl, (State.onAnswer_answered fun t _ => ?_).row_awaited rfl rfl⟩
  split
  · exact ((Part.fixSweepSet_carries states _).moves_of_calm (Part.fixSweepSet_calm states _)).settles
  · exact t.part.settle_concludes

theorem exec_doneWritePerformed_hasRow (n : Nat) : HasRow (.doneWritePerformed n) := by
  intro s
  exact ⟨_, rfl, (State.onAnswer_answered fun t _ => t.part.completionDone_moves.settles).row_awaited rfl rfl⟩

theorem exec_turnChoice_hasRow : HasRow .turnChoice := by
  intro s
  refine ⟨_, rfl, State.row_onPart ?_⟩
  split
  · next h =>
    simp only [Part.lineFree, Bool.and_eq_true, Option.isNone_iff_eq_none] at h
    split
    · exact Part.setLine_advances fun _ => LineController.Exclusive.choose h.2 h.1.1.2 _
    · exact .refl _
  · exact .refl _

theorem exec_pollDue_hasRow (a : Nat) : HasRow (.pollDue a) := by
  intro s
  refine ⟨_, rfl, State.row_onPart ?_⟩
  split
  · exact Part.updateUnit_advances _ _ _
  · exact .refl _

theorem exec_rollCallDue_hasRow (a : Nat) : HasRow (.rollCallDue a) := by
  intro s
  refine ⟨_, rfl, State.row_onPart ?_⟩
  split
  · exact Part.updateUnit_advances _ _ _
  · exact .refl _

theorem exec_notIdle_hasRow : HasRow .notIdle := by
  intro s
  refine ⟨_, rfl, State.row_onBlocks rfl fun p => ?_⟩
  split
  · next c hc =>
    split
    · exact (p.beginFault_serves _ _ _ _).settles fun _ g => Part.beginFault_sound g _ _ _ _ fun x => x.2 (by rw [hc]; rfl)
    · exact .refl p
  · exact .refl p

theorem exec_commitment_hasRow : HasRow .commitment := by
  intro s
  refine ⟨_, rfl, State.row_onBlocks rfl fun p => ?_⟩
  split
  · next c hc =>
    split
    · exact (p.commitChoice_serves c).settles fun _ g => Part.commitChoice_sound g hc
    · exact .refl p
  · exact .refl p

theorem exec_headFrameSent_hasRow : HasRow .headFrameSent := by
  intro s
  refine ⟨_, rfl, State.row_onPart ?_⟩
  split
  · next t ht =>
    split
    · exact Part.frameSent_advances ht t
    · exact .refl _
  · exact .refl _

theorem exec_readback_hasRow (received : List Byte × Bool) : HasRow (.readback received) := by
  intro s
  refine ⟨_, rfl, State.row_onBlocks rfl fun p => ?_⟩
  split
  · split
    · exact ((p.beginFault_serves _ _ _ _).trans (Part.endTurn_serves _ _)).settles fun _ g => Part.readback_sound g _ _ _ _ _
    · exact .refl p
  · exact .refl p

theorem exec_replyWindowExpiry_hasRow : HasRow .replyWindowExpiry := by
  intro s
  refine ⟨_, rfl, State.row_onBlocks rfl fun p => ?_⟩
  split
  · split
    · split
      · exact p.endTurn_advances _
      · exact .refl p
    all_goals exact .refl p
  · exact .refl p

theorem exec_frameHeader_hasRow (bytes : List Byte) (low : Bool) : HasRow (.frameHeader bytes low) := by
  intro s
  refine ⟨_, rfl, State.row_onBlocks rfl fun p => ?_⟩
  split
  · next t ht =>
    split
    · split
      · exact (p.headerGood_serves _ _).settles fun _ g => Part.headerGood_sound g ht _
      · exact p.endTurn_advances _
    · exact .refl p
  · exact .refl p

theorem exec_byteGap_hasRow : HasRow .byteGap := by
  intro s
  refine ⟨_, rfl, State.row_onBlocks rfl fun p => ?_⟩
  split
  · next t ht =>
    split
    · exact p.endTurn_advances _
    · split
      · exact .refl p
      · exact Part.frameEnds_advances ht (.refl p) (.refl p) _ _
    · split
      · exact .refl p
      · exact Part.frameEnds_advances ht (.refl p) (.refl p) _ _
    all_goals exact .refl p
  · exact .refl p

theorem exec_report_hasRow (bytes : List Byte) : HasRow (.report bytes) := by
  intro s
  refine ⟨_, rfl, State.row_onBlocks rfl fun p => ?_⟩
  split
  · next h => exact Part.frameEnds_advances (Part.goodContents_turn h) (p.takeArrival_serves _ _) (p.takeArrival_keeps _ _) _ _
  · exact .refl p

theorem exec_endFrame_hasRow : HasRow .endFrame := by
  intro s
  refine ⟨_, rfl, State.row_onBlocks rfl fun p => ?_⟩
  split
  · exact p.endTurn_advances _
  · exact .refl p

theorem exec_reply_hasRow (bytes : List Byte) : HasRow (.reply bytes) := by
  intro s
  refine ⟨_, rfl, State.row_onPart ?_⟩
  split
  · next h => exact Part.frameEnds_advances (Part.goodContents_turn h) (.refl _) (.refl _) _ _
  · exact .refl _

theorem exec_refuse_hasRow (bytes : List Byte) : HasRow (.refuse bytes) := by
  intro s
  refine ⟨_, rfl, State.row_onPart ?_⟩
  split
  · next h => exact Part.frameEnds_advances (Part.goodContents_turn h) (.refl _) (.refl _) _ _
  · exact .refl _

theorem exec_defer_hasRow : HasRow .defer := by
  intro s
  refine ⟨_, rfl, State.row_onPart ?_⟩
  split
  · next h => exact Part.frameEnds_advances (Part.goodFrame_turn h) (.refl _) (.refl _) _ _
  · exact .refl _

theorem exec_result_hasRow (bytes : List Byte) : HasRow (.result bytes) := by
  intro s
  refine ⟨_, rfl, State.row_onBlocks rfl fun p => ?_⟩
  split
  · next h =>
    split
    · exact Part.frameEnds_advances (Part.goodContents_turn h) (.refl p) (.refl p) _ _
    · exact Part.frameEnds_advances (Part.goodContents_turn h) (p.takeResult_serves _ _ _ _) (p.takeResult_calm _ _ _ _).keeps _ _
  · exact .refl p

theorem exec_announce_hasRow (bytes : List Byte) : HasRow (.announce bytes) := by
  intro s
  refine ⟨_, rfl, State.row_onBlocks rfl fun p => ?_⟩
  split
  · next h => exact Part.frameEnds_advances (Part.goodContents_turn h) (p.takeAnnounce_serves _ _ _ _) (p.takeAnnounce_calm _ _ _ _).keeps _ _
  · exact .refl p

theorem exec_garbled_hasRow (bytes : List Byte) (low : Bool) : HasRow (.garbled bytes low) := by
  intro s
  refine ⟨_, rfl, State.row_onBlocks rfl fun p => ?_⟩
  split
  · next t ht =>
    split
    · split
      · exact Part.frameEnds_advances ht (.refl p) (.refl p) _ _
      · exact .refl p
    all_goals exact .refl p
  · exact .refl p

theorem exec_gapLimit_hasRow : HasRow .gapLimit := by
  intro s
  refine ⟨_, rfl, State.row_onBlocks rfl fun p => ?_⟩
  split
  · split
    · split
      · exact p.endTurn_advances _
      · exact .refl p
    all_goals exact .refl p
  · exact .refl p

theorem exec_lineFaultEnd_hasRow : HasRow .lineFaultEnd := by
  intro s
  refine ⟨_, rfl, State.row_onBlocks rfl fun p => ?_⟩
  split
  · split
    · exact (p.endFault_serves _).settles fun _ g => Part.endFault_sound g _
    · exact .refl p
  · exact .refl p

theorem exec_settleTimerExpiry_hasRow (a : Nat) : HasRow (.settleTimerExpiry a) := by
  intro s
  refine ⟨_, rfl, State.row_onBlocks rfl fun p => ?_⟩
  split
  · split
    · exact (p.putUnit_calm _ _ _).settles_serving (p.putUnit_serves _ _ _)
    · exact .refl p
  · exact .refl p

theorem exec_staleTimerExpiry_hasRow (n : Nat) : HasRow (.staleTimerExpiry n) := by
  intro s
  refine ⟨_, rfl, State.row_onBlocks rfl fun p => ?_⟩
  split
  · split
    · exact (p.putEntry_calm _ _ _).settles_serving (p.putEntry_serves _ _ _)
    · exact .refl p
  · exact .refl p

theorem exec_deadlineExpiry_hasRow (n : Nat) : HasRow (.deadlineExpiry n) := by
  intro s
  refine ⟨_, rfl, State.row_onBlocks rfl fun p => ?_⟩
  split
  · next t ht =>
    split
    · exact (Part.endAtDeadline_calm (Part.findTxn_mem ht).1).settles_serving (p.endAtDeadline_serves t)
    · exact .refl p
  · exact .refl p

theorem exec_deferExpiry_hasRow (n : Nat) : HasRow (.deferExpiry n) := by
  intro s
  refine ⟨_, rfl, State.row_onBlocks rfl fun p => ?_⟩
  split
  · next t ht =>
    split
    · exact (p.finishTxn_calm t _ ⟨t, (Part.findTxn_mem ht).1, rfl⟩).settles_serving (p.finishTxn_serves t _)
    · exact .refl p
  · exact .refl p

theorem exec_reservationExpiry_hasRow (a : Nat) (k : Nat) : HasRow (.reservationExpiry a k) := by
  intro s
  refine ⟨_, rfl, State.row_onPart ?_⟩
  split
  · exact Part.updateUnit_advances _ _ _
  · exact .refl _

theorem exec_syncDeadline_hasRow (n : Nat) : HasRow (.syncDeadline n) := by
  intro s
  refine ⟨_, rfl, State.row_onBlocks rfl fun p => ?_⟩
  split
  · split
    · exact (p.endSync_calm _ _).settles_serving (p.endSync_serves _ _)
    · exact .refl p
  · exact .refl p

theorem exec_flushTimerExpiry_hasRow : HasRow .flushTimerExpiry := by
  intro s
  refine ⟨_, rfl, State.row_onBlocks rfl fun p => ?_⟩
  split
  · exact (p.completePage_calm _).settles_serving (p.completePage_serves _)
  · exact .refl p

theorem exec_drainTimer_hasRow : HasRow .drainTimer := by
  intro s
  refine ⟨_, rfl, State.row_onBlocks rfl fun p => ?_⟩
  split
  · exact p.endDrain_moves.settles.advances
  · exact .refl p

theorem State.performAll_answered {s : State} {f : Part → Part} (h : s.performAll.part.Concludes (f s.performAll.part)) :
    s.Answered (s.performAll.onPart f) := State.perform_answered s.part.port.work h

theorem Part.settle_enterStopped_concludes {p : Part} (h : p.settle.atRest = true) : p.Concludes p.settle.enterStopped :=
  p.settle_acts.concludes (Part.enterStopped_concludes h)

theorem exec_entryIntoStopped (s : State) :
    exec .entryIntoStopped s =
      if s.performAll.part.settle.atRest = true then .next (s.performAll.onPart fun p => p.settle.enterStopped) else .next s := by rfl

theorem exec_entryIntoStopped_hasRow : HasRow .entryIntoStopped := by
  intro s
  rw [exec_entryIntoStopped]
  split
  · next h => exact ⟨_, rfl, (State.performAll_answered (Part.settle_enterStopped_concludes h)).row rfl⟩
  · exact ⟨_, rfl, s.row_refl _⟩

theorem exec_bankUpdate_hasRow : HasRow .bankUpdate := by
  intro s
  exact ⟨_, rfl, (State.performBankItem_answered _).row_awaited rfl rfl⟩

theorem exec_bankBitWritten_hasRow : HasRow .bankBitWritten := by
  intro s
  show ∃ t : State, execBankBitWritten s = .next t ∧ _
  unfold execBankBitWritten
  split
  · exact ⟨_, rfl, (State.Answered.refl _).row_awaited rfl rfl⟩
  · exact ⟨_, rfl, (State.onAnswer_answered fun t _ => (t.part.setSummary_moves _).settles).row_awaited rfl rfl⟩

theorem exec_faultRecordWritten_hasRow : HasRow .faultRecordWritten := by
  intro s
  exact ⟨_, rfl, (State.onAnswer_answered fun t _ => (t.part.setSummary_moves _).settles).row_awaited rfl rfl⟩

theorem exec_queueRoom_hasRow : HasRow .queueRoom := by
  intro s
  exact ⟨_, rfl, (State.perform_answered (s := s) 1 (Part.settle_concludes _)).row rfl⟩

theorem exec_frameBegins_hasRow : HasRow .frameBegins := by
  intro s
  refine ⟨_, rfl, State.row_onPart ?_⟩
  split
  · next t ht =>
    split
    · exact Part.setTurn_advances ht _
    · exact .refl _
  · exact .refl _

theorem exec_protocolErrorFrameEnd_hasRow : HasRow .protocolErrorFrameEnd := by
  intro s
  refine ⟨_, rfl, State.row_onBlocks rfl fun p => ?_⟩
  split
  · next t ht =>
    split
    · exact Part.frameEnds_advances ht (.refl p) (.refl p) _ _
    all_goals exact .refl p
  · exact .refl p

theorem exec_lineActivity_hasRow : HasRow .lineActivity := by
  intro s
  refine ⟨_, rfl, State.row_onPart ?_⟩
  split
  · exact Part.setLine_advances id
  · exact .refl _

theorem exec_passedOver_hasRow (b : Byte) : HasRow (.passedOver b) := by
  intro s
  exact ⟨_, rfl, (State.slotRow_answered _ fun _ p => p.sweepPast_concludes).row_awaited rfl rfl⟩

/-- Every command answers a next state. -/
theorem exec_hasRow (c : Instr) : HasRow c := by
  cases c with
  | start => exact exec_start_hasRow
  | stop => exact exec_stop_hasRow
  | halt k => exact exec_halt_hasRow k
  | reset k => exact exec_reset_hasRow k
  | unknownCommand v => exact exec_unknownCommand_hasRow v
  | winbase v => exact exec_winbase_hasRow v
  | nudge v => exact exec_nudge_hasRow v
  | svcpend v => exact exec_svcpend_hasRow v
  | svcen v => exact exec_svcen_hasRow v
  | registerWrite o v => exact exec_registerWrite_hasRow o v
  | pinReset k => exact exec_pinReset_hasRow k
  | busError k => exact exec_busError_hasRow k
  | headerChecks bytes => exact exec_headerChecks_hasRow bytes
  | restarted states => exact exec_restarted_hasRow states
  | entryIntoRunning => exact exec_entryIntoRunning_hasRow
  | sweepTimer => exact exec_sweepTimer_hasRow
  | sweep states => exact exec_sweep_hasRow states
  | enroll slot => exact fun s => ⟨_, rfl, State.takeRow_row _ slot rfl rfl⟩
  | dismiss slot => exact fun s => ⟨_, rfl, State.takeRow_row _ slot rfl rfl⟩
  | hold slot => exact fun s => ⟨_, rfl, State.takeRow_row _ slot rfl rfl⟩
  | declare slot => exact fun s => ⟨_, rfl, State.takeRow_row _ slot rfl rfl⟩
  | retire slot => exact fun s => ⟨_, rfl, State.takeRow_row _ slot rfl rfl⟩
  | clear slot => exact fun s => ⟨_, rfl, State.takeRow_row _ slot rfl rfl⟩
  | transact slot => exact fun s => ⟨_, rfl, State.takeRow_row _ slot rfl rfl⟩
  | sync slot => exact fun s => ⟨_, rfl, State.takeRow_row _ slot rfl rfl⟩
  | abort slot => exact fun s => ⟨_, rfl, State.takeRow_row _ slot rfl rfl⟩
  | lend slot => exact fun s => ⟨_, rfl, State.takeRow_row _ slot rfl rfl⟩
  | cut slot => exact fun s => ⟨_, rfl, State.takeRow_row _ slot rfl rfl⟩
  | badKind slot => exact fun s => ⟨_, rfl, State.takeRow_row _ slot rfl rfl⟩
  | doneWritePerformed n => exact exec_doneWritePerformed_hasRow n
  | turnChoice => exact exec_turnChoice_hasRow
  | pollDue a => exact exec_pollDue_hasRow a
  | rollCallDue a => exact exec_rollCallDue_hasRow a
  | notIdle => exact exec_notIdle_hasRow
  | commitment => exact exec_commitment_hasRow
  | headFrameSent => exact exec_headFrameSent_hasRow
  | readback received => exact exec_readback_hasRow received
  | replyWindowExpiry => exact exec_replyWindowExpiry_hasRow
  | frameHeader bytes low => exact exec_frameHeader_hasRow bytes low
  | byteGap => exact exec_byteGap_hasRow
  | report bytes => exact exec_report_hasRow bytes
  | endFrame => exact exec_endFrame_hasRow
  | reply bytes => exact exec_reply_hasRow bytes
  | refuse bytes => exact exec_refuse_hasRow bytes
  | defer => exact exec_defer_hasRow
  | result bytes => exact exec_result_hasRow bytes
  | announce bytes => exact exec_announce_hasRow bytes
  | garbled bytes low => exact exec_garbled_hasRow bytes low
  | gapLimit => exact exec_gapLimit_hasRow
  | lineFaultEnd => exact exec_lineFaultEnd_hasRow
  | settleTimerExpiry a => exact exec_settleTimerExpiry_hasRow a
  | staleTimerExpiry n => exact exec_staleTimerExpiry_hasRow n
  | deadlineExpiry n => exact exec_deadlineExpiry_hasRow n
  | deferExpiry n => exact exec_deferExpiry_hasRow n
  | reservationExpiry a k => exact exec_reservationExpiry_hasRow a k
  | syncDeadline n => exact exec_syncDeadline_hasRow n
  | flushTimerExpiry => exact exec_flushTimerExpiry_hasRow
  | drainTimer => exact exec_drainTimer_hasRow
  | entryIntoStopped => exact exec_entryIntoStopped_hasRow
  | bankUpdate => exact exec_bankUpdate_hasRow
  | bankBitWritten => exact exec_bankBitWritten_hasRow
  | faultRecordWritten => exact exec_faultRecordWritten_hasRow
  | queueRoom => exact exec_queueRoom_hasRow
  | frameBegins => exact exec_frameBegins_hasRow
  | protocolErrorFrameEnd => exact exec_protocolErrorFrameEnd_hasRow
  | lineActivity => exact exec_lineActivity_hasRow
  | passedOver b => exact exec_passedOver_hasRow b

end Sys2Proof.Machine
end

section
/-! SUPPORT. What one step makes of memory and of the part: with it the statements O3 to O7. -/

namespace Sys2Proof.Machine

/-! ## Memory (R174) -/

/-- The accesses that a command lets be performed, in their order. -/
theorem State.Row.lands {c : Instr} {s t : State} (h : s.Row c t) :
    ∃ l : List Access, t.mem = l.foldl Access.land s.mem ∧ (l <+: s.part.port.fifo ∨ s.part.port.fifo <+: l) := by
  obtain ⟨b, k, hb, hm, _⟩ := h.mem
  have hlands : ∃ l raised : List Access, (b.perform k).mem = l.foldl Access.land s.mem ∧
      s.part.port.fifo ++ raised = l ++ (b.perform k).part.port.fifo := by
    rcases hb with rfl | ⟨_, rfl⟩
    · exact (b.perform_performs k).lands
    · exact State.lands_trans s.awaitRoom_facts.2.2.2 (State.perform_performs k _).lands
  obtain ⟨l, raised, hl, hf⟩ := hlands
  exact ⟨l, hm.trans hl, List.prefix_or_prefix_of_prefix ⟨_, hf.symm⟩ ⟨raised, rfl⟩⟩

theorem Access.land_wf {m : Memory} (h : m.wf = true) (a : Access) : (a.land m).wf = true := by
  cases a with
  | read _ _ _ => exact h
  | write x b _ => exact Memory.writeBytes_wf x b h

theorem Access.foldl_land_wf (l : List Access) {m : Memory} (h : m.wf = true) : (l.foldl Access.land m).wf = true := by
  induction l generalizing m with
  | nil => exact h
  | cons a rest ih => exact ih (Access.land_wf h a)

/-- Where the waiting has ended, a command that waits for room acts on the state in which it has ended. -/
theorem exec_awaitRoom {c : Instr} {s : State} (hc : waitsForRoom s c = true) (hf : s.awaitRoom.PortFree) : exec c s = exec c s.awaitRoom := by
  have he : s.awaitRoom.awaitRoom = s.awaitRoom := State.awaitRoom_eq (WindowPort.free_iff.mpr hf)
  have hstate := s.awaitRoom_facts.2.2.1
  cases c with
  | stop =>
    have hr : s.part.run.partState = .running := beq_iff_eq.mp hc
    rw [exec_stop_accepted hr, exec_stop_accepted (hstate.trans hr), State.onBlocks, State.onBlocks, he]
  | nudge v =>
    have hr : s.part.run.partState = .running := beq_iff_eq.mp hc
    simp only [exec, execNudge, hr, hstate, if_true, State.onBlocks, he]
  | drainTimer | sweepTimer | notIdle | commitment | readback | replyWindowExpiry | frameHeader | byteGap | report | endFrame | result | announce
  | garbled | protocolErrorFrameEnd | gapLimit | lineFaultEnd | settleTimerExpiry | staleTimerExpiry | deadlineExpiry | deferExpiry | syncDeadline
  | flushTimerExpiry =>
    show Host.Outcome.next (s.awaitRoom.onPart _) = .next (s.awaitRoom.awaitRoom.onPart _)
    rw [he]
  | sweep | doneWritePerformed | faultRecordWritten =>
    show Host.Outcome.next (s.awaitRoom.onAnswer _ _) = .next (s.awaitRoom.awaitRoom.onAnswer _ _)
    rw [he]
  | enroll | dismiss | hold | declare | retire | clear | transact | sync | abort | lend | cut | badKind | passedOver =>
    show Host.Outcome.next (s.awaitRoom.slotRow _ _) = .next (s.awaitRoom.awaitRoom.slotRow _ _)
    rw [he]
  | bankUpdate =>
    show Host.Outcome.next (s.awaitRoom.performBankItem.onPart _) = .next (s.awaitRoom.awaitRoom.performBankItem.onPart _)
    rw [he]
  | bankBitWritten => simp only [exec, execBankBitWritten, he]
  | _ => exact absurd hc Bool.false_ne_true

/-- Settles O3: by the row of each command. -/
theorem commandsAnswerAndPerformInOrder : Obligations.CommandsAnswerAndPerformInOrder := by
  intro c s
  obtain ⟨t, ht, hr⟩ := exec_hasRow c s
  exact ⟨⟨t, ht, hr.pending, hr.mem, hr.lands⟩, fun hf => State.awaitRoom_eq (WindowPort.free_iff.mpr hf), exec_awaitRoom⟩

/-! ## Steps (R83, R155, R174, R24, R64, R67, R114, R82, R100, R121, R172) -/

/-- What one step makes of the part and of memory. -/
theorem step_facts {s t : State} (h : step s = .next t) :
    s.part.Advances t.part ∧ ∃ l : List Access, t.mem = l.foldl Access.land s.mem := by
  unfold step at h
  split at h
  · obtain rfl := Host.Outcome.next.inj h
    refine ⟨?_, [], rfl⟩
    show s.part.Advances s.part.tick
    unfold Part.tick
    split
    · exact .refl _
    · exact Part.setRegisters_advances (v := s.part.svc) rfl rfl
  · next c rest _ =>
    obtain ⟨t', ht, hr⟩ := exec_hasRow c { s with pending := rest }
    obtain rfl := Host.Outcome.next.inj (h.symm.trans ht)
    obtain ⟨l, hl, _⟩ := hr.lands
    exact ⟨hr.part, l, hl⟩

/-- A chain of moves, takes and resolutions keeps every bound and the line's exclusion. -/
theorem Part.Acts.sound {p q : Part} (h : p.Acts q) (k : Kept) (g : p.Sound k) : q.Sound k :=
  h.preserves (P := Part.Sound k) (fun _ _ m => m.sound k) (fun n r p => (p.take_keeps n r).sound) (fun p => p.resolve_keeps.sound) g

/-- R114, R82, R155: it keeps the take sequences apart, where they lie below the next one. -/
theorem Part.Acts.apart {p q : Part} (h : p.Acts q) (hn : p.Within .names) (g : p.Apart) : q.Apart :=
  (h.preserves (P := fun x => x.Within .names ∧ x.Apart) (fun _ _ m x => ⟨m.sound (.bound .names) x.1, m.toAdopts.apart x.2⟩)
    (fun n r p x => ⟨(p.take_keeps n r).within .names x.1, Part.take_apart n r x.1 x.2⟩)
    (fun p x => ⟨p.resolve_keeps.within .names x.1, Part.resolve_apart x.1 x.2⟩) ⟨hn, g⟩).2

theorem SyncRecord.ready_eq_false_iff (y : SyncRecord) : y.ready = false ↔ y.finished ≠ y.captured ∨ y.pred ≠ none := by
  cases hp : y.pred <;> simp [SyncRecord.ready, hp]

/-- R100: it leaves no SYNC waiting that has nothing to wait for. -/
theorem Part.Acts.syncsWait {p q : Part} (h : p.Acts q) (g : ∀ y ∈ p.te.syncs, y.ready = false) : ∀ y ∈ q.te.syncs, y.ready = false :=
  h.preserves (P := fun x => ∀ y ∈ x.te.syncs, y.ready = false) (fun _ _ m x y hy => (m.syncs y hy).elim (x y) id)
    (fun n r p x y hy => ((p.take_works n r).syncs y hy).elim (x y) id) (fun p x y hy => (p.resolve_works.syncs y hy).elim (x y) id) g

/-- Settles O4: each bound is kept by every chain of moves, takes and resolutions. -/
theorem everyStepKeepsMemoryAndCapacities : Obligations.EveryStepKeepsMemoryAndCapacities := by
  intro s t h
  obtain ⟨hp, l, hm⟩ := step_facts h
  exact ⟨fun g => (congrArg Memory.wf hm).trans (Access.foldl_land_wf l g), hp.acts.sound (.bound .port), hp.acts.sound (.bound .pool), hp.acts.sound (.bound .pages)⟩

/-- Settles O5, in the same way. -/
theorem everyStepKeepsPlacesAndTheLine : Obligations.EveryStepKeepsPlacesAndTheLine := by
  intro s t h
  exact ⟨(step_facts h).1.acts.sound (.bound .places), (step_facts h).1.acts.sound .line⟩

/-- Settles O6: a transaction, a page and a request held for a predecessor are taken on only under a take sequence that nothing else has. -/
theorem everyStepKeepsSequencesBelow : Obligations.EveryStepKeepsSequencesBelow := by
  intro s t hs h
  have hp := (step_facts h).1.acts
  exact ⟨hp.sound (.bound .names) hs, hp.apart hs⟩

/-- Settles O7: a command settles what it has brought about, or leaves what is in hand as it was. -/
theorem everyStepKeepsTheMachineSettled : Obligations.EveryStepKeepsTheMachineSettled := by
  intro s t h
  have hp := (step_facts h).1
  exact ⟨hp.rests, fun g y hy => y.ready_eq_false_iff.mp (hp.acts.syncsWait (fun x hx => x.ready_eq_false_iff.mpr (g x hx)) y hy)⟩

end Sys2Proof.Machine
end

section
/-! SUPPORT. The statements about steps, registers, resets and the control commands that need no more than the commands' own definitions. -/

namespace Sys2Proof.Machine

/-! ## Steps and reset -/

/-- Settles O1: this is how a step is defined. -/
theorem stepRunsTheFrontCommand : Obligations.StepRunsTheFrontCommand := by
  intro c rest s
  rfl

/-- Settles O2: the clock runs in every part state but IDLE. -/
theorem emptyQueueTicksTheClock : Obligations.EmptyQueueTicksTheClock := by
  intro s h
  have hstep : step s = .next (s.onPart Part.tick) := by rw [step, h]
  rw [hstep, State.onPart, Part.tick]
  by_cases hi : s.part.run.partState = .idle
  · rw [if_pos hi, if_pos hi]
  · rw [if_neg hi, if_neg hi]

/-- The reset part reads 0 wherever no register but IDENT stands. -/
theorem Part.reset_readRegister {o : Nat} (h : o ≠ 0) : Part.reset.readRegister o = 0 := by
  unfold Part.readRegister
  rw [if_neg h]
  split_ifs <;> rfl

theorem Vector.getD_replicate_default {α : Type} (x : α) (k n : Nat) : ((Vector.replicate k x)[n]?).getD x = x := by
  rw [Vector.getElem?_replicate]
  split <;> rfl

theorem Part.reset_unitAt (a : Nat) : Part.reset.unitAt a = none := by
  have h : Part.reset.unitSlot a = {} := Vector.getD_replicate_default _ _ _
  rw [Part.unitAt, h]

theorem Part.reset_entryAt (n : Nat) : Part.reset.entryAt n = none := by
  have h : Part.reset.entrySlot n = {} := Vector.getD_replicate_default _ _ _
  rw [Part.entryAt, h]


/-- Settles O8: at reset every block is empty. -/
theorem resetStateIsIdleAndSound : Obligations.ResetStateIsIdleAndSound := by
  refine ⟨rfl, Part.reset_sound (.bound .port), Part.reset_sound (.bound .pool), Part.reset_sound (.bound .pages), Part.reset_sound (.bound .places),
    Part.reset_sound .line, Part.reset_sound (.bound .names), ?distinct, fun _ => ⟨rfl, rfl, by decide⟩, fun _ h => absurd h List.not_mem_nil, ?_⟩
  case distinct => simp [State.Distinct, State.reset, Part.reset]
  refine ⟨rfl, rfl, rfl, rfl, rfl, rfl, rfl, rfl, rfl, rfl, rfl, by decide, rfl, fun _ => rfl, rfl, fun o => Part.reset_readRegister, Part.reset_unitAt,
    Part.reset_entryAt, rfl, rfl, rfl, rfl, rfl⟩

/-! ## Registers (R165, R166, R184) -/

theorem PartState.code_lt (x : PartState) : x.code < 16 := by cases x <;> decide
theorem HaltCause.code_lt (x : HaltCause) : x.code < 16 := by cases x <;> decide

/-- The fields of STATE, as R166 places them. -/
theorem Part.readRegister_state (p : Part) {state cause : Nat}
    (hs : (p.run.partState, state) ∈ [(PartState.idle, 0), (.starting, 1), (.running, 2), (.draining, 3), (.stopped, 4), (.halted, 5)])
    (hc : (p.run.haltCause, cause) ∈ [(HaltCause.noCause, 0), (.hostHalt, 1), (.busError, 2), (.windowInvalid, 3)]) :
    (p.readRegister 0x08).toNat =
      state + 2 ^ 4 * cause + (if p.run.refused = true then 2 ^ 8 else 0) + if p.run.lineFault = true then 2 ^ 9 else 0 := by
  have h1 : p.run.partState.code = state := by
    simp only [List.mem_cons, Prod.mk.injEq, List.not_mem_nil, or_false] at hs
    rcases hs with ⟨e, rfl⟩ | ⟨e, rfl⟩ | ⟨e, rfl⟩ | ⟨e, rfl⟩ | ⟨e, rfl⟩ | ⟨e, rfl⟩ <;> rw [e] <;> rfl
  have h2 : p.run.haltCause.code = cause := by
    simp only [List.mem_cons, Prod.mk.injEq, List.not_mem_nil, or_false] at hc
    rcases hc with ⟨e, rfl⟩ | ⟨e, rfl⟩ | ⟨e, rfl⟩ | ⟨e, rfl⟩ <;> rw [e] <;> rfl
  have hread : p.readRegister 0x08 =
      wordOf (p.run.partState.code + 16 * p.run.haltCause.code + 256 * p.run.refused.toNat + 512 * p.run.lineFault.toNat) := rfl
  have b1 := p.run.partState.code_lt
  have b2 := p.run.haltCause.code_lt
  rw [hread, h1, h2]
  rw [h1] at b1
  rw [h2] at b2
  cases p.run.refused <;> cases p.run.lineFault <;>
    simp only [wordOf, BitVec.toNat_ofNat, Bool.toNat_true, Bool.toNat_false, Bool.false_eq_true, if_true, if_false] <;> omega

/-- R168: bits 7 to 0 of a value written to CONTROL. -/
theorem control_byte_eq (v : Word) (k : Nat) (hk : k < 256) : v.setWidth 8 = BitVec.ofNat 8 k ↔ v.toNat % 256 = k := by
  rw [← BitVec.toNat_inj, BitVec.toNat_setWidth, BitVec.toNat_ofNat, Nat.mod_eq_of_lt (a := k) (by omega)]

theorem registerCommand_control (v : Word) (k : Nat) :
    registerCommand 0x04 v k = some (if v.toNat % 256 = 1 then .start else if v.toNat % 256 = 2 then .stop
      else if v.toNat % 256 = 3 then .halt k else if v.toNat % 256 = 4 then .reset k else .unknownCommand v) := by
  have h := fun n hn => control_byte_eq v n hn
  have hdef : registerCommand 0x04 v k = some (controlCommand v k) := rfl
  rw [hdef, controlCommand]
  simp only [h 1 (by omega), h 2 (by omega), h 3 (by omega), h 4 (by omega)]

/-- Settles O16: what the writes and the reads of the registers are defined to do. -/
theorem registerWritesTakeEffect : Obligations.RegisterWritesTakeEffect := by
  intro s v
  have hcontrol := registerCommand_control v
  refine ⟨rfl, rfl, fun _ => rfl, fun k => ⟨?start, ?stop, ?halt, ?reset, ?unknown, rfl, rfl, rfl, rfl, ?readOnly⟩, rfl, rfl, rfl,
    fun _ _ => s.part.readRegister_state, ?winbase, ?svcpend, ?svcen, ?abandoned, rfl, ?others⟩
  case start => intro h; rw [hcontrol, if_pos h]
  case stop => intro h; rw [hcontrol, if_neg (by omega), if_pos h]
  case halt => intro h; rw [hcontrol, if_neg (by omega), if_neg (by omega), if_pos h]
  case reset => intro h; rw [hcontrol, if_neg (by omega), if_neg (by omega), if_neg (by omega), if_pos h]
  case unknown => intro h; rw [hcontrol, if_neg (by omega), if_neg (by omega), if_neg (by omega), if_neg (by omega)]
  case readOnly =>
    rintro o (rfl | rfl | rfl | rfl) <;> rfl
  case winbase =>
    show (s.part.run.winbase.setWidth 32).toNat = _
    rw [BitVec.toNat_setWidth]
    omega
  case svcpend =>
    show (s.part.svc.swapCount ++ s.part.svc.summary.setWidth 16).toNat = _
    rw [BitVec.toNat_append, BitVec.toNat_setWidth, Nat.mod_eq_of_lt (by omega), Nat.shiftLeft_eq, Nat.mul_comm,
      ← Nat.two_pow_add_eq_or_of_lt (by omega)]
  case svcen =>
    show (s.part.svc.enables.setWidth 32).toNat = _
    rw [BitVec.toNat_setWidth]
    omega
  case abandoned =>
    intro h
    show (wordOf s.part.run.abandoned).toNat = _
    rw [wordOf, BitVec.toNat_ofNat]
    omega
  case others =>
    intro o ho
    simp only [List.mem_cons, List.not_mem_nil, or_false, not_or] at ho
    simp [Part.readRegister, ho]

/-! ## Control commands -/

end Sys2Proof.Machine
end

section
/-! SUPPORT. The statements about the control commands: START, STOP, halts and resets, and the start of a sweep. -/

namespace Sys2Proof.Machine

/-! ## START and STOP -/

theorem State.free_of_portFree {s : State} (h : s.PortFree) : s.part.port.free = true := WindowPort.free_iff.mpr h

/-- An access or two find room in an empty port. -/
theorem Part.submit_empty {b : Block} {l : List Access} {p : Part} (hp : p.port = {}) (hl : l.length ≤ 8) :
    p.submit b l = { p with port := { fifo := l } } := by
  rw [Part.submit_fits b l p (hp ▸ WindowPort.fits_empty hl), hp]
  rfl

/-- Settles O11: the header read finds room in an empty port; an invalid base halts the part before it. -/
theorem startEntersStartingOrHalts : Obligations.StartEntersStartingOrHalts := by
  intro s hstate hport
  have hns : s.part.started = false := Part.not_started_iff.mpr hstate
  refine ⟨fun hvalid => ?_, fun hinvalid => ?_⟩
  · have hbegin : s.part.beginStart = s.part.enterStarting.submit .runController [headerRead s.part.enterStarting.base] := by
      rw [Part.beginStart]
      exact if_neg (Nat.not_lt.mpr hvalid)
    rw [exec_start_accepted hns, State.onPart, hbegin, Part.submit_empty (p := s.part.enterStarting) hport (by simp)]
    rfl
  · rw [exec_start_accepted hns, State.onPart, Part.beginStart_of_invalid hinvalid, Part.enterHalted, Part.enterStarting_summary]
    rfl

theorem SweepPhase.stop_taking (n : Nat) (rest : List Nat) (last : Option Nat) : (SweepPhase.taking (n :: rest) last).stop = .taking [n] last := by rfl

theorem SweepPhase.stop_other {x : SweepPhase} (h : ∀ n rest last, x ≠ .taking (n :: rest) last) : x.stop = .noSweep := by
  match x with
  | .noSweep => rfl
  | .reading => rfl
  | .taking [] _ => rfl
  | .taking (n :: rest) last => exact absurd rfl (h n rest last)

/-- R172: what holds a drain open. -/
theorem Part.drainDone_iff (p : Part) :
    p.drainDone = true ↔ p.te.pool = [] ∧ p.te.syncs = [] ∧ p.te.aborts = [] ∧ p.um.dismissWait = none := by
  simp [Part.drainDone, and_assoc]

/-- Settles O12: the drain is held open, so nothing is left to settle. -/
theorem stopEntersDraining : Obligations.StopEntersDraining := by
  intro s hr hf hport hopen
  refine ⟨s.part.board.sweep.stop, ?_, fun n rest last h => by rw [h, SweepPhase.stop_taking], SweepPhase.stop_other⟩
  have hsettle : s.part.beginDrain.settle = s.part.beginDrain := by
    refine Part.settle_eq_self hport.2 hf fun h => ?_
    obtain ⟨h1, h2, h3, h4⟩ := (Part.drainDone_iff _).mp h.2.2
    rcases hopen with e | e | e | e
    · exact e h1
    · exact e h2
    · exact e h3
    · exact e h4
  rw [exec_stop_accepted hr, State.onBlocks_eq (s.free_of_portFree hport), State.onPart, hsettle]
  rfl

/-! ## Halts and resets -/

theorem Part.countAbandoned_of_started {p : Part} (h : p.started = true) :
    p.countAbandoned = { p with run := { p.run with abandoned := (p.te.pool.filter fun x => x.origin.isNone).length } } := if_pos h

theorem Part.countAbandoned_of_not_started {p : Part} (h : p.started = false) : p.countAbandoned = p := if_neg (by simp [h])

/-- Performing accesses changes neither the Run Controller nor the pool. -/
theorem State.perform_run (k : Nat) (s : State) : (s.perform k).part.run = s.part.run := (s.perform_same k).2.1.1
theorem State.perform_te (k : Nat) (s : State) : (s.perform k).part.te = s.part.te := (s.perform_same k).2.1.2.1

theorem State.perform_started (k : Nat) (s : State) : (s.perform k).part.started = s.part.started := by
  simp only [Part.started, s.perform_run k]

/-- What a halt keeps of the Service Unit: the summary, SVCEN and the swap count. -/
def Part.SameSummary (p q : Part) : Prop :=
  q.svc.summary = p.svc.summary ∧ q.svc.enables = p.svc.enables ∧ q.svc.swapCount = p.svc.swapCount

theorem Part.SameSummary.trans {p q r : Part} (h : p.SameSummary q) (h' : q.SameSummary r) : p.SameSummary r :=
  ⟨h'.1.trans h.1, h'.2.1.trans h.2.1, h'.2.2.trans h.2.2⟩

theorem Part.writeCompletion_svc (n : Nat) (u : Bool) (r : Result) (p : Part) : (p.writeCompletion n u r).svc = p.svc := by
  obtain ⟨w, hw⟩ := p.writeCompletion_frame n u r
  rw [hw]

theorem Part.completeSlot_svc (n : Nat) (r : Result) (p : Part) : (p.completeSlot n r).svc = p.svc := by
  unfold Part.completeSlot
  split
  · rfl
  · rw [Part.writeCompletion_svc]

theorem Part.completeRequest_svc (n : Nat) (r : Result) (p : Part) : (p.completeRequest n r).svc = p.svc := by
  unfold Part.completeRequest
  split
  · rfl
  · exact p.completeSlot_svc n r

theorem Part.deliver_summary (h : Handover) (p : Part) : p.SameSummary (p.deliver h) := by
  cases h with
  | bankBit m i =>
    show p.SameSummary (p.takeBankBit m i)
    unfold Part.takeBankBit
    dsimp only
    split <;> exact ⟨rfl, rfl, rfl⟩
  | fault f => exact ⟨rfl, rfl, rfl⟩
  | journalLoss => exact ⟨rfl, rfl, rfl⟩
  | unadmitted => exact ⟨rfl, rfl, rfl⟩
  | complete n r =>
    have e : (p.deliver (.complete n r)).svc = p.svc := p.completeRequest_svc n r
    exact ⟨by rw [e], by rw [e], by rw [e]⟩

theorem Part.raiseFree_summary (b : Block) (l : List Item) (p : Part) : p.SameSummary (Part.raiseFree b l p) := by
  induction l generalizing p with
  | nil => exact ⟨rfl, rfl, rfl⟩
  | cons i rest ih =>
    cases i with
    | hand h => exact (p.deliver_summary h).trans (ih _)
    | access a =>
      unfold Part.raiseFree
      split
      · exact ih _
      · exact ⟨rfl, rfl, rfl⟩

theorem State.performFront_summary (s : State) : s.part.SameSummary s.performFront.part := by
  cases h : s.part.port.fifo with
  | nil => rw [State.performFront_empty h]; exact ⟨rfl, rfl, rfl⟩
  | cons a rest =>
    rw [State.performFront_cons h]
    show s.part.SameSummary (s.part.popFront a rest).refill
    unfold Part.refill
    split
    · exact ⟨rfl, rfl, rfl⟩
    · exact Part.raiseFree_summary _ _ _

theorem State.perform_summary (k : Nat) (s : State) : s.part.SameSummary (s.perform k).part := by
  induction k generalizing s with
  | zero => exact ⟨rfl, rfl, rfl⟩
  | succ k ih => exact s.performFront_summary.trans (ih _)

/-- Settles O14: of what a halt keeps, performing changes nothing. -/
theorem haltsAndBusErrorsEmptyThePart : Obligations.HaltsAndBusErrorsEmptyThePart := by
  intro s k
  have hpending := (s.perform_performs k).pending
  obtain ⟨hsummary, henables, hswaps⟩ := s.perform_summary k
  refine ⟨fun h => ?halt, fun h hf => ?error, fun h => exec_busError_ignored ?_ k⟩
  case halt =>
    have hs : s.part.started = true := Part.started_iff.mpr h
    rw [exec_halt_accepted hs, State.onPart, Part.countAbandoned_of_started (s.perform_started k ▸ hs)]
    simp only [Part.enterHalted, hpending, hsummary, henables, hswaps, s.perform_run k, s.perform_te k]
    rfl
  case error =>
    have hw : s.part.windowHeld = true := Part.windowHeld_iff.mpr (by rcases h with e | e | e | e <;> simp [e])
    rw [exec_busError_taken hw hf, State.onPart]
    by_cases hs : s.part.run.partState = .stopped
    · have hn : (s.perform k).part.started = false := (s.perform_started k).trans (Part.not_started_iff.mpr (.inr (.inl hs)))
      rw [Part.countAbandoned_of_not_started hn]
      simp only [Part.enterHalted, hpending, hsummary, henables, hswaps, s.perform_run k, hs, if_true]
      rfl
    · have hn : s.part.started = true := Part.started_iff.mpr (by tauto)
      rw [Part.countAbandoned_of_started (s.perform_started k ▸ hn)]
      simp only [Part.enterHalted, hpending, hsummary, henables, hswaps, s.perform_run k, s.perform_te k, hs, if_false]
      rfl
  · rw [← Bool.not_eq_true, Part.windowHeld_iff]
    rcases h with e | e <;> simp [e]

/-- Settles O15: a soft reset keeps ABANDONED, and a pin reset nothing. -/
theorem resetsReturnThePartToIdle : Obligations.ResetsReturnThePartToIdle := by
  intro s k
  have hpending := (s.perform_performs k).pending
  refine ⟨?_, by rw [exec_pinReset, State.onPart, hpending]; rfl⟩
  rw [exec_reset, State.onPart, hpending]
  cases hs : s.part.started with
  | true =>
    rw [if_pos (Part.started_iff.mp hs), Part.softReset, Part.countAbandoned_of_started (s.perform_started k ▸ hs), s.perform_te k]
    rfl
  | false =>
    have hn : ¬ (s.part.run.partState = .starting ∨ s.part.run.partState = .running ∨ s.part.run.partState = .draining) := fun h => by
      rw [Part.started_iff.mpr h] at hs
      exact absurd hs (by simp)
    rw [if_neg hn, Part.softReset, Part.countAbandoned_of_not_started (s.perform_started k ▸ hs), s.perform_run k]
    rfl

/-! ## Sweeps -/

theorem State.fits_of_portRoom {s : State} {w r : Nat} (h : s.PortRoom w r) {l : List Access}
    (hw : (l.filter fun a => !a.isRead).length ≤ w) (hr : (l.filter Access.isRead).length ≤ r) : s.part.port.Fits l :=
  ⟨h.1, le_trans (Nat.add_le_add_left hw _) h.2.2.1, le_trans (Nat.add_le_add_left hr _) h.2.2.2⟩

theorem Part.startSweep_fits {p : Part} (h : p.port.Fits [stateBytesRead .sweepStates p.base]) :
    p.startSweep = { p with
      board := { p.board with sweep := .reading, sweepTimer := none }
      port := p.port.with [stateBytesRead .sweepStates p.base] } :=
  Part.submit_fits .boardController _ { p with board := { p.board with sweep := .reading, sweepTimer := none } } h

theorem exec_nudge_running {s : State} (h : s.part.run.partState = .running) (v : Word) :
    exec (.nudge v) s = .next (s.onBlocks fun p =>
      if p.board.sweep = .noSweep then p.startSweep else { p with board := { p.board with sweepAgain := true } }) := if_pos h

/-- Settles O18: the read of the state bytes is raised where there is room for it. -/
theorem sweepsStartAtNudgeOrTimer : Obligations.SweepsStartAtNudgeOrTimer := by
  intro s v
  refine ⟨fun h => if_neg h, fun hr hsweep hport => ?_, fun c hr hsweep hroom hc => ?_⟩
  · rw [exec_nudge_running hr, State.onBlocks_eq (s.free_of_portFree hport), State.onPart, if_neg hsweep]
  · have hfree : s.part.port.free = true := s.free_of_portFree ⟨hroom.1, hroom.2.1⟩
    have hstart := Part.startSweep_fits (p := s.part) (s.fits_of_portRoom hroom (Nat.zero_le _) (le_refl 1))
    rcases hc with rfl | ⟨rfl, d, hd, hdue⟩
    · rw [exec_nudge_running hr, State.onBlocks_eq hfree, State.onPart, if_pos hsweep, hstart]
      rfl
    · show Host.Outcome.next (s.onBlocks _) = _
      rw [State.onBlocks_eq hfree, State.onPart]
      simp only [hd, hr, hsweep, hdue, and_self, if_true, hstart]
      rfl

end Sys2Proof.Machine
end

section
/-! SUPPORT. The statements about start-up, rest and the answers of the Window Port. -/

namespace Sys2Proof.Machine

/-! ## The header (R170, R186) -/

theorem byteAt_eq_zero_iff (l : List Byte) (i : Nat) : byteAt l i = 0 ↔ natAt l i = 0 := by
  rw [natAt, ← BitVec.toNat_inj]
  rfl

/-- R170: the reserved bytes at the end of the header. -/
theorem drop_all_zero_iff (l : List Byte) (k m : Nat) (hl : l.length = m) :
    (l.drop k).all (· == 0) = true ↔ ∀ i : Nat, k ≤ i → i < m → natAt l i = 0 := by
  simp only [List.all_eq_true, beq_iff_eq]
  constructor
  · intro h i hk hm
    rw [← byteAt_eq_zero_iff]
    refine h _ ?_
    rw [byteAt, List.getD_eq_getElem _ _ (hl ▸ hm), List.mem_iff_getElem]
    exact ⟨i - k, by rw [List.length_drop]; omega, by simp [Nat.add_sub_cancel' hk]⟩
  · intro h b hb
    obtain ⟨i, hi, rfl⟩ := List.mem_iff_getElem.mp hb
    rw [List.length_drop] at hi
    have := (byteAt_eq_zero_iff l (k + i)).mpr (h (k + i) (by omega) (by omega))
    rwa [byteAt, List.getD_eq_getElem _ _ (by omega), ← List.getElem_drop (h := by rw [List.length_drop]; exact hi)] at this

theorem Header.valid_iff (h : List Byte) :
    Header.valid h = true ↔
      h.length = 64 ∧ leAt h 0x00 4 = 0x43465631 ∧ natAt h 0x04 = 1 ∧ natAt h 0x05 ≤ 2 ∧ natAt h 0x06 ≤ 250 ∧ natAt h 0x07 ≠ 0 ∧
      natAt h 0x08 ≠ 0 ∧ natAt h 0x09 ≤ 1 ∧ natAt h 0x0A ≤ 1 ∧ natAt h 0x0B ≤ 1 ∧ natAt h 0x0C ≤ 1 ∧ natAt h 0x0D ≤ 2 ∧
      natAt h 0x0E ≤ 1 ∧ natAt h 0x0F = 0 ∧ ∀ i : Nat, 0x14 ≤ i → i < 0x40 → natAt h i = 0 := by
  have hsig : Config.signature.toNat = 0x43465631 := by decide
  simp only [Header.valid, Bool.and_eq_true, beq_iff_eq, decide_eq_true_eq, hsig, byteAt_eq_zero_iff, and_assoc, Nat.one_le_iff_ne_zero]
  simp only [Header.rate, Header.sweepInterval, Header.discovery, Header.drainLimit, Header.autoAdmission]
  refine and_congr_right fun hl => ?_
  simp only [drop_all_zero_iff h 0x14 0x40 hl]

/-- R3, R186: the policies that the header's bytes spell. -/
theorem Header.defaults_facts {h : List Byte} (hv : Header.valid h = true) (q : Policies) (hq : q = Header.defaults h) :
    q.maxInterval = halfAt h 0x10 ∧ q.minInterval = halfAt h 0x12 ∧ (q.early = .drop ↔ natAt h 0x0A = 1) ∧
      (q.stale = .dropContent ↔ natAt h 0x0B = 1) ∧ (q.change = .clear ↔ natAt h 0x0C = 1) ∧ (q.notify = .all ↔ natAt h 0x0D = 0) ∧
      (q.notify = .change ↔ natAt h 0x0D = 1) ∧ (q.journal = true ↔ natAt h 0x0E = 1) := by
  obtain ⟨_, _, _, _, _, _, _, _, hA, hB, hC, hD, hE, _, _⟩ := (Header.valid_iff h).mp hv
  subst hq
  refine ⟨rfl, rfl, ?early, ?stale, ?change, ?all, ?onChange, ?journal⟩ <;> simp only [Header.defaults, Req.mkPolicies]
  case early => rcases Nat.le_one_iff_eq_zero_or_eq_one.mp hA with e | e <;> simp [e]
  case stale => rcases Nat.le_one_iff_eq_zero_or_eq_one.mp hB with e | e <;> simp [e]
  case change => rcases Nat.le_one_iff_eq_zero_or_eq_one.mp hC with e | e <;> simp [e]
  case all =>
    by_cases e : natAt h 0x0D = 0
    · simp [e]
    · by_cases e' : natAt h 0x0D = 1 <;> simp [e, e']
  case onChange =>
    by_cases e : natAt h 0x0D = 0
    · simp [e]
    · by_cases e' : natAt h 0x0D = 1 <;> simp [e, e']
  case journal => simp only [decide_eq_true_eq]; omega

/-! ## What is outstanding (R174) -/

theorem WindowPort.outstanding_push (a : Access) {w : WindowPort} (h : w.waiting = []) : (w.push a).outstanding = w.outstanding ++ [a] := by
  simp [WindowPort.outstanding, WindowPort.push, h]

/-- Accesses of one block, raised or waiting, where nobody waited. -/
theorem WindowPort.submit_outstanding (b : Block) (l : List Access) {w : WindowPort} (h : w.waiting = []) :
    (w.submit b l).outstanding = w.outstanding ++ l := by
  have hfree : ∀ (l : List Access) (w : WindowPort), w.waiting = [] → (WindowPort.submitFree b l w).outstanding = w.outstanding ++ l := by
    intro l
    induction l with
    | nil => intro w _; simp [WindowPort.submitFree]
    | cons a rest ih =>
      intro w hw
      unfold WindowPort.submitFree
      split
      · rw [ih (w.push a) hw, WindowPort.outstanding_push a hw, List.append_assoc, List.singleton_append]
      · have hparked : (w.park b ((a :: rest).map Item.access)).outstanding = w.reports ++ w.fifo ++ WaitEntry.accesses
            [{ block := b, items := (a :: rest).map Item.access }] := by
          simp [WindowPort.park, WindowPort.not_waits hw, WindowPort.outstanding_eq, hw]
        rw [hparked, WindowPort.outstanding_eq, hw]
        simp [WaitEntry.accesses, List.filterMap_map]
  rw [WindowPort.submit, WindowPort.not_waits h, if_neg (by simp)]
  exact hfree l w h

/-- Settles O19: the answer of the header's read is the only access, so the initialisation is raised into an empty port. -/
theorem headerIsCheckedAtStart : Obligations.HeaderIsCheckedAtStart := by
  intro s bytes hstate hphase hport
  have hexec : exec (.headerChecks bytes) s = .next { s with part := Part.checkHeader bytes { s.part with port := {} } } := by
    have hif : exec (.headerChecks bytes) s = .next (s.onAnswer (Access.isReadOf .header) (Part.checkHeader bytes)) := if_pos ⟨hstate, hphase⟩
    rw [hif, State.onAnswer_only hport]
  refine ⟨Header.valid_iff bytes, Header.defaults_facts, fun hv => ?valid, fun hv => ?invalid⟩
  case valid =>
    refine ⟨WindowPort.submit .runController (startAccesses s.part.base) {}, ?_, WindowPort.submit_outstanding _ _ rfl,
      WindowPort.submit_bounded _ _ WindowPort.empty_bounded⟩
    rw [hexec, Part.checkHeader, if_pos hv]
    rfl
  case invalid =>
    rw [hexec, Part.checkHeader, if_neg (by simp [hv])]
    rfl

/-! ## Start-up (R127, R171) -/

/-- R127: BOARD follows the last DONE write. -/
theorem restartWrites_eq (base : Nat) (time : Word) {l : List Nat} (h : l.Nodup) :
    restartWrites base time l = l.flatMap fun n =>
      completionWrites base n { outcome := .restarted } false time (if l.getLast? = some n then .done n else .silent) := by
  induction l with
  | nil => rfl
  | cons n rest ih =>
    cases rest with
    | nil => simp [restartWrites]
    | cons m rest =>
      have hn : (m :: rest).getLast? ≠ some n := fun e => (List.nodup_cons.mp h).1 (List.mem_of_getLast? e)
      rw [restartWrites, ih (List.nodup_cons.mp h).2, List.flatMap_cons (xs := m :: rest), List.getLast?_cons_cons, if_neg hn]

/-- R174: where nobody waits for room, the accesses are performed in their order, and answers that nobody waits for leave nothing. -/
theorem State.perform_silent {l : List Access} {s : State} (hf : s.part.port.fifo = l) (hw : s.part.port.waiting = [])
    (hl : ∀ a ∈ l, a.reported = false) {n : Nat} (hn : l.length ≤ n) :
    s.perform n = { s with mem := l.foldl Access.land s.mem, part := { s.part with port := { s.part.port with fifo := [] } } } := by
  induction l generalizing s n with
  | nil =>
    have hperform : s.perform n = s := by
      clear hn
      induction n with
      | zero => rfl
      | succ n ih => rw [State.perform, State.performFront_empty hf, ih]
    rw [hperform]
    cases s; rename_i p _ ; cases p; rename_i w _ _ _ _ _ _ _; cases w
    simp only at hf
    simp [hf]
  | cons a rest ih =>
    obtain ⟨m, rfl⟩ : ∃ m, n = m + 1 := ⟨n - 1, by simp only [List.length_cons] at hn; omega⟩
    have ha : a.reported = false := hl a List.mem_cons_self
    have hpop : (s.part.popFront a rest).refill = s.part.popFront a rest := by
      unfold Part.refill
      rw [show (s.part.popFront a rest).port.waiting = [] from hw]
      rfl
    rw [State.perform, State.performFront_cons hf, hpop, ih (s := { s with mem := a.land s.mem, part := s.part.popFront a rest }) rfl hw
      (fun x hx => hl x (List.mem_cons_of_mem _ hx)) (by simp only [List.length_cons] at hn; omega)]
    simp [Part.popFront, ha]

theorem State.performAll_silent {s : State} (hw : s.part.port.waiting = []) (hl : ∀ a ∈ s.part.port.fifo, a.reported = false) :
    s.performAll = { s with
      mem := s.part.port.fifo.foldl Access.land s.mem
      part := { s.part with port := { s.part.port with fifo := [] } } } :=
  State.perform_silent rfl hw hl (by rw [WindowPort.work]; omega)

/-- Settles O20: with nobody waiting, the initialisation writes are performed and the reading of the sweep is raised into an empty port. -/
theorem startRestartsTakenSlotsThenRuns : Obligations.StartRestartsTakenSlotsThenRuns := by
  intro s hstate hfin
  refine ⟨fun states hphase hport => ?restarted, fun hphase hfree hreports hsilent => ?running⟩
  case restarted =>
    refine ⟨WindowPort.submit .boardController (restartWrites s.part.base s.part.run.clock (takenSlots states)) {}, ?_,
      WindowPort.submit_bounded _ _ WindowPort.empty_bounded, ?_⟩
    · have hif : exec (.restarted states) s = .next (s.onAnswer (Access.isReadOf .startStates) fun p => (p.restartSlots states).settle) :=
        if_pos ⟨hstate, hphase⟩
      rw [hif, State.onAnswer_only hport, Part.settle_eq_self]
      · rfl
      · exact WindowPort.submit_later _ _ _
      · exact hfin
      · intro h
        exact absurd (hstate.symm.trans h.1) (by decide)
    · rw [WindowPort.submit_outstanding _ _ rfl, restartWrites_eq]
      · rfl
      · exact List.nodup_range.filter _
  case running =>
    have hall := State.performAll_silent hfree.1 hsilent
    have hquiet : s.performAll.part.port.quiet = true := by
      rw [hall]
      simp [WindowPort.quiet, WindowPort.free, hfree.1, hfree.2, hreports]
    have hif : exec .entryIntoRunning s = .next (s.performAll.onPart fun p => p.enterRunning.settle) := if_pos ⟨hstate, hphase, hquiet⟩
    have hrun : ∀ p : Part, p.board.finishes = [] → p.enterRunning.settle = { p with
        run := { p.run with partState := .running, startPhase := .notStarting }
        board := { p.board with sweep := .reading, sweepTimer := none }
        port := { fifo := [stateBytesRead .sweepStates p.base] } } := by
      intro p hp
      have henter : p.enterRunning = { p with
          run := { p.run with partState := .running, startPhase := .notStarting }
          board := { p.board with sweep := .reading, sweepTimer := none }
          port := { fifo := [stateBytesRead .sweepStates p.base] } } :=
        Part.startSweep_fits (p := { p with run := { p.run with partState := .running, startPhase := .notStarting }, port := {} })
          (WindowPort.fits_empty (by simp))
      rw [henter]
      exact Part.settle_running rfl rfl hp
    rw [hif, State.onPart, hrun _ (by rw [hall]; exact hfin), hall]
    rfl

end Sys2Proof.Machine
end

section
/-! SUPPORT. The statements about the entry into STOPPED, the answers that set summary bits, and the bank queue. -/

namespace Sys2Proof.Machine

/-! ## Rest (R173) -/

theorem Part.unitSlot_stopTimers (p : Part) (a : Nat) :
    (p.um.stopTimers.slots[a]?.getD {} : UnitSlot) =
      { p.unitSlot a with place := (p.unitAt a).map fun u => { u with settle := none } } := by
  simp only [Part.unitAt, Part.unitSlot, UnitManager.stopTimers, Vector.getElem?_map]
  cases p.um.slots[a]? <;> rfl

theorem Part.entrySlot_stopTimers (p : Part) (n : Nat) :
    (p.dir.stopTimers.slots[n]?.getD {} : EntrySlot) =
      { p.entrySlot n with entry := (p.entryAt n).map fun e => { e with staleTimer := none } } := by
  simp only [Part.entryAt, Part.entrySlot, DirectoryEngine.stopTimers, Vector.getElem?_map]
  cases p.dir.slots[n]? <;> rfl

/-- Settles O21: with nobody waiting every write is performed, and nothing is left in hand. -/
theorem stoppedIsEnteredAtRest : Obligations.StoppedIsEnteredAtRest := by
  intro s hstate hended hturn hchoice hte hfin hcom hbank hfree hreports hsilent
  have hall := State.performAll_silent hfree.1 hsilent
  have hsettle : s.performAll.part.settle = s.performAll.part := by
    refine Part.settle_eq_self ?_ ?_ fun h => ?_
    · rw [hall]; exact hfree.2
    · rw [hall]; exact hfin
    · rw [hall] at h
      exact absurd (hended.symm.trans h.2.1) (by simp)
  have hrest : s.performAll.part.settle.atRest = true := by
    rw [hsettle, hall]
    simp [Part.atRest, WindowPort.quiet, WindowPort.free, hstate, hended, hturn, hchoice, hte, hfin, hcom, hbank, hfree.1, hfree.2, hreports]
  have hexec : exec .entryIntoStopped s = .next (s.performAll.onPart Part.enterStopped) := by
    rw [exec_entryIntoStopped, if_pos hrest, State.onPart, hsettle]
    rfl
  rw [hall] at hexec
  exact ⟨_, hexec, rfl, rfl, rfl, rfl, rfl, rfl, rfl, rfl, rfl, rfl, s.part.unitSlot_stopTimers, s.part.entrySlot_stopTimers⟩

/-! ## Answers (R122, R153, R163) -/

/-- The answer of the access at the front, where nothing but accesses to be performed is outstanding. -/
theorem State.onAnswer_front {s : State} {what : Access → Bool} {a : Access} {rest : List Access} (hp : s.part.port = { fifo := a :: rest })
    (hr : a.reported = true) (hw : what a = true) (f : Part → Part) :
    s.onAnswer what f = { s with mem := a.land s.mem, part := f { s.part with port := { fifo := rest } } } := by
  rw [State.onAnswer, State.claim_front hp hr hw]
  rfl

/-- With nothing outstanding but accesses to be performed nobody waits for room. -/
theorem State.portFree_of_fifo {s : State} {l : List Access} (hp : s.part.port = { fifo := l }) : s.PortFree := by
  rw [State.PortFree, hp]
  exact ⟨rfl, rfl⟩

/-- A change that leaves nothing in hand, in a settled state, leaves nothing to settle. -/
theorem State.Settled.settle_eq {s : State} (h : s.Settled) (hw : s.part.port.waiting = []) {p : Part} (hl : p.port.later = [])
    (hf : p.board.finishes = s.part.board.finishes) (hr : p.run = s.part.run) (ht : p.te = s.part.te)
    (hd : p.um.dismissWait = s.part.um.dismissWait) : p.settle = p := by
  obtain ⟨_, h2, h3⟩ := h hw
  refine Part.settle_eq_self hl (hf.trans h2) fun e => h3 ?_
  rwa [hr, Part.drainDone, ht, hd] at e

/-- Writes need room in the write queue alone. -/
theorem WindowPort.submit_writes {b : Block} {l : List Access} {w : WindowPort} (hw : w.waiting = []) (hl : ∀ a ∈ l, a.isRead = false)
    (hr : w.writesQueued + l.length ≤ Config.writeQueueSize) : w.submit b l = w.with l := by
  have hfree : WindowPort.submitFree b l w = w.with l := by
    induction l generalizing w with
    | nil => simp [WindowPort.submitFree]
    | cons a rest ih =>
      have ha := hl a List.mem_cons_self
      have hpush : (w.push a).writesQueued = w.writesQueued + 1 := by
        simp [WindowPort.writesQueued, WindowPort.push, List.filter_append, ha]
      rw [List.length_cons] at hr
      have hroom : w.hasRoom a = true := by
        simp only [WindowPort.hasRoom, ha, Bool.false_eq_true, if_false, decide_eq_true_eq]
        omega
      rw [WindowPort.submitFree, if_pos hroom, ih (w := w.push a) hw (fun x hx => hl x (List.mem_cons_of_mem _ hx)) (by omega), WindowPort.push_eq,
        WindowPort.with_with]
      rfl
  rw [WindowPort.submit, WindowPort.not_waits hw, if_neg (by simp), hfree]

theorem Completion.writes_facts (base : Nat) (c : Completion) : (c.writes base).length = 2 ∧ ∀ a ∈ c.writes base, a.isRead = false := by
  refine ⟨rfl, fun a ha => ?_⟩
  simp only [Completion.writes, completionWrites, List.mem_cons, List.not_mem_nil, or_false] at ha
  rcases ha with rfl | rfl <;> rfl

/-- R122: the writes of the completion that has become the first. -/
def BoardController.nextWrites (base : Nat) (b : BoardController) : List Access :=
  match b.completions.drop 1 with
  | c :: _ => c.writes base
  | [] => []

theorem BoardController.nextWrites_facts (base : Nat) (b : BoardController) :
    (b.nextWrites base).length ≤ 2 ∧ ∀ a ∈ b.nextWrites base, a.isRead = false := by
  unfold BoardController.nextWrites
  split
  · exact ⟨(Completion.writes_facts base _).1.le, (Completion.writes_facts base _).2⟩
  · exact ⟨Nat.zero_le _, fun _ h => absurd h List.not_mem_nil⟩

theorem Part.completionDone_eq (p : Part) :
    p.completionDone = ({ p.setSummary bitBoard with board := { p.board with completions := p.board.completions.drop 1 } }).submit .boardController
      (p.board.nextWrites p.base) := by rfl

/-- R122 step 3, where there is room. -/
theorem Part.completionDone_fits {l : List Access} {p : Part} (hp : p.port = { fifo := l }) (hl : l.length ≤ 30) :
    p.completionDone = { p.setSummary bitBoard with
      board := { p.board with completions := p.board.completions.drop 1 }
      port := { fifo := l ++ p.board.nextWrites p.base } } := by
  obtain ⟨hlen, hwrites⟩ := p.board.nextWrites_facts p.base
  have hsubmit : p.port.submit .boardController (p.board.nextWrites p.base) = p.port.with (p.board.nextWrites p.base) := by
    refine WindowPort.submit_writes (by rw [hp]) hwrites ?_
    have := List.length_filter_le (fun a : Access => !a.isRead) p.port.fifo
    rw [WindowPort.writesQueued, Config.writeQueueSize]
    rw [show p.port.fifo = l by rw [hp]] at *
    omega
  rw [Part.completionDone_eq, Part.submit]
  show ({ p.setSummary bitBoard with port := p.port.submit .boardController (p.board.nextWrites p.base), board := _ } : Part) = _
  rw [hsubmit, WindowPort.with, hp]

/-- R153: the first bank map write not yet answered is the one at the front. -/
theorem WindowPort.firstBankBit_front (addr : Nat) (bytes : List Byte) (m : MapKind) (rest : List Access) :
    WindowPort.firstBankBit { fifo := .write addr bytes (.bankBit m) :: rest } = some m := by rfl

/-- A summary bit that an answer hands on. -/
theorem State.Settled.setSummary {s : State} (h : s.Settled) {a : Access} {rest : List Access} (hp : s.part.port = { fifo := a :: rest })
    {what : Access → Bool} (hr : a.reported = true) (hw : what a = true) (b : BitVec 5) :
    s.onAnswer what (fun p => (p.setSummary b).settle) = { s with
      mem := a.land s.mem
      part := { s.part with port := { fifo := rest }, svc := { s.part.svc with summary := s.part.svc.summary ||| b } } } := by
  rw [State.onAnswer_front hp hr hw]
  have hsettle := h.settle_eq (by rw [hp]) (p := Part.setSummary b { s.part with port := { fifo := rest } }) rfl rfl rfl rfl rfl
  rw [hsettle]
  rfl

/-- Settles O22: the write at the front is the one whose answer is taken. -/
theorem performedWritesSetSummaryBits : Obligations.PerformedWritesSetSummaryBits := by
  intro s addr bytes rest hs
  have hawait : ∀ a : Access, s.part.port = { fifo := a :: rest } → s.awaitRoom = s := fun a hp =>
    State.awaitRoom_eq (s.free_of_portFree (State.portFree_of_fifo hp))
  refine ⟨fun n hp hlen => ?done, fun c tag bit hc hp => ?bits⟩
  case done =>
    have hexec : exec (.doneWritePerformed n) s = .next (s.awaitRoom.onAnswer (Access.isReport (.done n)) fun p => p.completionDone.settle) := rfl
    have hdone := Part.completionDone_fits (p := { s.part with port := { fifo := rest } }) rfl hlen
    rw [hexec, hawait _ hp, State.onAnswer_front hp rfl (by simp [Access.isReport]), hdone, hs.settle_eq (by rw [hp])]
    all_goals rfl
  case bits =>
    rcases hc with ⟨rfl, rfl, rfl⟩ | ⟨rfl, rfl, rfl⟩ | ⟨rfl, rfl, rfl⟩
    · have hexec : exec .bankBitWritten s = .next (s.onAnswer (Access.isReport (.bankBit .directory)) fun p => (p.setSummary bitDirectory).settle) := by
        show execBankBitWritten s = _
        rw [execBankBitWritten, hawait _ hp, hp]
        rfl
      rw [hexec, hs.setSummary hp rfl rfl]
      rfl
    · have hexec : exec .bankBitWritten s = .next (s.onAnswer (Access.isReport (.bankBit .unit)) fun p => (p.setSummary bitUnit).settle) := by
        show execBankBitWritten s = _
        rw [execBankBitWritten, hawait _ hp, hp]
        rfl
      rw [hexec, hs.setSummary hp rfl rfl]
      rfl
    · have hexec : exec .faultRecordWritten s = .next (s.awaitRoom.onAnswer (Access.isReport .newestFault) fun p => (p.setSummary bitFault).settle) := rfl
      rw [hexec, hawait _ hp, hs.setSummary hp rfl rfl]
      rfl

/-! ## The bank queue (R153, R154) -/

/-- R153 step 1: the read that the item at the front of a bank queue needs. -/
def BankItem.reads (base : Nat) : List BankItem → List Access
  | .update b m i :: _ => [.read .bankWord (mapWordAddr base b m i) 4]
  | .swap _ _ :: _ => []
  | [] => []

theorem ServiceUnit.bankRead_eq (v : ServiceUnit) (base : Nat) : v.bankRead base = BankItem.reads base v.bankQueue := by
  unfold ServiceUnit.bankRead BankItem.reads
  split <;> simp_all

theorem BankItem.reads_facts (base : Nat) (q : List BankItem) :
    (BankItem.reads base q).length ≤ 1 ∧ ((BankItem.reads base q).filter fun a => !a.isRead) = [] := by
  unfold BankItem.reads
  split <;> exact ⟨by simp, rfl⟩

/-- R153: the writes of the item at the front are raised, and the read that the next one needs. -/
theorem Part.bankItemDone_fits {l : List Access} {x : BankItem} {q : List BankItem} {p : Part} (hq : p.svc.bankQueue = x :: q)
    (hf : p.port.Fits (l ++ BankItem.reads p.base q)) :
    p.bankItemDone l = { p with svc := { p.svc with bankQueue := q }, port := p.port.with (l ++ BankItem.reads p.base q) } := by
  rw [Part.bankItemDone]
  simp only [ServiceUnit.bankRead_eq, hq, List.drop_succ_cons, List.drop_zero]
  exact Part.submit_fits .serviceUnit _ { p with svc := { p.svc with bankQueue := q } } hf

theorem exec_bankUpdate {s : State} (h : s.PortFree) : exec .bankUpdate s = .next (s.performBankItem.onPart Part.settle) := by
  show Host.Outcome.next (s.awaitRoom.performBankItem.onPart Part.settle) = _
  rw [State.awaitRoom_eq (s.free_of_portFree h)]

/-- R153 steps 1 and 2: the read of the map word has been answered. -/
theorem State.performBankItem_update {s : State} {b : BankId} {m : MapKind} {i : Nat} {q : List BankItem}
    (hq : s.part.svc.bankQueue = .update b m i :: q) (hp : s.OnlyAccess (.read .bankWord (mapWordAddr s.part.base b m i) 4)) :
    s.performBankItem = ({ s with part := { s.part with port := { fifo := [] } } } : State).onPart
      (Part.bankItemDone [.write (mapWordAddr s.part.base b m i) (s.mem.mapWordWith (mapWordAddr s.part.base b m i) i) (.bankBit m)]) := by
  unfold State.performBankItem
  simp only [hq, State.claim_front (what := Access.isReadOf .bankWord) hp rfl rfl]
  rfl

/-- R154: a swap needs no answer. -/
theorem State.performBankItem_swap {s : State} {count : Half} {frozen : BankId} {q : List BankItem}
    (hq : s.part.svc.bankQueue = .swap count frozen :: q) (h : s.part.swapMayBegin = true) :
    s.performBankItem = s.onPart fun p => p.bankItemDone (swapWrites p.base count frozen) := by
  unfold State.performBankItem
  simp only [hq, h, if_true]

theorem zeroWords_facts (addr n : Nat) :
    ((zeroWords addr n).filter fun a => !a.isRead).length = n ∧ (zeroWords addr n).filter Access.isRead = [] := by
  constructor
  · rw [List.filter_eq_self.mpr (by simp [zeroWords, Access.isRead])]
    simp [zeroWords]
  · rw [List.filter_eq_nil_iff.mpr (by simp [zeroWords, Access.isRead])]

/-- Settles O23: the item's writes and the next one's read find room. -/
theorem bankQueueIsServedInOrder : Obligations.BankQueueIsServedInOrder := by
  intro s q hs
  have hread := BankItem.reads_facts s.part.base q
  refine ⟨fun b m i hq hp => ?update, fun count frozen hq hidle hhalted hphase hroom => ?swap⟩
  case update =>
    have hdone := Part.bankItemDone_fits (p := { s.part with port := { fifo := [] } }) hq
      (l := [.write (mapWordAddr s.part.base b m i) (s.mem.mapWordWith (mapWordAddr s.part.base b m i) i) (.bankBit m)])
      (WindowPort.fits_empty (by rw [List.length_append]; exact (Nat.add_le_add (Nat.le_refl 1) hread.1).trans (by omega)))
    rw [exec_bankUpdate (State.portFree_of_fifo hp), State.performBankItem_update hq hp, State.onPart, State.onPart, hdone, hs.settle_eq (by rw [hp])]
    · rcases q with _ | ⟨_ | _, _⟩ <;> rfl
    all_goals rfl
  case swap =>
    obtain ⟨hw, hl, hwrites, hreads⟩ := hroom
    have hbegin : s.part.swapMayBegin = true := by
      simp [Part.swapMayBegin, Part.windowHeld_iff.mpr ⟨hidle, hhalted⟩, hphase, WindowPort.not_waits hw]
    have hzero := zeroWords_facts (bankAddr s.part.base frozen.other) 7
    have hfits : s.part.port.Fits (swapWrites s.part.base count frozen ++ BankItem.reads s.part.base q) := by
      have hbank : ([Access.write (bankWordAddr s.part.base) (bankWordBytes count frozen) .silent].filter Access.isRead).length = 0 := rfl
      refine ⟨hw, ?_, ?_⟩
      · simp only [swapWrites, List.filter_append, List.length_append, hread.2, hzero.1]
        exact hwrites
      · have hle := List.length_filter_le Access.isRead (BankItem.reads s.part.base q)
        simp only [swapWrites, List.filter_append, List.length_append, hzero.2, hbank, List.length_nil]
        omega
    have hdone := Part.bankItemDone_fits hq hfits
    rw [exec_bankUpdate ⟨hw, hl⟩, State.performBankItem_swap hq hbegin, State.onPart, State.onPart, hdone, hs.settle_eq hw]
    · rw [swapWrites, WindowPort.with, List.append_assoc, ← List.append_assoc s.part.port.fifo, ← List.append_assoc _ [_]]
      rcases q with _ | ⟨_ | _, _⟩ <;> rfl
    · exact hl
    all_goals rfl

end Sys2Proof.Machine
end

section
/-! SUPPORT. The ranges that a request's fields must lie in (R115, R128, R131 to R147), and the requests that write a unit's place and complete within their take:
ENROLL and HOLD. -/

namespace Sys2Proof.Machine

/-! ## Ranges -/

theorem Req.unitInRange_iff (r : List Byte) : Req.unitInRange r = true ↔ 1 ≤ natAt r 0x06 ∧ natAt r 0x06 ≤ 30 := by
  rw [Req.unitInRange, decide_eq_true_eq]
  rfl

theorem Req.unitOrAll_iff (r : List Byte) :
    Req.unitOrAll r = true ↔ 1 ≤ natAt r 0x06 ∧ natAt r 0x06 ≤ 30 ∨ natAt r 0x06 = 255 := by
  rw [Req.unitOrAll, Bool.or_eq_true, Req.unitInRange_iff, beq_iff_eq]
  rfl

theorem Req.codeInRange_iff (r : List Byte) : Req.codeInRange r = true ↔ natAt r 0x07 ≤ 63 := by
  rw [Req.codeInRange, decide_eq_true_eq]
  rfl

theorem Req.commonInRange_iff (k : ReqKind) (r : List Byte) :
    Req.commonInRange k r = true ↔
      (halfAt r 0x04 = 0 ∨ halfAt r 0x04 ≠ halfAt r 0x02) ∧ (if k = .transact then natAt r 0x01 ≤ 3 else natAt r 0x01 = 0) ∧
      (k = .transact ∨ k = .sync ∨ leAt r 0x08 2 = 0) := by
  have hflags : (Req.flags r == 0) = true ↔ natAt r 0x01 = 0 := by
    rw [beq_iff_eq, Req.flags, byteAt_eq_zero_iff]
  simp only [Req.commonInRange, Bool.and_eq_true, Bool.or_eq_true, beq_iff_eq, bne_iff_ne, decide_eq_true_eq, and_assoc]
  refine and_congr Iff.rfl (and_congr ?_ (by rw [or_assoc]; rfl))
  split
  · rw [decide_eq_true_eq]; rfl
  · exact hflags

/-- Check 2 of R115, field by field. -/
theorem Req.inRange_iff (base : Nat) (k : ReqKind) (r : List Byte) : Req.inRange base k r = true ↔
      (halfAt r 0x04 = 0 ∨ halfAt r 0x04 ≠ halfAt r 0x02) ∧ (if k = .transact then natAt r 0x01 ≤ 3 else natAt r 0x01 = 0) ∧
      (k = .transact ∨ k = .sync ∨ leAt r 0x08 2 = 0) ∧
      (k ∈ [.enroll, .dismiss, .hold, .declare, .retire, .transact] → 1 ≤ natAt r 0x06 ∧ natAt r 0x06 ≤ 30) ∧
      (k = .clear ∨ k = .sync → 1 ≤ natAt r 0x06 ∧ natAt r 0x06 ≤ 30 ∨ natAt r 0x06 = 255) ∧
      (k ∈ [.declare, .retire, .transact] → natAt r 0x07 ≤ 63) ∧ (k = .clear → natAt r 0x07 ≤ 63 ∨ natAt r 0x07 = 255) ∧
      (k = .enroll → natAt r 0x0C ≠ 0 ∧ 1 ≤ natAt r 0x0D ∧ natAt r 0x0D ≤ 50 ∧ natAt r 0x0E ≤ 7 ∧ 1 ≤ natAt r 0x0F ∧ natAt r 0x0F ≤ 15 ∧
        1 ≤ natAt r 0x10 ∧ natAt r 0x10 ≤ 15 ∧ natAt r 0x11 ≤ 1 ∧ natAt r 0x13 ≤ 15 ∧ natAt r 0x14 ≠ 0 ∧ 1 ≤ natAt r 0x15 ∧ natAt r 0x15 ≤ 8) ∧
      (k = .hold → natAt r 0x0C = 1 ∨ natAt r 0x0C = 2) ∧
      (k = .declare → natAt r 0x10 ≤ 1 ∧ natAt r 0x11 ≤ 1 ∧ natAt r 0x12 ≤ 1 ∧ natAt r 0x13 ≤ 2 ∧ natAt r 0x14 ≤ 1) ∧
      (k = .clear → natAt r 0x0C ≤ 3) ∧ (k = .transact → natAt r 0x0A ≤ 24) ∧
      (k = .lend → leAt r 0x0C 5 % 256 = 0 ∧ 4 ≤ natAt r 0x11 ∧ natAt r 0x11 ≤ 64 ∧ leAt r 0x0C 5 + 256 * natAt r 0x11 ≤ 2 ^ 40 ∧
        (leAt r 0x0C 5 + 256 * natAt r 0x11 ≤ base ∨ base + 24 * 1024 ≤ leAt r 0x0C 5)) := by
  have hall : ∀ n : Nat, (n == Req.all) = true ↔ n = 255 := fun n => by rw [beq_iff_eq]; rfl
  rw [Req.inRange.eq_def, Bool.and_eq_true, Req.commonInRange_iff, and_assoc, and_assoc]
  refine and_congr Iff.rfl (and_congr Iff.rfl (and_congr Iff.rfl ?_))
  cases k with
  | enroll =>
    simp only [Req.enrollInRange, Bool.and_eq_true, decide_eq_true_eq, Req.unitInRange_iff]
    simp [Req.param]
    omega
  | dismiss => simp [Req.unitInRange_iff]
  | hold =>
    simp only [Bool.and_eq_true, decide_eq_true_eq, Req.unitInRange_iff]
    simp [Req.param]
    omega
  | declare =>
    simp only [Req.declareInRange, Bool.and_eq_true, decide_eq_true_eq, Req.unitInRange_iff, Req.codeInRange_iff]
    simp [Req.param]
    omega
  | retire => simp [Req.unitInRange_iff, Req.codeInRange_iff]
  | clear =>
    simp only [Bool.and_eq_true, Bool.or_eq_true, decide_eq_true_eq, Req.unitOrAll_iff, Req.codeInRange_iff, hall]
    simp [Req.code, Req.param, and_assoc]
  | transact =>
    simp only [Bool.and_eq_true, decide_eq_true_eq, Req.unitInRange_iff, Req.codeInRange_iff]
    simp [Req.payloadLength, and_assoc]
  | sync => simp [Req.unitOrAll_iff]
  | abort => simp
  | lend =>
    simp only [Req.lendInRange, Bool.and_eq_true, Bool.or_eq_true, decide_eq_true_eq, beq_iff_eq]
    simp [Req.pageAddress, Req.pageSize, Req.param, Config.windowSize, and_assoc]
  | cut => simp

/-! ## Requests that write a unit's place and complete within their take -/

/-- R40: the body of a mirror always differs from the one shown where the rewrite is asked for in every case. -/
theorem Part.accepted_reads (k : ReqKind) (n : Nat) (r : List Byte) (s : State) :
    (∀ a, (Part.accepted k n r { s.part with port := {} }).unitSlot a = s.part.unitSlot a) ∧
    (∀ i, (Part.accepted k n r { s.part with port := {} }).entrySlot i = s.part.entrySlot i) ∧
    (Part.accepted k n r { s.part with port := {} }).base = s.part.base ∧
    (∀ m i, (Part.accepted k n r { s.part with port := {} }).bankBitRead m i = s.part.bankBitRead m i) ∧
    (Part.accepted k n r { s.part with port := {} }).port = {} := by
  obtain ⟨hr, _, _, _, hu, hd, hp, hs⟩ := Part.accepted_same k n r { s.part with port := {} }
  have hbase : (Part.accepted k n r { s.part with port := {} }).base = s.part.base := by simp only [Part.base, hr]
  exact ⟨fun a => by simp only [Part.unitSlot, hu], fun i => by simp only [Part.entrySlot, hd], hbase,
    fun m i => by simp only [Part.bankBitRead, hs, hbase], hp⟩

theorem Part.putUnit_slot (a : Nat) (new : Option FieldUnit) (f : Bool) (p : Part) (ha : 1 ≤ a ∧ a ≤ 30) (b : Nat) :
    (p.putUnit a new f).unitSlot b = if b = a then
      { version := if f || unitBody (p.unitAt a) != unitBody new then (p.unitSlot a).version + 2 else (p.unitSlot a).version, place := new }
      else p.unitSlot b := by
  unfold Part.unitSlot
  rw [Part.putUnit_slots, if_pos ha]
  simp only [Vector.getElem?_setIfInBounds]
  by_cases e : b = a
  · subst e
    simp [show b < 32 by omega, Part.unitAt, Part.unitSlot]
  · simp [e, Ne.symm e]

/-- What a request leaves that writes the place at address `a` with the unit `u`, its mirror rewritten always (`f`) or where what it shows changes, and completes
within its take (R40, R148). -/
structure State.WritesPlace (s t : State) (n : Nat) (slot : List Byte) (a : Nat) (u : FieldUnit) (f : Bool) (res : Result) : Prop where
  completed : s.CompletedTake t n slot res
  place : t.part.unitAt a = some u
  others : s.OtherUnits t a
  te : t.part.te = s.part.te
  line : t.part.line = s.part.line
  dir : t.part.dir = s.part.dir
  jw : t.part.jw = s.part.jw
  dismissWait : t.part.um.dismissWait = s.part.um.dismissWait
  svc : t.part.svc = if unitBitChange (s.part.unitAt a) (some u) then
    { s.part.svc with bankQueue := s.part.svc.bankQueue ++ [.update s.part.svc.activeBank .unit a] } else s.part.svc
  version : (t.part.unitSlot a).version =
    if f || unitBody (s.part.unitAt a) != unitBody (some u) then (s.part.unitSlot a).version + 2 else (s.part.unitSlot a).version
  fifo : s.part.unitAccesses a (some u) f ++ s.completionOf n slot res <+: t.part.port.fifo

theorem State.takeRow_writesPlace {s : State} {n : Nat} {slot : List Byte} {k : ReqKind} {res : Result} {u : FieldUnit} {f : Bool}
    (hT : s.TakesSlot n slot k) (hA : s.Accepts slot) (hN : s.NoPredecessor (slot.take 64))
    (ha : 1 ≤ Req.unit (slot.take 64) ∧ Req.unit (slot.take 64) ≤ 30)
    (hh : (Part.accepted k n (slot.take 64) { s.part with port := {} }).handOver k s.part.board.nextSeq n (slot.take 64) none =
      ((Part.accepted k n (slot.take 64) { s.part with port := {} }).putUnit (Req.unit (slot.take 64)) (some u) f).finishRequest .unitManager
        s.part.board.nextSeq res) :
    ∃ t : State, s.takeRow (ofKind k) slot = t ∧ s.WritesPlace t n slot (Req.unit (slot.take 64)) u f res := by
  obtain ⟨hslots, _, hbase, hread, hport⟩ := Part.accepted_reads k n (slot.take 64) s
  obtain ⟨hr, hl, hte, hjw, hum, hdir, _, hsvc⟩ := Part.accepted_same k n (slot.take 64) { s.part with port := {} }
  generalize hP : Part.accepted k n (slot.take 64) { s.part with port := {} } = P at *
  generalize hA' : Req.unit (slot.take 64) = a at *
  have haccesses : P.unitAccesses a (some u) f = s.part.unitAccesses a (some u) f := by
    rw [Part.unitAccesses, Part.unitAccesses, Part.unitAt, Part.unitAt, hslots, hbase, hread]
  have hplace : P.unitAt a = s.part.unitAt a := by simp only [Part.unitAt, hslots]
  obtain ⟨hqport, hqsvc⟩ := Part.putUnit_fits a (some u) f P ha (by rw [hport, haccesses]; exact WindowPort.fits_empty (by
    have := s.part.unitAccesses_length a (some u) f; omega))
  obtain ⟨hqb, hqt, hqd, hqj, hqw⟩ := P.putUnit_frame a (some u) f
  have hqc := P.putUnit_calm a (some u) f
  rw [hport, haccesses] at hqport
  have hwait : (P.putUnit a (some u) f).port.waiting = [] := by rw [hqport]; rfl
  obtain ⟨x, w, e1, e2, e3⟩ := State.takeRow_completes (q := P.putUnit a (some u) f) hT hA hN
    (by rw [hP, hh, Part.finishRequest_eq hwait]) (by rw [hP]; exact hqb) (hqc.run.trans hr) (hqt.trans hte)
    (by rw [hqport]; rfl) (by rw [hqport]; show (s.part.unitAccesses a (some u) f).length ≤ 6; have := s.part.unitAccesses_length a (some u) f; omega)
  refine ⟨_, e1, e2, ?_, fun b hb => ?_, hqt.trans hte, hqc.line.trans hl, hqd.trans hdir, hqj.trans hjw, ?_, ?_, ?_, ?_⟩
  · show (P.putUnit a (some u) f).unitAt a = some u
    rw [Part.unitAt_putUnit, if_pos ⟨rfl, ha⟩]
  · show (P.putUnit a (some u) f).unitSlot b = _
    rw [Part.putUnit_slot _ _ _ _ ha, if_neg hb, hslots]
  · exact hqw.trans (by rw [hum])
  · exact hqsvc.trans (by rw [hplace, hsvc])
  · show ((P.putUnit a (some u) f).unitSlot a).version = _
    rw [Part.putUnit_slot _ _ _ _ ha, if_pos rfl, hplace, hslots]
  · have hfifo : (P.putUnit a (some u) f).port.fifo = s.part.unitAccesses a (some u) f := by rw [hqport]; rfl
    rwa [hfifo] at e3

/-- A unit named by a request of these kinds has a place. -/
theorem Req.unit_range {base : Nat} {k : ReqKind} {r : List Byte} (h : Req.inRange base k r = true)
    (hk : k ∈ [.enroll, .dismiss, .hold, .declare, .retire, .transact]) : 1 ≤ Req.unit r ∧ Req.unit r ≤ 30 :=
  ((Req.inRange_iff base k r).mp h).2.2.2.1 hk

/-! ### ENROLL (R42, R43, R54) -/

/-- What the judgement of a gate leaves of the unit as it is. -/
theorem FieldUnit.judgeGate_same (now : Word) (u : FieldUnit) :
    (u.judgeGate now).params = u.params ∧ (u.judgeGate now).link = u.link ∧ (u.judgeGate now).generation = u.generation ∧
    (u.judgeGate now).unadmitted = u.unadmitted := by
  unfold FieldUnit.judgeGate FieldUnit.openGate
  split
  · exact ⟨rfl, rfl, rfl, rfl⟩
  · split
    · split <;> exact ⟨rfl, rfl, rfl, rfl⟩
    · exact ⟨rfl, rfl, rfl, rfl⟩

theorem FieldUnit.withParams_same (q : UnitParams) (u : FieldUnit) :
    (u.withParams q).params = q ∧ (u.withParams q).link = u.link ∧ (u.withParams q).generation = u.generation ∧
    (u.withParams q).unadmitted = u.unadmitted := by
  unfold FieldUnit.withParams
  split
  · exact ⟨rfl, rfl, rfl, rfl⟩
  · split <;> exact ⟨rfl, rfl, rfl, rfl⟩

/-- R40: a unit whose link, generation and unadmitted count stay sets its bank bit where its gate or its factors change. -/
theorem unitBitChange_of_same {o u : FieldUnit} (hl : u.link = o.link) (hg : u.generation = o.generation) (hn : u.unadmitted = o.unadmitted) :
    unitBitChange (some o) (some u) = !decide (o.gate = u.gate ∧ o.factors = u.factors) := by
  simp only [unitBitChange, hl, hg, hn, bne_self_eq_false, Bool.and_false, Bool.or_false, Bool.false_or]
  by_cases h1 : o.gate = u.gate <;> by_cases h2 : o.factors = u.factors <;> simp [h1, h2]

/-- R46: the gate of a new unit is HELD where the line is in a fault that its mask obeys. -/
theorem newUnit_judgeGate (q : UnitParams) (fault : Bool) (now : Word) :
    (newUnit q fault now).judgeGate now =
      { newUnit q fault now with gate := if fault && q.holdMask.line then .held else .opened } := by
  have hcond : (newUnit q fault now).enabledCondition = (fault && q.holdMask.line) := by
    simp [FieldUnit.enabledCondition, newUnit]
  rw [FieldUnit.judgeGate, hcond]
  cases fault && q.holdMask.line <;> rfl

theorem Part.doEnroll_empty {r : List Byte} {p : Part} (h : p.unitAt (Req.unit r) = none) (m : Nat) :
    p.doEnroll m r =
      (p.putUnit (Req.unit r) (some ((newUnit (Req.unitParams r) p.line.fault.isSome p.run.clock).judgeGate p.run.clock)) true).finishRequest
        .unitManager m
        { outcome := .ok
          fields := [1, ((newUnit (Req.unitParams r) p.line.fault.isSome p.run.clock).judgeGate p.run.clock).gate.code] } := by
  rw [Part.doEnroll, h]

theorem Part.doEnroll_enrolled {r : List Byte} {p : Part} {old : FieldUnit} (h : p.unitAt (Req.unit r) = some old) (m : Nat) :
    p.doEnroll m r =
      (p.putUnit (Req.unit r) (some ((old.withParams (Req.unitParams r)).judgeGate p.run.clock)) false).finishRequest .unitManager m
        { outcome := .ok, fields := [2, ((old.withParams (Req.unitParams r)).judgeGate p.run.clock).gate.code] } := by
  rw [Part.doEnroll, h]

/-- The take's checks find the unit named in range. -/
theorem State.Accepts.inRange {s : State} {n : Nat} {slot : List Byte} {k : ReqKind} (hA : s.Accepts slot) (hT : s.TakesSlot n slot k) :
    Req.inRange s.part.base k (slot.take 64) = true := by
  obtain ⟨_, _, _, _, _, _, _, hk, _⟩ := hT
  exact (Part.validate_none hA (by rw [Req.kind_take]; exact hk)).1

/-- Settles O24: an empty place is written with its mirror in every case. -/
theorem enrollFillsAnEmptyPlace : Obligations.EnrollFillsAnEmptyPlace := by
  intro s n slot hT hA hN hplace
  have ha := Req.unit_range (hA.inRange hT) (by simp)
  obtain ⟨hslots, _, _, _, _⟩ := Part.accepted_reads .enroll n (slot.take 64) s
  obtain ⟨hr, hl, _⟩ := Part.accepted_same .enroll n (slot.take 64) { s.part with port := {} }
  have hempty : (Part.accepted .enroll n (slot.take 64) { s.part with port := {} }).unitAt (Req.unit (slot.take 64)) = none := by
    rw [Part.unitAt, hslots]; exact hplace
  have hdo := Part.doEnroll_empty hempty s.part.board.nextSeq
  rw [hr, hl] at hdo
  obtain ⟨t, ht, h⟩ := State.takeRow_writesPlace hT hA hN ha hdo
  have hbit : ∀ u : FieldUnit, unitBitChange (s.part.unitAt (Req.unit (slot.take 64))) (some u) = true := fun u => by rw [hplace]; rfl
  refine ⟨t, _, congrArg _ ht, h.completed, h.place, h.others, ?_⟩
  have hsvc := h.svc
  have hversion := h.version
  have hfifo := h.fifo
  rw [hbit, if_pos rfl] at hsvc
  rw [Bool.true_or, if_pos rfl] at hversion
  rw [Part.unitAccesses, hbit, Bool.true_or, if_pos rfl, if_pos rfl] at hfifo
  rw [newUnit_judgeGate] at hfifo ⊢
  exact ⟨rfl, rfl, rfl, rfl, rfl, rfl, rfl, rfl, rfl, rfl, rfl, rfl, rfl, rfl, rfl, rfl, rfl, rfl, rfl, rfl, rfl, h.te, h.line, h.dir, h.jw,
    h.dismissWait, hsvc, hversion, hfifo⟩

/-- What a request makes of the place of an enrolled unit that keeps its link, its generation and its unadmitted count. -/
theorem State.WritesPlace.of_same {s t : State} {n : Nat} {slot : List Byte} {a : Nat} {old u : FieldUnit} {res : Result}
    (h : s.WritesPlace t n slot a u false res) (hold : s.part.unitAt a = some old) (hl : u.link = old.link) (hg : u.generation = old.generation)
    (hn : u.unadmitted = old.unadmitted) :
    t.part.svc = { s.part.svc with bankQueue := s.part.svc.bankQueue ++
      if old.gate = u.gate ∧ old.factors = u.factors then [] else [.update s.part.svc.activeBank .unit a] } ∧
    (t.part.unitSlot a).version = (s.part.unitSlot a).version + (if unitBody (some old) = unitBody (some u) then 0 else 2) ∧
    (if unitBody (some old) = unitBody (some u) then []
      else mirrorWrites (unitMirrorAddr s.part.base a) (s.part.unitSlot a).version (unitBody (some u))) ++
      (if old.gate = u.gate ∧ old.factors = u.factors then [] else s.part.bankBitRead .unit a) ++ s.completionOf n slot res <+: t.part.port.fifo := by
  have hbit := unitBitChange_of_same hl hg hn
  refine ⟨?svc, ?version, ?fifo⟩
  case svc =>
    rw [h.svc, hold, hbit]
    by_cases e : old.gate = u.gate ∧ old.factors = u.factors <;> simp [e]
  case version =>
    rw [h.version, hold]
    by_cases e : unitBody (some old) = unitBody (some u) <;> simp [e]
  case fifo =>
    have hfifo := h.fifo
    rw [Part.unitAccesses, hold, hbit] at hfifo
    by_cases e : old.gate = u.gate ∧ old.factors = u.factors <;> by_cases e' : unitBody (some old) = unitBody (some u) <;> simpa [e, e'] using hfifo

/-- Settles O25: the judged unit is written where the old one was. -/
theorem enrollReplacesTheParameters : Obligations.EnrollReplacesTheParameters := by
  intro s n slot old hT hA hN hplace
  have ha := Req.unit_range (hA.inRange hT) (by simp)
  obtain ⟨hslots, _, _, _, _⟩ := Part.accepted_reads .enroll n (slot.take 64) s
  obtain ⟨hr, _⟩ := Part.accepted_same .enroll n (slot.take 64) { s.part with port := {} }
  have henrolled : (Part.accepted .enroll n (slot.take 64) { s.part with port := {} }).unitAt (Req.unit (slot.take 64)) = some old := by
    rw [Part.unitAt, hslots]; exact hplace
  have hdo := Part.doEnroll_enrolled henrolled s.part.board.nextSeq
  rw [hr] at hdo
  obtain ⟨t, ht, h⟩ := State.takeRow_writesPlace hT hA hN ha hdo
  obtain ⟨p1, l1, g1, n1⟩ := old.withParams_same (Req.unitParams (slot.take 64))
  obtain ⟨_, l2, g2, n2⟩ := (old.withParams (Req.unitParams (slot.take 64))).judgeGate_same s.part.run.clock
  obtain ⟨hsvc, hversion, hfifo⟩ := h.of_same hplace (l2.trans l1) (g2.trans g1) (n2.trans n1)
  refine ⟨t, _, old.withParams (Req.unitParams (slot.take 64)), congrArg _ ht, h.completed, p1, fun hno => ?kept, fun start hne hstart => ?moved, rfl, h.place,
    h.others, h.te, h.line, h.dir, h.jw, h.dismissWait, hsvc, hversion, hfifo⟩
  case kept =>
    rw [p1] at hno ⊢
    by_cases e : (Req.unitParams (slot.take 64)).pollInterval = old.params.pollInterval
    · rw [FieldUnit.withParams, if_pos e]
    · rw [FieldUnit.withParams, if_neg e, hno.resolve_left e]
  case moved =>
    rw [p1] at hne ⊢
    rw [FieldUnit.withParams, if_neg hne, hstart]
    rfl

/-! ### HOLD (R53, R135) -/

theorem FieldUnit.force_same (set : Bool) (now : Word) (u : FieldUnit) :
    (u.force set now).link = u.link ∧ (u.force set now).generation = u.generation ∧ (u.force set now).unadmitted = u.unadmitted := by
  unfold FieldUnit.force
  split
  · exact ⟨rfl, rfl, rfl⟩
  · exact (FieldUnit.judgeGate_same _ _).2

theorem Part.doHold_enrolled {r : List Byte} {p : Part} {old : FieldUnit} (h : p.unitAt (Req.unit r) = some old) (m : Nat) :
    p.doHold m r =
      (p.putUnit (Req.unit r) (some (old.force (Req.param r 0 == 1) p.run.clock)) false).finishRequest .unitManager m
        { outcome := .ok, fields := [boolByte old.factors.forced, (old.force (Req.param r 0 == 1) p.run.clock).gate.code] } := by
  rw [Part.doHold, h]

/-- Settles O26: the checks have found the unit, and the parameter is 1 or 2. -/
theorem holdSetsOrReleasesForced : Obligations.HoldSetsOrReleasesForced := by
  intro s n slot hT hA hN
  have hrange := hA.inRange hT
  have hk : Req.kind (slot.take 64) = some .hold := by
    obtain ⟨_, _, _, _, _, _, _, hk, _⟩ := hT
    rw [Req.kind_take]; exact hk
  have ha := Req.unit_range hrange (by simp)
  have hparam : Req.param (slot.take 64) 0 = 1 ∨ Req.param (slot.take 64) 0 = 2 := ((Req.inRange_iff _ _ _).mp hrange).2.2.2.2.2.2.2.2.1 rfl
  obtain ⟨_, _, ⟨hc, _⟩ | ⟨hc, _⟩⟩ := Part.validate_none hA hk
  · obtain ⟨old, hplace, hlink⟩ := Part.checkUnit_none hc
    obtain ⟨hslots, _, _, _, _⟩ := Part.accepted_reads .hold n (slot.take 64) s
    obtain ⟨hr, _⟩ := Part.accepted_same .hold n (slot.take 64) { s.part with port := {} }
    have henrolled : (Part.accepted .hold n (slot.take 64) { s.part with port := {} }).unitAt (Req.unit (slot.take 64)) = some old := by
      rw [Part.unitAt, hslots]; exact hplace
    have hdo := Part.doHold_enrolled henrolled s.part.board.nextSeq
    rw [hr] at hdo
    obtain ⟨t, ht, h⟩ := State.takeRow_writesPlace hT hA hN ha hdo
    obtain ⟨l1, g1, n1⟩ := old.force_same (Req.param (slot.take 64) 0 == 1) s.part.run.clock
    obtain ⟨hsvc, hversion, hfifo⟩ := h.of_same hplace l1 g1 n1
    refine ⟨t, old, _, Req.param (slot.take 64) 0 == 1, congrArg _ ht, h.completed, by simp, ?released, hplace, hlink, fun e => if_pos e, fun e => if_neg e,
      h.place, h.others, h.te, h.line, h.dir, h.jw, h.dismissWait, hsvc, hversion, hfifo⟩
    case released =>
      rcases hparam with e | e <;> simp [e]
  · exact absurd hc (by simp)

end Sys2Proof.Machine
end

section
/-! SUPPORT. The directory's numbers found by key or by vacancy (R1), and the requests that write one entry and complete within their take: DECLARE and RETIRE. -/

namespace Sys2Proof.Machine

/-! ## Numbers by key and by vacancy -/

theorem mem_entryNumbers {n : Nat} : n ∈ entryNumbers ↔ n < 192 := List.mem_range

theorem Part.findEntry_some {p : Part} {k : Key} {n : Nat} (h : p.findEntry k = some n) : n < 192 ∧ ∃ e, p.entryAt n = some e ∧ e.key = k := by
  refine ⟨mem_entryNumbers.mp (List.mem_of_find?_eq_some h), ?_⟩
  have hkey := List.find?_some h
  cases e : p.entryAt n with
  | none => simp [e] at hkey
  | some x => exact ⟨x, rfl, by simpa [e] using hkey⟩

theorem Part.findEntry_none_iff {p : Part} {k : Key} : p.findEntry k = none ↔ ∀ n < 192, ∀ e, p.entryAt n = some e → e.key ≠ k := by
  rw [Part.findEntry, List.find?_eq_none]
  refine forall_congr' fun n => imp_congr mem_entryNumbers ?_
  cases p.entryAt n <;> simp

/-- R1: the vacant number found is the lowest. -/
theorem Part.vacantEntry_some {p : Part} {n : Nat} (h : p.vacantEntry = some n) :
    n < 192 ∧ p.entryAt n = none ∧ ∀ i < n, p.entryAt i ≠ none := by
  refine ⟨mem_entryNumbers.mp (List.mem_of_find?_eq_some h), by simpa using List.find?_some h, fun i hi => ?_⟩
  rw [Part.vacantEntry, entryNumbers, List.find?_range_eq_some] at h
  simpa [Option.isSome_iff_ne_none] using h.2.2 i hi

theorem Part.vacantEntry_none_iff {p : Part} : p.vacantEntry = none ↔ ∀ n < 192, p.entryAt n ≠ none := by
  rw [Part.vacantEntry, List.find?_eq_none]
  simp [mem_entryNumbers]

theorem Part.findEntry_congr {p q : Part} (h : ∀ i, q.entrySlot i = p.entrySlot i) (k : Key) : q.findEntry k = p.findEntry k := by
  simp only [Part.findEntry, Part.entryAt, h]

theorem Part.vacantEntry_congr {p q : Part} (h : ∀ i, q.entrySlot i = p.entrySlot i) : q.vacantEntry = p.vacantEntry := by
  simp only [Part.vacantEntry, Part.entryAt, h]

/-! ## One number written -/

/-- R1: the key that a number shows when it holds `new`. -/
def Part.shownWith (n : Nat) (new : Option Entry) (p : Part) : Key := (new.map (·.key)).getD (p.entrySlot n).shownKey

theorem Part.entryAccesses_eq (n : Nat) (new : Option Entry) (notify : Bool) (s : State) :
    s.part.entryAccesses n new notify = s.entryMirror n new ++ if notify then s.part.bankBitRead .directory n else [] := by
  unfold Part.entryAccesses State.entryMirror
  cases new <;> simp

theorem State.entryMirror_eq_nil_iff {s : State} {n : Nat} {new : Option Entry} :
    s.entryMirror n new = [] ↔ dirBody (s.part.entrySlot n).shownKey (s.part.entryAt n) = dirBody (s.part.shownWith n new) new := by
  unfold State.entryMirror Part.shownWith
  dsimp only
  split
  · rename_i h; simp [h]
  · rename_i h; simp [h, mirrorWrites]

theorem Part.putEntry_slot (n : Nat) (new : Option Entry) (f : Bool) (p : Part) (hn : n < 192) (i : Nat) :
    (p.putEntry n new f).entrySlot i = if i = n then
      { version := if dirBody (p.entrySlot n).shownKey (p.entryAt n) = dirBody (p.shownWith n new) new then (p.entrySlot n).version
                   else (p.entrySlot n).version + 2
        shownKey := p.shownWith n new, entry := new }
      else p.entrySlot i := by
  unfold Part.entrySlot Part.putEntry
  rw [if_pos (by exact hn)]
  have hd : ∀ (l : List Item) (q : Part), (Part.raise .directoryEngine l q).dir = q.dir := fun l q => (Part.raise_owners _ _ _).2.2.2.2.1
  rw [hd]
  dsimp only
  rw [Part.entrySlot_put n _ _ i hn]
  by_cases e : i = n
  · subst e
    rw [if_pos rfl, if_pos rfl]
    by_cases hbody : dirBody (p.entrySlot i).shownKey (p.entryAt i) = dirBody (p.shownWith i new) new
    · cases new <;> simp_all [Part.entryAt, Part.entrySlot, Part.shownWith]
    · cases new <;> simp_all [Part.entryAt, Part.entrySlot, Part.shownWith]
  · rw [if_neg e, if_neg e]

/-- What a request leaves that gives entry number `m` the content `new`, notifying or not (`f`), and completes within its take (R13, R14). -/
structure State.WritesEntry (s t : State) (n : Nat) (slot : List Byte) (m : Nat) (new : Option Entry) (f : Bool) (res : Result) : Prop where
  completed : s.CompletedTake t n slot res
  entry : t.part.entryAt m = new
  others : s.OtherEntries t m
  te : t.part.te = s.part.te
  line : t.part.line = s.part.line
  um : t.part.um = s.part.um
  jw : t.part.jw = s.part.jw
  rewrites : s.RewritesEntry t m new
  svc : t.part.svc = if f then { s.part.svc with bankQueue := s.part.svc.bankQueue ++ [.update s.part.svc.activeBank .directory m] } else s.part.svc
  fifo : s.entryMirror m new ++ (if f then s.part.bankBitRead .directory m else []) ++ s.completionOf n slot res <+: t.part.port.fifo

theorem WindowPort.fifo_sublist_outstanding (w : WindowPort) : w.fifo.Sublist w.outstanding := by
  rw [WindowPort.outstanding_eq]
  exact (List.sublist_append_right _ _).trans (List.sublist_append_left _ _)

theorem State.takeRow_writesEntry {s : State} {n : Nat} {slot : List Byte} {k : ReqKind} {res : Result} {m : Nat} {new : Option Entry} {f : Bool}
    (hT : s.TakesSlot n slot k) (hA : s.Accepts slot) (hN : s.NoPredecessor (slot.take 64)) (hm : m < 192)
    (hh : (Part.accepted k n (slot.take 64) { s.part with port := {} }).handOver k s.part.board.nextSeq n (slot.take 64) none =
      ((Part.accepted k n (slot.take 64) { s.part with port := {} }).putEntry m new f).finishRequest .directoryEngine s.part.board.nextSeq res) :
    ∃ t : State, s.takeRow (ofKind k) slot = t ∧ s.WritesEntry t n slot m new f res := by
  obtain ⟨_, hslots, hbase, hread, hport⟩ := Part.accepted_reads k n (slot.take 64) s
  obtain ⟨hr, hl, hte, hjw, hum, hdir, _, hsvc⟩ := Part.accepted_same k n (slot.take 64) { s.part with port := {} }
  generalize hP : Part.accepted k n (slot.take 64) { s.part with port := {} } = P at *
  have haccesses : P.entryAccesses m new f = s.part.entryAccesses m new f := by
    rw [Part.entryAccesses_eq m new f s, show P.entryAccesses m new f = _ from Part.entryAccesses_eq m new f { s with part := P }]
    unfold State.entryMirror Part.entryAt
    rw [hslots, hbase, hread]
  have hlength : (s.part.entryAccesses m new f).length ≤ 4 := s.part.entryAccesses_length m new f
  obtain ⟨hqport, hqsvc⟩ := Part.putEntry_fits m new f P hm (by rw [hport, haccesses]; exact WindowPort.fits_empty (by omega))
  obtain ⟨hqb, hqt, hqu, hqj, hqr, hql⟩ := P.putEntry_frame m new f
  rw [hport, haccesses] at hqport
  have hqfifo : (P.putEntry m new f).port.fifo = s.part.entryAccesses m new f := by rw [hqport]; rfl
  have hwait : (P.putEntry m new f).port.waiting = [] := by rw [hqport]; rfl
  obtain ⟨x, w, e1, e2, e3⟩ := State.takeRow_completes (q := P.putEntry m new f) hT hA hN
    (by rw [hP, hh, Part.finishRequest_eq hwait]) (by rw [hP]; exact hqb) (hqr.trans hr) (hqt.trans hte) (by rw [hqport]; rfl)
    (by rw [hqfifo]; omega)
  have hslot : ∀ i, (P.putEntry m new f).entrySlot i = if i = m then
      { version := if dirBody (s.part.entrySlot m).shownKey (s.part.entryAt m) = dirBody (s.part.shownWith m new) new
                   then (s.part.entrySlot m).version else (s.part.entrySlot m).version + 2
        shownKey := s.part.shownWith m new, entry := new }
      else s.part.entrySlot i := fun i => by
    rw [Part.putEntry_slot _ _ _ _ hm, Part.shownWith, Part.entryAt, hslots, hslots]; rfl
  rw [hqfifo, Part.entryAccesses_eq] at e3
  refine ⟨_, e1, e2, ?entry, fun i hi => ?other, hqt.trans hte, hql.trans hl, hqu.trans hum, hqj.trans hjw, ⟨?version, ?mirror⟩, ?svc, e3⟩
  case entry =>
    show (P.putEntry m new f).entryAt m = new
    rw [Part.entryAt_putEntry, if_pos ⟨rfl, hm⟩]
  case other =>
    show (P.putEntry m new f).entrySlot i = _
    rw [hslot, if_neg hi]
  case version =>
    show ((P.putEntry m new f).entrySlot m).version = _
    rw [hslot, if_pos rfl]
    by_cases e : s.entryMirror m new = []
    · rw [if_pos e, if_pos (State.entryMirror_eq_nil_iff.mp e)]; simp
    · rw [if_neg e, if_neg (mt State.entryMirror_eq_nil_iff.mpr e)]
  case mirror =>
    refine List.Sublist.trans ?_ (WindowPort.fifo_sublist_outstanding w)
    refine List.Sublist.trans ?_ e3.sublist
    rw [List.append_assoc]
    exact List.sublist_append_left _ _
  case svc => exact hqsvc.trans (by rw [hsvc])

/-! ### DECLARE (R16, R17) -/

theorem NotifyMode.state_eq (x : NotifyMode) : x.state = !decide (x = .never) := by cases x <;> rfl

/-- R13, R14: what the bank queue takes and what is raised for a change that the notify mode announces. -/
theorem State.WritesEntry.of_state {s t : State} {n : Nat} {slot : List Byte} {m : Nat} {new : Option Entry} {x : NotifyMode} {res : Result}
    (h : s.WritesEntry t n slot m new x.state res) :
    t.part.svc = { s.part.svc with bankQueue := s.part.svc.bankQueue ++
      if x = .never then [] else [.update s.part.svc.activeBank .directory m] } ∧
    s.entryMirror m new ++ (if x = .never then [] else s.part.bankBitRead .directory m) ++ s.completionOf n slot res <+: t.part.port.fifo := by
  have hsvc := h.svc
  have hfifo := h.fifo
  rw [NotifyMode.state_eq] at hsvc hfifo
  by_cases e : x = .never
  · simp only [e, decide_true, Bool.not_true, if_true, Bool.false_eq_true, if_false, List.append_nil] at hsvc hfifo ⊢
    exact ⟨hsvc, hfifo⟩
  · simp only [e, decide_false, Bool.not_false, if_true, if_false] at hsvc hfifo ⊢
    exact ⟨hsvc, hfifo⟩

/-- R17: an entry that exists as DECLARE leaves it, at the time `now`. -/
def Entry.redeclared (q : Policies) (now : Word) (e : Entry) : Entry :=
  { e with
    origin := .declared
    policies := q
    staleTimer := if e.policies.maxInterval = q.maxInterval then e.staleTimer
                  else if e.state = .stale then none else staleFrom q.maxInterval now }

theorem Part.doDeclare_known {r : List Byte} {p : Part} {m : Nat} {e : Entry} (h : p.findEntry (Req.key r) = some m) (he : p.entryAt m = some e)
    (seq : Nat) :
    p.doDeclare seq r = (p.putEntry m (some (e.redeclared (Req.policies r) p.run.clock)) false).finishRequest .directoryEngine seq
      { outcome := .ok, fields := [byteOf m, 2, e.state.code] } := by
  simp only [Part.doDeclare, h, he]
  rfl

theorem Part.doDeclare_unknown {r : List Byte} {p : Part} {m : Nat} (h : p.findEntry (Req.key r) = none) (hm : p.vacantEntry = some m) (seq : Nat) :
    p.doDeclare seq r =
      (p.putEntry m (some (newEntry (Req.key r) .declared (Req.policies r) (staleFrom (Req.policies r).maxInterval p.run.clock)))
        (Req.policies r).notify.state).finishRequest .directoryEngine seq { outcome := .ok, fields := [byteOf m, 1, EntryState.awaiting.code] } := by
  simp only [Part.doDeclare, h, hm]
  rfl

/-- The checks of an accepted request that can name no DISMISS have all passed. -/
theorem State.Accepts.checks {s : State} {n : Nat} {slot : List Byte} {k : ReqKind} (hA : s.Accepts slot) (hT : s.TakesSlot n slot k) (hk : k ≠ .enroll) :
    s.part.check4 k (slot.take 64) = none ∧ s.part.check5 k (slot.take 64) = none ∧ s.part.check6 k (slot.take 64) = none := by
  obtain ⟨_, _, _, _, _, _, _, h, _⟩ := hT
  exact (Part.validate_none hA (by rw [Req.kind_take]; exact h)).2.2.resolve_right fun e => hk e.1

/-- Settles O27: where no number has the key, check 6 has found a vacant one. -/
theorem declareCreatesOrUpdatesTheEntry : Obligations.DeclareCreatesOrUpdatesTheEntry := by
  intro s n slot hT hA hN
  obtain ⟨_, hslots, _, _, _⟩ := Part.accepted_reads .declare n (slot.take 64) s
  obtain ⟨hr, _⟩ := Part.accepted_same .declare n (slot.take 64) { s.part with port := {} }
  refine ⟨fun hkey => ?create, fun m old hkey hold => ?update⟩
  case create =>
    have h6 := (hA.checks hT (by simp)).2.2
    simp only [Part.check6, hkey, Option.isSome_none, Bool.false_or] at h6
    obtain ⟨m, hvacant⟩ : ∃ m, s.part.vacantEntry = some m := by
      cases e : s.part.vacantEntry with
      | none => simp [e] at h6
      | some m => exact ⟨m, rfl⟩
    obtain ⟨hm, hnone, hlowest⟩ := Part.vacantEntry_some hvacant
    have hdo := Part.doDeclare_unknown ((Part.findEntry_congr hslots _).trans hkey) ((Part.vacantEntry_congr hslots).trans hvacant) s.part.board.nextSeq
    rw [hr] at hdo
    obtain ⟨t, ht, h⟩ := State.takeRow_writesEntry hT hA hN hm hdo
    obtain ⟨hsvc, hfifo⟩ := h.of_state
    refine ⟨t, m, _, congrArg _ ht, h.completed, hm, hnone, hlowest, h.entry, h.others, rfl, rfl, rfl, rfl, rfl, rfl, rfl, rfl, rfl, rfl, rfl, h.te, h.line,
      h.um, h.jw, h.rewrites, hsvc, ?_⟩
    rw [State.entryMirror, hnone] at hfifo
    exact hfifo
  case update =>
    have hm := (Part.findEntry_some hkey).1
    have hdo := Part.doDeclare_known ((Part.findEntry_congr hslots _).trans hkey) (by rw [Part.entryAt, hslots]; exact hold) s.part.board.nextSeq
    rw [hr] at hdo
    obtain ⟨t, ht, h⟩ := State.takeRow_writesEntry hT hA hN hm hdo
    have hsvc := h.svc
    have hfifo := h.fifo
    simp only [Bool.false_eq_true, if_false, List.append_nil] at hsvc hfifo
    refine ⟨t, old.redeclared (Req.policies (slot.take 64)) s.part.run.clock, congrArg _ ht, h.completed, h.entry, h.others, rfl, ?timer, h.te, h.line, h.um, h.jw, hsvc, h.rewrites, ?fifo⟩
    case timer =>
      show (if _ then _ else _) = _
      by_cases e : old.policies.maxInterval = (Req.policies (slot.take 64)).maxInterval
      · rw [if_pos e, if_pos e.symm]
      · rw [if_neg e, if_neg (Ne.symm e)]
        by_cases e' : old.state = .stale <;> simp [e', staleFrom]
    case fifo =>
      rw [State.entryMirror, hold] at hfifo
      exact hfifo

/-! ### RETIRE (R19, R137) -/

theorem Part.doRetire_known {r : List Byte} {p : Part} {m : Nat} {e : Entry} (h : p.findEntry (Req.key r) = some m) (he : p.entryAt m = some e)
    (seq : Nat) :
    p.doRetire seq r = (p.putEntry m none e.policies.notify.state).finishRequest .directoryEngine seq
      { outcome := .ok, fields := [byteOf m, 0] ++ le16 e.arrivals } := by
  simp only [Part.doRetire, Part.retireEntry, h, he]

/-- R14: an occupied number always shows something else when it is vacated. -/
theorem dirBody_some_ne_none (k : Key) (e : Entry) : dirBody k (some e) ≠ dirBody k none := by
  intro h
  have hstate : byteAt (dirBody k (some e)) 3 = byteAt (dirBody k none) 3 := by rw [h]
  revert hstate
  show e.state.code ≠ 0
  cases e.state <;> decide

/-- Settles O28: check 5 has found the entry. -/
theorem retireVacatesTheEntry : Obligations.RetireVacatesTheEntry := by
  intro s n slot hT hA hN
  obtain ⟨_, hslots, _, _, _⟩ := Part.accepted_reads .retire n (slot.take 64) s
  have h5 := (hA.checks hT (by simp)).2.1
  obtain ⟨m, hkey⟩ : ∃ m, s.part.findEntry (Req.key (slot.take 64)) = some m := by
    cases e : s.part.findEntry (Req.key (slot.take 64)) with
    | none => simp [Part.check5, e] at h5
    | some m => exact ⟨m, rfl⟩
  obtain ⟨hm, old, hold, hk⟩ := Part.findEntry_some hkey
  have hdo := Part.doRetire_known ((Part.findEntry_congr hslots _).trans hkey) (by rw [Part.entryAt, hslots]; exact hold) s.part.board.nextSeq
  obtain ⟨t, ht, h⟩ := State.takeRow_writesEntry hT hA hN hm hdo
  obtain ⟨hsvc, hfifo⟩ := h.of_state
  refine ⟨t, m, old, congrArg _ ht, h.completed, hold, hk, h.entry, h.others, h.te, h.line, h.um, h.jw, h.rewrites, hsvc, fun hshown => ?_⟩
  have hmirror : s.entryMirror m none = mirrorWrites (dirMirrorAddr s.part.base m) (s.part.entrySlot m).version (dirBody old.key none) := by
    rw [State.entryMirror, hold, hshown]
    exact if_neg (dirBody_some_ne_none _ _)
  rwa [hmirror] at hfifo

end Sys2Proof.Machine
end

section
/-! SUPPORT. The rows of a sweep: the set of slots is fixed (R113), a slot is refused (R115, R116), a request is held for its predecessor (R117, R119). -/

namespace Sys2Proof.Machine

/-! ## The set of a sweep (R113) -/

theorem BoardController.holds_iff (n : Nat) (b : BoardController) :
    b.holds n = true ↔ (∃ h ∈ b.held, h.taken = true ∧ h.slot = n) ∨ ∃ c ∈ b.completions.drop 1, c.slot = n := by
  simp only [BoardController.holds, Bool.or_eq_true, List.any_eq_true, Bool.and_eq_true, beq_iff_eq, and_comm]

theorem Part.sweepSet_eq (states : List Byte) (p : Part) :
    p.sweepSet states = ((List.range 64).map fun i => (p.board.origin + i) % 64).filter fun n =>
      decide (states.getD n 0 = 1 ∧ (∀ h ∈ p.board.held, h.taken = true → h.slot ≠ n) ∧ ∀ x ∈ p.board.completions.drop 1, x.slot ≠ n) := by
  refine List.filter_congr fun n _ => ?_
  rw [Bool.eq_iff_iff, decide_eq_true_eq, Bool.and_eq_true, beq_iff_eq, Bool.not_eq_true', Bool.eq_false_iff, ne_eq, BoardController.holds_iff]
  simp only [not_or, not_exists, not_and]
  rfl

theorem WindowPort.submit_one_empty (b : Block) (a : Access) : WindowPort.submit b [a] {} = { fifo := [a] } := by
  rw [WindowPort.submit_fits b [a] {} (WindowPort.fits_empty (by simp))]
  rfl

/-- R112, R113: what is left of an ended sweep where nothing is outstanding. -/
theorem Part.endSweep_empty {p : Part} (hp : p.port = {}) :
    p.endSweep none = { p with
      board := { p.board with
        sweep := if p.board.sweepAgain then .reading else .noSweep
        sweepCount := p.board.sweepCount + 1
        sweepAgain := false
        sweepTimer := if p.board.sweepAgain = true ∨ p.board.interval = 0 then none else some (p.run.clock + wordOf p.board.interval) }
      port := {
        fifo := .write (p.base + 0x5C) (le32 (p.board.sweepCount + 1)) .silent ::
          if p.board.sweepAgain then [.read .sweepStates (stateByteAddr p.base 0) 64] else [] } } := by
  unfold Part.endSweep
  dsimp only [BoardController.moveOrigin]
  by_cases hagain : p.board.sweepAgain = true
  · rw [if_pos hagain, Part.startSweep]
    unfold Part.submit
    dsimp only
    rw [hp, WindowPort.submit_one_empty, WindowPort.submit_fits]
    case h => exact WindowPort.fits_append (l := [.write _ _ _]) (m := [_]) (WindowPort.fits_empty (by simp)) |>.2
    simp only [hagain, if_true, true_or]
    rfl
  · rw [if_neg hagain]
    unfold Part.submit
    dsimp only
    rw [hp, WindowPort.submit_one_empty]
    simp only [hagain, if_false, false_or, Bool.false_eq_true]
    rfl

/-- The row of the state bytes, their read the only access outstanding. -/
theorem exec_sweep {s : State} (states : List Byte) (hr : s.part.run.partState = .running) (hs : s.part.board.sweep = .reading)
    (ho : s.OnlyAccess (.read .sweepStates (stateByteAddr s.part.base 0) 64)) :
    exec (.sweep states) s = .next { s with part := (Part.fixSweepSet states { s.part with port := {} }).settle } := by
  show Host.Outcome.next _ = _
  rw [State.awaitRoom_eq (by rw [ho]; rfl), State.onAnswer_only ho]
  dsimp only
  rw [if_pos ⟨hr, hs⟩]

/-- Settles O30. -/
theorem sweepFixesTheSetOfSlots : Obligations.SweepFixesTheSetOfSlots := by
  intro s states set hr hf hs ho hset
  rw [exec_sweep states hr hs ho]
  have hsweep : Part.sweepSet states { s.part with port := {} } = set := by rw [hset]; exact Part.sweepSet_eq states _
  refine ⟨fun n rest hn => ?_, fun hn => ?_⟩
  · have hfix : Part.fixSweepSet states { s.part with port := {} } = { s.part with
        board := { s.part.board with sweep := .taking (n :: rest) none }
        port := { fifo := [slotRead s.part.base n] } } := by
      rw [Part.fixSweepSet, hsweep, hn]
      dsimp only
      unfold Part.submit
      dsimp only
      rw [WindowPort.submit_one_empty]
      rfl
    rw [hfix, Part.settle_running (by exact hr) rfl (by exact hf)]
    rfl
  · have hfix : Part.fixSweepSet states { s.part with port := {} } = Part.endSweep none { s.part with port := {} } := by
      rw [Part.fixSweepSet, hsweep, hn]
    rw [hfix, Part.endSweep_empty rfl, Part.settle_running (by exact hr) rfl (by exact hf)]
    rfl

/-! ## The row of a take, whatever the request -/

/-- The row of the slot at the front of the set, its read the only access outstanding, in RUNNING or DRAINING. -/
theorem State.slotRow_only {s : State} {n : Nat} {rest : List Nat} {last : Option Nat} {fits : Bool}
    (hw : s.part.run.partState = .running ∨ s.part.run.partState = .draining) (ho : s.OnlyAccess (slotRead s.part.base n))
    (hs : s.part.board.sweep = .taking (n :: rest) last) (hfits : fits = true) (f : Nat → Part → Part) :
    s.awaitRoom.slotRow fits f = { s with part := f n { s.part with port := {} } } := by
  rw [State.awaitRoom_eq (by rw [ho]; rfl), State.slotRow, hs]
  dsimp only [SweepPhase.front]
  rw [if_pos (by rcases hw with e | e <;> simp [Part.working, e, hfits])]
  exact State.onAnswer_only ho _

/-- The command of a slot's kind is the take of the slot, whatever the kind. -/
theorem exec_takeCommand (slot : List Byte) (s : State) :
    exec (takeCommand slot (Req.kind slot)) s = .next (s.takeRow (fun x => Req.kind x == Req.kind slot) slot) := by
  have hrow : ∀ fits : List Byte → Bool, fits slot = true →
      s.takeRow fits slot = s.takeRow (fun x => Req.kind x == Req.kind slot) slot := fun fits h => by
    simp only [State.takeRow, h, beq_self_eq_true]
  have hnone : Req.kind slot = none → exec (.badKind slot) s = .next (s.takeRow (fun x => Req.kind x == Req.kind slot) slot) := fun hk =>
    congrArg Host.Outcome.next (hrow (fun x => (Req.kind x).isNone) (by simp [hk]))
  have hsome : ∀ k, Req.kind slot = some k → Host.Outcome.next (s.takeRow (ofKind k) slot) =
      (.next (s.takeRow (fun x => Req.kind x == Req.kind slot) slot) : Host.Outcome State Fault Refusal) := fun k hk =>
    congrArg Host.Outcome.next (hrow (ofKind k) (by simp [ofKind, hk]))
  generalize (s.takeRow (fun x => Req.kind x == Req.kind slot) slot) = t at hnone hsome ⊢
  cases hk : Req.kind slot with
  | none => exact hnone hk
  | some k => cases k <;> exact hsome _ hk

theorem exec_takeCommand_answered {s : State} {n : Nat} {rest : List Nat} {last : Option Nat} {slot : List Byte}
    (hw : s.part.run.partState = .running ∨ s.part.run.partState = .draining) (ho : s.OnlyAccess (slotRead s.part.base n))
    (hs : s.part.board.sweep = .taking (n :: rest) last) (hposted : byteAt slot 0x7F = statePosted) :
    exec (takeCommand slot (Req.kind slot)) s = .next { s with part := Part.takeStep n slot { s.part with port := {} } } := by
  rw [exec_takeCommand]
  exact congrArg _ (State.slotRow_only hw ho hs (by simp [hposted]) _)

/-! ## Refusal (R115, R116) -/

theorem Part.take_refused {p : Part} {n : Nat} {r : List Byte} {o : ReqOutcome} (h : p.validate r = some o) :
    p.take n r = Part.writeCompletion n false { outcome := o } { p with board := { p.board with nextSeq := p.board.nextSeq + 1 } } := by
  unfold Part.take
  rw [h]

/-- R115: the checks come in the order of the table. -/
theorem Part.validate_badKind {p : Part} {r : List Byte} (hk : Req.kind r = none) : p.validate r = some .badKind := by
  rw [Part.validate, hk]

theorem Part.validate_badField {p : Part} {r : List Byte} {k : ReqKind} (hk : Req.kind r = some k) (h : Req.inRange p.base k r = false) :
    p.validate r = some .badField := by
  simp only [Part.validate, hk, h, Bool.not_false, if_true]

theorem Part.validate_dupTag {p : Part} {r : List Byte} {k : ReqKind} (hk : Req.kind r = some k) (h : Req.inRange p.base k r = true)
    (ht : p.holderOf (Req.tag r) ≠ none) : p.validate r = some .dupTag := by
  simp only [Part.validate, hk, h, Bool.not_true, Bool.false_eq_true, if_false, Option.isSome_iff_ne_none.mpr ht, if_true]

theorem Part.validate_checked {p : Part} {r : List Byte} {k : ReqKind} (hk : Req.kind r = some k) (h : Req.inRange p.base k r = true)
    (ht : p.holderOf (Req.tag r) = none) : p.validate r = p.checkAtTake k r := by
  simp only [Part.validate, hk, h, ht, Bool.not_true, Bool.false_eq_true, if_false, Option.isSome_none]

/-- R132: an ENROLL may name the DISMISS of its own unit. -/
theorem Part.checkAtTake_eq (k : ReqKind) (r : List Byte) (p : Part) :
    p.checkAtTake k r = if k = .enroll ∧ p.namesItsDismiss r = true then none
      else (p.check4 k r).or ((p.check5 k r).or (p.check6 k r)) := rfl

theorem Part.checkUnit_eq_none_iff {p : Part} {a : Nat} : p.checkUnit a = none ↔ ∃ u, p.unitAt a = some u ∧ u.link ≠ .departing := by
  refine ⟨Part.checkUnit_none, fun ⟨u, hu, hl⟩ => ?_⟩
  simp [Part.checkUnit, Part.unitPresent, hu, hl]

theorem Part.checkUnit_cases (a : Nat) (p : Part) : p.checkUnit a = none ∨ p.checkUnit a = some .noUnit := by
  unfold Part.checkUnit
  split <;> simp

theorem Part.unitDeparting_iff {p : Part} {a : Nat} : p.unitDeparting a = true ↔ ∃ u, p.unitAt a = some u ∧ u.link = .departing := by
  unfold Part.unitDeparting
  cases p.unitAt a <;> simp

theorem Part.check4_cases (k : ReqKind) (r : List Byte) (p : Part) : p.check4 k r = none ∨ p.check4 k r = some .noUnit := by
  have hunit := p.checkUnit_cases (Req.unit r)
  cases k with
  | transact => exact hunit
  | dismiss => exact hunit
  | hold => exact hunit
  | declare => exact hunit
  | retire => exact hunit
  | clear =>
    show (if Req.unit r = Req.all then none else p.checkUnit (Req.unit r)) = none ∨ (if Req.unit r = Req.all then none else p.checkUnit (Req.unit r)) = _
    by_cases e : Req.unit r = Req.all
    · exact .inl (if_pos e)
    · rw [if_neg e]; exact hunit
  | sync =>
    show (if Req.unit r = Req.all then none else p.checkUnit (Req.unit r)) = none ∨ (if Req.unit r = Req.all then none else p.checkUnit (Req.unit r)) = _
    by_cases e : Req.unit r = Req.all
    · exact .inl (if_pos e)
    · rw [if_neg e]; exact hunit
  | enroll =>
    show (if p.unitDeparting (Req.unit r) = true then some ReqOutcome.noUnit else none) = none ∨ _ = some ReqOutcome.noUnit
    by_cases e : p.unitDeparting (Req.unit r) = true
    · exact .inr (if_pos e)
    · exact .inl (if_neg e)
  | abort => exact .inl rfl
  | lend => exact .inl rfl
  | cut => exact .inl rfl

theorem Part.check4_eq_none_iff (k : ReqKind) (r : List Byte) (p : Part) :
    p.check4 k r = none ↔
      (k ∈ [.transact, .dismiss, .hold, .declare, .retire] ∨ k ∈ [.clear, .sync] ∧ Req.unit r ≠ 255 →
        ∃ u, p.unitAt (Req.unit r) = some u ∧ u.link ≠ .departing) ∧
      (k = .enroll → ∀ u, p.unitAt (Req.unit r) = some u → u.link ≠ .departing) := by
  rw [← Part.checkUnit_eq_none_iff]
  cases k with
  | enroll =>
    have hdeparting := (Part.unitDeparting_iff (p := p) (a := Req.unit r)).not
    simp only [not_exists, not_and] at hdeparting
    simp [Part.check4, ← hdeparting]
  | clear => by_cases e : Req.unit r = 255 <;> simp [Part.check4, Req.all, e]
  | sync => by_cases e : Req.unit r = 255 <;> simp [Part.check4, Req.all, e]
  | transact => simp [Part.check4]
  | dismiss => simp [Part.check4]
  | hold => simp [Part.check4]
  | declare => simp [Part.check4]
  | retire => simp [Part.check4]
  | abort => simp [Part.check4]
  | lend => simp [Part.check4]
  | cut => simp [Part.check4]

theorem Part.findEntry_isSome_iff {p : Part} {k : Key} :
    (p.findEntry k).isSome = true ↔ ∃ (n : Nat) (e : Entry), n < 192 ∧ p.entryAt n = some e ∧ e.key = k := by
  rw [Option.isSome_iff_ne_none, ne_eq, Part.findEntry_none_iff]
  push Not
  simp only [exists_and_left]

theorem Part.vacantEntry_isSome_iff {p : Part} : p.vacantEntry.isSome = true ↔ ∃ n : Nat, n < 192 ∧ p.entryAt n = none := by
  rw [Option.isSome_iff_ne_none, ne_eq, Part.vacantEntry_none_iff]
  push Not
  rfl

theorem Part.check5_cases (k : ReqKind) (r : List Byte) (p : Part) : p.check5 k r = none ∨ p.check5 k r = some .noEntry := by
  unfold Part.check5
  split
  · split <;> simp
  all_goals exact .inl rfl

theorem Part.check5_eq_none_iff (k : ReqKind) (r : List Byte) (p : Part) :
    p.check5 k r = none ↔ (k = .retire → ∃ (n : Nat) (e : Entry), n < 192 ∧ p.entryAt n = some e ∧ e.key = Req.key r) := by
  rw [← Part.findEntry_isSome_iff]
  cases k <;> simp [Part.check5, Option.isSome_iff_ne_none]

theorem Part.check6_declare (r : List Byte) (p : Part) :
    ((∃ (n : Nat) (e : Entry), n < 192 ∧ p.entryAt n = some e ∧ e.key = Req.key r) ∨ (∃ n : Nat, n < 192 ∧ p.entryAt n = none) →
      p.check6 .declare r = none) ∧
    ((∀ n : Nat, n < 192 → ∃ e : Entry, p.entryAt n = some e ∧ e.key ≠ Req.key r) → p.check6 .declare r = some .noRoom) := by
  have hroom : p.check6 .declare r = if (p.findEntry (Req.key r)).isSome || p.vacantEntry.isSome then none else some .noRoom := rfl
  rw [hroom]
  refine ⟨fun h => if_pos ?_, fun h => if_neg ?_⟩
  · rw [Bool.or_eq_true, Part.findEntry_isSome_iff, Part.vacantEntry_isSome_iff]
    exact h
  · rw [Bool.or_eq_true, Part.findEntry_isSome_iff, Part.vacantEntry_isSome_iff]
    rintro (⟨n, e, hn, he, hk⟩ | ⟨n, hn, he⟩)
    · obtain ⟨e', he', hk'⟩ := h n hn
      rw [he] at he'
      cases he'
      exact hk' hk
    · obtain ⟨e', he', _⟩ := h n hn
      rw [he] at he'
      cases he'

theorem Part.holderOf_none_iff {p : Part} {tag : Half} : p.holderOf tag = none ↔ tag = 0 ∨ ∀ e ∈ p.board.registry, e.1 ≠ tag := by
  unfold Part.holderOf
  by_cases h : tag = 0
  · simp [h]
  · rw [if_neg h, or_iff_right h]
    cases e : p.board.registry.find? (fun e => e.1 == tag) with
    | none => simpa [List.find?_eq_none] using e
    | some x =>
      have hx := List.find?_some e
      simp only [beq_iff_eq] at hx
      simp only [reduceCtorEq, false_iff, not_forall, not_not]
      exact ⟨x, List.mem_of_find?_eq_some e, hx⟩

theorem Part.validate_none_iff {p : Part} {r : List Byte} :
    p.validate r = none ↔ ∃ k, Req.kind r = some k ∧ Req.inRange p.base k r = true ∧ p.holderOf (Req.tag r) = none ∧
      (p.check4 k r = none ∧ p.check5 k r = none ∧ p.check6 k r = none ∨
        k = .enroll ∧ ∃ (m : Nat) (h : HeldRequest), p.holderOf (Req.afterTag r) = some m ∧ p.heldOf m = some h ∧ Req.kind h.req = some .dismiss ∧
          Req.unit h.req = Req.unit r) := by
  constructor
  · intro h
    cases hk : Req.kind r with
    | none => rw [Part.validate_badKind hk] at h; exact absurd h (by simp)
    | some k =>
      obtain ⟨hrange, htag, hcheck⟩ := Part.validate_none h hk
      rw [Part.namesItsDismiss_iff] at hcheck
      exact ⟨k, rfl, hrange, htag, hcheck⟩
  · rintro ⟨k, hk, hrange, htag, hcheck⟩
    rw [Part.validate_checked hk hrange htag, Part.checkAtTake_eq]
    rw [← Part.namesItsDismiss_iff] at hcheck
    rcases hcheck with ⟨h4, h5, h6⟩ | hdismiss
    · rw [h4, h5, h6]; simp
    · rw [if_pos hdismiss]

/-- R116: a refused request leaves its completion and nothing else. -/
theorem State.take_refused_settled {s : State} {n : Nat} {rest : List Nat} {last : Option Nat} {slot : List Byte} {o : ReqOutcome}
    (h : s.SlotAnswered n rest last) (hposted : byteAt slot 0x7F = statePosted) (hv : s.part.validate (slot.take 64) = some o) :
    ∃ t : State, exec (takeCommand slot (Req.kind slot)) s = .next t ∧ t.pending = s.pending ∧ t.mem = s.mem ∧
      t.part = { s.part with board := t.part.board, port := t.part.port } ∧ t.part.board.held = s.part.board.held ∧
      t.part.board.registry = s.part.board.registry ∧ t.part.board.finishes = [] ∧ t.part.board.nextSeq = s.part.board.nextSeq + 1 ∧
      t.part.board.completions = [{ slot := n, unmatched := false, result := { outcome := o }, time := s.part.run.clock }] ∧
      completionWrites s.part.base n { outcome := o } false s.part.run.clock (.done n) <+: t.part.port.fifo := by
  obtain ⟨hr, hf, _, ho, hs, hc⟩ := h
  let p : Part := { s.part with port := {}, board := { s.part.board with nextSeq := s.part.board.nextSeq + 1 } }
  have htake : Part.take n (slot.take 64) { s.part with port := {} } = { p with
      board := { p.board with completions := [{ slot := n, unmatched := false, result := { outcome := o }, time := s.part.run.clock }] }
      port := WindowPort.with {} (completionWrites s.part.base n { outcome := o } false s.part.run.clock (.done n)) } := by
    rw [Part.take_refused (p := { s.part with port := {} }) hv]
    exact Part.writeCompletion_fits (p := p) hc (WindowPort.fits_empty (by simp [completionWrites]))
  obtain ⟨x, w, e1, e2, e3, e4, e5, e6, e7⟩ := Part.takeStep_settled (slot := slot) (q := _) rfl
    (by rw [htake, Part.settle_running (by exact hr) rfl (by exact hf)]; exact hr)
    (by rw [htake, Part.settle_running (by exact hr) rfl (by exact hf)]; rfl)
    (by rw [htake, Part.settle_running (by exact hr) rfl (by exact hf)]; rfl)
    (by rw [htake, Part.settle_running (by exact hr) rfl (by exact hf)]; exact hf)
  rw [htake, Part.settle_running (by exact hr) rfl (by exact hf)] at e1 e2 e3 e4 e6 e7
  rw [exec_takeCommand_answered (.inl hr) ho hs hposted, e1]
  exact ⟨_, rfl, rfl, rfl, rfl, e3, e4, e5, e6, e7, e2⟩

/-- Settles O32. -/
theorem refusedTakesCompleteAtOnce : Obligations.RefusedTakesCompleteAtOnce := by
  refine ⟨fun s n rest last slot o h hlen hposted hv => ⟨fun hk => ?kind, fun k hk => ?known, State.take_refused_settled h hposted hv⟩, fun p r => ?accepted⟩
  case kind =>
    rw [Part.validate_badKind (by rw [Req.kind_take]; exact hk)] at hv
    exact (Option.some.inj hv).symm
  case known =>
    have hk' : Req.kind (slot.take 64) = some k := by rw [Req.kind_take]; exact hk
    refine ⟨fun hr => ?field, fun hr ht => ?tag, fun hr ht => ?_⟩
    case field => rw [Part.validate_badField hk' hr] at hv; exact (Option.some.inj hv).symm
    case tag => rw [Part.validate_dupTag hk' hr ht] at hv; exact (Option.some.inj hv).symm
    rw [Part.validate_checked hk' hr ht, Part.checkAtTake_eq] at hv
    by_cases hd : k = .enroll ∧ s.part.namesItsDismiss (slot.take 64) = true
    · rw [if_pos hd] at hv; exact absurd hv (by simp)
    · rw [if_neg hd] at hv
      refine ⟨fun h4 => ?_, fun h4 h5 => ?_, fun h4 h5 => ?_, fun he => ?_⟩
      · rw [h4] at hv; exact (Option.some.inj hv).symm
      · rw [h4, h5] at hv; exact (Option.some.inj hv).symm
      · rw [h4, h5] at hv; exact hv
      · subst he
        have h56 : s.part.check5 .enroll (slot.take 64) = none ∧ s.part.check6 .enroll (slot.take 64) = none := ⟨rfl, rfl⟩
        rw [h56.1, h56.2, Option.or_none, Option.or_none] at hv
        have hdeparting : s.part.unitDeparting (Req.unit (slot.take 64)) = true := by
          by_contra e
          simp [Part.check4, e] at hv
        refine ⟨?_, Part.unitDeparting_iff.mp hdeparting, fun m x e1 e2 e3 e4 => hd ⟨rfl, Part.namesItsDismiss_iff.mpr ⟨m, x, e1, e2, e3, e4⟩⟩⟩
        rw [Part.check4, if_pos hdeparting] at hv
        exact (Option.some.inj hv).symm
  case accepted =>
    refine ⟨Part.validate_none_iff, fun base k => Req.inRange_iff base k r, Part.holderOf_none_iff, fun k => ⟨p.check4_cases k r, p.check4_eq_none_iff k r,
      p.check5_cases k r, p.check5_eq_none_iff k r, ?_, ?_, ?_, ?_⟩⟩
    · rintro rfl; exact p.check6_declare r
    · rintro rfl; rfl
    · rintro rfl; rfl
    · intro h1 h2 h3; cases k <;> simp_all [Part.check6]

end Sys2Proof.Machine
end

section
/-! SUPPORT. Takes that leave the request in hand or held (R117, R119), and takes that complete it without a change of anything else: the part that the owning
block finds, in full; then TRANSACT, SYNC, the ABORT that finds nothing or waits, LEND and the CUT that finds nothing. -/

namespace Sys2Proof.Machine

/-! ## The request in its take -/

/-- The record of the request in its take: who owns it, and whether its slot is written TAKEN at once. -/
def State.recordInTake (s : State) (n : Nat) (slot : List Byte) (k : ReqKind) (pred : Option Nat) : HeldRequest :=
  { s.recordOf n slot (if pred.isSome && !k.waitsInBlock then .boardController else k.owner) pred with
    taken := pred.isSome && !k.waitsInBlock }

/-- R117, R118: the part with the request registered and its record held, the answer of the slot's read taken. -/
def State.handed (s : State) (n : Nat) (slot : List Byte) (k : ReqKind) (pred : Option Nat) : Part :=
  { s.part with
    board := { s.part.board with
      nextSeq := s.part.board.nextSeq + 1
      registry := s.registryWith slot
      held := s.part.board.held ++ [s.recordInTake n slot k pred] }
    port := {} }

/-- The tag of an accepted request does not hide its predecessor. -/
theorem Part.holderOf_registered {k : ReqKind} {r : List Byte} {p : Part} (hr : Req.inRange p.base k r = true) (m : Nat) (b : BoardController)
    (hb : b.registry = p.board.registry) : (Part.register (Req.tag r) m { p with board := b }).holderOf (Req.afterTag r) = p.holderOf (Req.afterTag r) := by
  rw [Part.holderOf_register (Req.after_ne_tag hr), Part.holderOf, Part.holderOf, hb]

theorem State.handed_eq {s : State} {slot : List Byte} {k : ReqKind} {pred : Option Nat} (n : Nat)
    (hr : Req.inRange s.part.base k (slot.take 64) = true) (hp : s.part.holderOf (Req.afterTag (slot.take 64)) = pred) :
    Part.accepted k n (slot.take 64) { s.part with port := {} } = s.handed n slot k pred := by
  have hpred := Part.holderOf_registered (p := { s.part with port := {} }) hr s.part.board.nextSeq
    { s.part.board with nextSeq := s.part.board.nextSeq + 1 } rfl
  rw [show Part.holderOf (Req.afterTag (slot.take 64)) { s.part with port := {} } = pred from hp] at hpred
  have hrecord : Part.acceptRecord k s.part.board.nextSeq n (slot.take 64)
      { s.part with port := {}, board := { s.part.board with nextSeq := s.part.board.nextSeq + 1 } } = s.recordInTake n slot k pred := by
    unfold Part.acceptRecord
    dsimp only
    rw [hpred]
    rfl
  show (Part.register (Req.tag (slot.take 64)) s.part.board.nextSeq
    { s.part with port := {}, board := { s.part.board with nextSeq := s.part.board.nextSeq + 1 } }).hold
    (Part.acceptRecord k s.part.board.nextSeq n (slot.take 64)
      { s.part with port := {}, board := { s.part.board with nextSeq := s.part.board.nextSeq + 1 } }) = _
  rw [hrecord]
  unfold Part.register Part.hold State.handed State.registryWith
  by_cases e : Req.tag (slot.take 64) = 0
  · rw [if_pos e, if_pos e]
  · rw [if_neg e, if_neg e]

/-- R117, R119: what an accepted request does, once registered. -/
theorem State.take_handed {s : State} {n : Nat} {slot : List Byte} {k : ReqKind} {pred : Option Nat} (hv : s.part.validate (slot.take 64) = none)
    (hk : Req.kind slot = some k) (hr : Req.inRange s.part.base k (slot.take 64) = true) (hp : s.part.holderOf (Req.afterTag (slot.take 64)) = pred) :
    Part.take n (slot.take 64) { s.part with port := {} } =
      if pred.isSome && !k.waitsInBlock then (s.handed n slot k pred).writeTaken n
      else ((s.handed n slot k pred).handOver k s.part.board.nextSeq n (slot.take 64) pred).answerTake s.part.board.nextSeq := by
  have hheld := State.handed_eq n hr hp
  have hrecord : (Part.acceptRecord k s.part.board.nextSeq n (slot.take 64)
      { s.part with port := {}, board := { s.part.board with nextSeq := s.part.board.nextSeq + 1 } }).pred = pred := by
    unfold Part.acceptRecord
    dsimp only
    exact (Part.holderOf_registered (p := { s.part with port := {} }) hr _ { s.part.board with nextSeq := s.part.board.nextSeq + 1 } rfl).trans hp
  have hk' : Req.kind (slot.take 64) = some k := by rw [Req.kind_take]; exact hk
  have hv' : Part.validate (slot.take 64) { s.part with port := {} } = none := hv
  unfold Part.take
  rw [hv', hk']
  dsimp only
  rw [Part.accept_eq, hrecord, ← hheld]
  rfl

/-! ## Takes that leave the part at rest -/

/-- What the sweep leaves of a take after which no block waits and nothing is in hand. -/
structure State.LeavesTake (s t : State) (q : Part) : Prop where
  pending : t.pending = s.pending
  mem : t.mem = s.mem
  part : t.part = { q with board := t.part.board, port := t.part.port }
  held : t.part.board.held = q.board.held
  registry : t.part.board.registry = q.board.registry
  finishes : t.part.board.finishes = []
  nextSeq : t.part.board.nextSeq = q.board.nextSeq
  completions : t.part.board.completions = q.board.completions
  fifo : q.port.fifo <+: t.part.port.fifo

/-- A take whose end leaves `q`, where no block waits and nothing is in hand. -/
theorem State.takeStep_leaves {s : State} {q : Part} {n : Nat} {slot : List Byte} (hq : (Part.take n (slot.take 64) { s.part with port := {} }).settle = q)
    (hr : q.run.partState = .running) (hw : q.port.waiting = []) (hl : q.port.later = []) (hf : q.board.finishes = []) :
    s.LeavesTake { s with part := Part.takeStep n slot { s.part with port := {} } } q := by
  obtain ⟨x, w, e1, e2, e3, e4, e5, e6, e7⟩ := Part.takeStep_settled hq hr hw hl hf
  rw [e1]
  exact ⟨rfl, rfl, rfl, e3, e4, e5, e6, e7, e2⟩

theorem State.takeStep_leaves_running {s : State} {q : Part} {n : Nat} {slot : List Byte} (hq : Part.take n (slot.take 64) { s.part with port := {} } = q)
    (hr : q.run.partState = .running) (hw : q.port.waiting = []) (hl : q.port.later = []) (hf : q.board.finishes = []) :
    s.LeavesTake { s with part := Part.takeStep n slot { s.part with port := {} } } q :=
  State.takeStep_leaves (by rw [hq]; exact Part.settle_running hr hl hf) hr hw hl hf

/-- The row of a slot that is taken. -/
theorem State.TakesSlot.exec_eq {s : State} {n : Nat} {slot : List Byte} {k : ReqKind} (h : s.TakesSlot n slot k) :
    exec (takeCommand slot (some k)) s = .next { s with part := Part.takeStep n slot { s.part with port := {} } } := by
  obtain ⟨hr, _, _, ho, ⟨rest, last, hs⟩, _, hposted, hk, _⟩ := h
  rw [← hk]
  exact exec_takeCommand_answered (.inl hr) ho hs hposted

theorem WindowPort.submit_one (b : Block) (a : Access) {w : WindowPort} (h : w = {}) : w.submit b [a] = { fifo := [a] } := by
  rw [h, WindowPort.submit_one_empty]

/-! ## A request that is held (R119) -/

/-- Settles O33: the request is held, and its slot written TAKEN. -/
theorem requestsAreHeldForTheirPredecessor : Obligations.RequestsAreHeldForTheirPredecessor := by
  intro s n m slot k hT htransact hsync hp hchecked
  obtain ⟨hr, hf, _, _, _, _, _, hk, hc⟩ := id hT
  have hk' : Req.kind (slot.take 64) = some k := by rw [Req.kind_take]; exact hk
  have hwaits : k.waitsInBlock = false := by simp [ReqKind.waitsInBlock, htransact, hsync]
  have hv : s.part.validate (slot.take 64) = none := by
    rcases hchecked with hA | ⟨rfl, hrange, htag, h, hof, hkind, hunit⟩
    · exact hA
    · exact Part.validate_none_iff.mpr ⟨_, hk', hrange, htag, .inr ⟨rfl, m, h, hp, hof, hkind, hunit⟩⟩
  have htake := State.take_handed (n := n) hv hk (Part.validate_none hv hk').1 hp
  rw [hwaits, if_pos (by rfl)] at htake
  have hleaves := State.takeStep_leaves_running htake hr rfl rfl hf
  refine ⟨_, hT.exec_eq, hleaves.pending, hleaves.mem, hleaves.part, ?_, hleaves.registry, hleaves.finishes, hleaves.nextSeq, hleaves.completions.trans hc, ?_⟩
  · rw [hleaves.held]
    show s.part.board.held ++ [s.recordInTake n slot k (some m)] = _
    simp [State.recordInTake, State.recordOf, hwaits]
  · exact hleaves.fifo

/-! ## A request that continues in its block's hand (R117) -/

/-- R117: the record of a request that its block has in hand becomes held, and its slot is written TAKEN. -/
theorem Part.answerTake_kept {p : Part} {l : List HeldRequest} {h : HeldRequest} (hheld : p.board.held = l ++ [h]) (hl : ∀ x ∈ l, x.seq ≠ h.seq)
    (ht : h.taken = false) (hk : p.keepsInHand h = true) (hport : p.port = {}) :
    p.answerTake h.seq = { p with
      board := { p.board with held := l ++ [{ h with taken := true }] }
      port := { fifo := [.write (stateByteAddr p.base h.slot) [stateTaken] .silent] } } := by
  have hmark : (p.board.held.map fun x => if x.seq = h.seq then { x with taken := true } else x) = l ++ [{ h with taken := true }] := by
    rw [hheld, List.map_append, List.map_congr_left fun x hx => if_neg (hl x hx), List.map_id']
    simp
  unfold Part.answerTake
  rw [Part.heldOf_append hheld hl rfl]
  dsimp only
  rw [if_pos ⟨ht, hk⟩, Part.holdRecord, Part.writeTaken, Part.submit]
  dsimp only
  rw [hmark, hport, WindowPort.submit_one_empty]
  rfl

/-- The row of a request that its block keeps in hand, the block's part being `q`. -/
theorem State.takeRow_keeps {s : State} {n : Nat} {slot : List Byte} {k : ReqKind} {pred : Option Nat} {q : Part} (hT : s.TakesSlot n slot k)
    (hA : s.Accepts slot) (hp : s.part.holderOf (Req.afterTag (slot.take 64)) = pred) (hpred : pred = none ∨ k.waitsInBlock = true)
    (hq : (s.handed n slot k pred).handOver k s.part.board.nextSeq n (slot.take 64) pred = q) (hrun : q.run = s.part.run)
    (hboard : q.board = (s.handed n slot k pred).board) (hport : q.port = {}) (hkeep : q.keepsInHand (s.recordInTake n slot k pred) = true) :
    ∃ t : State, exec (takeCommand slot (some k)) s = .next t ∧ t.pending = s.pending ∧ t.mem = s.mem ∧
      t.part = { q with board := t.part.board, port := t.part.port } ∧ t.part.board.held = s.part.board.held ++ [s.recordOf n slot k.owner pred] ∧
      t.part.board.registry = s.registryWith slot ∧ t.part.board.finishes = [] ∧ t.part.board.nextSeq = s.part.board.nextSeq + 1 ∧
      t.part.board.completions = [] ∧ s.TakenWritten t n := by
  obtain ⟨hr, hf, hbelow, _, _, _, _, hk, hc⟩ := id hT
  have howned : (pred.isSome && !k.waitsInBlock) = false := by rcases hpred with e | e <;> simp [e]
  have hrecord : s.recordInTake n slot k pred = { s.recordOf n slot k.owner pred with taken := false } := by
    rw [State.recordInTake, howned]; rfl
  have htake := State.take_handed (n := n) hA hk (hA.inRange hT) hp
  rw [howned, if_neg (by simp), hq] at htake
  rw [show s.part.board.nextSeq = (s.recordInTake n slot k pred).seq from rfl,
    Part.answerTake_kept (by rw [hboard]; rfl) (Part.Below.ne hbelow).1 (by rw [hrecord]) hkeep hport] at htake
  have hleaves := State.takeStep_leaves_running htake (by rw [hrun]; exact hr) rfl rfl (by rw [hboard]; exact hf)
  refine ⟨_, hT.exec_eq, hleaves.pending, hleaves.mem, hleaves.part, ?_, ?_, hleaves.finishes, ?_, ?_, ?_⟩
  · rw [hleaves.held, hrecord]; rfl
  · rw [hleaves.registry, hboard]; rfl
  · rw [hleaves.nextSeq, hboard]; rfl
  · rw [hleaves.completions, hboard]; exact hc
  · have hbase : q.base = s.part.base := by rw [Part.base, hrun]; rfl
    rw [State.TakenWritten, ← hbase]
    exact hleaves.fifo

/-! ## A request that completes and changes nothing else -/

/-- The row of a request whose block does nothing but complete it. -/
theorem State.takeRow_only_completes {s : State} {n : Nat} {slot : List Byte} {k : ReqKind} {res : Result} (hT : s.TakesSlot n slot k) (hA : s.Accepts slot)
    (hN : s.NoPredecessor (slot.take 64))
    (hh : (s.handed n slot k none).handOver k s.part.board.nextSeq n (slot.take 64) none = (s.handed n slot k none).completeRequest s.part.board.nextSeq res) :
    ∃ t : State, exec (takeCommand slot (some k)) s = .next t ∧ s.CompletedTake t n slot res ∧
      t.part = { s.part with board := t.part.board, port := t.part.port } ∧ s.completionOf n slot res <+: t.part.port.fifo := by
  have hheld := State.handed_eq n (hA.inRange hT) hN
  rw [← hheld] at hh
  obtain ⟨hr, _, hte, _, _, _, hport, _⟩ := Part.accepted_same k n (slot.take 64) { s.part with port := {} }
  obtain ⟨x, w, e1, e2, e3⟩ := State.takeRow_completes (q := Part.accepted k n (slot.take 64) { s.part with port := {} }) hT hA hN hh rfl hr hte
    (by rw [hport]; rfl) (by rw [hport]; exact Nat.zero_le _)
  rw [State.takeRow_eq hT (ofKind k) (by simp [ofKind, hT.2.2.2.2.2.2.2.1])] at e1
  rw [hT.exec_eq, e1]
  rw [hport] at e3
  refine ⟨_, rfl, e2, ?_, e3⟩
  rw [hheld]
  rfl

end Sys2Proof.Machine
end

section
/-! SUPPORT. TRANSACT (R84, R97), SYNC (R100), and the ABORT that finds nothing, finds an ABORT or waits (R102 to R104). -/

namespace Sys2Proof.Machine

/-! ## TRANSACT -/

/-- R84: the transaction that TRANSACT creates. -/
def State.newTransaction (s : State) (n : Nat) (slot : List Byte) : Transaction :=
  { tag := Req.tag (slot.take 64), origin := if Req.early (slot.take 64) then none else some n
    unit := Req.unit (slot.take 64), command := Req.code (slot.take 64), payload := Req.payload (slot.take 64)
    early := Req.early (slot.take 64), urgent := Req.urgent (slot.take 64)
    deadline := if Req.deadline (slot.take 64) = 0 then none else some (s.part.run.clock + wordOf (Req.deadline (slot.take 64)))
    pred := s.part.holderOf (Req.afterTag (slot.take 64)), token := none, retries := 0, sends := 0, state := .pending
    abortRequested := false, everDeferred := false, deferExpiry := none, seq := s.part.board.nextSeq }

/-- R84: the part that TRANSACT hands on, its transaction created. -/
def State.transacted (s : State) (n : Nat) (slot : List Byte) : Part :=
  let p := s.handed n slot .transact (s.part.holderOf (Req.afterTag (slot.take 64)))
  { p with te := { p.te with pool := p.te.pool ++ [s.newTransaction n slot] } }

theorem State.doTransact_handed (s : State) (n : Nat) (slot : List Byte) :
    (s.handed n slot .transact (s.part.holderOf (Req.afterTag (slot.take 64)))).handOver .transact s.part.board.nextSeq n (slot.take 64)
      (s.part.holderOf (Req.afterTag (slot.take 64))) =
    if Req.early (slot.take 64) then (s.transacted n slot).completeSlot s.part.board.nextSeq { outcome := .accepted } else s.transacted n slot := by
  rfl

/-- R122: a slot is completed where nothing is outstanding and no completion is on its way. -/
theorem Part.completeSlot_empty {p : Part} {l : List HeldRequest} {h : HeldRequest} (r : Result) (hheld : p.board.held = l ++ [h])
    (hl : ∀ x ∈ l, x.seq ≠ h.seq) (hc : p.board.completions = []) (hport : p.port = {}) :
    p.completeSlot h.seq r = { p with
      board := { p.board with held := l, completions := [{ slot := h.slot, unmatched := h.unmatched, result := r, time := p.run.clock }] }
      port := { fifo := completionWrites p.base h.slot r h.unmatched p.run.clock (.done h.slot) } } := by
  unfold Part.completeSlot
  rw [Part.heldOf_append hheld hl rfl]
  dsimp only
  rw [hheld, List.filter_ne_seq hl rfl]
  have hfits := Part.writeCompletion_fits (n := h.slot) (b := h.unmatched) (r := r) (p := { p with board := { p.board with held := l } }) hc
    (by show p.port.Fits _; rw [hport]; exact WindowPort.fits_empty (by simp [completionWrites]))
  rw [hfits]
  show ({ p with
    board := { p.board with held := l, completions := [{ slot := h.slot, unmatched := h.unmatched, result := r, time := p.run.clock }] }
    port := p.port.with (completionWrites p.base h.slot r h.unmatched p.run.clock (.done h.slot)) } : Part) = _
  rw [hport]
  rfl

/-- R97: whether the completion of an EARLY transaction's slot says that `after` named nobody. -/
def State.earlyUnmatched (s : State) (n : Nat) (slot : List Byte) : Bool :=
  (s.recordOf n slot .transactionEngine (s.part.holderOf (Req.afterTag (slot.take 64)))).unmatched

/-- R97: the part that TRANSACT with EARLY leaves, its slot completed. -/
def State.transactedEarly (s : State) (n : Nat) (slot : List Byte) : Part :=
  let p := s.transacted n slot
  { p with
    board := { p.board with
      held := s.part.board.held
      completions := [{ slot := n, unmatched := s.earlyUnmatched n slot, result := { outcome := .accepted }, time := s.part.run.clock }] }
    port := { fifo := completionWrites s.part.base n { outcome := .accepted } (s.earlyUnmatched n slot) s.part.run.clock (.done n) } }

/-- R97: with EARLY the slot completes at once, and the transaction goes on without it. -/
theorem State.take_early {s : State} {n : Nat} {slot : List Byte} (hT : s.TakesSlot n slot .transact) (hA : s.Accepts slot)
    (he : Req.early (slot.take 64) = true) :
    ∃ t : State, exec (.transact slot) s = .next t ∧ s.LeavesTake t (s.transactedEarly n slot) := by
  obtain ⟨hr, hf, hbelow, _, _, _, _, hk, hc⟩ := id hT
  have htake := State.take_handed (n := n) hA hk (hA.inRange hT) rfl
  rw [if_neg (by simp [ReqKind.waitsInBlock]), State.doTransact_handed, if_pos he] at htake
  have hnew := (Part.Below.ne hbelow).1
  have hslot : (s.transacted n slot).completeSlot s.part.board.nextSeq { outcome := .accepted } = s.transactedEarly n slot :=
    Part.completeSlot_empty (p := s.transacted n slot) (l := s.part.board.held)
      (h := s.recordInTake n slot .transact (s.part.holderOf (Req.afterTag (slot.take 64)))) _ rfl hnew hc rfl
  have hfreed : (s.transactedEarly n slot).heldOf s.part.board.nextSeq = none :=
    List.find?_eq_none.mpr fun x hx e => hnew x hx (beq_iff_eq.mp e)
  rw [hslot, Part.answerTake_completed hfreed] at htake
  exact ⟨_, hT.exec_eq, State.takeStep_leaves_running (q := s.transactedEarly n slot) htake hr rfl rfl hf⟩

/-- Settles O35. -/
theorem transactCreatesATransaction : Obligations.TransactCreatesATransaction := by
  intro s n slot hT hA
  have hk : Req.kind (slot.take 64) = some .transact := by rw [Req.kind_take]; exact hT.2.2.2.2.2.2.2.1
  by_cases he : Req.early (slot.take 64) = true
  · obtain ⟨t, ht, h⟩ := State.take_early hT hA he
    exact ⟨t, ht, h.pending, h.mem, h.part, h.registry, h.finishes, h.nextSeq, fun _ => ⟨h.held, h.completions, h.fifo⟩,
      fun hno => absurd (he.symm.trans hno) (by simp)⟩
  · obtain ⟨t, ht, hpending, hmem, hpart, hheld, hregistry, hfinishes, hnext, _, htaken⟩ := State.takeRow_keeps hT hA rfl (.inr rfl)
      ((s.doTransact_handed n slot).trans (if_neg he)) rfl rfl rfl (by
        unfold Part.keepsInHand
        rw [show (s.recordInTake n slot .transact (s.part.holderOf (Req.afterTag (slot.take 64)))).req = slot.take 64 from rfl, hk]
        dsimp only
        simp [State.transacted, State.newTransaction, State.recordInTake, State.recordOf])
    exact ⟨t, ht, hpending, hmem, hpart, hregistry, hfinishes, hnext, fun hyes => absurd hyes he, fun _ => ⟨hheld, htaken⟩⟩

/-! ## SYNC -/

/-- R100: the record of a SYNC that captures these transactions. -/
def State.newSync (s : State) (slot : List Byte) (captured : List Transaction) : SyncRecord :=
  { seq := s.part.board.nextSeq
    deadline := if Req.deadline (slot.take 64) = 0 then none else some (s.part.run.clock + wordOf (Req.deadline (slot.take 64)))
    pred := s.part.holderOf (Req.afterTag (slot.take 64)), captured := captured.length, finished := 0, failed := 0
    waitingFor := captured.map fun x => x.seq }

/-- R100: the transactions that a SYNC of this scope captures. -/
def State.capturedBy (s : State) (slot : List Byte) : List Transaction :=
  if Req.unit (slot.take 64) = 255 then s.part.te.pool else s.part.te.pool.filter fun x => x.unit == Req.unit (slot.take 64)

theorem State.doSync_handed (s : State) (n : Nat) (slot : List Byte) :
    (s.handed n slot .sync (s.part.holderOf (Req.afterTag (slot.take 64)))).handOver .sync s.part.board.nextSeq n (slot.take 64)
      (s.part.holderOf (Req.afterTag (slot.take 64))) =
    Part.endSyncs [s.newSync slot (s.capturedBy slot)]
      { s.handed n slot .sync (s.part.holderOf (Req.afterTag (slot.take 64))) with
        te := { s.part.te with syncs := s.part.te.syncs ++ [s.newSync slot (s.capturedBy slot)] } } := by
  rfl

theorem State.newSync_ready {s : State} {slot : List Byte} {l : List Transaction} :
    (s.newSync slot l).ready = true ↔ l = [] ∧ s.NoPredecessor (slot.take 64) := by
  simp only [SyncRecord.ready, State.newSync, Bool.and_eq_true, beq_iff_eq, Option.isNone_iff_eq_none, eq_comm (a := 0), List.length_eq_zero_iff]

/-- Settles O36. -/
theorem syncCapturesItsTransactions : Obligations.SyncCapturesItsTransactions := by
  intro s n slot captured hT hA hcaptured
  have hcaptured' : captured = s.capturedBy slot := hcaptured
  subst hcaptured'
  have hk : Req.kind (slot.take 64) = some .sync := by rw [Req.kind_take]; exact hT.2.2.2.2.2.2.2.1
  have hbelow := hT.2.2.1
  refine ⟨fun hnone hN => ?complete, fun hsome => ?keep⟩
  case complete =>
    refine State.takeRow_only_completes hT hA hN ?_
    have hdo := s.doSync_handed n slot
    rw [show s.part.holderOf (Req.afterTag (slot.take 64)) = none from hN] at hdo
    rw [hdo, Part.endSyncs, List.filter_cons_of_pos (State.newSync_ready.mpr ⟨hnone, hN⟩)]
    have hothers : ((s.part.te.syncs ++ [s.newSync slot (s.capturedBy slot)]).filter fun y => y.seq != (s.newSync slot (s.capturedBy slot)).seq) =
        s.part.te.syncs := by
      have hne : ∀ y ∈ s.part.te.syncs, y.seq ≠ s.part.board.nextSeq := fun y hy e =>
        absurd (hbelow _ (.inr (.inr (.inr (.inr (.inl ⟨y, hy, .inl e⟩)))))) (Nat.lt_irrefl _)
      have hself : ((s.part.te.syncs.filter fun y => y.seq != (s.newSync slot (s.capturedBy slot)).seq)) = s.part.te.syncs :=
        List.filter_eq_self.mpr fun y hy => bne_iff_ne.mpr (hne y hy)
      rw [List.filter_append, hself]
      simp
    show Part.endSync (s.newSync slot (s.capturedBy slot)) .ok _ = _
    unfold Part.endSync
    dsimp only
    rw [hothers, hnone]
    rfl
  case keep =>
    have hready : ¬ (s.newSync slot (s.capturedBy slot)).ready = true := fun e => by
      obtain ⟨h1, h2⟩ := State.newSync_ready.mp e
      exact hsome.elim (fun h => h h1) (fun h => h h2)
    have hdo := s.doSync_handed n slot
    rw [Part.endSyncs, List.filter_cons_of_neg hready, List.filter_nil, List.foldl_nil] at hdo
    obtain ⟨t, ht, hpending, hmem, hpart, hheld, hregistry, hfinishes, _, _, htaken⟩ := State.takeRow_keeps hT hA rfl (.inr rfl) hdo rfl rfl rfl (by
      unfold Part.keepsInHand
      rw [show (s.recordInTake n slot .sync (s.part.holderOf (Req.afterTag (slot.take 64)))).req = slot.take 64 from rfl, hk]
      dsimp only
      simp [State.newSync, State.recordInTake, State.recordOf])
    exact ⟨t, ht, hpending, hmem, hpart, hheld, hregistry, hfinishes, htaken⟩

/-! ## ABORT -/

theorem Part.holderOf_eq (tag : Half) (p : Part) :
    p.holderOf tag = if tag = 0 then none else (p.board.registry.find? fun e => e.1 == tag).map (·.2) := by
  unfold Part.holderOf
  cases p.board.registry.find? (fun e => e.1 == tag) <;> rfl

/-- R118: whom a tag finds once the request in its take is registered. -/
theorem State.holderOf_handed (s : State) (n : Nat) (slot : List Byte) (k : ReqKind) (pred : Option Nat) (tag : Half) :
    (s.handed n slot k pred).holderOf tag =
      (s.part.holderOf tag).or (if tag ≠ 0 ∧ tag = Req.tag (slot.take 64) then some s.part.board.nextSeq else none) := by
  rw [Part.holderOf_eq, Part.holderOf_eq, show (s.handed n slot k pred).board.registry = s.registryWith slot from rfl]
  by_cases h0 : tag = 0
  · simp [h0]
  · rw [if_neg h0, if_neg h0]
    unfold State.registryWith
    by_cases ht : Req.tag (slot.take 64) = 0
    · rw [if_pos ht, if_neg (fun h => h0 (h.2.trans ht)), Option.or_none]
    · rw [if_neg ht, List.find?_append]
      cases hf : s.part.board.registry.find? (fun e => e.1 == tag) with
      | some e => simp
      | none =>
        by_cases e : tag = Req.tag (slot.take 64)
        · rw [if_pos ⟨h0, e⟩]
          simp [e]
        · rw [if_neg (fun h => e h.2)]
          simp [Ne.symm e]

/-- What the request in its take adds to the records held is found under its own sequence alone. -/
theorem State.heldOf_handed {s : State} {m : Nat} {h : HeldRequest} (n : Nat) (slot : List Byte) (k : ReqKind) (pred : Option Nat)
    (hm : s.part.heldOf m = some h) : (s.handed n slot k pred).heldOf m = some h := by
  show (s.part.board.held ++ [s.recordInTake n slot k pred]).find? (fun x => x.seq == m) = some h
  rw [List.find?_append, show s.part.board.held.find? (fun x => x.seq == m) = some h from hm]
  rfl

theorem State.heldOf_handed_self {s : State} (hbelow : s.SequencesBelow) (n : Nat) (slot : List Byte) (k : ReqKind) (pred : Option Nat) :
    (s.handed n slot k pred).heldOf s.part.board.nextSeq = some (s.recordInTake n slot k pred) :=
  Part.heldOf_append rfl (Part.Below.ne hbelow).1 rfl

/-- R102, R103: an ABORT handed to its block is what its tag finds. -/
theorem Part.abortTarget_abort {p : Part} {m : Nat} {h : HeldRequest} (ht : p.findTxn m = none) (hy : ∀ y ∈ p.te.syncs, y.seq ≠ m)
    (hm : p.heldOf m = some h) (ho : h.owner ≠ .boardController) (hk : Req.kind h.req = some .abort) : p.abortTarget m = .abort := by
  have hsync : p.te.syncs.find? (fun y => y.seq == m) = none := by
    rw [List.find?_eq_none]; intro y h; simpa using hy y h
  simp only [Part.abortTarget, ht, hsync, hm, ho, hk, if_false, if_true]

theorem Part.doAbort_found {p : Part} {r : List Byte} {m : Nat} (h : p.holderOf (Req.targetTag r) = some m) (seq : Nat) :
    p.doAbort seq r = p.abortItem seq (p.abortTarget m) := by
  rw [Part.doAbort, h]

theorem Part.doAbort_nothing {p : Part} {r : List Byte} (h : p.holderOf (Req.targetTag r) = none) (seq : Nat) :
    p.doAbort seq r = p.completeRequest seq { outcome := .ok, fields := [3, 0, 0] } := by
  rw [Part.doAbort, h]
  rfl

theorem Part.doAbort_abort {p : Part} {r : List Byte} {m : Nat} (h : p.holderOf (Req.targetTag r) = some m) (ht : p.abortTarget m = .abort) (seq : Nat) :
    p.doAbort seq r = p.completeRequest seq { outcome := .ok, fields := [4, 5, 0] } := by
  rw [Part.doAbort_found h, ht]
  rfl

/-- R104: an ABORT of a transaction that is being sent. -/
theorem Part.abortItem_sending {p : Part} {x : Transaction} (hx : x.state = .sending) (seq : Nat) :
    p.abortItem seq (.txn x) = { p with te := { p.te with
      pool := p.te.pool.map fun y => if y.seq = x.seq then { y with abortRequested := true } else y
      aborts := p.te.aborts ++ [{ seq := seq, target := x.seq }] } } := by
  simp only [Part.abortItem, hx, Part.mapTxn]

theorem Part.findTxn_seq {p : Part} {m : Nat} {x : Transaction} (h : p.findTxn m = some x) : x.seq = m := by
  simpa using List.find?_some h

theorem Part.abortTarget_txn {p : Part} {m : Nat} {x : Transaction} (h : p.findTxn m = some x) : p.abortTarget m = .txn x := by
  unfold Part.abortTarget
  rw [h]

/-- Settles O37. -/
theorem abortFindsNothingOrWaits : Obligations.AbortFindsNothingOrWaits := by
  intro s n slot hT hA hN
  have hk : Req.kind (slot.take 64) = some .abort := by rw [Req.kind_take]; exact hT.2.2.2.2.2.2.2.1
  have hbelow := hT.2.2.1
  have htag : s.part.holderOf (Req.tag (slot.take 64)) = none := (Part.validate_none hA hk).2.1
  have hholder := s.holderOf_handed n slot .abort none (Req.targetTag (slot.take 64))
  refine ⟨fun hnone hown => ?nothing, fun m h hm ht hy hof ho hkind => ?other, fun h0 hown => ?itself, fun m x hm hx hsending => ?sending⟩
  case nothing =>
    have hnot : ¬ (Req.targetTag (slot.take 64) ≠ 0 ∧ Req.targetTag (slot.take 64) = Req.tag (slot.take 64)) := fun e =>
      hown.elim (fun h => e.1 h) (fun h => h e.2)
    rw [hnone, if_neg hnot] at hholder
    exact State.takeRow_only_completes hT hA hN (Part.doAbort_nothing hholder _)
  case other =>
    rw [hm] at hholder
    exact State.takeRow_only_completes hT hA hN
      (Part.doAbort_abort hholder (Part.abortTarget_abort ht hy (State.heldOf_handed n slot .abort none hof) ho hkind) _)
  case itself =>
    rw [hown, htag, if_pos ⟨hown ▸ h0, rfl⟩, ← hown] at hholder
    refine State.takeRow_only_completes hT hA hN (Part.doAbort_abort hholder (Part.abortTarget_abort (Part.Below.ne hbelow).2.2.2 (fun y hy e => ?_)
      (State.heldOf_handed_self hbelow n slot .abort none) (by simp [State.recordInTake, State.recordOf, ReqKind.owner]) hk) _)
    exact absurd (hbelow _ (.inr (.inr (.inr (.inr (.inl ⟨y, hy, .inl e⟩)))))) (Nat.lt_irrefl _)
  case sending =>
    rw [hm] at hholder
    have hdo : (s.handed n slot .abort none).handOver .abort s.part.board.nextSeq n (slot.take 64) none = _ :=
      (Part.doAbort_found hholder s.part.board.nextSeq).trans
        ((congrArg (fun target => (s.handed n slot .abort none).abortItem s.part.board.nextSeq target)
          (Part.abortTarget_txn (p := s.handed n slot .abort none) hx)).trans (Part.abortItem_sending hsending _))
    obtain ⟨t, ht, hpending, hmem, hpart, hheld, hregistry, hfinishes, _, _, htaken⟩ := State.takeRow_keeps hT hA hN (.inl rfl) hdo rfl rfl rfl (by
      unfold Part.keepsInHand
      rw [show (s.recordInTake n slot .abort none).req = slot.take 64 from rfl, hk]
      dsimp only
      simp [State.recordInTake, State.recordOf])
    rw [Part.findTxn_seq hx] at hpart
    exact ⟨t, ht, hpending, hmem, hpart, hheld, hregistry, hfinishes, htaken⟩

end Sys2Proof.Machine
end

section
/-! SUPPORT. What follows a row where nobody waits for a predecessor: requests complete, tags are released and SYNCs count, and nothing else changes (R118, R120,
R100); and what is said of a completion that has been taken (R122). -/

namespace Sys2Proof.Machine

/-! ## A completion taken stays taken -/

/-- R122: from `p` to `q` the completion `c` has joined those on their way. -/
def Part.Shows (p q : Part) (c : Completion) : Prop :=
  ∃ more : List Completion, q.board.completions = p.board.completions ++ more ∧ c ∈ more

theorem Part.Shows.before {p q r : Part} {c : Completion} (h : q.Shows r c) (hw : p.Works q) : p.Shows r c := by
  obtain ⟨more, e, hc⟩ := h
  obtain ⟨first, e'⟩ := hw.completions
  exact ⟨first ++ more, by rw [e, ← e', List.append_assoc], List.mem_append_right _ hc⟩

theorem Part.Shows.after {p q r : Part} {c : Completion} (h : p.Shows q c) (hw : q.Works r) : p.Shows r c := by
  obtain ⟨more, e, hc⟩ := h
  obtain ⟨last, e'⟩ := hw.completions
  exact ⟨more ++ last, by rw [← e', e, List.append_assoc], List.mem_append_left _ hc⟩

/-- The completion is one of a row that began at `p`, a part with the completions and the window of `s`. -/
theorem Part.Shows.completesSlot {s t : State} {p : Part} {c : Completion} (h : p.Shows t.part c) (hw : p.Works t.part)
    (hc : p.board.completions = s.part.board.completions) (hb : p.base = s.part.base) : s.CompletesSlot t c := by
  obtain ⟨more, e, hm⟩ := h
  refine ⟨more, by rw [e, hc], hm, fun first rest hs hmore => ?_⟩
  rw [← hb]
  exact hw.first (hc.trans hs) first rest (by rw [e, hc, hs, hmore]; rfl)

/-- R122: the completion of the request of this record, whose result is `r`. -/
def HeldRequest.completion (h : HeldRequest) (r : Result) (now : Word) : Completion := { slot := h.slot, unmatched := h.unmatched, result := r, time := now }

theorem Part.completeRequest_shows {n : Nat} {r : Result} {p : Part} {h : HeldRequest} (e : p.heldOf n = some h) :
    p.Shows (p.completeRequest n r) (h.completion r p.run.clock) :=
  ⟨_, congrArg BoardController.completions (Part.completeRequest_board r e).1, List.mem_singleton.mpr rfl⟩

theorem Part.completeSlot_board {n : Nat} (r : Result) {p : Part} {h : HeldRequest} (e : p.heldOf n = some h) :
    (p.completeSlot n r).board = { p.board with
      held := p.board.held.filter fun x => x.seq != n
      completions := p.board.completions ++ [h.completion r p.run.clock] } := by
  unfold Part.completeSlot
  simp only [e]
  obtain ⟨w, hw⟩ := Part.writeCompletion_frame h.slot h.unmatched r
    { p with board := { p.board with held := p.board.held.filter fun x => x.seq != n } }
  rw [hw]
  rfl

theorem Part.completeRequest_none {n : Nat} {r : Result} {p : Part} (e : p.heldOf n = none) : p.completeRequest n r = p := by
  unfold Part.completeRequest
  rw [e]

theorem Part.completeSlot_none {n : Nat} {r : Result} {p : Part} (e : p.heldOf n = none) : p.completeSlot n r = p := by
  unfold Part.completeSlot
  rw [e]

/-! ## Room for the writes of the next completion -/

/-- No block waits, and where no completion is on its way there is room for the two writes of the next. -/
def Part.Roomy (p : Part) : Prop := p.port.waiting = [] ∧ (p.board.completions = [] → p.port.writesQueued + 2 ≤ Config.writeQueueSize)

/-- R122: what a completion that is taken raises at once. -/
def Part.firstWrites (c : Completion) (p : Part) : List Access := if p.board.completions = [] then c.writes p.base else []

/-- R122: a completion taken where there is room for its writes. -/
theorem Part.Roomy.writeCompletion_eq {p : Part} (h : p.Roomy) (n : Nat) (b : Bool) (r : Result) :
    p.writeCompletion n b r = { p with
      board := { p.board with completions := p.board.completions ++ [⟨n, b, r, p.run.clock⟩] }
      port := p.port.with (p.firstWrites ⟨n, b, r, p.run.clock⟩) } := by
  unfold Part.writeCompletion Part.firstWrites
  dsimp only
  by_cases hc : p.board.completions = []
  · rw [if_pos hc, if_pos (List.isEmpty_iff.mpr hc), Part.submit]
    dsimp only
    obtain ⟨hlength, hwrites⟩ := Completion.writes_facts p.base ⟨n, b, r, p.run.clock⟩
    rw [WindowPort.submit_writes (l := Completion.writes p.base ⟨n, b, r, p.run.clock⟩) h.1 hwrites (by rw [hlength]; exact h.2 hc)]
  · rw [if_neg hc, if_neg (fun e => hc (List.isEmpty_iff.mp e)), WindowPort.with_nil]

theorem Part.Roomy.writeCompletion {p : Part} (h : p.Roomy) (n : Nat) (b : Bool) (r : Result) : (p.writeCompletion n b r).Roomy := by
  rw [h.writeCompletion_eq]
  exact ⟨h.1, fun e => absurd e (by simp)⟩

/-- A change of anything but the port and the completions. -/
theorem Part.Roomy.of_eq {p q : Part} (h : p.Roomy) (hp : q.port.waiting = p.port.waiting := by rfl) (hf : q.port.fifo = p.port.fifo := by rfl)
    (hc : q.board.completions = p.board.completions := by rfl) : q.Roomy :=
  ⟨hp.trans h.1, fun e => by rw [WindowPort.writesQueued, hf]; exact h.2 (hc ▸ e)⟩

theorem Part.Roomy.completeSlot {p : Part} (h : p.Roomy) (n : Nat) (r : Result) : (p.completeSlot n r).Roomy := by
  unfold Part.completeSlot
  split
  · exact h
  · exact Part.Roomy.writeCompletion h.of_eq _ _ _

theorem Part.Roomy.completeRequest {p : Part} (h : p.Roomy) (n : Nat) (r : Result) : (p.completeRequest n r).Roomy := by
  unfold Part.completeRequest
  split
  · exact h
  · exact (h.completeSlot n r).of_eq

/-- R122: while a completion is on its way the next raises nothing. -/
theorem Part.completeRequest_port {p : Part} (h : p.board.completions ≠ []) (n : Nat) (r : Result) : (p.completeRequest n r).port = p.port := by
  have hc : p.board.completions.isEmpty = false := by simpa using h
  unfold Part.completeRequest Part.completeSlot
  cases e : p.heldOf n with
  | none => rfl
  | some x =>
    show (if p.board.completions.isEmpty = true then _ else _ : Part).port = p.port
    rw [hc]
    rfl

/-! ## Nothing but completions, tags and counts -/

/-- From `p` to `q` requests have completed, tags have been released and SYNCs have counted. -/
structure Part.Releases (p q : Part) : Prop where
  run : q.run = p.run
  svc : q.svc = p.svc
  line : q.line = p.line
  um : q.um = p.um
  dir : q.dir = p.dir
  jw : q.jw = p.jw
  te : q.te = { p.te with syncs := q.te.syncs }
  board : q.board = { p.board with
    held := q.board.held, registry := q.board.registry, finishes := q.board.finishes, completions := q.board.completions }
  held : q.board.held.Sublist p.board.held
  later : q.port.later = p.port.later
  roomy : p.Roomy → q.Roomy
  quiet : p.board.completions ≠ [] → q.port = p.port
  busy : p.board.completions ≠ [] → q.board.completions ≠ []

theorem Part.Releases.refl (p : Part) : p.Releases p := ⟨rfl, rfl, rfl, rfl, rfl, rfl, rfl, rfl, List.Sublist.refl _, rfl, id, fun _ => rfl, id⟩

theorem Part.Releases.trans {p q r : Part} (h : p.Releases q) (h' : q.Releases r) : p.Releases r where
  run := h'.run.trans h.run
  svc := h'.svc.trans h.svc
  line := h'.line.trans h.line
  um := h'.um.trans h.um
  dir := h'.dir.trans h.dir
  jw := h'.jw.trans h.jw
  te := by rw [h'.te, h.te]
  board := by rw [h'.board, h.board]
  held := h'.held.trans h.held
  later := h'.later.trans h.later
  roomy := fun x => h'.roomy (h.roomy x)
  quiet := fun x => (h'.quiet (h.busy x)).trans (h.quiet x)
  busy := fun x => h'.busy (h.busy x)

theorem Part.Releases.foldl {α : Type} {f : Part → α → Part} (h : ∀ (p : Part) (x : α), p.Releases (f p x)) (l : List α) (p : Part) :
    p.Releases (l.foldl f p) := by
  induction l generalizing p with
  | nil => exact .refl p
  | cons x rest ih => exact (h p x).trans (ih _)

theorem Part.completeRequest_releases (n : Nat) (r : Result) (p : Part) : p.Releases (p.completeRequest n r) := by
  cases e : p.heldOf n with
  | none => rw [Part.completeRequest_none e]; exact .refl p
  | some h =>
    obtain ⟨hb, hs⟩ := Part.completeRequest_board r e
    obtain ⟨hrun, hte, hline, hum, hdir, hjw⟩ := p.completeRequest_owners n r
    exact ⟨hrun, hs, hline, hum, hdir, hjw, by rw [hte], by rw [hb], by rw [hb]; exact List.filter_sublist, (p.completeRequest_calm n r).later,
      fun x => x.completeRequest n r, fun x => Part.completeRequest_port x n r, fun _ => by rw [hb]; simp⟩

/-- A change of the waiting SYNCs alone. -/
theorem Part.setSyncs_releases (l : List SyncRecord) (p : Part) : p.Releases { p with te := { p.te with syncs := l } } :=
  ⟨rfl, rfl, rfl, rfl, rfl, rfl, rfl, rfl, List.Sublist.refl _, rfl, fun x => x.of_eq, fun _ => rfl, id⟩

/-- A change of the registry and of what is left to resolve. -/
theorem Part.setFinishes_releases (l : List Finish) (m : List (Half × Nat)) (p : Part) :
    p.Releases { p with board := { p.board with finishes := l, registry := m } } :=
  ⟨rfl, rfl, rfl, rfl, rfl, rfl, rfl, rfl, List.Sublist.refl _, rfl, fun x => x.of_eq, fun _ => rfl, id⟩

theorem Part.endSync_releases (y : SyncRecord) (o : ReqOutcome) (p : Part) : p.Releases (p.endSync y o) :=
  (p.setSyncs_releases _).trans (Part.completeRequest_releases _ _ _)

theorem Part.endSyncs_releases (l : List SyncRecord) (p : Part) : p.Releases (Part.endSyncs l p) :=
  Part.Releases.foldl (fun q y => q.endSync_releases y .ok) _ p

theorem Part.countFinish_releases (f : Finish) (p : Part) : p.Releases (p.countFinish f) := by
  unfold Part.countFinish
  split
  · exact (p.setSyncs_releases _).trans (Part.endSyncs_releases _ _)
  · exact .refl p

/-- R120: what a finish does for which nobody waits. -/
theorem Part.resolveFinish_released {f : Finish} {p : Part} (h : ¬ p.Waits f.seq) :
    p.resolveFinish f = Part.countFinish f { p with board := { p.board with registry := p.board.registry.filter fun e => e.2 != f.seq } } := by
  unfold Part.resolveFinish
  dsimp only
  rw [Part.waitersOf_nil (p := { p with board := { p.board with registry := p.board.registry.filter fun e => e.2 != f.seq } }) h]
  rfl

theorem Part.resolveSteps_releases (n : Nat) {p : Part} (hl : p.port.later = []) (hw : ∀ k, ¬ p.Waits k) : p.Releases (Part.resolveSteps n p) := by
  induction n generalizing p with
  | zero => exact .refl p
  | succ n ih =>
    unfold Part.resolveSteps
    split
    · rw [hl]
      dsimp only
      split
      · next h => exact absurd h (by simp)
      · next f rest _ hf =>
        have hnone : ¬ ({ p with board := { p.board with finishes := rest } } : Part).Waits f.seq := hw f.seq
        rw [Part.resolveFinish_released hnone]
        have hstep := (p.setFinishes_releases rest (p.board.registry.filter fun e => e.2 != f.seq)).trans (Part.countFinish_releases f _)
        have hcalm := Part.countFinish_calm f { p with board := { p.board with finishes := rest, registry := p.board.registry.filter fun e => e.2 != f.seq } }
        exact hstep.trans (ih (hstep.later.trans hl) fun k hk => hw k (hcalm.waits k hk))
      · exact .refl p
    · exact .refl p

/-- R118, R120, R100: where nobody waits for a predecessor, a resolution completes SYNCs, releases tags and does nothing else. -/
theorem Part.resolve_releases {p : Part} (hl : p.port.later = []) (hw : ∀ k, ¬ p.Waits k) : p.Releases p.resolve := Part.resolveSteps_releases _ hl hw

/-! ## Requests that complete one after another -/

/-- Every request of a list completes with its result. -/
def Part.completeEach (l : List (Nat × Result)) (p : Part) : Part := l.foldl (fun q x => q.completeRequest x.1 x.2) p

theorem Part.completeEach_releases (l : List (Nat × Result)) (p : Part) : p.Releases (p.completeEach l) :=
  Part.Releases.foldl (f := fun q (x : Nat × Result) => q.completeRequest x.1 x.2) (fun q x => q.completeRequest_releases x.1 x.2) l p

theorem Part.completeEach_works (l : List (Nat × Result)) (p : Part) : p.Works (p.completeEach l) :=
  (Part.Serves.foldl (f := fun q (x : Nat × Result) => q.completeRequest x.1 x.2) (fun q x => q.completeRequest_serves x.1 x.2) l p).toWorks

theorem Part.completeEach_calm (l : List (Nat × Result)) (p : Part) : p.Calm (p.completeEach l) :=
  Part.Calm.foldl (f := fun q (x : Nat × Result) => q.completeRequest x.1 x.2) (fun q x => q.completeRequest_calm x.1 x.2) l p

theorem Part.heldOf_completeRequest {n m : Nat} (h : m ≠ n) (r : Result) (p : Part) : (p.completeRequest n r).heldOf m = p.heldOf m := by
  cases e : p.heldOf n with
  | none => rw [Part.completeRequest_none e]
  | some x =>
    rw [Part.heldOf, Part.heldOf, (Part.completeRequest_board r e).1]
    show (p.board.held.filter fun x => x.seq != n).find? (fun x => x.seq == m) = _
    rw [List.find?_filter]
    congr 1
    funext y
    by_cases hy : y.seq = m <;> simp [hy, h]

/-- A request that completes is held no more. -/
theorem Part.heldOf_completeRequest_self (n : Nat) (r : Result) (p : Part) : (p.completeRequest n r).heldOf n = none := by
  cases e : p.heldOf n with
  | none => rw [Part.completeRequest_none e, e]
  | some x =>
    rw [Part.heldOf, (Part.completeRequest_board r e).1, List.find?_eq_none]
    intro y hy
    simpa using List.of_mem_filter hy

theorem Part.completeRequest_finishes {n : Nat} {r : Result} {p : Part} {f : Finish} (h : f ∈ (p.completeRequest n r).board.finishes) :
    f ∈ p.board.finishes ∨ f = ⟨n, r.outcome.success, false⟩ := by
  cases e : p.heldOf n with
  | none => rw [Part.completeRequest_none e] at h; exact .inl h
  | some x =>
    rw [(Part.completeRequest_board r e).1] at h
    exact (List.mem_append.mp h).imp id List.mem_singleton.mp

theorem Part.heldOf_completeEach {m : Nat} {l : List (Nat × Result)} (h : ∀ x ∈ l, x.1 ≠ m) (p : Part) : (p.completeEach l).heldOf m = p.heldOf m := by
  induction l generalizing p with
  | nil => rfl
  | cons x rest ih =>
    exact (ih (fun y hy => h y (List.mem_cons_of_mem _ hy)) _).trans (Part.heldOf_completeRequest (h x List.mem_cons_self).symm _ _)

/-- No transaction finishes. -/
theorem Part.completeEach_finishes {l : List (Nat × Result)} {p : Part} {f : Finish} (h : f ∈ (p.completeEach l).board.finishes) :
    f ∈ p.board.finishes ∨ f.transaction = false := by
  induction l generalizing p with
  | nil => exact .inl h
  | cons x rest ih =>
    rcases ih (p := p.completeRequest x.1 x.2) h with h' | h'
    · exact (Part.completeRequest_finishes h').imp id fun e => by rw [e]
    · exact .inr h'

/-- Every request of the list that is held completes with its result. -/
theorem Part.completeEach_shows {l : List (Nat × Result)} (hl : (l.map Prod.fst).Nodup) {n : Nat} {r : Result} (hx : (n, r) ∈ l) {p : Part}
    {h : HeldRequest} (e : p.heldOf n = some h) : p.Shows (p.completeEach l) (h.completion r p.run.clock) := by
  induction l generalizing p with
  | nil => exact absurd hx List.not_mem_nil
  | cons x rest ih =>
    rw [List.map_cons, List.nodup_cons] at hl
    rcases List.mem_cons.mp hx with rfl | hx
    · exact (Part.completeRequest_shows e).after (Part.completeEach_works rest _)
    · have hne : n ≠ x.1 := fun e' => hl.1 (e' ▸ List.mem_map_of_mem (f := Prod.fst) hx)
      have hrun := (p.completeRequest_releases x.1 x.2).run
      have hrest := ih hl.2 hx (p := p.completeRequest x.1 x.2) ((Part.heldOf_completeRequest hne _ _).trans e)
      rw [hrun] at hrest
      exact hrest.before (Part.completeRequest_serves _ _ _).toWorks

/-- R174: a block that waits for no room hands its completions on. -/
theorem Part.raiseFree_completions (b : Block) (l : List (Nat × Result)) (p : Part) :
    Part.raiseFree b (l.map fun x => .hand (.complete x.1 x.2)) p = p.completeEach l := by
  induction l generalizing p with
  | nil => rfl
  | cons x rest ih => exact ih (p.completeRequest x.1 x.2)

end Sys2Proof.Machine
end

section
/-! SUPPORT. Takes that complete within the row behind completions of other requests (R117, R122); the Journal Writer's pages (R155 to R160); LEND and CUT. -/

namespace Sys2Proof.Machine

/-! ## The row of a request that completes behind others -/

theorem Part.Releases.with_eq {p q : Part} (h : p.Releases q) (b : BoardController) (w : WindowPort) :
    ({ q with board := b, port := w } : Part) = { p with te := { p.te with syncs := q.te.syncs }, board := b, port := w } := by
  obtain ⟨hrun, hsvc, hline, hum, hdir, hjw, hte, _⟩ := h
  rw [hrun, hsvc, hline, hum, hdir, hjw, ← hte]

/-- R117, R174: in RUNNING a take adds to what is outstanding and on its way. -/
theorem Part.takeStep_works {p : Part} (n : Nat) (slot : List Byte) (hr : p.run.partState = .running) : p.Works (p.takeStep n slot) := by
  have hrun : (p.take n (slot.take 64)).settle.run.partState = .running := by
    rw [(Part.settle_facts _).2.2.1, (p.take_keeps n (slot.take 64)).run]
    exact hr
  have hsame : (p.take n (slot.take 64)).settle.takeAfterDrain = (p.take n (slot.take 64)).settle := by
    rw [Part.takeAfterDrain, if_neg (by rw [hrun]; simp)]
  unfold Part.takeStep
  rw [hsame]
  exact (((p.take_works n (slot.take 64)).trans (Part.settle_works _)).trans (Part.sweepOn_carries _).toWorks).trans (Part.settle_works _)

/-- The row of slot `n` whose request completes with `res` at the end of its take, its block's part before that being `X`. -/
structure State.EndsTake (s t : State) (k : ReqKind) (n : Nat) (slot : List Byte) (res : Result) (X : Part) : Prop where
  pending : t.pending = s.pending
  mem : t.mem = s.mem
  part : t.part = { X with te := { X.te with syncs := t.part.te.syncs }, board := t.part.board, port := t.part.port }
  completes : s.CompletesSlot t (s.takeCompletion n slot res)
  shows : ∀ c, (s.handed n slot k none).Shows X c → s.CompletesSlot t c
  fifo : X.port.fifo <+: t.part.port.fifo

/-- Nobody waits for what has finished, and no SYNC counts it. -/
def Part.Unwaited (p : Part) : Prop := ∀ f ∈ p.board.finishes, ¬ p.Waits f.seq ∧ p.Uncounted f

theorem Part.resolve_unwaited_releases {p : Part} (hfree : p.port.free = true) (h : p.Unwaited) :
    p.Releases p.resolve ∧ p.resolve.te = p.te ∧ p.resolve.board.held = p.board.held := by
  rw [Part.resolve_unwaited hfree h]
  exact ⟨p.setFinishes_releases _ _, rfl, rfl⟩

/-- What settles where nobody waits, in RUNNING or after the end of the drain. -/
structure Part.SettlesTo (p q : Part) : Prop where
  releases : p.Releases q
  works : p.Works q
  waiting : q.port.waiting = []
  later : q.port.later = []
  finishes : q.board.finishes = []
  quiet : p.Unwaited → q.te = p.te ∧ q.board.held = p.board.held

theorem Part.settle_settlesTo {p : Part} (hr : p.run.partState = .running ∨ p.run.drainEnded = true) (hroomy : p.Roomy) (hlater : p.port.later = [])
    (h : p.Unwaited ∨ ∀ m, ¬ p.Waits m) : p.SettlesTo p.settle := by
  have hfree : p.port.free = true := WindowPort.free_iff.mpr ⟨hroomy.1, hlater⟩
  rw [Part.settle_eq_resolve hr]
  have hrel : p.Releases p.resolve := h.elim (fun h => (Part.resolve_unwaited_releases hfree h).1) (Part.resolve_releases hlater)
  have hwaiting := (hrel.roomy hroomy).1
  obtain ⟨hZlater, hZfinishes⟩ := Part.resolve_finishes p hwaiting
  exact ⟨hrel, p.resolve_works, hwaiting, hZlater, hZfinishes, fun hu => (Part.resolve_unwaited_releases hfree hu).2⟩

/-- Nothing of the take is left in hand at its end. -/
theorem State.takeRow_completing {s : State} {n : Nat} {slot : List Byte} {k : ReqKind} {res : Result} {X : Part} (hT : s.TakesSlot n slot k)
    (hA : s.Accepts slot) (hN : s.NoPredecessor (slot.take 64))
    (hX : (s.handed n slot k none).handOver k s.part.board.nextSeq n (slot.take 64) none = X.completeRequest s.part.board.nextSeq res)
    (hrun : X.run = s.part.run) (hworks : (s.handed n slot k none).Works X) (hof : X.heldOf s.part.board.nextSeq = some (s.recordInTake n slot k none))
    (hroomy : X.Roomy) (hlater : X.port.later = [])
    (hres : (X.completeRequest s.part.board.nextSeq res).Unwaited ∨ ∀ m, ¬ X.Waits m) :
    ∃ t : State, exec (takeCommand slot (some k)) s = .next t ∧ s.EndsTake t k n slot res X ∧
      ((X.completeRequest s.part.board.nextSeq res).Unwaited →
        t.part.te = X.te ∧ t.part.board.held = X.board.held.filter fun x => x.seq != s.part.board.nextSeq) := by
  obtain ⟨hr, _, _, _, _, _, _, hk, _⟩ := id hT
  have htake := State.take_handed (n := n) hA hk (hA.inRange hT) hN
  rw [if_neg (by simp), hX, Part.answerTake_completed (Part.heldOf_completeRequest_self _ _ _)] at htake
  have hYX := X.completeRequest_releases s.part.board.nextSeq res
  have hYworks := (X.completeRequest_serves s.part.board.nextSeq res).toWorks
  have hYshows := Part.completeRequest_shows (r := res) hof
  have hYheld := congrArg BoardController.held (Part.completeRequest_board res hof).1
  have hYte := (X.completeRequest_owners s.part.board.nextSeq res).2.1
  have hYcalm := X.completeRequest_calm s.part.board.nextSeq res
  generalize X.completeRequest s.part.board.nextSeq res = Y at *
  have hYrun : Y.run.partState = .running := by rw [hYX.run, hrun]; exact hr
  have hZ := Part.settle_settlesTo (.inl hYrun) (hYX.roomy hroomy) (hYX.later.trans hlater)
    (hres.imp id fun h m hm => h m (hYcalm.waits m hm))
  have hsettle : (Part.take n (slot.take 64) { s.part with port := {} }).settle = Y.settle := by rw [htake]
  have hleaves := State.takeStep_leaves hsettle (by rw [hZ.releases.run]; exact hYrun) hZ.waiting hZ.later hZ.finishes
  have hstep := Part.takeStep_works (p := { s.part with port := {} }) n slot hr
  have hexec := hT.exec_eq
  generalize Part.takeStep n slot { s.part with port := {} } = T at *
  generalize Y.settle = Z at *
  have hshows : ∀ c, (s.handed n slot k none).Shows Z c → s.CompletesSlot { s with part := T } c := fun c ⟨more, e, hc⟩ =>
    Part.Shows.completesSlot (p := { s.part with port := {} }) ⟨more, hleaves.completions.trans e, hc⟩ hstep rfl rfl
  have hte : T.te = Z.te := by
    have h := congrArg Part.te hleaves.part
    exact h
  refine ⟨_, hexec, ⟨hleaves.pending, hleaves.mem, ?part, ?own, fun c hc => hshows c ((hc.after hYworks).after hZ.works), ?fifo⟩, fun hunwaited => ?quiet⟩
  case part => exact hleaves.part.trans (by rw [hte]; exact (hYX.trans hZ.releases).with_eq _ _)
  case own =>
    have hc := (hYshows.after hZ.works).before hworks
    have hunmatched : (s.recordInTake n slot k none).completion res X.run.clock = s.takeCompletion n slot res := by
      simp [HeldRequest.completion, State.recordInTake, State.recordOf, State.takeCompletion, hrun]
    rw [hunmatched] at hc
    exact hshows _ hc
  case fifo => exact (hYworks.port.fifo.trans hZ.works.port.fifo).trans hleaves.fifo
  case quiet =>
    obtain ⟨hqte, hqheld⟩ := hZ.quiet hunwaited
    exact ⟨hte.trans (hqte.trans hYte), hleaves.held.trans (hqheld.trans hYheld)⟩


/-! ## Nobody waits -/

/-- A request in its take that waits for nobody makes nobody wait. -/
theorem State.handed_waits {s : State} {n : Nat} {slot : List Byte} {k : ReqKind} {m : Nat} (h : (s.handed n slot k none).Waits m) : s.part.Waits m := by
  refine h.imp (fun ⟨x, hx, ho, hp⟩ => ?_) id
  rcases List.mem_append.mp hx with hx | hx
  · exact ⟨x, hx, ho, hp⟩
  · rw [List.mem_singleton.mp hx] at hp
    exact absurd hp (by simp [State.recordInTake, State.recordOf])

theorem Part.Unwaited.of_requests {p : Part} (hw : ∀ m, ¬ p.Waits m) (h : ∀ f ∈ p.board.finishes, f.transaction = false) : p.Unwaited :=
  fun f hf => ⟨hw f.seq, .inl (h f hf)⟩

theorem State.handed_roomy (s : State) (n : Nat) (slot : List Byte) (k : ReqKind) (pred : Option Nat) : (s.handed n slot k pred).Roomy :=
  ⟨rfl, fun _ => Nat.le_of_ble_eq_true rfl⟩

/-! ## Pages (R155, R157) -/

/-- R157 step 5: what the Journal Writer holds once the pages before the first that is not withdrawn have gone. -/
def JournalWriter.passed (j : JournalWriter) (rest : List Page) : JournalWriter :=
  match rest.dropWhile (·.withdrawn) with
  | [] => { j with pages := [], opened := none }
  | g :: tail => ({ j with pages := g :: tail } : JournalWriter).openFront

/-- R157 step 5: the withdrawn pages next in the queue, each with its result. -/
def withdrawnResults (rest : List Page) : List (Nat × Result) := (rest.takeWhile (·.withdrawn)).map fun g => (g.seq, { outcome := .aborted })

theorem JournalWriter.passOn_eq (j : JournalWriter) (rest : List Page) :
    j.passOn rest = (j.passed rest, (withdrawnResults rest).map fun x => .hand (.complete x.1 x.2)) := by
  induction rest with
  | nil => rfl
  | cons g rest ih =>
    unfold JournalWriter.passOn JournalWriter.passed withdrawnResults
    by_cases hg : g.withdrawn = true
    · rw [if_pos hg, ih, List.dropWhile_cons_of_pos hg, List.takeWhile_cons_of_pos hg]
      rfl
    · rw [if_neg hg, List.dropWhile_cons_of_neg hg, List.takeWhile_cons_of_neg hg]
      rfl

/-- R157: the open page completes, where its head write finds room. -/
theorem Part.completePage_eq {p : Part} {g : Page} {rest : List Page} {o : OpenPage} (hp : p.jw.pages = g :: rest) (ho : p.jw.opened = some o)
    (hw : p.port.waiting = []) (hroom : p.port.writesQueued < Config.writeQueueSize) (out : ReqOutcome) :
    p.completePage out = Part.completeEach ((g.seq, o.lendResult out) :: withdrawnResults rest)
      { p with jw := p.jw.passed rest, port := p.port.with [.write g.addr.toNat o.head .silent] } := by
  have hopen : p.jw.completeOpen out = (p.jw.passed rest, g.headWrite o ::
      ((g.seq, o.lendResult out) :: withdrawnResults rest).map fun x => .hand (.complete x.1 x.2)) := by
    unfold JournalWriter.completeOpen
    rw [hp, ho]
    dsimp only
    rw [JournalWriter.passOn_eq]
    rfl
  unfold Part.completePage
  dsimp only
  rw [hopen, Part.raise_free (by exact hw)]
  show (if p.port.hasRoom (.write g.addr.toNat o.head .silent) = true then _ else _ : Part) = _
  rw [if_pos (by simpa [WindowPort.hasRoom, Access.isRead] using hroom), Part.raiseFree_completions]
  rfl

/-- The first page not withdrawn divides the queue in one way. -/
theorem List.takeWhile_dropWhile_of_append {α : Type} {f : α → Bool} {l m : List α} (hl : ∀ x ∈ l, f x = true) (hm : ∀ x tail, m = x :: tail → f x = false) :
    (l ++ m).takeWhile f = l ∧ (l ++ m).dropWhile f = m := by
  rw [List.takeWhile_append_of_pos hl, List.dropWhile_append_of_pos hl]
  cases m with
  | nil => simp
  | cons x tail => simp [hm x tail rfl]

/-- R157 step 5, as a part that has passed on its queue shows it. -/
theorem State.PassesOn.of_passed {s t : State} {rest : List Page} (hjw : t.part.jw = s.part.jw.passed rest)
    (hc : ∀ x ∈ withdrawnResults rest, s.Completes t x.1 x.2) : s.PassesOn t rest := by
  intro withdrawn more hrest hall hfirst
  obtain ⟨htake, hdrop⟩ := List.takeWhile_dropWhile_of_append (f := Page.withdrawn) hall hfirst
  rw [← hrest] at htake hdrop
  have hdrop' : rest.dropWhile (fun g => g.withdrawn) = more := hdrop
  have htake' : rest.takeWhile (fun g => g.withdrawn) = withdrawn := htake
  refine ⟨fun g hg => hc (g.seq, { outcome := .aborted }) ?_, fun hmore => ?_, fun hmore => ?_⟩
  · rw [withdrawnResults, htake']
    exact List.mem_map_of_mem hg
  · rw [hjw, JournalWriter.passed, hdrop', hmore]
  · obtain ⟨x, tail, hx⟩ := List.exists_cons_of_ne_nil hmore
    rw [hjw, JournalWriter.passed, hdrop', hx]
    rfl

/-- The requests whose pages are completed differ. -/
theorem withdrawnResults_nodup {g : Page} {rest : List Page} (h : ((g :: rest).map (·.seq)).Nodup) (r : Result) :
    (((g.seq, r) :: withdrawnResults rest).map Prod.fst).Nodup := by
  have hseq : ((g.seq, r) :: withdrawnResults rest).map Prod.fst = (g :: rest.takeWhile (·.withdrawn)).map (·.seq) := by
    simp [withdrawnResults, Function.comp_def]
  rw [hseq]
  exact h.sublist (((List.takeWhile_sublist _).cons_cons g).map _)

theorem withdrawnResults_mem {rest : List Page} {x : Nat × Result} (h : x ∈ withdrawnResults rest) : ∃ g ∈ rest, g.seq = x.1 ∧ x.2 = { outcome := .aborted } := by
  obtain ⟨g, hg, rfl⟩ := List.mem_map.mp h
  exact ⟨g, (List.takeWhile_sublist _).subset hg, rfl, rfl⟩

end Sys2Proof.Machine
end

section
/-! SUPPORT. LEND and CUT (R145, R147, R155 to R159). -/

namespace Sys2Proof.Machine

/-! ## A page completed within a take -/

theorem Part.completeEach_te (l : List (Nat × Result)) (p : Part) : (p.completeEach l).te = p.te := by
  induction l generalizing p with
  | nil => rfl
  | cons x rest ih => exact (ih _).trans (p.completeRequest_owners x.1 x.2).2.1

/-- What is left of a request's take when its block has completed the open page, `out` being the outcome of the page's request. -/
structure State.PageCompleted (s : State) (n : Nat) (slot : List Byte) (k : ReqKind) (g : Page) (rest : List Page) (o : OpenPage) (out : ReqOutcome)
    (X : Part) : Prop where
  run : X.run = s.part.run
  works : (s.handed n slot k none).Works X
  own : X.heldOf s.part.board.nextSeq = some (s.recordInTake n slot k none)
  roomy : X.Roomy
  later : X.port.later = []
  waits : ∀ m, ¬ X.Waits m
  requests : ∀ f ∈ X.board.finishes, f.transaction = false
  part : X = { s.part with jw := s.part.jw.passed rest, board := X.board, port := X.port }
  head : [.write g.addr.toNat o.head .silent] <+: X.port.fifo
  shows : ∀ x ∈ (g.seq, o.lendResult out) :: withdrawnResults rest, ∀ h : HeldRequest, s.part.heldOf x.1 = some h →
    (s.handed n slot k none).Shows X (h.completion x.2 s.part.run.clock)

theorem State.handed_completePage {s : State} {n : Nat} {slot : List Byte} {k : ReqKind} {g : Page} {rest : List Page} {o : OpenPage}
    (hT : s.TakesSlot n slot k) (hp : s.part.jw.pages = g :: rest) (ho : s.part.jw.opened = some o) (hN : s.NoneWaits) (hD : s.Distinct)
    (out : ReqOutcome) : s.PageCompleted n slot k g rest o out ((s.handed n slot k none).completePage out) := by
  obtain ⟨_, hf, hbelow, _⟩ := hT
  obtain ⟨_, hnodup, hpages, _⟩ := hD
  rw [hp] at hnodup hpages
  let P : Part := { s.handed n slot k none with jw := s.part.jw.passed rest, port := WindowPort.with {} [.write g.addr.toNat o.head .silent] }
  let l := (g.seq, o.lendResult out) :: withdrawnResults rest
  have hX : (s.handed n slot k none).completePage out = P.completeEach l :=
    Part.completePage_eq (p := s.handed n slot k none) hp ho rfl (Nat.le_of_ble_eq_true rfl) out
  have hstart : (s.handed n slot k none).Works P :=
    ⟨⟨rfl, List.prefix_append _ _, trivial, id, id⟩, List.prefix_refl _, List.prefix_refl _, rfl, rfl, rfl, fun _ => .inl, .of_eq rfl⟩
  have hroomy : P.Roomy := ⟨rfl, fun _ => Nat.le_of_ble_eq_true rfl⟩
  have hseqs : ∀ x ∈ l, x.1 ≠ s.part.board.nextSeq := by
    intro x hx
    rcases List.mem_cons.mp hx with rfl | hx
    · exact (hpages g List.mem_cons_self).ne
    · obtain ⟨y, hy, e, _⟩ := withdrawnResults_mem hx
      exact e ▸ (hpages y (List.mem_cons_of_mem _ hy)).ne
  have hrel := P.completeEach_releases l
  have hcalm := P.completeEach_calm l
  have hworks := P.completeEach_works l
  rw [hX]
  refine ⟨hrel.run, hstart.trans hworks, ?own, hrel.roomy hroomy, hrel.later, fun m hm => hN m (State.handed_waits (hcalm.waits m hm)), ?requests, ?part,
    hworks.port.fifo, fun x hx h hof => ?shows⟩
  case own => exact (Part.heldOf_completeEach hseqs P).trans (State.heldOf_handed_self hbelow n slot k none)
  case requests =>
    intro f hfin
    refine (Part.completeEach_finishes hfin).resolve_left fun e => ?_
    rw [show P.board.finishes = [] from hf] at e
    exact absurd e List.not_mem_nil
  case part =>
    refine (hrel.with_eq (P.completeEach l).board (P.completeEach l).port).trans ?_
    rw [P.completeEach_te l]
    rfl
  case shows =>
    exact (Part.completeEach_shows (p := P) (withdrawnResults_nodup hnodup _) hx (State.heldOf_handed n slot k none hof)).before hstart

/-- The row of a request whose block completes the open page and then the request. -/
theorem State.takeRow_completesPage {s : State} {n : Nat} {slot : List Byte} {k : ReqKind} {res : Result} {g : Page} {rest : List Page} {o : OpenPage}
    {out : ReqOutcome} (hT : s.TakesSlot n slot k) (hA : s.Accepts slot) (hN : s.NoPredecessor (slot.take 64)) (hp : s.part.jw.pages = g :: rest)
    (ho : s.part.jw.opened = some o) (hwaits : s.NoneWaits) (hD : s.Distinct)
    (hX : (s.handed n slot k none).handOver k s.part.board.nextSeq n (slot.take 64) none =
      ((s.handed n slot k none).completePage out).completeRequest s.part.board.nextSeq res) :
    ∃ t : State, exec (takeCommand slot (some k)) s = .next t ∧ t.pending = s.pending ∧ t.mem = s.mem ∧
      t.part = { s.part with jw := t.part.jw, board := t.part.board, port := t.part.port } ∧ s.PassesOn t rest ∧
      [.write g.addr.toNat o.head .silent] <+: t.part.port.fifo ∧ s.Completes t g.seq (o.lendResult out) ∧
      s.CompletesSlot t (s.takeCompletion n slot res) := by
  have hc := State.handed_completePage hT hp ho hwaits hD out (n := n) (slot := slot)
  generalize (s.handed n slot k none).completePage out = X at hX hc
  have hunwaited : (X.completeRequest s.part.board.nextSeq res).Unwaited := by
    refine .of_requests (fun m hm => hc.waits m ((X.completeRequest_calm _ _).waits m hm)) fun f hf => ?_
    rcases Part.completeRequest_finishes hf with h | h
    · exact hc.requests f h
    · rw [h]
  obtain ⟨t, ht, h, hquiet⟩ := State.takeRow_completing hT hA hN hX hc.run hc.works hc.own hc.roomy hc.later (.inl hunwaited)
  have hpart : t.part = { s.part with jw := s.part.jw.passed rest, board := t.part.board, port := t.part.port } := by
    have hte := (hquiet hunwaited).1
    rw [h.part, hte, hc.part]
  have hjw : t.part.jw = s.part.jw.passed rest := by rw [hpart]
  have hcompletes : ∀ x ∈ (g.seq, o.lendResult out) :: withdrawnResults rest, s.Completes t x.1 x.2 := fun x hx y hy => h.shows _ (hc.shows x hx y hy)
  exact ⟨t, ht, h.pending, h.mem, by rw [hpart], .of_passed hjw fun x hx => hcompletes x (List.mem_cons_of_mem _ hx), hc.head.trans h.fifo,
    hcompletes _ List.mem_cons_self, h.completes⟩

/-! ## CUT (R147, R159) -/

theorem Part.doCut_empty {p : Part} (hw : p.port.waiting = [])
    (h : p.jw.pages = [] ∨ p.jw.opened = none ∨ ∃ o, p.jw.opened = some o ∧ o.count = 0) (m : Nat) :
    p.doCut m = p.completeRequest m { outcome := .empty } := by
  rw [← Part.finishRequest_eq hw .journalWriter]
  unfold Part.doCut Part.finishRequest
  rcases h with h | h | ⟨o, h, hcount⟩
  · rw [h]
  · rw [h]
    split
    · next e => exact absurd e (by simp)
    · rfl
  · rw [h]
    split
    · next e =>
      cases e
      rw [if_pos hcount]
    · rfl

theorem Part.doCut_open {p : Part} {g : Page} {rest : List Page} {o : OpenPage} (hp : p.jw.pages = g :: rest) (ho : p.jw.opened = some o)
    (hc : o.count ≠ 0) (hw : (p.completePage .cut).port.waiting = []) (m : Nat) : p.doCut m = (p.completePage .cut).completeRequest m o.cutResult := by
  rw [← Part.finishRequest_eq hw .journalWriter]
  unfold Part.doCut Part.finishRequest
  rw [hp, ho]
  dsimp only
  rw [if_neg hc]

/-- Settles O40. -/
theorem cutCompletesTheOpenPage : Obligations.CutCompletesTheOpenPage := by
  intro s n slot hT hA hN
  refine ⟨fun hempty => ?_, fun g rest o hp ho hcount hwaits hD => ?_⟩
  · exact State.takeRow_only_completes hT hA hN (Part.doCut_empty (p := s.handed n slot .cut none) rfl hempty _)
  · have hdo := Part.doCut_open (p := s.handed n slot .cut none) hp ho hcount (State.handed_completePage hT hp ho hwaits hD .cut).roomy.1 s.part.board.nextSeq
    exact State.takeRow_completesPage hT hA hN hp ho hwaits hD hdo

/-! ## LEND (R145, R155) -/

/-- R155: the page that LEND brings. -/
def State.lentPage (s : State) (slot : List Byte) : Page :=
  { seq := s.part.board.nextSeq, addr := BitVec.ofNat 40 (Req.pageAddress (slot.take 64)), size := Req.pageSize (slot.take 64)
    flushAge := Req.flushAge (slot.take 64), withdrawn := false }

/-- R155: the Journal Writer with a page more. -/
def JournalWriter.lent (j : JournalWriter) (g : Page) : JournalWriter :=
  { j with
    pages := j.pages ++ [g]
    opened := if j.pages = [] then some { pageSeq := j.nextPage, count := 0, used := 32, firstTime := none, lastTime := none, gap := none, flushTimer := none }
      else j.opened
    nextPage := if j.pages = [] then (if j.nextPage = 0xFFFFFFFF then 1 else j.nextPage + 1) else j.nextPage }

theorem State.doLend_handed {s : State} (n : Nat) (slot : List Byte) (h : s.part.jw.drained = false) :
    (s.handed n slot .lend none).handOver .lend s.part.board.nextSeq n (slot.take 64) none =
      { s.handed n slot .lend none with jw := s.part.jw.lent (s.lentPage slot) } := by
  show (s.handed n slot .lend none).doLend s.part.board.nextSeq (slot.take 64) = _
  unfold Part.doLend
  rw [show (s.handed n slot .lend none).jw = s.part.jw from rfl, h, if_neg (by simp)]
  dsimp only
  by_cases hp : s.part.jw.pages = []
  · rw [if_pos (List.isEmpty_iff.mpr hp), JournalWriter.lent, hp]
    rfl
  · rw [if_neg (fun e => hp (List.isEmpty_iff.mp e)), JournalWriter.lent, if_neg hp, if_neg hp]
    rfl

theorem insertSeq_singleton (n : Nat) : inTakeOrder [n] = [n] := rfl

theorem Part.mem_waitersOf {n w : Nat} {p : Part} :
    w ∈ p.waitersOf n ↔ (∃ h ∈ p.board.held, h.owner = .boardController ∧ h.pred = some n ∧ h.seq = w) ∨
      (∃ t ∈ p.te.pool, t.pred = some n ∧ t.seq = w) ∨ ∃ y ∈ p.te.syncs, y.pred = some n ∧ y.seq = w := by
  simp only [Part.waitersOf, List.mem_append, List.mem_map, List.mem_filter, Bool.and_eq_true, beq_iff_eq, and_assoc, or_assoc]

theorem Part.waits_iff {n : Nat} {p : Part} : p.Waits n ↔ ∃ w, w ∈ p.waitersOf n := by
  simp only [Part.mem_waitersOf, Part.Waits]
  constructor
  · rintro (⟨h, hh, ho, hp⟩ | ⟨t, ht, hp⟩ | ⟨y, hy, hp⟩)
    · exact ⟨h.seq, .inl ⟨h, hh, ho, hp, rfl⟩⟩
    · exact ⟨t.seq, .inr (.inl ⟨t, ht, hp, rfl⟩)⟩
    · exact ⟨y.seq, .inr (.inr ⟨y, hy, hp, rfl⟩)⟩
  · rintro ⟨w, ⟨h, hh, ho, hp, _⟩ | ⟨t, ht, hp, _⟩ | ⟨y, hy, hp, _⟩⟩
    · exact .inl ⟨h, hh, ho, hp⟩
    · exact .inr (.inl ⟨t, ht, hp⟩)
    · exact .inr (.inr ⟨y, hy, hp⟩)

/-- R145, R125: a LEND handed over once the journal is drained completes STOPPED. -/
theorem Part.doLend_drained {p : Part} (hd : p.jw.drained = true) (hw : p.port.waiting = []) (m : Nat) (r : List Byte) :
    p.doLend m r = p.completeRequest m { outcome := .stopped } := by
  rw [← Part.finishRequest_eq hw .journalWriter]
  unfold Part.doLend Part.finishRequest
  rw [hd, if_pos rfl]

/-- R120: a held LEND whose predecessor has succeeded, the journal being drained. -/
theorem Part.resolveHeld_lend {p : Part} {h : HeldRequest} (hk : Req.kind h.req = some .lend) (hpages : p.jw.pages = []) (hd : p.jw.drained = true)
    (hw : p.port.waiting = []) :
    p.resolveHeld h true = (p.passToOwner h.seq .journalWriter).completeRequest h.seq { outcome := .stopped } := by
  have hcheck : p.checkState .lend h.req = none := by
    simp [Part.checkState, Part.check4, Part.check5, Part.check6, hpages, Config.lentPages]
  unfold Part.resolveHeld
  rw [if_pos rfl, hk]
  dsimp only
  rw [hcheck]
  exact Part.doLend_drained (p := p.passToOwner h.seq .journalWriter) hd hw _ _

/-- R120: the record of a request that has been passed to the block `b`. -/
def HeldRequest.passed (n : Nat) (b : Block) (h : HeldRequest) : HeldRequest := if h.seq = n then { h with owner := b, pred := none } else h

theorem HeldRequest.passed_seq (n : Nat) (b : Block) (h : HeldRequest) : (h.passed n b).seq = h.seq := by
  unfold HeldRequest.passed
  split <;> rfl

theorem Part.passToOwner_held (n : Nat) (b : Block) (p : Part) :
    p.passToOwner n b = { p with board := { p.board with held := p.board.held.map (HeldRequest.passed n b) } } := rfl

theorem Part.heldOf_passToOwner {n : Nat} {p : Part} {h : HeldRequest} (e : p.heldOf n = some h) (b : Block) :
    (p.passToOwner n b).heldOf n = some (h.passed n b) := by
  rw [Part.passToOwner_held]
  show (p.board.held.map (HeldRequest.passed n b)).find? (fun x => x.seq == n) = _
  rw [List.find?_map]
  have hsame : ((fun x : HeldRequest => x.seq == n) ∘ HeldRequest.passed n b) = fun x => x.seq == n := by
    funext x
    simp only [Function.comp, HeldRequest.passed_seq]
  rw [hsame, show p.board.held.find? (fun x => x.seq == n) = some h from e]
  rfl

theorem filter_passed (n : Nat) (b : Block) (l : List HeldRequest) :
    ((l.map (HeldRequest.passed n b)).filter fun x => x.seq != n) = l.filter fun x => x.seq != n := by
  induction l with
  | nil => rfl
  | cons x rest ih =>
    rw [List.map_cons, List.filter_cons, List.filter_cons, ih, HeldRequest.passed_seq]
    by_cases e : x.seq = n
    · simp [e]
    · simp [e, HeldRequest.passed]

/-- R120: a request passed to its owner and completed there leaves nothing of itself but its completion. -/
theorem Part.passToOwner_completes {p : Part} {n : Nat} {h : HeldRequest} (hof : p.heldOf n = some h) (b : Block) (r : Result) :
    ((p.passToOwner n b).completeRequest n r).board = { p.board with
      held := p.board.held.filter fun x => x.seq != n
      finishes := p.board.finishes ++ [⟨n, r.outcome.success, false⟩]
      completions := p.board.completions ++ [h.completion r p.run.clock] } := by
  have hcompletion : ∀ now, (h.passed n b).completion r now = h.completion r now := fun now => by
    unfold HeldRequest.passed HeldRequest.completion
    split <;> rfl
  rw [(Part.completeRequest_board r (Part.heldOf_passToOwner hof b)).1, Part.passToOwner_held]
  show ({ p.board with
    held := (p.board.held.map (HeldRequest.passed n b)).filter fun x => x.seq != n
    finishes := p.board.finishes ++ [⟨n, r.outcome.success, false⟩]
    completions := p.board.completions ++ [(h.passed n b).completion r p.run.clock] } : BoardController) = _
  rw [filter_passed, hcompletion]

/-- R120: the only request that waits on a finished item, held by the Board Controller, is taken up. -/
theorem Part.resolveFinish_held {p : Part} {m w : Nat} {h : HeldRequest} (hw : p.port.waiting = []) (hwaiters : p.waitersOf m = [w])
    (ht : p.findTxn w = none) (hy : ∀ y ∈ p.te.syncs, y.seq ≠ w) (hof : p.heldOf w = some h) (ho : h.owner = .boardController) (hp : h.pred = some m) :
    p.resolveFinish ⟨m, true, false⟩ =
      Part.resolveHeld h true { p with board := { p.board with registry := p.board.registry.filter fun e => e.2 != m } } := by
  have hsync : p.te.syncs.find? (fun y => y.seq == w) = none := List.find?_eq_none.mpr fun y hmem e => hy y hmem (beq_iff_eq.mp e)
  let R : Part := { p with board := { p.board with registry := p.board.registry.filter fun e => e.2 != m } }
  have hwaiter : R.resolveWaiter m true w = R.resolveHeld h true := by
    unfold Part.resolveWaiter
    rw [show R.findTxn w = none from ht, show R.te.syncs.find? (fun y => y.seq == w) = none from hsync]
    dsimp only
    rw [show R.heldOf w = some h from hof]
    dsimp only
    rw [if_pos (by simp [ho, hp])]
  show R.resolveWaiters ⟨m, true, false⟩ (inTakeOrder (p.waitersOf m)) = _
  rw [hwaiters, insertSeq_singleton]
  unfold Part.resolveWaiters
  rw [if_pos (List.isEmpty_iff.mpr hw), hwaiter]
  rfl

/-- Settles O39: the held LEND is passed to the Journal Writer, which answers it STOPPED, and nobody waits on it. -/
theorem lendAppendsThePage : Obligations.LendAppendsThePage := by
  refine ⟨fun s n slot g hT hA hN hg hdrained => ?lend, fun p m w h hdraining hended hdrained hpages hwaiting hlater hroom hfin hwaiters hothers hof ho hp hk ht hy =>
    ?held⟩
  case lend =>
    have hk : Req.kind (slot.take 64) = some .lend := by rw [Req.kind_take]; exact hT.2.2.2.2.2.2.2.1
    obtain ⟨t, ht, hpending, hmem, hpart, hheld, hregistry, hfinishes, _, _, htaken⟩ := State.takeRow_keeps hT hA hN (.inl rfl)
      (State.doLend_handed n slot hdrained) rfl rfl rfl (by
        unfold Part.keepsInHand
        rw [show (s.recordInTake n slot .lend none).req = slot.take 64 from rfl, hk]
        dsimp only
        simp [JournalWriter.lent, State.lentPage, State.recordInTake, State.recordOf])
    rw [hg]
    exact ⟨t, ht, hpending, hmem, hpart, hheld, hregistry, hfinishes, htaken⟩
  case held =>
    let R : Part := { p with board := { p.board with finishes := [], registry := p.board.registry.filter fun e => e.2 != m } }
    let Q : Part := (R.passToOwner w .journalWriter).completeRequest w { outcome := .stopped }
    have hwseq : h.seq = w := by simpa using List.find?_some hof
    have hlend : R.resolveHeld h true = Q := by
      rw [Part.resolveHeld_lend (p := R) hk hpages hdrained hwaiting, hwseq]
    have hstep : p.settle = Q.resolve := by
      rw [Part.settle_eq_resolve (.inr hended), Part.resolve_finish hwaiting hlater hfin,
        Part.resolveFinish_held (p := { p with board := { p.board with finishes := [] } }) hwaiting hwaiters ht hy hof ho hp]
      exact congrArg Part.resolve hlend
    have hboard : Q.board = _ := Part.passToOwner_completes (p := R) hof .journalWriter { outcome := .stopped }
    have hrel := (R.passToOwner w .journalWriter).completeRequest_releases w { outcome := .stopped }
    have hte : Q.te = p.te := ((R.passToOwner w .journalWriter).completeRequest_owners w { outcome := .stopped }).2.1
    have hfree : Q.port.free = true :=
      WindowPort.free_iff.mpr ⟨(hrel.roomy ⟨hwaiting, fun _ => hroom⟩).1, hrel.later.trans hlater⟩
    have hnone : ∀ k, ¬ Q.Waits k := by
      intro k hwaits
      obtain ⟨x, hx⟩ := Part.waits_iff.mp hwaits
      have hpast : x ∈ p.waitersOf k ∧ x ≠ w := by
        rw [Part.mem_waitersOf, hte, hboard] at hx
        rcases hx with ⟨y, hy', hyo, hyp, rfl⟩ | ⟨y, hy', hyp, rfl⟩ | ⟨y, hy', hyp, rfl⟩
        · obtain ⟨hmem, hne⟩ := List.mem_filter.mp hy'
          exact ⟨Part.mem_waitersOf.mpr (.inl ⟨y, hmem, hyo, hyp, rfl⟩), by simpa using hne⟩
        · exact ⟨Part.mem_waitersOf.mpr (.inr (.inl ⟨y, hy', hyp, rfl⟩)), fun e => (List.find?_eq_none.mp ht) y hy' (beq_iff_eq.mpr e)⟩
        · exact ⟨Part.mem_waitersOf.mpr (.inr (.inr ⟨y, hy', hyp, rfl⟩)), hy y hy'⟩
      by_cases hkm : k = m
      · rw [hkm, hwaiters] at hpast
        exact hpast.2 (List.mem_singleton.mp hpast.1)
      · rw [hothers k hkm] at hpast
        exact absurd hpast.1 List.not_mem_nil
    have hrequests : ∀ f ∈ Q.board.finishes, f.transaction = false := by
      intro f hf
      rw [hboard] at hf
      rw [List.mem_singleton.mp (show f ∈ [_] from hf)]
    rw [hstep, Part.resolve_unwaited hfree (Part.Unwaited.of_requests hnone hrequests)]
    refine ⟨?_, rfl, fun x hx => ?_, ?_⟩
    · refine (hrel.with_eq _ Q.port).trans ?_
      rw [show ((R.passToOwner w .journalWriter).completeRequest w { outcome := .stopped }).te.syncs = p.te.syncs from congrArg _ hte]
      rfl
    · have hx' : x ∈ Q.board.held := hx
      rw [hboard] at hx'
      simpa using List.of_mem_filter hx'
    · show Q.board.completions = _
      rw [hboard]
      rfl

end Sys2Proof.Machine
end

section
/-! SUPPORT. A unit's place written where nothing that it shows changes; the end of a transaction (R85); the ABORT that ends what it finds (R102, R103, R160). -/

namespace Sys2Proof.Machine

/-! ## A place written where nothing shown changes -/

theorem Part.raise_nil (b : Block) (p : Part) : Part.raise b [] p = p := by
  unfold Part.raise
  split
  · have hsame : p.port.park b [] = p.port := by
      unfold WindowPort.park
      split
      · have hid : (p.port.waiting.map fun e => if e.block == b then { e with items := e.items ++ [] } else e) = p.port.waiting := by
          conv_rhs => rw [← List.map_id p.port.waiting]
          refine List.map_congr_left fun e _ => ?_
          rw [List.append_nil]
          exact ite_self e
        rw [hid]
      · next hw hn => exact absurd hw hn
    rw [hsame]
  · rfl

/-- The unit at an address changed, its mirror and its bank bit left as they are. -/
def Part.setPlace (a : Nat) (f : FieldUnit → FieldUnit) (p : Part) : Part :=
  if 1 ≤ a ∧ a ≤ 30 then
    { p with um := { p.um with slots := p.um.slots.setIfInBounds a { p.unitSlot a with place := (p.unitAt a).map f } } }
  else p

theorem Part.setPlace_slot (a : Nat) (f : FieldUnit → FieldUnit) (p : Part) (b : Nat) :
    (p.setPlace a f).unitSlot b = if b = a ∧ 1 ≤ a ∧ a ≤ 30 then { p.unitSlot a with place := (p.unitAt a).map f } else p.unitSlot b := by
  unfold Part.setPlace
  by_cases ha : 1 ≤ a ∧ a ≤ 30
  · rw [if_pos ha]
    unfold Part.unitSlot
    dsimp only
    rw [Vector.getElem?_setIfInBounds]
    by_cases e : b = a
    · subst e
      rw [if_pos rfl, if_pos (show b < 32 by omega), if_pos ⟨rfl, ha⟩]
      rfl
    · rw [if_neg (Ne.symm e), if_neg (fun h => e h.1)]
  · rw [if_neg ha, if_neg (fun h => ha h.2)]

theorem Part.setPlace_eq (a : Nat) (f : FieldUnit → FieldUnit) (p : Part) : ∃ v, p.setPlace a f = { p with um := { p.um with slots := v } } := by
  unfold Part.setPlace
  split
  · exact ⟨_, rfl⟩
  · exact ⟨p.um.slots, rfl⟩

/-- R40: a change of a unit that shows nowhere is written without an access. -/
theorem Part.updateUnit_silent {a : Nat} {f : FieldUnit → FieldUnit} (hbody : ∀ u, unitBody (some (f u)) = unitBody (some u))
    (hbit : ∀ u, unitBitChange (some u) (some (f u)) = false) (p : Part) : p.updateUnit a f = p.setPlace a f := by
  unfold Part.updateUnit
  cases e : p.unitAt a with
  | none =>
    show p = p.setPlace a f
    unfold Part.setPlace
    split
    · next ha =>
      have hslot : ({ p.unitSlot a with place := (p.unitAt a).map f } : UnitSlot) = p.unitSlot a := by
        rw [e, Option.map_none, ← e]
        rfl
      rw [hslot]
      have hsame : p.um.slots.setIfInBounds a (p.unitSlot a) = p.um.slots := by
        refine Vector.ext fun i hi => ?_
        rw [Vector.getElem_setIfInBounds]
        split
        · next h =>
          subst h
          simp [Part.unitSlot, hi]
        · rfl
      rw [hsame]
    · rfl
  | some u =>
    have hplace : (p.unitSlot a).place = some u := e
    unfold Part.putUnit Part.setPlace
    dsimp only
    by_cases ha : 1 ≤ a ∧ a ≤ 30
    · rw [if_pos ha, if_pos ha]
      simp only [hplace, hbody, hbit, bne_self_eq_false, Bool.or_false, Bool.false_eq_true, if_false, List.map_nil, List.append_nil, Part.raise_nil]
      rw [e]
      rfl
    · rw [if_neg ha, if_neg ha]

/-! ## The end of a transaction (R85) -/

/-- R85 step 2: what a unit keeps of a token that becomes a reservation. -/
def FieldUnit.reserve (token : Nat) (tag : Half) (expiry : Word) (u : FieldUnit) : FieldUnit :=
  { u with reservations := u.reservations ++ [{ token := token, tag := tag, expiry := expiry }] }

theorem Part.reserveToken_reserves {t : Transaction} {e : Ending} {p : Part} {expiry : Word} {token : Nat} (he : e.reserve = some expiry)
    (ht : t.token = some token) (hr : reached p.run.clock expiry = false) : p.reserveToken t e = p.setPlace t.unit (FieldUnit.reserve token t.tag expiry) := by
  unfold Part.reserveToken
  rw [he, ht]
  dsimp only
  rw [hr, if_neg (by simp)]
  exact Part.updateUnit_silent (f := FieldUnit.reserve token t.tag expiry) (fun _ => rfl) (fun u => by simp [unitBitChange, FieldUnit.reserve]) p

theorem Part.reserveToken_frees {t : Transaction} {e : Ending} {p : Part}
    (h : ∀ expiry token, e.reserve = some expiry → t.token = some token → reached p.run.clock expiry = true) : p.reserveToken t e = p := by
  unfold Part.reserveToken
  split
  · next expiry token he ht => rw [h expiry token he ht, if_pos rfl]
  · rfl

/-- R85 step 2: at most the place of the transaction's unit changes. -/
theorem Part.reserveToken_cases (t : Transaction) (e : Ending) (p : Part) :
    p.reserveToken t e = p ∨ ∃ f : FieldUnit → FieldUnit, p.reserveToken t e = p.setPlace t.unit f := by
  by_cases h : ∀ expiry token, e.reserve = some expiry → t.token = some token → reached p.run.clock expiry = true
  · exact .inl (Part.reserveToken_frees h)
  · push Not at h
    obtain ⟨expiry, token, he, ht, hr⟩ := h
    exact .inr ⟨_, Part.reserveToken_reserves he ht (Bool.eq_false_iff.mpr hr)⟩

/-- What a finished transaction leaves that raised no fault record. -/
structure Part.TxnFinished (p q : Part) (t : Transaction) (e : Ending) : Prop where
  run : q.run = p.run
  line : q.line = p.line
  dir : q.dir = p.dir
  jw : q.jw = p.jw
  svc : q.svc = p.svc
  dismissWait : q.um.dismissWait = p.um.dismissWait
  te : q.te = { p.te with pool := p.te.pool.filter fun x => x.seq != t.seq }
  frees : (∀ expiry token, e.reserve = some expiry → t.token = some token → reached p.run.clock expiry = true) → ∀ a, q.unitSlot a = p.unitSlot a
  reserves : ∀ expiry token, e.reserve = some expiry → t.token = some token → reached p.run.clock expiry = false → ∀ a,
    q.unitSlot a = if a = t.unit ∧ 1 ≤ t.unit ∧ t.unit ≤ 30 then
      { p.unitSlot t.unit with place := (p.unitAt t.unit).map (FieldUnit.reserve token t.tag expiry) } else p.unitSlot a
  finishes : q.board.finishes = p.board.finishes ++ [⟨t.seq, e.outcome == .ok, true⟩]
  held : ∀ m, m ≠ t.seq → q.heldOf m = p.heldOf m
  roomy : p.Roomy → q.Roomy
  later : q.port.later = p.port.later
  shows : t.origin.isSome = true → ∀ h, p.heldOf t.seq = some h → p.Shows q (h.completion (t.result e) p.run.clock)

theorem Part.heldOf_completeSlot {n m : Nat} (h : m ≠ n) (r : Result) (p : Part) : (p.completeSlot n r).heldOf m = p.heldOf m := by
  cases e : p.heldOf n with
  | none => rw [Part.completeSlot_none e]
  | some x =>
    rw [Part.heldOf, Part.heldOf, Part.completeSlot_board r e]
    show (p.board.held.filter fun x => x.seq != n).find? (fun x => x.seq == m) = _
    rw [List.find?_filter]
    congr 1
    funext y
    by_cases hy : y.seq = m <;> simp [hy, h]

theorem Part.completeSlot_finishes (n : Nat) (r : Result) (p : Part) : (p.completeSlot n r).board.finishes = p.board.finishes := by
  cases e : p.heldOf n with
  | none => rw [Part.completeSlot_none e]
  | some x => rw [Part.completeSlot_board r e]

/-- R85 steps 3 and 4 where no fault record is due. -/
theorem Part.reportEnding_quiet {t : Transaction} {e : Ending} (h : t.origin.isSome = true ∨ e.outcome = .ok ∨ e.byAbort = true) (p : Part) :
    p.reportEnding t e = if t.origin.isSome then p.completeSlot t.seq (t.result e) else p := by
  unfold Part.reportEnding
  split
  · rfl
  · next hn => rw [if_pos (by simpa using h.resolve_left hn)]

theorem Part.completeSlot_releases (n : Nat) (r : Result) (p : Part) : p.Releases (p.completeSlot n r) := by
  cases e : p.heldOf n with
  | none => rw [Part.completeSlot_none e]; exact .refl p
  | some h =>
    have hb := Part.completeSlot_board r e
    obtain ⟨hrun, hte, hline, hum, hdir, hjw⟩ := p.completeSlot_owners n r
    refine ⟨hrun, p.completeSlot_svc n r, hline, hum, hdir, hjw, by rw [hte], by rw [hb], by rw [hb]; exact List.filter_sublist,
      (p.completeSlot_calm n r).later, fun x => x.completeSlot n r, fun x => ?_, fun _ => by rw [hb]; simp⟩
    have hport := Part.completeRequest_port x n r
    rwa [Part.completeRequest, e] at hport

/-- What the report of an ending leaves that raises no fault record. -/
structure Part.EndingReported (p q : Part) (t : Transaction) (e : Ending) : Prop extends Part.Releases p q where
  engine : q.te = p.te
  pending : q.board.finishes = p.board.finishes
  others : ∀ m, m ≠ t.seq → q.heldOf m = p.heldOf m
  shows : t.origin.isSome = true → ∀ h, p.heldOf t.seq = some h → p.Shows q (h.completion (t.result e) p.run.clock)

theorem Part.reportEnding_reported {t : Transaction} {e : Ending} (h : t.origin.isSome = true ∨ e.outcome = .ok ∨ e.byAbort = true) (p : Part) :
    p.EndingReported (p.reportEnding t e) t e := by
  rw [Part.reportEnding_quiet h]
  split
  · exact ⟨p.completeSlot_releases _ _, (p.completeSlot_owners _ _).2.1, p.completeSlot_finishes _ _, fun m hm => Part.heldOf_completeSlot hm _ _,
      fun _ x hx => ⟨_, congrArg BoardController.completions (Part.completeSlot_board (t.result e) hx), List.mem_singleton.mpr rfl⟩⟩
  · next hn => exact ⟨.refl p, rfl, rfl, fun _ _ => rfl, fun ho => absurd ho hn⟩

/-- R85: a transaction that ends with an origin slot, by an ABORT or with success finishes without a fault record. -/
theorem Part.finishTxn_finished {t : Transaction} {e : Ending} (h : t.origin.isSome = true ∨ e.outcome = .ok ∨ e.byAbort = true) (p : Part) :
    p.TxnFinished (p.finishTxn t e) t e := by
  let P : Part := { p with te := { p.te with pool := p.te.pool.filter fun x => x.seq != t.seq } }
  let R : Part := P.reserveToken t e
  have hR : ∃ v, R = { P with um := { P.um with slots := v } } := by
    rcases P.reserveToken_cases t e with hr | ⟨f, hr⟩
    · exact ⟨P.um.slots, hr⟩
    · obtain ⟨v, hv⟩ := P.setPlace_eq t.unit f
      exact ⟨v, hr.trans hv⟩
  have hfrees : (∀ expiry token, e.reserve = some expiry → t.token = some token → reached p.run.clock expiry = true) → ∀ a, R.unitSlot a = p.unitSlot a :=
    fun hr a => by
      show (P.reserveToken t e).unitSlot a = _
      rw [P.reserveToken_frees hr]
      rfl
  have hreserves : ∀ expiry token, e.reserve = some expiry → t.token = some token → reached p.run.clock expiry = false → ∀ a,
      R.unitSlot a = if a = t.unit ∧ 1 ≤ t.unit ∧ t.unit ≤ 30 then
        { p.unitSlot t.unit with place := (p.unitAt t.unit).map (FieldUnit.reserve token t.tag expiry) } else p.unitSlot a :=
    fun expiry token he ht hr a => by
      show (P.reserveToken t e).unitSlot a = _
      rw [Part.reserveToken_reserves (p := P) he ht hr, Part.setPlace_slot]
      rfl
  have hS := R.reportEnding_reported h
  have hslot : ∀ a, (R.reportEnding t e).unitSlot a = R.unitSlot a := fun a => by rw [Part.unitSlot, hS.um]; rfl
  show p.TxnFinished ((R.reportEnding t e).noteFinish t.seq (e.outcome == .ok) true) t e
  generalize R.reportEnding t e = S at *
  generalize R = R' at *
  obtain ⟨v, rfl⟩ := hR
  exact ⟨hS.run, hS.line, hS.dir, hS.jw, hS.svc, show S.um.dismissWait = _ by rw [hS.um], hS.engine, fun hr a => (hslot a).trans (hfrees hr a),
    fun expiry token he ht hr a => (hslot a).trans (hreserves expiry token he ht hr a), congrArg (· ++ [_]) hS.pending, hS.others,
    fun hr => (hS.roomy hr.of_eq).of_eq, hS.later, hS.shows⟩


/-! ## What an ABORT ends (R102, R103, R160) -/

theorem State.holderOf_lt {s : State} (hbelow : s.SequencesBelow) {tag : Half} {m : Nat} (h : s.part.holderOf tag = some m) : m < s.part.board.nextSeq :=
  hbelow m (Part.holderOf_names h)

/-- Within its take an ABORT acts on what its target tag finds. -/
theorem State.doAbort_handed {s : State} {n m : Nat} {slot : List Byte} (h : s.part.holderOf (Req.targetTag (slot.take 64)) = some m) :
    (s.handed n slot .abort none).handOver .abort s.part.board.nextSeq n (slot.take 64) none =
      (s.handed n slot .abort none).abortItem s.part.board.nextSeq ((s.handed n slot .abort none).abortTarget m) := by
  refine Part.doAbort_found ?_ _
  rw [State.holderOf_handed, h]
  rfl

/-- R85 step 6, R100: nobody waits for the item `m` that an ABORT has ended, and nobody can wait for the ABORT. -/
theorem State.unwaited_aborted {s : State} {n m : Nat} {slot : List Byte} {k : ReqKind} {X : Part} {b x : Bool} {res : Result} (hbelow : s.SequencesBelow)
    (hw : ¬ s.part.Waits m) (hX : ∀ j, X.Waits j → (s.handed n slot k none).Waits j) (hf : ∀ f ∈ X.board.finishes, f = ⟨m, b, x⟩)
    (hx : x = false ∨ ∀ y ∈ X.te.syncs, m ∉ y.waitingFor) : (X.completeRequest s.part.board.nextSeq res).Unwaited := by
  have hcalm := X.completeRequest_calm s.part.board.nextSeq res
  have hte := (X.completeRequest_owners s.part.board.nextSeq res).2.1
  have hnone : ∀ j, ¬ s.part.Waits j → ¬ (X.completeRequest s.part.board.nextSeq res).Waits j := fun j hj h =>
    hj (State.handed_waits (hX j (hcalm.waits j h)))
  intro f hfin
  rcases Part.completeRequest_finishes hfin with h | h
  · rw [hf f h]
    exact ⟨hnone m hw, hx.imp id fun h => by rw [hte]; exact h⟩
  · rw [h]
    exact ⟨hnone _ (Part.Below.ne hbelow).2.2.1, .inl rfl⟩

theorem Part.completeRequest_with (m : Nat) (r : Result) (p : Part) (b : BoardController) (w : WindowPort) :
    ({ p.completeRequest m r with board := b, port := w } : Part) = { p with board := b, port := w } := by
  refine ((p.completeRequest_releases m r).with_eq b w).trans ?_
  rw [(p.completeRequest_owners m r).2.1]

theorem State.EndsTake.quiet_part {s t : State} {k : ReqKind} {n : Nat} {slot : List Byte} {res : Result} {X : Part} (h : s.EndsTake t k n slot res X)
    (hte : t.part.te = X.te) : t.part = { X with board := t.part.board, port := t.part.port } :=
  h.part.trans (by rw [hte])

/-- The row of an ABORT that ends a request other than a transaction: `G` is what the end makes of the blocks. -/
theorem State.takeRow_ends {s : State} {n m : Nat} {slot : List Byte} {G : Part} {r res : Result} (hT : s.TakesSlot n slot .abort) (hA : s.Accepts slot)
    (hN : s.NoPredecessor (slot.take 64)) (hm : m < s.part.board.nextSeq) (hw : ¬ s.part.Waits m)
    (hX : (s.handed n slot .abort none).handOver .abort s.part.board.nextSeq n (slot.take 64) none =
      (G.completeRequest m r).completeRequest s.part.board.nextSeq res)
    (hG : G = { s.handed n slot .abort none with te := G.te, um := G.um }) (hworks : (s.handed n slot .abort none).Works G)
    (hwaits : ∀ j, G.Waits j → (s.handed n slot .abort none).Waits j) :
    ∃ t : State, exec (.abort slot) s = .next t ∧ t.pending = s.pending ∧ t.mem = s.mem ∧
      t.part = { s.part with te := G.te, um := G.um, board := t.part.board, port := t.part.port } ∧
      t.part.board.held = s.part.board.held.filter (fun x => x.seq != m) ∧
      s.Completes t m r ∧ s.CompletesSlot t (s.takeCompletion n slot res) := by
  obtain ⟨_, hf, hbelow, _⟩ := id hT
  have hof : G.heldOf s.part.board.nextSeq = some (s.recordInTake n slot .abort none) := by
    rw [hG]; exact State.heldOf_handed_self hbelow n slot .abort none
  have hroomy : G.Roomy := by
    rw [hG]; exact (s.handed_roomy n slot .abort none).of_eq
  have hfinG : G.board.finishes = [] := by rw [hG]; exact hf
  have hrunG : G.run = s.part.run := by rw [hG]; rfl
  have hlaterG : G.port.later = [] := by rw [hG]; rfl
  have hXG := G.completeRequest_releases m r
  have hXcalm := G.completeRequest_calm m r
  have hXfin : ∀ f ∈ (G.completeRequest m r).board.finishes, f = ⟨m, r.outcome.success, false⟩ := fun f h =>
    (Part.completeRequest_finishes h).resolve_left fun e => by rw [hfinG] at e; exact absurd e List.not_mem_nil
  have hunwaited := State.unwaited_aborted (n := n) (slot := slot) (k := .abort) (res := res) hbelow hw (fun j h => hwaits j (hXcalm.waits j h)) hXfin (.inl rfl)
  have hXte := (G.completeRequest_owners m r).2.1
  have hXheld : (G.completeRequest m r).board.held = G.board.held.filter fun x => x.seq != m := by
    cases e : G.heldOf m with
    | none =>
      rw [Part.completeRequest_none e, List.filter_eq_self.mpr fun x hx => ?_]
      simpa using List.find?_eq_none.mp e x hx
    | some h => rw [(Part.completeRequest_board r e).1]
  have hXshows : ∀ h, G.heldOf m = some h → G.Shows (G.completeRequest m r) (h.completion r G.run.clock) := fun h e => Part.completeRequest_shows e
  have hown : (G.completeRequest m r).heldOf s.part.board.nextSeq = some (s.recordInTake n slot .abort none) :=
    (Part.heldOf_completeRequest hm.ne' _ _).trans hof
  obtain ⟨t, ht, h, hquiet⟩ := State.takeRow_completing hT hA hN hX (hXG.run.trans hrunG) (hworks.trans (G.completeRequest_serves m r).toWorks) hown
    (hXG.roomy hroomy) (hXG.later.trans hlaterG) (.inl hunwaited)
  obtain ⟨hte, hheld⟩ := hquiet hunwaited
  refine ⟨t, ht, h.pending, h.mem, ?part, ?held, fun x hx => ?shows, h.completes⟩
  case part =>
    refine (h.quiet_part hte).trans ((Part.completeRequest_with m r G _ _).trans ?_)
    conv_lhs => rw [hG]
    rfl
  case held =>
    rw [hheld, hXheld, hG]
    show ((s.part.board.held ++ [s.recordInTake n slot .abort none]).filter _).filter _ = _
    rw [List.filter_comm, List.filter_ne_seq (Part.Below.ne hbelow).1 rfl]
  case shows =>
    have hx' : G.heldOf m = some x := by rw [hG]; exact State.heldOf_handed n slot .abort none hx
    have hc := hXshows x hx'
    rw [hrunG] at hc
    exact h.shows _ (hc.before hworks)

end Sys2Proof.Machine
end

section
/-! SUPPORT. The ABORT that ends what it finds, kind by kind (R102, R103, R144, R160). -/

namespace Sys2Proof.Machine

/-! ## What an ABORT's tag finds -/

theorem Part.find_sync_none {p : Part} {m : Nat} (h : ∀ y ∈ p.te.syncs, y.seq ≠ m) : p.te.syncs.find? (fun y => y.seq == m) = none :=
  List.find?_eq_none.mpr fun y hy e => h y hy (beq_iff_eq.mp e)

theorem Part.abortTarget_sync {p : Part} {m : Nat} {y : SyncRecord} (ht : p.findTxn m = none) (hy : p.te.syncs.find? (fun y => y.seq == m) = some y) :
    p.abortTarget m = .sync y := by
  simp only [Part.abortTarget, ht, hy]

section
variable {p : Part} {m : Nat} {h : HeldRequest} (ht : p.findTxn m = none) (hy : ∀ y ∈ p.te.syncs, y.seq ≠ m) (hof : p.heldOf m = some h)
include ht hy hof

theorem Part.abortTarget_held (ho : h.owner = .boardController) : p.abortTarget m = .held m := by
  simp only [Part.abortTarget, ht, Part.find_sync_none hy, hof, ho, if_true]

theorem Part.abortTarget_lend (ho : h.owner ≠ .boardController) (hk : Req.kind h.req ≠ some .abort) (hg : ∃ g ∈ p.jw.pages, g.seq = m) :
    p.abortTarget m = .lend m := by
  have hany : (p.jw.pages.any fun g => g.seq == m) = true := by simpa using hg
  simp only [Part.abortTarget, ht, Part.find_sync_none hy, hof, ho, hk, hany, if_true, if_false]

theorem Part.abortTarget_dismiss {d : WaitingDismiss} (ho : h.owner ≠ .boardController) (hk : Req.kind h.req ≠ some .abort)
    (hg : ∀ g ∈ p.jw.pages, g.seq ≠ m) (hd : p.um.dismissWait = some d) (hm : d.seq = m) : p.abortTarget m = .dismiss d := by
  have hany : (p.jw.pages.any fun g => g.seq == m) = false := by simpa using hg
  simp only [Part.abortTarget, ht, Part.find_sync_none hy, hof, ho, hk, hany, hd, hm, if_true, if_false, Bool.false_eq_true]
end

/-! ## A transaction that is not being sent -/

/-- R102: how an ABORT ends a transaction that is not being sent: the token of a DEFERRED one is reserved until its defer expiry. -/
def Transaction.abortEnding (x : Transaction) : Ending :=
  { outcome := .aborted, byAbort := true, reserve := if x.state = .deferred then x.deferExpiry else none }

theorem Part.abortItem_txn {x : Transaction} (hx : x.state ≠ .sending) (seq : Nat) (p : Part) :
    p.abortItem seq (.txn x) = (p.finishTxn x x.abortEnding).completeRequest seq { outcome := .ok, fields := [1, 1, 7] } := by
  unfold Part.abortItem Transaction.abortEnding
  dsimp only
  cases h : x.state with
  | pending => rfl
  | deferred => rfl
  | sending => exact absurd h hx

/-- R102: the row of an ABORT that ends a transaction. -/
theorem abort_ends_transaction {s : State} {n m : Nat} {slot : List Byte} (hT : s.TakesSlot n slot .abort) (hA : s.Accepts slot)
    (hN : s.NoPredecessor (slot.take 64)) (hw : ¬ s.part.Waits m) (hm : s.part.holderOf (Req.targetTag (slot.take 64)) = some m) {x : Transaction}
    (hx : s.part.findTxn m = some x) (hstate : x.state ≠ .sending) (hsyncs : (∀ y ∈ s.part.te.syncs, m ∉ y.waitingFor) ∨ s.NoneWaits) :
    ∃ t : State, exec (.abort slot) s = .next t ∧ t.pending = s.pending ∧ t.mem = s.mem ∧ t.part.run = s.part.run ∧
      t.part.line = s.part.line ∧ t.part.dir = s.part.dir ∧ t.part.jw = s.part.jw ∧ s.OtherUnits t x.unit ∧ s.LogsNothing t ∧
      t.part.te.pool = s.part.te.pool.filter (fun y => y.seq != m) ∧ t.part.te.aborts = s.part.te.aborts ∧
      ((∀ y ∈ s.part.te.syncs, m ∉ y.waitingFor) → t.part.te.syncs = s.part.te.syncs) ∧
      (∀ (u : FieldUnit) (k : Nat) (d : Word), 1 ≤ x.unit ∧ x.unit ≤ 30 → x.state = .deferred → s.part.unitAt x.unit = some u → x.token = some k →
        x.deferExpiry = some d →
        t.part.unitAt x.unit = some (if reached s.part.run.clock d = true then u
          else { u with reservations := u.reservations ++ [{ token := k, tag := x.tag, expiry := d }] })) ∧
      (x.state = .pending → t.part.unitAt x.unit = s.part.unitAt x.unit) ∧
      (t.part.unitSlot x.unit).version = (s.part.unitSlot x.unit).version ∧
      (x.origin.isSome = true → s.Completes t m (x.result { outcome := .aborted })) ∧
      s.CompletesSlot t (s.takeCompletion n slot { outcome := .ok, fields := [1, 1, 7] }) := by
  obtain ⟨_, hf, hbelow, _⟩ := id hT
  have hseq : x.seq = m := Part.findTxn_seq hx
  have hlt := State.holderOf_lt hbelow hm
  let H : Part := s.handed n slot .abort none
  have hX : H.handOver .abort s.part.board.nextSeq n (slot.take 64) none =
      (H.finishTxn x x.abortEnding).completeRequest s.part.board.nextSeq { outcome := .ok, fields := [1, 1, 7] } := by
    rw [State.doAbort_handed hm, Part.abortTarget_txn (p := H) hx, Part.abortItem_txn hstate]
  have hfin := Part.finishTxn_finished (t := x) (e := x.abortEnding) (.inr (.inr rfl)) H
  have hworks := (H.finishTxn_serves x x.abortEnding).toWorks
  have hcalm := H.finishTxn_calm x x.abortEnding ⟨x, List.mem_of_find?_eq_some hx, rfl⟩
  generalize H.finishTxn x x.abortEnding = X at hX hfin hworks hcalm
  have hown : X.heldOf s.part.board.nextSeq = some (s.recordInTake n slot .abort none) :=
    (hfin.held _ (hseq ▸ hlt.ne')).trans (State.heldOf_handed_self hbelow n slot .abort none)
  have hXfin : ∀ f ∈ X.board.finishes, f = ⟨m, x.abortEnding.outcome == .ok, true⟩ := fun f h => by
    rw [hfin.finishes, show H.board.finishes = [] from hf, hseq] at h
    exact List.mem_singleton.mp h
  have hcounted : (∀ y ∈ s.part.te.syncs, m ∉ y.waitingFor) → (X.completeRequest s.part.board.nextSeq { outcome := .ok, fields := [1, 1, 7] }).Unwaited :=
    fun h => State.unwaited_aborted hbelow hw hcalm.waits hXfin (.inr (by rw [hfin.te]; exact h))
  obtain ⟨t, ht, hend, hquiet⟩ := State.takeRow_completing hT hA hN hX hfin.run hworks hown (hfin.roomy (s.handed_roomy _ _ _ _)) hfin.later
    (hsyncs.imp hcounted fun h j hj => h j (State.handed_waits (hcalm.waits j hj)))
  have hpart := hend.part
  have hslot : ∀ a, t.part.unitSlot a = X.unitSlot a := fun a => by rw [hpart]; rfl
  have hcases : (∀ a, X.unitSlot a = s.part.unitSlot a) ∨ ∃ f : FieldUnit → FieldUnit, ∀ a, X.unitSlot a = if a = x.unit ∧ 1 ≤ x.unit ∧ x.unit ≤ 30 then
      { s.part.unitSlot x.unit with place := (s.part.unitAt x.unit).map f } else s.part.unitSlot a := by
    by_cases h : ∀ expiry token, x.abortEnding.reserve = some expiry → x.token = some token → reached H.run.clock expiry = true
    · exact .inl (hfin.frees h)
    · push Not at h
      obtain ⟨expiry, token, he, htoken, hr⟩ := h
      exact .inr ⟨_, hfin.reserves expiry token he htoken (Bool.eq_false_iff.mpr hr)⟩
  refine ⟨t, ht, hend.pending, hend.mem, by rw [hpart]; exact hfin.run, by rw [hpart]; exact hfin.line, by rw [hpart]; exact hfin.dir,
    by rw [hpart]; exact hfin.jw, fun a ha => ?others, ⟨by rw [hpart]; exact congrArg ServiceUnit.nextFault hfin.svc,
    by rw [hpart]; exact congrArg ServiceUnit.ringIndex hfin.svc⟩, ?pool, ?aborts, fun h => ?syncs, fun u k d hrange hdeferred hu htoken hd => ?reserved,
    fun hpending => ?kept, ?version, fun horigin y hy => ?shows, hend.completes⟩
  case others =>
    rw [hslot]
    rcases hcases with h | ⟨f, h⟩
    · exact h a
    · rw [h, if_neg fun e => ha e.1]
  case pool => rw [hpart]; show X.te.pool = _; rw [hfin.te, hseq]; rfl
  case aborts => rw [hpart]; show X.te.aborts = _; rw [hfin.te]; rfl
  case syncs => rw [(hquiet (hcounted h)).1, hfin.te]; rfl
  case reserved =>
    have hreserve : x.abortEnding.reserve = some d := by rw [Transaction.abortEnding, if_pos hdeferred]; exact hd
    rw [Part.unitAt, hslot]
    by_cases hr : reached s.part.run.clock d = true
    · rw [hfin.frees fun expiry token he htok => by rw [hreserve] at he; exact Option.some.inj he ▸ hr, if_pos hr]
      exact hu
    · rw [hfin.reserves d k hreserve htoken (Bool.eq_false_iff.mpr hr), if_pos ⟨rfl, hrange⟩, if_neg hr]
      show (s.part.unitAt x.unit).map _ = _
      rw [hu]
      rfl
  case kept =>
    have hreserve : x.abortEnding.reserve = none := if_neg (by rw [hpending]; simp)
    rw [Part.unitAt, hslot, hfin.frees fun expiry token he => by rw [hreserve] at he; exact absurd he (by simp)]
    rfl
  case version =>
    rw [hslot]
    rcases hcases with h | ⟨f, h⟩
    · rw [h]
    · rw [h]; split <;> rfl
  case shows => exact hend.shows _ (hfin.shows horigin y (by rw [hseq]; exact State.heldOf_handed n slot .abort none hy))

/-! ## A page (R160) -/

theorem Part.withdrawPage_open {p : Part} {g : Page} {rest : List Page} {o : OpenPage} (hp : p.jw.pages = g :: rest) (ho : p.jw.opened = some o) (m : Nat) :
    p.withdrawPage m = if g.seq = m then p.completePage .aborted
      else { p with jw := { p.jw with pages := g :: rest.map fun x => if x.seq = m then { x with withdrawn := true } else x } } := by
  unfold Part.withdrawPage
  rw [hp, ho]

/-- R160: an ABORT withdraws a page that is not open. -/
theorem abort_withdraws_page {s : State} {n : Nat} {slot : List Byte} {j : JournalWriter} (hT : s.TakesSlot n slot .abort) (hA : s.Accepts slot)
    (hN : s.NoPredecessor (slot.take 64)) (hwaits : s.NoneWaits)
    (hX : (s.handed n slot .abort none).handOver .abort s.part.board.nextSeq n (slot.take 64) none =
      Part.completeRequest s.part.board.nextSeq { outcome := .ok, fields := [1, 4, 7] } { s.handed n slot .abort none with jw := j }) :
    ∃ t : State, exec (.abort slot) s = .next t ∧ t.pending = s.pending ∧ t.mem = s.mem ∧
      t.part = { s.part with jw := t.part.jw, board := t.part.board, port := t.part.port } ∧
      s.CompletesSlot t (s.takeCompletion n slot { outcome := .ok, fields := [1, 4, 7] }) ∧ t.part.jw = j ∧ t.part.board.held = s.part.board.held := by
  obtain ⟨_, hf, hbelow, _⟩ := id hT
  let G : Part := { s.handed n slot .abort none with jw := j }
  have hnone : ∀ i, ¬ G.Waits i := fun i h => hwaits i (State.handed_waits (n := n) (slot := slot) (k := .abort) h)
  have hunwaited : (G.completeRequest s.part.board.nextSeq { outcome := .ok, fields := [1, 4, 7] }).Unwaited := by
    refine .of_requests (fun i hi => hnone i ((G.completeRequest_calm _ _).waits i hi)) fun f hfin => ?_
    rcases Part.completeRequest_finishes hfin with h | h
    · rw [show G.board.finishes = [] from hf] at h; exact absurd h List.not_mem_nil
    · rw [h]
  obtain ⟨t, ht, h, hquiet⟩ := State.takeRow_completing (X := G) hT hA hN hX rfl
    ⟨.refl _, List.prefix_refl _, List.prefix_refl _, rfl, rfl, rfl, fun _ => .inl, .of_eq rfl⟩ (State.heldOf_handed_self hbelow n slot .abort none)
    ((s.handed_roomy n slot .abort none).of_eq) rfl (.inl hunwaited)
  obtain ⟨hte, hheld⟩ := hquiet hunwaited
  have hpart := h.quiet_part hte
  have hjw : t.part.jw = j := by rw [hpart]
  refine ⟨t, ht, h.pending, h.mem, by rw [hjw]; exact hpart, h.completes, hjw, hheld.trans ?_⟩
  exact List.filter_ne_seq (Part.Below.ne hbelow).1 rfl

/-- Settles O38. -/
theorem abortEndsAWaitingTransaction : Obligations.AbortEndsAWaitingTransaction := by
  intro s n m slot hT hA hN hw hm
  have hlt := State.holderOf_lt hT.2.2.1 hm
  have hdo := State.doAbort_handed (n := n) hm
  refine ⟨fun x hx hstate hsyncs => abort_ends_transaction hT hA hN hw hm hx hstate hsyncs, fun y ht hy => ?sync,
    fun h ht hy hof => ⟨fun ho => ?held, fun d ho hk hg hd hdm => ?dismiss, fun g rest o ho hk hp hopen hpage hwaits hD => ?page⟩⟩
  case sync =>
    have hseq : y.seq = m := by simpa using List.find?_some hy
    rw [Part.abortTarget_sync (p := s.handed n slot .abort none) ht hy] at hdo
    have hends := State.takeRow_ends (G := { s.handed n slot .abort none with te := { s.part.te with syncs := s.part.te.syncs.filter fun z => z.seq != m } })
      (r := { outcome := .aborted, fields := y.fields }) (res := { outcome := .ok, fields := [1, 2, 7] }) hT hA hN hlt hw (by rw [hdo, ← hseq]; rfl) rfl
      ⟨.refl _, List.prefix_refl _, List.prefix_refl _, rfl, rfl, rfl, fun z hz => .inl (List.mem_of_mem_filter hz), .of_eq rfl⟩
      (fun j hj => hj.imp id (Or.imp id fun ⟨z, hz, hp⟩ => ⟨z, List.mem_of_mem_filter hz, hp⟩))
    obtain ⟨t, hexec, hpending, hmem, hpart, _, hcompletes, hslot⟩ := hends
    exact ⟨t, hexec, hpending, hmem, hpart, hcompletes, hslot⟩
  case held =>
    rw [Part.abortTarget_held (p := s.handed n slot .abort none) ht hy (State.heldOf_handed n slot .abort none hof) ho] at hdo
    exact State.takeRow_ends (G := s.handed n slot .abort none) hT hA hN hlt hw hdo rfl (.refl _) fun _ => id
  case dismiss =>
    rw [Part.abortTarget_dismiss (p := s.handed n slot .abort none) ht hy (State.heldOf_handed n slot .abort none hof) ho hk hg hd hdm] at hdo
    have hends := State.takeRow_ends (G := { s.handed n slot .abort none with um := { s.part.um with dismissWait := none } })
      (r := { outcome := .aborted, fields := [byteOf d.retired, byteOf d.ended] }) (res := { outcome := .ok, fields := [1, 3, 7] }) hT hA hN hlt hw
      (by rw [hdo, ← hdm]; rfl) rfl ⟨.refl _, List.prefix_refl _, List.prefix_refl _, rfl, rfl, rfl, fun _ => .inl, .of_eq rfl⟩ fun _ => id
    obtain ⟨t, hexec, hpending, hmem, hpart, _, hcompletes, hslot⟩ := hends
    exact ⟨t, hexec, hpending, hmem, hpart, hcompletes, hslot⟩
  case page =>
    rw [Part.abortTarget_lend (p := s.handed n slot .abort none) ht hy (State.heldOf_handed n slot .abort none hof) ho hk (by rw [← hp] at hpage; exact hpage)]
      at hdo
    have hwithdraw := Part.withdrawPage_open (p := s.handed n slot .abort none) hp hopen m
    by_cases hg : g.seq = m
    · rw [if_pos hg] at hwithdraw
      obtain ⟨t, hexec, hpending, hmem, hpart, hpasses, hhead, hcompletes, hslot⟩ :=
        State.takeRow_completesPage (res := { outcome := .ok, fields := [1, 4, 7] }) hT hA hN hp hopen hwaits hD (by
          rw [hdo, Part.abortItem, hwithdraw, Part.finishRequest_eq (State.handed_completePage hT hp hopen hwaits hD .aborted).roomy.1]
          rfl)
      exact ⟨t, hexec, hpending, hmem, hpart, hslot, fun _ => ⟨hpasses, hhead, hg ▸ hcompletes⟩, fun hne => absurd hg hne⟩
    · rw [if_neg hg] at hwithdraw
      obtain ⟨t, hexec, hpending, hmem, hpart, hslot, hjw, hheld⟩ := abort_withdraws_page hT hA hN hwaits (by
        rw [hdo, Part.abortItem, hwithdraw, Part.finishRequest_eq rfl]
        rfl)
      exact ⟨t, hexec, hpending, hmem, hpart, hslot, fun e => absurd e hg, fun _ => ⟨hjw, hheld⟩⟩

end Sys2Proof.Machine
end

section
/-! SUPPORT. The arbiter and the events of the drop line that raise nothing (R59, R64, R68, R76 to R80). -/

namespace Sys2Proof.Machine

/-! ## A unit's place written: what stays -/

theorem Part.setPlace_um (a : Nat) (f : FieldUnit → FieldUnit) (p : Part) : p.setPlace a f = { p with um := (p.setPlace a f).um } := by
  obtain ⟨v, hv⟩ := p.setPlace_eq a f
  rw [hv]

theorem Part.setPlace_dismissWait (a : Nat) (f : FieldUnit → FieldUnit) (p : Part) : (p.setPlace a f).um.dismissWait = p.um.dismissWait := by
  obtain ⟨v, hv⟩ := p.setPlace_eq a f
  rw [hv]

theorem Part.setPlace_other {a b : Nat} (hb : b ≠ a) (f : FieldUnit → FieldUnit) (p : Part) : (p.setPlace a f).unitSlot b = p.unitSlot b := by
  rw [p.setPlace_slot a f b, if_neg (fun h => hb h.1)]

theorem Part.setPlace_self {a : Nat} {u : FieldUnit} {p : Part} (ha : 1 ≤ a ∧ a ≤ 30) (hu : p.unitAt a = some u) (f : FieldUnit → FieldUnit) :
    (p.setPlace a f).unitSlot a = { p.unitSlot a with place := some (f u) } := by
  rw [p.setPlace_slot a f a, if_pos ⟨rfl, ha⟩, hu]
  rfl

theorem Part.unitSlot_place {a : Nat} {u : FieldUnit} {p : Part} (hu : p.unitAt a = some u) :
    p.unitSlot a = { p.unitSlot a with place := some u } := by
  rw [← hu]
  rfl

/-! ## Due times and the head frame (R64, R68, R76, R77) -/

/-- R76: the poll due time of a unit is noted once it is reached. -/
def FieldUnit.notePoll (now : Word) (u : FieldUnit) : FieldUnit := { u with pollReady := u.pollReady || (u.pollDue.any fun d => reached now d) }

/-- R77: the roll-call due time of a unit is noted once it is reached. -/
def FieldUnit.noteRoll (now : Word) (u : FieldUnit) : FieldUnit := { u with rollReady := u.rollReady || (u.rollDue.any fun d => reached now d) }

/-- R94: the pending acknowledgement is retired. -/
def FieldUnit.retireAck (u : FieldUnit) : FieldUnit := { u with pendingAck := none }

theorem unitBitChange_shown {u v : FieldUnit} (hlink : v.link = u.link) (hgate : v.gate = u.gate) (hfactors : v.factors = u.factors)
    (hgen : v.generation = u.generation) (hun : v.unadmitted = u.unadmitted) : unitBitChange (some u) (some v) = false := by
  simp [unitBitChange, hlink, hgate, hfactors, hgen, hun]

theorem State.working_of {s : State} (h : s.Working) : s.part.working = true := by
  unfold Part.working
  rcases h with e | e <;> rw [e] <;> rfl

theorem exec_pollDue {s : State} (h : s.Working) (a : Nat) :
    exec (.pollDue a) s = .next (s.onPart (Part.setPlace a (FieldUnit.notePoll s.part.run.clock))) := by
  have hnote : s.part.updateUnit a (FieldUnit.notePoll s.part.run.clock) = s.part.setPlace a (FieldUnit.notePoll s.part.run.clock) :=
    Part.updateUnit_silent (f := FieldUnit.notePoll s.part.run.clock) (fun _ => rfl) (fun _ => unitBitChange_shown rfl rfl rfl rfl rfl) _
  show Host.Outcome.next _ = _
  unfold State.onPart
  dsimp only
  rw [if_pos (State.working_of h), ← hnote]
  rfl

theorem exec_rollCallDue {s : State} (h : s.Working) (a : Nat) :
    exec (.rollCallDue a) s = .next (s.onPart (Part.setPlace a (FieldUnit.noteRoll s.part.run.clock))) := by
  have hnote : s.part.updateUnit a (FieldUnit.noteRoll s.part.run.clock) = s.part.setPlace a (FieldUnit.noteRoll s.part.run.clock) :=
    Part.updateUnit_silent (f := FieldUnit.noteRoll s.part.run.clock) (fun _ => rfl) (fun _ => unitBitChange_shown rfl rfl rfl rfl rfl) _
  show Host.Outcome.next _ = _
  unfold State.onPart
  dsimp only
  rw [if_pos (State.working_of h), ← hnote]
  rfl

/-- R64, R68: the state after a head frame has been sent. -/
def Part.sent (x : Turn) (p : Part) : Part :=
  if x.kind = .poll then (p.setTurn { x with phase := .window p.run.clock }).setPlace x.unit FieldUnit.retireAck
  else p.setTurn { x with phase := .window p.run.clock }

theorem exec_headFrameSent {s : State} {x : Turn} (hturn : s.part.line.turn = some x) (hphase : x.phase = .sending) :
    exec .headFrameSent s = .next (s.onPart (Part.sent x)) := by
  have hretire : ∀ p : Part, p.updateUnit x.unit FieldUnit.retireAck = p.setPlace x.unit FieldUnit.retireAck :=
    Part.updateUnit_silent (fun _ => rfl) (fun _ => unitBitChange_shown rfl rfl rfl rfl rfl)
  show Host.Outcome.next (s.onPart _) = _
  unfold State.onPart
  dsimp only
  rw [hturn]
  dsimp only
  rw [if_pos hphase]
  unfold Part.frameSent Part.sent
  rw [← hretire]
  rfl

theorem Part.sent_um (x : Turn) (p : Part) :
    p.sent x = { p with um := (p.sent x).um, line := { p.line with turn := some { x with phase := .window p.run.clock } } } := by
  unfold Part.sent
  split
  · exact Part.setPlace_um _ _ _
  · rfl

theorem Part.sent_dismissWait (x : Turn) (p : Part) : (p.sent x).um.dismissWait = p.um.dismissWait := by
  unfold Part.sent
  split
  · exact Part.setPlace_dismissWait _ _ _
  · rfl

theorem Part.sent_other {b : Nat} {x : Turn} (hb : b ≠ x.unit) (p : Part) : (p.sent x).unitSlot b = p.unitSlot b := by
  unfold Part.sent
  split
  · exact Part.setPlace_other hb _ _
  · rfl

theorem Part.sent_self {x : Turn} {u : FieldUnit} {p : Part} (ha : 1 ≤ x.unit ∧ x.unit ≤ 30) (hu : p.unitAt x.unit = some u) :
    (p.sent x).unitSlot x.unit = { p.unitSlot x.unit with place := some (if x.kind = .poll then { u with pendingAck := none } else u) } := by
  unfold Part.sent
  by_cases hk : x.kind = .poll
  · rw [if_pos hk, if_pos hk]
    exact Part.setPlace_self (p := p.setTurn { x with phase := .window p.run.clock }) ha hu FieldUnit.retireAck
  · rw [if_neg hk, if_neg hk]
    exact Part.unitSlot_place hu

theorem exec_frameBegins {s : State} {x : Turn} (hturn : s.part.line.turn = some x) (hmay : x.mayBegin s.part.run.clock = true) :
    exec .frameBegins s = .next (s.onPart (Part.setTurn { x with phase := .header, frames := x.frames + 1 })) := by
  show Host.Outcome.next (s.onPart _) = _
  unfold State.onPart
  dsimp only
  rw [hturn]
  dsimp only
  rw [if_pos hmay]

/-! ## The arbiter (R78, R79) -/

/-- Class 1 of R78: an eligible head with URGENT. -/
def Part.UrgentAt (p : Part) (a : Nat) (x : Transaction) : Prop := 1 ≤ a ∧ a ≤ 30 ∧ p.eligibleHead a = some x ∧ x.urgent = true

/-- Class 3 of R78: an eligible head without URGENT. -/
def Part.CommandAt (p : Part) (a : Nat) (x : Transaction) : Prop := 1 ≤ a ∧ a ≤ 30 ∧ p.eligibleHead a = some x ∧ x.urgent = false

/-- Class 2 of R78: a poll overdue by `d`. -/
def Part.PollAt (p : Part) (a d : Nat) : Prop := 1 ≤ a ∧ a ≤ 30 ∧ ∃ u, p.unitAt a = some u ∧ u.pollOverdue p.run.clock = some d

/-- Class 4 of R78: a roll call overdue by `d`. -/
def Part.RollAt (p : Part) (a d : Nat) : Prop := 1 ≤ a ∧ a ≤ 30 ∧ ∃ u, p.unitAt a = some u ∧ u.rollOverdue p.run.clock = some d

theorem mem_unitAddresses {a : Nat} : a ∈ unitAddresses ↔ 1 ≤ a ∧ a ≤ 30 := by
  unfold unitAddresses
  rw [List.mem_map]
  constructor
  · rintro ⟨i, hi, rfl⟩
    have := List.mem_range.mp hi
    omega
  · intro h
    exact ⟨a - 1, List.mem_range.mpr (by omega), by omega⟩

/-- What the best of a list of addresses is: its score is reached first by it and bettered by none. -/
def BestIn (score : Nat → Option Nat) (rank : Nat → Int) (l : List Nat) : Option (Nat × Nat) → Prop
  | none => ∀ b ∈ l, score b = none
  | some (a, x) => a ∈ l ∧ score a = some x ∧ ∀ b ∈ l, ∀ y, score b = some y → rank x ≤ rank y ∧ (rank x = rank y → a ≤ b)

theorem bestOf_append (score : Nat → Option Nat) (better : Nat → Nat → Bool) (l : List Nat) (a : Nat) :
    bestOf score better (l ++ [a]) =
      match score a, bestOf score better l with
      | none, best => best
      | some x, none => some (a, x)
      | some x, some (b, y) => if better x y then some (a, x) else some (b, y) := by
  unfold bestOf
  rw [List.foldl_append, List.foldl_cons, List.foldl_nil]
  cases score a with
  | none => rfl
  | some x =>
    cases List.foldl _ none l with
    | none => rfl
    | some best => rfl

/-- R78: the fold over an ascending list finds the best, the lowest address of those with its score. -/
theorem bestOf_bestIn {better : Nat → Nat → Bool} {rank : Nat → Int} (hbetter : ∀ x y, better x y = decide (rank x < rank y))
    (score : Nat → Option Nat) (l : List Nat) (hl : l.Pairwise (· < ·)) : BestIn score rank l (bestOf score better l) := by
  induction l using List.reverseRecOn with
  | nil => exact fun b hb => absurd hb List.not_mem_nil
  | append_singleton l a ih =>
    obtain ⟨hbefore, -, hlast⟩ := List.pairwise_append.mp hl
    have hlt : ∀ b ∈ l, b < a := fun b hb => hlast b hb a List.mem_cons_self
    have ihl := ih hbefore
    rw [bestOf_append]
    cases hs : score a with
    | none =>
      cases hb : bestOf score better l with
      | none =>
        rw [hb] at ihl
        intro b hmem
        rcases List.mem_append.mp hmem with h | h
        · exact ihl b h
        · rw [List.mem_singleton.mp h, hs]
      | some best =>
        obtain ⟨c, y⟩ := best
        rw [hb] at ihl
        obtain ⟨hc, hy, hbest⟩ := ihl
        refine ⟨List.mem_append_left _ hc, hy, fun b hmem z hz => ?_⟩
        rcases List.mem_append.mp hmem with h | h
        · exact hbest b h z hz
        · rw [List.mem_singleton.mp h, hs] at hz
          exact absurd hz (by simp)
    | some x =>
      cases hb : bestOf score better l with
      | none =>
        rw [hb] at ihl
        refine ⟨List.mem_append_right _ List.mem_cons_self, hs, fun b hmem z hz => ?_⟩
        rcases List.mem_append.mp hmem with h | h
        · rw [ihl b h] at hz
          exact absurd hz (by simp)
        · rw [List.mem_singleton.mp h, hs] at hz
          rw [List.mem_singleton.mp h, Option.some.inj hz]
          exact ⟨le_rfl, fun _ => le_rfl⟩
      | some best =>
        obtain ⟨c, y⟩ := best
        rw [hb] at ihl
        obtain ⟨hc, hy, hbest⟩ := ihl
        dsimp only
        rw [hbetter]
        by_cases hxy : rank x < rank y
        · rw [decide_eq_true hxy, if_pos rfl]
          refine ⟨List.mem_append_right _ List.mem_cons_self, hs, fun b hmem z hz => ?_⟩
          rcases List.mem_append.mp hmem with h | h
          · have := (hbest b h z hz).1
            exact ⟨by omega, fun e => by omega⟩
          · rw [List.mem_singleton.mp h, hs] at hz
            rw [List.mem_singleton.mp h, Option.some.inj hz]
            exact ⟨le_rfl, fun _ => le_rfl⟩
        · rw [decide_eq_false hxy, if_neg (by simp)]
          refine ⟨List.mem_append_left _ hc, hy, fun b hmem z hz => ?_⟩
          rcases List.mem_append.mp hmem with h | h
          · exact hbest b h z hz
          · rw [List.mem_singleton.mp h, hs] at hz
            rw [List.mem_singleton.mp h, ← Option.some.inj hz]
            exact ⟨by omega, fun _ => (hlt c hc).le⟩

theorem unitAddresses_ascending : unitAddresses.Pairwise (· < ·) := by decide

/-- R78 class 1: the take sequence of an eligible head with URGENT. -/
def Part.urgentScore (p : Part) (a : Nat) : Option Nat :=
  match p.eligibleHead a with
  | some t => if t.urgent then some t.seq else none
  | none => none

theorem Part.urgentTurn_eq (p : Part) :
    p.urgentTurn = (bestOf p.urgentScore (fun x y => decide (x < y)) unitAddresses).map fun c => (c.1, .command c.2) := rfl

theorem Part.urgentScore_eq_some_iff {p : Part} {a n : Nat} : p.urgentScore a = some n ↔ ∃ x, p.eligibleHead a = some x ∧ x.urgent = true ∧ x.seq = n := by
  unfold Part.urgentScore
  cases p.eligibleHead a with
  | none => simp
  | some x => simp

/-- R78 class 1: what the urgent turn is. -/
theorem Part.urgentTurn_cases (p : Part) :
    (p.urgentTurn = none ∧ ∀ a x, ¬ p.UrgentAt a x) ∨
    ∃ a x, p.urgentTurn = some (a, .command x.seq) ∧ p.UrgentAt a x ∧ ∀ b y, p.UrgentAt b y → x.seq ≤ y.seq := by
  have hscore : ∀ a y, p.UrgentAt a y → p.urgentScore a = some y.seq :=
    fun a y ⟨_, _, hy, hu⟩ => Part.urgentScore_eq_some_iff.mpr ⟨y, hy, hu, rfl⟩
  have hbest := bestOf_bestIn (better := fun x y => decide (x < y)) (rank := fun x => (x : Int)) (fun x y => by simp) p.urgentScore unitAddresses
    unitAddresses_ascending
  rw [p.urgentTurn_eq]
  cases hb : bestOf p.urgentScore (fun x y => decide (x < y)) unitAddresses with
  | none =>
    rw [hb] at hbest
    refine .inl ⟨rfl, fun a y hy => ?_⟩
    have hnone := hbest a (mem_unitAddresses.mpr ⟨hy.1, hy.2.1⟩)
    rw [hscore a y hy] at hnone
    exact absurd hnone (by simp)
  | some best =>
    obtain ⟨a, n⟩ := best
    rw [hb] at hbest
    obtain ⟨ha, hn, hmin⟩ := hbest
    obtain ⟨x, hx, hu, hseq⟩ := Part.urgentScore_eq_some_iff.mp hn
    obtain ⟨ha1, ha2⟩ := mem_unitAddresses.mp ha
    refine .inr ⟨a, x, by rw [hseq]; rfl, ⟨ha1, ha2, hx, hu⟩, fun b y hy => ?_⟩
    have hle := (hmin b (mem_unitAddresses.mpr ⟨hy.1, hy.2.1⟩) y.seq (hscore b y hy)).1
    rw [hseq]
    exact Int.ofNat_le.mp hle

/-- R78 classes 2 and 4: the unit that is overdue most, the lowest address of those. -/
theorem bestOf_overdue {now : Word} {overdue : Word → FieldUnit → Option Nat} {p : Part} {At : Nat → Nat → Prop}
    (hAt : ∀ a d, At a d ↔ 1 ≤ a ∧ a ≤ 30 ∧ ∃ u, p.unitAt a = some u ∧ overdue now u = some d) :
    (bestOf (fun a => (p.unitAt a).bind (overdue now)) (fun x y => decide (y < x)) unitAddresses = none ∧ ∀ a d, ¬ At a d) ∨
    ∃ a d, bestOf (fun a => (p.unitAt a).bind (overdue now)) (fun x y => decide (y < x)) unitAddresses = some (a, d) ∧ At a d ∧
      ∀ b e, At b e → e ≤ d ∧ (e = d → a ≤ b) := by
  have hscore : ∀ a d, At a d → (p.unitAt a).bind (overdue now) = some d := by
    intro a d had
    obtain ⟨-, -, u, hu, hd⟩ := (hAt a d).mp had
    rw [hu]
    exact hd
  have hbest := bestOf_bestIn (better := fun x y => decide (y < x)) (rank := fun x => -(x : Int)) (fun x y => by simp)
    (fun a => (p.unitAt a).bind (overdue now)) unitAddresses unitAddresses_ascending
  cases hb : bestOf (fun a => (p.unitAt a).bind (overdue now)) (fun x y => decide (y < x)) unitAddresses with
  | none =>
    rw [hb] at hbest
    refine .inl ⟨rfl, fun a d had => ?_⟩
    obtain ⟨h1, h2, -⟩ := (hAt a d).mp had
    have hnone := hbest a (mem_unitAddresses.mpr ⟨h1, h2⟩)
    dsimp only at hnone
    rw [hscore a d had] at hnone
    exact absurd hnone (by simp)
  | some best =>
    obtain ⟨a, d⟩ := best
    rw [hb] at hbest
    obtain ⟨ha, hd, hmax⟩ := hbest
    obtain ⟨u, hu, hud⟩ := Option.bind_eq_some_iff.mp hd
    obtain ⟨ha1, ha2⟩ := mem_unitAddresses.mp ha
    refine .inr ⟨a, d, rfl, (hAt a d).mpr ⟨ha1, ha2, u, hu, hud⟩, fun b e hbe => ?_⟩
    obtain ⟨h1, h2, -⟩ := (hAt b e).mp hbe
    obtain ⟨hle, htie⟩ := hmax b (mem_unitAddresses.mpr ⟨h1, h2⟩) e (hscore b e hbe)
    exact ⟨Int.ofNat_le.mp (Int.neg_le_neg_iff.mp hle), fun he => htie (by rw [he])⟩

theorem Part.pollTurn_cases (p : Part) :
    (p.pollTurn = none ∧ ∀ a d, ¬ p.PollAt a d) ∨
    ∃ a d, p.pollTurn = some (a, .poll) ∧ p.PollAt a d ∧ ∀ b e, p.PollAt b e → e ≤ d ∧ (e = d → a ≤ b) := by
  unfold Part.pollTurn
  rcases bestOf_overdue (p := p) (overdue := FieldUnit.pollOverdue) (At := p.PollAt) (fun _ _ => Iff.rfl) with ⟨hb, hno⟩ | ⟨a, d, hb, had⟩
  · exact .inl ⟨by rw [hb]; rfl, hno⟩
  · exact .inr ⟨a, d, by rw [hb]; rfl, had⟩

theorem Part.rollTurn_cases (p : Part) :
    (p.rollTurn = none ∧ ∀ a d, ¬ p.RollAt a d) ∨
    ∃ a d, p.rollTurn = some (a, .rollCall) ∧ p.RollAt a d ∧ ∀ b e, p.RollAt b e → e ≤ d ∧ (e = d → a ≤ b) := by
  unfold Part.rollTurn
  rcases bestOf_overdue (p := p) (overdue := FieldUnit.rollOverdue) (At := p.RollAt) (fun _ _ => Iff.rfl) with ⟨hb, hno⟩ | ⟨a, d, hb, had⟩
  · exact .inl ⟨by rw [hb]; rfl, hno⟩
  · exact .inr ⟨a, d, by rw [hb]; rfl, had⟩

/-- R78 class 3: the turn of an eligible head without URGENT. -/
def Part.commandOffer (p : Part) (a : Nat) : Option (Nat × TurnKind) :=
  match p.eligibleHead a with
  | some t => if t.urgent then none else some (a, .command t.seq)
  | none => none

theorem Part.commandTurn_eq (p : Part) : p.commandTurn = (addressesAfter p.line.position).findSome? p.commandOffer := rfl

theorem Part.commandOffer_eq_some_iff {p : Part} {a : Nat} {c : Nat × TurnKind} :
    p.commandOffer a = some c ↔ ∃ x, p.eligibleHead a = some x ∧ x.urgent = false ∧ c = (a, .command x.seq) := by
  unfold Part.commandOffer
  cases p.eligibleHead a with
  | none => simp
  | some x =>
    dsimp only
    constructor
    · intro h
      split at h
      · exact absurd h (by simp)
      · next hu => exact ⟨x, rfl, Bool.eq_false_iff.mpr hu, (Option.some.inj h).symm⟩
    · rintro ⟨y, hy, hu, rfl⟩
      obtain rfl := Option.some.inj hy
      exact if_neg (by rw [hu]; simp)

theorem addressesAfter_getElem? (position : Nat) {j : Nat} (hj : j < 30) : (addressesAfter position)[j]? = some ((position + j) % 30 + 1) := by
  unfold addressesAfter
  rw [List.getElem?_map, List.getElem?_range hj]
  rfl

theorem mem_addressesAfter (position : Nat) {a : Nat} (ha : 1 ≤ a ∧ a ≤ 30) : a ∈ addressesAfter position :=
  List.mem_map.mpr ⟨(a + 29 + 30 - position % 30) % 30, List.mem_range.mpr (Nat.mod_lt _ (by omega)), by omega⟩

/-- R78 class 3: the first address of the round robin with an eligible head without URGENT. -/
theorem Part.commandTurn_cases (p : Part) :
    (p.commandTurn = none ∧ ∀ a x, ¬ p.CommandAt a x) ∨
    ∃ a x i, p.commandTurn = some (a, .command x.seq) ∧ p.CommandAt a x ∧ i < 30 ∧ a = (p.line.position + i) % 30 + 1 ∧
      ∀ j y, j < i → ¬ p.CommandAt ((p.line.position + j) % 30 + 1) y := by
  have hsome : ∀ a y, p.CommandAt a y → p.commandOffer a = some (a, .command y.seq) :=
    fun a y ⟨_, _, hy, hu⟩ => Part.commandOffer_eq_some_iff.mpr ⟨y, hy, hu, rfl⟩
  rw [p.commandTurn_eq]
  cases hf : (addressesAfter p.line.position).findSome? p.commandOffer with
  | none =>
    refine .inl ⟨rfl, fun a y hy => ?_⟩
    have hnone := List.findSome?_eq_none_iff.mp hf a (mem_addressesAfter _ ⟨hy.1, hy.2.1⟩)
    rw [hsome a y hy] at hnone
    exact absurd hnone (by simp)
  | some c =>
    obtain ⟨l₁, a, l₂, hsplit, hc, hbefore⟩ := List.findSome?_eq_some_iff.mp hf
    have hlen : l₁.length < 30 := by
      have := congrArg List.length hsplit
      simp [addressesAfter] at this
      omega
    have ha : a = (p.line.position + l₁.length) % 30 + 1 := by
      have := addressesAfter_getElem? p.line.position hlen
      rw [hsplit, List.getElem?_append_right le_rfl, Nat.sub_self] at this
      exact Option.some.inj this
    obtain ⟨x, hx, hu, hxc⟩ := Part.commandOffer_eq_some_iff.mp hc
    refine .inr ⟨a, x, l₁.length, by rw [hxc], ⟨by omega, by omega, hx, hu⟩, hlen, ha, fun j y hj hy => ?_⟩
    have hmem : (p.line.position + j) % 30 + 1 ∈ l₁ := by
      have := addressesAfter_getElem? p.line.position (show j < 30 by omega)
      rw [hsplit, List.getElem?_append_left hj] at this
      exact List.mem_of_getElem? this
    have hnone := hbefore _ hmem
    rw [hsome _ y hy] at hnone
    exact absurd hnone (by simp)

/-! ## Obligation -/

/-- Settles O42: a due time noted shows nowhere, so the unit's place is all that changes; each line event is read off its row. -/
theorem lineEventsAreNoted : Obligations.LineEventsAreNoted := by
  unfold Obligations.LineEventsAreNoted
  intro s
  refine ⟨fun a u hu ha hw => ⟨⟨_, exec_pollDue hw a, ?_, ?_, ?_, ?_, ?_⟩, _, exec_rollCallDue hw a, ?_, ?_, ?_, ?_, ?_⟩, fun x u hturn hphase hu ha =>
    ⟨_, exec_headFrameSent hturn hphase, ?_, fun b hb => Part.sent_other hb _, Part.sent_dismissWait _ _, ?_, fun bit => ?_, Part.sent_self ha hu⟩,
    fun x since hturn hsince => ?_, fun hidle => ?_⟩
  · exact congrArg (fun p => { s with part := p }) (Part.setPlace_um a (FieldUnit.notePoll s.part.run.clock) s.part)
  · exact fun b hb => Part.setPlace_other hb _ _
  · exact Part.setPlace_dismissWait _ _ _
  · intro d hd
    refine (Part.setPlace_self ha hu _).trans ?_
    unfold FieldUnit.notePoll
    rw [hd]
    rfl
  · intro hnone
    refine (Part.setPlace_self ha hu _).trans ?_
    have hsame : FieldUnit.notePoll s.part.run.clock u = u := by
      unfold FieldUnit.notePoll
      rw [hnone, Option.any_none, Bool.or_false]
      exact congrArg (fun d => { u with pollDue := d }) hnone.symm
    rw [hsame]
    exact (Part.unitSlot_place hu).symm
  · exact congrArg (fun p => { s with part := p }) (Part.setPlace_um a (FieldUnit.noteRoll s.part.run.clock) s.part)
  · exact fun b hb => Part.setPlace_other hb _ _
  · exact Part.setPlace_dismissWait _ _ _
  · intro d hd
    refine (Part.setPlace_self ha hu _).trans ?_
    unfold FieldUnit.noteRoll
    rw [hd]
    rfl
  · intro hnone
    refine (Part.setPlace_self ha hu _).trans ?_
    have hsame : FieldUnit.noteRoll s.part.run.clock u = u := by
      unfold FieldUnit.noteRoll
      rw [hnone, Option.any_none, Bool.or_false]
      exact congrArg (fun d => { u with rollDue := d }) hnone.symm
    rw [hsame]
    exact (Part.unitSlot_place hu).symm
  · exact congrArg (fun p => { s with part := p }) (Part.sent_um x s.part)
  · unfold State.ldir
    rw [show (s.onPart (Part.sent x)).part = s.part.sent x from rfl, Part.sent_um]
    rfl
  · unfold State.ltx
    rw [show (s.onPart (Part.sent x)).part = s.part.sent x from rfl, Part.sent_um]
    rfl
  · have hmay : x.mayBegin s.part.run.clock = true := by
      unfold Turn.mayBegin
      rcases hsince with ⟨hp, hle⟩ | ⟨hp, hle⟩
      · rw [hp]
        exact decide_eq_true hle
      · rw [hp]
        exact decide_eq_true hle
    exact exec_frameBegins hturn hmay
  · show Host.Outcome.next (s.onPart _) = _
    unfold State.onPart
    dsimp only
    have hcond : (s.part.line.turn.isNone || s.part.line.fault.isSome) = true := by
      rcases hidle with h | h
      · rw [h]
        rfl
      · rw [Option.isSome_iff_ne_none.mpr h, Bool.or_true]
    rw [if_pos hcond]

theorem Part.lineFree_iff {p : Part} :
    p.lineFree = true ↔ (p.run.partState = .running ∨ p.run.partState = .draining) ∧ p.run.drainEnded = false ∧ p.line.turn = none ∧
      p.line.choice = none ∧ p.line.fault = none := by
  simp [Part.lineFree, Part.working, and_assoc]

theorem exec_turnChoice_free {s : State} (h : s.part.lineFree = true) :
    exec .turnChoice s = .next (s.onPart fun p =>
      { p with line := { p.line with choice := p.arbitrate.map fun c => { unit := c.1.1, kind := c.1.2, cls := c.2, since := p.run.clock } } }) := by
  obtain ⟨-, -, -, hchoice, -⟩ := Part.lineFree_iff.mp h
  show Host.Outcome.next (s.onPart _) = _
  unfold State.onPart
  dsimp only
  rw [if_pos h]
  cases s.part.arbitrate with
  | none =>
    rw [Option.map_none, ← hchoice]
  | some c => rfl

/-- Settles O41: the classes in the order of the mark, each by the cases of its own turn. -/
theorem arbiterChoosesByClass : Obligations.ArbiterChoosesByClass := by
  unfold Obligations.ArbiterChoosesByClass
  intro s urgent command poll roll hurgent hcommand hpoll hroll
  obtain rfl : urgent = s.part.UrgentAt := funext fun a => funext fun x => propext (hurgent a x)
  obtain rfl : command = s.part.CommandAt := funext fun a => funext fun x => propext (hcommand a x)
  obtain rfl : poll = s.part.PollAt := funext fun a => funext fun x => propext (hpoll a x)
  obtain rfl : roll = s.part.RollAt := funext fun a => funext fun x => propext (hroll a x)
  refine ⟨Part.lineFree_iff, fun hbusy => ?_, fun hfree => ⟨_, exec_turnChoice_free hfree, ?_⟩⟩
  · show Host.Outcome.next (s.onPart _) = _
    unfold State.onPart
    dsimp only
    rw [if_neg (by rw [hbusy]; simp)]
  · unfold Part.arbitrate
    dsimp only
    rcases s.part.urgentTurn_cases with ⟨hu, hnu⟩ | ⟨a, x, hu, hax, hmin⟩
    · rw [hu]
      rcases s.part.commandTurn_cases with ⟨hc, hnc⟩ | ⟨b, y, i, hc, hby, hi, hbi, hfirst⟩
      · rcases s.part.pollTurn_cases with ⟨hp, hnp⟩ | ⟨a, d, hp, had, hmost⟩
        · rcases s.part.rollTurn_cases with ⟨hr, hnr⟩ | ⟨a, d, hr, had, hmost⟩
          · rw [hc, hp, hr]
            split
            all_goals exact ⟨⟨fun _ => ⟨hnu, hnc, hnp, hnr⟩, fun _ => rfl⟩, fun c h => absurd h (by simp)⟩
          · rw [hc, hp, hr]
            split
            all_goals
              refine ⟨⟨fun h => absurd h (by simp), fun h => absurd had (h.2.2.2 a d)⟩, fun c h => ?_⟩
              obtain rfl := Option.some.inj h
              exact ⟨rfl, .inr (.inr (.inr ⟨rfl, rfl, hnu, hnc, hnp, d, had, hmost⟩))⟩
        · rw [hc, hp]
          split
          all_goals
            refine ⟨⟨fun h => absurd h (by simp), fun h => absurd had (h.2.2.1 a d)⟩, fun c h => ?_⟩
            obtain rfl := Option.some.inj h
            exact ⟨rfl, .inr (.inl ⟨rfl, rfl, hnu, .inr hnc, d, had, hmost⟩)⟩
      · rcases s.part.pollTurn_cases with ⟨hp, hnp⟩ | ⟨a, d, hp, had, hmost⟩
        · rw [hc, hp]
          split
          all_goals
            refine ⟨⟨fun h => absurd h (by simp), fun h => absurd hby (h.2.1 b y)⟩, fun c h => ?_⟩
            obtain rfl := Option.some.inj h
            exact ⟨rfl, .inr (.inr (.inl ⟨rfl, hnu, .inr hnp, y, i, hby, rfl, hi, hbi, hfirst⟩))⟩
        · rw [hc, hp]
          split
          · next hmark =>
            refine ⟨⟨fun h => absurd h (by simp), fun h => absurd hby (h.2.1 b y)⟩, fun c h => ?_⟩
            obtain rfl := Option.some.inj h
            exact ⟨rfl, .inr (.inr (.inl ⟨rfl, hnu, .inl hmark, y, i, hby, rfl, hi, hbi, hfirst⟩))⟩
          · next hmark =>
            refine ⟨⟨fun h => absurd h (by simp), fun h => absurd had (h.2.2.1 a d)⟩, fun c h => ?_⟩
            obtain rfl := Option.some.inj h
            exact ⟨rfl, .inr (.inl ⟨rfl, rfl, hnu, .inl hmark, d, had, hmost⟩)⟩
    · rw [hu]
      refine ⟨⟨fun h => absurd h (by simp), fun h => absurd hax (h.1 a x)⟩, fun c hc => ?_⟩
      obtain rfl := Option.some.inj hc
      exact ⟨rfl, .inl ⟨rfl, x, hax, rfl, hmin⟩⟩

end Sys2Proof.Machine
end

section
/-! SUPPORT. Eligibility, tokens and standing choices (R80, R86, R88); the judgement of gate and health (R29 to R32, R47 to R50). -/

namespace Sys2Proof.Machine

/-! ## Eligibility (R83, R86, R88) -/

theorem Part.queueHead_eq (a : Nat) (p : Part) :
    p.queueHead a = (p.te.pool.filter fun y => y.unit == a && y.state == .pending).head? := (List.head?_filter ..).symm

theorem Part.outstanding_filter (a : Nat) (u : FieldUnit) (p : Part) :
    p.outstanding a u = (p.te.pool.filter fun y => y.unit == a && y.state == .deferred).length + u.reservations.length := by
  unfold Part.outstanding Part.unitQueue
  rw [List.filter_filter]
  simp only [Bool.and_comm]

theorem Part.eligibleHead_iff {p : Part} {a : Nat} {u : FieldUnit} (hu : p.unitAt a = some u) (x : Transaction) :
    p.eligibleHead a = some x ↔ p.queueHead a = some x ∧ x.pred = none ∧ (u.link = .online ∨ u.link = .suspect) ∧ u.gate = .opened ∧
      (p.outstanding a u < u.deferDepth ∨ p.outstanding a u = 0) := by
  unfold Part.eligibleHead
  rw [hu]
  cases hq : p.queueHead a with
  | none => simp
  | some y =>
    dsimp only
    constructor
    · intro h
      split at h
      · next hcond =>
        obtain rfl := Option.some.inj h
        simpa [and_assoc] using hcond
      · exact absurd h (by simp)
    · rintro ⟨hy, hcond⟩
      obtain rfl := Option.some.inj hy
      exact if_pos (by simpa [and_assoc] using hcond)

theorem Part.eligibleHead_none {p : Part} {a : Nat} (hu : p.unitAt a = none) : p.eligibleHead a = none := by
  unfold Part.eligibleHead
  rw [hu]

theorem Part.mem_tokensInUse {p : Part} {a : Nat} {u : FieldUnit} {k : Nat} :
    k ∈ p.tokensInUse a u ↔ (∃ x ∈ p.te.pool, x.unit = a ∧ x.token = some k) ∨ ∃ r ∈ u.reservations, r.token = k := by
  unfold Part.tokensInUse Part.unitQueue
  simp [and_assoc]

theorem Part.choiceStands_command {p : Part} {c : Choice} {seq : Nat} (hc : c.kind = .command seq) :
    p.choiceStands c = true ↔ ∃ x, p.eligibleHead c.unit = some x ∧ x.seq = seq := by
  unfold Part.choiceStands
  rw [hc]
  simp [Option.any_eq_true]

theorem Part.choiceStands_poll {p : Part} {c : Choice} (hc : c.kind = .poll) :
    p.choiceStands c = true ↔ ∃ u, p.unitAt c.unit = some u ∧ (u.link = .online ∨ u.link = .suspect) := by
  unfold Part.choiceStands
  rw [hc]
  cases p.unitAt c.unit <;> simp

theorem Part.choiceStands_rollCall {p : Part} {c : Choice} (hc : c.kind = .rollCall) :
    p.choiceStands c = true ↔ ∃ u, p.unitAt c.unit = some u ∧ (u.link = .seeking ∨ u.link = .lost) := by
  unfold Part.choiceStands
  rw [hc]
  cases p.unitAt c.unit <;> simp

/-- Settles O60: each judgement by the case of the unit's place. -/
theorem eligibilityAndTokensAreJudged : Obligations.EligibilityAndTokensAreJudged := by
  unfold Obligations.EligibilityAndTokensAreJudged
  intro p a
  refine ⟨fun u x outstanding hu hout => ?_, Part.eligibleHead_none, fun u k => Part.mem_tokensInUse, ?_⟩
  · rw [Part.eligibleHead_iff hu, Part.queueHead_eq, Part.outstanding_filter, ← hout]
  · rintro c rfl
    exact ⟨fun seq => Part.choiceStands_command, Part.choiceStands_poll, Part.choiceStands_rollCall⟩

/-! ## Gate and health -/

/-- R47: the conditions that the gate obeys. -/
def FieldUnit.Enabled (u : FieldUnit) : Prop :=
  u.factors.forced = true ∨ (u.factors.suspect = true ∧ u.params.holdMask.suspect = true) ∨
    (u.factors.lost = true ∧ u.params.holdMask.lost = true) ∨ (u.factors.line = true ∧ u.params.holdMask.line = true)

theorem FieldUnit.enabledCondition_iff (u : FieldUnit) : u.enabledCondition = true ↔ u.Enabled := by
  unfold FieldUnit.enabledCondition FieldUnit.Enabled
  simp [or_assoc]

theorem FieldUnit.judgeGate_enabled {u : FieldUnit} (h : u.Enabled) (now : Word) : u.judgeGate now = { u with gate := .held, settle := none } := by
  unfold FieldUnit.judgeGate
  rw [if_pos (u.enabledCondition_iff.mpr h)]

theorem FieldUnit.judgeGate_not_held {u : FieldUnit} (h : ¬ u.Enabled) (hg : u.gate ≠ .held) (now : Word) : u.judgeGate now = u := by
  unfold FieldUnit.judgeGate
  rw [if_neg (fun e => h (u.enabledCondition_iff.mp e)), if_neg hg]

theorem FieldUnit.judgeGate_held {u : FieldUnit} (h : ¬ u.Enabled) (hg : u.gate = .held) (now : Word) :
    u.judgeGate now = if u.params.settleTime = 0 then u.openGate else { u with gate := .settling, settle := some (u.settleFrom now) } := by
  unfold FieldUnit.judgeGate
  rw [if_neg (fun e => h (u.enabledCondition_iff.mp e)), if_pos hg]

theorem FieldUnit.changedEvent_open {u : FieldUnit} (hm : u.params.holdMask.changed = true) (hg : u.gate = .opened ∨ u.gate = .settling) (now : Word) :
    u.changedEvent now = if u.params.settleTime = 0 then u.openGate
      else { u with gate := .settling, settle := some (u.settleFrom now), factors := { u.factors with changed := true } } := by
  unfold FieldUnit.changedEvent
  rw [if_pos hm]
  rcases hg with e | e <;> rw [e]

theorem saturate_eq_min {limit n : Nat} (h : n ≤ limit) : saturate limit n = min (n + 1) limit := by
  unfold saturate
  split <;> omega

/-- R30: the three health counts, each by the outcome. -/
theorem FieldUnit.countHealth_eq {u : FieldUnit} (hs : u.streak ≤ 255) (hm : u.missed ≤ 255) (hc : u.cleanRun ≤ 255) (o : TurnOutcome) :
    u.countHealth o = { u with
      streak := if o = .clean then 0 else if o = .errored then min (u.streak + 1) 255 else u.streak
      missed := if o = .clean ∨ o = .errored then 0 else if o = .noAnswer then min (u.missed + 1) 255 else u.missed
      cleanRun := if o = .clean then min (u.cleanRun + 1) 255 else if o = .errored then 0 else u.cleanRun } := by
  rw [← saturate_eq_min hs, ← saturate_eq_min hm, ← saturate_eq_min hc]
  cases o <;> rfl

/-- R31: the transition that the health counts cause. -/
theorem FieldUnit.judgeHealth_eq {u : FieldUnit} (hl : u.link = .online ∨ u.link = .suspect) (o : TurnOutcome) (now : Word) :
    u.judgeHealth o now =
      if o = .errored ∧ u.link = .online ∧ u.params.streakThreshold ≤ u.streak then (u.setLink .suspect).judgeGate now
      else if o = .clean ∧ u.link = .suspect ∧ u.params.streakThreshold ≤ u.cleanRun then (u.setLink .online).judgeGate now
      else if o = .noAnswer ∧ u.params.silenceLimit ≤ u.missed then u.enterLost now
      else u := by
  unfold FieldUnit.judgeHealth
  rcases hl with e | e
  · rw [e]
    cases o <;> simp
  · rw [e]
    cases o <;> simp

/-- Settles O55: the gate by the enabled conditions, the health by the outcome and the link state. -/
theorem gateAndHealthAreJudged : Obligations.GateAndHealthAreJudged := by
  unfold Obligations.GateAndHealthAreJudged
  intro u now enabled henabled
  obtain rfl : enabled = u.Enabled := propext henabled
  refine ⟨fun h => u.judgeGate_enabled h now, fun h hg => u.judgeGate_not_held h hg now, fun h hg hs => ?_, fun h hg hs => ?_, fun hm => ?_,
    fun hm => ⟨fun hg => ?_, fun hg hs => ?_, fun hg hs => ?_⟩, fun k o c h hs hm hr hc hh => ⟨fun hk => ?_, fun hk h1 h2 => ?_, fun hk hl => ?_⟩⟩
  · rw [u.judgeGate_held h hg, if_pos hs]
    rfl
  · rw [u.judgeGate_held h hg, if_neg hs]
    rfl
  · unfold FieldUnit.changedEvent
    rw [if_neg (by rw [hm]; simp)]
  · unfold FieldUnit.changedEvent
    rw [if_pos hm, hg]
  · rw [u.changedEvent_open hm hg, if_pos hs]
    rfl
  · rw [u.changedEvent_open hm hg, if_neg hs]
    rfl
  · rw [hk, hc]
    rfl
  · have hlink : ¬ (u.link = .online ∨ u.link = .suspect) := fun e => e.elim h1 h2
    unfold FieldUnit.takeTurn
    cases k with
    | rollCall => exact absurd rfl hk
    | poll => exact (if_neg hlink).trans hc.symm
    | command seq => exact (if_neg hlink).trans hc.symm
  · have hcount : (u.countTurn o).countHealth o = h := by
      rw [(u.countTurn o).countHealth_eq hs hm hr o, hh, hc]
      rfl
    have hturn : u.takeTurn k o now = h.judgeHealth o now := by
      unfold FieldUnit.takeTurn
      rw [← hcount]
      cases k with
      | rollCall => exact absurd rfl hk
      | poll => exact if_pos hl
      | command seq => exact if_pos hl
    have hlink : h.link = u.link := by rw [hh, hc]
    have hfactors : h.factors = u.factors := by rw [hh, hc]
    have hparams : h.params = u.params := by rw [hh, hc]
    rw [hturn, h.judgeHealth_eq (by rw [hlink]; exact hl)]
    unfold FieldUnit.enterLost FieldUnit.setLink
    rw [hlink, hparams, hfactors]
    rfl

end Sys2Proof.Machine
end

section
/-! SUPPORT. Commitment (R80, R87, R88) and the bits of a head frame on the line (R59, R191). -/

namespace Sys2Proof.Machine

/-! ## The bits of a frame (R59, R191) -/

theorem characterBits_length (b : Byte) : (characterBits b).length = 10 := by simp [characterBits]

theorem frameBits_length (frame : List Byte) : (frameBits frame).length = 10 * frame.length := by
  induction frame with
  | nil => rfl
  | cons b rest ih =>
    show (characterBits b ++ frameBits rest).length = _
    rw [List.length_append, ih, characterBits_length, List.length_cons]
    omega

theorem byteAt_cons_succ (b : Byte) (rest : List Byte) (i : Nat) : byteAt (b :: rest) (i + 1) = byteAt rest i := by
  simp [byteAt]

/-- R191: the ten bits of a byte stand together, in the order of the bytes. -/
theorem frameBits_getD {frame : List Byte} {i r : Nat} (hi : i < frame.length) (hr : r < 10) (d : Bool) :
    (frameBits frame).getD (10 * i + r) d = (characterBits (byteAt frame i)).getD r d := by
  induction frame generalizing i with
  | nil => exact absurd hi (by simp)
  | cons b rest ih =>
    show (characterBits b ++ frameBits rest).getD (10 * i + r) d = _
    have hlen := characterBits_length b
    cases i with
    | zero =>
      rw [Nat.mul_zero, Nat.zero_add, List.getD_append _ _ _ _ (by omega)]
      rfl
    | succ i =>
      rw [List.getD_append_right _ _ _ _ (by omega), hlen, byteAt_cons_succ, ← ih (by simpa using hi)]
      congr 1
      omega

theorem characterBits_start (b : Byte) (d : Bool) : (characterBits b).getD 0 d = false := rfl

theorem characterBits_data (b : Byte) {j : Nat} (hj : j < 8) (d : Bool) : (characterBits b).getD (1 + j) d = b.getLsbD j := by
  unfold characterBits
  rw [List.getD_append _ _ _ _ (by simp; omega), Nat.add_comm 1 j, List.getD_cons_succ, List.getD_eq_getElem _ _ (by simpa using hj)]
  simp

theorem characterBits_stop (b : Byte) (d : Bool) : (characterBits b).getD 9 d = true := by
  simp [characterBits]

/-! ## Tokens (R88) -/

theorem tokensAfter_nodup (last : Nat) : (tokensAfter last).Nodup := by
  refine List.Nodup.map_on (fun i hi j hj h => ?_) List.nodup_range
  have := List.mem_range.mp hi
  have := List.mem_range.mp hj
  omega

theorem tokensAfter_getElem? (last : Nat) {j : Nat} (hj : j < 15) : (tokensAfter last)[j]? = some ((last + j) % 15 + 1) := by
  unfold tokensAfter
  rw [List.getElem?_map, List.getElem?_range hj]
  rfl

/-- R88: the token assigned at commitment is the first free one after the last assigned, where one is free. -/
theorem Part.commitToken_free {p : Part} {a : Nat} {u : FieldUnit} {t : Transaction} (ht : t.token = none)
    (hfree : (p.tokensInUse a u).length < 15) :
    p.commitToken a u t ∉ p.tokensInUse a u ∧ ∃ i, i < 15 ∧ p.commitToken a u t = (u.lastToken + i) % 15 + 1 ∧
      ∀ j, j < i → (u.lastToken + j) % 15 + 1 ∈ p.tokensInUse a u := by
  have hlength : (tokensAfter u.lastToken).length = 15 := by simp [tokensAfter]
  unfold Part.commitToken
  rw [ht]
  dsimp only
  cases hf : (tokensAfter u.lastToken).find? fun k => !(p.tokensInUse a u).contains k with
  | none =>
    have hsub : tokensAfter u.lastToken ⊆ p.tokensInUse a u := fun k hk => by
      simpa using List.find?_eq_none.mp hf k hk
    have := ((tokensAfter_nodup _).subperm hsub).length_le
    omega
  | some k =>
    obtain ⟨hk, l₁, l₂, hsplit, hbefore⟩ := List.find?_eq_some_iff_append.mp hf
    have hlen : l₁.length < 15 := by
      have := congrArg List.length hsplit
      simp at this
      omega
    refine ⟨by simpa using hk, l₁.length, hlen, ?_, fun j hj => ?_⟩
    · have := tokensAfter_getElem? u.lastToken hlen
      rw [hsplit, List.getElem?_append_right le_rfl, Nat.sub_self] at this
      exact Option.some.inj this
    · have hmem : (u.lastToken + j) % 15 + 1 ∈ l₁ := by
        have := tokensAfter_getElem? u.lastToken (show j < 15 by omega)
        rw [hsplit, List.getElem?_append_left hj] at this
        exact List.mem_of_getElem? this
      simpa using hbefore _ hmem

/-! ## Commitment (R80, R87) -/

/-- R88: the unit after a transaction of its own was committed under a token. -/
def FieldUnit.assign (t : Transaction) (token : Nat) (u : FieldUnit) : FieldUnit := if t.token.isNone then { u with lastToken := token } else u

/-- The unit of a turn that has started. -/
def Part.unitStarting (c : Choice) (u : FieldUnit) (p : Part) : FieldUnit :=
  match c.kind with
  | .poll | .rollCall => u.turnStarts c.kind p.run.clock p.line.discovery
  | .command seq => ((p.findTxn seq).map fun t => u.assign t (p.commitToken c.unit u t)).getD u

/-- R87: a transaction that becomes SENDING. -/
def Transaction.send (token : Nat) (x : Transaction) : Transaction := { x with token := some token, sends := saturate 255 x.sends, state := .sending }

/-- The Transaction Engine of a turn that has started. -/
def Part.engineStarting (c : Choice) (u : FieldUnit) (p : Part) : TransactionEngine :=
  match c.kind with
  | .poll | .rollCall => p.te
  | .command seq => ((p.findTxn seq).map fun t => (p.mapTxn t.seq (Transaction.send (p.commitToken c.unit u t))).te).getD p.te

theorem Part.setPlace_setPlace (a : Nat) (f g : FieldUnit → FieldUnit) (p : Part) : (p.setPlace a f).setPlace a g = p.setPlace a (g ∘ f) := by
  by_cases ha : 1 ≤ a ∧ a ≤ 30
  · have hslot : (p.setPlace a f).unitSlot a = { p.unitSlot a with place := (p.unitAt a).map f } := by
      rw [p.setPlace_slot, if_pos ⟨rfl, ha⟩]
    have hplace : (p.setPlace a f).unitAt a = (p.unitAt a).map f := congrArg UnitSlot.place hslot
    have hnew : ({ (p.setPlace a f).unitSlot a with place := ((p.setPlace a f).unitAt a).map g } : UnitSlot) =
        { p.unitSlot a with place := (p.unitAt a).map (g ∘ f) } := by
      rw [hplace, hslot, Option.map_map]
    show (if 1 ≤ a ∧ a ≤ 30 then _ else _) = _
    rw [if_pos ha, hnew]
    unfold Part.setPlace
    rw [if_pos ha, if_pos ha]
    dsimp only
    rw [Vector.setIfInBounds_setIfInBounds]
  · unfold Part.setPlace
    rw [if_neg ha, if_neg ha, if_neg ha]

theorem Part.turnStarts_silent (a : Nat) (k : TurnKind) (now : Word) (d : Nat) (p : Part) :
    p.updateUnit a (FieldUnit.turnStarts k now d) = p.setPlace a (FieldUnit.turnStarts k now d) := by
  refine Part.updateUnit_silent (fun u => ?_) (fun u => ?_) p
  · cases k <;> rfl
  · cases k <;> exact unitBitChange_shown rfl rfl rfl rfl rfl

theorem Part.assign_silent (a : Nat) (t : Transaction) (token : Nat) (p : Part) :
    p.updateUnit a (FieldUnit.assign t token) = p.setPlace a (FieldUnit.assign t token) := by
  refine Part.updateUnit_silent (fun u => ?_) (fun u => ?_) p
  · unfold FieldUnit.assign
    split <;> rfl
  · unfold FieldUnit.assign
    split <;> exact unitBitChange_shown rfl rfl rfl rfl rfl

/-- The part with the turn of a choice started, its unit and its transaction as they were. -/
def Part.begun (c : Choice) (u : FieldUnit) (p : Part) : Part :=
  { p with line := { p.line.started c with turn := some (startedTurn c u p.run.clock (p.chosenFrame c u)) } }

/-- R80, R87: a turn starts: its unit's place, its transaction and the line change, and nothing else. -/
theorem Part.startTurn_eq {p : Part} {c : Choice} {u : FieldUnit}
    (hown : ∀ seq t, c.kind = .command seq → p.findTxn seq = some t → t.unit = c.unit) :
    ∃ f : FieldUnit → FieldUnit, f u = p.unitStarting c u ∧
      p.startTurn c u = { (p.begun c u).setPlace c.unit f with te := p.engineStarting c u } := by
  have hbegun : p.startTurn c u = match c.kind with
      | .poll | .rollCall => (p.begun c u).updateUnit c.unit (FieldUnit.turnStarts c.kind p.run.clock p.line.discovery)
      | .command seq =>
        match p.findTxn seq with
        | some t => ((p.begun c u).updateUnit c.unit (FieldUnit.turnStarts c.kind p.run.clock p.line.discovery)).markSending t (p.commitToken c.unit u t)
        | none => (p.begun c u).updateUnit c.unit (FieldUnit.turnStarts c.kind p.run.clock p.line.discovery) := rfl
  rw [hbegun, Part.turnStarts_silent]
  have hte : ∀ f, ((p.begun c u).setPlace c.unit f).te = p.te := fun f => by rw [Part.setPlace_um]; rfl
  have hkeep : ∀ f, (p.begun c u).setPlace c.unit f = { (p.begun c u).setPlace c.unit f with te := p.te } := fun f =>
    congrArg (fun e => ({ (p.begun c u).setPlace c.unit f with te := e } : Part)) (hte f)
  unfold Part.unitStarting Part.engineStarting
  cases hk : c.kind with
  | poll => exact ⟨_, rfl, hkeep _⟩
  | rollCall => exact ⟨_, rfl, hkeep _⟩
  | command seq =>
    dsimp only
    cases hx : p.findTxn seq with
    | none => exact ⟨_, rfl, hkeep _⟩
    | some t =>
      have hunit : t.unit = c.unit := hown seq t hk hx
      refine ⟨FieldUnit.assign t (p.commitToken c.unit u t), rfl, ?_⟩
      show Part.updateUnit t.unit (FieldUnit.assign t (p.commitToken c.unit u t)) _ = _
      rw [Part.assign_silent, hunit]
      have hmap : ∀ q : Part, (q.mapTxn t.seq (Transaction.send (p.commitToken c.unit u t))).setPlace c.unit (FieldUnit.assign t (p.commitToken c.unit u t)) =
          { q.setPlace c.unit (FieldUnit.assign t (p.commitToken c.unit u t)) with te := (q.mapTxn t.seq (Transaction.send (p.commitToken c.unit u t))).te } := by
        intro q
        unfold Part.setPlace
        split <;> rfl
      refine (hmap _).trans ?_
      rw [Part.setPlace_setPlace]
      unfold Part.mapTxn
      dsimp only
      rw [hte]
      rfl

theorem Part.queueHead_facts {p : Part} {a : Nat} {x : Transaction} (h : p.queueHead a = some x) : x ∈ p.te.pool ∧ x.unit = a := by
  unfold Part.queueHead at h
  have hx := List.find?_some h
  exact ⟨List.mem_of_find?_eq_some h, beq_iff_eq.mp (Bool.and_eq_true_iff.mp hx).1⟩

/-- R86, R87: the transaction of a choice that stands is its unit's, where no two share a take sequence. -/
theorem Part.stands_own {p : Part} {c : Choice} {u : FieldUnit} (hnd : (p.te.pool.map (·.seq)).Nodup) (hu : p.unitAt c.unit = some u)
    (hstands : p.choiceStands c = true) {seq : Nat} {t : Transaction} (hk : c.kind = .command seq) (ht : p.findTxn seq = some t) : t.unit = c.unit := by
  obtain ⟨x, hx, hseq⟩ := (Part.choiceStands_command hk).mp hstands
  obtain ⟨hmem, hunit⟩ := Part.queueHead_facts ((Part.eligibleHead_iff hu x).mp hx).1
  obtain ⟨htmem, htseq⟩ := Part.findTxn_mem ht
  rw [List.inj_on_of_nodup_map hnd htmem hmem (htseq.trans hseq.symm), hunit]

/-- R65: a row of the line whose idle check is met commits the choice. -/
theorem exec_commitment {s : State} {c : Choice} (hc : s.part.line.choice = some c) (hw : s.Working) (hport : s.PortFree)
    (hidle : elapsed s.part.run.clock c.since ≤ 2 ∨ 2 ≤ elapsed s.part.run.clock s.part.line.idleSince) :
    exec .commitment s = .next (s.onPart fun p => (p.commitChoice c).settle) := by
  have hcond : s.part.working = true ∧ (elapsed s.part.run.clock c.since ≤ 2 ∨ ¬ s.part.idleUnseen = true) := by
    refine ⟨State.working_of hw, hidle.imp_right fun h => ?_⟩
    unfold Part.idleUnseen
    rw [decide_eq_true_eq]
    omega
  show Host.Outcome.next (s.onBlocks _) = _
  rw [State.onBlocks_eq (s.free_of_portFree hport)]
  unfold State.onPart
  dsimp only
  rw [hc]
  dsimp only
  rw [if_pos hcond]

theorem Part.engineStarting_drained (c : Choice) (u : FieldUnit) (p : Part) :
    (p.engineStarting c u).pool.isEmpty = p.te.pool.isEmpty ∧ (p.engineStarting c u).syncs = p.te.syncs ∧ (p.engineStarting c u).aborts = p.te.aborts := by
  unfold Part.engineStarting
  split
  · exact ⟨rfl, rfl, rfl⟩
  · exact ⟨rfl, rfl, rfl⟩
  · next seq hk =>
    cases p.findTxn seq with
    | none => exact ⟨rfl, rfl, rfl⟩
    | some t => exact ⟨List.isEmpty_map, rfl, rfl⟩

/-- What a turn of a standing choice makes of a settled part is settled. -/
theorem State.Settled.startTurn {s : State} (h : s.Settled) (hw : s.part.port.waiting = []) {c : Choice} {u : FieldUnit} {f : FieldUnit → FieldUnit} :
    Part.settle { (s.part.begun c u).setPlace c.unit f with te := s.part.engineStarting c u } =
      { (s.part.begun c u).setPlace c.unit f with te := s.part.engineStarting c u } := by
  obtain ⟨hl, hf, hd⟩ := h hw
  obtain ⟨hpool, hsyncs, haborts⟩ := s.part.engineStarting_drained c u
  have hum : (s.part.begun c u).setPlace c.unit f = { s.part.begun c u with um := ((s.part.begun c u).setPlace c.unit f).um } := Part.setPlace_um _ _ _
  have hwait : ((s.part.begun c u).setPlace c.unit f).um.dismissWait = s.part.um.dismissWait := Part.setPlace_dismissWait _ _ _
  rw [hum]
  refine Part.settle_eq_self hl hf fun e => hd ⟨e.1, e.2.1, ?_⟩
  have hdone := e.2.2
  unfold Part.drainDone at hdone ⊢
  rwa [← hpool, ← hsyncs, ← haborts, ← hwait]

/-- Settles O44: the turn that starts writes its unit's place and its transaction, and raises nothing. -/
theorem commitmentStartsOrWithdrawsTheTurn : Obligations.CommitmentStartsOrWithdrawsTheTurn := by
  unfold Obligations.CommitmentStartsOrWithdrawsTheTurn
  intro s c hc hworking hsettled hwaiting hidle
  have hexec := exec_commitment hc hworking ⟨hwaiting, (hsettled hwaiting).1⟩ hidle
  refine ⟨fun hfalls => ?_, fun u hstands hdistinct hu ha => ?_⟩
  · have hnone : s.part.commitChoice c = { s.part with line := { s.part.line with choice := none } } := by
      unfold Part.commitChoice
      split
      · rw [if_neg (by rw [hfalls]; simp)]
      · rfl
    rw [hexec]
    unfold State.onPart
    dsimp only
    rw [hnone, hsettled.settle_eq hwaiting (p := { s.part with line := { s.part.line with choice := none } }) (hsettled hwaiting).1 rfl rfl rfl rfl]
  · obtain ⟨f, hfu, hstart⟩ := Part.startTurn_eq (p := s.part) (u := u) fun seq t hk ht => Part.stands_own hdistinct.1 hu hstands hk ht
    have hcommit : (s.part.commitChoice c).settle = { (s.part.begun c u).setPlace c.unit f with te := s.part.engineStarting c u } := by
      unfold Part.commitChoice
      rw [hu]
      dsimp only
      rw [if_pos hstands, hstart, hsettled.startTurn hwaiting]
    have hslot : ((s.part.begun c u).setPlace c.unit f).unitSlot c.unit = { s.part.unitSlot c.unit with place := some (s.part.unitStarting c u) } := by
      rw [← hfu]
      exact Part.setPlace_self (p := s.part.begun c u) ha hu f
    have hum : (s.part.begun c u).setPlace c.unit f = { s.part.begun c u with um := ((s.part.begun c u).setPlace c.unit f).um } := Part.setPlace_um _ _ _
    have hbits : ∀ (i r : Nat), i < (s.part.chosenFrame c u).length → r < 10 →
        State.ltx (10 * i + r) { s with part := { (s.part.begun c u).setPlace c.unit f with te := s.part.engineStarting c u } } =
          (characterBits (byteAt (s.part.chosenFrame c u) i)).getD r true := by
      intro i r hi hr
      rw [hum]
      exact frameBits_getD hi hr true
    refine ⟨_, s.part.chosenFrame c u, s.part.unitStarting c u, hexec.trans (congrArg (fun p => Host.Outcome.next { s with part := p }) hcommit), ?_, hslot,
      fun b hb => Part.setPlace_other hb f (s.part.begun c u), Part.setPlace_dismissWait _ _ _, ?_, fun i hi => ⟨?_, fun j hj => ?_, ?_⟩, fun bit hbit => ?_,
      fun hk => ?_, fun hk => ?_, fun seq x hk hx ht => ?_⟩
    · rw [hum]
      rfl
    · rw [hum]
      rfl
    · exact hbits i 0 hi (by omega)
    · rw [Nat.add_assoc, hbits i (1 + j) hi (by omega), characterBits_data _ hj]
    · rw [hbits i 9 hi (by omega), characterBits_stop]
    · rw [hum]
      refine List.getD_eq_default _ _ ?_
      rw [show (startedTurn c u s.part.run.clock (s.part.chosenFrame c u)).frame = s.part.chosenFrame c u from rfl, frameBits_length]
      exact hbit
    · unfold Part.chosenFrame Part.engineStarting Part.unitStarting
      rw [hk]
      exact ⟨rfl, rfl, rfl⟩
    · unfold Part.chosenFrame Part.engineStarting Part.unitStarting
      rw [hk]
      exact ⟨rfl, rfl, rfl⟩
    · have hseq : x.seq = seq := Part.findTxn_seq ht
      refine ⟨s.part.commitToken c.unit u x, ?_, ?_, fun k' hk' => ⟨?_, ?_⟩, fun hnone => ⟨?_, Part.commitToken_free hnone⟩⟩
      · unfold Part.chosenFrame
        rw [hk]
        dsimp only
        rw [ht]
        rfl
      · show s.part.engineStarting c u = _
        unfold Part.engineStarting
        rw [hk]
        dsimp only
        rw [ht, Option.map_some, Option.getD_some, hseq]
        rfl
      · unfold Part.commitToken
        rw [hk']
      · unfold Part.unitStarting
        rw [hk]
        dsimp only
        rw [ht, Option.map_some, Option.getD_some]
        unfold FieldUnit.assign
        rw [hk']
        rfl
      · unfold Part.unitStarting
        rw [hk]
        dsimp only
        rw [ht, Option.map_some, Option.getD_some]
        unfold FieldUnit.assign
        rw [hnone]
        rfl

end Sys2Proof.Machine
end

section
/-! SUPPORT. A mirror rewritten with its bank bit where nobody waits, with and without room (R40, R148, R174); the timers of the gate and of an entry (R5, R51);
an accepted ANNOUNCE (R33 to R36). -/

namespace Sys2Proof.Machine

/-! ## What a rewrite raises -/

/-- The bank bit of number `i`, for the active bank of `p`, has been handed on, or stands behind the accesses of the block `b` that wait for room. -/
def Part.BitOn (p q : Part) (b : Block) (m : MapKind) (i : Nat) : Prop :=
  ∃ more : List BankItem, q.svc.bankQueue = p.svc.bankQueue ++ more ∧
    (.update p.svc.activeBank m i ∈ more ∨ ∃ e ∈ q.port.waiting, e.block = b ∧ .hand (.bankBit m i) ∈ e.items)

theorem State.handsBit_of {s t : State} {b : Block} {m : MapKind} {i : Nat} (h : s.part.BitOn t.part b m i) : s.HandsBit t b m i := h

/-- A bank bit on its way stays so while blocks work. -/
theorem Part.BitOn.works {p q r : Part} {b : Block} {m : MapKind} {i : Nat} (h : p.BitOn q b m i) (hw : q.Works r) : p.BitOn r b m i := by
  obtain ⟨more, hq, hbit⟩ := h
  obtain ⟨extra, hextra⟩ := hw.bankQueue
  refine ⟨more ++ extra, by rw [← hextra, hq, List.append_assoc], hbit.imp (List.mem_append_left _) fun ⟨e, he, hb, hi⟩ => ?_⟩
  obtain ⟨e', he', hblock, hitems⟩ := hw.port.waiting.mem he
  exact ⟨e', he', hblock.trans hb, hitems.subset hi⟩

/-- The work before, too, has only added to the bank queue. -/
theorem Part.BitOn.after {p q r : Part} {b : Block} {m : MapKind} {i : Nat} (hw : p.Works q) (h : q.BitOn r b m i) : p.BitOn r b m i := by
  obtain ⟨before, hbefore⟩ := hw.bankQueue
  obtain ⟨more, hq, hbit⟩ := h
  exact ⟨before ++ more, by rw [hq, ← hbefore, List.append_assoc], hbit.imp (fun h => List.mem_append_right _ (hw.activeBank ▸ h)) id⟩

/-- R40, R148, R174: what raising accesses and, behind them, perhaps a bank bit makes of a part in which nobody waits. -/
structure Part.Rewrites (p q : Part) (b : Block) (l : List Access) (bit : Bool) (m : MapKind) (i : Nat) : Prop where
  svc : q.svc = { p.svc with bankQueue := q.svc.bankQueue }
  outstanding : (p.port.outstanding ++ l).Sublist q.port.outstanding
  handed : bit = true → p.BitOn q b m i
  unchanged : bit = false → q.svc.bankQueue = p.svc.bankQueue
  later : q.port.later = p.port.later
  fits : p.port.Fits (l ++ if bit then p.bankBitRead m i else []) →
    q.port = p.port.with (l ++ if bit then p.bankBitRead m i else []) ∧
    q.svc.bankQueue = p.svc.bankQueue ++ if bit then [.update p.svc.activeBank m i] else []

theorem Part.takeBankBit_rewrites {p : Part} (hw : p.port.waiting = []) (b : Block) (m : MapKind) (i : Nat) :
    p.Rewrites (p.takeBankBit m i) b [] true m i := by
  have hq : (p.takeBankBit m i).svc = { p.svc with bankQueue := p.svc.bankQueue ++ [.update p.svc.activeBank m i] } := by
    unfold Part.takeBankBit
    dsimp only
    split <;> rfl
  have hport : (p.takeBankBit m i).port.outstanding = p.port.outstanding ++ p.bankBitRead m i ∧ (p.takeBankBit m i).port.later = p.port.later := by
    unfold Part.takeBankBit Part.bankBitRead
    dsimp only
    by_cases hempty : p.svc.bankQueue = []
    · rw [hempty, List.isEmpty_nil, if_pos rfl, if_pos rfl]
      exact ⟨WindowPort.submit_outstanding _ _ hw, WindowPort.submit_later _ _ _⟩
    · rw [if_neg (by simpa using hempty), if_neg hempty, List.append_nil]
      exact ⟨rfl, rfl⟩
  refine ⟨by rw [hq], ?_, fun _ => ⟨_, by rw [hq], .inl List.mem_cons_self⟩, fun h => absurd h (by simp), hport.2, fun hfits => ?_⟩
  · rw [hport.1, List.append_nil]
    exact List.sublist_append_left _ _
  · rw [Part.takeBankBit_fits m i p hfits]
    exact ⟨rfl, rfl⟩

theorem Part.raise_rewrites {p : Part} (hw : p.port.waiting = []) (b : Block) (l : List Access) (bit : Bool) (m : MapKind) (i : Nat) :
    p.Rewrites (Part.raise b (l.map Item.access ++ if bit then [Item.hand (.bankBit m i)] else []) p) b l bit m i := by
  rw [Part.raise_free hw]
  induction l generalizing p with
  | nil =>
    cases bit with
    | false =>
      exact ⟨rfl, by rw [List.append_nil]; exact List.Sublist.refl _, fun h => absurd h (by simp), fun _ => rfl, rfl, fun _ => ⟨by simp [Part.raiseFree], by simp [Part.raiseFree]⟩⟩
    | true => exact Part.takeBankBit_rewrites hw b m i
  | cons a rest ih =>
    rw [List.map_cons, List.cons_append, Part.raiseFree]
    by_cases hroom : p.port.hasRoom a = true
    · rw [if_pos hroom]
      obtain ⟨h1, h2, h3, h4, h5, h6⟩ := ih (p := { p with port := p.port.push a }) hw
      refine ⟨h1, ?_, h3, h4, h5, fun hfits => ?_⟩
      · rwa [WindowPort.outstanding_push a hw, List.append_assoc, List.singleton_append] at h2
      · obtain ⟨e1, e2⟩ := h6 (WindowPort.fits_cons hfits).2
        refine ⟨e1.trans ?_, e2⟩
        rw [show ({ p with port := p.port.push a } : Part).port = p.port.with [a] from rfl, WindowPort.with_with]
        rfl
    · rw [if_neg hroom]
      have hwaiting : (p.port.park b (Item.access a :: (rest.map Item.access ++ if bit then [Item.hand (.bankBit m i)] else []))).waiting =
          [{ block := b, items := (a :: rest).map Item.access ++ if bit then [Item.hand (.bankBit m i)] else [] }] := by
        simp [WindowPort.park, WindowPort.not_waits hw, hw]
      refine ⟨rfl, ?_, fun hbit => ⟨[], by simp, .inr ?_⟩, fun _ => rfl, WindowPort.park_later _ _ _, fun hfits => absurd (WindowPort.fits_cons hfits).1 hroom⟩
      · rw [WindowPort.outstanding_eq, WindowPort.outstanding_eq, hwaiting, hw, WindowPort.park_fifo]
        have hreports : (p.port.park b (Item.access a :: (rest.map Item.access ++ if bit then [Item.hand (.bankBit m i)] else []))).reports =
            p.port.reports := by
          unfold WindowPort.park
          split <;> rfl
        rw [hreports]
        refine List.Sublist.append (by simp [WaitEntry.accesses]) ?_
        have haccess := WaitEntry.accesses_singleton b [] (a :: rest)
        rw [List.nil_append] at haccess
        have hall : (WaitEntry.accesses [{ block := b, items := (a :: rest).map Item.access }]).Sublist
            (WaitEntry.accesses [{ block := b, items := (a :: rest).map Item.access ++ if bit then [Item.hand (.bankBit m i)] else [] }]) :=
          WaitEntry.ListExtends.accesses (l := [_]) (l' := [_]) ⟨⟨rfl, List.prefix_append _ _⟩, trivial⟩
        rw [haccess] at hall
        exact (List.sublist_append_right _ _).trans hall
      · rw [hwaiting]
        exact ⟨_, List.mem_cons_self, rfl, List.mem_append_right _ (by rw [hbit]; exact List.mem_cons_self)⟩

/-- The accesses of a mirror rewrite of a unit. -/
def Part.unitWrites (a : Nat) (new : Option FieldUnit) (always : Bool) (p : Part) : List Access :=
  if always || unitBody (p.unitAt a) != unitBody new then mirrorWrites (unitMirrorAddr p.base a) (p.unitSlot a).version (unitBody new) else []

theorem Part.putUnit_rewrites {p : Part} (hw : p.port.waiting = []) {a : Nat} (ha : 1 ≤ a ∧ a ≤ 30) (new : Option FieldUnit) (f : Bool) :
    p.Rewrites (p.putUnit a new f) .unitManager (p.unitWrites a new f) (unitBitChange (p.unitAt a) new) .unit a := by
  have hraise : ∀ v : Vector UnitSlot 32, p.Rewrites (Part.raise .unitManager ((p.unitWrites a new f).map Item.access ++
      if unitBitChange (p.unitAt a) new then [Item.hand (.bankBit .unit a)] else []) { p with um := { p.um with slots := v } })
      .unitManager (p.unitWrites a new f) (unitBitChange (p.unitAt a) new) .unit a := fun v => by
    obtain ⟨h1, h2, h3, h4, h5, h6⟩ := Part.raise_rewrites (p := { p with um := { p.um with slots := v } }) hw .unitManager (p.unitWrites a new f)
      (unitBitChange (p.unitAt a) new) .unit a
    exact ⟨h1, h2, h3, h4, h5, h6⟩
  unfold Part.putUnit
  rw [if_pos ha]
  exact hraise _

theorem State.putEntry_rewrites {s : State} (hw : s.part.port.waiting = []) {n : Nat} (hn : n < 192) (new : Option Entry) (notify : Bool) :
    s.part.Rewrites (s.part.putEntry n new notify) .directoryEngine (s.entryMirror n new) notify .directory n := by
  have hraise : ∀ v : Vector EntrySlot 192, s.part.Rewrites (Part.raise .directoryEngine ((s.entryMirror n new).map Item.access ++
      if notify then [Item.hand (.bankBit .directory n)] else []) { s.part with dir := { s.part.dir with slots := v } })
      .directoryEngine (s.entryMirror n new) notify .directory n := fun v => by
    obtain ⟨h1, h2, h3, h4, h5, h6⟩ := Part.raise_rewrites (p := { s.part with dir := { s.part.dir with slots := v } }) hw .directoryEngine
      (s.entryMirror n new) notify .directory n
    exact ⟨h1, h2, h3, h4, h5, h6⟩
  have hwrites : s.entryMirror n new = if dirBody (s.part.entrySlot n).shownKey (s.part.entrySlot n).entry != dirBody (s.part.shownWith n new) new then
      mirrorWrites (dirMirrorAddr s.part.base n) (s.part.entrySlot n).version (dirBody (s.part.shownWith n new) new) else [] := by
    unfold State.entryMirror
    dsimp only
    by_cases e : dirBody (s.part.entrySlot n).shownKey (s.part.entryAt n) = dirBody (s.part.shownWith n new) new
    · rw [if_pos (by exact e), if_neg (by rw [bne_iff_ne, not_not]; exact e)]
    · rw [if_neg (by exact e), if_pos (by rw [bne_iff_ne]; exact e)]
      rfl
  unfold Part.putEntry
  rw [if_pos (by exact hn)]
  rw [hwrites] at hraise ⊢
  cases new with
  | none => exact hraise _
  | some e => exact hraise _

/-! ## Rows that rewrite one mirror -/

theorem State.Settled.settle_unit {s : State} (h : s.Settled) (hw : s.part.port.waiting = []) {a : Nat} (ha : 1 ≤ a ∧ a ≤ 30) (new : Option FieldUnit)
    (f : Bool) : (s.part.putUnit a new f).settle = s.part.putUnit a new f := by
  obtain ⟨hb, ht, -, -, hwait⟩ := s.part.putUnit_frame a new f
  exact h.settle_eq hw ((Part.putUnit_rewrites hw ha new f).later.trans (h hw).1) (congrArg (·.finishes) hb) (s.part.putUnit_calm a new f).run ht hwait

/-- R40: what a change of a place leaves of the part. -/
theorem Part.putUnit_eq (p : Part) (a : Nat) (new : Option FieldUnit) (f : Bool) :
    p.putUnit a new f = { p with um := (p.putUnit a new f).um, svc := (p.putUnit a new f).svc, port := (p.putUnit a new f).port } := by
  obtain ⟨hb, ht, hd, hj, -⟩ := p.putUnit_frame a new f
  have hc := p.putUnit_calm a new f
  rw [← hc.run, ← hb, ← ht, ← hd, ← hj, ← hc.line]

theorem Part.putEntry_eq (p : Part) (n : Nat) (new : Option Entry) (f : Bool) :
    p.putEntry n new f = { p with dir := (p.putEntry n new f).dir, svc := (p.putEntry n new f).svc, port := (p.putEntry n new f).port } := by
  obtain ⟨hb, ht, hu, hj, hr, hl⟩ := p.putEntry_frame n new f
  rw [← hr, ← hb, ← ht, ← hu, ← hj, ← hl]

theorem State.Settled.settle_entry {s : State} (h : s.Settled) (hw : s.part.port.waiting = []) {n : Nat} (hn : n < 192) (new : Option Entry) (f : Bool) :
    (s.part.putEntry n new f).settle = s.part.putEntry n new f := by
  obtain ⟨hb, ht, hu, -⟩ := s.part.putEntry_frame n new f
  exact h.settle_eq hw ((State.putEntry_rewrites hw hn new f).later.trans (h hw).1) (congrArg (·.finishes) hb) (s.part.putEntry_calm n new f).run ht
    (congrArg (·.dismissWait) hu)

theorem Part.unitWrites_eq (s : State) (a : Nat) (new : Option FieldUnit) : s.part.unitWrites a new false = s.unitMirror a new := by
  unfold Part.unitWrites State.unitMirror
  by_cases e : unitBody (s.part.unitAt a) = unitBody new <;> simp [e]

theorem Part.unitWrites_always (a : Nat) (new : Option FieldUnit) (p : Part) :
    p.unitWrites a new true = mirrorWrites (unitMirrorAddr p.base a) (p.unitSlot a).version (unitBody new) := rfl

theorem State.unitMirror_eq_nil_iff {s : State} {a : Nat} {new : Option FieldUnit} : s.unitMirror a new = [] ↔ unitBody (s.part.unitAt a) = unitBody new := by
  unfold State.unitMirror
  split
  · next h => simp [h]
  · next h => simp [h, mirrorWrites]

/-- R40: a rewrite where what is shown has changed. -/
theorem State.putUnit_rewritesUnit {s : State} (hw : s.part.port.waiting = []) {a : Nat} (ha : 1 ≤ a ∧ a ≤ 30) (new : Option FieldUnit) :
    s.RewritesUnit (s.onPart fun p => p.putUnit a new false) a new := by
  have hr := Part.putUnit_rewrites hw ha new false
  rw [Part.unitWrites_eq] at hr
  refine ⟨?_, (List.sublist_append_right _ _).trans hr.outstanding⟩
  show ((s.part.putUnit a new false).unitSlot a).version = _
  rw [Part.putUnit_slot _ _ _ _ ha, if_pos rfl]
  by_cases e : unitBody (s.part.unitAt a) = unitBody new
  · rw [if_pos (State.unitMirror_eq_nil_iff.mpr e)]
    simp [e]
  · rw [if_neg (fun h => e (State.unitMirror_eq_nil_iff.mp h))]
    simp [e]

theorem State.putEntry_rewritesEntry {s : State} (hw : s.part.port.waiting = []) {n : Nat} (hn : n < 192) (new : Option Entry) (f : Bool) :
    s.RewritesEntry (s.onPart fun p => p.putEntry n new f) n new := by
  refine ⟨?_, (List.sublist_append_right _ _).trans (State.putEntry_rewrites hw hn new f).outstanding⟩
  show ((s.part.putEntry n new f).entrySlot n).version = _
  rw [Part.putEntry_slot _ _ _ _ hn, if_pos rfl]
  by_cases e : s.entryMirror n new = []
  · rw [if_pos e]
    simp [State.entryMirror_eq_nil_iff.mp e]
  · rw [if_neg e]
    dsimp only
    rw [if_neg (fun h => e (State.entryMirror_eq_nil_iff.mpr h))]

theorem mirrorWrites_counts (addr : Nat) (v : BitVec 64) (body : List Byte) :
    ((mirrorWrites addr v body).filter fun a => !a.isRead).length = 3 ∧ ((mirrorWrites addr v body).filter Access.isRead).length = 0 := ⟨rfl, rfl⟩

theorem Part.bankBitRead_counts (p : Part) (m : MapKind) (i : Nat) :
    ((p.bankBitRead m i).filter fun a => !a.isRead).length = 0 ∧ ((p.bankBitRead m i).filter Access.isRead).length ≤ 1 := by
  unfold Part.bankBitRead
  split
  · exact ⟨rfl, le_refl 1⟩
  · exact ⟨rfl, Nat.zero_le 1⟩

/-- R174: a mirror rewrite and a bank bit need room for three writes and a read. -/
theorem State.fits_rewrite {s : State} {w r : Nat} (h : s.PortRoom w r) (hw : 3 ≤ w) (hr : 1 ≤ r) {l : List Access} (hl : l = [] ∨ ∃ addr v body, l = mirrorWrites addr v body)
    (bit : Bool) (m : MapKind) (i : Nat) : s.part.port.Fits (l ++ if bit then s.part.bankBitRead m i else []) := by
  obtain ⟨b1, b2⟩ := s.part.bankBitRead_counts m i
  have hcount : (l.filter fun a => !a.isRead).length ≤ 3 ∧ (l.filter Access.isRead).length = 0 := by
    rcases hl with rfl | ⟨addr, v, body, rfl⟩
    · exact ⟨Nat.zero_le _, rfl⟩
    · exact ⟨(mirrorWrites_counts addr v body).1.le, (mirrorWrites_counts addr v body).2⟩
  refine s.fits_of_portRoom h ?_ ?_
  · rw [List.filter_append, List.length_append]
    cases bit <;> simp <;> omega
  · rw [List.filter_append, List.length_append]
    cases bit <;> simp <;> omega

theorem Part.unitWrites_shape (a : Nat) (new : Option FieldUnit) (f : Bool) (p : Part) :
    p.unitWrites a new f = [] ∨ ∃ addr v body, p.unitWrites a new f = mirrorWrites addr v body := by
  unfold Part.unitWrites
  split
  · exact .inr ⟨_, _, _, rfl⟩
  · exact .inl rfl

theorem State.entryMirror_shape (s : State) (n : Nat) (new : Option Entry) :
    s.entryMirror n new = [] ∨ ∃ addr v body, s.entryMirror n new = mirrorWrites addr v body := by
  unfold State.entryMirror
  dsimp only
  split
  · exact .inl rfl
  · exact .inr ⟨_, _, _, rfl⟩

/-! ## What a mirror shows of the gate and the factors -/

theorem unitBody_gate (u : FieldUnit) : byteAt (unitBody (some u)) 1 = u.gate.code := rfl

theorem unitBody_factors (u : FieldUnit) : byteAt (unitBody (some u)) 2 = u.factors.code := rfl

theorem unitBody_link (u : FieldUnit) : byteAt (unitBody (some u)) 0 = u.link.code := rfl

/-! ## Obligation: the timers of the gate and of an entry (R5, R51) -/

theorem exec_settleTimerExpiry {s : State} {a : Nat} {u : FieldUnit} (hworking : s.Working) (hs : s.Settled) (hw : s.part.port.waiting = [])
    (ha : 1 ≤ a ∧ a ≤ 30) (hu : s.part.unitAt a = some u) (hdue : u.settleDue s.part.run.clock = true) :
    exec (.settleTimerExpiry a) s = .next (s.onPart fun p => p.putUnit a (some u.openGate) false) := by
  show Host.Outcome.next (s.onBlocks _) = _
  rw [State.onBlocks_eq (s.free_of_portFree ⟨hw, (hs hw).1⟩)]
  unfold State.onPart
  dsimp only
  rw [hu]
  dsimp only
  rw [if_pos (by rw [State.working_of hworking, hdue]; rfl), hs.settle_unit hw ha]

theorem exec_staleTimerExpiry {s : State} {n : Nat} {e : Entry} (hworking : s.Working) (hs : s.Settled) (hw : s.part.port.waiting = [])
    (hn : n < 192) (he : s.part.entryAt n = some e) (hdue : e.staleDue s.part.run.clock = true) :
    exec (.staleTimerExpiry n) s = .next (s.onPart fun p => p.putEntry n (some e.expire) e.policies.notify.state) := by
  show Host.Outcome.next (s.onBlocks _) = _
  rw [State.onBlocks_eq (s.free_of_portFree ⟨hw, (hs hw).1⟩)]
  unfold State.onPart
  dsimp only
  rw [he]
  dsimp only
  rw [if_pos (by rw [State.working_of hworking, hdue]; rfl), hs.settle_entry hw hn]

theorem GateState.code_inj {g h : GateState} : g.code = h.code → g = h := by
  cases g <;> cases h <;> decide

theorem unitBitChange_gate {u v : FieldUnit} (h : u.gate ≠ v.gate) : unitBitChange (some u) (some v) = true := by
  simp [unitBitChange, h]

/-- A place whose gate has changed shows it. -/
theorem unitBody_ne_of_gate {u v : FieldUnit} (h : u.gate ≠ v.gate) : unitBody (some u) ≠ unitBody (some v) := fun e =>
  h (GateState.code_inj (by rw [← unitBody_gate, ← unitBody_gate, e]))

/-- Settles O57: each timer rewrites one mirror, whose writes and bank bit are all that it raises. -/
theorem settleAndStaleTimersExpire : Obligations.SettleAndStaleTimersExpire := by
  unfold Obligations.SettleAndStaleTimersExpire
  intro s hworking hs hw
  refine ⟨fun a u v timer ha hu hgate htimer hdue hv => ?_, fun n e e' start hn he htimer hdue he' => ?_⟩
  · have hsettle : u.settleDue s.part.run.clock = true := by
      unfold FieldUnit.settleDue
      rw [hgate, htimer]
      exact hdue
    have hopen : u.openGate = v := hv.symm
    have hne : u.gate ≠ v.gate := by
      rw [hgate, hv]
      show GateState.settling ≠ GateState.opened
      decide
    have hrewrites := Part.putUnit_rewrites hw ha (some v) false
    rw [hu, unitBitChange_gate hne] at hrewrites
    refine ⟨_, exec_settleTimerExpiry hworking hs hw ha hu hsettle, congrArg (fun p => { s with part := p }) (Part.putUnit_eq ..), ?_, fun b hb => ?_, ?_, ?_,
      fun hroom => ?_⟩
    · exact (s.part.putUnit_frame a _ _).2.2.2.2
    · exact (Part.putUnit_slot _ _ _ _ ha b).trans (if_neg hb)
    · rw [hopen]
      exact (Part.unitAt_putUnit ..).trans (if_pos ⟨rfl, ha⟩)
    · rw [hopen]
      exact State.putUnit_rewritesUnit hw ha (some v)
    · obtain ⟨hport, hqueue⟩ := hrewrites.fits (s.fits_rewrite hroom (le_refl 3) (le_refl 1) (Part.unitWrites_shape ..) true .unit a)
      have hwrites : s.part.unitWrites a (some v) false = mirrorWrites (unitMirrorAddr s.part.base a) (s.part.unitSlot a).version (unitBody (some v)) := by
        rw [Part.unitWrites_eq, State.unitMirror, if_neg (by rw [hu]; exact unitBody_ne_of_gate hne)]
      rw [hopen]
      refine ⟨⟨?_, rfl⟩, ?_⟩
      · rw [← hwrites]
        exact hport
      · refine hrewrites.svc.trans ?_
        rw [hqueue]
        rfl
  · have hstale : e.staleDue s.part.run.clock = true := by
      unfold Entry.staleDue
      rw [htimer]
      exact hdue
    have hexpire : e.expire = e' := he'.symm
    refine ⟨_, exec_staleTimerExpiry hworking hs hw hn he hstale, congrArg (fun p => { s with part := p }) (Part.putEntry_eq ..), fun i hi => ?_, ?_, ?_,
      fun hroom => ?_⟩
    · show (s.part.putEntry n (some e.expire) e.policies.notify.state).entrySlot i = _
      rw [Part.putEntry_slot _ _ _ _ hn, if_neg hi]
    · rw [hexpire]
      show (s.part.putEntry n (some e') e.policies.notify.state).entryAt n = some e'
      rw [Part.entryAt_putEntry, if_pos ⟨rfl, hn⟩]
    · rw [hexpire]
      exact State.putEntry_rewritesEntry hw hn (some e') _
    · obtain ⟨hport, hqueue⟩ := (State.putEntry_rewrites hw hn (some e') e.policies.notify.state).fits
        (s.fits_rewrite hroom (le_refl 3) (le_refl 1) (State.entryMirror_shape ..) _ .directory n)
      rw [hexpire]
      refine ⟨?_, hqueue⟩
      show _ <+: (s.part.putEntry n (some e') e.policies.notify.state).port.fifo
      rw [hport, List.append_assoc]
      exact List.prefix_refl _

end Sys2Proof.Machine
end

section
/-! SUPPORT. Frames with a good header and good contents (R61 to R63); an accepted ANNOUNCE (R33 to R36, R70). -/

namespace Sys2Proof.Machine

/-! ## The frame in reception -/

theorem Part.goodFrame_eq {s : State} {x : Turn} {h : FrameHeader} {kind : Nat} (hf : s.InFrame x h kind) : s.part.goodFrame kind = some (x, h) := by
  obtain ⟨hturn, hphase, hkind⟩ := hf
  unfold Part.goodFrame
  rw [hturn]
  dsimp only
  rw [hphase]
  exact if_pos hkind

theorem Part.goodContents_eq {s : State} {x : Turn} {h : FrameHeader} {kind : Nat} {bytes payload : List Byte} (hf : s.InFrame x h kind)
    (hp : goodPayload h.len.toNat bytes = some payload) : s.part.goodContents kind bytes = some (x, h, payload) := by
  unfold Part.goodContents
  rw [Part.goodFrame_eq hf]
  dsimp only
  rw [hp]

/-- R64: the gap limit begins. -/
def Turn.gapped (now : Word) (t : Turn) : Turn := { t with phase := .gap now }

theorem Part.frameEnds_gap (t : Turn) (p : Part) : p.frameEnds t false = p.setTurn (t.gapped p.run.clock) := rfl

theorem Part.setTurn_works (t : Turn) (p : Part) : p.Works (p.setTurn t) := (p.setLine_serves _).toWorks

/-- A frame that changes nothing but the turn leaves nothing to settle. -/
theorem State.Settled.settle_turn {s : State} (h : s.Settled) (hw : s.part.port.waiting = []) (t : Turn) :
    (s.part.setTurn t).settle = s.part.setTurn t :=
  h.settle_eq hw (h hw).1 rfl rfl rfl rfl

/-! ## ANNOUNCE -/

theorem exec_announce {s : State} {x : Turn} {h : FrameHeader} {bytes payload : List Byte} (hf : s.InFrame x h 14)
    (hp : goodPayload h.len.toNat bytes = some payload) (hport : s.PortFree) :
    exec (.announce bytes) s = .next (s.onPart fun p =>
      ((p.takeAnnounce x.unit h.gen (halfAt payload 0) (natAt payload 2)).frameEnds x false).settle) := by
  show Host.Outcome.next (s.onBlocks _) = _
  rw [State.onBlocks_eq (s.free_of_portFree hport)]
  unfold State.onPart
  dsimp only
  rw [Part.goodContents_eq hf hp]

theorem Part.takeAnnounce_other {p : Part} {a : Nat} {u : FieldUnit} (hu : p.unitAt a = some u) (h1 : u.link ≠ .seeking) (h2 : u.link ≠ .lost) (gen : BitVec 3)
    (cls : Half) (depth : Nat) : p.takeAnnounce a gen cls depth = p := by
  unfold Part.takeAnnounce
  rw [hu]
  exact if_neg (fun e => e.elim h1 h2)

theorem Part.takeAnnounce_accepted {p : Part} {a : Nat} {u : FieldUnit} (hu : p.unitAt a = some u) (h : u.link = .seeking ∨ u.link = .lost) (gen : BitVec 3)
    (cls : Half) (depth : Nat) : p.takeAnnounce a gen cls depth = p.putUnit a (some (u.announce gen cls depth p.run.clock)) true := by
  unfold Part.takeAnnounce
  rw [hu]
  exact if_pos h

theorem FieldUnit.announce_online {u : FieldUnit} (h : u.link = .seeking ∨ u.link = .lost) (gen : BitVec 3) (cls : Half) (depth : Nat) (now : Word) :
    (u.announce gen cls depth now).link = .online := by
  unfold FieldUnit.announce
  rcases h with e | e
  · rw [e]
    exact (FieldUnit.judgeGate_same _ _).2.1
  · rw [e]
    exact (FieldUnit.judgeGate_same _ _).2.1

theorem unitBitChange_link {u v : FieldUnit} (h : u.link ≠ v.link) : unitBitChange (some u) (some v) = true := by
  simp [unitBitChange, h]

/-- Settles O54: a SEEKING or LOST unit is rewritten ONLINE; any other keeps its place. -/
theorem announceMakesTheUnitOnline : Obligations.AnnounceMakesTheUnitOnline := by
  unfold Obligations.AnnounceMakesTheUnitOnline
  intro s x h bytes payload u hf hp hu ha hs hw
  have hexec := exec_announce hf hp ⟨hw, (hs hw).1⟩
  by_cases hlink : u.link = .seeking ∨ u.link = .lost
  · have hannounce := Part.takeAnnounce_accepted hu hlink h.gen (halfAt payload 0) (natAt payload 2)
    generalize hv : u.announce h.gen (halfAt payload 0) (natAt payload 2) s.part.run.clock = v at hannounce
    have honline : v.link = .online := hv ▸ FieldUnit.announce_online hlink ..
    have hne : u.link ≠ v.link := by
      rw [honline]
      rcases hlink with e | e <;> rw [e] <;> decide
    have hrewrites := Part.putUnit_rewrites hw ha (some v) true
    rw [hu, unitBitChange_link hne, Part.unitWrites_always] at hrewrites
    obtain ⟨hboard, hte, hdir, hjw, hwait⟩ := s.part.putUnit_frame x.unit (some v) true
    have hcalm := s.part.putUnit_calm x.unit (some v) true
    have hend : ((s.part.takeAnnounce x.unit h.gen (halfAt payload 0) (natAt payload 2)).frameEnds x false).settle =
        (s.part.putUnit x.unit (some v) true).setTurn (x.gapped s.part.run.clock) := by
      rw [hannounce, Part.frameEnds_gap, hcalm.run]
      exact hs.settle_eq hw (hrewrites.later.trans (hs hw).1) (congrArg (·.finishes) hboard) hcalm.run hte hwait
    rw [hexec]
    unfold State.onPart
    dsimp only
    rw [hend]
    refine ⟨_, v, rfl, rfl, rfl, hcalm.run, ?_, hte, hboard, hdir, hjw, ?_, fun b hb => ?_, fun e => ?_, fun e => ?_, fun _ => ⟨hwait, ?_, hrewrites.svc, ?_, ?_,
      fun hroom => ?_⟩, fun e1 e2 => absurd hlink (fun e => e.elim e1 e2)⟩
    · exact congrArg (fun l : LineController => { l with turn := some (x.gapped s.part.run.clock) }) hcalm.line
    · exact (Part.unitAt_putUnit ..).trans (if_pos ⟨rfl, ha⟩)
    · exact (Part.putUnit_slot _ _ _ _ ha b).trans (if_neg hb)
    · rw [← hv]
      unfold FieldUnit.announce
      rw [e]
      rfl
    · rw [← hv]
      unfold FieldUnit.announce
      rw [e]
      rfl
    · show ((s.part.putUnit x.unit (some v) true).unitSlot x.unit).version = _
      rw [Part.putUnit_slot _ _ _ _ ha, if_pos rfl]
      rfl
    · exact (List.sublist_append_right _ _).trans hrewrites.outstanding
    · obtain ⟨more, hqueue, hbit⟩ := hrewrites.handed rfl
      refine hbit.imp (fun hmem => ?_) id
      show _ ∈ (s.part.putUnit x.unit (some v) true).svc.bankQueue
      rw [hqueue]
      exact List.mem_append_right _ hmem
    · obtain ⟨hport, hqueue⟩ := hrewrites.fits (s.fits_rewrite hroom (le_refl 3) (le_refl 1) (.inr ⟨_, _, _, rfl⟩) true .unit x.unit)
      exact ⟨⟨hport, rfl⟩, hqueue⟩
  · obtain ⟨h1, h2⟩ := not_or.mp hlink
    rw [hexec]
    unfold State.onPart
    dsimp only
    rw [Part.takeAnnounce_other hu h1 h2, Part.frameEnds_gap, hs.settle_turn hw]
    exact ⟨_, u, rfl, rfl, rfl, rfl, rfl, rfl, rfl, rfl, rfl, hu, fun _ _ => rfl, fun e => absurd e h1, fun e => absurd e h2, fun e => absurd e hlink,
      fun _ _ => ⟨rfl, rfl⟩⟩

end Sys2Proof.Machine
end

section
/-! SUPPORT. Protocol errors (R63, R72) and the end of a poll or roll-call turn (R74, R75). -/

namespace Sys2Proof.Machine

/-! ## Headers (R60, R191) -/

theorem extractLsb'_bytes (w : BitVec 32) :
    (w.extractLsb' 24 8 ++ w.extractLsb' 16 8 ++ w.extractLsb' 8 8 ++ w.extractLsb' 0 8 : BitVec 32) = w := by
  refine BitVec.eq_of_getLsbD_eq fun i hi => ?_
  simp only [BitVec.getLsbD_append, BitVec.getLsbD_extractLsb']
  split
  · simp [*]
  · split
    · simp [show i - 8 < 8 by omega, show 8 + (i - 8) = i by omega]
    · split
      · simp [show i - 8 - 8 < 8 by omega, show 16 + (i - 8 - 8) = i by omega]
      · simp [show i - 8 - 8 - 8 < 8 by omega, show 24 + (i - 8 - 8 - 8) = i by omega]

theorem extractLsb'_token (dst src : BitVec 5) (kind : BitVec 4) (gen : BitVec 3) (token : BitVec 4) (code : BitVec 6) (len : BitVec 5) :
    BitVec.extractLsb' 11 4 (dst ++ src ++ kind ++ gen ++ token ++ code ++ len : BitVec 32) = token := by
  refine BitVec.eq_of_getLsbD_eq fun i hi => ?_
  simp only [BitVec.getLsbD_extractLsb', BitVec.getLsbD_append]
  simp [hi, show ¬ 11 + i < 5 by omega, show ¬ 11 + i - 5 < 6 by omega, show 11 + i - 5 - 6 = i by omega]

/-- R191: the token of a header, unpacked from its bytes. -/
theorem FrameHeader.token_ofBytes (h : FrameHeader) :
    (FrameHeader.ofBytes (byteAt h.bytes 0) (byteAt h.bytes 1) (byteAt h.bytes 2) (byteAt h.bytes 3)).token = h.token := by
  exact (congrArg (BitVec.extractLsb' 11 4) (extractLsb'_bytes _)).trans (extractLsb'_token ..)

/-- The token of a head frame, read from the frame as sent. -/
theorem Turn.sentToken_eq {x : Turn} {unit kind command : Nat} {token : BitVec 4} {payload : List Byte}
    (hf : x.frame = headFrame unit kind token.toNat command payload) : x.sentToken = token := by
  unfold Turn.sentToken
  rw [hf]
  unfold headFrame
  dsimp only
  refine (FrameHeader.token_ofBytes _).trans ?_
  exact BitVec.ofNat_toNat _ _

/-! ## Protocol errors (R63, R72) -/

theorem Turn.allowsKind_iff (x : Turn) (k : Nat) :
    x.allowsKind k = true ↔ (x.kind = .poll ∧ k ∈ [8, 9, 13]) ∨ ((∃ seq, x.kind = .command seq) ∧ k ∈ [10, 11, 12]) ∨
      (x.kind = .rollCall ∧ k = 14 ∧ x.frames = 1) := by
  unfold Turn.allowsKind
  cases x.kind <;> simp [or_assoc]

theorem lengthAllowed_iff (k len : Nat) :
    lengthAllowed k len = true ↔ len ≤ 24 ∧ (k = 9 ∨ k = 12 → len = 0) ∧ (k = 11 → len = 1) ∧ (k = 14 → len = 3) := by
  unfold lengthAllowed
  split <;> simp_all

theorem TurnKind.isCommand_iff (k : TurnKind) : k.isCommand = true ↔ ∃ seq, k = .command seq := by
  cases k <;> simp [TurnKind.isCommand]

theorem Turn.beyondLimit_iff (x : Turn) : x.beyondLimit = true ↔ (if x.kind = .poll then x.burstLimit else 1) < x.frames := by
  unfold Turn.beyondLimit
  cases x.kind <;> simp

theorem Turn.beyondLimit_eq (x : Turn) : x.beyondLimit = if x.kind = .poll then decide (x.burstLimit < x.frames) else decide (1 < x.frames) := by
  unfold Turn.beyondLimit
  cases x.kind <;> rfl

/-- R72: the conditions of the table, in its order. -/
theorem Turn.protocolError_table (x : Turn) (h : FrameHeader) {kind length token code : Prop} {sent : BitVec 4}
    (hframe : ∀ seq, x.kind = .command seq → ∃ (command : Nat) (payload : List Byte), x.frame = headFrame x.unit 2 sent.toNat command payload)
    (hkind : kind ↔ x.allowsKind h.kind.toNat = true) (hlength : length ↔ lengthAllowed h.kind.toNat h.len.toNat = true)
    (htoken : token ↔ ∀ seq, x.kind = .command seq → h.token = sent) (hcode : code ↔ (h.kind.toNat = 13 → h.code.toNat ≤ 1 ∧ h.token ≠ 0)) :
    x.protocolError h =
      open Classical in
      if h.src.toNat ≠ x.unit then some .source
      else if h.dst ≠ 0 then some .destination
      else if ¬ kind then some .kind
      else if ¬ length then some .length
      else if ¬ token then some .token
      else if ¬ code then some .code
      else if (if x.kind = .poll then x.burstLimit else 1) < x.frames ∧ h.kind.toNat ≠ 9 then some .excess
      else none := by
  classical
  have htok : (x.kind.isCommand && h.token != x.sentToken) = true ↔ ¬ token := by
    rw [htoken]
    cases hk : x.kind with
    | poll => simp [TurnKind.isCommand]
    | rollCall => simp [TurnKind.isCommand]
    | command seq =>
      obtain ⟨command, payload, hf⟩ := hframe seq hk
      rw [Turn.sentToken_eq hf]
      simp [TurnKind.isCommand]
  have hcod : (h.kind.toNat == 13 && (decide (1 < h.code.toNat) || h.token == 0)) = true ↔ ¬ code := by
    rw [hcode, Bool.and_eq_true, Bool.or_eq_true, beq_iff_eq, decide_eq_true_eq, beq_iff_eq, Classical.not_imp, not_and_or, not_le, not_not]
  have hexc : (x.beyondLimit && h.kind.toNat != 9) = true ↔ (if x.kind = .poll then x.burstLimit else 1) < x.frames ∧ h.kind.toNat ≠ 9 := by
    rw [Bool.and_eq_true, x.beyondLimit_iff, bne_iff_ne]
  unfold Turn.protocolError
  dsimp only
  simp only [htok, hcod, hexc, bne_iff_ne, Bool.not_eq_true', ← Bool.not_eq_true, ← hkind, ← hlength]

/-! ## The end of a turn (R74, R75) -/

/-- R74: the line is free. -/
def Part.freeLine (p : Part) : Part := { p with line := { p.line with turn := none, idleSince := p.run.clock } }

theorem Turn.headerFailed_eq (x : Turn) :
    x.garble.countError = { x with errors := x.errors + 1, answer := if x.kind.isCommand = true ∧ x.frames = 1 then .garbled else x.answer } := by
  unfold Turn.garble Turn.answerFrame Turn.countError
  by_cases h : x.kind.isCommand = true ∧ x.frames = 1
  · rw [if_pos h, if_pos (by rw [h.1, h.2]; rfl)]
  · rw [if_neg h, if_neg (by rwa [Bool.and_eq_true, beq_iff_eq])]

/-- A row that ends the turn in progress. -/
theorem exec_endsTurn {s : State} {c : Instr} {x : Turn} (h : s.EndsTurn c x) (hport : s.PortFree) :
    exec c s = .next (s.onPart fun p => (p.endTurn x).settle) := by
  have hfree := s.free_of_portFree hport
  obtain ⟨y, hturn, ⟨rfl, rfl, since, hphase, hle⟩ | ⟨rfl, rfl, since, hphase, hle⟩ | ⟨rfl, rfl, h, last, hphase, hkind⟩ |
    ⟨rfl, rfl, h, e, hphase⟩ | ⟨hphase, hc, rfl⟩⟩ := h
  · show Host.Outcome.next (s.onBlocks _) = _
    rw [State.onBlocks_eq hfree]
    unfold State.onPart
    dsimp only
    rw [hturn]
    dsimp only
    rw [hphase]
    dsimp only
    rw [if_pos hle]
  · show Host.Outcome.next (s.onBlocks _) = _
    rw [State.onBlocks_eq hfree]
    unfold State.onPart
    dsimp only
    rw [hturn]
    dsimp only
    rw [hphase]
    dsimp only
    rw [if_pos hle]
  · have hframe : s.part.goodFrame 9 = some (x, h) := by
      unfold Part.goodFrame
      rw [hturn]
      dsimp only
      rw [hphase]
      exact if_pos hkind
    show Host.Outcome.next (s.onBlocks _) = _
    rw [State.onBlocks_eq hfree]
    unfold State.onPart
    dsimp only
    rw [hframe]
  · show Host.Outcome.next (s.onBlocks _) = _
    rw [State.onBlocks_eq hfree]
    unfold State.onPart
    dsimp only
    rw [hturn]
    dsimp only
    rw [hphase]
    rfl
  · rw [← Turn.headerFailed_eq]
    rcases hc with rfl | ⟨bytes, low, rfl, hbad⟩
    · show Host.Outcome.next (s.onBlocks _) = _
      rw [State.onBlocks_eq hfree]
      unfold State.onPart
      dsimp only
      rw [hturn]
      dsimp only
      rw [hphase]
      rfl
    · show Host.Outcome.next (s.onBlocks _) = _
      rw [State.onBlocks_eq hfree]
      unfold State.onPart
      dsimp only
      rw [hturn]
      dsimp only
      rw [if_pos hphase, hbad]
      rfl

theorem Part.settle_turn (p : Part) : p.settle.line.turn = p.line.turn := by
  obtain ⟨-, -, -, ⟨hline, -⟩ | ⟨hline, -⟩⟩ := p.settle_facts <;> rw [hline]

/-- R29: the end of a poll or roll-call turn of a unit that is not DEPARTING. -/
theorem Part.endTurn_present {p : Part} {x : Turn} {u : FieldUnit} (hk : x.kind = .poll ∨ x.kind = .rollCall) (hu : p.unitAt x.unit = some u)
    (hl : u.link ≠ .departing) : p.endTurn x = p.freeLine.putUnit x.unit (some (u.takeTurn x.kind x.outcome p.run.clock)) true := by
  have hend : p.endTurn x = p.freeLine.unitTurnEnd x.unit x.kind x.outcome := by
    unfold Part.endTurn
    rcases hk with e | e <;> rw [e] <;> rfl
  rw [hend]
  unfold Part.unitTurnEnd
  rw [show p.freeLine.unitAt x.unit = some u from hu]
  exact if_neg hl

/-- R29, R40: what the end of a poll or roll-call turn of a unit that is not DEPARTING leaves. -/
structure State.TurnCounted (s t : State) (x : Turn) (v : FieldUnit) : Prop where
  pending : t.pending = s.pending
  mem : t.mem = s.mem
  run : t.part.run = s.part.run
  line : t.part.line = { s.part.line with turn := none, idleSince := s.part.run.clock }
  unit : t.part.unitAt x.unit = some v
  others : s.OtherUnits t x.unit
  te : t.part.te = s.part.te
  board : t.part.board = s.part.board
  dir : t.part.dir = s.part.dir
  jw : t.part.jw = s.part.jw
  rewrites : s.part.Rewrites t.part .unitManager (mirrorWrites (unitMirrorAddr s.part.base x.unit) (s.part.unitSlot x.unit).version (unitBody (some v)))
    (unitBitChange (s.part.unitAt x.unit) (some v)) .unit x.unit

theorem State.turnEnd_present {s : State} {c : Instr} {x : Turn} {u : FieldUnit} (hc : s.EndsTurn c x) (hk : x.kind = .poll ∨ x.kind = .rollCall)
    (ha : 1 ≤ x.unit ∧ x.unit ≤ 30) (hu : s.part.unitAt x.unit = some u) (hl : u.link ≠ .departing) (hs : s.Settled) (hw : s.part.port.waiting = []) :
    ∃ t : State, exec c s = .next t ∧ s.TurnCounted t x (u.takeTurn x.kind x.outcome s.part.run.clock) := by
  generalize hv : u.takeTurn x.kind x.outcome s.part.run.clock = v
  have hend : s.part.endTurn x = s.part.freeLine.putUnit x.unit (some v) true := hv ▸ Part.endTurn_present hk hu hl
  obtain ⟨h1, h2, h3, h4, h5, h6⟩ := Part.putUnit_rewrites (p := s.part.freeLine) hw ha (some v) true
  obtain ⟨hboard, hte, hdir, hjw, hwait⟩ := s.part.freeLine.putUnit_frame x.unit (some v) true
  have hcalm := s.part.freeLine.putUnit_calm x.unit (some v) true
  have hsettle : (s.part.freeLine.putUnit x.unit (some v) true).settle = s.part.freeLine.putUnit x.unit (some v) true :=
    hs.settle_eq hw (h5.trans (hs hw).1) (congrArg (·.finishes) hboard) hcalm.run hte hwait
  have hexec := exec_endsTurn hc ⟨hw, (hs hw).1⟩
  unfold State.onPart at hexec
  dsimp only at hexec
  rw [hend, hsettle] at hexec
  refine ⟨_, hexec, rfl, rfl, hcalm.run, hcalm.line, ?_, fun b hb => ?_, hte, hboard, hdir, hjw, ⟨h1, h2, h3, h4, h5, h6⟩⟩
  · exact (Part.unitAt_putUnit ..).trans (if_pos ⟨rfl, ha⟩)
  · exact (Part.putUnit_slot _ _ _ _ ha b).trans (if_neg hb)

theorem Turn.outcome_eq {x : Turn} (h : x.answer ≠ .interrupted) :
    x.outcome = if x.frames = 0 then .noAnswer else if x.errors = 0 then .clean else .errored := if_neg h

end Sys2Proof.Machine
end

section
/-! SUPPORT. The judgement of a header check (R61 to R63, R71 to R73), and frames held or discarded (R69, R74). -/

namespace Sys2Proof.Machine

/-! ## A fault record with room (R163) -/

theorem faultWrites_counts (base index : Nat) (seq : Word) (f : FaultRecord) (now : Word) :
    ((faultWrites base index seq f now).filter fun a => !a.isRead).length = 4 ∧ ((faultWrites base index seq f now).filter Access.isRead).length = 0 :=
  ⟨rfl, rfl⟩

/-- R163: a fault record handed on where nobody waits. -/
theorem Part.raise_fault {p : Part} (hw : p.port.waiting = []) (b : Block) (f : FaultRecord) : Part.raise b [.hand (.fault f)] p = p.takeFault f :=
  Part.raise_free hw b _

theorem Part.takeFault_fits {p : Part} {f : FaultRecord}
    (h : p.port.Fits (faultWrites p.base p.svc.ringIndex p.svc.nextFault f p.run.clock)) :
    p.takeFault f = { p with
      svc := { p.svc with nextFault := nextSequence p.svc.nextFault, ringIndex := (p.svc.ringIndex + 1) % Config.ringSize }
      port := p.port.with (faultWrites p.base p.svc.ringIndex p.svc.nextFault f p.run.clock) } :=
  Part.submit_fits .serviceUnit _
    { p with svc := { p.svc with nextFault := nextSequence p.svc.nextFault, ringIndex := (p.svc.ringIndex + 1) % Config.ringSize } } h

/-- R163: what a record handed on first leaves, and what works on behind it. -/
theorem State.records_of {s t : State} {f : FaultRecord} (hroom : s.PortRoom 4 0) (hw : (s.part.takeFault f).Works t.part)
    (hn : t.part.svc.nextFault = (s.part.takeFault f).svc.nextFault) (hr : t.part.svc.ringIndex = (s.part.takeFault f).svc.ringIndex) : s.Records t f := by
  obtain ⟨hwrites, hreads⟩ := faultWrites_counts s.part.base s.part.svc.ringIndex s.part.svc.nextFault f s.part.run.clock
  have htake := Part.takeFault_fits (p := s.part) (f := f) (s.fits_of_portRoom hroom hwrites.le hreads.le)
  rw [htake] at hw hn hr
  exact ⟨hw.port.fifo, hn, hr⟩

/-! ## The header check -/

theorem exec_frameHeader {s : State} {x : Turn} (hturn : s.part.line.turn = some x) (hphase : x.phase = .header) (hport : s.PortFree) {bytes : List Byte}
    {low : Bool} {h : FrameHeader} (hgood : goodHeader bytes low = some h) :
    exec (.frameHeader bytes low) s = .next (s.onPart fun p => (p.headerGood x h).settle) := by
  show Host.Outcome.next (s.onBlocks _) = _
  rw [State.onBlocks_eq (s.free_of_portFree hport)]
  unfold State.onPart
  dsimp only
  rw [hturn]
  dsimp only
  rw [if_pos hphase, hgood]

/-- R37: a header that shows no other generation leaves the unit as it is. -/
theorem Part.judgeGeneration_same {p : Part} {a : Nat} {gen : BitVec 3}
    (h : ∀ u, p.unitAt a = some u → u.generation = none ∨ u.generation = some gen ∨ u.link = .departing) : p.judgeGeneration a gen = p := by
  unfold Part.judgeGeneration
  cases hu : p.unitAt a with
  | none => rfl
  | some u =>
    dsimp only
    rcases h u hu with e | e | e
    · rw [e]
    · rw [e]
      exact if_pos (.inr rfl)
    · cases u.generation with
      | none => rfl
      | some old => exact if_pos (.inl e)

/-- R72: the turn as a protocol error frame leaves it. -/
def Turn.erred (h : FrameHeader) (e : ProtocolError) (x : Turn) : Turn :=
  { x.garble.countError with protocolLogged := true, phase := .body h (some e) x.beyondLimit }

theorem Turn.erred_eq (h : FrameHeader) (e : ProtocolError) (x : Turn) :
    x.erred h e = { x with
      errors := x.errors + 1
      protocolLogged := true
      answer := if x.kind.isCommand = true ∧ x.frames = 1 then .garbled else x.answer
      phase := .body h (some e) (if x.kind = .poll then decide (x.burstLimit < x.frames) else decide (1 < x.frames)) } := by
  unfold Turn.erred
  rw [x.headerFailed_eq, x.beyondLimit_eq]

theorem Part.headerGood_error {p : Part} {x : Turn} {h : FrameHeader} {e : ProtocolError} (he : x.protocolError h = some e) (hw : p.port.waiting = []) :
    p.headerGood x h = (if x.protocolLogged then p else p.takeFault (x.protocolFault h e)).setTurn (x.erred h e) := by
  unfold Part.headerGood
  rw [he]
  dsimp only
  rw [Part.raise_fault hw]
  rfl

theorem Part.headerGood_good {p : Part} {x : Turn} {h : FrameHeader} (he : x.protocolError h = none) :
    p.headerGood x h = (p.setTurn { x with phase := .body h none false }).judgeGeneration x.unit h.gen := by
  unfold Part.headerGood
  rw [he]

theorem Part.takeFault_later (f : FaultRecord) (p : Part) : (p.takeFault f).port.later = p.port.later := WindowPort.submit_later _ _ _

/-- Settles O46: a failed check ends the turn, a good header begins the body or is a protocol error, which the table judges. -/
theorem headerCheckIsJudged : Obligations.HeaderCheckIsJudged := by
  unfold Obligations.HeaderCheckIsJudged
  intro s x bytes low hturn hphase hs hroom
  have hport : s.PortFree := ⟨hroom.1, hroom.2.1⟩
  have hends : goodHeader bytes low = none → s.EndsTurn (.frameHeader bytes low)
      { x with errors := x.errors + 1, answer := if x.kind.isCommand = true ∧ x.frames = 1 then .garbled else x.answer } := fun hbad =>
    ⟨x, hturn, .inr (.inr (.inr (.inr ⟨hphase, .inr ⟨bytes, low, rfl, hbad⟩, rfl⟩)))⟩
  refine ⟨fun u hbad hkind hanswer hframes ha hu hl => ?failed, fun seq hbad hkind => ?command, fun h hgood herr hgen => ?good, fun h e hgood herr => ?error,
    fun h kind length token code sent hframe hkind hlength htoken hcode => ?table⟩
  case failed =>
    obtain ⟨t, ht, hcount⟩ := State.turnEnd_present (hends hbad) hkind ha hu hl hs hroom.1
    have hcommand : ¬ (x.kind.isCommand = true ∧ x.frames = 1) := fun e => by
      rcases hkind with k | k <;> rw [k] at e <;> exact absurd e.1 (by decide)
    have houtcome : Turn.outcome
        { x with errors := x.errors + 1, answer := if x.kind.isCommand = true ∧ x.frames = 1 then .garbled else x.answer } = .errored := by
      rw [Turn.outcome_eq (by rw [if_neg hcommand]; exact hanswer), if_neg hframes, if_neg (Nat.succ_ne_zero _)]
    rw [houtcome] at hcount
    exact ⟨t, ht, hcount.pending, hcount.mem, hcount.run, hcount.line, hcount.unit, hcount.others, hcount.te, hcount.board, hcount.dir, hcount.jw⟩
  case command =>
    refine ⟨_, exec_endsTurn (hends hbad) hport, rfl, rfl, ?_, hends hbad⟩
    refine (Part.settle_turn _).trans ?_
    rw [(Part.endTurn_facts _ s.part).2.2]
  case good =>
    rw [exec_frameHeader hturn hphase hport hgood]
    unfold State.onPart
    dsimp only
    rw [Part.headerGood_good herr, Part.judgeGeneration_same (p := s.part.setTurn { x with phase := .body h none false }) hgen, hs.settle_turn hroom.1]
    rfl
  case error =>
    have hexec := exec_frameHeader hturn hphase hport hgood
    unfold State.onPart at hexec
    dsimp only at hexec
    rw [Part.headerGood_error herr hroom.1, Turn.erred_eq] at hexec
    by_cases hlogged : x.protocolLogged = true
    · rw [if_pos hlogged, hs.settle_turn hroom.1] at hexec
      exact ⟨_, hexec, rfl, fun _ => ⟨rfl, rfl⟩, fun e => absurd (hlogged.symm.trans e) (by decide)⟩
    · have hsettle : ∀ t : Turn, ((s.part.takeFault (x.protocolFault h e)).setTurn t).settle = (s.part.takeFault (x.protocolFault h e)).setTurn t := fun t =>
        hs.settle_eq hroom.1 ((Part.takeFault_later _ _).trans hport.2) rfl rfl rfl rfl
      rw [if_neg hlogged, hsettle] at hexec
      exact ⟨_, hexec, rfl, fun e => absurd e hlogged, fun _ => s.records_of hroom (Part.setTurn_works _ _) rfl rfl⟩
  case table =>
    rw [x.protocolError_table h hframe (hkind.trans (x.allowsKind_iff _).symm) (hlength.trans ?lengths) htoken hcode]
    case lengths =>
      rw [lengthAllowed_iff, ← BitVec.toNat_inj, ← BitVec.toNat_inj, ← BitVec.toNat_inj]
      rfl
    refine ⟨fun h1 => if_pos h1, fun h1 h2 => ?_, fun h1 h2 => ⟨fun h3 => ?_, fun h3 h4 => ?_, fun h3 h4 h5 => ?_, fun h3 h4 h5 h6 => ?_,
      fun h3 h4 h5 h6 h7 h8 => ?_, fun h3 h4 h5 h6 h7 => ?_⟩⟩
    · rw [if_neg (not_not.mpr h1), if_pos h2]
    · rw [if_neg (not_not.mpr h1), if_neg (not_not.mpr h2), if_pos h3]
    · rw [if_neg (not_not.mpr h1), if_neg (not_not.mpr h2), if_neg (not_not.mpr h3), if_pos h4]
    · rw [if_neg (not_not.mpr h1), if_neg (not_not.mpr h2), if_neg (not_not.mpr h3), if_neg (not_not.mpr h4), if_pos h5]
    · rw [if_neg (not_not.mpr h1), if_neg (not_not.mpr h2), if_neg (not_not.mpr h3), if_neg (not_not.mpr h4), if_neg (not_not.mpr h5), if_pos h6]
    · rw [if_neg (not_not.mpr h1), if_neg (not_not.mpr h2), if_neg (not_not.mpr h3), if_neg (not_not.mpr h4), if_neg (not_not.mpr h5),
        if_neg (not_not.mpr h6), if_pos ⟨h8, h7⟩]
    · rw [if_neg (not_not.mpr h1), if_neg (not_not.mpr h2), if_neg (not_not.mpr h3), if_neg (not_not.mpr h4), if_neg (not_not.mpr h5),
        if_neg (not_not.mpr h6), if_neg fun e => h7.elim e.2 fun h => absurd e.1 (Nat.not_lt.mpr h)]

/-! ## Frames held or discarded -/

/-- R69: the answer frames. -/
theorem exec_answerFrame {s : State} {x : Turn} {h : FrameHeader} {bytes payload : List Byte} {c : Instr} {answer : Answer}
    (hturn : s.part.line.turn = some x) (hphase : x.phase = .body h none false) (hp : goodPayload h.len.toNat bytes = some payload)
    (hc : c = .reply bytes ∧ h.kind.toNat = 10 ∧ answer = .reply payload ∨ c = .refuse bytes ∧ h.kind.toNat = 11 ∧ answer = .refuse (byteAt payload 0) ∨
      c = .defer ∧ h.kind.toNat = 12 ∧ answer = .defer) :
    exec c s = .next (s.onPart fun p => (p.holdAnswer x answer).settle) := by
  rcases hc with ⟨rfl, hk, rfl⟩ | ⟨rfl, hk, rfl⟩ | ⟨rfl, hk, rfl⟩
  · show Host.Outcome.next (s.onPart _) = _
    unfold State.onPart
    dsimp only
    rw [Part.goodContents_eq ⟨hturn, hphase, hk⟩ hp]
  · show Host.Outcome.next (s.onPart _) = _
    unfold State.onPart
    dsimp only
    rw [Part.goodContents_eq ⟨hturn, hphase, hk⟩ hp]
  · show Host.Outcome.next (s.onPart _) = _
    unfold State.onPart
    dsimp only
    rw [Part.goodFrame_eq ⟨hturn, hphase, hk⟩]

theorem goodPayload_bad {len : Nat} {bytes : List Byte} (hl : len ≠ 0) (h : bytes.drop len ≠ crc16Bytes (bytes.take len)) : goodPayload len bytes = none := by
  unfold goodPayload
  rw [if_neg hl, if_neg (fun e => h e.2)]

/-- R62, R71: a frame whose payload check fails. -/
theorem exec_payloadFailure {s : State} {x : Turn} {h : FrameHeader} {c : Instr} (hturn : s.part.line.turn = some x) (hphase : x.phase = .body h none false)
    (hport : s.PortFree) (hlen : h.len ≠ 0)
    (hc : c = .byteGap ∨ ∃ bytes low, c = .garbled bytes low ∧ bytes.length = h.len.toNat + 2 ∧
      (low = true ∨ bytes.drop h.len.toNat ≠ crc16Bytes (bytes.take h.len.toNat))) :
    exec c s = .next (s.onPart fun p => (p.frameEnds x.payloadFailure false).settle) := by
  have hnat : h.len.toNat ≠ 0 := fun e => hlen (BitVec.toNat_inj.mp e)
  rcases hc with rfl | ⟨bytes, low, rfl, hlength, hbad⟩
  · show Host.Outcome.next (s.onBlocks _) = _
    rw [State.onBlocks_eq (s.free_of_portFree hport)]
    unfold State.onPart
    dsimp only
    rw [hturn]
    dsimp only
    rw [hphase]
    dsimp only
    rw [if_neg hlen]
  · show Host.Outcome.next (s.onBlocks _) = _
    rw [State.onBlocks_eq (s.free_of_portFree hport)]
    unfold State.onPart
    dsimp only
    rw [hturn]
    dsimp only
    rw [hphase]
    dsimp only
    rw [if_pos ⟨hlen, hlength, hbad.imp_right (goodPayload_bad hnat)⟩]

theorem Turn.payloadFailure_eq (x : Turn) : x.payloadFailure = { x with
    answer := if x.kind.isCommand = true ∧ x.frames = 1 then .garbled else x.answer
    errors := if x.streakMode = .any then x.errors + 1 else x.errors } := by
  have hgarble : x.garble = { x with answer := if x.kind.isCommand = true ∧ x.frames = 1 then .garbled else x.answer } := by
    unfold Turn.garble Turn.answerFrame
    by_cases h : x.kind.isCommand = true ∧ x.frames = 1
    · rw [if_pos h, if_pos (by rw [h.1, h.2]; rfl)]
    · rw [if_neg h, if_neg (by rwa [Bool.and_eq_true, beq_iff_eq])]
  unfold Turn.payloadFailure
  split
  · rw [x.headerFailed_eq]
  · exact hgarble

theorem exec_protocolErrorFrameEnd {s : State} {x : Turn} {h : FrameHeader} {e : ProtocolError} {last : Bool} (hturn : s.part.line.turn = some x)
    (hphase : x.phase = .body h (some e) last) (hport : s.PortFree) :
    exec .protocolErrorFrameEnd s = .next (s.onPart fun p => (p.frameEnds x last).settle) := by
  show Host.Outcome.next (s.onBlocks _) = _
  rw [State.onBlocks_eq (s.free_of_portFree hport)]
  unfold State.onPart
  dsimp only
  rw [hturn]
  dsimp only
  rw [hphase]

/-- A row that leaves the gap limit running. -/
theorem State.Settled.exec_gap {s : State} {c : Instr} {x : Turn} (hs : s.Settled) (hw : s.part.port.waiting = [])
    (hexec : exec c s = .next (s.onPart fun p => (p.frameEnds x false).settle)) :
    exec c s = .next { s with part := { s.part with line := { s.part.line with turn := some { x with phase := .gap s.part.run.clock } } } } := by
  unfold State.onPart at hexec
  dsimp only at hexec
  rw [Part.frameEnds_gap, hs.settle_turn hw] at hexec
  exact hexec

/-- Settles O52: a frame that ends leaves the gap limit running, or ends the turn. -/
theorem framesAreHeldOrDiscarded : Obligations.FramesAreHeldOrDiscarded := by
  unfold Obligations.FramesAreHeldOrDiscarded
  intro s x h hturn hs hw
  have hport : s.PortFree := ⟨hw, (hs hw).1⟩
  have hheader : x.phase = .header → s.EndsTurn .byteGap
      { x with errors := x.errors + 1, answer := if x.kind.isCommand = true ∧ x.frames = 1 then .garbled else x.answer } := fun hphase =>
    ⟨x, hturn, .inr (.inr (.inr (.inr ⟨hphase, .inl rfl, rfl⟩)))⟩
  refine ⟨fun bytes payload c answer hp hphase hc => ?held, fun c hphase hlen hc => ?discarded, fun e hphase => ?ended, fun seq hphase hkind => ?command,
    fun c u hc hkind hanswer hframes herrors ha hu hl => ?turn⟩
  case held => exact hs.exec_gap hw (exec_answerFrame hturn hphase hp hc)
  case discarded =>
    have hexec := exec_payloadFailure hturn hphase hport hlen hc
    rw [x.payloadFailure_eq] at hexec
    exact hs.exec_gap hw hexec
  case ended => exact hs.exec_gap hw (exec_protocolErrorFrameEnd hturn hphase hport)
  case command =>
    refine ⟨_, exec_endsTurn (hheader hphase) hport, rfl, rfl, ?_, hheader hphase⟩
    refine (Part.settle_turn _).trans ?_
    rw [(Part.endTurn_facts _ s.part).2.2]
  case turn =>
    have hcommand : ¬ (x.kind.isCommand = true ∧ x.frames = 1) := fun e => by
      rcases hkind with k | k <;> rw [k] at e <;> exact absurd e.1 (by decide)
    rcases hc with ⟨rfl, hphase⟩ | ⟨rfl, e, hphase⟩
    · obtain ⟨t, ht, hcount⟩ := State.turnEnd_present (hheader hphase) hkind ha hu hl hs hw
      have houtcome : Turn.outcome
          { x with errors := x.errors + 1, answer := if x.kind.isCommand = true ∧ x.frames = 1 then .garbled else x.answer } = .errored := by
        rw [Turn.outcome_eq (by rw [if_neg hcommand]; exact hanswer), if_neg hframes, if_neg (Nat.succ_ne_zero _)]
      rw [houtcome] at hcount
      exact ⟨t, ht, hcount.line, hcount.unit, hcount.others, hcount.te⟩
    · have hends : s.EndsTurn .protocolErrorFrameEnd x := ⟨x, hturn, .inr (.inr (.inr (.inl ⟨rfl, rfl, h, e, hphase⟩)))⟩
      obtain ⟨t, ht, hcount⟩ := State.turnEnd_present hends hkind ha hu hl hs hw
      rw [Turn.outcome_eq hanswer, if_neg hframes, if_neg (herrors rfl)] at hcount
      exact ⟨t, ht, hcount.line, hcount.unit, hcount.others, hcount.te⟩

end Sys2Proof.Machine
end

section
/-! SUPPORT. Raising and handing on into any port (R174), and the removal of a DEPARTING unit with the DISMISS that waits for it (R44, R45). -/

namespace Sys2Proof.Machine

/-! ## What a block has raised, and what of it waits -/

/-- The accesses raised, and behind them those of one block that wait for room. -/
def WindowPort.ofBlock (b : Block) (w : WindowPort) : List Access := w.fifo ++ WaitEntry.accesses (w.waiting.filter fun e => e.block == b)

theorem WaitEntry.accesses_filter (f : WaitEntry → Bool) (l : List WaitEntry) : (WaitEntry.accesses (l.filter f)).Sublist (WaitEntry.accesses l) := by
  induction l with
  | nil => exact List.Sublist.refl _
  | cons e rest ih =>
    rw [List.filter_cons]
    split
    · exact (List.Sublist.refl _).append ih
    · exact ih.trans (List.sublist_append_right _ _)

theorem WindowPort.ofBlock_outstanding (b : Block) (w : WindowPort) : (w.ofBlock b).Sublist w.outstanding := by
  rw [WindowPort.outstanding_eq]
  exact (List.sublist_append_right _ _).append (WaitEntry.accesses_filter _ _)

theorem WaitEntry.ListExtends.filter {l l' : List WaitEntry} (h : WaitEntry.ListExtends l l') (b : Block) :
    WaitEntry.ListExtends (l.filter fun e => e.block == b) (l'.filter fun e => e.block == b) := by
  induction l generalizing l' with
  | nil => trivial
  | cons e l ih =>
    match l' with
    | [] => exact h.elim
    | e' :: l' =>
      have hblock : (e'.block == b) = (e.block == b) := by rw [h.1.1]
      rw [List.filter_cons, List.filter_cons, hblock]
      split
      · exact ⟨h.1, ih h.2⟩
      · exact ih h.2

theorem WindowPort.Grows.ofBlock {w w' : WindowPort} (h : w.Grows w') (b : Block) : (w.ofBlock b).Sublist (w'.ofBlock b) :=
  h.fifo.sublist.append (h.waiting.filter b).accesses

theorem WaitEntry.accesses_items (b : Block) (m : List Item) (l : List Access) (n : List Item) :
    (WaitEntry.accesses [{ block := b, items := m }] ++ l).Sublist (WaitEntry.accesses [{ block := b, items := m ++ (l.map Item.access ++ n) }]) := by
  rw [← WaitEntry.accesses_singleton, ← List.append_assoc]
  exact WaitEntry.ListExtends.accesses (l := [_]) (l' := [_]) ⟨⟨rfl, List.prefix_append _ _⟩, trivial⟩

theorem WaitEntry.accesses_nil : WaitEntry.accesses [] = [] := rfl

theorem WaitEntry.accesses_cons (e : WaitEntry) (l : List WaitEntry) : WaitEntry.accesses (e :: l) = WaitEntry.accesses [e] ++ WaitEntry.accesses l := by
  simp [WaitEntry.accesses]

/-- What joins the entries of a block comes behind what it has. -/
theorem WaitEntry.accesses_joined (b : Block) (l : List Access) (n : List Item) {m : List WaitEntry} (hm : ∃ e ∈ m, e.block = b) :
    (WaitEntry.accesses (m.filter fun e => e.block == b) ++ l).Sublist (WaitEntry.accesses
      ((m.map fun e => if e.block == b then { e with items := e.items ++ (l.map Item.access ++ n) } else e).filter fun e => e.block == b)) := by
  induction m with
  | nil => exact absurd hm (by simp)
  | cons e rest ih =>
    rw [List.map_cons]
    by_cases he : e.block = b
    · have hitems := WaitEntry.accesses_items e.block e.items l n
      rw [if_pos (by rw [he, beq_self_eq_true]), List.filter_cons_of_pos (by simpa using he), List.filter_cons_of_pos (by simpa using he)]
      rw [WaitEntry.accesses_cons e (rest.filter fun e => e.block == b), WaitEntry.accesses_cons { e with items := e.items ++ (l.map Item.access ++ n) }
        ((rest.map fun e => if e.block == b then { e with items := e.items ++ (l.map Item.access ++ n) } else e).filter fun e => e.block == b)]
      by_cases hrest : ∃ e ∈ rest, e.block = b
      · rw [List.append_assoc]
        exact ((List.sublist_append_left _ _).trans hitems).append (ih hrest)
      · have hnil : rest.filter (fun e => e.block == b) = [] := List.filter_eq_nil_iff.mpr fun x hx => by
          simpa using fun e' => hrest ⟨x, hx, e'⟩
        rw [hnil, WaitEntry.accesses_nil, List.append_nil]
        exact hitems.trans (List.sublist_append_left _ _)
    · rw [if_neg (by simpa using he), List.filter_cons_of_neg (by simpa using he), List.filter_cons_of_neg (by simpa using he)]
      obtain ⟨x, hx, hb⟩ := hm
      rcases List.mem_cons.mp hx with rfl | hx
      · exact absurd hb he
      · exact ih ⟨x, hx, hb⟩

theorem WindowPort.park_ofBlock (b : Block) (l : List Access) (n : List Item) (w : WindowPort) :
    (w.ofBlock b ++ l).Sublist ((w.park b (l.map Item.access ++ n)).ofBlock b) := by
  unfold WindowPort.ofBlock
  rw [WindowPort.park_fifo, List.append_assoc]
  refine (List.Sublist.refl _).append ?_
  unfold WindowPort.park
  split
  · next h => exact WaitEntry.accesses_joined b l n (WindowPort.waits_iff.mp h)
  · next h =>
    have hnil : w.waiting.filter (fun e => e.block == b) = [] := List.filter_eq_nil_iff.mpr fun x hx e => h (WindowPort.waits_iff.mpr ⟨x, hx, by simpa using e⟩)
    rw [List.filter_append, hnil]
    have hself : [({ block := b, items := l.map Item.access ++ n } : WaitEntry)].filter (fun e => e.block == b) =
        [{ block := b, items := l.map Item.access ++ n }] := by simp
    rw [hself]
    exact WaitEntry.accesses_items b [] l n

/-- R174: the accesses of a block stand behind those it raised before, raised or waiting. -/
theorem Part.raise_ofBlock (b : Block) (l : List Access) {n : List Item} (hn : n.all Item.handed = true) (p : Part) :
    (p.port.ofBlock b ++ l).Sublist ((Part.raise b (l.map Item.access ++ n) p).port.ofBlock b) := by
  unfold Part.raise
  split
  · exact p.port.park_ofBlock b l n
  · next hwaits =>
    have hwaits : p.port.waits b = false := Bool.eq_false_iff.mpr hwaits
    clear * - hwaits hn
    induction l generalizing p with
    | nil =>
      rw [List.append_nil]
      exact (Part.raiseFree_serves (.inr hn) p).port.ofBlock b
    | cons a rest ih =>
      rw [List.map_cons, List.cons_append, Part.raiseFree]
      split
      · have hnil : p.port.waiting.filter (fun e => e.block == b) = [] := List.filter_eq_nil_iff.mpr fun x hx e => by
          have := WindowPort.waits_iff.mpr ⟨x, hx, by simpa using e⟩
          rw [hwaits] at this
          exact absurd this (by decide)
        have hpush : (p.port.push a).ofBlock b = p.port.ofBlock b ++ [a] := by
          unfold WindowPort.ofBlock WindowPort.push
          simp [hnil, WaitEntry.accesses]
        have h := ih { p with port := p.port.push a } hwaits
        rwa [show ({ p with port := p.port.push a } : Part).port = p.port.push a from rfl, hpush, List.append_assoc, List.singleton_append] at h
      · exact p.port.park_ofBlock b (a :: rest) n

/-- R40, R153: a bank bit handed on behind accesses is in the bank queue, or waits with them. -/
theorem Part.raise_bit (b : Block) (l : List Access) (m : MapKind) (i : Nat) (p : Part) :
    p.BitOn (Part.raise b (l.map Item.access ++ [.hand (.bankBit m i)]) p) b m i := by
  have hpark : ∀ (k : List Access) (w : WindowPort), ∃ e ∈ (w.park b (k.map Item.access ++ [.hand (.bankBit m i)])).waiting,
      e.block = b ∧ .hand (.bankBit m i) ∈ e.items := by
    intro k w
    unfold WindowPort.park
    split
    · next h =>
      obtain ⟨e, he, hb⟩ := WindowPort.waits_iff.mp h
      exact ⟨_, List.mem_map.mpr ⟨e, he, rfl⟩, by simp [hb], by simp [hb]⟩
    · exact ⟨_, List.mem_append_right _ List.mem_cons_self, rfl, by simp⟩
  unfold Part.raise
  split
  · exact ⟨[], by simp, .inr (hpark l _)⟩
  · induction l generalizing p with
    | nil =>
      refine ⟨[.update p.svc.activeBank m i], ?_, .inl List.mem_cons_self⟩
      show (p.takeBankBit m i).svc.bankQueue = _
      unfold Part.takeBankBit
      dsimp only
      split <;> rfl
    | cons a rest ih =>
      rw [List.map_cons, List.cons_append, Part.raiseFree]
      split
      · next hwaits _ => exact ih { p with port := p.port.push a } hwaits
      · exact ⟨[], by simp, .inr (hpark (a :: rest) _)⟩

/-- R153: raising accesses and perhaps a bank bit changes nothing of the Service Unit but its bank queue. -/
theorem Part.raise_svc (b : Block) (l : List Access) (bit : Bool) (m : MapKind) (i : Nat) (p : Part) :
    (Part.raise b (l.map Item.access ++ if bit then [.hand (.bankBit m i)] else []) p).svc = { p.svc with
      bankQueue := (Part.raise b (l.map Item.access ++ if bit then [.hand (.bankBit m i)] else []) p).svc.bankQueue } ∧
    (bit = false → (Part.raise b (l.map Item.access ++ if bit then [.hand (.bankBit m i)] else []) p).svc.bankQueue = p.svc.bankQueue) := by
  unfold Part.raise
  split
  · exact ⟨rfl, fun _ => rfl⟩
  · induction l generalizing p with
    | nil =>
      cases bit with
      | false => exact ⟨rfl, fun _ => rfl⟩
      | true =>
        refine ⟨?_, fun h => absurd h (by simp)⟩
        show (p.takeBankBit m i).svc = { p.svc with bankQueue := (p.takeBankBit m i).svc.bankQueue }
        unfold Part.takeBankBit
        dsimp only
        split <;> rfl
    | cons a rest ih =>
      rw [List.map_cons, List.cons_append, Part.raiseFree]
      split
      · next hwaits _ => exact ih { p with port := p.port.push a } hwaits
      · exact ⟨rfl, fun _ => rfl⟩

/-! ## A unit's place written into any port (R40) -/

/-- R40: how a change of a place is raised. -/
theorem Part.putUnit_raise {a : Nat} (ha : 1 ≤ a ∧ a ≤ 30) (new : Option FieldUnit) (f : Bool) (p : Part) :
    ∃ v : Vector UnitSlot 32, p.putUnit a new f = Part.raise .unitManager ((p.unitWrites a new f).map Item.access ++
      if unitBitChange (p.unitAt a) new then [.hand (.bankBit .unit a)] else []) { p with um := { p.um with slots := v } } := by
  unfold Part.putUnit
  rw [if_pos ha]
  exact ⟨_, rfl⟩

theorem bitItems_handed (bit : Bool) (m : MapKind) (i : Nat) : (if bit then [Item.hand (.bankBit m i)] else []).all Item.handed = true := by
  cases bit <;> rfl

theorem Part.putUnit_mirror {a : Nat} (ha : 1 ≤ a ∧ a ≤ 30) (new : Option FieldUnit) (f : Bool) (p : Part) :
    (p.port.ofBlock .unitManager ++ p.unitWrites a new f).Sublist ((p.putUnit a new f).port.ofBlock .unitManager) := by
  obtain ⟨v, hv⟩ := Part.putUnit_raise ha new f p
  rw [hv]
  exact Part.raise_ofBlock .unitManager (p.unitWrites a new f) (bitItems_handed _ _ _) { p with um := { p.um with slots := v } }

theorem Part.putUnit_svc (a : Nat) (new : Option FieldUnit) (f : Bool) (p : Part) :
    (p.putUnit a new f).svc = { p.svc with bankQueue := (p.putUnit a new f).svc.bankQueue } := by
  by_cases ha : 1 ≤ a ∧ a ≤ 30
  · obtain ⟨v, hv⟩ := Part.putUnit_raise ha new f p
    rw [hv]
    exact (Part.raise_svc .unitManager (p.unitWrites a new f) _ .unit a { p with um := { p.um with slots := v } }).1
  · unfold Part.putUnit
    rw [if_neg ha]

theorem Part.putUnit_bit {a : Nat} (ha : 1 ≤ a ∧ a ≤ 30) {new : Option FieldUnit} {p : Part} (h : unitBitChange (p.unitAt a) new = true) (f : Bool) :
    p.BitOn (p.putUnit a new f) .unitManager .unit a := by
  obtain ⟨v, hv⟩ := Part.putUnit_raise ha new f p
  rw [hv, h]
  exact Part.raise_bit .unitManager (p.unitWrites a new f) .unit a { p with um := { p.um with slots := v } }

theorem Part.putUnit_nobit {a : Nat} (ha : 1 ≤ a ∧ a ≤ 30) {new : Option FieldUnit} {p : Part} (h : unitBitChange (p.unitAt a) new = false) (f : Bool) :
    (p.putUnit a new f).svc.bankQueue = p.svc.bankQueue := by
  obtain ⟨v, hv⟩ := Part.putUnit_raise ha new f p
  rw [hv, h]
  exact (Part.raise_svc .unitManager (p.unitWrites a new f) false .unit a { p with um := { p.um with slots := v } }).2 rfl

theorem WindowPort.submit_unwaited {b c : Block} (h : c ≠ b) (l : List Access) {w : WindowPort} (hw : w.waits c = false) :
    (w.submit b l).waits c = false := by
  have hfree : (WindowPort.submitFree b l w).waits c = false := by
    induction l generalizing w with
    | nil => exact hw
    | cons a rest ih =>
      unfold WindowPort.submitFree
      split
      · exact ih hw
      · rw [WindowPort.park_waits h]
        exact hw
  unfold WindowPort.submit
  split
  · rw [WindowPort.park_waits h]
    exact hw
  · exact hfree

/-- R174: with room for its mirror writes the Unit Manager does not wait. -/
theorem Part.putUnit_goesOn {a : Nat} (ha : 1 ≤ a ∧ a ≤ 30) {new : Option FieldUnit} {f : Bool} {p : Part} (h : p.port.Fits (p.unitWrites a new f)) :
    (p.putUnit a new f).port.waits .unitManager = false := by
  obtain ⟨v, hv⟩ := Part.putUnit_raise ha new f p
  rw [hv, Part.raise_free (by exact h.1), Part.raiseFree_accesses _ _ _ { p with um := { p.um with slots := v } } h]
  have hraised : ({ p with um := { p.um with slots := v }, port := p.port.with (p.unitWrites a new f) } : Part).port.waits .unitManager = false :=
    WindowPort.not_waits h.1 _
  cases unitBitChange (p.unitAt a) new with
  | false => exact hraised
  | true =>
    show (Part.takeBankBit .unit a _).port.waits .unitManager = false
    unfold Part.takeBankBit
    dsimp only
    split
    · refine WindowPort.submit_unwaited (by decide) _ hraised
    · exact hraised

/-! ## The completion of a request behind its block's accesses -/

theorem WindowPort.park_last {b : Block} {w : WindowPort} (h : w.waits b = true) (i : Item) :
    ∃ e ∈ (w.park b [i]).waiting, e.block = b ∧ e.items.getLast? = some i := by
  obtain ⟨e, he, hb⟩ := WindowPort.waits_iff.mp h
  unfold WindowPort.park
  rw [if_pos h]
  exact ⟨_, List.mem_map.mpr ⟨e, he, rfl⟩, by simp [hb], by simp [hb]⟩

/-- R174: a block that waits keeps the completion behind its accesses. -/
theorem Part.finishRequest_cases (b : Block) (n : Nat) (r : Result) (p : Part) :
    (p.port.waits b = false ∧ p.finishRequest b n r = p.completeRequest n r) ∨
    (p.port.waits b = true ∧ p.finishRequest b n r = { p with port := p.port.park b [.hand (.complete n r)] }) := by
  unfold Part.finishRequest Part.raise
  cases h : p.port.waits b with
  | false => exact .inl ⟨rfl, rfl⟩
  | true => exact .inr ⟨rfl, rfl⟩

/-! ## The removal of a DEPARTING unit (R44, R45) -/

/-- R44: the finish of the DISMISS of the unit at `a`, when from `p` to `q` it has completed. -/
def Part.dismissDone (p q : Part) (a : Nat) : List Finish :=
  (p.um.dismissWait.toList.filter fun d => d.unit == a && (p.heldOf d.seq).isSome && (q.heldOf d.seq).isNone).map fun d => ⟨d.seq, true, false⟩

/-- R44: the result of the DISMISS that waited. -/
def WaitingDismiss.result (d : WaitingDismiss) : Result := { outcome := .ok, fields := [byteOf d.retired, byteOf d.ended] }

/-- R44, R45: what the removal of the unit at an address leaves. -/
structure Part.Removed (p q : Part) (a : Nat) : Prop where
  works : p.Serves q
  calm : p.Calm q
  te : q.te = p.te
  dir : q.dir = p.dir
  jw : q.jw = p.jw
  svc : q.svc = { p.svc with bankQueue := q.svc.bankQueue }
  slot : q.unitSlot a = { version := (p.unitSlot a).version + 2, place := none }
  others : ∀ b, b ≠ a → q.unitSlot b = p.unitSlot b
  shows : (p.port.ofBlock .unitManager ++ mirrorWrites (unitMirrorAddr p.base a) (p.unitSlot a).version (unitBody none)).Sublist
    (q.port.ofBlock .unitManager)
  bit : p.BitOn q .unitManager .unit a
  board : q.board = { p.board with held := q.board.held, finishes := p.board.finishes ++ p.dismissDone q a, completions := q.board.completions }
  held : q.board.held.Sublist p.board.held
  heldOf : ∀ n, (∀ f ∈ p.dismissDone q a, f.seq ≠ n) → q.heldOf n = p.heldOf n
  kept : (∀ d, p.um.dismissWait = some d → d.unit ≠ a) → q.um.dismissWait = p.um.dismissWait ∧ q.board = p.board
  dismissed : ∀ d, p.um.dismissWait = some d → d.unit = a → q.um.dismissWait = none ∧
    ((∀ h, p.heldOf d.seq = some h → p.Shows q (h.completion d.result p.run.clock)) ∨
     (∃ e ∈ q.port.waiting, e.block = .unitManager ∧ e.items.getLast? = some (.hand (.complete d.seq d.result))) ∧ q.heldOf d.seq = p.heldOf d.seq)
  done : p.port.Fits (mirrorWrites (unitMirrorAddr p.base a) (p.unitSlot a).version (unitBody none)) →
    ∀ d h, p.um.dismissWait = some d → d.unit = a → p.heldOf d.seq = some h → p.Shows q (h.completion d.result p.run.clock)
  fits : p.port.Fits (mirrorWrites (unitMirrorAddr p.base a) (p.unitSlot a).version (unitBody none) ++ p.bankBitRead .unit a) →
    p.port.fifo ++ (mirrorWrites (unitMirrorAddr p.base a) (p.unitSlot a).version (unitBody none) ++ p.bankBitRead .unit a) <+: q.port.fifo ∧
    q.svc.bankQueue = p.svc.bankQueue ++ [.update p.svc.activeBank .unit a]

theorem unitBody_departing {u : FieldUnit} (h : u.link = .departing) : unitBody (some u) ≠ unitBody none := fun e => by
  have hcode := unitBody_link u
  rw [e, h] at hcode
  exact absurd hcode (by decide)

/-- R40: the place of a DEPARTING unit emptied. -/
theorem Part.emptied_facts {p : Part} {a : Nat} {u : FieldUnit} (ha : 1 ≤ a ∧ a ≤ 30) (hu : p.unitAt a = some u) (hl : u.link = .departing) :
    p.unitWrites a none false = mirrorWrites (unitMirrorAddr p.base a) (p.unitSlot a).version (unitBody none) ∧
    unitBitChange (p.unitAt a) none = true ∧
    (∀ b, (p.putUnit a none false).unitSlot b = if b = a then { version := (p.unitSlot a).version + 2, place := none } else p.unitSlot b) := by
  have hne : (false || unitBody (p.unitAt a) != unitBody none) = true := by
    rw [hu, Bool.false_or, bne_iff_ne]
    exact unitBody_departing hl
  refine ⟨if_pos hne, by rw [hu]; rfl, fun b => ?_⟩
  rw [Part.putUnit_slot a none false p ha b, if_pos hne]

/-- What the removal leaves, from the place emptied on. -/
theorem Part.Removed.of_emptied {p q : Part} {a : Nat} {u : FieldUnit} (ha : 1 ≤ a ∧ a ≤ 30) (hu : p.unitAt a = some u) (hl : u.link = .departing)
    (works : (p.putUnit a none false).Serves q) (calm : (p.putUnit a none false).Calm q) (te : q.te = p.te) (dir : q.dir = p.dir) (jw : q.jw = p.jw)
    (svc : q.svc = (p.putUnit a none false).svc) (slots : q.um.slots = (p.putUnit a none false).um.slots)
    (board : q.board = { p.board with held := q.board.held, finishes := p.board.finishes ++ p.dismissDone q a, completions := q.board.completions })
    (held : q.board.held.Sublist p.board.held) (heldOf : ∀ n, (∀ f ∈ p.dismissDone q a, f.seq ≠ n) → q.heldOf n = p.heldOf n)
    (kept : (∀ d, p.um.dismissWait = some d → d.unit ≠ a) → q.um.dismissWait = p.um.dismissWait ∧ q.board = p.board)
    (dismissed : ∀ d, p.um.dismissWait = some d → d.unit = a → q.um.dismissWait = none ∧
      ((∀ h, p.heldOf d.seq = some h → p.Shows q (h.completion d.result p.run.clock)) ∨
       (∃ e ∈ q.port.waiting, e.block = .unitManager ∧ e.items.getLast? = some (.hand (.complete d.seq d.result))) ∧ q.heldOf d.seq = p.heldOf d.seq))
    (done : (p.putUnit a none false).port.waits .unitManager = false →
      ∀ d h, p.um.dismissWait = some d → d.unit = a → p.heldOf d.seq = some h → p.Shows q (h.completion d.result p.run.clock)) : p.Removed q a := by
  obtain ⟨hwrites, hbit, hslot⟩ := Part.emptied_facts ha hu hl
  have hmirror := Part.putUnit_mirror ha none false p
  rw [hwrites] at hmirror
  have hslots : ∀ b, q.unitSlot b = (p.putUnit a none false).unitSlot b := fun b => by
    unfold Part.unitSlot
    rw [slots]
  exact {
    works := (p.putUnit_serves a none false).trans works
    calm := (p.putUnit_calm a none false).trans calm
    te := te
    dir := dir
    jw := jw
    svc := by rw [svc]; exact p.putUnit_svc a none false
    slot := by rw [hslots, hslot, if_pos rfl]
    others := fun b hb => by rw [hslots, hslot, if_neg hb]
    shows := hmirror.trans (works.port.ofBlock _)
    bit := (Part.putUnit_bit ha hbit false).works works.toWorks
    board := board
    held := held
    heldOf := heldOf
    kept := kept
    dismissed := dismissed
    done := fun hfits => done (Part.putUnit_goesOn ha (by rwa [hwrites]))
    fits := fun hfits => by
      have hraised := Part.putUnit_rewrites hfits.1 ha none false
      rw [hwrites, hbit] at hraised
      obtain ⟨hport, hqueue⟩ := hraised.fits hfits
      have hfifo := works.port.fifo
      rw [hport] at hfifo
      exact ⟨hfifo, by rw [svc]; exact hqueue⟩ }

theorem Part.dismissDone_none {p q : Part} {a : Nat} (h : q.board.held = p.board.held) : p.dismissDone q a = [] := by
  unfold Part.dismissDone
  rw [List.map_eq_nil_iff, List.filter_eq_nil_iff]
  intro d _
  have hsame : q.heldOf d.seq = p.heldOf d.seq := by
    unfold Part.heldOf
    rw [h]
  rw [hsame]
  cases p.heldOf d.seq <;> simp

theorem Part.dismissDone_some {p q : Part} {a : Nat} {d : WaitingDismiss} {h : HeldRequest} (hd : p.um.dismissWait = some d) (ha : d.unit = a)
    (hp : p.heldOf d.seq = some h) (hq : q.heldOf d.seq = none) : p.dismissDone q a = [⟨d.seq, true, false⟩] := by
  unfold Part.dismissDone
  rw [hd]
  simp [ha, hp, hq]

theorem Part.removeUnit_removed {p : Part} {a : Nat} {u : FieldUnit} (ha : 1 ≤ a ∧ a ≤ 30) (hu : p.unitAt a = some u) (hl : u.link = .departing) :
    p.Removed (p.removeUnit a) a := by
  obtain ⟨hboard, hte, hdir, hjw, hwait⟩ := p.putUnit_frame a none false
  have hcalm := p.putUnit_calm a none false
  have hheld : ∀ n, (p.putUnit a none false).heldOf n = p.heldOf n := fun n => by
    unfold Part.heldOf
    rw [hboard]
  have hempty : p.dismissDone (p.putUnit a none false) a = [] := Part.dismissDone_none (by rw [hboard])
  by_cases hd : ∃ d, p.um.dismissWait = some d ∧ d.unit = a
  · obtain ⟨d, hd, hda⟩ := hd
    have hone : ∀ d', p.um.dismissWait = some d' → d' = d := fun d' h => Option.some.inj (h.symm.trans hd)
    generalize hX : { p.putUnit a none false with um := { (p.putUnit a none false).um with dismissWait := none } } = X
    have hremove : p.removeUnit a = X.finishRequest .unitManager d.seq d.result := by
      unfold Part.removeUnit
      dsimp only
      rw [hwait, hd]
      dsimp only
      rw [if_pos hda, hX]
      rfl
    have hXserves : (p.putUnit a none false).Serves X := hX ▸ Part.setUnits_serves _ _
    have hXcalm : (p.putUnit a none false).Calm X := by
      rw [← hX]
      exact .of_same rfl rfl rfl id rfl rfl rfl rfl
    have hXheld : ∀ n, X.heldOf n = p.heldOf n := fun n => by
      rw [← hX]
      exact hheld n
    have hXboard : X.board = p.board := by rw [← hX]; exact hboard
    rw [hremove]
    rcases Part.finishRequest_cases .unitManager d.seq d.result X with ⟨hwaits, hfinish⟩ | ⟨hwaits, hfinish⟩
    · rw [hfinish]
      have hrel := X.completeRequest_releases d.seq d.result
      have hclock : X.run.clock = p.run.clock := by rw [hXcalm.run, hcalm.run]
      have hshows : ∀ h, p.heldOf d.seq = some h → p.Shows (X.completeRequest d.seq d.result) (h.completion d.result p.run.clock) := fun h hh => by
        have hs := Part.completeRequest_shows (r := d.result) ((hXheld _).trans hh)
        rw [hclock] at hs
        exact hs.before ((p.putUnit_serves a none false).trans hXserves).toWorks
      have hheldOf : ∀ n, n ≠ d.seq → (X.completeRequest d.seq d.result).heldOf n = p.heldOf n := fun n hn =>
        (Part.heldOf_completeRequest hn _ _).trans (hXheld n)
      have hself := X.heldOf_completeRequest_self d.seq d.result
      have hdone : ∀ h, p.heldOf d.seq = some h → p.dismissDone (X.completeRequest d.seq d.result) a = [⟨d.seq, true, false⟩] := fun h hh =>
        Part.dismissDone_some hd hda hh hself
      refine .of_emptied ha hu hl (hXserves.trans (X.completeRequest_serves _ _)) (hXcalm.trans (X.completeRequest_calm _ _)) ?te ?dir ?jw ?svc ?slots ?board ?held
        ?heldOf ?kept ?dismissed ?done
      case te => rw [(X.completeRequest_owners _ _).2.1, ← hX]; exact hte
      case dir => rw [hrel.dir, ← hX]; exact hdir
      case jw => rw [hrel.jw, ← hX]; exact hjw
      case svc => rw [hrel.svc, ← hX]
      case slots => rw [hrel.um, ← hX]
      case board =>
        cases hh : p.heldOf d.seq with
        | none =>
          have hnone : p.dismissDone X a = [] := Part.dismissDone_none (by rw [hXboard])
          rw [Part.completeRequest_none ((hXheld _).trans hh), hnone, hXboard, List.append_nil]
        | some h =>
          rw [hdone h hh, (Part.completeRequest_board _ ((hXheld _).trans hh)).1, hXboard]
          rfl
      case held => exact hrel.held.trans (by rw [hXboard])
      case heldOf =>
        intro n hn
        by_cases e : n = d.seq
        · cases hh : p.heldOf d.seq with
          | none => rw [e, hself, hh]
          | some h =>
            rw [hdone h hh] at hn
            exact absurd e.symm (hn _ List.mem_cons_self)
        · exact hheldOf n e
      case kept => exact fun h => absurd hda (h d hd)
      case dismissed =>
        intro d' hd' _
        rw [hone d' hd']
        exact ⟨by rw [hrel.um, ← hX], .inl hshows⟩
      case done =>
        intro _ d' h hd' _ hh
        rw [hone d' hd'] at hh ⊢
        exact hshows h hh
    · rw [hfinish]
      have hnone : ∀ q : Part, q.board = X.board → p.dismissDone q a = [] := fun q hq => Part.dismissDone_none (by rw [hq, hXboard])
      refine .of_emptied ha hu hl (hXserves.trans (.of_port (WindowPort.park_grows (.inr hwaits) _) (WindowPort.park_leavesSweep rfl _ _)))
        (hXcalm.trans (.of_same rfl rfl (WindowPort.park_later _ _ _) (fun g => WindowPort.bounded_of_fifo (WindowPort.park_fifo _ _ _) g) rfl rfl rfl rfl))
        ?te ?dir ?jw ?svc ?slots ?board ?held ?heldOf ?kept ?dismissed ?done
      case te => rw [← hX]; exact hte
      case dir => rw [← hX]; exact hdir
      case jw => rw [← hX]; exact hjw
      case svc => rw [← hX]
      case slots => rw [← hX]
      case board =>
        rw [hnone { X with port := X.port.park .unitManager [.hand (.complete d.seq d.result)] } rfl, List.append_nil]
        show X.board = { p.board with held := X.board.held, finishes := p.board.finishes, completions := X.board.completions }
        rw [hXboard]
      case held =>
        show X.board.held.Sublist _
        rw [hXboard]
      case heldOf => exact fun n _ => hXheld n
      case kept => exact fun h => absurd hda (h d hd)
      case dismissed =>
        intro d' hd' _
        rw [hone d' hd']
        exact ⟨by rw [← hX], .inr ⟨WindowPort.park_last hwaits _, hXheld _⟩⟩
      case done =>
        intro hgoes
        rw [← hX] at hwaits
        exact absurd (hgoes.symm.trans hwaits) (by decide)
  · have hother : ∀ d, p.um.dismissWait = some d → d.unit ≠ a := fun d h e => hd ⟨d, h, e⟩
    have hremove : p.removeUnit a = p.putUnit a none false := by
      unfold Part.removeUnit
      dsimp only
      rw [hwait]
      cases h : p.um.dismissWait with
      | none => rfl
      | some d => exact if_neg (hother d h)
    rw [hremove]
    refine .of_emptied ha hu hl (.refl _) (.refl _) hte hdir hjw rfl rfl ?_ (by rw [hboard]) (fun n _ => hheld n) (fun _ => ⟨hwait, hboard⟩)
      (fun d h e => absurd e (hother d h)) (fun _ d _ h e => absurd e (hother d h))
    rw [hempty, List.append_nil, hboard]

end Sys2Proof.Machine
end

section
/-! SUPPORT. A row before and after its finishes are resolved (R120, R121); the end of a poll or roll-call turn (R74, R75). -/

namespace Sys2Proof.Machine

/-! ## Before and after the resolution -/

/-- What the resolution of a row's finishes leaves, or the row itself. -/
structure State.Resolves (t r : State) : Prop where
  pending : r.pending = t.pending
  mem : r.mem = t.mem
  releases : t.part.Releases r.part
  works : t.part.Works r.part
  requests : (∀ f ∈ t.part.board.finishes, f.transaction = false) → r.part.te = t.part.te ∧ r.part.board.held = t.part.board.held

theorem State.ResolvedOrNot.resolves {s t r : State} (h : s.ResolvedOrNot t r) (hl : t.part.port.later = [])
    (hw : ∀ n, t.part.Waits n → s.part.Waits n) : t.Resolves r := by
  rcases h with rfl | ⟨hnone, rfl⟩
  · exact ⟨rfl, rfl, .refl _, .refl _, fun _ => ⟨rfl, rfl⟩⟩
  · have hnobody : ∀ n, ¬ t.part.Waits n := fun n hn => hnone n (hw n hn)
    refine ⟨rfl, rfl, Part.resolve_releases hl hnobody, Part.resolve_works _, fun hrequests => ?_⟩
    by_cases hwaiting : t.part.port.waiting = []
    · exact (Part.resolve_unwaited_releases (WindowPort.free_iff.mpr ⟨hwaiting, hl⟩) (.of_requests hnobody hrequests)).2
    · show t.part.resolve.te = _ ∧ t.part.resolve.board.held = _
      rw [Part.resolve_waiting hwaiting]
      exact ⟨rfl, rfl⟩

/-- Settling is the resolution in RUNNING and after the end of a drain. -/
theorem State.Steady.settle_eq {s t : State} (h : s.Steady) (hr : t.part.run = s.part.run) : t.onPart Part.settle = t.onPart Part.resolve := by
  unfold State.onPart
  rw [Part.settle_eq_resolve (by rw [hr]; exact h.2.2.imp_right And.right)]

/-! ## The end of a poll or roll-call turn of a DEPARTING unit -/

theorem Part.endTurn_departing {p : Part} {x : Turn} {u : FieldUnit} (hk : x.kind = .poll ∨ x.kind = .rollCall) (hu : p.unitAt x.unit = some u)
    (hl : u.link = .departing) : p.endTurn x = p.freeLine.removeUnit x.unit := by
  have hend : p.endTurn x = p.freeLine.unitTurnEnd x.unit x.kind x.outcome := by
    unfold Part.endTurn
    rcases hk with e | e <;> rw [e] <;> rfl
  rw [hend]
  unfold Part.unitTurnEnd
  rw [show p.freeLine.unitAt x.unit = some u from hu]
  exact if_pos hl

theorem Part.Removed.board_kept {p q : Part} {a : Nat} (h : p.Removed q a) :
    q.board.registry = p.board.registry ∧ q.board.nextSeq = p.board.nextSeq ∧ q.board.sweep = p.board.sweep := by
  rw [h.board]
  exact ⟨rfl, rfl, rfl⟩

/-- R44: the finish of the DISMISS that the row completes. -/
theorem State.dismissFinish_eq (s t : State) (a : Nat) : s.dismissFinish t a = s.part.dismissDone t.part a := rfl

/-- R122: what a completion shown by the row's own work is after its resolution. -/
theorem Part.Shows.completes {s r : State} {p q : Part} {n : Nat} {res : Result} (hw : p.Works r.part) (hc : p.board.completions = s.part.board.completions)
    (hb : p.base = s.part.base) (hclock : p.run.clock = s.part.run.clock) (hq : q.Works r.part)
    (h : ∀ x, s.part.heldOf n = some x → p.Shows q (x.completion res p.run.clock)) : s.Completes r n res := fun x hx => by
  have hshows := h x hx
  rw [hclock] at hshows
  exact (hshows.after hq).completesSlot hw hc hb

theorem Part.freeLine_works (p : Part) : p.Works p.freeLine := (p.setLine_serves _).toWorks

theorem exec_endsTurn_settle {s : State} {c : Instr} {x : Turn} (h : s.EndsTurn c x) (hport : s.PortFree) :
    exec c s = .next ((s.onPart (Part.endTurn x)).onPart Part.settle) := by
  rw [exec_endsTurn h hport]
  rfl

/-- R29 to R31: what no turn changes of a unit. -/
theorem FieldUnit.takeTurn_kept (k : TurnKind) (o : TurnOutcome) (now : Word) (u : FieldUnit) :
    (u.takeTurn k o now).generation = u.generation ∧ (u.takeTurn k o now).unadmitted = u.unadmitted := by
  have hjudge : ∀ v : FieldUnit, v.generation = u.generation → v.unadmitted = u.unadmitted →
      (v.judgeGate now).generation = u.generation ∧ (v.judgeGate now).unadmitted = u.unadmitted := fun v h1 h2 =>
    ⟨(v.judgeGate_same now).2.2.1.trans h1, (v.judgeGate_same now).2.2.2.trans h2⟩
  have hcount : ((u.countTurn o).countHealth o).generation = u.generation ∧ ((u.countTurn o).countHealth o).unadmitted = u.unadmitted := by
    cases o <;> exact ⟨rfl, rfl⟩
  have hhealth : (((u.countTurn o).countHealth o).judgeHealth o now).generation = u.generation ∧
      (((u.countTurn o).countHealth o).judgeHealth o now).unadmitted = u.unadmitted := by
    unfold FieldUnit.judgeHealth
    split
    · split
      · exact hjudge _ hcount.1 hcount.2
      · exact hcount
    · split
      · exact hjudge _ hcount.1 hcount.2
      · exact hcount
    · split
      · exact hjudge _ hcount.1 hcount.2
      · exact hcount
    · split
      · exact hjudge _ hcount.1 hcount.2
      · exact hcount
    · exact hcount
  have hpoll : ∀ v : FieldUnit, (if u.link = .online ∨ u.link = .suspect then ((u.countTurn o).countHealth o).judgeHealth o now else u.countTurn o) = v →
      v.generation = u.generation ∧ v.unadmitted = u.unadmitted := by
    rintro v rfl
    split
    · exact hhealth
    · exact ⟨rfl, rfl⟩
  cases k with
  | rollCall =>
    unfold FieldUnit.takeTurn
    dsimp only
    split <;> exact ⟨rfl, rfl⟩
  | poll => exact hpoll _ rfl
  | command seq => exact hpoll _ rfl

/-- R40: a turn hands the unit's bank bit on where its link state, gate or factors change. -/
theorem FieldUnit.takeTurn_bit (k : TurnKind) (o : TurnOutcome) (now : Word) (u : FieldUnit) :
    unitBitChange (some u) (some (u.takeTurn k o now)) =
      !decide (u.link = (u.takeTurn k o now).link ∧ u.gate = (u.takeTurn k o now).gate ∧ u.factors = (u.takeTurn k o now).factors) := by
  obtain ⟨hg, hn⟩ := u.takeTurn_kept k o now
  simp only [unitBitChange, hg, hn, bne_self_eq_false, Bool.and_false, Bool.or_false]
  by_cases h1 : u.link = (u.takeTurn k o now).link <;> by_cases h2 : u.gate = (u.takeTurn k o now).gate <;>
    by_cases h3 : u.factors = (u.takeTurn k o now).factors <;> simp [h1, h2, h3]

/-- Settles O48: a unit that stays is rewritten, a DEPARTING one removed. -/
theorem turnEndIsReportedToTheUnit : Obligations.TurnEndIsReportedToTheUnit := by
  unfold Obligations.TurnEndIsReportedToTheUnit
  intro s c x u hc hk hanswer ha hu hw
  refine ⟨fun v hl hs hv => ?present, fun hl hworking hs => ?departing⟩
  case present =>
    obtain ⟨t, ht, hcount⟩ := State.turnEnd_present hc hk ha hu hl hs hw
    rw [Turn.outcome_eq hanswer, ← hv] at hcount
    have hrewrites := hcount.rewrites
    have hbit : unitBitChange (s.part.unitAt x.unit) (some v) = !decide (u.link = v.link ∧ u.gate = v.gate ∧ u.factors = v.factors) := by
      rw [hu, hv]
      exact FieldUnit.takeTurn_bit ..
    rw [hbit] at hrewrites
    refine ⟨t, ht, hcount.pending, hcount.mem, hcount.run, hcount.line, hcount.unit, hcount.others, hcount.te, hcount.board, hcount.dir, hcount.jw,
      (List.sublist_append_right _ _).trans hrewrites.outstanding, fun hroom => ?_⟩
    obtain ⟨hport, hqueue⟩ := hrewrites.fits (s.fits_rewrite hroom (le_refl 3) (le_refl 1) (.inr ⟨_, _, _, rfl⟩) _ .unit x.unit)
    by_cases hsame : u.link = v.link ∧ u.gate = v.gate ∧ u.factors = v.factors
    · simp only [hsame, and_self, decide_true, Bool.not_true, Bool.false_eq_true, if_false, if_true] at hport hqueue ⊢
      exact ⟨⟨hport, hcount.mem⟩, hqueue⟩
    · simp only [hsame, decide_false, Bool.not_false, if_true, if_false] at hport hqueue ⊢
      exact ⟨⟨hport, hcount.mem⟩, hqueue⟩
  case departing =>
    have hport : s.PortFree := ⟨hw, (hs hw).1⟩
    have hend : s.part.endTurn x = s.part.freeLine.removeUnit x.unit := Part.endTurn_departing hk hu hl
    have hgone := Part.removeUnit_removed (p := s.part.freeLine) ha hu hl
    rw [← hend] at hgone
    have hworks := s.part.freeLine_works.trans hgone.works.toWorks
    have hfinishes : (s.part.endTurn x).board.finishes = s.part.dismissDone (s.part.endTurn x) x.unit := by
      rw [hgone.board]
      exact (congrArg (· ++ _) (hs hw).2.1).trans (List.nil_append _)
    refine ⟨s.onPart (Part.endTurn x), exec_endsTurn_settle hc hport, fun h => h.settle_eq hgone.calm.run, rfl, rfl, ?finished, fun r hr => ?resolved⟩
    case finished =>
      obtain ⟨hregistry, hnext, hsweep⟩ := hgone.board_kept
      exact ⟨hfinishes, hregistry, hnext, hsweep, hgone.held, hgone.heldOf⟩
    case resolved =>
      have hres := hr.resolves (t := s.onPart (Part.endTurn x)) (hgone.calm.later.trans hport.2) fun n hn => hgone.calm.waits n hn
      have hslots : ∀ b, r.part.unitSlot b = (s.part.endTurn x).unitSlot b := fun b => by
        unfold Part.unitSlot
        rw [hres.releases.um]
        rfl
      have hrequests : r.part.te = (s.part.endTurn x).te := (hres.requests fun f hf => by
        rw [show (s.onPart (Part.endTurn x)).part.board.finishes = _ from hfinishes] at hf
        obtain ⟨d, -, rfl⟩ := List.mem_map.mp hf
        rfl).1
      have hshown : ∀ d, s.part.um.dismissWait = some d → d.unit = x.unit →
          (∀ h, s.part.heldOf d.seq = some h → s.part.freeLine.Shows (s.part.endTurn x) (h.completion d.result s.part.run.clock)) →
          s.Completes r d.seq { outcome := .ok, fields := [byteOf d.retired, byteOf d.ended] } := fun d hd hda hshows =>
        Part.Shows.completes (p := s.part.freeLine) (q := s.part.endTurn x) (hgone.works.toWorks.trans hres.works) rfl rfl rfl hres.works hshows
      refine ⟨hres.releases.run.trans hgone.calm.run, hres.releases.line.trans hgone.calm.line, ?_, fun b hb => (hslots b).trans (hgone.others b hb),
        hrequests.trans hgone.te, hres.releases.dir.trans hgone.dir, hres.releases.jw.trans hgone.jw, ⟨(hslots _).trans hgone.slot, ?_⟩, ?_, fun hroom => ?_,
        fun d hd hda => ⟨?_, ?_, fun hroom => ?_⟩, fun hother => ?_⟩
      · unfold Part.unitAt
        rw [hslots, hgone.slot]
      · exact ((List.sublist_append_right _ _).trans hgone.shows).trans ((WindowPort.ofBlock_outstanding _ _).trans hres.works.port.outstanding)
      · exact State.handsBit_of (hgone.bit.works hres.works)
      · obtain ⟨hfifo, hqueue⟩ := hgone.fits (s.fits_rewrite hroom (le_refl 3) (le_refl 1) (.inr ⟨_, _, _, rfl⟩) true .unit x.unit)
        rw [← List.append_assoc] at hfifo
        exact ⟨hfifo.trans hres.works.port.fifo, (congrArg ServiceUnit.bankQueue hres.releases.svc).trans hqueue⟩
      · rw [hres.releases.um]
        exact (hgone.dismissed d hd hda).1
      · rcases (hgone.dismissed d hd hda).2 with hshows | ⟨hwaits, hheld⟩
        · exact .inl (hshown d hd hda hshows)
        · have hparked : (s.part.endTurn x).port.waiting ≠ [] := by
            obtain ⟨e, he, -⟩ := hwaits
            exact List.ne_nil_of_mem he
          have hself : r.part = s.part.endTurn x := by
            rcases hr with rfl | ⟨-, rfl⟩
            · rfl
            · exact Part.resolve_waiting hparked
          rw [State.CompletesOrWaits, hself]
          exact .inr ⟨hwaits, hheld⟩
      · obtain ⟨hwrites, hreads⟩ := mirrorWrites_counts (unitMirrorAddr s.part.base x.unit) (s.part.unitSlot x.unit).version (unitBody none)
        exact hshown d hd hda fun h hh => hgone.done (s.fits_of_portRoom hroom hwrites.le hreads.le) d h hd hda hh
      · rw [hres.releases.um]
        exact (hgone.kept hother).1

end Sys2Proof.Machine
end

section
/-! SUPPORT. The end of a transaction, with its LATE_FAILURE record where one is due (R85, R98); deadlines, defer expiries and reservations (R89, R92, R96, R101). -/

namespace Sys2Proof.Machine

/-! ## The end of a transaction -/

/-- R85: what a finished transaction leaves. -/
structure Part.TxnEnds (p q : Part) (t : Transaction) (e : Ending) : Prop where
  works : p.Serves q
  calm : p.Calm q
  dir : q.dir = p.dir
  jw : q.jw = p.jw
  svc : q.svc = { p.svc with nextFault := q.svc.nextFault, ringIndex := q.svc.ringIndex }
  dismissWait : q.um.dismissWait = p.um.dismissWait
  te : q.te = { p.te with pool := p.te.pool.filter fun x => x.seq != t.seq }
  frees : (∀ expiry token, e.reserve = some expiry → t.token = some token → reached p.run.clock expiry = true) → q.um = p.um
  reserves : ∀ expiry token, e.reserve = some expiry → t.token = some token → reached p.run.clock expiry = false → ∀ a,
    q.unitSlot a = if a = t.unit ∧ 1 ≤ t.unit ∧ t.unit ≤ 30 then
      { p.unitSlot t.unit with place := (p.unitAt t.unit).map (FieldUnit.reserve token t.tag expiry) } else p.unitSlot a
  board : q.board = { p.board with
    held := q.board.held, finishes := p.board.finishes ++ [⟨t.seq, e.outcome == .ok, true⟩], completions := q.board.completions }
  held : q.board.held.Sublist p.board.held
  heldOf : ∀ m, m ≠ t.seq → q.heldOf m = p.heldOf m
  shows : t.origin.isSome = true → ∀ h, p.heldOf t.seq = some h → p.Shows q (h.completion (t.result e) p.run.clock)
  quiet : t.origin.isSome = true ∨ e.outcome = .ok ∨ e.byAbort = true → q.svc = p.svc
  logs : t.origin = none → e.outcome ≠ .ok → e.byAbort = false → p.port.waits .transactionEngine = false →
    (faultWrites p.base p.svc.ringIndex p.svc.nextFault (t.lateFailure e) p.run.clock).Sublist q.port.outstanding

/-- What the report of an ending leaves. -/
structure Part.Reported (p q : Part) (t : Transaction) (e : Ending) : Prop where
  te : q.te = p.te
  um : q.um = p.um
  dir : q.dir = p.dir
  jw : q.jw = p.jw
  svc : q.svc = { p.svc with nextFault := q.svc.nextFault, ringIndex := q.svc.ringIndex }
  board : q.board = { p.board with held := q.board.held, completions := q.board.completions }
  held : q.board.held.Sublist p.board.held
  heldOf : ∀ m, m ≠ t.seq → q.heldOf m = p.heldOf m
  shows : t.origin.isSome = true → ∀ h, p.heldOf t.seq = some h → p.Shows q (h.completion (t.result e) p.run.clock)
  quiet : t.origin.isSome = true ∨ e.outcome = .ok ∨ e.byAbort = true → q.svc = p.svc
  logs : t.origin = none → e.outcome ≠ .ok → e.byAbort = false → p.port.waits .transactionEngine = false →
    (faultWrites p.base p.svc.ringIndex p.svc.nextFault (t.lateFailure e) p.run.clock).Sublist q.port.outstanding

theorem Part.completeSlot_reported {t : Transaction} (e : Ending) (ho : t.origin.isSome = true) (p : Part) :
    p.Reported (p.completeSlot t.seq (t.result e)) t e := by
  have hrel := p.completeSlot_releases t.seq (t.result e)
  have hboard : (p.completeSlot t.seq (t.result e)).board = { p.board with
      held := (p.completeSlot t.seq (t.result e)).board.held, completions := (p.completeSlot t.seq (t.result e)).board.completions } := by
    cases h : p.heldOf t.seq with
    | none => rw [Part.completeSlot_none h]
    | some x => rw [Part.completeSlot_board _ h]
  exact ⟨(p.completeSlot_owners _ _).2.1, hrel.um, hrel.dir, hrel.jw, by rw [hrel.svc], hboard, hrel.held, fun m hm => Part.heldOf_completeSlot hm _ _,
    fun _ x hx => ⟨_, congrArg BoardController.completions (Part.completeSlot_board (t.result e) hx), List.mem_singleton.mpr rfl⟩, fun _ => hrel.svc,
    fun h => absurd ho (by rw [h]; simp)⟩

theorem Part.reportEnding_facts (t : Transaction) (e : Ending) (p : Part) : p.Reported (p.reportEnding t e) t e := by
  unfold Part.reportEnding
  split
  · next ho => exact p.completeSlot_reported e ho
  · next ho =>
    split
    · next hq =>
      have hq : e.outcome = .ok ∨ e.byAbort = true := by simpa using hq
      exact ⟨rfl, rfl, rfl, rfl, rfl, rfl, List.Sublist.refl _, fun _ _ => rfl, fun h => absurd h ho, fun _ => rfl,
        fun _ h1 h2 => absurd hq (fun h => h.elim h1 (by rw [h2]; simp))⟩
    · next hq =>
      have hq : ¬ (e.outcome = .ok ∨ e.byAbort = true) := by simpa using hq
      unfold Part.raise
      split
      · next hwaits =>
        exact ⟨rfl, rfl, rfl, rfl, rfl, rfl, List.Sublist.refl _, fun _ _ => rfl, fun h => absurd h ho, fun _ => rfl,
          fun _ _ _ h => absurd (h.symm.trans hwaits) (by decide)⟩
      · show p.Reported (p.takeFault (t.lateFailure e)) t e
        exact ⟨rfl, rfl, rfl, rfl, rfl, rfl, List.Sublist.refl _, fun _ _ => rfl, fun h => absurd h ho, fun h => absurd h (not_or.mpr ⟨ho, hq⟩),
          fun _ _ _ _ => WindowPort.submit_sublist _ _ _⟩

theorem Part.finishTxn_ends {t : Transaction} {p : Part} (ht : ∃ x ∈ p.te.pool, x.seq = t.seq) (e : Ending) : p.TxnEnds (p.finishTxn t e) t e := by
  let P : Part := { p with te := { p.te with pool := p.te.pool.filter fun x => x.seq != t.seq } }
  let R : Part := P.reserveToken t e
  have hR : ∃ v, R = { P with um := { P.um with slots := v } } := by
    rcases P.reserveToken_cases t e with hr | ⟨f, hr⟩
    · exact ⟨P.um.slots, hr⟩
    · obtain ⟨v, hv⟩ := P.setPlace_eq t.unit f
      exact ⟨v, hr.trans hv⟩
  have hfrees : (∀ expiry token, e.reserve = some expiry → t.token = some token → reached p.run.clock expiry = true) → R.um = p.um :=
    fun hr => by
      show (P.reserveToken t e).um = _
      rw [P.reserveToken_frees hr]
  have hreserves : ∀ expiry token, e.reserve = some expiry → t.token = some token → reached p.run.clock expiry = false → ∀ a,
      R.unitSlot a = if a = t.unit ∧ 1 ≤ t.unit ∧ t.unit ≤ 30 then
        { p.unitSlot t.unit with place := (p.unitAt t.unit).map (FieldUnit.reserve token t.tag expiry) } else p.unitSlot a :=
    fun expiry token he ht hr a => by
      show (P.reserveToken t e).unitSlot a = _
      rw [Part.reserveToken_reserves (p := P) he ht hr, Part.setPlace_slot]
      rfl
  have hworks := p.finishTxn_serves t e
  have hcalm := p.finishTxn_calm t e ht
  have hS := R.reportEnding_facts t e
  have hslot : ∀ a, (R.reportEnding t e).unitSlot a = R.unitSlot a := fun a => by rw [Part.unitSlot, hS.um]; rfl
  have hfinish : p.finishTxn t e = (R.reportEnding t e).noteFinish t.seq (e.outcome == .ok) true := rfl
  rw [hfinish] at hworks hcalm ⊢
  generalize R.reportEnding t e = S at *
  generalize R = R' at *
  obtain ⟨v, rfl⟩ := hR
  have hboard := hS.board
  exact ⟨hworks, hcalm, hS.dir, hS.jw, hS.svc, show S.um.dismissWait = _ by rw [hS.um], hS.te, fun hr => hS.um.trans (hfrees hr),
    fun expiry token he ht hr a => (hslot a).trans (hreserves expiry token he ht hr a),
    show ({ S.board with finishes := S.board.finishes ++ [⟨t.seq, e.outcome == .ok, true⟩] } : BoardController) = _ by rw [hboard]; rfl,
    hS.held, hS.heldOf, hS.shows, hS.quiet, hS.logs⟩

theorem Part.findTxn_exists {p : Part} {n : Nat} {x : Transaction} (h : p.findTxn n = some x) : ∃ y ∈ p.te.pool, y.seq = x.seq :=
  ⟨x, (Part.findTxn_mem h).1, rfl⟩

/-! ## Rows that finish one transaction -/

/-- R85: what a row leaves whose work is the end of one transaction, before and after its finish is resolved. -/
structure State.TxnRow (s r : State) (t : Transaction) (e : Ending) : Prop where
  run : r.part.run = s.part.run
  line : r.part.line = s.part.line
  dir : r.part.dir = s.part.dir
  jw : r.part.jw = s.part.jw
  pool : r.part.te.pool = s.part.te.pool.filter fun y => y.seq != t.seq
  aborts : r.part.te.aborts = s.part.te.aborts
  um : r.part.um = (s.part.finishTxn t e).um
  dismissWait : r.part.um.dismissWait = s.part.um.dismissWait
  completes : t.origin.isSome = true → s.Completes r t.seq (t.result e) ∧ s.LogsNothing r
  fails : t.origin = none → e.outcome ≠ .ok → e.byAbort = false → s.Logs r (t.lateFailure e)

/-- R85, R120: the finish noted, and what the row leaves. -/
theorem State.txnRow {s : State} {t : Transaction} {e : Ending} (ht : s.part.findTxn t.seq = some t) (hs : s.Settled) (hw : s.part.port.waiting = []) :
    s.Finished (s.onPart fun p => p.finishTxn t e) [⟨t.seq, e.outcome == .ok, true⟩] ∧
    ∀ r : State, s.ResolvedOrNot (s.onPart fun p => p.finishTxn t e) r → s.TxnRow r t e := by
  have hends := Part.finishTxn_ends (Part.findTxn_exists ht) e
  obtain ⟨hlater, hfinishes, -⟩ := hs hw
  refine ⟨⟨?_, ?_, ?_, ?_, hends.held, fun n hn => hends.heldOf n (Ne.symm (hn _ List.mem_cons_self))⟩, fun r hr => ?_⟩
  · show (s.part.finishTxn t e).board.finishes = _
    rw [hends.board, hfinishes]
    rfl
  · show (s.part.finishTxn t e).board.registry = _
    rw [hends.board]
  · show (s.part.finishTxn t e).board.nextSeq = _
    rw [hends.board]
  · show (s.part.finishTxn t e).board.sweep = _
    rw [hends.board]
  · have hres := hr.resolves (hends.calm.later.trans hlater) fun n hn => hends.calm.waits n hn
    have hte : r.part.te = { (s.part.finishTxn t e).te with syncs := r.part.te.syncs } := hres.releases.te
    have hworks := hends.works.toWorks.trans hres.works
    refine ⟨hres.releases.run.trans hends.calm.run, hres.releases.line.trans hends.calm.line, hres.releases.dir.trans hends.dir,
      hres.releases.jw.trans hends.jw, by rw [hte, hends.te], by rw [hte, hends.te], hres.releases.um,
      (congrArg _ hres.releases.um).trans hends.dismissWait, fun ho => ⟨?_, ?_⟩, fun ho h1 h2 => ?_⟩
    · exact Part.Shows.completes (p := s.part) (q := s.part.finishTxn t e) hworks rfl rfl rfl hres.works (hends.shows ho)
    · have hsvc : r.part.svc = s.part.svc := hres.releases.svc.trans (hends.quiet (.inl ho))
      rw [State.LogsNothing, hsvc]
      exact ⟨rfl, rfl⟩
    · exact ⟨_, _, (hends.logs ho h1 h2 (WindowPort.not_waits hw _)).trans hres.works.port.outstanding⟩

end Sys2Proof.Machine
end

section
/-! SUPPORT. Deadlines, defer expiries, SYNC deadlines and reservations (R89, R92, R96, R101). -/

namespace Sys2Proof.Machine

theorem State.onPart_onPart (f g : Part → Part) (s : State) : (s.onPart f).onPart g = s.onPart fun p => g (f p) := rfl

theorem exec_deadlineExpiry {s : State} {seq : Nat} {x : Transaction} {d : Word} (hworking : s.Working) (hport : s.PortFree)
    (hx : s.part.findTxn seq = some x) (hd : x.deadline = some d) (hr : reached s.part.run.clock d = true) :
    exec (.deadlineExpiry seq) s = .next ((s.onPart (Part.endAtDeadline x)).onPart Part.settle) := by
  show Host.Outcome.next (s.onBlocks _) = _
  rw [State.onBlocks_eq (s.free_of_portFree hport), State.onPart_onPart]
  unfold State.onPart
  dsimp only
  rw [hx]
  dsimp only
  rw [if_pos (by rw [State.working_of hworking, hd]; exact hr)]

theorem exec_deferExpiry {s : State} {seq : Nat} {x : Transaction} {d : Word} (hworking : s.Working) (hport : s.PortFree)
    (hx : s.part.findTxn seq = some x) (hstate : x.state = .deferred) (hd : x.deferExpiry = some d) (hr : reached s.part.run.clock d = true) :
    exec (.deferExpiry seq) s = .next ((s.onPart fun p => p.finishTxn x { outcome := .noResult }).onPart Part.settle) := by
  show Host.Outcome.next (s.onBlocks _) = _
  rw [State.onBlocks_eq (s.free_of_portFree hport), State.onPart_onPart]
  unfold State.onPart
  dsimp only
  rw [hx]
  dsimp only
  rw [if_pos (by rw [State.working_of hworking, hstate, hd]; exact hr)]

theorem exec_syncDeadline {s : State} {seq : Nat} {y : SyncRecord} {d : Word} (hworking : s.Working) (hport : s.PortFree)
    (hy : s.part.te.syncs.find? (fun z => z.seq == seq) = some y) (hd : y.deadline = some d) (hr : reached s.part.run.clock d = true) :
    exec (.syncDeadline seq) s = .next ((s.onPart fun p => p.endSync y .deadline).onPart Part.settle) := by
  show Host.Outcome.next (s.onBlocks _) = _
  rw [State.onBlocks_eq (s.free_of_portFree hport), State.onPart_onPart]
  unfold State.onPart
  dsimp only
  rw [hy]
  dsimp only
  rw [if_pos (by rw [State.working_of hworking, hd]; exact hr)]

/-- R89: the reservations of a unit without those of a token that have expired. -/
def FieldUnit.expireReservations (token : Nat) (now : Word) (u : FieldUnit) : FieldUnit :=
  { u with reservations := u.reservations.filter fun x => !x.due token now }

theorem exec_reservationExpiry {s : State} (hworking : s.Working) (a token : Nat) :
    exec (.reservationExpiry a token) s = .next (s.onPart (Part.setPlace a (FieldUnit.expireReservations token s.part.run.clock))) := by
  have hplace : s.part.updateUnit a (FieldUnit.expireReservations token s.part.run.clock) =
      s.part.setPlace a (FieldUnit.expireReservations token s.part.run.clock) :=
    Part.updateUnit_silent (f := FieldUnit.expireReservations token s.part.run.clock) (fun _ => rfl) (fun _ => unitBitChange_shown rfl rfl rfl rfl rfl) _
  show Host.Outcome.next _ = _
  unfold State.onPart
  dsimp only
  rw [if_pos (State.working_of hworking), ← hplace]
  rfl

/-- R101: a waiting SYNC that completes: its record goes, and its request completes. -/
theorem State.syncRow {s r : State} {y : SyncRecord} (hs : s.Settled) (hw : s.part.port.waiting = [])
    (hr : s.ResolvedOrNot (s.onPart fun p => p.endSync y .deadline) r) :
    r = { s with part := { s.part with
      te := { s.part.te with syncs := s.part.te.syncs.filter fun z => z.seq != y.seq }, board := r.part.board, port := r.part.port } } ∧
    (∀ h ∈ r.part.board.held, h.seq ≠ y.seq) ∧ s.Completes r y.seq { outcome := .deadline, fields := y.fields } := by
  let E : Part := { s.part with te := { s.part.te with syncs := s.part.te.syncs.filter fun x => x.seq != y.seq } }
  have hE : (s.onPart fun p => p.endSync y .deadline).part = E.completeRequest y.seq { outcome := .deadline, fields := y.fields } := rfl
  have hcalm := s.part.endSync_calm y .deadline
  have hrel := E.completeRequest_releases y.seq { outcome := .deadline, fields := y.fields }
  have hte := (E.completeRequest_owners y.seq { outcome := .deadline, fields := y.fields }).2.1
  have hres := hr.resolves (hcalm.later.trans (hs hw).1) fun n hn => hcalm.waits n hn
  have hrequests := hres.requests fun f hf => by
    rw [hE] at hf
    rcases Part.completeRequest_finishes hf with h | h
    · rw [show E.board.finishes = [] from (hs hw).2.1] at h
      exact absurd h List.not_mem_nil
    · rw [h]
  have hall : E.Releases r.part := hrel.trans (hE ▸ hres.releases)
  have hrte : r.part.te = E.te := hrequests.1.trans hte
  refine ⟨?_, fun h hh => ?_, ?_⟩
  · have hpart : r.part = { E with board := r.part.board, port := r.part.port } := by
      refine (hall.with_eq r.part.board r.part.port).trans ?_
      rw [hrte]
    have hstate : r = { s with part := r.part } := by
      obtain ⟨rp, rq, rm⟩ := r
      exact congrArg₂ (fun a b => State.mk a rq b) hres.pending hres.mem
    rw [hpart] at hstate
    exact hstate
  · rw [hrequests.2] at hh
    have hnone := List.find?_eq_none.mp (E.heldOf_completeRequest_self y.seq { outcome := .deadline, fields := y.fields }) h hh
    simpa using hnone
  · refine Part.Shows.completes (p := s.part) (q := s.part.endSync y .deadline) ((s.part.endSync_serves y .deadline).toWorks.trans hres.works) rfl rfl rfl
      hres.works fun h hh => ?_
    exact Part.completeRequest_shows (p := E) hh

/-- R101, R120: the finish of a SYNC that completes at its deadline. -/
theorem State.syncFinished {s : State} (hs : s.Settled) (hw : s.part.port.waiting = []) (y : SyncRecord) :
    s.Finished (s.onPart fun p => p.endSync y .deadline) ((s.part.heldOf y.seq).toList.map fun _ => ⟨y.seq, false, false⟩) := by
  let E : Part := { s.part with te := { s.part.te with syncs := s.part.te.syncs.filter fun x => x.seq != y.seq } }
  let res : Result := { outcome := .deadline, fields := y.fields }
  have hE : (s.onPart fun p => p.endSync y .deadline).part = E.completeRequest y.seq res := rfl
  have hfinishes := (hs hw).2.1
  unfold State.Finished
  rw [hE]
  cases hh : s.part.heldOf y.seq with
  | none =>
    rw [Part.completeRequest_none (p := E) hh]
    exact ⟨hfinishes, rfl, rfl, rfl, List.Sublist.refl _, fun _ _ => rfl⟩
  | some h =>
    have hboard := (Part.completeRequest_board (p := E) res hh).1
    have hheldOf : ∀ n, n ≠ y.seq → (E.completeRequest y.seq res).heldOf n = s.part.heldOf n := fun n hn => Part.heldOf_completeRequest hn res E
    rw [hboard]
    exact ⟨congrArg (· ++ _) hfinishes, rfl, rfl, rfl, List.filter_sublist, fun n hn => hheldOf n (Ne.symm (hn _ List.mem_cons_self))⟩

/-- R96: a PENDING or DEFERRED transaction ends at its deadline. -/
theorem Part.endAtDeadline_finishes {x : Transaction} (h : x.state ≠ .sending) (p : Part) :
    p.endAtDeadline x = p.finishTxn x { outcome := .deadline, reserve := if x.state = .deferred then x.deferExpiry else none } := by
  unfold Part.endAtDeadline
  cases hx : x.state with
  | pending => rfl
  | deferred => rfl
  | sending => exact absurd hx h

theorem State.TxnRow.slot {s r : State} {x : Transaction} {e : Ending} (h : s.TxnRow r x e) (a : Nat) :
    r.part.unitSlot a = (s.part.finishTxn x e).unitSlot a := by
  unfold Part.unitSlot
  rw [h.um]

theorem Part.unitSlot_of_um {p q : Part} (h : q.um = p.um) (a : Nat) : q.unitSlot a = p.unitSlot a := by
  unfold Part.unitSlot
  rw [h]

/-- R85 step 2: the places of the units where a transaction ends. -/
theorem Part.finishTxn_place {p : Part} {x : Transaction} (hx : ∃ y ∈ p.te.pool, y.seq = x.seq) (e : Ending) (a : Nat) :
    ((p.finishTxn x e).unitSlot a).version = (p.unitSlot a).version ∧ (a ≠ x.unit → (p.finishTxn x e).unitSlot a = p.unitSlot a) := by
  have hends := Part.finishTxn_ends hx e
  by_cases h : ∀ expiry token, e.reserve = some expiry → x.token = some token → reached p.run.clock expiry = true
  · rw [Part.unitSlot_of_um (hends.frees h)]
    exact ⟨rfl, fun _ => rfl⟩
  · push Not at h
    obtain ⟨expiry, token, he, ht, hr⟩ := h
    rw [hends.reserves expiry token he ht (Bool.eq_false_iff.mpr hr)]
    refine ⟨?_, fun hne => if_neg fun h => hne h.1⟩
    split
    · next h => rw [h.1]
    · rfl

theorem ReqOutcome.deadline_ne_ok : ReqOutcome.deadline ≠ ReqOutcome.ok := by decide

/-- Settles O58: each row finishes one item, or frees a token. -/
theorem deadlinesAndReservationsExpire : Obligations.DeadlinesAndReservationsExpire := by
  unfold Obligations.DeadlinesAndReservationsExpire
  intro s hworking hs hw
  have hport : s.PortFree := ⟨hw, (hs hw).1⟩
  refine ⟨fun seq x d hx hd hr => ⟨fun hsending => ?sending, fun hstate => ?deadline⟩, fun seq x d hx hstate hd hr => ?defer, fun seq y d hy hd hr => ?sync,
    fun a token u ha hu => ?reservation⟩
  case sending =>
    have hnone : s.part.endAtDeadline x = s.part := by
      unfold Part.endAtDeadline
      rw [hsending]
    rw [exec_deadlineExpiry hworking hport hx hd hr, State.onPart_onPart]
    unfold State.onPart
    dsimp only
    rw [hnone, hs.settle_eq hw (p := s.part) (hs hw).1 rfl rfl rfl rfl]
  case deadline =>
    have hseq : x.seq = seq := Part.findTxn_seq hx
    have hexec := exec_deadlineExpiry hworking hport hx hd hr
    have hfinish : (s.onPart (Part.endAtDeadline x)) =
        s.onPart fun p => p.finishTxn x { outcome := .deadline, reserve := if x.state = .deferred then x.deferExpiry else none } := by
      unfold State.onPart
      rw [Part.endAtDeadline_finishes hstate]
    rw [hfinish] at hexec
    generalize he : ({ outcome := .deadline, reserve := if x.state = .deferred then x.deferExpiry else none } : Ending) = e at hexec
    have hends := Part.finishTxn_ends (Part.findTxn_exists hx) e
    have hplace := Part.finishTxn_place (Part.findTxn_exists hx) e
    obtain ⟨hfinished, hrow⟩ := State.txnRow (t := x) (e := e) (hseq ▸ hx) hs hw
    rw [hseq] at hfinished
    refine ⟨_, hexec, fun h => h.settle_eq hends.calm.run, rfl, rfl, he ▸ hfinished, congrArg (·.syncs) hends.te, fun r hr' => ?_⟩
    have h := hrow r hr'
    have hpool := h.pool
    have hcompletes := h.completes
    rw [hseq] at hpool hcompletes
    refine ⟨h.run, h.line, h.dir, h.jw, fun b hb => (h.slot b).trans ((hplace b).2 hb), hpool, h.aborts, fun ho => ?_, fun ho => ?_, fun hpending => ?_, ?_,
      fun u k expiry ha hdeferred hu hk hexpiry => ?_⟩
    · obtain ⟨hc, hl⟩ := hcompletes ho
      rw [← he] at hc
      exact ⟨hc, hl⟩
    · have hlog := h.fails ho (by rw [← he]; exact ReqOutcome.deadline_ne_ok) (by rw [← he])
      rw [← he] at hlog
      exact hlog
    · have hfrees := hends.frees (fun expiry token h1 => by
        rw [← he, hpending] at h1
        exact absurd h1 (by simp))
      unfold Part.unitAt
      rw [h.slot, Part.unitSlot_of_um hfrees]
    · rw [h.slot]
      exact (hplace x.unit).1
    · have hreserve : e.reserve = some expiry := by
        rw [← he, hdeferred]
        exact hexpiry
      unfold Part.unitAt
      rw [h.slot]
      by_cases hreached : reached s.part.run.clock expiry = true
      · rw [if_pos hreached, Part.unitSlot_of_um (hends.frees fun expiry' token h1 _ => by
          rw [hreserve] at h1
          rw [← Option.some.inj h1]
          exact hreached)]
        exact hu
      · rw [if_neg hreached, hends.reserves expiry k hreserve hk (Bool.eq_false_iff.mpr hreached), if_pos ⟨rfl, ha⟩, hu]
        rfl
  case defer =>
    have hseq : x.seq = seq := Part.findTxn_seq hx
    have hends := Part.finishTxn_ends (Part.findTxn_exists hx) { outcome := .noResult }
    obtain ⟨hfinished, hrow⟩ := State.txnRow (t := x) (e := { outcome := .noResult }) (hseq ▸ hx) hs hw
    rw [hseq] at hfinished
    refine ⟨_, exec_deferExpiry hworking hport hx hstate hd hr, fun h => h.settle_eq hends.calm.run, rfl, rfl, hfinished, congrArg (·.syncs) hends.te,
      fun r hr' => ?_⟩
    have h := hrow r hr'
    have hpool := h.pool
    have hcompletes := h.completes
    rw [hseq] at hpool hcompletes
    refine ⟨h.run, h.line, h.dir, h.jw, h.um.trans (hends.frees fun _ _ h1 => absurd h1 (by simp)), hpool, h.aborts, hcompletes,
      fun ho => h.fails ho (by decide) rfl⟩
  case sync =>
    have hseq : y.seq = seq := by simpa using List.find?_some hy
    have hcalm := s.part.endSync_calm y .deadline
    refine ⟨_, exec_syncDeadline hworking hport hy hd hr, fun h => h.settle_eq hcalm.run, ?_, fun hnone hroom => ?_, fun r hr' => ?_⟩
    · exact hseq ▸ State.syncFinished hs hw y
    · have hnobody : ∀ n, ¬ (s.part.endSync y .deadline).Waits n := fun n hn => hnone n (hcalm.waits n hn)
      have hroomy : (s.part.endSync y .deadline).Roomy := (s.part.endSync_releases y .deadline).roomy ⟨hw, fun _ => hroom.2.2.1⟩
      have hres := Part.resolve_releases (hcalm.later.trans (hs hw).1) hnobody
      exact (Part.resolve_finishes _ (hres.roomy hroomy).1).2
    · have h := State.syncRow hs hw hr'
      rw [hseq] at h
      exact h
  case reservation =>
    refine ⟨_, exec_reservationExpiry hworking a token, congrArg (fun p => { s with part := p }) (Part.setPlace_um ..), Part.setPlace_dismissWait _ _ _,
      fun b hb => Part.setPlace_other hb _ _, (Part.setPlace_self ha hu _).trans ?_⟩
    have hdue : ∀ z : Reservation, z.due token s.part.run.clock = decide (z.token = token ∧ reached s.part.run.clock z.expiry = true) := fun z => by
      unfold Reservation.due
      rw [Bool.decide_and, Bool.decide_eq_true]
      rfl
    unfold FieldUnit.expireReservations
    simp only [hdue]

end Sys2Proof.Machine
end

section
/-! SUPPORT. A RESULT judged by its token (R68, R93, R94). -/

namespace Sys2Proof.Machine

/-! ## Acknowledgements (R94) -/

/-- R94: both acknowledgement values. -/
def FieldUnit.accept (token : Nat) (u : FieldUnit) : FieldUnit := { u with pendingAck := some token, lastAccepted := some token }

/-- R94: the pending acknowledgement alone. -/
def FieldUnit.acknowledge (token : Nat) (u : FieldUnit) : FieldUnit := { u with pendingAck := some token }

/-- R89: the reservations of a token go. -/
def FieldUnit.unreserve (token : Nat) (u : FieldUnit) : FieldUnit := { u with reservations := u.reservations.filter fun y => y.token != token }

theorem Part.acceptResult_eq {p : Part} {a : Nat} {u : FieldUnit} (hu : p.unitAt a = some u) (token : Nat) :
    p.acceptResult a token = p.putUnit a (some (u.accept token)) false := by
  unfold Part.acceptResult Part.updateUnit
  rw [hu]
  rfl

theorem FieldUnit.accept_bit (token : Nat) (u : FieldUnit) : unitBitChange (some u) (some (u.accept token)) = false :=
  unitBitChange_shown rfl rfl rfl rfl rfl

/-! ## A mirror rewritten behind other work -/

/-- R40: the writes of a mirror rewrite in a part whose unit shows what it showed. -/
theorem Part.unitWrites_same {s : State} {p : Part} {a : Nat} {new new' : Option FieldUnit} (hbase : p.base = s.part.base)
    (hversion : (p.unitSlot a).version = (s.part.unitSlot a).version) (hbody : unitBody (p.unitAt a) = unitBody (s.part.unitAt a))
    (hnew : unitBody new = unitBody new') : p.unitWrites a new false = s.unitMirror a new' := by
  unfold Part.unitWrites State.unitMirror
  rw [hbase, hversion, hbody, hnew]
  by_cases e : unitBody (s.part.unitAt a) = unitBody new' <;> simp [e]

theorem Part.putUnit_rewritesLater {s r : State} {p : Part} {a : Nat} {new new' : Option FieldUnit} (ha : 1 ≤ a ∧ a ≤ 30) (hbase : p.base = s.part.base)
    (hversion : (p.unitSlot a).version = (s.part.unitSlot a).version) (hbody : unitBody (p.unitAt a) = unitBody (s.part.unitAt a))
    (hnew : unitBody new = unitBody new') (hr : (p.putUnit a new false).Works r.part)
    (hslot : r.part.unitSlot a = (p.putUnit a new false).unitSlot a) : s.RewritesUnit r a new' := by
  have hwrites := Part.unitWrites_same hbase hversion hbody hnew
  refine ⟨?_, ?_⟩
  · rw [hslot, Part.putUnit_slot _ _ _ _ ha, if_pos rfl, hversion, hbody, hnew]
    by_cases e : unitBody (s.part.unitAt a) = unitBody new'
    · rw [if_pos (State.unitMirror_eq_nil_iff.mpr e)]
      simp [e]
    · rw [if_neg (fun h => e (State.unitMirror_eq_nil_iff.mp h))]
      simp [e]
  · rw [← hwrites]
    exact ((List.sublist_append_right _ _).trans (Part.putUnit_mirror ha new false p)).trans
      ((WindowPort.ofBlock_outstanding _ _).trans hr.port.outstanding)

/-- R174: writes with room stand behind those raised before. -/
theorem Part.putUnit_raised {p : Part} {a : Nat} {new : Option FieldUnit} (ha : 1 ≤ a ∧ a ≤ 30) (hbit : unitBitChange (p.unitAt a) new = false)
    (hfits : p.port.Fits (p.unitWrites a new false)) : (p.putUnit a new false).port = p.port.with (p.unitWrites a new false) := by
  have hraised := Part.putUnit_rewrites hfits.1 ha new false
  rw [hbit] at hraised
  have hnil : p.unitWrites a new false ++ (if false then p.bankBitRead .unit a else []) = p.unitWrites a new false := List.append_nil _
  have h := (hraised.fits (by rw [hnil]; exact hfits)).1
  rwa [hnil] at h

/-- R85 step 4: the record of a transaction that fails late, with room. -/
theorem Part.finishTxn_fault {p : Part} {t : Transaction} {e : Ending} (hreserve : e.reserve = none) (ho : t.origin = none) (h1 : e.outcome ≠ .ok)
    (h2 : e.byAbort = false) (hfits : p.port.Fits (faultWrites p.base p.svc.ringIndex p.svc.nextFault (t.lateFailure e) p.run.clock)) :
    (p.finishTxn t e).port = p.port.with (faultWrites p.base p.svc.ringIndex p.svc.nextFault (t.lateFailure e) p.run.clock) := by
  let P : Part := { p with te := { p.te with pool := p.te.pool.filter fun x => x.seq != t.seq } }
  have hfree : P.reserveToken t e = P := P.reserveToken_frees fun _ _ h => absurd (hreserve.symm.trans h) (by simp)
  show ((P.reserveToken t e).reportEnding t e).port = _
  rw [hfree]
  unfold Part.reportEnding
  rw [if_neg (by rw [ho]; simp), if_neg (by simp [h1, h2]), Part.raise_fault (by exact hfits.1),
    Part.takeFault_fits (p := P) hfits]
  rfl

/-- R85 step 3: the completion of a transaction's slot where none is on its way, with room. -/
theorem Part.finishTxn_completion {p : Part} {t : Transaction} {e : Ending} {h : HeldRequest} (hreserve : e.reserve = none) (ho : t.origin.isSome = true)
    (hh : p.heldOf t.seq = some h) (hc : p.board.completions = []) (hw : p.port.waiting = []) (hroom : p.port.writesQueued + 2 ≤ Config.writeQueueSize) :
    (p.finishTxn t e).port = p.port.with (completionWrites p.base h.slot (t.result e) h.unmatched p.run.clock (.done h.slot)) := by
  let P : Part := { p with te := { p.te with pool := p.te.pool.filter fun x => x.seq != t.seq } }
  have hfree : P.reserveToken t e = P := P.reserveToken_frees fun _ _ h => absurd (hreserve.symm.trans h) (by simp)
  have hroomy : ({ P with board := { P.board with held := P.board.held.filter fun x => x.seq != t.seq } } : Part).Roomy := ⟨hw, fun _ => hroom⟩
  show ((P.reserveToken t e).reportEnding t e).port = _
  rw [hfree]
  unfold Part.reportEnding
  rw [if_pos ho]
  unfold Part.completeSlot
  rw [show P.heldOf t.seq = some h from hh]
  dsimp only
  rw [hroomy.writeCompletion_eq]
  show p.port.with (Part.firstWrites _ _) = _
  unfold Part.firstWrites
  rw [if_pos (by exact hc)]
  rfl

/-! ## The row -/

/-- R68: the turn whose first RESULT has been handed over. -/
def Turn.handResult (x : Turn) : Turn := { x with resultHanded := true }

theorem exec_result {s : State} {x : Turn} {h : FrameHeader} {bytes payload : List Byte} (hf : s.InFrame x h 13)
    (hp : goodPayload h.len.toNat bytes = some payload) (hport : s.PortFree) (hfirst : x.resultHanded = false) :
    exec (.result bytes) s = .next ((s.onPart fun p =>
      (p.takeResult x.unit h.token.toNat h.code.toNat payload).frameEnds x.handResult false).onPart Part.settle) := by
  show Host.Outcome.next (s.onBlocks _) = _
  rw [State.onBlocks_eq (s.free_of_portFree hport), State.onPart_onPart]
  unfold State.onPart
  dsimp only
  rw [Part.goodContents_eq hf hp]
  dsimp only
  rw [if_neg (by rw [hfirst]; simp)]
  rfl

theorem exec_result_again {s : State} {x : Turn} {h : FrameHeader} {bytes payload : List Byte} (hf : s.InFrame x h 13)
    (hp : goodPayload h.len.toNat bytes = some payload) (hport : s.PortFree) (hagain : x.resultHanded = true) :
    exec (.result bytes) s = .next (s.onPart fun p => (p.frameEnds x false).settle) := by
  show Host.Outcome.next (s.onBlocks _) = _
  rw [State.onBlocks_eq (s.free_of_portFree hport)]
  unfold State.onPart
  dsimp only
  rw [Part.goodContents_eq hf hp]
  dsimp only
  rw [if_pos hagain]

/-! ## What a RESULT is taken for -/

/-- The transaction that a RESULT with this token ends. -/
def Part.awaiting (a token : Nat) (p : Part) : Option Transaction :=
  (p.te.pool.filter fun z => z.unit == a).find? fun z => z.state == .deferred && z.token == some token

theorem Part.takeResult_ignored {p : Part} {a : Nat} {u : FieldUnit} (hu : p.unitAt a = some u) (h : u.link = .departing ∨ p.run.drainEnded = true)
    (token code : Nat) (payload : List Byte) : p.takeResult a token code payload = p := by
  unfold Part.takeResult
  rw [hu]
  exact if_pos h

theorem Part.takeResult_ends {p : Part} {a token : Nat} {u : FieldUnit} {y : Transaction} (hu : p.unitAt a = some u) (hl : u.link ≠ .departing)
    (hd : p.run.drainEnded = false) (hy : p.awaiting a token = some y) (code : Nat) (payload : List Byte) :
    p.takeResult a token code payload =
      (p.finishTxn y { outcome := if code = 0 then .ok else .negative, payload := payload }).acceptResult a token := by
  unfold Part.takeResult
  rw [hu]
  dsimp only
  rw [if_neg (fun h => h.elim hl (by rw [hd]; simp))]
  rw [show (p.unitQueue a).find? _ = some y from hy]

theorem Part.takeResult_late {p : Part} {a token : Nat} {u : FieldUnit} {x : Reservation} (hu : p.unitAt a = some u) (hl : u.link ≠ .departing)
    (hd : p.run.drainEnded = false) (hy : p.awaiting a token = none) (hx : u.reservations.find? (fun r => r.token == token) = some x) (code : Nat)
    (payload : List Byte) (hw : p.port.waiting = []) :
    p.takeResult a token code payload =
      (((p.setPlace a (FieldUnit.unreserve token)).takeFault (resultFault .lateResult a x.tag code token payload.length))).acceptResult a token := by
  have hplace : p.updateUnit a (FieldUnit.unreserve token) = p.setPlace a (FieldUnit.unreserve token) :=
    Part.updateUnit_silent (f := FieldUnit.unreserve token) (fun _ => rfl) (fun _ => unitBitChange_shown rfl rfl rfl rfl rfl) p
  have hwaiting : (p.setPlace a (FieldUnit.unreserve token)).port.waiting = [] := by
    rw [Part.setPlace_um]
    exact hw
  unfold Part.takeResult
  rw [hu]
  dsimp only
  rw [if_neg (fun h => h.elim hl (by rw [hd]; simp)), show (p.unitQueue a).find? _ = none from hy]
  dsimp only
  rw [hx]
  dsimp only
  rw [show p.updateUnit a (fun v => { v with reservations := v.reservations.filter fun y => y.token != token }) = _ from hplace, Part.raise_fault hwaiting]

theorem Part.takeResult_known {p : Part} {a token : Nat} {u : FieldUnit} (hu : p.unitAt a = some u) (hl : u.link ≠ .departing)
    (hd : p.run.drainEnded = false) (hy : p.awaiting a token = none) (hx : u.reservations.find? (fun r => r.token == token) = none)
    (hlast : u.lastAccepted = some token) (code : Nat) (payload : List Byte) :
    p.takeResult a token code payload = p.setPlace a (FieldUnit.acknowledge token) := by
  unfold Part.takeResult
  rw [hu]
  dsimp only
  rw [if_neg (fun h => h.elim hl (by rw [hd]; simp)), show (p.unitQueue a).find? _ = none from hy]
  dsimp only
  rw [hx]
  dsimp only
  rw [if_pos hlast]
  exact Part.updateUnit_silent (f := FieldUnit.acknowledge token) (fun _ => rfl) (fun _ => unitBitChange_shown rfl rfl rfl rfl rfl) p

theorem Part.takeResult_stray {p : Part} {a token : Nat} {u : FieldUnit} (hu : p.unitAt a = some u) (hl : u.link ≠ .departing)
    (hd : p.run.drainEnded = false) (hy : p.awaiting a token = none) (hx : u.reservations.find? (fun r => r.token == token) = none)
    (hlast : u.lastAccepted ≠ some token) (code : Nat) (payload : List Byte) (hw : p.port.waiting = []) :
    p.takeResult a token code payload = p.takeFault (resultFault .strayResult a 0 code token payload.length) := by
  unfold Part.takeResult
  rw [hu]
  dsimp only
  rw [if_neg (fun h => h.elim hl (by rw [hd]; simp)), show (p.unitQueue a).find? _ = none from hy]
  dsimp only
  rw [hx]
  dsimp only
  rw [if_neg hlast, Part.raise_fault hw]

end Sys2Proof.Machine
end

section
/-! SUPPORT. What a RESULT leaves (R68, R93, R94). -/

namespace Sys2Proof.Machine

/-- R93: the part after a RESULT that ends a transaction. -/
def Part.resultEnds (x : Turn) (y : Transaction) (e : Ending) (u : FieldUnit) (token : Nat) (p : Part) : Part :=
  ((p.finishTxn y e).putUnit x.unit (some (u.accept token)) false).setTurn (x.handResult.gapped p.run.clock)

theorem Part.setTurn_unitSlot (t : Turn) (p : Part) (a : Nat) : (p.setTurn t).unitSlot a = p.unitSlot a := rfl

theorem completionWrites_counts (base n : Nat) (r : Result) (b : Bool) (now : Word) (tag : ReportTag) :
    ((completionWrites base n r b now tag).filter fun a => !a.isRead).length = 2 ∧ ((completionWrites base n r b now tag).filter Access.isRead).length = 0 :=
  ⟨rfl, rfl⟩

theorem State.unitMirror_counts (s : State) (a : Nat) (new : Option FieldUnit) :
    ((s.unitMirror a new).filter fun x => !x.isRead).length ≤ 3 ∧ ((s.unitMirror a new).filter Access.isRead).length = 0 := by
  unfold State.unitMirror
  split
  · exact ⟨Nat.zero_le _, rfl⟩
  · exact ⟨(mirrorWrites_counts _ _ _).1.le, (mirrorWrites_counts _ _ _).2⟩

/-- R174: writes before a mirror rewrite, with room for both. -/
theorem State.fits_before_mirror {s : State} {n : Nat} (hroom : s.PortRoom (n + 3) 0) {l : List Access} (hwrites : (l.filter fun a => !a.isRead).length = n)
    (hreads : (l.filter Access.isRead).length = 0) (a : Nat) (new : Option FieldUnit) :
    s.part.port.Fits l ∧ (s.part.port.with l).Fits (s.unitMirror a new) := by
  obtain ⟨h1, h2⟩ := s.unitMirror_counts a new
  refine WindowPort.fits_append (s.fits_of_portRoom hroom ?_ ?_)
  · rw [List.filter_append, List.length_append]
    omega
  · rw [List.filter_append, List.length_append]
    omega

/-- R93: the turn of a RESULT handed over. -/
def Part.resultLine (x : Turn) (p : Part) : LineController := { p.line with turn := some (x.handResult.gapped p.run.clock) }

/-- R93, R94: what a RESULT leaves that ends the transaction `y`, before and after its finish is resolved. -/
structure State.ResultRow (s r : State) (x : Turn) (y : Transaction) (e : Ending) (u : FieldUnit) (token : Nat) : Prop where
  run : r.part.run = s.part.run
  dir : r.part.dir = s.part.dir
  jw : r.part.jw = s.part.jw
  others : s.OtherUnits r x.unit
  line : r.part.line = s.part.resultLine x
  pool : r.part.te.pool = s.part.te.pool.filter fun z => z.seq != y.seq
  unit : r.part.unitAt x.unit = some (u.accept token)
  rewrites : s.RewritesUnit r x.unit (some (u.accept token))
  fault : s.PortRoom 7 0 → y.origin = none → e.outcome ≠ .ok →
    s.part.port.fifo ++ faultWrites s.part.base s.part.svc.ringIndex s.part.svc.nextFault (y.lateFailure e) s.part.run.clock ++
      s.unitMirror x.unit (some (u.accept token)) <+: r.part.port.fifo
  completion : ∀ h : HeldRequest, s.PortRoom 5 0 → y.origin.isSome = true → s.part.heldOf y.seq = some h → s.part.board.completions = [] →
    s.part.port.fifo ++ completionWrites s.part.base h.slot (y.result e) h.unmatched s.part.run.clock (.done h.slot) ++
      s.unitMirror x.unit (some (u.accept token)) <+: r.part.port.fifo
  completes : y.origin.isSome = true → s.Completes r y.seq (y.result e)
  fails : y.origin = none → e.outcome ≠ .ok → s.Logs r (y.lateFailure e)
  quiet : y.origin.isSome = true ∨ e.outcome = .ok → s.LogsNothing r

theorem State.resultRow {s : State} {x : Turn} {y : Transaction} {e : Ending} {u : FieldUnit} (token : Nat) (hreserve : e.reserve = none)
    (habort : e.byAbort = false) (hy : ∃ z ∈ s.part.te.pool, z.seq = y.seq) (hu : s.part.unitAt x.unit = some u) (ha : 1 ≤ x.unit ∧ x.unit ≤ 30)
    (hs : s.Settled) (hw : s.part.port.waiting = []) :
    s.Finished (s.onPart (Part.resultEnds x y e u token)) [⟨y.seq, e.outcome == .ok, true⟩] ∧
    ∀ r : State, s.ResolvedOrNot (s.onPart (Part.resultEnds x y e u token)) r → s.ResultRow r x y e u token := by
  obtain ⟨hlater, hfinishes, -⟩ := hs hw
  have hends := Part.finishTxn_ends hy e
  have hum := hends.frees fun _ _ h1 => absurd (hreserve.symm.trans h1) (by simp)
  have hslotF : ∀ b, (s.part.finishTxn y e).unitSlot b = s.part.unitSlot b := fun b => Part.unitSlot_of_um hum b
  have hraiseFault := Part.finishTxn_fault (p := s.part) (t := y) hreserve
  have hraiseDone := fun h => Part.finishTxn_completion (p := s.part) (t := y) (h := h) hreserve
  have hT : s.onPart (Part.resultEnds x y e u token) = s.onPart fun _ =>
    ((s.part.finishTxn y e).putUnit x.unit (some (u.accept token)) false).setTurn (x.handResult.gapped s.part.run.clock) := rfl
  rw [hT]
  generalize s.part.finishTxn y e = F at *
  have huF : F.unitAt x.unit = some u := by
    unfold Part.unitAt
    rw [hslotF]
    exact hu
  have hbit : unitBitChange (F.unitAt x.unit) (some (u.accept token)) = false := by
    rw [huF]
    exact u.accept_bit _
  obtain ⟨hboard, hte, hdir, hjw, hwait⟩ := F.putUnit_frame x.unit (some (u.accept token)) false
  have hcalm := F.putUnit_calm x.unit (some (u.accept token)) false
  have hserves := Part.putUnit_serves x.unit (some (u.accept token)) false F
  have hslotP := fun b => Part.putUnit_slot x.unit (some (u.accept token)) false F ha b
  have hrewrites := fun (r : State) => Part.putUnit_rewritesLater (s := s) (r := r) (p := F) (new := some (u.accept token)) ha hends.works.toWorks.base
    (congrArg UnitSlot.version (hslotF x.unit)) (by rw [huF, hu]) rfl
  have hwritten : F.unitWrites x.unit (some (u.accept token)) false = s.unitMirror x.unit (some (u.accept token)) :=
    Part.unitWrites_same hends.works.toWorks.base (congrArg UnitSlot.version (hslotF x.unit)) (by rw [huF, hu]) rfl
  have hraised := Part.putUnit_raised (p := F) ha hbit
  rw [hwritten] at hraised
  have hsvc := F.putUnit_svc x.unit (some (u.accept token)) false
  generalize F.putUnit x.unit (some (u.accept token)) false = P at *
  have hfits := fun (n : Nat) (l : List Access) (hroom : s.PortRoom (n + 3) 0) (h1 : (l.filter fun a => !a.isRead).length = n)
    (h2 : (l.filter Access.isRead).length = 0) => State.fits_before_mirror hroom h1 h2 x.unit (some (u.accept token))
  have hrun : P.run = s.part.run := hcalm.run.trans hends.calm.run
  have hheldOf : ∀ n, P.heldOf n = F.heldOf n := fun n => by
    unfold Part.heldOf
    rw [hboard]
  let t : State := s.onPart fun _ => P.setTurn (x.handResult.gapped s.part.run.clock)
  have hworks : P.Works t.part := Part.setTurn_works _ _
  have hbase : t.part.board = F.board := hboard
  refine ⟨⟨?_, ?_, ?_, ?_, ?_, fun n hn => ?_⟩, fun r hr => ?_⟩
  · exact (congrArg BoardController.finishes hbase).trans (by rw [hends.board, hfinishes]; rfl)
  · exact (congrArg BoardController.registry hbase).trans (by rw [hends.board])
  · exact (congrArg BoardController.nextSeq hbase).trans (by rw [hends.board])
  · exact (congrArg BoardController.sweep hbase).trans (by rw [hends.board])
  · exact (congrArg BoardController.held hbase) ▸ hends.held
  · exact (hheldOf n).trans (hends.heldOf n (Ne.symm (hn _ List.mem_cons_self)))
  · have hres := State.ResolvedOrNot.resolves (t := t) hr (hcalm.later.trans (hends.calm.later.trans hlater))
      fun n hn => hends.calm.waits n (hcalm.waits n hn)
    have hslots : ∀ b, r.part.unitSlot b = P.unitSlot b := fun b => Part.unitSlot_of_um (p := P) hres.releases.um b
    have hPr : P.Works r.part := hworks.trans hres.works
    have hall : F.Works r.part := hserves.toWorks.trans hPr
    have hpool : r.part.te = { P.te with syncs := r.part.te.syncs } := hres.releases.te
    have hrsvc : r.part.svc = P.svc := hres.releases.svc
    refine ⟨hres.releases.run.trans hrun, ?dir, ?jw, fun b hb => ?others, ?line, ?pool, ?unit, hrewrites r hPr (hslots _), fun hroom ho h1 => ?fault,
      fun h hroom ho hh hc => ?completion, fun ho => ?completes, fun ho h1 => ?fails, fun h => ?quiet⟩
    case dir => exact (hres.releases.dir.trans hdir).trans hends.dir
    case jw => exact (hres.releases.jw.trans hjw).trans hends.jw
    case others => rw [hslots, hslotP, if_neg hb, hslotF]
    case line =>
      refine hres.releases.line.trans ?_
      show ({ P.line with turn := _ } : LineController) = _
      rw [hcalm.line, hends.calm.line]
      rfl
    case pool => rw [hpool, hte, hends.te]
    case unit =>
      unfold Part.unitAt
      rw [hslots, hslotP, if_pos rfl]
    case fault =>
      obtain ⟨hf1, hf2⟩ := hfits 4 _ hroom (faultWrites_counts ..).1 (faultWrites_counts ..).2
      have hF := hraiseFault ho h1 habort hf1
      have hP := hraised (by rw [hF]; exact hf2)
      rw [hF] at hP
      have hfifo := hPr.port.fifo
      rw [hP] at hfifo
      exact hfifo
    case completion =>
      obtain ⟨hf1, hf2⟩ := hfits 2 _ hroom (completionWrites_counts ..).1 (completionWrites_counts ..).2
      have hF := hraiseDone h ho hh hc hw (by have := hroom.2.2.1; omega)
      have hP := hraised (by rw [hF]; exact hf2)
      rw [hF] at hP
      have hfifo := hPr.port.fifo
      rw [hP] at hfifo
      exact hfifo
    case completes => exact Part.Shows.completes (p := s.part) (q := F) (hends.works.toWorks.trans hall) rfl rfl rfl hall (hends.shows ho)
    case fails => exact ⟨_, _, (hends.logs ho h1 habort (WindowPort.not_waits hw _)).trans hall.port.outstanding⟩
    case quiet =>
      have hF := hends.quiet (h.imp_right .inl)
      rw [State.LogsNothing, hrsvc, hsvc, hF]
      exact ⟨rfl, rfl⟩

/-! ## A RESULT that ends nothing -/

/-- What a RESULT leaves that ends no transaction: the unit at its address, the port and the Service Unit apart, nothing changes. -/
structure Part.Acknowledges (p q : Part) (a : Nat) : Prop where
  run : q.run = p.run
  line : q.line = p.line
  dir : q.dir = p.dir
  jw : q.jw = p.jw
  te : q.te = p.te
  board : q.board = p.board
  dismissWait : q.um.dismissWait = p.um.dismissWait
  later : q.port.later = p.port.later
  others : ∀ b, b ≠ a → q.unitSlot b = p.unitSlot b

theorem Part.Acknowledges.refl (p : Part) (a : Nat) : p.Acknowledges p a := ⟨rfl, rfl, rfl, rfl, rfl, rfl, rfl, rfl, fun _ _ => rfl⟩

theorem Part.Acknowledges.trans {p q r : Part} {a : Nat} (h : p.Acknowledges q a) (h' : q.Acknowledges r a) : p.Acknowledges r a :=
  ⟨h'.run.trans h.run, h'.line.trans h.line, h'.dir.trans h.dir, h'.jw.trans h.jw, h'.te.trans h.te, h'.board.trans h.board,
    h'.dismissWait.trans h.dismissWait, h'.later.trans h.later, fun b hb => (h'.others b hb).trans (h.others b hb)⟩

theorem Part.setPlace_acknowledges (a : Nat) (f : FieldUnit → FieldUnit) (p : Part) : p.Acknowledges (p.setPlace a f) a := by
  have hothers : ∀ b, b ≠ a → (p.setPlace a f).unitSlot b = p.unitSlot b := fun b hb => Part.setPlace_other hb f p
  obtain ⟨v, hv⟩ := p.setPlace_eq a f
  rw [hv] at hothers ⊢
  exact ⟨rfl, rfl, rfl, rfl, rfl, rfl, rfl, rfl, hothers⟩

theorem Part.takeFault_acknowledges (f : FaultRecord) (p : Part) (a : Nat) : p.Acknowledges (p.takeFault f) a :=
  ⟨rfl, rfl, rfl, rfl, rfl, rfl, rfl, p.takeFault_later f, fun _ _ => rfl⟩

theorem Part.putUnit_acknowledges {a : Nat} (ha : 1 ≤ a ∧ a ≤ 30) (new : Option FieldUnit) (f : Bool) (p : Part) : p.Acknowledges (p.putUnit a new f) a := by
  obtain ⟨hboard, hte, hdir, hjw, hwait⟩ := p.putUnit_frame a new f
  have hcalm := p.putUnit_calm a new f
  exact ⟨hcalm.run, hcalm.line, hdir, hjw, hte, hboard, hwait, hcalm.later, fun b hb => by rw [Part.putUnit_slot a new f p ha b, if_neg hb]⟩

/-- R93: a late RESULT's part: the reservation gone, the record handed on. -/
def Part.lateTaken (a : Nat) (f : FaultRecord) (token : Nat) (p : Part) : Part := (p.setPlace a (FieldUnit.unreserve token)).takeFault f

theorem Part.lateTaken_unit {a : Nat} {u : FieldUnit} {p : Part} (ha : 1 ≤ a ∧ a ≤ 30) (hu : p.unitAt a = some u) (f : FaultRecord) (token : Nat) :
    (p.lateTaken a f token).unitSlot a = { p.unitSlot a with place := some (u.unreserve token) } :=
  Part.setPlace_self ha hu _

theorem Part.lateTaken_port {a : Nat} {f : FaultRecord} {p : Part} (token : Nat)
    (h : p.port.Fits (faultWrites p.base p.svc.ringIndex p.svc.nextFault f p.run.clock)) :
    (p.lateTaken a f token).port = p.port.with (faultWrites p.base p.svc.ringIndex p.svc.nextFault f p.run.clock) := by
  unfold Part.lateTaken
  obtain ⟨v, hv⟩ := p.setPlace_eq a (FieldUnit.unreserve token)
  rw [hv, Part.takeFault_fits (by exact h)]
  rfl

theorem Part.lateTaken_svc (a : Nat) (f : FaultRecord) (token : Nat) (p : Part) : (p.lateTaken a f token).svc = (p.takeFault f).svc := by
  unfold Part.lateTaken
  obtain ⟨v, hv⟩ := p.setPlace_eq a (FieldUnit.unreserve token)
  rw [hv]
  rfl

/-- R94: the token of the row taken for a reservation. -/
def FieldUnit.acceptLate (token : Nat) (u : FieldUnit) : FieldUnit := (u.unreserve token).accept token

theorem Part.takeResult_late_eq {p : Part} {a token : Nat} {u : FieldUnit} {x : Reservation} (ha : 1 ≤ a ∧ a ≤ 30) (hu : p.unitAt a = some u)
    (hl : u.link ≠ .departing) (hd : p.run.drainEnded = false) (hy : p.awaiting a token = none)
    (hx : u.reservations.find? (fun r => r.token == token) = some x) (code : Nat) (payload : List Byte) (hw : p.port.waiting = []) :
    p.takeResult a token code payload =
      (p.lateTaken a (resultFault .lateResult a x.tag code token payload.length) token).putUnit a (some (u.acceptLate token)) false := by
  rw [Part.takeResult_late hu hl hd hy hx code payload hw]
  refine Part.acceptResult_eq (p := p.lateTaken a _ token) ?_ token
  unfold Part.unitAt
  rw [Part.lateTaken_unit ha hu]

/-- R93: no transaction awaits the RESULT; whatever it is taken for, no other owner changes. -/
theorem Part.takeResult_acknowledges {p : Part} {a token : Nat} {u : FieldUnit} (ha : 1 ≤ a ∧ a ≤ 30) (hu : p.unitAt a = some u) (hl : u.link ≠ .departing)
    (hd : p.run.drainEnded = false) (hy : p.awaiting a token = none) (code : Nat) (payload : List Byte) (hw : p.port.waiting = []) :
    p.Acknowledges (p.takeResult a token code payload) a := by
  cases hx : u.reservations.find? (fun r => r.token == token) with
  | some x =>
    rw [Part.takeResult_late_eq ha hu hl hd hy hx code payload hw]
    exact ((p.setPlace_acknowledges _ _).trans (Part.takeFault_acknowledges _ _ _)).trans (Part.putUnit_acknowledges ha _ _ _)
  | none =>
    by_cases hlast : u.lastAccepted = some token
    · rw [Part.takeResult_known hu hl hd hy hx hlast]
      exact p.setPlace_acknowledges _ _
    · rw [Part.takeResult_stray hu hl hd hy hx hlast code payload hw]
      exact p.takeFault_acknowledges _ _

/-- R93, R163: a RESULT for a reservation. -/
theorem State.lateRow {s r : State} {a token code : Nat} {u : FieldUnit} {x : Reservation} {payload : List Byte} {l : LineController}
    (ha : 1 ≤ a ∧ a ≤ 30) (hu : s.part.unitAt a = some u) (hl : u.link ≠ .departing) (hd : s.part.run.drainEnded = false)
    (hy : s.part.awaiting a token = none) (hx : u.reservations.find? (fun r => r.token == token) = some x) (hroom : s.PortRoom 4 0)
    (hr : r.part = { s.part.takeResult a token code payload with line := l }) :
    r.part.unitAt a = some (u.acceptLate token) ∧ s.Records r (resultFault .lateResult a x.tag code token payload.length) ∧
    s.RewritesUnit r a (some (u.accept token)) ∧
    (s.PortRoom 7 0 →
      s.part.port.fifo ++ faultWrites s.part.base s.part.svc.ringIndex s.part.svc.nextFault (resultFault .lateResult a x.tag code token payload.length)
        s.part.run.clock ++ s.unitMirror a (some (u.accept token)) <+: r.part.port.fifo) := by
  rw [Part.takeResult_late_eq ha hu hl hd hy hx code payload hroom.1] at hr
  generalize resultFault .lateResult a x.tag code token payload.length = f at *
  have hcounts := faultWrites_counts s.part.base s.part.svc.ringIndex s.part.svc.nextFault f s.part.run.clock
  have hfits := s.fits_of_portRoom hroom hcounts.1.le hcounts.2.le
  have hport := Part.lateTaken_port (a := a) token hfits
  have hsvc := s.part.lateTaken_svc a f token
  have hslot := Part.lateTaken_unit ha hu f token
  have hbase : (s.part.lateTaken a f token).base = s.part.base := by
    have hrun := ((s.part.setPlace_acknowledges a (FieldUnit.unreserve token)).trans (Part.takeFault_acknowledges f _ _)).run
    unfold Part.base
    rw [show (s.part.lateTaken a f token).run = s.part.run from hrun]
  generalize s.part.lateTaken a f token = L at *
  have huL : L.unitAt a = some (u.unreserve token) := by
    unfold Part.unitAt
    rw [hslot]
  have hbit : unitBitChange (L.unitAt a) (some (u.acceptLate token)) = false := by
    rw [huL]
    exact (u.unreserve token).accept_bit token
  have hbody : unitBody (L.unitAt a) = unitBody (s.part.unitAt a) := by rw [huL, hu]; rfl
  have hversion : (L.unitSlot a).version = (s.part.unitSlot a).version := by rw [hslot]
  have hworks : (L.putUnit a (some (u.acceptLate token)) false).Works r.part := by
    rw [hr]
    exact (Part.setLine_serves _ _).toWorks
  have hwritten : L.unitWrites a (some (u.acceptLate token)) false = s.unitMirror a (some (u.accept token)) := Part.unitWrites_same hbase hversion hbody rfl
  have hLr := (Part.putUnit_serves a (some (u.acceptLate token)) false L).toWorks.trans hworks
  have hrsvc : r.part.svc = { L.svc with bankQueue := r.part.svc.bankQueue } := by
    rw [hr]
    exact L.putUnit_svc _ _ _
  refine ⟨?_, ⟨?_, ?_, ?_⟩, Part.putUnit_rewritesLater (new := some (u.acceptLate token)) ha hbase hversion hbody rfl hworks (by rw [hr]; rfl), fun hroom7 => ?_⟩
  · rw [hr]
    show (L.putUnit a _ false).unitAt a = _
    unfold Part.unitAt
    rw [Part.putUnit_slot a _ false L ha a, if_pos rfl]
  · have hfifo := hLr.port.fifo
    rw [hport] at hfifo
    exact hfifo
  · rw [hrsvc, hsvc, Part.takeFault_fits hfits]
    rfl
  · rw [hrsvc, hsvc, Part.takeFault_fits hfits]
    rfl
  · obtain ⟨-, hf2⟩ := State.fits_before_mirror hroom7 hcounts.1 hcounts.2 a (some (u.accept token))
    have hP := Part.putUnit_raised (p := L) ha hbit (by rw [hport, hwritten]; exact hf2)
    rw [hwritten, hport] at hP
    have hfifo := hworks.port.fifo
    rw [hP] at hfifo
    exact hfifo

/-! ## The statement -/

/-- Settles O53: the line of the RESULT table decides what ends, and the mirror follows behind. -/
theorem resultIsJudgedByItsToken : Obligations.ResultIsJudgedByItsToken := by
  unfold Obligations.ResultIsJudgedByItsToken
  intro s x h bytes payload u hf hp hu ha hworking hs hroom
  have hw := hroom.1
  have hport : s.PortFree := ⟨hw, hroom.2.1⟩
  refine ⟨fun hidle => ?idle, fun hfirst hl hd => ?judged⟩
  case idle =>
    by_cases hagain : x.resultHanded = true
    · have hsame : x = x.handResult := by
        unfold Turn.handResult
        rw [← hagain]
      rw [hs.exec_gap hw (exec_result_again hf hp hport hagain)]
      conv_lhs => rw [hsame]
      rfl
    · have hfirst : x.resultHanded = false := Bool.eq_false_iff.mpr hagain
      have hexec := exec_result hf hp hport hfirst
      rw [State.onPart_onPart] at hexec
      refine hs.exec_gap (x := x.handResult) hw (hexec.trans ?_)
      unfold State.onPart
      dsimp only
      rw [Part.takeResult_ignored hu (hidle.resolve_left hagain)]
  case judged =>
    have hexec := exec_result hf hp hport hfirst
    cases hy : s.part.awaiting x.unit h.token.toNat with
    | some y =>
      rw [show (s.part.te.pool.filter fun z => z.unit == x.unit).find? (fun z => z.state == .deferred && z.token == some h.token.toNat) = some y from hy]
      have hmem := List.mem_filter.mp (List.mem_of_find?_eq_some hy)
      have hcode : h.code.toNat = 0 ↔ h.code = 0 := by rw [← BitVec.toNat_inj]; rfl
      have htake := Part.takeResult_ends hu hl hd hy h.code.toNat payload
      rw [if_congr hcode rfl rfl] at htake
      generalize he : ({ outcome := if h.code = 0 then .ok else .negative, payload := payload } : Ending) = e at htake
      have hreserve : e.reserve = none := by rw [← he]
      have habort : e.byAbort = false := by rw [← he]
      have hok : e.outcome = .ok ↔ h.code = 0 := by
        rw [← he]
        by_cases h0 : h.code = 0 <;> simp [h0]
      obtain ⟨hfinished, hrow⟩ := State.resultRow (x := x) h.token.toNat hreserve habort ⟨y, hmem.1, rfl⟩ hu ha hs hw
      have hends := Part.finishTxn_ends (p := s.part) ⟨y, hmem.1, rfl⟩ e
      have hum := hends.frees fun _ _ h1 => absurd (hreserve.symm.trans h1) (by simp)
      have huF : (s.part.finishTxn y e).unitAt x.unit = some u := by
        unfold Part.unitAt
        rw [Part.unitSlot_of_um hum]
        exact hu
      have hcalm := (s.part.finishTxn y e).putUnit_calm x.unit (some (u.accept h.token.toNat)) false
      have hstate : (s.onPart fun p => (p.takeResult x.unit h.token.toNat h.code.toNat payload).frameEnds x.handResult false) =
          s.onPart (Part.resultEnds x y e u h.token.toNat) := by
        unfold State.onPart
        dsimp only
        rw [htake, Part.acceptResult_eq huF, Part.frameEnds_gap, hcalm.run, hends.calm.run]
        rfl
      have hsyncs : (s.part.resultEnds x y e u h.token.toNat).te.syncs = s.part.te.syncs :=
        (congrArg TransactionEngine.syncs ((s.part.finishTxn y e).putUnit_frame x.unit _ _).2.1).trans (by rw [hends.te])
      have hrun : (s.part.resultEnds x y e u h.token.toNat).run = s.part.run := hcalm.run.trans hends.calm.run
      rw [hstate] at hexec
      refine ⟨_, hexec, fun hsteady => hsteady.settle_eq hrun, rfl, rfl, hsyncs, ?_, fun r hr => ?_⟩
      · have hsuccess : (e.outcome == .ok) = decide (h.code = 0) := by
          by_cases h0 : h.code = 0
          · rw [hok.mpr h0, decide_eq_true h0]
            rfl
          · rw [decide_eq_false h0]
            exact beq_eq_false_iff_ne.mpr fun e' => h0 (hok.mp e')
        rw [hsuccess] at hfinished
        exact hfinished
      · obtain ⟨hrrun, hrdir, hrjw, hrothers, hrline, hrpool, hrunit, hrrewrites, hrfault, hrcompletion, hrcompletes, hrfails, hrquiet⟩ := hrow r hr
        refine ⟨hrrun, hrdir, hrjw, hrothers, hrline, fun z hz => ?_, fun h => absurd h (by simp)⟩
        obtain rfl := Option.some.inj hz
        refine ⟨hrpool, hrunit, hrrewrites, fun hroom7 ho h1 => ?_, fun h' hroom5 ho hh hc => ?_, fun ho => ?_, fun ho h1 => ?_, fun h2 => ?_⟩
        · have hrecord := hrfault hroom7 ho fun e' => h1 (hok.mp e')
          rw [← he, if_neg h1] at hrecord
          exact hrecord
        · exact hrcompletion h' hroom5 ho hh hc
        · exact hrcompletes ho
        · have hfails := hrfails ho fun e' => h1 (hok.mp e')
          rw [← he, if_neg h1] at hfails
          exact hfails
        · exact hrquiet (h2.imp_right hok.mpr)
    | none =>
      rw [show (s.part.te.pool.filter fun z => z.unit == x.unit).find? (fun z => z.state == .deferred && z.token == some h.token.toNat) = none from hy]
      have hack := Part.takeResult_acknowledges ha hu hl hd hy h.code.toNat payload hw
      obtain ⟨hlater, hfinishes, -⟩ := hs hw
      generalize hT : s.part.takeResult x.unit h.token.toNat h.code.toNat payload = T at hack
      have hstate : (s.onPart fun p => (p.takeResult x.unit h.token.toNat h.code.toNat payload).frameEnds x.handResult false) =
          { s with part := { T with line := s.part.resultLine x } } := by
        unfold State.onPart
        dsimp only
        rw [hT, Part.frameEnds_gap]
        unfold Part.resultLine
        rw [← hack.run, ← hack.line]
        rfl
      rw [hstate] at hexec
      refine ⟨_, hexec, fun hsteady => hsteady.settle_eq hack.run, rfl, rfl, congrArg TransactionEngine.syncs hack.te, ?_, fun r hr => ?_⟩
      · have hboard : ({ T with line := s.part.resultLine x } : Part).board = s.part.board := hack.board
        refine ⟨?_, ?_, ?_, ?_, ?_, fun n _ => ?_⟩
        · rw [hboard, hfinishes]
          rfl
        · rw [hboard]
        · rw [hboard]
        · rw [hboard]
        · rw [hboard]
        · unfold Part.heldOf
          rw [hboard]
      · have hrpart : r.part = { T with line := s.part.resultLine x } := by
          rcases hr with rfl | ⟨-, rfl⟩
          · rfl
          · exact Part.resolve_eq_self (hack.later.trans hlater) ((congrArg BoardController.finishes hack.board).trans hfinishes)
        have hrT := hrpart
        rw [← hT] at hrT
        have hslots : ∀ b, r.part.unitSlot b = T.unitSlot b := fun b => by rw [hrpart]; rfl
        refine ⟨by rw [hrpart]; exact hack.run, by rw [hrpart]; exact hack.dir, by rw [hrpart]; exact hack.jw, fun b hb => (hslots b).trans (hack.others b hb),
          by rw [hrpart]; rfl, fun z hz => absurd hz (by simp), fun _ => ⟨by rw [hrpart]; exact hack.te, by rw [hrpart]; exact hack.board, fun x' hx => ?late,
            fun hx hlast => ?known, fun hx hlast => ?stray⟩⟩
        case late =>
          exact State.lateRow ha hu hl hd hy hx hroom hrT
        case known =>
          have hplace := Part.takeResult_known hu hl hd hy hx hlast h.code.toNat payload
          have hslot := Part.setPlace_self ha hu (FieldUnit.acknowledge h.token.toNat)
          have hpart := s.part.setPlace_um x.unit (FieldUnit.acknowledge h.token.toNat)
          rw [← hplace, hT] at hslot hpart
          refine ⟨?_, ?_, ?_, ?_⟩
          · unfold Part.unitAt
            rw [hslots, hslot]
            rfl
          · rw [hrpart, hpart]
          · rw [hrpart, hpart]
          · rw [hslots, hslot]
        case stray =>
          have hfault := Part.takeResult_stray hu hl hd hy hx hlast h.code.toNat payload hw
          rw [hT] at hfault
          have hcounts := faultWrites_counts s.part.base s.part.svc.ringIndex s.part.svc.nextFault
            (resultFault .strayResult x.unit 0 h.code.toNat h.token.toNat payload.length) s.part.run.clock
          rw [Part.takeFault_fits (s.fits_of_portRoom hroom hcounts.1.le hcounts.2.le)] at hfault
          rw [hrpart, hfault]
          exact ⟨rfl, by rw [State.Records, hrpart, hfault]; exact ⟨List.prefix_refl _, rfl, rfl⟩⟩

end Sys2Proof.Machine
end

section
/-! SUPPORT. Line faults and what they make of the units (R52, R67). -/

namespace Sys2Proof.Machine

/-! ## The LINE condition of one unit (R52) -/

/-- R52: a unit after the report of a line fault's begin or end; a DEPARTING unit takes none. -/
def FieldUnit.lineJudged (faulty : Bool) (now : Word) (u : FieldUnit) : FieldUnit :=
  if u.link = .departing then u else FieldUnit.judgeGate now { u with factors := { u.factors with line := faulty } }

theorem FieldUnit.judgeGate_line (now : Word) (u : FieldUnit) : (u.judgeGate now).factors.line = u.factors.line := by
  unfold FieldUnit.judgeGate FieldUnit.openGate
  split
  · rfl
  · split
    · split <;> rfl
    · rfl

theorem FieldUnit.lineJudged_present {u : FieldUnit} (h : u.link ≠ .departing) (faulty : Bool) (now : Word) :
    u.lineJudged faulty now = FieldUnit.judgeGate now { u with factors := { u.factors with line := faulty } } := if_neg h

theorem FieldUnit.lineJudged_departing {u : FieldUnit} (h : u.link = .departing) (faulty : Bool) (now : Word) : u.lineJudged faulty now = u := if_pos h

theorem FieldUnit.lineJudged_line {u : FieldUnit} (h : u.link ≠ .departing) (faulty : Bool) (now : Word) : (u.lineJudged faulty now).factors.line = faulty := by
  rw [FieldUnit.lineJudged_present h]
  exact FieldUnit.judgeGate_line now _

theorem FieldUnit.lineJudged_same (faulty : Bool) (now : Word) (u : FieldUnit) :
    (u.lineJudged faulty now).link = u.link ∧ (u.lineJudged faulty now).generation = u.generation ∧ (u.lineJudged faulty now).unadmitted = u.unadmitted := by
  unfold FieldUnit.lineJudged
  split
  · exact ⟨rfl, rfl, rfl⟩
  · exact (FieldUnit.judgeGate_same now { u with factors := { u.factors with line := faulty } }).2

/-- R52: bit 3 of the factor byte is LINE. -/
theorem Factors.code_line (f : Factors) : f.code.getLsbD 3 = f.line := by
  obtain ⟨c, s, l, n, o⟩ := f
  revert c s l n o
  decide

theorem unitBody_ne_of_line {u v : FieldUnit} (h : u.factors.line ≠ v.factors.line) : unitBody (some u) ≠ unitBody (some v) := fun e =>
  h (by rw [← u.factors.code_line, ← v.factors.code_line, ← unitBody_factors, ← unitBody_factors, e])

theorem unitBitChange_line {u v : FieldUnit} (h : u.factors.line ≠ v.factors.line) : unitBitChange (some u) (some v) = true := by
  have hne : u.factors ≠ v.factors := fun e => h (congrArg Factors.line e)
  simp [unitBitChange, hne]

/-- R52: the place at an address after the report. -/
def Part.linePlace (faulty : Bool) (a : Nat) (p : Part) : Option FieldUnit := (p.unitAt a).map (FieldUnit.lineJudged faulty p.run.clock)

/-- R40, R52: the mirror writes of the report at one address. -/
def Part.lineWrites (faulty : Bool) (a : Nat) (p : Part) : List Access := p.unitWrites a (p.linePlace faulty a) false

theorem Part.lineCondition_eq (faulty : Bool) (a : Nat) (p : Part) :
    (∃ u, p.unitAt a = some u ∧ u.link ≠ .departing ∧ p.lineCondition faulty a = p.putUnit a (p.linePlace faulty a) false) ∨
    (p.linePlace faulty a = p.unitAt a ∧ p.lineCondition faulty a = p) := by
  unfold Part.lineCondition Part.linePlace
  cases hu : p.unitAt a with
  | none => exact .inr ⟨rfl, rfl⟩
  | some u =>
    by_cases hl : u.link = .departing
    · exact .inr ⟨congrArg some (u.lineJudged_departing hl _ _), if_pos hl⟩
    · exact .inl ⟨u, rfl, hl, by rw [Option.map_some, u.lineJudged_present hl]; exact if_neg hl⟩

/-! ## The report to every unit (R52) -/

/-- R52: what the report at the addresses of a list leaves. -/
structure Part.LineShown (p q : Part) (faulty : Bool) (l : List Nat) : Prop where
  works : p.Serves q
  calm : p.Calm q
  board : q.board = p.board
  te : q.te = p.te
  dir : q.dir = p.dir
  jw : q.jw = p.jw
  dismissWait : q.um.dismissWait = p.um.dismissWait
  svc : q.svc = { p.svc with bankQueue := q.svc.bankQueue }
  slot : ∀ b, q.unitSlot b = if b ∈ l then
    { version := if unitBody (p.unitAt b) = unitBody (p.linePlace faulty b) then (p.unitSlot b).version else (p.unitSlot b).version + 2
      place := p.linePlace faulty b } else p.unitSlot b
  writes : (p.port.ofBlock .unitManager ++ l.flatMap fun a => p.lineWrites faulty a).Sublist (q.port.ofBlock .unitManager)
  bit : ∀ b ∈ l, unitBitChange (p.unitAt b) (p.linePlace faulty b) = true → p.BitOn q .unitManager .unit b

theorem unitBitChange_self (u : Option FieldUnit) : unitBitChange u u = false := by
  cases u with
  | none => rfl
  | some u => exact unitBitChange_shown rfl rfl rfl rfl rfl

theorem Part.lineCondition_shown {a : Nat} (ha : 1 ≤ a ∧ a ≤ 30) (faulty : Bool) (p : Part) : p.LineShown (p.lineCondition faulty a) faulty [a] := by
  rcases p.lineCondition_eq faulty a with ⟨u, hu, hl, heq⟩ | ⟨hplace, heq⟩
  · rw [heq]
    obtain ⟨hboard, hte, hdir, hjw, hwait⟩ := p.putUnit_frame a (p.linePlace faulty a) false
    refine ⟨p.putUnit_serves .., p.putUnit_calm .., hboard, hte, hdir, hjw, hwait, p.putUnit_svc .., fun b => ?_, ?_, fun b hb hbit => ?_⟩
    · rw [Part.putUnit_slot _ _ _ _ ha]
      by_cases e : b = a
      · rw [if_pos e, if_pos (List.mem_singleton.mpr e), e]
        by_cases hbody : unitBody (p.unitAt a) = unitBody (p.linePlace faulty a) <;> simp [hbody]
      · rw [if_neg e, if_neg (fun h => e (List.mem_singleton.mp h))]
    · rw [List.flatMap_cons, List.flatMap_nil, List.append_nil]
      exact Part.putUnit_mirror ha _ _ _
    · obtain rfl := List.mem_singleton.mp hb
      exact Part.putUnit_bit ha hbit false
  · rw [heq]
    have hwrites : p.lineWrites faulty a = [] := by
      unfold Part.lineWrites Part.unitWrites
      rw [hplace]
      simp
    refine ⟨.refl _, .refl _, rfl, rfl, rfl, rfl, rfl, rfl, fun b => ?_, ?_, fun b hb hbit => ?_⟩
    · by_cases e : b = a
      · rw [if_pos (List.mem_singleton.mpr e), e, hplace, if_pos rfl]
        rfl
      · rw [if_neg (fun h => e (List.mem_singleton.mp h))]
    · rw [List.flatMap_cons, List.flatMap_nil, List.append_nil, hwrites, List.append_nil]
    · obtain rfl := List.mem_singleton.mp hb
      rw [hplace, unitBitChange_self] at hbit
      exact absurd hbit (by decide)

theorem Part.LineShown.trans {p q r : Part} {faulty : Bool} {l m : List Nat} (h : p.LineShown q faulty l) (h' : q.LineShown r faulty m)
    (hapart : ∀ b ∈ m, b ∉ l) : p.LineShown r faulty (l ++ m) := by
  have hslot : ∀ b ∈ m, q.unitSlot b = p.unitSlot b := fun b hb => by rw [h.slot, if_neg (hapart b hb)]
  have hplace : ∀ b ∈ m, q.unitAt b = p.unitAt b ∧ q.linePlace faulty b = p.linePlace faulty b := fun b hb => by
    have hunit : q.unitAt b = p.unitAt b := congrArg UnitSlot.place (hslot b hb)
    unfold Part.linePlace
    rw [hunit, h.calm.run]
    exact ⟨rfl, rfl⟩
  have hwrites : ∀ b ∈ m, q.lineWrites faulty b = p.lineWrites faulty b := fun b hb => by
    obtain ⟨hu, hp⟩ := hplace b hb
    unfold Part.lineWrites Part.unitWrites
    rw [hp, hu, hslot b hb, h.works.toWorks.base]
  refine ⟨h.works.trans h'.works, h.calm.trans h'.calm, h'.board.trans h.board, h'.te.trans h.te, h'.dir.trans h.dir, h'.jw.trans h.jw,
    h'.dismissWait.trans h.dismissWait, by rw [h'.svc, h.svc], fun b => ?_, ?_, fun b hb hbit => ?_⟩
  · rw [h'.slot b]
    by_cases hm : b ∈ m
    · rw [if_pos hm, if_pos (List.mem_append_right _ hm), (hplace b hm).1, (hplace b hm).2, hslot b hm]
    · rw [if_neg hm, h.slot b]
      simp [List.mem_append, hm]
  · rw [List.flatMap_append, ← List.append_assoc]
    refine List.Sublist.trans ?_ h'.writes
    have hsame : (m.flatMap fun a => p.lineWrites faulty a) = m.flatMap fun a => q.lineWrites faulty a :=
      List.flatMap_congr fun b hb => (hwrites b hb).symm
    rw [hsame]
    exact h.writes.append (List.Sublist.refl _)
  · rcases List.mem_append.mp hb with hl | hm
    · exact (h.bit b hl hbit).works h'.works.toWorks
    · obtain ⟨hu, hp⟩ := hplace b hm
      exact (h'.bit b hm (by rw [hu, hp]; exact hbit)).after h.works.toWorks

theorem Part.LineShown.refl (p : Part) (faulty : Bool) : p.LineShown p faulty [] :=
  ⟨.refl _, .refl _, rfl, rfl, rfl, rfl, rfl, rfl, fun _ => rfl, by rw [List.flatMap_nil, List.append_nil], fun _ h => absurd h List.not_mem_nil⟩

theorem Part.foldl_lineCondition_shown {l : List Nat} (hl : ∀ a ∈ l, 1 ≤ a ∧ a ≤ 30) (hn : l.Nodup) (faulty : Bool) (p : Part) :
    p.LineShown (l.foldl (fun q a => q.lineCondition faulty a) p) faulty l := by
  induction l generalizing p with
  | nil => exact .refl p faulty
  | cons a rest ih =>
    obtain ⟨hnot, hn⟩ := List.nodup_cons.mp hn
    have hfirst := Part.lineCondition_shown (hl a List.mem_cons_self) faulty p
    exact hfirst.trans (ih (fun b hb => hl b (List.mem_cons_of_mem _ hb)) hn _) fun b hb e => hnot (List.mem_singleton.mp e ▸ hb)

theorem Part.reportLineFault_shown (faulty : Bool) (p : Part) : p.LineShown (p.reportLineFault faulty) faulty unitAddresses :=
  Part.foldl_lineCondition_shown (fun _ h => mem_unitAddresses.mp h) (unitAddresses_ascending.imp fun h => Nat.ne_of_lt h) faulty p

/-- R52: the writes of one unit's mirror are among those of the report. -/
theorem Part.LineShown.single {p q : Part} {faulty : Bool} {l : List Nat} (h : p.LineShown q faulty l) {a : Nat} (ha : a ∈ l) :
    (p.lineWrites faulty a).Sublist (q.port.ofBlock .unitManager) := by
  obtain ⟨before, after, rfl⟩ := List.append_of_mem ha
  refine List.Sublist.trans ?_ h.writes
  rw [List.flatMap_append, List.flatMap_cons]
  exact (((List.sublist_append_left _ _).trans (List.sublist_append_right _ _))).trans (List.sublist_append_right _ _)

/-! ## The units after a line fault's begin or end -/

/-- R52, R40: what the statements say of the units that a report reaches; another row's work may follow at one address. -/
theorem State.ShowsLine.of_shown {s r : State} {q t : Part} {faulty : Bool} {but : Option Nat} (hq : s.part.Works q) (hum : q.um = s.part.um)
    (h : q.LineShown t faulty unitAddresses) (hr : t.Works r.part) (hslots : ∀ b, some b ≠ but → r.part.unitSlot b = t.unitSlot b)
    (hnone : ∀ b, some b = but → s.part.unitAt b = none → r.part.unitSlot b = s.part.unitSlot b) : s.ShowsLine r faulty but := by
  have hslot : ∀ b, q.unitSlot b = s.part.unitSlot b := fun b => Part.unitSlot_of_um hum b
  have hunit : ∀ b, q.unitAt b = s.part.unitAt b := fun b => congrArg UnitSlot.place (hslot b)
  have hshown : ∀ (a : Nat) (u : FieldUnit), 1 ≤ a ∧ a ≤ 30 → some a ≠ but → s.part.unitAt a = some u → r.part.unitSlot a =
      { version := if unitBody (some u) = unitBody (some (u.lineJudged faulty q.run.clock)) then (s.part.unitSlot a).version
          else (s.part.unitSlot a).version + 2
        place := some (u.lineJudged faulty q.run.clock) } := fun a u ha hb hu => by
    have hplace : q.linePlace faulty a = some (u.lineJudged faulty q.run.clock) := by
      unfold Part.linePlace
      rw [hunit, hu]
      rfl
    rw [hslots a hb, h.slot, if_pos (mem_unitAddresses.mpr ha), hplace, hunit, hu, hslot]
  refine ⟨fun a u ha hb hu => ⟨fun hbody => ?kept, fun hl hf => ⟨?version, ?bit⟩⟩, fun a hu => ?empty, ?writes⟩
  case kept =>
    have hs := hshown a u ha hb hu
    have hplace : r.part.unitAt a = some (u.lineJudged faulty q.run.clock) := congrArg UnitSlot.place hs
    rw [hplace] at hbody ⊢
    rw [hs, if_pos hbody.symm]
  case version =>
    rw [hshown a u ha hb hu]
    exact if_neg (unitBody_ne_of_line (by rw [u.lineJudged_line hl]; exact hf))
  case bit =>
    refine State.handsBit_of (((h.bit a (mem_unitAddresses.mpr ha) ?_).works hr).after hq)
    unfold Part.linePlace
    rw [hunit, hu]
    exact unitBitChange_line (by rw [u.lineJudged_line hl]; exact hf)
  case empty =>
    by_cases hb : some a = but
    · exact hnone a hb hu
    · rw [hslots a hb, h.slot]
      have hplace : q.linePlace faulty a = none := by
        unfold Part.linePlace
        rw [hunit, hu]
        rfl
      rw [hplace, hunit, hu, if_pos rfl, hslot]
      split
      · rw [← hu]
        rfl
      · rfl
  case writes =>
    refine List.Sublist.trans (List.Sublist.flatMap_right _ (g := fun a => q.lineWrites faulty a) fun a ha => ?_)
      (((List.sublist_append_right _ _).trans h.writes).trans ((WindowPort.ofBlock_outstanding _ _).trans hr.port.outstanding))
    split
    · next hcond =>
      obtain ⟨hb, hany⟩ := hcond
      cases hu : s.part.unitAt a with
      | none =>
        rw [hu] at hany
        exact absurd hany (by simp)
      | some u =>
        rw [hu] at hany
        obtain ⟨hl, hf⟩ := Bool.and_eq_true_iff.mp hany
        have hl : u.link ≠ .departing := bne_iff_ne.mp hl
        have hf : u.factors.line ≠ faulty := bne_iff_ne.mp hf
        have hplace : q.linePlace faulty a = some (u.lineJudged faulty q.run.clock) := by
          unfold Part.linePlace
          rw [hunit, hu]
          rfl
        have hbody : unitBody (some u) ≠ unitBody (some (u.lineJudged faulty q.run.clock)) :=
          unitBody_ne_of_line (by rw [u.lineJudged_line hl]; exact hf)
        have hr' : r.part.unitAt a = some (u.lineJudged faulty q.run.clock) :=
          congrArg UnitSlot.place (hshown a u (mem_unitAddresses.mp ha) hb hu)
        unfold Part.lineWrites Part.unitWrites
        rw [hplace, hunit, hu, hslot, hq.base, if_pos (by simpa using hbody), hr']
    · exact List.nil_sublist _

/-! ## Obligation: line faults (R65, R67) -/

/-- R67: the line fault's record taken, with the line and the fault line of the status. -/
def Part.faultTaken (f : FaultRecord) (faulty : Bool) (line : LineController) (p : Part) : Part :=
  ({ p with line := line, run := { p.run with lineFault := faulty } } : Part).takeFault f

/-- R67: the line of a line fault that has begun. -/
def LineController.faulted (now : Word) (l : LineController) : LineController := { l with fault := some now, idleSince := now, choice := none }

/-- R67: the record of a line fault's begin. -/
def lineFaultRecord (cause : Byte) (unit frameCode good : Nat) : FaultRecord :=
  { kind := .lineFaultBegin, unit := unit, tag := 0, detail := cause, detailHigh := 0, word1 := wordOf frameCode, word2 := wordOf good }

theorem Part.beginFault_eq {p : Part} (hw : p.port.waiting = []) (cause : Byte) (unit frameCode good : Nat) :
    p.beginFault cause unit frameCode good =
      (p.faultTaken (lineFaultRecord cause unit frameCode good) true (p.line.faulted p.run.clock)).reportLineFault true := by
  unfold Part.beginFault
  dsimp only
  rw [Part.raise_fault (p := { p with line := _, run := _ }) (by exact hw)]
  rfl

theorem Part.endFault_eq {p : Part} (hw : p.port.waiting = []) (start : Word) :
    p.endFault start = (p.faultTaken { kind := .lineFaultEnd, unit := 0, tag := 0, detail := 0, detailHigh := 0, word1 := p.run.clock - start, word2 := 0 }
      false { p.line with fault := none }).reportLineFault false := by
  unfold Part.endFault
  dsimp only
  rw [Part.raise_fault (p := { p with line := _, run := _ }) (by exact hw)]
  rfl

theorem Part.faultTaken_works (f : FaultRecord) (faulty : Bool) (line : LineController) (p : Part) : (p.takeFault f).Works (p.faultTaken f faulty line) :=
  (((p.takeFault f).setLine_serves line).trans (Part.setRun_serves { p.run with lineFault := faulty } _ rfl rfl)).toWorks

/-- R67, R52: what a line fault's begin or end leaves. -/
structure Part.FaultShown (p t : Part) (f : FaultRecord) (faulty : Bool) (l : LineController) : Prop where
  works : p.Works t
  first : (p.takeFault f).Works t
  run : t.run = { p.run with lineFault := faulty }
  line : t.line = l
  te : t.te = p.te
  board : t.board = p.board
  dir : t.dir = p.dir
  jw : t.jw = p.jw
  dismissWait : t.um.dismissWait = p.um.dismissWait
  later : t.port.later = p.port.later
  svc : t.svc = { (p.takeFault f).svc with bankQueue := t.svc.bankQueue }
  shown : (p.faultTaken f faulty l).LineShown t faulty unitAddresses

theorem Part.reportLineFault_faultShown (f : FaultRecord) (faulty : Bool) (line : LineController) (p : Part) :
    p.FaultShown ((p.faultTaken f faulty line).reportLineFault faulty) f faulty line := by
  have h := (p.faultTaken f faulty line).reportLineFault_shown faulty
  have hfirst := (p.faultTaken_works f faulty line).trans h.works.toWorks
  exact ⟨(p.takeFault_serves f).toWorks.trans hfirst, hfirst, h.calm.run, h.calm.line, h.te, h.board, h.dir, h.jw, h.dismissWait,
    h.calm.later.trans (p.takeFault_later f), h.svc, h⟩

theorem Part.FaultShown.records {s r : State} {t : Part} {f : FaultRecord} {faulty : Bool} {line : LineController} (h : s.part.FaultShown t f faulty line)
    (hr : t.Works r.part) (hroom : s.PortRoom 4 0) (hn : r.part.svc.nextFault = t.svc.nextFault) (hx : r.part.svc.ringIndex = t.svc.ringIndex) :
    s.Records r f := by
  have hsvc := h.svc
  exact s.records_of hroom (h.first.trans hr) (by rw [hn, hsvc]) (by rw [hx, hsvc])

theorem Part.FaultShown.recorded {s : State} {t : Part} {f : FaultRecord} {faulty : Bool} {line : LineController} (h : s.part.FaultShown t f faulty line)
    (hroom : s.PortRoom 4 0) : s.Records { s with part := t } f := h.records (.refl _) hroom rfl rfl

theorem Part.FaultShown.unit {p t : Part} {f : FaultRecord} {faulty : Bool} {line : LineController} (h : p.FaultShown t f faulty line) {a : Nat} {u : FieldUnit}
    (ha : 1 ≤ a ∧ a ≤ 30) (hu : p.unitAt a = some u) : t.unitAt a = some (u.lineJudged faulty p.run.clock) := by
  have hslot := h.shown.slot a
  rw [if_pos (mem_unitAddresses.mpr ha)] at hslot
  refine (congrArg UnitSlot.place hslot).trans ?_
  show Option.map _ (p.unitAt a) = _
  rw [hu]
  rfl

theorem Part.FaultShown.showsLine {s r : State} {t : Part} {f : FaultRecord} {faulty : Bool} {line : LineController} {but : Option Nat}
    (h : s.part.FaultShown t f faulty line) (hr : t.Works r.part) (hslots : ∀ b, some b ≠ but → r.part.unitSlot b = t.unitSlot b)
    (hnone : ∀ b, some b = but → s.part.unitAt b = none → r.part.unitSlot b = s.part.unitSlot b) : s.ShowsLine r faulty but :=
  .of_shown ((s.part.takeFault_serves f).toWorks.trans (s.part.faultTaken_works f faulty line)) rfl h.shown hr hslots hnone

/-- R67: a line fault's begin or end leaves nothing to settle. -/
theorem Part.FaultShown.settle_eq {s : State} {t : Part} {f : FaultRecord} {faulty : Bool} {line : LineController} (h : s.part.FaultShown t f faulty line)
    (hs : s.Settled) (hw : s.part.port.waiting = []) : t.settle = t := by
  obtain ⟨hlater, hfinishes, hdrain⟩ := hs hw
  refine Part.settle_eq_self (h.later.trans hlater) ((congrArg BoardController.finishes h.board).trans hfinishes) fun hd => hdrain ?_
  have hdone : t.drainDone = s.part.drainDone := by
    unfold Part.drainDone
    rw [h.te, h.dismissWait]
  rw [h.run, hdone] at hd
  exact hd

/-- R52: what the statements say of a unit that no row's work follows. -/
theorem FieldUnit.lineJudged_eq (faulty : Bool) (now : Word) (u : FieldUnit) :
    u.lineJudged faulty now = if u.link = .departing then u else FieldUnit.judgeGate now { u with factors := { u.factors with line := faulty } } := rfl

theorem exec_notIdle {s : State} (hport : s.PortFree) {c : Choice} (hc : s.part.line.choice = some c) (hworking : s.Working)
    (h1 : 2 ≤ elapsed s.part.run.clock c.since) (h2 : elapsed s.part.run.clock s.part.line.idleSince ≤ 1) :
    exec .notIdle s = .next (s.onPart fun p => (p.beginFault causeNotIdle c.unit c.kind.frameCode 0).settle) := by
  show Host.Outcome.next (s.onBlocks _) = _
  rw [State.onBlocks_eq (s.free_of_portFree hport)]
  unfold State.onPart
  dsimp only
  rw [hc]
  dsimp only
  rw [if_pos ⟨State.working_of hworking, h1, decide_eq_true h2⟩]

theorem exec_notIdle_none {s : State} (hport : s.PortFree)
    (h : ∀ c, s.part.line.choice = some c → elapsed s.part.run.clock c.since < 2 ∨ 2 ≤ elapsed s.part.run.clock s.part.line.idleSince) :
    exec .notIdle s = .next s := by
  show Host.Outcome.next (s.onBlocks _) = _
  rw [State.onBlocks_eq (s.free_of_portFree hport)]
  unfold State.onPart
  dsimp only
  cases hc : s.part.line.choice with
  | none => rfl
  | some c =>
    dsimp only
    rw [if_neg fun ⟨_, h1, h2⟩ => by
      have h2 : elapsed s.part.run.clock s.part.line.idleSince ≤ 1 := of_decide_eq_true h2
      rcases h c hc with e | e <;> omega]

theorem exec_lineFaultEnd {s : State} (hport : s.PortFree) {start : Word} (hf : s.part.line.fault = some start) (hworking : s.Working)
    (h1 : s.part.run.drainEnded = false) (h2 : 20 ≤ elapsed s.part.run.clock s.part.line.idleSince) :
    exec .lineFaultEnd s = .next (s.onPart fun p => (p.endFault start).settle) := by
  show Host.Outcome.next (s.onBlocks _) = _
  rw [State.onBlocks_eq (s.free_of_portFree hport)]
  unfold State.onPart
  dsimp only
  rw [hf]
  dsimp only
  rw [if_pos ⟨State.working_of hworking, h1, h2⟩]

theorem exec_lineFaultEnd_none {s : State} (hport : s.PortFree)
    (h : s.part.line.fault = none ∨ s.part.run.drainEnded = true ∨ elapsed s.part.run.clock s.part.line.idleSince < 20) :
    exec .lineFaultEnd s = .next s := by
  show Host.Outcome.next (s.onBlocks _) = _
  rw [State.onBlocks_eq (s.free_of_portFree hport)]
  unfold State.onPart
  dsimp only
  cases hf : s.part.line.fault with
  | none => rfl
  | some start =>
    dsimp only
    rw [if_neg fun ⟨_, h1, h2⟩ => by
      rcases h with e | e | e
      · exact absurd (e.symm.trans hf) (by simp)
      · exact absurd (e.symm.trans h1) (by simp)
      · omega]

/-- Settles O43: the record first, then each unit's mirror in ascending order. -/
theorem lineFaultsBeginAndEnd : Obligations.LineFaultsBeginAndEnd := by
  unfold Obligations.LineFaultsBeginAndEnd
  intro s hworking hs hroom
  have hw := hroom.1
  have hport : s.PortFree := ⟨hw, hroom.2.1⟩
  refine ⟨fun c hc h1 h2 => ?begins, fun c hc h => exec_notIdle_none hport fun c' hc' => Option.some.inj (hc'.symm.trans hc) ▸ h, fun start hf h1 h2 => ?ends,
    fun hc => exec_notIdle_none hport fun c' hc' => absurd (hc.symm.trans hc') (by simp), exec_lineFaultEnd_none hport⟩
  case begins =>
    have hshown := s.part.reportLineFault_faultShown (lineFaultRecord causeNotIdle c.unit c.kind.frameCode 0) true (s.part.line.faulted s.part.run.clock)
    have hexec := exec_notIdle hport hc hworking h1 h2
    unfold State.onPart at hexec
    dsimp only at hexec
    rw [Part.beginFault_eq hw, hshown.settle_eq hs hw] at hexec
    generalize Part.reportLineFault _ _ = t at hshown hexec
    refine ⟨_, hexec, rfl, rfl, hshown.line, hshown.run, hshown.recorded hroom, hshown.te, hshown.board, hshown.dir, hshown.jw,
      fun a u ha hu => hshown.unit ha hu, hshown.showsLine (.refl _) (fun _ _ => rfl) fun b hb => absurd hb (by simp)⟩
  case ends =>
    have hexec := exec_lineFaultEnd hport hf hworking h1 h2
    unfold State.onPart at hexec
    dsimp only at hexec
    have hshown := s.part.reportLineFault_faultShown
      { kind := .lineFaultEnd, unit := 0, tag := 0, detail := 0, detailHigh := 0, word1 := s.part.run.clock - start, word2 := 0 }
      false { s.part.line with fault := none }
    rw [Part.endFault_eq hw, hshown.settle_eq hs hw] at hexec
    generalize Part.reportLineFault _ _ = t at hshown hexec
    exact ⟨_, hexec, rfl, rfl, hshown.line, hshown.run, hshown.recorded hroom, hshown.te, hshown.board, hshown.dir, hshown.jw,
      fun a u ha hu => hshown.unit ha hu, hshown.showsLine (.refl _) (fun _ _ => rfl) fun b hb => absurd hb (by simp)⟩

end Sys2Proof.Machine
end

section
/-! SUPPORT. Requests that complete one after another, the room their writes need, and the ABORTs that wait for a transaction (R104, R122). -/

namespace Sys2Proof.Machine

/-! ## Room behind completions -/

/-- No block waits, and behind the writes of the next completion, where none is on its way, there is room for `k` writes more. -/
def Part.RoomFor (k : Nat) (p : Part) : Prop :=
  p.port.waiting = [] ∧ p.port.writesQueued + (if p.board.completions = [] then 2 else 0) + k ≤ Config.writeQueueSize ∧
  p.port.readsQueued ≤ Config.readQueueSize

/-- Writes raised are queued behind those raised before. -/
theorem WindowPort.with_queued {l : List Access} (h : ∀ a ∈ l, a.isRead = false) (w : WindowPort) :
    (w.with l).writesQueued = w.writesQueued + l.length ∧ (w.with l).readsQueued = w.readsQueued := by
  have hwrites : l.filter (fun a => !a.isRead) = l := List.filter_eq_self.mpr fun a ha => by rw [h a ha]; rfl
  have hreads : l.filter Access.isRead = [] := List.filter_eq_nil_iff.mpr fun a ha => by rw [h a ha]; exact Bool.false_ne_true
  unfold WindowPort.writesQueued WindowPort.readsQueued WindowPort.with
  dsimp only
  rw [List.filter_append, List.filter_append, List.length_append, List.length_append, hwrites, hreads]
  exact ⟨rfl, rfl⟩

theorem Part.RoomFor.of_eq {k : Nat} {p q : Part} (h : p.RoomFor k) (hp : q.port = p.port := by rfl)
    (hc : q.board.completions = p.board.completions := by rfl) : q.RoomFor k := by
  unfold Part.RoomFor
  rw [hp, hc]
  exact h

theorem Part.RoomFor.roomy {k : Nat} {p : Part} (h : p.RoomFor k) : p.Roomy := ⟨h.1, fun hc => by
  have h2 := h.2.1
  rw [if_pos hc] at h2
  omega⟩

theorem Part.RoomFor.fits {k : Nat} {p : Part} (h : p.RoomFor k) {l : List Access} (hw : (l.filter fun a => !a.isRead).length ≤ k)
    (hl : (l.filter Access.isRead).length = 0) : p.port.Fits l := by
  obtain ⟨h1, h2, h3⟩ := h
  refine ⟨h1, ?_, ?_⟩
  · split at h2 <;> omega
  · omega

theorem Part.RoomFor.writeCompletion {k : Nat} {p : Part} (h : p.RoomFor k) (n : Nat) (b : Bool) (r : Result) : (p.writeCompletion n b r).RoomFor k := by
  rw [h.roomy.writeCompletion_eq]
  obtain ⟨h1, h2, h3⟩ := h
  obtain ⟨hlength, hwrites⟩ := Completion.writes_facts p.base ⟨n, b, r, p.run.clock⟩
  obtain ⟨hw, hr⟩ := WindowPort.with_queued hwrites p.port
  refine ⟨h1, ?_⟩
  rw [if_neg (by simp)]
  unfold Part.firstWrites
  by_cases hc : p.board.completions = []
  · rw [if_pos hc] at h2 ⊢
    exact ⟨by rw [hw]; omega, by rw [hr]; exact h3⟩
  · rw [if_neg hc] at h2 ⊢
    rw [WindowPort.with_nil]
    exact ⟨h2, h3⟩

theorem Part.RoomFor.completeSlot {k : Nat} {p : Part} (h : p.RoomFor k) (n : Nat) (r : Result) : (p.completeSlot n r).RoomFor k := by
  unfold Part.completeSlot
  split
  · exact h
  · exact Part.RoomFor.writeCompletion (h.of_eq (q := { p with board := { p.board with held := _ } })) _ _ _

theorem Part.RoomFor.completeRequest {k : Nat} {p : Part} (h : p.RoomFor k) (n : Nat) (r : Result) : (p.completeRequest n r).RoomFor k := by
  unfold Part.completeRequest
  split
  · exact h
  · exact (h.completeSlot n r).of_eq

theorem Part.RoomFor.completeEach {k : Nat} {p : Part} (h : p.RoomFor k) (l : List (Nat × Result)) : (p.completeEach l).RoomFor k := by
  induction l generalizing p with
  | nil => exact h
  | cons x rest ih => exact ih (h.completeRequest x.1 x.2)

/-! ## Every request of a list completes -/

/-- R120: the finishes of the requests of a list that are held. -/
def Part.requestFinishes (l : List (Nat × Result)) (p : Part) : List Finish :=
  l.filterMap fun x => (p.heldOf x.1).map fun _ => ⟨x.1, x.2.outcome.success, false⟩

theorem Part.completeEach_finishes_eq {l : List (Nat × Result)} (hl : (l.map Prod.fst).Nodup) (p : Part) :
    (p.completeEach l).board.finishes = p.board.finishes ++ p.requestFinishes l := by
  induction l generalizing p with
  | nil => exact (List.append_nil _).symm
  | cons x rest ih =>
    rw [List.map_cons, List.nodup_cons] at hl
    have hsame : (p.completeRequest x.1 x.2).requestFinishes rest = p.requestFinishes rest := by
      unfold Part.requestFinishes
      refine List.filterMap_congr fun y hy => ?_
      have hne : y.1 ≠ x.1 := fun e => hl.1 (by rw [← e]; exact List.mem_map_of_mem hy)
      rw [Part.heldOf_completeRequest hne]
    show ((p.completeRequest x.1 x.2).completeEach rest).board.finishes = _
    rw [ih hl.2, hsame]
    unfold Part.requestFinishes
    cases hh : p.heldOf x.1 with
    | none => rw [Part.completeRequest_none hh, List.filterMap_cons_none (by rw [hh]; rfl)]
    | some h =>
      rw [(Part.completeRequest_board _ hh).1, List.filterMap_cons_some (by rw [hh]; rfl), List.append_assoc]
      rfl

theorem Part.completeEach_board (l : List (Nat × Result)) (p : Part) : (p.completeEach l).board = { p.board with
    held := (p.completeEach l).board.held, finishes := (p.completeEach l).board.finishes, completions := (p.completeEach l).board.completions } := by
  induction l generalizing p with
  | nil => rfl
  | cons x rest ih =>
    have hone : (p.completeRequest x.1 x.2).board = { p.board with
        held := (p.completeRequest x.1 x.2).board.held, finishes := (p.completeRequest x.1 x.2).board.finishes
        completions := (p.completeRequest x.1 x.2).board.completions } := by
      cases hh : p.heldOf x.1 with
      | none => rw [Part.completeRequest_none hh]
      | some h => rw [(Part.completeRequest_board _ hh).1]
    refine (ih (p.completeRequest x.1 x.2)).trans ?_
    rw [hone]
    rfl

/-- A request that is not held, or not in the list, is left as it is. -/
theorem Part.heldOf_completeEach_kept {m : Nat} {l : List (Nat × Result)} {p : Part} (h : (∃ x ∈ l, x.1 = m) → p.heldOf m = none) :
    (p.completeEach l).heldOf m = p.heldOf m := by
  by_cases hx : ∃ x ∈ l, x.1 = m
  · rw [h hx]
    have hnone := h hx
    unfold Part.heldOf at hnone ⊢
    exact List.find?_eq_none.mpr fun y hy => List.find?_eq_none.mp hnone y ((p.completeEach_releases l).held.subset hy)
  · exact Part.heldOf_completeEach (fun x hx' e => hx ⟨x, hx', e⟩) p

/-- Every request of the list that is held completes, where its entries agree on the result. -/
theorem Part.completeEach_shows_agreed {l : List (Nat × Result)} {n : Nat} {r : Result} (hx : (n, r) ∈ l) (hl : ∀ x ∈ l, x.1 = n → x.2 = r) {p : Part}
    {h : HeldRequest} (e : p.heldOf n = some h) : p.Shows (p.completeEach l) (h.completion r p.run.clock) := by
  induction l generalizing p with
  | nil => exact absurd hx List.not_mem_nil
  | cons x rest ih =>
    by_cases hn : x.1 = n
    · have hr := hl x List.mem_cons_self hn
      have hfirst := Part.completeRequest_shows (r := r) e
      rw [← hn, ← hr] at hfirst
      rw [← hr]
      exact hfirst.after (Part.completeEach_works rest _)
    · have hmem : (n, r) ∈ rest := (List.mem_cons.mp hx).resolve_left fun e' => hn (congrArg Prod.fst e').symm
      have hrun := (p.completeRequest_releases x.1 x.2).run
      have hrest := ih hmem (fun y hy => hl y (List.mem_cons_of_mem _ hy)) (p := p.completeRequest x.1 x.2)
        ((Part.heldOf_completeRequest (Ne.symm hn) _ _).trans e)
      rw [hrun] at hrest
      exact hrest.before (Part.completeRequest_serves _ _ _).toWorks

/-! ## The ABORTs that wait for a transaction (R104) -/

/-- R104: the ABORTs that wait for `n`, each with its result. -/
def Part.abortResults (n : Nat) (o : ReqOutcome) (p : Part) : List (Nat × Result) :=
  (p.te.aborts.filter fun w => w.target == n).map fun w => (w.seq, abortResult (settledEffect o) .transact (some o))

/-- Completing a request reads and writes nothing of the Transaction Engine. -/
theorem Part.completeRequest_te (n : Nat) (r : Result) (te : TransactionEngine) (p : Part) :
    ({ p with te := te } : Part).completeRequest n r = { p.completeRequest n r with te := te } := by
  unfold Part.completeRequest Part.completeSlot
  cases hh : p.heldOf n with
  | none =>
    rw [show ({ p with te := te } : Part).heldOf n = none from hh]
  | some h =>
    rw [show ({ p with te := te } : Part).heldOf n = some h from hh]
    unfold Part.writeCompletion
    dsimp only
    split <;> rfl

/-- The ABORTs of a list complete one after another, each leaving the list of those that wait. -/
def Part.endWaiting (r : Result) (l : List WaitingAbort) (p : Part) : Part :=
  l.foldl (fun q w => ({ q with te := { q.te with aborts := q.te.aborts.filter fun x => x.seq != w.seq } } : Part).completeRequest w.seq r) p

theorem Part.endWaiting_eq (r : Result) (l : List WaitingAbort) (p : Part) :
    p.endWaiting r l = { p.completeEach (l.map fun w => (w.seq, r)) with
      te := { p.te with aborts := p.te.aborts.filter fun x => l.all fun w => x.seq != w.seq } } := by
  induction l generalizing p with
  | nil =>
    have hall : (p.te.aborts.filter fun x => ([] : List WaitingAbort).all fun w => x.seq != w.seq) = p.te.aborts := List.filter_eq_self.mpr fun _ _ => rfl
    rw [hall]
    rfl
  | cons w rest ih =>
    have hstep : p.endWaiting r (w :: rest) =
        Part.endWaiting r rest { p.completeRequest w.seq r with te := { p.te with aborts := p.te.aborts.filter fun x => x.seq != w.seq } } := by
      rw [← Part.completeRequest_te]
      rfl
    have heach : ∀ (te : TransactionEngine) (q : Part) (m : List (Nat × Result)),
        ({ q with te := te } : Part).completeEach m = { q.completeEach m with te := te } := fun te q m => by
      induction m generalizing q with
      | nil => rfl
      | cons x rest ih' =>
        show Part.completeEach rest (Part.completeRequest x.1 x.2 { q with te := te }) = _
        rw [Part.completeRequest_te]
        exact ih' _
    rw [hstep, ih, heach]
    dsimp only
    rw [List.filter_filter]
    have hall : (fun x : WaitingAbort => (rest.all fun w => x.seq != w.seq) && x.seq != w.seq) = fun x => (w :: rest).all fun w => x.seq != w.seq := by
      funext x
      rw [List.all_cons, Bool.and_comm]
    rw [hall]
    rfl

theorem Part.endAborts_eq (n : Nat) (o : ReqOutcome) (p : Part) :
    p.endAborts n o = { p.completeEach (p.abortResults n o) with te := { p.te with
      aborts := p.te.aborts.filter fun x => (p.te.aborts.filter fun w => w.target == n).all fun w => x.seq != w.seq } } :=
  Part.endWaiting_eq _ _ p

theorem Part.endAborts_targets {n : Nat} {o : ReqOutcome} {p : Part} {w : WaitingAbort} (h : w ∈ (p.endAborts n o).te.aborts) : w.target ≠ n := fun e => by
  rw [Part.endAborts_eq] at h
  obtain ⟨hmem, hall⟩ := List.mem_filter.mp h
  have hself := List.all_eq_true.mp hall w (List.mem_filter.mpr ⟨hmem, beq_iff_eq.mpr e⟩)
  exact absurd hself (by simp)

end Sys2Proof.Machine
end

section
/-! SUPPORT. The settlement of a command turn: the transaction that ends, the ABORTs that waited for it, or the turn's trace in the pool (R90, R104). -/

namespace Sys2Proof.Machine

/-! ## The DISMISS that counts (R134) -/

/-- R134: the waiting DISMISS with one transaction more ended. -/
def WaitingDismiss.counted (a : Nat) (d : WaitingDismiss) : WaitingDismiss := if d.unit = a then { d with ended := d.ended + 1 } else d

theorem WaitingDismiss.counted_same (a : Nat) (d : WaitingDismiss) :
    (d.counted a).seq = d.seq ∧ (d.counted a).unit = d.unit ∧ (d.counted a).retired = d.retired := by
  unfold WaitingDismiss.counted
  split <;> exact ⟨rfl, rfl, rfl⟩

theorem Part.countDismissed_eq (a : Nat) (p : Part) :
    p.countDismissed a = { p with um := { p.um with dismissWait := p.um.dismissWait.map (WaitingDismiss.counted a) } } := by
  have hkept : ∀ w, p.um.dismissWait = w → p = { p with um := { p.um with dismissWait := w } } := fun w h => by rw [← h]
  unfold Part.countDismissed
  cases hd : p.um.dismissWait with
  | none => exact hkept none hd
  | some d =>
    rw [Option.map_some]
    unfold WaitingDismiss.counted
    by_cases h : d.unit = a
    · rw [if_pos h]
      exact if_pos h
    · rw [if_neg h]
      exact (if_neg h).trans (hkept _ hd)

/-- R90, R134: the part in which a settled transaction ends. -/
def Part.countFor (y : Transaction) (e : Ending) (p : Part) : Part := if e.outcome = .dismissed then p.countDismissed y.unit else p

/-- R134: the DISMISS that waits, once it has counted the settled transaction. -/
def Part.countedWait (y : Transaction) (e : Ending) (p : Part) : Option WaitingDismiss :=
  if e.outcome = .dismissed then p.um.dismissWait.map (WaitingDismiss.counted y.unit) else p.um.dismissWait

theorem Part.countFor_eq (y : Transaction) (e : Ending) (p : Part) :
    p.countFor y e = { p with um := { p.um with dismissWait := p.countedWait y e } } := by
  unfold Part.countFor Part.countedWait
  split
  · exact p.countDismissed_eq y.unit
  · rfl

/-! ## Room behind the end of a transaction -/

theorem Part.RoomFor.of_add {j k : Nat} {p : Part} (h : p.RoomFor (j + k)) : p.RoomFor k := ⟨h.1, by have := h.2.1; omega, h.2.2⟩

theorem Part.RoomFor.takeFault {k : Nat} {p : Part} (h : p.RoomFor (4 + k)) (f : FaultRecord) : (p.takeFault f).RoomFor k := by
  have hcounts := faultWrites_counts p.base p.svc.ringIndex p.svc.nextFault f p.run.clock
  have hwrites : ∀ a ∈ faultWrites p.base p.svc.ringIndex p.svc.nextFault f p.run.clock, a.isRead = false := fun a ha => by
    simp only [faultWrites, List.mem_cons, List.not_mem_nil, or_false] at ha
    rcases ha with rfl | rfl | rfl | rfl <;> rfl
  have hlength : (faultWrites p.base p.svc.ringIndex p.svc.nextFault f p.run.clock).length = 4 := rfl
  rw [Part.takeFault_fits (h.fits (by rw [hcounts.1]; omega) hcounts.2)]
  obtain ⟨h1, h2⟩ := WindowPort.with_queued hwrites p.port
  rw [hlength] at h1
  obtain ⟨hw, hq, hr⟩ := h
  refine ⟨hw, ?_, h2.symm ▸ hr⟩
  show (p.port.with _).writesQueued + (if p.board.completions = [] then 2 else 0) + k ≤ _
  omega

theorem Part.finishTxn_room {k : Nat} {p : Part} (h : p.RoomFor (4 + k)) (t : Transaction) (e : Ending) : (p.finishTxn t e).RoomFor k := by
  let P : Part := { p with te := { p.te with pool := p.te.pool.filter fun x => x.seq != t.seq } }
  have hP : P.RoomFor (4 + k) := h.of_eq
  have hR : (P.reserveToken t e).RoomFor (4 + k) := by
    rcases P.reserveToken_cases t e with hr | ⟨f, hr⟩
    · rw [hr]
      exact hP
    · obtain ⟨v, hv⟩ := P.setPlace_eq t.unit f
      rw [hr, hv]
      exact hP.of_eq
  show (((P.reserveToken t e).reportEnding t e).noteFinish t.seq (e.outcome == .ok) true).RoomFor k
  generalize P.reserveToken t e = R at hR ⊢
  have hreport : (R.reportEnding t e).RoomFor k := by
    unfold Part.reportEnding
    split
    · exact Part.RoomFor.of_add (hR.completeSlot _ _)
    · split
      · exact hR.of_add
      · rw [Part.raise_fault hR.1]
        exact hR.takeFault _
  exact hreport.of_eq

/-! ## A settled transaction -/

/-- R104: the finishes of the ABORTs that wait for the transaction `n`. -/
def Part.abortDone (n : Nat) (p : Part) : List Finish :=
  (p.te.aborts.filter fun w => w.target == n).filterMap fun w => (p.heldOf w.seq).map fun _ => ⟨w.seq, true, false⟩

/-- R90, R104: what a settled transaction leaves, and the ABORTs that waited for it. -/
structure Part.CommandEnds (p q : Part) (y : Transaction) (e : Ending) : Prop where
  serves : p.Serves q
  calm : p.Calm q
  dir : q.dir = p.dir
  jw : q.jw = p.jw
  svc : q.svc = { p.svc with nextFault := q.svc.nextFault, ringIndex := q.svc.ringIndex }
  dismissWait : q.um.dismissWait = p.countedWait y e
  frees : (∀ expiry token, e.reserve = some expiry → y.token = some token → reached p.run.clock expiry = true) → ∀ a, q.unitSlot a = p.unitSlot a
  reserves : ∀ expiry token, e.reserve = some expiry → y.token = some token → reached p.run.clock expiry = false → ∀ a,
    q.unitSlot a = if a = y.unit ∧ 1 ≤ y.unit ∧ y.unit ≤ 30 then
      { p.unitSlot y.unit with place := (p.unitAt y.unit).map (FieldUnit.reserve token y.tag expiry) } else p.unitSlot a
  te : q.te = { p.te with pool := p.te.pool.filter fun x => x.seq != y.seq, aborts := q.te.aborts }
  targets : ∀ w ∈ q.te.aborts, w.target ≠ y.seq
  board : q.board = { p.board with held := q.board.held, finishes := q.board.finishes, completions := q.board.completions }
  finishes : (y.seq :: (p.te.aborts.filter fun w => w.target == y.seq).map (·.seq)).Nodup →
    q.board.finishes = p.board.finishes ++ ⟨y.seq, e.outcome == .ok, true⟩ :: p.abortDone y.seq
  held : q.board.held.Sublist p.board.held
  heldOf : ∀ m, m ≠ y.seq → ((∃ w ∈ p.te.aborts, w.target = y.seq ∧ w.seq = m) → p.heldOf m = none) → q.heldOf m = p.heldOf m
  shows : y.origin.isSome = true → ∀ h, p.heldOf y.seq = some h → p.Shows q (h.completion (y.result e) p.run.clock)
  aborted : ∀ w ∈ p.te.aborts, w.target = y.seq → w.seq ≠ y.seq → ∀ h, p.heldOf w.seq = some h →
    p.Shows q (h.completion (abortResult (settledEffect e.outcome) .transact (some e.outcome)) p.run.clock)
  quiet : y.origin.isSome = true ∨ e.outcome = .ok ∨ e.byAbort = true → q.svc = p.svc
  logs : y.origin = none → e.outcome ≠ .ok → e.byAbort = false → p.port.waits .transactionEngine = false →
    (faultWrites p.base p.svc.ringIndex p.svc.nextFault (y.lateFailure e) p.run.clock).Sublist q.port.outstanding
  room : ∀ k, p.RoomFor (4 + k) → q.RoomFor k

theorem Part.abortResults_mem {n : Nat} {o : ReqOutcome} {p : Part} {x : Nat × Result} (h : x ∈ p.abortResults n o) :
    (∃ w ∈ p.te.aborts, w.target = n ∧ w.seq = x.1) ∧ x.2 = abortResult (settledEffect o) .transact (some o) := by
  obtain ⟨w, hw, rfl⟩ := List.mem_map.mp h
  obtain ⟨hmem, ht⟩ := List.mem_filter.mp hw
  exact ⟨⟨w, hmem, by simpa using ht, rfl⟩, rfl⟩

theorem Part.endAborts_ends {p q : Part} {y : Transaction} {e : Ending} (hq : q = (p.countFor y e).finishTxn y e) (hy : ∃ x ∈ p.te.pool, x.seq = y.seq) :
    p.CommandEnds (q.endAborts y.seq e.outcome) y e := by
  let K : Part := { p with um := { p.um with dismissWait := p.countedWait y e } }
  have hpK : p.Serves K := .of_port (.refl _) (.refl _)
  have hcalmK : p.Calm K := .of_same rfl rfl rfl id rfl rfl rfl rfl
  have hF : K.TxnEnds q y e := by
    rw [hq, Part.countFor_eq]
    exact Part.finishTxn_ends (p := K) hy e
  have hroom : ∀ k, p.RoomFor (4 + k) → q.RoomFor k := fun k h => by
    rw [hq, Part.countFor_eq]
    exact Part.finishTxn_room h.of_eq y e
  have hserves := Part.endAborts_serves y.seq e.outcome q
  have hcalm := Part.endAborts_calm y.seq e.outcome q
  have htargets := fun w => Part.endAborts_targets (n := y.seq) (o := e.outcome) (p := q) (w := w)
  have heq := q.endAborts_eq y.seq e.outcome
  have haborts : q.te.aborts = p.te.aborts := by rw [hF.te]
  have hl : ∀ x ∈ q.abortResults y.seq e.outcome, (∃ w ∈ p.te.aborts, w.target = y.seq ∧ w.seq = x.1) ∧
      x.2 = abortResult (settledEffect e.outcome) .transact (some e.outcome) := fun x hx => haborts ▸ Part.abortResults_mem hx
  have hrel := q.completeEach_releases (q.abortResults y.seq e.outcome)
  have hboard := q.completeEach_board (q.abortResults y.seq e.outcome)
  have hkept := fun m => Part.heldOf_completeEach_kept (m := m) (l := q.abortResults y.seq e.outcome) (p := q)
  have hfinishes := fun hn => Part.completeEach_finishes_eq (l := q.abortResults y.seq e.outcome) hn q
  have hroomy := fun k (h : q.RoomFor k) => h.completeEach (q.abortResults y.seq e.outcome)
  have hte : (q.endAborts y.seq e.outcome).te = { q.te with aborts := (q.endAborts y.seq e.outcome).te.aborts } := by rw [heq]
  have hheld : ∀ m, (q.endAborts y.seq e.outcome).heldOf m = (q.completeEach (q.abortResults y.seq e.outcome)).heldOf m := fun m => by rw [heq]; rfl
  have hE : q.endAborts y.seq e.outcome = { q.completeEach (q.abortResults y.seq e.outcome) with te := (q.endAborts y.seq e.outcome).te } := by
    rw [heq]
  generalize q.endAborts y.seq e.outcome = E at *
  have hslot : ∀ b, E.unitSlot b = q.unitSlot b := fun b => Part.unitSlot_of_um (by rw [hE]; exact hrel.um) b
  have hEserves := (hpK.trans hF.works).trans hserves
  refine ⟨hEserves, (hcalmK.trans hF.calm).trans hcalm, ?dir, ?jw, ?svc, ?dismissWait, fun hr a => ?frees, fun x k hx hk hr a => ?reserves, ?te, htargets, ?board,
    fun hn => ?finishes, ?held, fun m hm hnone => ?heldOf, fun ho h hh => ?shows, fun w hw ht hne h hh => ?aborted, fun h => ?quiet, fun ho h1 h2 h3 => ?logs,
    fun k h => ?room⟩
  case dir => rw [hE]; exact hrel.dir.trans hF.dir
  case jw => rw [hE]; exact hrel.jw.trans hF.jw
  case svc => rw [hE]; exact hrel.svc ▸ hF.svc
  case dismissWait => rw [hE]; exact (congrArg UnitManager.dismissWait hrel.um).trans hF.dismissWait
  case frees => rw [hslot, Part.unitSlot_of_um (hF.frees hr)]; rfl
  case reserves => rw [hslot]; exact hF.reserves x k hx hk hr a
  case te => rw [hte, hF.te]
  case board =>
    rw [hE]
    refine hboard.trans ?_
    rw [hF.board]
  case finishes =>
    obtain ⟨hnot, hnodup⟩ := List.nodup_cons.mp hn
    have hfst : (q.abortResults y.seq e.outcome).map Prod.fst = (p.te.aborts.filter fun w => w.target == y.seq).map (·.seq) := by
      unfold Part.abortResults
      rw [List.map_map, haborts]
      rfl
    have hdone : q.requestFinishes (q.abortResults y.seq e.outcome) = p.abortDone y.seq := by
      unfold Part.requestFinishes Part.abortResults Part.abortDone
      rw [List.filterMap_map, haborts]
      refine List.filterMap_congr fun w hw => ?_
      have hne : w.seq ≠ y.seq := fun e' => hnot (List.mem_map.mpr ⟨w, hw, e'⟩)
      exact congrArg (Option.map _) (hF.heldOf _ hne)
    rw [hE]
    refine (hfinishes (hfst ▸ hnodup)).trans ?_
    rw [hdone, hF.board, List.append_assoc]
    rfl
  case held => rw [hE]; exact hrel.held.trans hF.held
  case heldOf =>
    have hq' : q.heldOf m = p.heldOf m := hF.heldOf m hm
    rw [hheld]
    refine (hkept m fun ⟨x, hx, e'⟩ => hq'.trans (hnone ?_)).trans hq'
    obtain ⟨⟨w, hw, ht, hs⟩, -⟩ := hl x hx
    exact ⟨w, hw, ht, hs.trans e'⟩
  case shows => exact (hF.shows ho h hh).after hserves.toWorks
  case aborted =>
    have hmem : (w.seq, abortResult (settledEffect e.outcome) .transact (some e.outcome)) ∈ q.abortResults y.seq e.outcome :=
      List.mem_map_of_mem (f := fun w : WaitingAbort => (w.seq, abortResult (settledEffect e.outcome) .transact (some e.outcome)))
        (List.mem_filter.mpr ⟨haborts ▸ hw, beq_iff_eq.mpr ht⟩)
    have hshown := Part.completeEach_shows_agreed hmem (fun x hx _ => (hl x hx).2) ((hF.heldOf _ hne).trans hh)
    rw [hF.calm.run] at hshown
    obtain ⟨more, hmore, hc⟩ := hshown.before (hpK.trans hF.works).toWorks
    exact ⟨more, by rw [hE]; exact hmore, hc⟩
  case quiet => rw [hE]; exact hrel.svc.trans (hF.quiet h)
  case logs => exact (hF.logs ho h1 h2 h3).trans hserves.toWorks.port.outstanding
  case room =>
    rw [hE]
    exact (hroomy k (hroom k h)).of_eq

/-! ## The table of settlements (R90) -/

/-- R90: the transaction's deadline has passed. -/
def Transaction.late (now : Word) (y : Transaction) : Bool :=
  match y.deadline with
  | some d => reached now d
  | none => false

theorem Transaction.late_iff (now : Word) (y : Transaction) : y.late now = true ↔ ∃ d, y.deadline = some d ∧ reached now d = true := by
  unfold Transaction.late
  cases y.deadline with
  | none => simp
  | some d => simp

/-- R89: the expiry of the reservation of a turn that brings DEFER. -/
def FieldUnit.deferUntil (now : Word) (u : FieldUnit) : Word := after now (100 * u.params.deferLimit)

/-- R90, lines 7 to 9: what becomes of a transaction that nothing ends. -/
def Transaction.unsettled (u : FieldUnit) (a : Answer) (y : Transaction) : Settlement :=
  if a = .defer then .deferred
  else if a = .garbled ∨ a = .noFrame then
    if y.retries + 1 ≤ u.params.retryLimit then .again true else .finish { outcome := .noAnswer }
  else .again false

/-- R90, lines 4 to 9: the turn brought neither a reply nor a refusal. -/
theorem Part.settlement_unanswered {p : Part} {y : Transaction} {u : FieldUnit} {a : Answer} (hl : u.link ≠ .departing)
    (ha : a = .defer ∨ a = .garbled ∨ a = .noFrame ∨ a = .interrupted) :
    p.settlement y u a =
      if y.abortRequested = true then
        .finish { outcome := .aborted, reserve := deferReservation a p.run.drainEnded (u.deferUntil p.run.clock), byAbort := true }
      else if y.late p.run.clock = true then .finish { outcome := .deadline, reserve := deferReservation a p.run.drainEnded (u.deferUntil p.run.clock) }
      else if p.run.drainEnded = true then .finish { outcome := .stopped }
      else y.unsettled u a := by
  unfold Part.settlement
  rw [if_neg hl]
  rcases ha with rfl | rfl | rfl | rfl <;> rfl

theorem Part.settlement_departing {p : Part} {y : Transaction} {u : FieldUnit} (hl : u.link = .departing) (a : Answer) :
    p.settlement y u a = .finish { outcome := .dismissed, byAbort := y.abortRequested } := if_pos hl

theorem Part.settlement_reply {p : Part} {y : Transaction} {u : FieldUnit} (hl : u.link ≠ .departing) (payload : List Byte) :
    p.settlement y u (.reply payload) = .finish { outcome := .ok, payload := payload } := if_neg hl

theorem Part.settlement_refuse {p : Part} {y : Transaction} {u : FieldUnit} (hl : u.link ≠ .departing) (reason : Byte) :
    p.settlement y u (.refuse reason) = .finish { outcome := .unitRefused, reason := reason } := if_neg hl

theorem Part.settleCommand_finish {p : Part} {n : Nat} {a : Answer} {y : Transaction} {u : FieldUnit} {e : Ending} (hy : p.findTxn n = some y)
    (hu : p.unitAt y.unit = some u) (he : p.settlement y u a = .finish e) : p.CommandEnds (p.settleCommand n a) y e := by
  have hseq := Part.findTxn_seq hy
  have hends := Part.endAborts_ends (p := p) (y := y) (e := e) rfl ⟨y, (Part.findTxn_mem hy).1, rfl⟩
  have hstep : p.settleCommand n a = ((p.countFor y e).finishTxn y e).endAborts y.seq e.outcome := by
    unfold Part.settleCommand
    rw [hy]
    dsimp only
    rw [hu]
    dsimp only
    rw [he, hseq]
    rfl
  rw [hstep]
  exact hends

/-- R90 line 7: the transaction of a turn that brought DEFER. -/
def Transaction.deferTill (expiry : Word) (y : Transaction) : Transaction := { y with state := .deferred, everDeferred := true, deferExpiry := some expiry }

/-- R90 lines 8 and 9: the transaction becomes PENDING again. -/
def Transaction.again (retried : Bool) (y : Transaction) : Transaction := { y with state := .pending, retries := if retried then y.retries + 1 else y.retries }

theorem Part.settleCommand_deferred {p : Part} {n : Nat} {a : Answer} {y : Transaction} {u : FieldUnit} (hy : p.findTxn n = some y)
    (hu : p.unitAt y.unit = some u) (he : p.settlement y u a = .deferred) :
    p.settleCommand n a = p.mapTxn n (Transaction.deferTill (u.deferUntil p.run.clock)) := by
  unfold Part.settleCommand
  rw [hy]
  dsimp only
  rw [hu]
  dsimp only
  rw [he]
  rfl

theorem Part.settleCommand_again {p : Part} {n : Nat} {a : Answer} {y : Transaction} {u : FieldUnit} {retried : Bool} (hy : p.findTxn n = some y)
    (hu : p.unitAt y.unit = some u) (he : p.settlement y u a = .again retried) : p.settleCommand n a = p.mapTxn n (Transaction.again retried) := by
  unfold Part.settleCommand
  rw [hy]
  dsimp only
  rw [hu]
  dsimp only
  rw [he]
  rfl

/-! ## What a settlement leaves of the unit -/

/-- R89: the reservation that a settlement leaves with a unit that is not DEPARTING. -/
def Part.reservation (y : Transaction) (u : FieldUnit) (a : Answer) (p : Part) : List Reservation :=
  (if a = .defer ∧ (y.abortRequested = true ∨ y.late p.run.clock = true) ∧ p.run.drainEnded = false ∧
      reached p.run.clock (u.deferUntil p.run.clock) = false then y.token else none).toList.map
    fun k => { token := k, tag := y.tag, expiry := u.deferUntil p.run.clock }

/-- R89: a unit with reservations more. -/
def FieldUnit.reserveMore (l : List Reservation) (u : FieldUnit) : FieldUnit := { u with reservations := u.reservations ++ l }

/-- R90: what the settlement of a command turn leaves, whatever it is; the unit at the address `a` has `l` more reservations. -/
structure Part.Settles (p q : Part) (a : Nat) (u : FieldUnit) (l : List Reservation) : Prop where
  serves : p.Serves q
  calm : p.Calm q
  dir : q.dir = p.dir
  jw : q.jw = p.jw
  svc : q.svc = { p.svc with nextFault := q.svc.nextFault, ringIndex := q.svc.ringIndex }
  slot : q.unitSlot a = { p.unitSlot a with place := some (u.reserveMore l) }
  others : ∀ b, b ≠ a → q.unitSlot b = p.unitSlot b

theorem FieldUnit.reserveMore_nil (u : FieldUnit) : u.reserveMore [] = u := by
  unfold FieldUnit.reserveMore
  rw [List.append_nil]

/-- R85 step 2: the reservation that an ending makes of the token. -/
def Part.keptToken (y : Transaction) (e : Ending) (p : Part) : List Reservation :=
  (e.reserve.filter fun x => !reached p.run.clock x).toList.flatMap fun x => y.token.toList.map fun k => { token := k, tag := y.tag, expiry := x }

theorem Part.CommandEnds.settles {p q : Part} {y : Transaction} {e : Ending} {u : FieldUnit} (h : p.CommandEnds q y e) (ha : 1 ≤ y.unit ∧ y.unit ≤ 30)
    (hu : p.unitAt y.unit = some u) : p.Settles q y.unit u (p.keptToken y e) := by
  have hfree : (∀ a, q.unitSlot a = p.unitSlot a) → p.keptToken y e = [] → p.Settles q y.unit u (p.keptToken y e) := fun hs hnil => by
    rw [hnil]
    exact ⟨h.serves, h.calm, h.dir, h.jw, h.svc, by rw [hs, u.reserveMore_nil]; exact Part.unitSlot_place hu, fun b _ => hs b⟩
  unfold Part.keptToken at hfree ⊢
  cases hr : e.reserve with
  | none =>
    rw [hr] at hfree
    exact hfree (h.frees fun x _ hx => absurd (hr.symm.trans hx) (by simp)) rfl
  | some x =>
    rw [hr] at hfree
    by_cases hx : reached p.run.clock x = true
    · exact hfree (h.frees fun x' _ hx' _ => Option.some.inj (hr.symm.trans hx') ▸ hx) (by simp [hx])
    · cases hk : y.token with
      | none =>
        rw [hk] at hfree
        exact hfree (h.frees fun _ k _ hk' => absurd (hk.symm.trans hk') (by simp)) (by simp)
      | some k =>
        have hx : reached p.run.clock x = false := Bool.eq_false_iff.mpr hx
        have hslot := h.reserves x k hr hk hx
        have hlist : ((some x).filter fun x => !reached p.run.clock x).toList.flatMap (fun x => (some k).toList.map fun k =>
            ({ token := k, tag := y.tag, expiry := x } : Reservation)) = [{ token := k, tag := y.tag, expiry := x }] := by simp [Option.filter, hx]
        rw [hlist]
        refine ⟨h.serves, h.calm, h.dir, h.jw, h.svc, ?_, fun b hb => ?_⟩
        · rw [hslot, if_pos ⟨rfl, ha⟩, hu]
          rfl
        · rw [hslot, if_neg fun e => hb e.1]

/-- R89: the reservation that an ending of the table makes. -/
def Part.reserveUntil (y : Transaction) (u : FieldUnit) (a : Answer) (p : Part) : Option Word :=
  if a = .defer ∧ (y.abortRequested = true ∨ y.late p.run.clock = true) ∧ p.run.drainEnded = false then some (u.deferUntil p.run.clock) else none

/-- R89, R90: the ending that a settlement gives reserves as the answer and the ABORT or the deadline say, and is no dismissal. -/
theorem Part.settlement_finish {p : Part} {y : Transaction} {u : FieldUnit} {a : Answer} {e : Ending} (hl : u.link ≠ .departing)
    (he : p.settlement y u a = .finish e) : e.reserve = p.reserveUntil y u a ∧ e.outcome ≠ .dismissed := by
  unfold Part.reserveUntil
  have hunanswered : (a = .defer ∨ a = .garbled ∨ a = .noFrame ∨ a = .interrupted) → e.reserve =
      (if a = .defer ∧ (y.abortRequested = true ∨ y.late p.run.clock = true) ∧ p.run.drainEnded = false then some (u.deferUntil p.run.clock) else none) ∧
      e.outcome ≠ .dismissed := by
    intro ha
    rw [Part.settlement_unanswered hl ha] at he
    by_cases h1 : y.abortRequested = true
    · rw [if_pos h1] at he
      obtain rfl := Settlement.finish.inj he
      simp [deferReservation, h1]
    · rw [if_neg h1] at he
      by_cases h2 : y.late p.run.clock = true
      · rw [if_pos h2] at he
        obtain rfl := Settlement.finish.inj he
        simp [deferReservation, h2]
      · rw [if_neg h2] at he
        rw [if_neg (fun h => h.2.1.elim h1 h2)]
        by_cases h3 : p.run.drainEnded = true
        · rw [if_pos h3] at he
          obtain rfl := Settlement.finish.inj he
          exact ⟨rfl, by simp⟩
        · rw [if_neg h3] at he
          unfold Transaction.unsettled at he
          split at he
          · exact absurd he (by simp)
          · split at he
            · split at he
              · exact absurd he (by simp)
              · obtain rfl := Settlement.finish.inj he
                exact ⟨rfl, by simp⟩
            · exact absurd he (by simp)
  cases a with
  | reply payload =>
    rw [Part.settlement_reply hl] at he
    obtain rfl := Settlement.finish.inj he
    exact ⟨(if_neg fun h => absurd h.1 (by simp)).symm, by simp⟩
  | refuse reason =>
    rw [Part.settlement_refuse hl] at he
    obtain rfl := Settlement.finish.inj he
    exact ⟨(if_neg fun h => absurd h.1 (by simp)).symm, by simp⟩
  | defer => exact hunanswered (.inl rfl)
  | garbled => exact hunanswered (.inr (.inl rfl))
  | noFrame => exact hunanswered (.inr (.inr (.inl rfl)))
  | interrupted => exact hunanswered (.inr (.inr (.inr rfl)))

theorem Part.keptToken_eq {p : Part} {y : Transaction} {u : FieldUnit} {a : Answer} {e : Ending} (hl : u.link ≠ .departing)
    (he : p.settlement y u a = .finish e) : p.keptToken y e = p.reservation y u a := by
  unfold Part.keptToken Part.reservation
  rw [(Part.settlement_finish hl he).1]
  unfold Part.reserveUntil
  by_cases h : a = .defer ∧ (y.abortRequested = true ∨ y.late p.run.clock = true) ∧ p.run.drainEnded = false
  · rw [if_pos h]
    obtain ⟨h1, h2, h3⟩ := h
    cases hr : reached p.run.clock (u.deferUntil p.run.clock) with
    | true => simp [Option.filter, hr]
    | false => simp [Option.filter, hr, h1, h2, h3]
  · rw [if_neg h, if_neg fun ⟨h1, h2, h3, _⟩ => h ⟨h1, h2, h3⟩]
    rfl

theorem Part.mapTxn_settles {p : Part} {n a : Nat} {u : FieldUnit} {f : Transaction → Transaction} (hu : p.unitAt a = some u)
    (hunit : ∀ t, (f t).unit = t.unit) (hseq : ∀ t, (f t).seq = t.seq) (hpred : ∀ t, (f t).pred = t.pred) : p.Settles (p.mapTxn n f) a u [] :=
  ⟨p.mapTxn_serves n f hseq, Part.mapTxn_calm n f p hunit hseq fun t => .inl (hpred t), rfl, rfl, rfl,
    by rw [u.reserveMore_nil]; exact Part.unitSlot_place hu, fun _ _ => rfl⟩

/-- R89, R90: the settlement of a command turn of a unit that is not DEPARTING. -/
theorem Part.settleCommand_settles {p : Part} {n : Nat} {a : Answer} {y : Transaction} {u : FieldUnit} (hy : p.findTxn n = some y)
    (hu : p.unitAt y.unit = some u) (ha : 1 ≤ y.unit ∧ y.unit ≤ 30) (hl : u.link ≠ .departing) :
    p.Settles (p.settleCommand n a) y.unit u (p.reservation y u a) := by
  have hnone : (∀ e, p.settlement y u a ≠ .finish e) → p.reservation y u a = [] := fun h => by
    have hno : ¬ (a = .defer ∧ (y.abortRequested = true ∨ y.late p.run.clock = true) ∧ p.run.drainEnded = false ∧
        reached p.run.clock (u.deferUntil p.run.clock) = false) := fun ⟨h1, h2, _, _⟩ => by
      have htable := Part.settlement_unanswered (p := p) (y := y) hl (.inl h1)
      by_cases h3 : y.abortRequested = true
      · exact h _ (htable.trans (if_pos h3))
      · exact h _ (htable.trans ((if_neg h3).trans (if_pos (h2.resolve_left h3))))
    unfold Part.reservation
    rw [if_neg hno]
    rfl
  cases he : p.settlement y u a with
  | finish e =>
    rw [← Part.keptToken_eq hl he]
    exact (Part.settleCommand_finish hy hu he).settles ha hu
  | deferred =>
    rw [Part.settleCommand_deferred hy hu he, hnone fun e h => absurd (he.symm.trans h) (by simp)]
    exact Part.mapTxn_settles hu (fun _ => rfl) (fun _ => rfl) fun _ => rfl
  | again retried =>
    rw [Part.settleCommand_again hy hu he, hnone fun e h => absurd (he.symm.trans h) (by simp)]
    exact Part.mapTxn_settles hu (fun _ => rfl) (fun _ => rfl) fun _ => rfl

theorem Part.settleCommand_dismissWait {p : Part} {n : Nat} {a : Answer} {y : Transaction} {u : FieldUnit} (hy : p.findTxn n = some y)
    (hu : p.unitAt y.unit = some u) (hl : u.link ≠ .departing) : (p.settleCommand n a).um.dismissWait = p.um.dismissWait := by
  cases he : p.settlement y u a with
  | finish e => exact (Part.settleCommand_finish hy hu he).dismissWait.trans (if_neg (Part.settlement_finish hl he).2)
  | deferred => rw [Part.settleCommand_deferred hy hu he]; rfl
  | again retried => rw [Part.settleCommand_again hy hu he]; rfl

end Sys2Proof.Machine
end

section
/-! SUPPORT. The end of a turn in any part: what the Unit Manager counts behind a settlement (R29 to R32, R75). -/

namespace Sys2Proof.Machine

/-! ## Reservations and the count of a turn -/

/-- A unit with these reservations. -/
def FieldUnit.reserving (l : List Reservation) (u : FieldUnit) : FieldUnit := { u with reservations := l }

theorem FieldUnit.judgeGate_reserving (l : List Reservation) (now : Word) (u : FieldUnit) :
    (u.reserving l).judgeGate now = (u.judgeGate now).reserving l := by
  unfold FieldUnit.judgeGate FieldUnit.openGate
  rw [apply_ite (FieldUnit.reserving l), apply_ite (FieldUnit.reserving l), apply_ite (FieldUnit.reserving l)]
  rfl

theorem FieldUnit.countHealth_reserving (l : List Reservation) (o : TurnOutcome) (u : FieldUnit) :
    (u.reserving l).countHealth o = (u.countHealth o).reserving l := by
  cases o <;> rfl

theorem FieldUnit.judgeHealth_reserving {u : FieldUnit} (hl : u.link = .online ∨ u.link = .suspect) (l : List Reservation) (o : TurnOutcome) (now : Word) :
    (u.reserving l).judgeHealth o now = (u.judgeHealth o now).reserving l := by
  rw [FieldUnit.judgeHealth_eq hl, FieldUnit.judgeHealth_eq (u := u.reserving l) hl, apply_ite (FieldUnit.reserving l),
    apply_ite (FieldUnit.reserving l), apply_ite (FieldUnit.reserving l), ← FieldUnit.judgeGate_reserving, ← FieldUnit.judgeGate_reserving]
  unfold FieldUnit.enterLost
  rw [← FieldUnit.judgeGate_reserving]
  rfl

theorem FieldUnit.countTurn_link (o : TurnOutcome) (u : FieldUnit) : ((u.countTurn o).countHealth o).link = u.link := by
  cases o <;> rfl

theorem FieldUnit.takeTurn_reserving (l : List Reservation) (k : TurnKind) (o : TurnOutcome) (now : Word) (u : FieldUnit) :
    (u.reserving l).takeTurn k o now = (u.takeTurn k o now).reserving l := by
  have hcounted : (if u.link = .online ∨ u.link = .suspect then (((u.reserving l).countTurn o).countHealth o).judgeHealth o now
      else (u.reserving l).countTurn o) =
      (if u.link = .online ∨ u.link = .suspect then ((u.countTurn o).countHealth o).judgeHealth o now else u.countTurn o).reserving l := by
    by_cases h : u.link = .online ∨ u.link = .suspect
    · rw [if_pos h, if_pos h, ← FieldUnit.judgeHealth_reserving (by rw [u.countTurn_link]; exact h), ← FieldUnit.countHealth_reserving]
      rfl
    · rw [if_neg h, if_neg h]
      rfl
  cases k with
  | rollCall =>
    unfold FieldUnit.takeTurn
    dsimp only
    rw [apply_ite (FieldUnit.reserving l)]
    rfl
  | poll => exact hcounted
  | command n => exact hcounted

theorem FieldUnit.takeTurn_reservations (k : TurnKind) (o : TurnOutcome) (now : Word) (u : FieldUnit) :
    (u.takeTurn k o now).reservations = u.reservations := by
  have h := congrArg FieldUnit.reservations (u.takeTurn_reserving u.reservations k o now)
  exact h

theorem FieldUnit.takeTurn_reserveMore (l : List Reservation) (k : TurnKind) (o : TurnOutcome) (now : Word) (u : FieldUnit) :
    (u.reserveMore l).takeTurn k o now = (u.takeTurn k o now).reserveMore l := by
  refine (u.takeTurn_reserving (u.reservations ++ l) k o now).trans ?_
  unfold FieldUnit.reserveMore
  rw [u.takeTurn_reservations]
  rfl

/-! ## The unit that stays -/

/-- R29, R75: what the end of a turn leaves of the unit behind a settlement that has added `l` to its reservations. -/
structure Part.TurnEnds (p q r : Part) (a : Nat) (l : List Reservation) (v : FieldUnit) : Prop where
  serves : q.Serves r
  calm : q.Calm r
  te : r.te = q.te
  board : r.board = q.board
  dir : r.dir = p.dir
  jw : r.jw = p.jw
  dismissWait : r.um.dismissWait = q.um.dismissWait
  svc : r.svc = { q.svc with bankQueue := r.svc.bankQueue }
  slot : r.unitSlot a = { version := (p.unitSlot a).version + 2, place := some (v.reserveMore l) }
  others : ∀ b, b ≠ a → r.unitSlot b = p.unitSlot b
  writes : (p.port.ofBlock .unitManager ++ mirrorWrites (unitMirrorAddr p.base a) (p.unitSlot a).version (unitBody (some v))).Sublist
    (r.port.ofBlock .unitManager)
  bit : unitBitChange (p.unitAt a) (some v) = true → p.BitOn r .unitManager .unit a
  nobit : unitBitChange (p.unitAt a) (some v) = false → r.svc.bankQueue = p.svc.bankQueue

theorem unitBody_reserveMore (l : List Reservation) (v : FieldUnit) : unitBody (some (v.reserveMore l)) = unitBody (some v) := rfl

theorem unitBitChange_reserveMore (l : List Reservation) (u v : FieldUnit) :
    unitBitChange (some (u.reserveMore l)) (some (v.reserveMore l)) = unitBitChange (some u) (some v) := rfl

theorem Part.Settles.turnEnds {p q : Part} {a : Nat} {u : FieldUnit} {l : List Reservation} (h : p.Settles q a u l) (ha : 1 ≤ a ∧ a ≤ 30)
    (hu : p.unitAt a = some u) (hl : u.link ≠ .departing) (k : TurnKind) (o : TurnOutcome) :
    p.TurnEnds q (q.unitTurnEnd a k o) a l (u.takeTurn k o p.run.clock) := by
  have huq : q.unitAt a = some (u.reserveMore l) := congrArg UnitSlot.place h.slot
  have hend : q.unitTurnEnd a k o = q.putUnit a (some ((u.takeTurn k o p.run.clock).reserveMore l)) true := by
    unfold Part.unitTurnEnd
    rw [huq]
    dsimp only
    rw [if_neg (by exact hl), h.calm.run, FieldUnit.takeTurn_reserveMore]
  rw [hend]
  generalize u.takeTurn k o p.run.clock = v
  obtain ⟨hboard, hte, hdir, hjw, hwait⟩ := q.putUnit_frame a (some (v.reserveMore l)) true
  have hbit : unitBitChange (q.unitAt a) (some (v.reserveMore l)) = unitBitChange (p.unitAt a) (some v) := by
    rw [huq, hu]
    rfl
  have hwrites := Part.putUnit_mirror ha (some (v.reserveMore l)) true q
  rw [Part.unitWrites_always, h.serves.toWorks.base, h.slot] at hwrites
  refine ⟨q.putUnit_serves .., q.putUnit_calm .., hte, hboard, hdir.trans h.dir, hjw.trans h.jw, hwait, q.putUnit_svc .., ?slot, fun b hb => ?others, ?writes,
    fun hb => ?bit, fun hb => ?nobit⟩
  case slot => rw [Part.putUnit_slot _ _ _ _ ha, if_pos rfl, h.slot]; rfl
  case others => rw [Part.putUnit_slot _ _ _ _ ha, if_neg hb, h.others b hb]
  case writes => exact ((h.serves.toWorks.port.ofBlock _).append (List.Sublist.refl _)).trans hwrites
  case bit => exact (Part.putUnit_bit ha (hbit.trans hb) true).after h.serves.toWorks
  case nobit =>
    rw [Part.putUnit_nobit ha (hbit.trans hb) true]
    have hsvc := congrArg ServiceUnit.bankQueue h.svc
    exact hsvc

/-! ## The report to the unit, whether it stays or goes -/

/-- R29, R44: what the report of a turn leaves of the other blocks. -/
structure Part.UnitTold (q r : Part) (a : Nat) : Prop where
  serves : q.Serves r
  calm : q.Calm r
  te : r.te = q.te
  dir : r.dir = q.dir
  jw : r.jw = q.jw
  svc : r.svc = { q.svc with bankQueue := r.svc.bankQueue }
  board : r.board = { q.board with held := r.board.held, finishes := q.board.finishes ++ q.dismissDone r a, completions := r.board.completions }
  held : r.board.held.Sublist q.board.held
  heldOf : ∀ n, (∀ f ∈ q.dismissDone r a, f.seq ≠ n) → r.heldOf n = q.heldOf n
  others : ∀ b, b ≠ a → r.unitSlot b = q.unitSlot b

theorem Part.unitTurnEnd_departing {q : Part} {a : Nat} {u : FieldUnit} (hu : q.unitAt a = some u) (hl : u.link = .departing) (k : TurnKind)
    (o : TurnOutcome) : q.unitTurnEnd a k o = q.removeUnit a := by
  unfold Part.unitTurnEnd
  rw [hu]
  exact if_pos hl

theorem Part.unitTurnEnd_told {q : Part} {a : Nat} {u : FieldUnit} (ha : 1 ≤ a ∧ a ≤ 30) (hu : q.unitAt a = some u) (k : TurnKind) (o : TurnOutcome) :
    q.UnitTold (q.unitTurnEnd a k o) a := by
  by_cases hl : u.link = .departing
  · rw [Part.unitTurnEnd_departing hu hl]
    have h := Part.removeUnit_removed ha hu hl
    exact ⟨h.works, h.calm, h.te, h.dir, h.jw, h.svc, h.board, h.held, h.heldOf, h.others⟩
  · have hend : q.unitTurnEnd a k o = q.putUnit a (some (u.takeTurn k o q.run.clock)) true := by
      unfold Part.unitTurnEnd
      rw [hu]
      exact if_neg hl
    rw [hend]
    obtain ⟨hboard, hte, hdir, hjw, -⟩ := q.putUnit_frame a (some (u.takeTurn k o q.run.clock)) true
    have hnone : q.dismissDone (q.putUnit a (some (u.takeTurn k o q.run.clock)) true) a = [] := Part.dismissDone_none (by rw [hboard])
    refine ⟨q.putUnit_serves .., q.putUnit_calm .., hte, hdir, hjw, q.putUnit_svc .., ?_, by rw [hboard], fun n _ => ?_, fun b hb => ?_⟩
    · rw [hnone, hboard, List.append_nil]
    · unfold Part.heldOf
      rw [hboard]
    · rw [Part.putUnit_slot _ _ _ _ ha, if_neg hb]

/-! ## A command turn that ends its transaction -/

/-- The take sequences of the items that the end of a turn with the transaction `n` can finish differ. -/
def Part.EndsApart (n : Nat) (p : Part) : Prop :=
  (n :: ((p.te.aborts.filter fun w => w.target == n).map (·.seq) ++ p.um.dismissWait.toList.map (·.seq))).Nodup

/-- R90, R104, R44: what the end of a command turn leaves that ends its transaction. -/
structure Part.TurnSettled (p r : Part) (a : Nat) (y : Transaction) (e : Ending) : Prop where
  te : r.te = { p.te with pool := p.te.pool.filter fun x => x.seq != y.seq, aborts := r.te.aborts }
  targets : ∀ w ∈ r.te.aborts, w.target ≠ y.seq
  board : r.board = { p.board with held := r.board.held, finishes := r.board.finishes, completions := r.board.completions }
  held : r.board.held.Sublist p.board.held
  finishes : p.EndsApart y.seq → r.board.finishes = p.board.finishes ++ ⟨y.seq, e.outcome == .ok, true⟩ :: (p.abortDone y.seq ++ p.dismissDone r a)
  heldOf : p.EndsApart y.seq → ∀ n, n ≠ y.seq → (∀ f ∈ p.abortDone y.seq ++ p.dismissDone r a, f.seq ≠ n) → r.heldOf n = p.heldOf n
  shows : y.origin.isSome = true → ∀ h, p.heldOf y.seq = some h → p.Shows r (h.completion (y.result e) p.run.clock)
  aborted : ∀ w ∈ p.te.aborts, w.target = y.seq → w.seq ≠ y.seq → ∀ h, p.heldOf w.seq = some h →
    p.Shows r (h.completion (abortResult (settledEffect e.outcome) .transact (some e.outcome)) p.run.clock)
  quiet : y.origin.isSome = true ∨ e.outcome = .ok ∨ e.byAbort = true → r.svc = { p.svc with bankQueue := r.svc.bankQueue }
  logs : y.origin = none → e.outcome ≠ .ok → e.byAbort = false → p.port.waits .transactionEngine = false →
    (faultWrites p.base p.svc.ringIndex p.svc.nextFault (y.lateFailure e) p.run.clock).Sublist r.port.outstanding

/-- An item that still completes is one of the finishes of the ABORTs. -/
theorem Part.abortDone_mem {p : Part} {w : WaitingAbort} {n : Nat} {h : HeldRequest} (hw : w ∈ p.te.aborts) (ht : w.target = n)
    (hh : p.heldOf w.seq = some h) : (⟨w.seq, true, false⟩ : Finish) ∈ p.abortDone n :=
  List.mem_filterMap.mpr ⟨w, List.mem_filter.mpr ⟨hw, beq_iff_eq.mpr ht⟩, by rw [hh]; rfl⟩

theorem Part.countedWait_some {p : Part} {d : WaitingDismiss} (hd : p.um.dismissWait = some d) (y : Transaction) (e : Ending) :
    ∃ d', p.countedWait y e = some d' ∧ d'.seq = d.seq ∧ d'.unit = d.unit ∧ d'.retired = d.retired := by
  unfold Part.countedWait
  rw [hd]
  split
  · obtain ⟨h1, h2, h3⟩ := d.counted_same y.unit
    exact ⟨_, rfl, h1, h2, h3⟩
  · exact ⟨d, rfl, rfl, rfl, rfl⟩

theorem Part.countedWait_none {p : Part} (hd : p.um.dismissWait = none) (y : Transaction) (e : Ending) : p.countedWait y e = none := by
  unfold Part.countedWait
  rw [hd]
  split <;> rfl

/-- The DISMISS that waits is none of the items that end with the transaction. -/
theorem Part.EndsApart.dismiss {p : Part} {n : Nat} (h : p.EndsApart n) {d : WaitingDismiss} (hd : p.um.dismissWait = some d) :
    d.seq ≠ n ∧ ∀ w ∈ p.te.aborts, w.target = n → w.seq ≠ d.seq := by
  unfold Part.EndsApart at h
  rw [hd] at h
  obtain ⟨hnot, hnodup⟩ := List.nodup_cons.mp h
  have hmem : d.seq ∈ (some d).toList.map (·.seq) := List.mem_singleton.mpr rfl
  refine ⟨fun e => hnot (e ▸ List.mem_append_right _ hmem), fun w hw ht e => ?_⟩
  exact (List.nodup_append.mp hnodup).2.2 w.seq (List.mem_map_of_mem (List.mem_filter.mpr ⟨hw, beq_iff_eq.mpr ht⟩)) d.seq hmem e

theorem Part.EndsApart.aborts {p : Part} {n : Nat} (h : p.EndsApart n) : (n :: (p.te.aborts.filter fun w => w.target == n).map (·.seq)).Nodup :=
  h.sublist ((List.sublist_append_left _ _).cons_cons n)

theorem Part.CommandEnds.dismissDone_eq {p q : Part} {y : Transaction} {e : Ending} (h : p.CommandEnds q y e) (hapart : p.EndsApart y.seq) (r : Part)
    (a : Nat) : q.dismissDone r a = p.dismissDone r a := by
  unfold Part.dismissDone
  rw [h.dismissWait]
  cases hd : p.um.dismissWait with
  | none =>
    rw [Part.countedWait_none hd]
    rfl
  | some d =>
    obtain ⟨d', hd', hseq, hunit, -⟩ := Part.countedWait_some hd y e
    obtain ⟨hne, haborts⟩ := hapart.dismiss hd
    have hheld : q.heldOf d.seq = p.heldOf d.seq := h.heldOf d.seq hne fun ⟨w, hw, ht, hs⟩ => absurd hs (haborts w hw ht)
    rw [hd']
    simp only [Option.toList_some, List.filter_cons, List.filter_nil, hseq, hunit, hheld]
    split <;> simp [hseq]

theorem Part.CommandEnds.turnSettled {p q r : Part} {a : Nat} {y : Transaction} {e : Ending} (h : p.CommandEnds q y e) (h' : q.UnitTold r a) :
    p.TurnSettled r a y e := by
  refine ⟨by rw [h'.te]; exact h.te, by rw [h'.te]; exact h.targets, ?board, h'.held.trans h.held, fun hapart => ?finishes, fun hapart n hn hf => ?heldOf,
    fun ho x hx => (h.shows ho x hx).after h'.serves.toWorks, fun w hw ht hne x hx => (h.aborted w hw ht hne x hx).after h'.serves.toWorks,
    fun hq => ?quiet, fun ho h1 h2 h3 => (h.logs ho h1 h2 h3).trans h'.serves.toWorks.port.outstanding⟩
  case board =>
    refine h'.board.trans ?_
    rw [h.board, h'.board]
  case finishes =>
    rw [h'.board]
    show q.board.finishes ++ q.dismissDone r a = _
    rw [h.finishes hapart.aborts, h.dismissDone_eq hapart, List.append_assoc]
    rfl
  case heldOf =>
    rw [← h.dismissDone_eq hapart] at hf
    refine (h'.heldOf n fun f hf' => hf f (List.mem_append_right _ hf')).trans (h.heldOf n hn fun ⟨w, hw, ht, hs⟩ => ?_)
    cases hh : p.heldOf n with
    | none => rfl
    | some x => exact absurd hs (hf _ (List.mem_append_left _ (Part.abortDone_mem hw ht (hs ▸ hh))))
  case quiet =>
    rw [h'.svc, h.quiet hq]

end Sys2Proof.Machine
end

section
/-! SUPPORT. The end of a command turn (R69, R71, R90, R91, R92, R98, R104). -/

namespace Sys2Proof.Machine

/-! ## The row of a transaction that a turn ends -/

/-- A part that a row has reached whose requests and transactions are those of the state. -/
structure State.Reaches (s : State) (p : Part) : Prop where
  works : s.part.Works p
  te : p.te = s.part.te
  board : p.board = s.part.board
  dismissWait : p.um.dismissWait = s.part.um.dismissWait

/-- R90, R104: what the row leaves of a settled transaction. -/
structure State.CommandRow (s t : State) (y : Transaction) (e : Ending) (a : Nat) : Prop where
  syncs : t.part.te.syncs = s.part.te.syncs
  finished : s.EndsApart y.seq → s.Finished t (⟨y.seq, e.outcome == .ok, true⟩ :: (s.abortFinishes y.seq ++ s.dismissFinish t a))
  pool : ∀ r : State, t.Resolves r → r.part.te.pool = s.part.te.pool.filter fun z => z.seq != y.seq
  completes : ∀ r : State, t.Resolves r → y.origin.isSome = true → s.Completes r y.seq (y.result e)
  targets : ∀ r : State, t.Resolves r → ∀ w ∈ r.part.te.aborts, w.target ≠ y.seq
  aborted : ∀ r : State, t.Resolves r → ∀ w ∈ s.part.te.aborts, w.target = y.seq → w.seq ≠ y.seq →
    s.Completes r w.seq (abortResult (settledEffect e.outcome) .transact (some e.outcome))

theorem State.Reaches.commandRow {s t : State} {p : Part} {y : Transaction} {e : Ending} {a : Nat} (h : s.Reaches p) (hfin : s.part.board.finishes = [])
    (ht : p.TurnSettled t.part a y e) (hw : p.Works t.part) : s.CommandRow t y e a := by
  obtain ⟨hworks, hte, hboard, hwait⟩ := h
  have hheld : ∀ n, p.heldOf n = s.part.heldOf n := fun n => by
    unfold Part.heldOf
    rw [hboard]
  have habort : p.abortDone y.seq = s.abortFinishes y.seq := by
    unfold Part.abortDone State.abortFinishes
    rw [hte]
    exact List.filterMap_congr fun w _ => congrArg _ (hheld w.seq)
  have hdismiss : p.dismissDone t.part a = s.dismissFinish t a := by
    rw [State.dismissFinish_eq]
    unfold Part.dismissDone
    rw [hwait]
    simp only [hheld]
  have hapart : s.EndsApart y.seq → p.EndsApart y.seq := fun h => by
    unfold Part.EndsApart
    rw [hte, hwait]
    exact h
  have hpool : ∀ r : State, t.Resolves r → r.part.te = { t.part.te with syncs := r.part.te.syncs } := fun r hr => hr.releases.te
  have hshown : ∀ r : State, t.Resolves r → ∀ (n : Nat) (res : Result),
      (∀ x, p.heldOf n = some x → p.Shows t.part (x.completion res p.run.clock)) → s.Completes r n res := fun r hr n res hshows =>
    Part.Shows.completes (p := p) (q := t.part) (hw.trans hr.works) (congrArg _ hboard) hworks.base hworks.clock hr.works
      fun x hx => hshows x ((hheld n).trans hx)
  refine ⟨by rw [ht.te, hte], fun hs => ?finished, fun r hr => ?pool, fun r hr ho => hshown r hr _ _ (ht.shows ho), fun r hr => ?targets,
    fun r hr w hw' htarget hne => hshown r hr _ _ fun x hx => ht.aborted w (hte ▸ hw') htarget hne x hx⟩
  case finished =>
    have hboard' := ht.board
    rw [hboard] at hboard'
    refine ⟨?_, ?_, ?_, ?_, ht.held.trans (by rw [hboard]), fun n hn => ?_⟩
    · rw [ht.finishes (hapart hs), hboard, hfin, habort, hdismiss]
      rfl
    · rw [hboard']
    · rw [hboard']
    · rw [hboard']
    · refine (ht.heldOf (hapart hs) n (Ne.symm (hn _ List.mem_cons_self)) fun f hf => hn f (List.mem_cons_of_mem _ ?_)).trans (hheld n)
      rw [← habort, ← hdismiss]
      exact hf
  case pool => rw [hpool r hr, ht.te, hte]
  case targets =>
    rw [hpool r hr]
    exact ht.targets

theorem abortResult_settled (o : ReqOutcome) : abortResult (settledEffect o) .transact (some o) =
    { outcome := .ok, fields := [if o = .ok ∨ o = .unitRefused then 2 else 1, 1, o.code] } := by
  unfold abortResult settledEffect
  split <;> rfl

theorem State.Reaches.fails {s r : State} {p : Part} {q : Part} {y : Transaction} {e : Ending} {a : Nat} (h : s.Reaches p)
    (ht : p.TurnSettled q a y e) (hr : q.Works r.part) (ho : y.origin = none) (h1 : e.outcome ≠ .ok) (h2 : e.byAbort = false)
    (h3 : p.port.waits .transactionEngine = false) : s.Logs r (y.lateFailure e) := by
  have hlogs := (ht.logs ho h1 h2 h3).trans hr.port.outstanding
  rw [h.works.base, h.works.clock] at hlogs
  exact ⟨_, _, hlogs⟩

/-! ## The end of the turn -/

theorem Part.endTurn_command {p : Part} {x : Turn} {n : Nat} (hk : x.kind = .command n) :
    p.endTurn x = (p.freeLine.settleCommand n x.answer).unitTurnEnd x.unit x.kind x.outcome := by
  unfold Part.endTurn
  rw [hk]
  rfl

/-! ## The outcome by the table (R90) -/

theorem Transaction.result_congr {e e' : Ending} (h1 : e.outcome = e'.outcome) (h2 : e.payload = e'.payload) (h3 : e.reason = e'.reason)
    (y : Transaction) : y.result e = y.result e' := by
  unfold Transaction.result
  rw [h1, h2, h3]

/-- R90: the outcome `o` of a turn, with the reply's payload and the refusal's reason. -/
def Transaction.EndsWith (y : Transaction) (u : FieldUnit) (a : Answer) (late drainEnded : Bool) (o : ReqOutcome) (payload : List Byte) (reason : Byte) : Prop :=
  u.link = .departing ∧ o = .dismissed ∧ payload = [] ∧ reason = 0 ∨
  u.link ≠ .departing ∧ a = .reply payload ∧ o = .ok ∧ reason = 0 ∨
  u.link ≠ .departing ∧ a = .refuse reason ∧ o = .unitRefused ∧ payload = [] ∨
  u.link ≠ .departing ∧ (a = .defer ∨ a = .garbled ∨ a = .noFrame) ∧ payload = [] ∧ reason = 0 ∧
    (y.abortRequested = true ∧ o = .aborted ∨ y.abortRequested = false ∧ late = true ∧ o = .deadline ∨
     y.abortRequested = false ∧ late = false ∧ drainEnded = true ∧ o = .stopped ∨
     y.abortRequested = false ∧ late = false ∧ drainEnded = false ∧ a ≠ .defer ∧ u.params.retryLimit < y.retries + 1 ∧ o = .noAnswer)

/-- R90: an ending as the table says it. -/
structure Ending.Is (e : Ending) (y : Transaction) (o : ReqOutcome) (payload : List Byte) (reason : Byte) : Prop where
  outcome : e.outcome = o
  payload : e.payload = payload
  reason : e.reason = reason
  own : o ≠ .ok → y.abortRequested = false ∨ o = .unitRefused → e.byAbort = false
  byAbort : o = .aborted ∨ o = .dismissed ∧ y.abortRequested = true → e.byAbort = true

theorem Part.settlement_of_table {p : Part} {y : Transaction} {u : FieldUnit} {a : Answer} {o : ReqOutcome} {payload : List Byte} {reason : Byte}
    (h : y.EndsWith u a (y.late p.run.clock) p.run.drainEnded o payload reason) :
    ∃ e, p.settlement y u a = .finish e ∧ e.Is y o payload reason := by
  rcases h with ⟨hl, rfl, rfl, rfl⟩ | ⟨hl, rfl, rfl, rfl⟩ | ⟨hl, rfl, rfl, rfl⟩ | ⟨hl, ha, rfl, rfl, ho⟩
  · exact ⟨_, Part.settlement_departing hl a, rfl, rfl, rfl, fun _ h => h.resolve_right (by simp), fun h => (h.resolve_left (by simp)).2⟩
  · exact ⟨_, Part.settlement_reply hl payload, rfl, rfl, rfl, fun h => absurd rfl h, fun h => absurd h (by simp)⟩
  · exact ⟨_, Part.settlement_refuse hl reason, rfl, rfl, rfl, fun _ _ => rfl, fun h => absurd h (by simp)⟩
  · have htable := Part.settlement_unanswered (p := p) (y := y) hl (ha.imp_right (Or.imp_right .inl))
    rcases ho with ⟨h1, rfl⟩ | ⟨h1, h2, rfl⟩ | ⟨h1, h2, h3, rfl⟩ | ⟨h1, h2, h3, h4, h5, rfl⟩
    · rw [if_pos h1] at htable
      exact ⟨_, htable, rfl, rfl, rfl, fun _ h => absurd h (by simp [h1]), fun _ => rfl⟩
    · rw [if_neg (by simp [h1]), if_pos h2] at htable
      exact ⟨_, htable, rfl, rfl, rfl, fun _ _ => rfl, fun h => absurd h (by simp)⟩
    · rw [if_neg (by simp [h1]), if_neg (by simp [h2]), if_pos h3] at htable
      exact ⟨_, htable, rfl, rfl, rfl, fun _ _ => rfl, fun h => absurd h (by simp)⟩
    · have hnone : y.unsettled u a = .finish { outcome := .noAnswer } := by
        unfold Transaction.unsettled
        rw [if_neg h4, if_pos (ha.resolve_left h4), if_neg (by omega)]
      rw [if_neg (by simp [h1]), if_neg (by simp [h2]), if_neg (by simp [h3]), hnone] at htable
      exact ⟨_, htable, rfl, rfl, rfl, fun _ _ => rfl, fun h => absurd h (by simp)⟩

/-- R90, lines 7 to 9: nothing ends the transaction. -/
theorem Part.settlement_unsettled {p : Part} {y : Transaction} {u : FieldUnit} {a : Answer} (hl : u.link ≠ .departing)
    (ha : a = .defer ∨ a = .garbled ∨ a = .noFrame ∨ a = .interrupted) (h1 : y.abortRequested = false) (h2 : y.late p.run.clock = false)
    (h3 : p.run.drainEnded = false) : p.settlement y u a = y.unsettled u a := by
  rw [Part.settlement_unanswered hl ha, if_neg (by simp [h1]), if_neg (by simp [h2]), if_neg (by simp [h3])]

/-! ## Obligation: the end of a command turn -/

/-- R90: whatever the settlement, the unit is in its place. -/
theorem Part.settleCommand_keeps {p : Part} {n : Nat} {a : Answer} {y : Transaction} {u : FieldUnit} (hy : p.findTxn n = some y)
    (hu : p.unitAt y.unit = some u) (ha : 1 ≤ y.unit ∧ y.unit ≤ 30) :
    ∃ l, p.Settles (p.settleCommand n a) y.unit u l ∧ (u.link ≠ .departing → l = p.reservation y u a) := by
  by_cases hl : u.link = .departing
  · exact ⟨_, (Part.settleCommand_finish hy hu (Part.settlement_departing hl a)).settles ha hu, fun h => absurd hl h⟩
  · exact ⟨_, Part.settleCommand_settles hy hu ha hl, fun _ => rfl⟩

/-- Settles O49: the settlement's part first, then what the Unit Manager makes of the unit. -/
theorem commandTurnIsSettled : Obligations.CommandTurnIsSettled := by
  unfold Obligations.CommandTurnIsSettled
  intro s c x u seq y late hc hk hy hyu ha hu hanswer hworking hs hw hlate
  have hport : s.PortFree := ⟨hw, (hs hw).1⟩
  obtain ⟨hlater, hfinishes, -⟩ := hs hw
  obtain rfl := Part.findTxn_seq hy
  have hlate' : y.late s.part.run.clock = late := Bool.eq_iff_iff.mpr ((y.late_iff _).trans hlate.symm)
  have hexec := exec_endsTurn_settle hc hport
  have hend := Part.endTurn_command (p := s.part) hk
  have huy : s.part.freeLine.unitAt y.unit = some u := by
    rw [hyu]
    exact hu
  have hreach : s.Reaches s.part.freeLine := ⟨s.part.freeLine_works, rfl, rfl, rfl⟩
  have hcalmQ := Part.settleCommand_calm y.seq x.answer s.part.freeLine
  have hcalm := hcalmQ.trans (Part.unitTurnEnd_calm x.unit x.kind x.outcome _)
  have hserves := (Part.settleCommand_serves y.seq x.answer s.part.freeLine).trans (Part.unitTurnEnd_serves x.unit x.kind x.outcome _)
  rw [← hend] at hcalm hserves
  have hsteady : s.Steady → (s.onPart (Part.endTurn x)).onPart Part.settle = (s.onPart (Part.endTurn x)).onPart Part.resolve :=
    fun h => h.settle_eq hcalm.run
  have hres : ∀ r : State, s.ResolvedOrNot (s.onPart (Part.endTurn x)) r → (s.onPart (Part.endTurn x)).Resolves r := fun r hr =>
    hr.resolves (hcalm.later.trans hlater) fun n hn => hcalm.waits n hn
  obtain ⟨l, hset, hkept⟩ := Part.settleCommand_keeps (a := x.answer) (p := s.part.freeLine) hy huy (hyu ▸ ha)
  rw [hyu] at hset
  have htold := Part.unitTurnEnd_told ha (congrArg UnitSlot.place hset.slot) x.kind x.outcome
  rw [← hend] at htold
  have hslots : ∀ r : State, s.ResolvedOrNot (s.onPart (Part.endTurn x)) r → ∀ b, r.part.unitSlot b = (s.part.endTurn x).unitSlot b := fun r hr b =>
    Part.unitSlot_of_um (hres r hr).releases.um b
  have hends : u.link ≠ .departing → s.part.freeLine.TurnEnds (s.part.freeLine.settleCommand y.seq x.answer) (s.part.endTurn x) x.unit l
      (u.takeTurn x.kind x.outcome s.part.run.clock) := fun hl => by
    rw [hend]
    exact hset.turnEnds ha hu hl x.kind x.outcome
  have hunsettled : u.link ≠ .departing → x.answer = .defer ∨ x.answer = .garbled ∨ x.answer = .noFrame → y.abortRequested = false → late = false →
      s.part.run.drainEnded = false → s.part.freeLine.settlement y u x.answer = y.unsettled u x.answer := fun hl ha' h1 h2 h3 =>
    Part.settlement_unsettled hl (ha'.imp_right (Or.imp_right .inl)) h1 (hlate'.trans h2) h3
  have hpending : ∀ f : Transaction → Transaction, s.part.freeLine.settleCommand y.seq x.answer = s.part.freeLine.mapTxn y.seq f → u.link ≠ .departing →
      s.Finished (s.onPart (Part.endTurn x)) [] ∧ ∀ r : State, s.ResolvedOrNot (s.onPart (Part.endTurn x)) r →
        r.part.te = { s.part.te with pool := s.part.te.pool.map fun z => if z.seq = y.seq then f z else z } := fun f hf hl => by
    have hboard : (s.part.endTurn x).board = s.part.board := (hends hl).board.trans (by rw [hf]; rfl)
    have hte : (s.part.endTurn x).te = (s.part.freeLine.mapTxn y.seq f).te := (hends hl).te.trans (congrArg Part.te hf)
    refine ⟨⟨?_, ?_, ?_, ?_, ?_, fun n _ => ?_⟩, fun r hr => ?_⟩
    · exact (congrArg BoardController.finishes hboard).trans hfinishes
    · exact congrArg BoardController.registry hboard
    · exact congrArg BoardController.nextSeq hboard
    · exact congrArg BoardController.sweep hboard
    · rw [show (s.onPart (Part.endTurn x)).part.board = s.part.board from hboard]
    · unfold Part.heldOf
      rw [show (s.onPart (Part.endTurn x)).part.board = s.part.board from hboard]
    · refine ((hres r hr).requests fun f hf' => ?_).1.trans hte
      rw [show (s.onPart (Part.endTurn x)).part.board = s.part.board from hboard, hfinishes] at hf'
      exact absurd hf' List.not_mem_nil
  refine ⟨_, hexec, hsteady, rfl, rfl, fun o payload reason ho => ?settled, fun hl ha' h1 h2 h3 => ?deferred, fun hl ha' h1 h2 h3 h4 => ?again,
    fun r hr => ⟨?run, ?line, ?dir, ?jw, ?others, fun reserve v hl hreserve hv => ?present, fun hl => ?departing⟩⟩
  case settled =>
    obtain ⟨e, he, hse⟩ := Part.settlement_of_table (p := s.part.freeLine) (y := y) (u := u) (a := x.answer) (o := o) (payload := payload) (reason := reason)
      (by rw [show y.late s.part.freeLine.run.clock = late from hlate']; exact ho)
    have hturn := (Part.settleCommand_finish (p := s.part.freeLine) hy huy he).turnSettled htold
    have hrow := hreach.commandRow (t := s.onPart (Part.endTurn x)) hfinishes hturn hserves.toWorks
    have hresult := Transaction.result_congr (e := e) (e' := { outcome := o, payload := payload, reason := reason }) hse.outcome hse.payload hse.reason y
    have hfinished := hrow.finished
    rw [hse.outcome] at hfinished
    refine ⟨hrow.syncs, hfinished, fun r hr => ⟨hrow.pool r (hres r hr), fun hsome => ?_, fun hnone hok hown => ?_, fun hq => ?_, hrow.targets r (hres r hr),
      fun w hwm ht hne _ => ?_⟩⟩
    · rw [← hresult]
      exact hrow.completes r (hres r hr) hsome
    · have hlogs := hreach.fails hturn (hres r hr).works hnone (by rw [hse.outcome]; exact hok) (hse.own hok hown) (WindowPort.not_waits hw _)
      unfold Transaction.lateFailure at hlogs
      rw [hse.outcome, hse.payload, hse.reason] at hlogs
      exact hlogs
    · have hsvc := hturn.quiet (hq.imp_right fun h => (h.imp (hse.outcome.trans ·) hse.byAbort))
      have hrsvc : r.part.svc = (s.part.endTurn x).svc := (hres r hr).releases.svc
      rw [State.LogsNothing, hrsvc, hsvc]
      exact ⟨rfl, rfl⟩
    · have haborted := hrow.aborted r (hres r hr) w hwm ht hne
      rw [abortResult_settled, hse.outcome] at haborted
      exact haborted
  case deferred =>
    have hf := Part.settleCommand_deferred (p := s.part.freeLine) hy huy ((hunsettled hl (.inl ha') h1 h2 h3).trans (if_pos ha'))
    exact hpending _ hf hl
  case again =>
    have hset' : y.unsettled u x.answer = .again true := by
      unfold Transaction.unsettled
      rw [if_neg (by rcases ha' with e | e <;> rw [e] <;> simp), if_pos ha', if_pos h4]
    have hf := Part.settleCommand_again (p := s.part.freeLine) hy huy ((hunsettled hl (.inr ha') h1 h2 h3).trans hset')
    exact hpending _ hf hl
  case run => exact (hres r hr).releases.run.trans hcalm.run
  case line => exact (hres r hr).releases.line.trans hcalm.line
  case dir => exact (hres r hr).releases.dir.trans (htold.dir.trans hset.dir)
  case jw => exact (hres r hr).releases.jw.trans (htold.jw.trans hset.jw)
  case others => exact fun b hb => (hslots r hr b).trans ((htold.others b hb).trans (hset.others b hb))
  case present =>
    have hturn := hends hl
    have hrslot := hslots r hr x.unit
    rw [hturn.slot] at hrslot
    have hbit : unitBitChange (s.part.unitAt x.unit) (some v) = !decide (u.link = v.link ∧ u.gate = v.gate ∧ u.factors = v.factors) := by
      rw [hu, hv]
      exact FieldUnit.takeTurn_bit ..
    rw [Turn.outcome_eq hanswer, ← hv] at hturn hrslot
    have hl' : l = reserve.toList.map fun k => { token := k, tag := y.tag, expiry := s.part.run.clock + wordOf (100 * u.params.deferLimit) } := by
      rw [hkept hl, hreserve, ← hlate']
      rfl
    have hreservations : v.reservations = u.reservations := by
      rw [hv]
      exact u.takeTurn_reservations ..
    refine ⟨?_, ?_, ?_, fun hchange => ?_, fun e1 e2 e3 => ?_, ?_⟩
    · unfold Part.unitAt
      rw [hrslot, hl', ← hreservations]
      rfl
    · exact ((List.sublist_append_right _ _).trans hturn.writes).trans ((WindowPort.ofBlock_outstanding _ _).trans (hres r hr).works.port.outstanding)
    · rw [hrslot]
      rfl
    · have hchanged : unitBitChange (s.part.unitAt x.unit) (some v) = true := by
        rw [hbit, Bool.not_eq_true', decide_eq_false_iff_not]
        exact fun ⟨e1, e2, e3⟩ => hchange.elim (· e1) (Or.elim · (· e2) (· e3))
      exact State.handsBit_of (((hturn.bit hchanged).works (hres r hr).works).after s.part.freeLine_works)
    · have hsame : unitBitChange (s.part.unitAt x.unit) (some v) = false := by
        rw [hbit, decide_eq_true ⟨e1, e2, e3⟩]
        rfl
      rw [show r.part.svc = (s.part.endTurn x).svc from (hres r hr).releases.svc]
      exact hturn.nobit hsame
    · rw [show r.part.um = (s.part.endTurn x).um from (hres r hr).releases.um, hturn.dismissWait]
      exact Part.settleCommand_dismissWait (p := s.part.freeLine) hy huy hl
  case departing =>
    have hgone := Part.removeUnit_removed ha (congrArg UnitSlot.place hset.slot) hl
    rw [← Part.unitTurnEnd_departing (congrArg UnitSlot.place hset.slot) hl x.kind x.outcome, ← hend] at hgone
    have hcommand := Part.settleCommand_finish (p := s.part.freeLine) (a := x.answer) hy huy (Part.settlement_departing hl x.answer)
    have hslotQ := hcommand.frees (fun _ _ h => absurd h (by simp)) x.unit
    have hbaseQ := hcommand.serves.toWorks.base
    have hclockQ := hcommand.serves.toWorks.clock
    have hQwait := hcommand.dismissWait
    have hQheld := hcommand.heldOf
    have hQroom := hcommand.room
    have hworksQ := s.part.freeLine_works.trans hcommand.serves.toWorks
    generalize s.part.freeLine.settleCommand y.seq x.answer = Q at *
    have hrslot := (hslots r hr x.unit).trans hgone.slot
    have hversion : (Q.unitSlot x.unit).version = (s.part.unitSlot x.unit).version := congrArg UnitSlot.version hslotQ
    have hshows := hgone.shows
    rw [hbaseQ, hversion] at hshows
    have hwrites := (List.sublist_append_right _ _).trans (hshows.trans ((WindowPort.ofBlock_outstanding _ _).trans (hres r hr).works.port.outstanding))
    have hcounted : ∀ d : WaitingDismiss, s.part.um.dismissWait = some d → d.unit = x.unit →
        Q.um.dismissWait = some { d with ended := d.ended + 1 } := fun d hd hda => by
      rw [hQwait]
      unfold Part.countedWait
      rw [if_pos rfl, show s.part.freeLine.um.dismissWait = some d from hd]
      exact congrArg some (if_pos (hda.trans hyu.symm))
    refine ⟨?_, ⟨?_, hwrites⟩, State.handsBit_of ((hgone.bit.works (hres r hr).works).after hworksQ), fun d hd hda hne hna => ?waited, fun hother => ?kept⟩
    · unfold Part.unitAt
      rw [hrslot]
    · rw [hrslot, hversion]
    case waited =>
      have hd' := hcounted d hd hda
      have hheldd : Q.heldOf d.seq = s.part.heldOf d.seq := hQheld d.seq hne fun ⟨w, hw', _, hs'⟩ => absurd hs' (hna w hw')
      obtain ⟨hwait, hshown⟩ := hgone.dismissed _ hd' hda
      have hcompletes : (∀ h, Q.heldOf d.seq = some h → Q.Shows (s.part.endTurn x) (h.completion
          { outcome := .ok, fields := [byteOf d.retired, byteOf (d.ended + 1)] } Q.run.clock)) →
          s.Completes r d.seq { outcome := .ok, fields := [byteOf d.retired, byteOf (d.ended + 1)] } := fun hshow =>
        Part.Shows.completes (p := s.part.freeLine) (q := s.part.endTurn x) (hserves.toWorks.trans (hres r hr).works) rfl rfl rfl (hres r hr).works
          fun h hh => by
            have hc := (hshow h (hheldd.trans hh)).before hcommand.serves.toWorks
            rw [hclockQ] at hc
            exact hc
      refine ⟨?_, ?_, fun hroom => ?_⟩
      · rw [show r.part.um = (s.part.endTurn x).um from (hres r hr).releases.um]
        exact hwait
      · rcases hshown with hshow | ⟨hwaits, hheld⟩
        · exact .inl (hcompletes hshow)
        · have hself : r.part = s.part.endTurn x := by
            rcases hr with rfl | ⟨-, rfl⟩
            · rfl
            · obtain ⟨w, hw', -⟩ := hwaits
              exact Part.resolve_waiting (List.ne_nil_of_mem hw')
          rw [State.CompletesOrWaits, hself]
          exact .inr ⟨hwaits, hheld.trans hheldd⟩
      · have hfree : s.part.freeLine.RoomFor (4 + 3) := by
          refine ⟨hw, ?_, hroom.2.2.2⟩
          have hq := hroom.2.2.1
          show s.part.port.writesQueued + (if s.part.board.completions = [] then 2 else 0) + (4 + 3) ≤ _
          split <;> omega
        obtain ⟨hwrites', hreads⟩ := mirrorWrites_counts (unitMirrorAddr Q.base x.unit) (Q.unitSlot x.unit).version (unitBody none)
        exact hcompletes fun h hh => hgone.done ((hQroom 3 hfree).fits hwrites'.le hreads) _ h hd' hda hh
    case kept =>
      have hQsame : Q.um.dismissWait = s.part.um.dismissWait := by
        rw [hQwait]
        unfold Part.countedWait
        rw [if_pos rfl]
        show s.part.um.dismissWait.map _ = _
        cases hd : s.part.um.dismissWait with
        | none => rfl
        | some d => exact congrArg some (if_neg fun e => hother d hd (e.trans hyu))
      rw [show r.part.um = (s.part.endTurn x).um from (hres r hr).releases.um]
      exact (hgone.kept (by rw [hQsame]; exact hother)).1.trans hQsame

end Sys2Proof.Machine
end

section
/-! SUPPORT. A turn that a line fault interrupts: what its end leaves of a unit and of its transaction (R29, R30, R66, R74, R90). -/

namespace Sys2Proof.Machine

/-! ## The interrupted unit (R29, R30) -/

/-- R30: an interrupted turn is counted, and nothing else that the statements name. -/
theorem FieldUnit.takeTurn_interrupted (k : TurnKind) (now : Word) (u : FieldUnit) :
    (u.takeTurn k .interrupted now).link = u.link ∧ (u.takeTurn k .interrupted now).factors = u.factors ∧
    (u.takeTurn k .interrupted now).turns = u.turns + 1 ∧ (u.takeTurn k .interrupted now).cleanTurns = u.cleanTurns ∧
    (u.takeTurn k .interrupted now).erroredTurns = u.erroredTurns ∧ (u.takeTurn k .interrupted now).noAnswers = u.noAnswers ∧
    (u.takeTurn k .interrupted now).streak = u.streak ∧ (u.takeTurn k .interrupted now).missed = u.missed ∧
    (u.takeTurn k .interrupted now).cleanRun = u.cleanRun := by
  have hcounted : ∀ v : FieldUnit, v = (if u.link = .online ∨ u.link = .suspect then ((u.countTurn .interrupted).countHealth .interrupted).judgeHealth .interrupted now
      else u.countTurn .interrupted) → v = u.countTurn .interrupted := fun v hv => by
    rw [hv]
    by_cases h : u.link = .online ∨ u.link = .suspect
    · rw [if_pos h, FieldUnit.judgeHealth_eq (by exact h), if_neg (fun h => absurd h.1 (by simp)), if_neg (fun h => absurd h.1 (by simp)),
        if_neg (fun h => absurd h.1 (by simp))]
      rfl
    · rw [if_neg h]
  cases k with
  | rollCall =>
    unfold FieldUnit.takeTurn
    dsimp only
    split <;> exact ⟨rfl, rfl, rfl, rfl, rfl, rfl, rfl, rfl, rfl⟩
  | poll =>
    rw [hcounted (u.takeTurn .poll .interrupted now) rfl]
    exact ⟨rfl, rfl, rfl, rfl, rfl, rfl, rfl, rfl, rfl⟩
  | command n =>
    rw [hcounted (u.takeTurn (.command n) .interrupted now) rfl]
    exact ⟨rfl, rfl, rfl, rfl, rfl, rfl, rfl, rfl, rfl⟩

/-- R48, R49: the judgement of the gate leaves the counts alone. -/
theorem FieldUnit.judgeGate_counts (now : Word) (u : FieldUnit) :
    (u.judgeGate now).turns = u.turns ∧ (u.judgeGate now).cleanTurns = u.cleanTurns ∧ (u.judgeGate now).erroredTurns = u.erroredTurns ∧
    (u.judgeGate now).noAnswers = u.noAnswers ∧ (u.judgeGate now).streak = u.streak ∧ (u.judgeGate now).missed = u.missed ∧
    (u.judgeGate now).cleanRun = u.cleanRun := by
  unfold FieldUnit.judgeGate FieldUnit.openGate
  split
  · exact ⟨rfl, rfl, rfl, rfl, rfl, rfl, rfl⟩
  · split
    · split <;> exact ⟨rfl, rfl, rfl, rfl, rfl, rfl, rfl⟩
    · exact ⟨rfl, rfl, rfl, rfl, rfl, rfl, rfl⟩

/-! ## The interrupted transaction (R90) -/

/-- R90: what the settlement of an interrupted turn leaves of the units and of the other blocks. -/
structure Part.LeavesUnits (p q : Part) : Prop where
  serves : p.Serves q
  calm : p.Calm q
  dir : q.dir = p.dir
  jw : q.jw = p.jw
  svc : q.svc = { p.svc with nextFault := q.svc.nextFault, ringIndex := q.svc.ringIndex }
  slots : ∀ b, q.unitSlot b = p.unitSlot b

theorem Part.LeavesUnits.refl (p : Part) : p.LeavesUnits p := ⟨.refl _, .refl _, rfl, rfl, rfl, fun _ => rfl⟩

theorem Part.settlement_interrupted_reserve {p : Part} {y : Transaction} {u : FieldUnit} {e : Ending} (he : p.settlement y u .interrupted = .finish e) :
    e.reserve = none := by
  by_cases hl : u.link = .departing
  · rw [Part.settlement_departing hl] at he
    obtain rfl := Settlement.finish.inj he
    rfl
  · exact (Part.settlement_finish hl he).1.trans (if_neg fun h => absurd h.1 (by simp))

theorem Part.settleCommand_interrupted (n : Nat) (p : Part) : p.LeavesUnits (p.settleCommand n .interrupted) := by
  cases hy : p.findTxn n with
  | none =>
    have hsame : p.settleCommand n .interrupted = p := by
      unfold Part.settleCommand
      rw [hy]
    rw [hsame]
    exact .refl p
  | some y =>
    cases hu : p.unitAt y.unit with
    | none =>
      have hsame : p.settleCommand n .interrupted = p := by
        unfold Part.settleCommand
        rw [hy]
        dsimp only
        rw [hu]
      rw [hsame]
      exact .refl p
    | some u =>
      have hmapped : ∀ f : Transaction → Transaction, (∀ t, (f t).unit = t.unit) → (∀ t, (f t).seq = t.seq) → (∀ t, (f t).pred = t.pred) →
          p.settleCommand n .interrupted = p.mapTxn n f → p.LeavesUnits (p.settleCommand n .interrupted) := fun f h1 h2 h3 h => by
        rw [h]
        exact ⟨p.mapTxn_serves n f h2, Part.mapTxn_calm n f p h1 h2 fun t => .inl (h3 t), rfl, rfl, rfl, fun _ => rfl⟩
      cases he : p.settlement y u .interrupted with
      | finish e =>
        have hends := Part.settleCommand_finish hy hu he
        exact ⟨hends.serves, hends.calm, hends.dir, hends.jw, hends.svc,
          hends.frees fun _ _ h => absurd ((Part.settlement_interrupted_reserve he).symm.trans h) (by simp)⟩
      | deferred => exact hmapped (Transaction.deferTill (u.deferUntil p.run.clock)) (fun _ => rfl) (fun _ => rfl) (fun _ => rfl) (Part.settleCommand_deferred hy hu he)
      | again retried => exact hmapped (Transaction.again retried) (fun _ => rfl) (fun _ => rfl) (fun _ => rfl) (Part.settleCommand_again hy hu he)

/-- R75: the part in which the Unit Manager takes the report of a turn. -/
def Part.turnSettled (x : Turn) (p : Part) : Part :=
  match x.kind with
  | .command n => p.freeLine.settleCommand n x.answer
  | .poll | .rollCall => p.freeLine

theorem Part.endTurn_eq (x : Turn) (p : Part) : p.endTurn x = (p.turnSettled x).unitTurnEnd x.unit x.kind x.outcome := rfl

theorem Part.turnSettled_command {x : Turn} {n : Nat} (h : x.kind = .command n) (p : Part) :
    p.turnSettled x = p.freeLine.settleCommand n x.answer := by
  unfold Part.turnSettled
  rw [h]

theorem Part.turnSettled_other {x : Turn} (h : x.kind = .poll ∨ x.kind = .rollCall) (p : Part) : p.turnSettled x = p.freeLine := by
  unfold Part.turnSettled
  rcases h with e | e <;> rw [e]

theorem Part.turnSettled_interrupted {x : Turn} (h : x.answer = .interrupted) (p : Part) : p.freeLine.LeavesUnits (p.turnSettled x) := by
  cases hk : x.kind with
  | command n =>
    rw [Part.turnSettled_command hk, h]
    exact Part.settleCommand_interrupted n p.freeLine
  | poll =>
    rw [Part.turnSettled_other (.inl hk)]
    exact .refl _
  | rollCall =>
    rw [Part.turnSettled_other (.inr hk)]
    exact .refl _

theorem Part.LeavesUnits.settles {p q : Part} (h : p.LeavesUnits q) {a : Nat} {u : FieldUnit} (hu : p.unitAt a = some u) : p.Settles q a u [] :=
  ⟨h.serves, h.calm, h.dir, h.jw, h.svc, by rw [h.slots, u.reserveMore_nil]; exact Part.unitSlot_place hu, fun b _ => h.slots b⟩

/-! ## The report to any address -/

theorem Part.UnitTold.refl (q : Part) (a : Nat) : q.UnitTold q a := by
  have hnone : q.dismissDone q a = [] := Part.dismissDone_none rfl
  exact ⟨.refl _, .refl _, rfl, rfl, rfl, rfl, by rw [hnone, List.append_nil], List.Sublist.refl _, fun _ _ => rfl, fun _ _ => rfl⟩

/-- R44: the DISMISS that waits completes, or stands behind the unit's mirror. -/
theorem Part.finishRequest_told {q : Part} {a : Nat} {d : WaitingDismiss} (hd : q.um.dismissWait = some d) (hda : d.unit = a) :
    q.UnitTold (Part.finishRequest .unitManager d.seq d.result { q with um := { q.um with dismissWait := none } }) a := by
  let X : Part := { q with um := { q.um with dismissWait := none } }
  have hX : q.Serves X := Part.setUnits_serves _ _
  have hcalm : q.Calm X := .of_same rfl rfl rfl id rfl rfl rfl rfl
  show q.UnitTold (X.finishRequest .unitManager d.seq d.result) a
  rcases Part.finishRequest_cases .unitManager d.seq d.result X with ⟨hwaits, hfinish⟩ | ⟨hwaits, hfinish⟩
  · rw [hfinish]
    have hrel := X.completeRequest_releases d.seq d.result
    have hself := X.heldOf_completeRequest_self d.seq d.result
    have hdone : ∀ h, q.heldOf d.seq = some h → q.dismissDone (X.completeRequest d.seq d.result) a = [⟨d.seq, true, false⟩] := fun h hh =>
      Part.dismissDone_some hd hda hh hself
    refine ⟨hX.trans (X.completeRequest_serves _ _), hcalm.trans (X.completeRequest_calm _ _), (X.completeRequest_owners _ _).2.1, hrel.dir, hrel.jw,
      by rw [hrel.svc], ?_, hrel.held, fun n hn => ?_, fun b _ => Part.unitSlot_of_um (p := X) hrel.um b⟩
    · cases hh : q.heldOf d.seq with
      | none =>
        have hnone : q.dismissDone X a = [] := Part.dismissDone_none rfl
        rw [Part.completeRequest_none (p := X) hh, hnone, List.append_nil]
      | some h =>
        rw [hdone h hh, (Part.completeRequest_board _ (p := X) hh).1]
        rfl
    · by_cases e : n = d.seq
      · cases hh : q.heldOf d.seq with
        | none => rw [e, hself, hh]
        | some h =>
          rw [hdone h hh] at hn
          exact absurd e.symm (hn _ List.mem_cons_self)
      · exact Part.heldOf_completeRequest e _ X
  · rw [hfinish]
    have hnone : q.dismissDone { X with port := X.port.park .unitManager [.hand (.complete d.seq d.result)] } a = [] := Part.dismissDone_none rfl
    refine ⟨hX.trans (.of_port (WindowPort.park_grows (.inr hwaits) _) (WindowPort.park_leavesSweep rfl _ _)),
      hcalm.trans (.of_same rfl rfl (WindowPort.park_later _ _ _) (fun g => WindowPort.bounded_of_fifo (WindowPort.park_fifo _ _ _) g) rfl rfl rfl rfl),
      rfl, rfl, rfl, rfl, ?_, List.Sublist.refl _, fun _ _ => rfl, fun _ _ => rfl⟩
    rw [hnone, List.append_nil]

theorem Part.unitTurnEnd_report (a : Nat) (k : TurnKind) (o : TurnOutcome) (q : Part) : q.UnitTold (q.unitTurnEnd a k o) a := by
  cases hu : q.unitAt a with
  | none =>
    have hsame : q.unitTurnEnd a k o = q := by
      unfold Part.unitTurnEnd
      rw [hu]
    rw [hsame]
    exact .refl q a
  | some u =>
    by_cases ha : 1 ≤ a ∧ a ≤ 30
    · exact Part.unitTurnEnd_told ha hu k o
    · have hput : ∀ (new : Option FieldUnit) (f : Bool), q.putUnit a new f = q := fun new f => by
        unfold Part.putUnit
        rw [if_neg ha]
      by_cases hl : u.link = .departing
      · rw [Part.unitTurnEnd_departing hu hl]
        unfold Part.removeUnit
        dsimp only
        rw [hput]
        cases hd : q.um.dismissWait with
        | none => exact .refl q a
        | some d =>
          dsimp only
          by_cases hda : d.unit = a
          · rw [if_pos hda]
            exact Part.finishRequest_told hd hda
          · rw [if_neg hda]
            exact .refl q a
      · have hsame : q.unitTurnEnd a k o = q := by
          unfold Part.unitTurnEnd
          rw [hu]
          dsimp only
          rw [if_neg hl, hput]
        rw [hsame]
        exact .refl q a

end Sys2Proof.Machine
end

section
/-! SUPPORT. A byte of the head frame read back altered (R66, R67, R74). -/

namespace Sys2Proof.Machine

/-! ## The comparison (R66) -/

theorem byteAt_take_append (l : List Byte) {n : Nat} (h : n ≤ l.length) (b : Byte) : byteAt (l.take n ++ [b]) n = b := by
  unfold byteAt
  rw [List.getD_eq_getElem?_getD, List.getElem?_append_right (by rw [List.length_take]; omega), List.length_take, min_eq_left h, Nat.sub_self]
  rfl

/-- R66: the last of the bytes received is compared, those before it having come back as sent. -/
theorem Turn.readbackMismatch_eq {x : Turn} {good : Nat} (h : good < x.frame.length) (byte : Byte) (low : Bool) :
    x.readbackMismatch (x.frame.take good ++ [byte]) low = if byte ≠ byteAt x.frame good ∨ low = true then some good else none := by
  have hlength : (x.frame.take good ++ [byte]).length = good + 1 := by
    rw [List.length_append, List.length_take, min_eq_left h.le]
    rfl
  have htake : (x.frame.take good ++ [byte]).take good = x.frame.take good := by
    rw [List.take_append_of_le_length (by rw [List.length_take, min_eq_left h.le]), List.take_take, min_self]
  unfold Turn.readbackMismatch
  dsimp only
  rw [hlength, Nat.add_sub_cancel, htake, byteAt_take_append _ h.le]
  exact if_congr ⟨fun e => e.2.2.2, fun e => ⟨by simp, h, rfl, e⟩⟩ rfl rfl

/-- R74: the turn that READBACK ends. -/
def Turn.interrupt (x : Turn) : Turn := { x with answer := .interrupted }

theorem Turn.interrupt_outcome (x : Turn) : x.interrupt.outcome = .interrupted := if_pos rfl

theorem exec_readback_same {s : State} (hport : s.PortFree) {x : Turn} {good : Nat} {low : Bool} {byte : Byte} (hturn : s.part.line.turn = some x)
    (hphase : x.phase = .sending) (hgood : good < x.frame.length) (h : byte = byteAt x.frame good) (hlow : low = false) :
    exec (.readback (x.frame.take good ++ [byte], low)) s = .next s := by
  show Host.Outcome.next (s.onBlocks _) = _
  rw [State.onBlocks_eq (s.free_of_portFree hport)]
  unfold State.onPart
  dsimp only
  rw [hturn]
  dsimp only
  rw [hphase, Turn.readbackMismatch_eq hgood, if_neg (by simp [h, hlow])]

/-- R67: the part in which a readback fault has begun. -/
def Part.readbackFault (x : Turn) (good : Nat) (p : Part) : Part := p.beginFault causeReadback x.unit x.kind.frameCode good

theorem exec_readback {s : State} (hport : s.PortFree) {x : Turn} {good : Nat} {low : Bool} {byte : Byte} (hturn : s.part.line.turn = some x)
    (hphase : x.phase = .sending) (hgood : good < x.frame.length) (h : byte ≠ byteAt x.frame good ∨ low = true) :
    exec (.readback (x.frame.take good ++ [byte], low)) s =
      .next ((s.onPart fun p => (p.readbackFault x good).endTurn x.interrupt).onPart Part.settle) := by
  show Host.Outcome.next (s.onBlocks _) = _
  rw [State.onBlocks_eq (s.free_of_portFree hport), State.onPart_onPart]
  unfold State.onPart
  dsimp only
  rw [hturn]
  dsimp only
  rw [hphase, Turn.readbackMismatch_eq hgood, if_pos h]
  unfold Part.readbackFault Turn.interrupt
  dsimp only
  rw [hphase]

/-! ## The outcome of an interrupted transaction (R90) -/

/-- R90: the outcome `o` of an interrupted turn. -/
def Transaction.InterruptedWith (y : Transaction) (u : FieldUnit) (late drainEnded : Bool) (o : ReqOutcome) : Prop :=
  u.link = .departing ∧ o = .dismissed ∨ u.link ≠ .departing ∧ y.abortRequested = true ∧ o = .aborted ∨
  u.link ≠ .departing ∧ y.abortRequested = false ∧ late = true ∧ o = .deadline ∨
  u.link ≠ .departing ∧ y.abortRequested = false ∧ late = false ∧ drainEnded = true ∧ o = .stopped

theorem Part.settlement_interrupted {p : Part} {y : Transaction} {u : FieldUnit} {o : ReqOutcome}
    (h : y.InterruptedWith u (y.late p.run.clock) p.run.drainEnded o) :
    (∃ e, p.settlement y u .interrupted = .finish e ∧ e.Is y o [] 0) ∧ o ≠ .ok ∧ o ≠ .unitRefused := by
  have htable := fun hl => Part.settlement_unanswered (p := p) (y := y) (u := u) hl (.inr (.inr (.inr rfl)))
  rcases h with ⟨hl, rfl⟩ | ⟨hl, h1, rfl⟩ | ⟨hl, h1, h2, rfl⟩ | ⟨hl, h1, h2, h3, rfl⟩
  · exact ⟨⟨_, Part.settlement_departing hl _, rfl, rfl, rfl, fun _ h => h.resolve_right (by simp), fun h => (h.resolve_left (by simp)).2⟩, by simp, by simp⟩
  · exact ⟨⟨_, (htable hl).trans (if_pos h1), rfl, rfl, rfl, fun _ h => absurd h (by simp [h1]), fun _ => rfl⟩, by simp, by simp⟩
  · exact ⟨⟨_, (htable hl).trans ((if_neg (by simp [h1])).trans (if_pos h2)), rfl, rfl, rfl, fun _ _ => rfl, fun h => absurd h (by simp)⟩, by simp, by simp⟩
  · exact ⟨⟨_, (htable hl).trans ((if_neg (by simp [h1])).trans ((if_neg (by simp [h2])).trans (if_pos h3))), rfl, rfl, rfl, fun _ _ => rfl,
      fun h => absurd h (by simp)⟩, by simp, by simp⟩

/-! ## Obligation: the readback -/

theorem Part.FaultShown.written {s r : State} {t : Part} {f : FaultRecord} {faulty : Bool} {line : LineController} (h : s.part.FaultShown t f faulty line)
    (hr : t.Works r.part) (hroom : s.PortRoom 4 0) :
    s.part.port.fifo ++ faultWrites s.part.base s.part.svc.ringIndex s.part.svc.nextFault f s.part.run.clock <+: r.part.port.fifo := by
  obtain ⟨hwrites, hreads⟩ := faultWrites_counts s.part.base s.part.svc.ringIndex s.part.svc.nextFault f s.part.run.clock
  have hfifo := (h.first.trans hr).port.fifo
  rw [Part.takeFault_fits (p := s.part) (f := f) (s.fits_of_portRoom hroom hwrites.le hreads.le)] at hfifo
  exact hfifo

/-- R120: of a row whose settlement has finished nothing, the DISMISS alone is noted. -/
theorem State.Finished.of_told {s t : State} {q : Part} {a : Nat} (hboard : q.board = s.part.board) (hwait : q.um.dismissWait = s.part.um.dismissWait)
    (hfin : s.part.board.finishes = []) (h : q.UnitTold t.part a) :
    s.Finished t (s.dismissFinish t a) ∧ ∀ f ∈ t.part.board.finishes, f.transaction = false := by
  have hheld : ∀ n, q.heldOf n = s.part.heldOf n := fun n => by
    unfold Part.heldOf
    rw [hboard]
  have hdone : q.dismissDone t.part a = s.dismissFinish t a := by
    rw [State.dismissFinish_eq]
    unfold Part.dismissDone
    rw [hwait]
    simp only [hheld]
  have htboard := h.board
  rw [hdone, hboard, hfin, List.nil_append] at htboard
  refine ⟨⟨?_, ?_, ?_, ?_, h.held.trans (by rw [hboard]), fun n hn => ?_⟩, fun f hf => ?_⟩
  · rw [htboard]
  · rw [htboard]
  · rw [htboard]
  · rw [htboard]
  · exact (h.heldOf n (by rw [hdone]; exact hn)).trans (hheld n)
  · rw [htboard] at hf
    obtain ⟨d, -, rfl⟩ := List.mem_map.mp hf
    rfl

/-- R52: what a line fault's begin or end leaves of one place. -/
theorem Part.FaultShown.slot {p t : Part} {f : FaultRecord} {faulty : Bool} {line : LineController} (h : p.FaultShown t f faulty line) {a : Nat}
    {u : FieldUnit} (ha : 1 ≤ a ∧ a ≤ 30) (hu : p.unitAt a = some u) : t.unitSlot a =
      { version := if unitBody (some u) = unitBody (some (u.lineJudged faulty p.run.clock)) then (p.unitSlot a).version else (p.unitSlot a).version + 2
        place := some (u.lineJudged faulty p.run.clock) } := by
  have hslot := h.shown.slot a
  have hplace : (p.faultTaken f faulty line).linePlace faulty a = some (u.lineJudged faulty p.run.clock) := by
    show Option.map _ (p.unitAt a) = _
    rw [hu]
    rfl
  rw [if_pos (mem_unitAddresses.mpr ha), hplace, show (p.faultTaken f faulty line).unitAt a = some u from hu] at hslot
  exact hslot

/-- R52, R40: the mirror of one unit, as the report of a line fault rewrites it. -/
theorem Part.FaultShown.mirror {s : State} {t : Part} {f : FaultRecord} {faulty : Bool} {line : LineController} (h : s.part.FaultShown t f faulty line)
    {a : Nat} {u : FieldUnit} (ha : 1 ≤ a ∧ a ≤ 30) (hu : s.part.unitAt a = some u) :
    (s.unitMirror a (some (u.lineJudged faulty s.part.run.clock))).Sublist (t.port.ofBlock .unitManager) := by
  have hsingle := h.shown.single (mem_unitAddresses.mpr ha)
  have hwrites : (s.part.faultTaken f faulty line).lineWrites faulty a = s.unitMirror a (some (u.lineJudged faulty s.part.run.clock)) := by
    refine Part.unitWrites_same (p := s.part.faultTaken f faulty line) rfl rfl rfl ?_
    show unitBody (Option.map _ (s.part.unitAt a)) = _
    rw [hu]
    rfl
  rwa [hwrites] at hsingle

/-- R52, R40: the bank bit of a unit that the report changes. -/
theorem Part.FaultShown.handed {p t : Part} {f : FaultRecord} {faulty : Bool} {line : LineController} (h : p.FaultShown t f faulty line) {a : Nat}
    {u : FieldUnit} (ha : 1 ≤ a ∧ a ≤ 30) (hu : p.unitAt a = some u)
    (hbit : unitBitChange (some u) (some (u.lineJudged faulty p.run.clock)) = true) : p.BitOn t .unitManager .unit a := by
  refine (h.shown.bit a (mem_unitAddresses.mpr ha) ?_).after ((p.takeFault_serves f).toWorks.trans (p.faultTaken_works f faulty line))
  rw [show (p.faultTaken f faulty line).unitAt a = some u from hu]
  show unitBitChange _ (Option.map _ (p.unitAt a)) = _
  rw [hu]
  exact hbit

theorem unitBitChange_same {u v : FieldUnit} (h : unitBitChange (some u) (some v) = false) : u.link = v.link ∧ u.gate = v.gate ∧ u.factors = v.factors := by
  unfold unitBitChange at h
  simp only [Bool.or_eq_false_iff, bne_eq_false_iff_eq] at h
  exact ⟨h.1.1.1.1, h.1.1.1.2, h.1.1.2⟩

/-- Settles O45: the fault's record, the report to the units, the settlement and the count of the turn. -/
theorem readbackMismatchInterruptsTheTurn : Obligations.ReadbackMismatchInterruptsTheTurn := by
  unfold Obligations.ReadbackMismatchInterruptsTheTurn
  intro s x good byte low hturn hphase hgood hworking hs hroom
  have hw := hroom.1
  have hport : s.PortFree := ⟨hw, hroom.2.1⟩
  obtain ⟨hlater, hfinishes, -⟩ := hs hw
  refine ⟨fun h hlow => exec_readback_same hport hturn hphase hgood h hlow, fun h => ?_⟩
  have hexec := exec_readback hport hturn hphase hgood h
  have hB : s.part.FaultShown (s.part.readbackFault x good) (lineFaultRecord causeReadback x.unit x.kind.frameCode good) true
      (s.part.line.faulted s.part.run.clock) := by
    unfold Part.readbackFault
    rw [Part.beginFault_eq hw]
    exact s.part.reportLineFault_faultShown _ _ _
  have hstate : (s.onPart fun p => (p.readbackFault x good).endTurn x.interrupt) = { s with part := (s.part.readbackFault x good).endTurn x.interrupt } := rfl
  rw [hstate] at hexec
  generalize s.part.readbackFault x good = B at *
  have hreach : s.Reaches B.freeLine := ⟨hB.works.trans B.freeLine_works, hB.te, hB.board, hB.dismissWait⟩
  have hleaves := Part.turnSettled_interrupted (x := x.interrupt) rfl B
  have htold := Part.unitTurnEnd_report x.unit x.kind .interrupted (B.turnSettled x.interrupt)
  have hend : B.endTurn x.interrupt = (B.turnSettled x.interrupt).unitTurnEnd x.unit x.kind .interrupted := by
    rw [B.endTurn_eq, x.interrupt_outcome]
    rfl
  rw [← hend] at htold
  have hcalm : B.freeLine.Calm (B.endTurn x.interrupt) := hleaves.calm.trans htold.calm
  have hserves : B.freeLine.Serves (B.endTurn x.interrupt) := hleaves.serves.trans htold.serves
  let t : State := { s with part := B.endTurn x.interrupt }
  have hrun : t.part.run = { s.part.run with lineFault := true } := hcalm.run.trans hB.run
  have hBwaits : ∀ n, B.freeLine.Waits n → s.part.Waits n := fun n hn => by
    unfold Part.Waits at hn ⊢
    rwa [hreach.te, hreach.board] at hn
  have hres : ∀ r : State, s.ResolvedOrNot t r → t.Resolves r := fun r hr =>
    hr.resolves (hcalm.later.trans (hB.later.trans hlater)) fun n hn => hBwaits n (hcalm.waits n hn)
  have hsteady : s.Steady → t.onPart Part.settle = t.onPart Part.resolve := fun h => by
    unfold State.onPart
    rw [Part.settle_eq_resolve (by rw [hrun]; exact h.2.2.imp_right And.right)]
  have hslots : ∀ r : State, s.ResolvedOrNot t r → ∀ b, r.part.unitSlot b = (B.endTurn x.interrupt).unitSlot b := fun r hr b =>
    Part.unitSlot_of_um (hres r hr).releases.um b
  have hothers : ∀ r : State, s.ResolvedOrNot t r → ∀ b, b ≠ x.unit → r.part.unitSlot b = B.unitSlot b := fun r hr b hb =>
    (hslots r hr b).trans ((htold.others b hb).trans (hleaves.slots b))
  have hBr : ∀ r : State, s.ResolvedOrNot t r → B.Works r.part := fun r hr => (B.freeLine_works.trans hserves.toWorks).trans (hres r hr).works
  have hended : B.freeLine.run.drainEnded = s.part.run.drainEnded := by
    show B.run.drainEnded = _
    rw [hB.run]
  have hcommand : ∀ (seq : Nat) (y : Transaction) (u : FieldUnit) (late : Bool), s.part.findTxn seq = some y → s.part.unitAt y.unit = some u →
      1 ≤ y.unit ∧ y.unit ≤ 30 → (late = true ↔ ∃ d, y.deadline = some d ∧ reached s.part.run.clock d = true) →
      B.freeLine.unitAt y.unit = some (u.lineJudged true s.part.run.clock) ∧ B.freeLine.findTxn seq = some y ∧ y.late B.freeLine.run.clock = late :=
    fun seq y u late hy hu ha hlate => by
      refine ⟨hB.unit ha hu, ?_, ?_⟩
      · unfold Part.findTxn
        rw [hreach.te]
        exact hy
      · rw [hreach.works.clock]
        exact Bool.eq_iff_iff.mpr ((y.late_iff _).trans hlate.symm)
  refine ⟨t, hexec, hsteady, rfl, rfl, fun seq y u late hk hy hu ha hlate => ⟨fun hl h1 h2 h3 => ?pending, fun o ho => ?settled⟩, fun hk => ?other,
    fun r hr => ⟨?line, ?run, ?record, fun u ha hu hl => ?staying, ?shows, fun a u ha hne hu => ?units, fun hk => ?te, fun u ha hu hl => ?departing⟩⟩
  case pending =>
    obtain ⟨huB, hyB, hlate'⟩ := hcommand seq y u late hy hu ha hlate
    have he : B.freeLine.settlement y (u.lineJudged true s.part.run.clock) .interrupted = .again false :=
      Part.settlement_unsettled (by rw [(u.lineJudged_same true s.part.run.clock).1]; exact hl) (.inr (.inr (.inr rfl))) h1 (hlate'.trans h2)
        (hended.trans h3)
    have hQ : B.turnSettled x.interrupt = B.freeLine.mapTxn seq (Transaction.again false) := by
      rw [Part.turnSettled_command (x := x.interrupt) hk]
      exact Part.settleCommand_again hyB huB he
    rw [hQ] at htold
    obtain ⟨hfinished, hrequests⟩ := State.Finished.of_told (s := s) (t := t) (q := B.freeLine.mapTxn seq (Transaction.again false)) hreach.board
      hreach.dismissWait hfinishes htold
    refine ⟨hfinished, fun r hr => ((hres r hr).requests hrequests).1.trans (htold.te.trans ?_)⟩
    show ({ B.freeLine.te with pool := B.freeLine.te.pool.map _ } : TransactionEngine) = _
    rw [hreach.te]
    rfl
  case settled =>
    obtain ⟨huB, hyB, hlate'⟩ := hcommand seq y u late hy hu ha hlate
    obtain rfl := Part.findTxn_seq hy
    have hsame := (u.lineJudged_same true s.part.run.clock).1
    obtain ⟨⟨e, he, hse⟩, hok, hrefused⟩ := Part.settlement_interrupted (p := B.freeLine) (y := y) (u := u.lineJudged true s.part.run.clock) (o := o)
      (by
        unfold Transaction.InterruptedWith
        rw [hsame, hlate', hended]
        exact ho)
    rw [Part.turnSettled_command (x := x.interrupt) hk] at htold
    have hturnS := (Part.settleCommand_finish (p := B.freeLine) hyB huB he).turnSettled htold
    have hrow := hreach.commandRow (t := t) hfinishes hturnS hserves.toWorks
    have hresult := Transaction.result_congr (e := e) (e' := { outcome := o }) hse.outcome hse.payload hse.reason y
    have hfinished := hrow.finished
    have hsuccess : (o == .ok) = false := beq_eq_false_iff_ne.mpr hok
    rw [hse.outcome, hsuccess] at hfinished
    refine ⟨hrow.syncs, hfinished, fun r hr => ⟨hrow.pool r (hres r hr), fun hsome => ?_, fun hnone hown => ?_, hrow.targets r (hres r hr),
      fun w hwm ht hne _ => ?_⟩⟩
    · rw [← hresult]
      exact hrow.completes r (hres r hr) hsome
    · have hlogs := hreach.fails hturnS (hres r hr).works hnone (by rw [hse.outcome]; exact hok) (hse.own hok (.inl hown))
        (hreach.works.port.engine (WindowPort.not_waits hw _))
      unfold Transaction.lateFailure at hlogs
      rw [hse.outcome, hse.payload, if_neg hrefused] at hlogs
      exact hlogs
    · have haborted := hrow.aborted r (hres r hr) w hwm ht hne
      rw [abortResult_settled, hse.outcome, if_neg (fun h => h.elim hok hrefused)] at haborted
      exact haborted
  case other =>
    rw [Part.turnSettled_other (x := x.interrupt) hk] at htold
    exact (State.Finished.of_told (s := s) (t := t) (q := B.freeLine) hreach.board hreach.dismissWait hfinishes htold).1
  case line =>
    refine (hres r hr).releases.line.trans (hcalm.line.trans ?_)
    unfold Part.freeLine
    rw [hB.line, hB.works.clock]
    rfl
  case run => exact (hres r hr).releases.run.trans hrun
  case record => exact hB.written (hBr r hr) hroom
  case staying =>
    have huB := hB.unit ha hu
    have hslotB := hB.slot ha hu
    have hmirror := hB.mirror ha hu
    have hfirstBit := hB.handed ha hu
    have hline := u.lineJudged_line hl true s.part.run.clock
    have hlJ : (u.lineJudged true s.part.run.clock).link = u.link := (u.lineJudged_same true s.part.run.clock).1
    have hcounts := FieldUnit.judgeGate_counts s.part.run.clock { u with factors := { u.factors with line := true } }
    rw [← u.lineJudged_present hl]
    rw [← u.lineJudged_present hl] at hcounts
    generalize u.lineJudged true s.part.run.clock = j at *
    have hturnE := (hleaves.settles (a := x.unit) (u := j) huB).turnEnds ha huB (by rw [hlJ]; exact hl) x.kind .interrupted
    rw [← hend, hreach.works.clock] at hturnE
    have hcounted := j.takeTurn_interrupted x.kind s.part.run.clock
    have hbit := j.takeTurn_bit x.kind .interrupted s.part.run.clock
    generalize j.takeTurn x.kind .interrupted s.part.run.clock = v at *
    obtain ⟨c1, c2, c3, c4, c5, c6, c7⟩ := hcounts
    obtain ⟨e1, e2, e3, e4, e5, e6, e7, e8, e9⟩ := hcounted
    have hrslot := hslots r hr x.unit
    rw [hturnE.slot, show B.freeLine.unitSlot x.unit = B.unitSlot x.unit from rfl, hslotB, v.reserveMore_nil] at hrslot
    refine ⟨v, congrArg UnitSlot.place hrslot, rfl, e1.trans hlJ, (congrArg Factors.line e2).trans hline, e3.trans (congrArg (· + 1) c1), e4.trans c2,
      e5.trans c3, e6.trans c4, e7.trans c5, e8.trans c6, e9.trans c7, fun first version hfirst hversion => ?writes, fun hchange => ?handed⟩
    case writes =>
      have hshown : (if unitBody (some u) = unitBody (some j) then (s.part.unitSlot x.unit).version else (s.part.unitSlot x.unit).version + 2) = version := by
        have hiff : first = [] ↔ unitBody (some u) = unitBody (some j) := by
          rw [hfirst, State.unitMirror_eq_nil_iff, hu]
        rw [hversion]
        by_cases hb : unitBody (some u) = unitBody (some j)
        · rw [if_pos hb, if_pos (hiff.mpr hb)]
          exact (BitVec.add_zero _).symm
        · rw [if_neg hb, if_neg fun h => hb (hiff.mp h)]
      rw [hshown] at hrslot hslotB
      have hsecond := hturnE.writes
      rw [hreach.works.base, show B.freeLine.unitSlot x.unit = B.unitSlot x.unit from rfl, hslotB] at hsecond
      refine ⟨by rw [hrslot], ?_⟩
      rw [hfirst]
      exact (hmirror.append (List.Sublist.refl _)).trans (hsecond.trans ((WindowPort.ofBlock_outstanding _ _).trans (hres r hr).works.port.outstanding))
    case handed =>
      cases hb : unitBitChange (some u) (some j) with
      | true => exact State.handsBit_of ((hfirstBit hb).works (hBr r hr))
      | false =>
        obtain ⟨s1, s2, s3⟩ := unitBitChange_same hb
        rw [s1, s2, s3] at hchange
        have hchanged : unitBitChange (some j) (some v) = true := by
          rw [hbit, Bool.not_eq_true', decide_eq_false_iff_not]
          exact fun ⟨q1, q2, q3⟩ => hchange.elim (· q1) (Or.elim · (· q2) (· q3))
        exact State.handsBit_of (((hturnE.bit (by rw [show B.freeLine.unitAt x.unit = some j from huB]; exact hchanged)).works (hres r hr).works).after hreach.works)
  case shows =>
    refine hB.showsLine (hBr r hr) (fun b hb => hothers r hr b fun e => hb (e ▸ rfl)) fun b hb hu => ?_
    obtain rfl := Option.some.inj hb
    have hBslot : B.unitSlot x.unit = s.part.unitSlot x.unit :=
      (hB.showsLine (r := { s with part := B }) (but := none) (.refl _) (fun _ _ => rfl) (fun _ h => absurd h (by simp))).2.1 x.unit hu
    have hQnone : (B.turnSettled x.interrupt).unitAt x.unit = none := by
      unfold Part.unitAt
      rw [hleaves.slots, show B.freeLine.unitSlot x.unit = _ from hBslot]
      exact hu
    rw [hslots r hr, hend]
    unfold Part.unitTurnEnd
    rw [hQnone]
    exact (hleaves.slots x.unit).trans hBslot
  case units =>
    rw [show r.part.unitAt a = B.unitAt a from congrArg UnitSlot.place (hothers r hr a hne)]
    exact hB.unit ha hu
  case te =>
    rw [Part.turnSettled_other (x := x.interrupt) hk] at htold
    have hrequests := (State.Finished.of_told (s := s) (t := t) (q := B.freeLine) hreach.board hreach.dismissWait hfinishes htold).2
    exact ((hres r hr).requests hrequests).1.trans (htold.te.trans hreach.te)
  case departing =>
    have hsame := u.lineJudged_departing hl true s.part.run.clock
    have huB : B.freeLine.unitAt x.unit = some u := by
      have h := hB.unit ha hu
      rw [hsame] at h
      exact h
    have hslotB := hB.slot ha hu
    rw [hsame, if_pos rfl] at hslotB
    have huQ : (B.turnSettled x.interrupt).unitAt x.unit = some u := by
      unfold Part.unitAt
      rw [hleaves.slots]
      exact huB
    have hgone := Part.removeUnit_removed ha huQ hl
    rw [← Part.unitTurnEnd_departing huQ hl x.kind .interrupted, ← hend] at hgone
    have hversion : ((B.turnSettled x.interrupt).unitSlot x.unit).version = (s.part.unitSlot x.unit).version := by
      rw [hleaves.slots, show B.freeLine.unitSlot x.unit = B.unitSlot x.unit from rfl, hslotB]
    have hrslot := (hslots r hr x.unit).trans hgone.slot
    have hworksQ := hreach.works.trans hleaves.serves.toWorks
    have hshows := hgone.shows
    rw [hworksQ.base, hversion] at hshows
    have hwrites := (List.sublist_append_right _ _).trans (hshows.trans ((WindowPort.ofBlock_outstanding _ _).trans (hres r hr).works.port.outstanding))
    refine ⟨?_, ⟨?_, hwrites⟩, State.handsBit_of ((hgone.bit.works (hres r hr).works).after hworksQ), fun d ended hd hda hcases => ?waited⟩
    · unfold Part.unitAt
      rw [hrslot]
    · rw [hrslot, hversion]
    case waited =>
      obtain ⟨d', hd', hseq', hunit', hresult', hheldd⟩ : ∃ d', (B.turnSettled x.interrupt).um.dismissWait = some d' ∧ d'.seq = d.seq ∧ d'.unit = x.unit ∧
          d'.result = { outcome := .ok, fields := [byteOf d.retired, byteOf ended] } ∧
          (B.turnSettled x.interrupt).heldOf d.seq = s.part.heldOf d.seq := by
        have hheldB : B.freeLine.heldOf d.seq = s.part.heldOf d.seq := by
          unfold Part.heldOf
          rw [hreach.board]
        rcases hcases with ⟨hk, rfl⟩ | ⟨⟨seq, y, hk, hy, hyu, hne⟩, hna, -, rfl⟩
        · rw [Part.turnSettled_other (x := x.interrupt) hk]
          exact ⟨d, hreach.dismissWait.trans hd, rfl, hda, rfl, hheldB⟩
        · obtain rfl := Part.findTxn_seq hy
          have hyB : B.freeLine.findTxn y.seq = some y := by
            unfold Part.findTxn
            rw [hreach.te]
            exact hy
          have hends := Part.settleCommand_finish (p := B.freeLine) (a := .interrupted) hyB (by rw [hyu]; exact huB) (Part.settlement_departing hl _)
          rw [Part.turnSettled_command (x := x.interrupt) hk]
          refine ⟨{ d with ended := d.ended + 1 }, hends.dismissWait.trans ?_, rfl, hda, rfl, (hends.heldOf d.seq hne fun ⟨w, hw', _, hs'⟩ => ?_).trans hheldB⟩
          · unfold Part.countedWait
            rw [if_pos rfl, hreach.dismissWait, hd]
            exact congrArg some (if_pos (hda.trans hyu.symm))
          · rw [hreach.te] at hw'
            exact absurd hs' (hna w hw')
      obtain ⟨hwait, hshown⟩ := hgone.dismissed d' hd' hunit'
      rw [hseq', hresult'] at hshown
      have hcompletes : (∀ h, (B.turnSettled x.interrupt).heldOf d.seq = some h → (B.turnSettled x.interrupt).Shows (B.endTurn x.interrupt) (h.completion
          { outcome := .ok, fields := [byteOf d.retired, byteOf ended] } (B.turnSettled x.interrupt).run.clock)) →
          s.Completes r d.seq { outcome := .ok, fields := [byteOf d.retired, byteOf ended] } := fun hshow =>
        Part.Shows.completes (p := B.freeLine) (q := B.endTurn x.interrupt) (hserves.toWorks.trans (hres r hr).works) (congrArg _ hreach.board)
          hreach.works.base hreach.works.clock (hres r hr).works fun h hh => by
            have hc := (hshow h (hheldd.trans hh)).before hleaves.serves.toWorks
            rw [hleaves.serves.toWorks.clock] at hc
            exact hc
      refine ⟨?_, ?_⟩
      · rw [show r.part.um = (B.endTurn x.interrupt).um from (hres r hr).releases.um]
        exact hwait
      · rcases hshown with hshow | ⟨hwaits, hheld⟩
        · exact .inl (hcompletes hshow)
        · have hself : r.part = B.endTurn x.interrupt := by
            rcases hr with rfl | ⟨-, rfl⟩
            · rfl
            · obtain ⟨w, hw', -⟩ := hwaits
              exact Part.resolve_waiting (p := B.endTurn x.interrupt) (List.ne_nil_of_mem hw')
          rw [State.CompletesOrWaits, hself]
          exact .inr ⟨hwaits, hheld.trans hheldd⟩

end Sys2Proof.Machine
end

section
/-! SUPPORT. The open page whose flush timer expires (R146, R157, R158). -/

namespace Sys2Proof.Machine

/-- R157: the requests that end with the open page, each with its result. -/
def pageResults (g : Page) (o : OpenPage) (rest : List Page) : List (Nat × Result) := (g.seq, o.lendResult .ok) :: withdrawnResults rest

/-- R157, R174: the open page completes, or its head write waits for room. -/
theorem Part.completePage_cases {p : Part} {g : Page} {rest : List Page} {o : OpenPage} (hp : p.jw.pages = g :: rest) (ho : p.jw.opened = some o)
    (hw : p.port.waiting = []) :
    (p.port.writesQueued < Config.writeQueueSize ∧ p.completePage .ok = Part.completeEach (pageResults g o rest)
      { p with jw := p.jw.passed rest, port := p.port.with [.write g.addr.toNat o.head .silent] }) ∨
    (Config.writeQueueSize ≤ p.port.writesQueued ∧ ∃ l, p.completePage .ok = { p with jw := p.jw.passed rest, port := p.port.park .journalWriter l }) := by
  by_cases hroom : p.port.writesQueued < Config.writeQueueSize
  · exact .inl ⟨hroom, Part.completePage_eq hp ho hw hroom .ok⟩
  · refine .inr ⟨by omega, ?_⟩
    have hopen : p.jw.completeOpen .ok = (p.jw.passed rest, g.headWrite o :: (pageResults g o rest).map fun x => .hand (.complete x.1 x.2)) := by
      unfold JournalWriter.completeOpen
      rw [hp, ho]
      dsimp only
      rw [JournalWriter.passOn_eq]
      rfl
    unfold Part.completePage
    dsimp only
    rw [hopen, Part.raise_free (by exact hw)]
    show ∃ l, (if p.port.hasRoom (.write g.addr.toNat o.head .silent) = true then _ else _ : Part) = _
    rw [if_neg (by simpa [WindowPort.hasRoom, Access.isRead] using hroom)]
    exact ⟨_, rfl⟩

theorem Part.Releases.eq_of_te {p q : Part} (h : p.Releases q) (ht : q.te = p.te) : q = { p with board := q.board, port := q.port } := by
  rw [← h.run, ← h.svc, ← h.line, ← h.um, ← h.dir, ← h.jw, ← ht]

/-- R157: what the completion of the open page leaves of the other blocks, and that no transaction ends with it. -/
theorem Part.completePage_leaves {p : Part} {g : Page} {rest : List Page} {o : OpenPage} (hp : p.jw.pages = g :: rest) (ho : p.jw.opened = some o)
    (hw : p.port.waiting = []) :
    p.completePage .ok = { p with jw := p.jw.passed rest, board := (p.completePage .ok).board, port := (p.completePage .ok).port } ∧
    ∀ f ∈ (p.completePage .ok).board.finishes, f ∈ p.board.finishes ∨ f.transaction = false := by
  rcases Part.completePage_cases hp ho hw with ⟨-, h⟩ | ⟨-, l, h⟩
  · rw [h]
    let P : Part := { p with jw := p.jw.passed rest, port := p.port.with [.write g.addr.toNat o.head .silent] }
    have hrel := P.completeEach_releases (pageResults g o rest)
    have hte := P.completeEach_te (pageResults g o rest)
    refine ⟨?_, fun f hf => Part.completeEach_finishes (p := P) hf⟩
    exact hrel.eq_of_te hte
  · rw [h]
    exact ⟨rfl, fun f hf => .inl hf⟩

theorem exec_flushTimerExpiry {s : State} {g : Page} {rest : List Page} {o : OpenPage} {start : Word} (hport : s.PortFree) (hworking : s.Working)
    (hp : s.part.jw.pages = g :: rest) (ho : s.part.jw.opened = some o) (hf : o.flushTimer = some start)
    (hdue : reached s.part.run.clock (start + wordOf (10 * g.flushAge)) = true) :
    exec .flushTimerExpiry s = .next ((s.onPart (Part.completePage .ok)).onPart Part.settle) := by
  have hexpired : s.part.flushExpired = true := by
    unfold Part.flushExpired
    rw [hp, ho]
    dsimp only
    unfold Page.flushDue
    rw [hf]
    exact hdue
  show Host.Outcome.next (s.onBlocks _) = _
  rw [State.onBlocks_eq (s.free_of_portFree hport)]
  unfold State.onPart
  dsimp only
  rw [if_pos (by rw [State.working_of hworking, hexpired]; rfl)]

/-- R157: the finishes of the page and of the withdrawn pages behind it. -/
theorem State.pageFinishes_eq (s : State) (g : Page) (o : OpenPage) {rest withdrawn : List Page} (h : rest.takeWhile (·.withdrawn) = withdrawn) :
    s.part.requestFinishes (pageResults g o rest) = s.pageFinishes g withdrawn := by
  unfold Part.requestFinishes State.pageFinishes pageResults withdrawnResults
  have hmap : ((g, true) :: withdrawn.map fun x => (x, false)).filterMap
      (fun c : Page × Bool => (s.part.heldOf c.1.seq).map fun _ => (⟨c.1.seq, c.2, false⟩ : Finish)) =
      ((g.seq, o.lendResult .ok) :: withdrawn.map fun x => (x.seq, ({ outcome := .aborted } : Result))).filterMap
        fun x => (s.part.heldOf x.1).map fun _ => ⟨x.1, x.2.outcome.success, false⟩ := by
    rw [List.filterMap_cons, List.filterMap_cons, List.filterMap_map, List.filterMap_map]
    rfl
  rw [h, hmap]

/-- Settles O59: the head write first, then the page's LEND and the withdrawn pages behind it. -/
theorem flushTimerCompletesThePage : Obligations.FlushTimerCompletesThePage := by
  unfold Obligations.FlushTimerCompletesThePage
  intro s g rest o start hworking hs hD hw hp ho hf hdue
  obtain ⟨hlater, hfinishes, hdrain⟩ := hs hw
  have hport : s.PortFree := ⟨hw, hlater⟩
  let t : State := s.onPart (Part.completePage .ok)
  have hexec := exec_flushTimerExpiry hport hworking hp ho hf hdue
  have hcalm := s.part.completePage_calm .ok
  have hworks := (s.part.completePage_serves .ok).toWorks
  obtain ⟨heq, hrequest⟩ := Part.completePage_leaves hp ho hw
  have hrequests : ∀ f ∈ t.part.board.finishes, f.transaction = false := fun f hf =>
    (hrequest f hf).resolve_left (by rw [hfinishes]; exact List.not_mem_nil)
  have hcases := Part.completePage_cases hp ho hw
  have hres : ∀ r : State, s.ResolvedOrNot t r → t.Resolves r := fun r hr => hr.resolves (hcalm.later.trans hlater) fun n hn => hcalm.waits n hn
  have hte : t.part.te = s.part.te := by
    have h := congrArg Part.te heq
    exact h
  have hum : t.part.um = s.part.um := by
    have h := congrArg Part.um heq
    exact h
  have hresolved : s.NoneWaits → t.Resolves (t.onPart Part.resolve) := fun h => hres _ (.inr ⟨h, rfl⟩)
  refine ⟨t, hexec, fun h => ?settle, fun h => (Part.resolve_finishes _ h).2, fun hn hroom => ?clean, fun hfull => ?full, fun withdrawn more hrest hall hfirst hroom => ?ends,
    fun r hr => ⟨?frame, fun hroom => ?room, fun hrest => ?last⟩⟩
  case settle =>
    rcases h with hn | hsteady
    · have hr := hresolved hn
      have hrte : t.part.resolve.te = s.part.te := (hr.requests hrequests).1.trans hte
      have hrum : t.part.resolve.um = s.part.um := hr.releases.um.trans hum
      have hrrun : t.part.resolve.run = s.part.run := hr.releases.run.trans hcalm.run
      unfold State.onPart Part.settle Part.closeDrain
      rw [if_neg]
      intro ⟨h1, h2, h3, _⟩
      unfold Part.drainDone at h3
      rw [hrrun] at h1 h2
      rw [hrte, hrum] at h3
      exact hdrain ⟨h1, h2, h3⟩
    · exact hsteady.settle_eq hcalm.run
  case clean =>
    rcases hcases with ⟨-, h⟩ | ⟨hfull, -⟩
    · have hroomy : ({ s.part with jw := s.part.jw.passed rest, port := s.part.port.with [.write g.addr.toNat o.head .silent] } : Part).Roomy := by
        refine ⟨hw, fun _ => ?_⟩
        have hq := (WindowPort.with_queued (l := [.write g.addr.toNat o.head .silent]) (by simp [Access.isRead]) s.part.port).1
        show (s.part.port.with _).writesQueued + 2 ≤ _
        rw [hq]
        exact hroom.2.2.1
      have htroomy : t.part.Roomy := by
        show (s.part.completePage .ok).Roomy
        rw [h]
        exact (Part.completeEach_releases _ _).roomy hroomy
      exact (Part.resolve_finishes _ ((hresolved hn).releases.roomy htroomy).1).2
    · have := hroom.2.2.1
      omega
  case full =>
    rcases hcases with ⟨hroom, -⟩ | ⟨-, l, h⟩
    · omega
    · have hboard : t.part.board = s.part.board := by
        show (s.part.completePage .ok).board = _
        rw [h]
      refine ⟨by rw [hboard, hfinishes], by rw [hboard], by rw [hboard], by rw [hboard], by rw [hboard], fun n _ => ?_⟩
      unfold Part.heldOf
      rw [hboard]
  case ends =>
    have htake := (List.takeWhile_dropWhile_of_append (f := Page.withdrawn) hall hfirst).1
    rw [← hrest] at htake
    rcases hcases with ⟨-, h⟩ | ⟨hfull, -⟩
    · have hnodup := withdrawnResults_nodup (g := g) (rest := rest) (by rw [← hp]; exact hD.2.1) (o.lendResult .ok)
      let P : Part := { s.part with jw := s.part.jw.passed rest, port := s.part.port.with [.write g.addr.toNat o.head .silent] }
      have hpart : t.part = P.completeEach (pageResults g o rest) := h
      have hfin := Part.completeEach_finishes_eq (l := pageResults g o rest) hnodup P
      have hpage : P.requestFinishes (pageResults g o rest) = s.pageFinishes g withdrawn := s.pageFinishes_eq g o htake
      rw [hpage, show P.board.finishes = [] from hfinishes, List.nil_append, ← hpart] at hfin
      have hboard := P.completeEach_board (pageResults g o rest)
      rw [← hpart] at hboard
      have hheld := (P.completeEach_releases (pageResults g o rest)).held
      rw [← hpart] at hheld
      refine ⟨hfin, by rw [hboard], by rw [hboard], by rw [hboard], hheld, fun n hn => ?_⟩
      rw [hpart]
      refine Part.heldOf_completeEach_kept (p := P) fun ⟨x, hx, e⟩ => ?_
      cases hh : P.heldOf n with
      | none => rfl
      | some y =>
        rw [← hpage] at hn
        exact absurd rfl (hn ⟨n, x.2.outcome.success, false⟩ (List.mem_filterMap.mpr ⟨x, hx, by rw [e, hh]; rfl⟩))
    · have := hroom.2.2.1
      omega
  case frame =>
    have hrte : r.part.te = t.part.te := ((hres r hr).requests hrequests).1
    have hpart : r.part = { t.part with board := r.part.board, port := r.part.port } := (hres r hr).releases.eq_of_te hrte
    have hall : r.part = { s.part with jw := r.part.jw, board := r.part.board, port := r.part.port } := by
      rw [(hres r hr).releases.jw]
      refine hpart.trans ?_
      rw [show t.part = { s.part with jw := s.part.jw.passed rest, board := t.part.board, port := t.part.port } from heq]
    have hpending : r.pending = s.pending := (hres r hr).pending
    have hmem : r.mem = s.mem := (hres r hr).mem
    rw [← hall, ← hpending, ← hmem]
  case room =>
    rcases hcases with ⟨-, h⟩ | ⟨hfull, -⟩
    · let P : Part := { s.part with jw := s.part.jw.passed rest, port := s.part.port.with [.write g.addr.toNat o.head .silent] }
      have hpart : t.part = P.completeEach (pageResults g o rest) := h
      have hnodup := withdrawnResults_nodup (g := g) (rest := rest) (by rw [← hp]; exact hD.2.1) (o.lendResult .ok)
      have hPr : P.Works r.part := (P.completeEach_works (pageResults g o rest)).trans (hpart ▸ (hres r hr).works)
      have hcompletes : ∀ x ∈ pageResults g o rest, s.Completes r x.1 x.2 := fun x hx =>
        Part.Shows.completes (p := P) (q := t.part) hPr rfl rfl rfl (hres r hr).works fun y hy => by
          rw [hpart]
          exact Part.completeEach_shows (p := P) hnodup hx hy
      have hjw : r.part.jw = s.part.jw.passed rest := (hres r hr).releases.jw.trans (by have h := congrArg Part.jw heq; exact h)
      exact ⟨.of_passed hjw fun x hx => hcompletes x (List.mem_cons_of_mem _ hx), hPr.port.fifo, hcompletes _ List.mem_cons_self⟩
    · have := hroom.2.2.1
      omega
  case last =>
    rw [(hres r hr).releases.jw]
    have hjw : t.part.jw = s.part.jw.passed rest := by
      have h := congrArg Part.jw heq
      exact h
    rw [hjw, hrest]
    rfl

end Sys2Proof.Machine
end

section
/-! SUPPORT. No request but SYNC brings a SYNC to wait (R100): what each block makes of a request that is handed to it leaves the waiting SYNCs, or fewer. -/

namespace Sys2Proof.Machine

/-- From `p` to `q` SYNCs have ended, and the others are as they were. -/
def Part.DropsSyncs (p q : Part) : Prop := q.te.syncs.Sublist p.te.syncs

theorem Part.DropsSyncs.of_te {p q : Part} (h : q.te = p.te) : p.DropsSyncs q := by
  rw [Part.DropsSyncs, h]

theorem Part.DropsSyncs.trans {p q r : Part} (h : p.DropsSyncs q) (h' : q.DropsSyncs r) : p.DropsSyncs r := List.Sublist.trans h' h

theorem Part.DropsSyncs.refl (p : Part) : p.DropsSyncs p := List.Sublist.refl _

theorem Part.DropsSyncs.foldl {α : Type} {f : Part → α → Part} (h : ∀ (p : Part) (x : α), p.DropsSyncs (f p x)) (l : List α) (p : Part) :
    p.DropsSyncs (l.foldl f p) := by
  induction l generalizing p with
  | nil => exact .refl p
  | cons x rest ih => exact (h p x).trans (ih _)

/-- Where no SYNC had captured a transaction, none has once SYNCs have ended. -/
theorem Part.DropsSyncs.uncounted {p q : Part} (h : p.DropsSyncs q) {f : Finish} (hp : p.Uncounted f) : q.Uncounted f :=
  hp.imp id fun hy y hmem => hy y (h.subset hmem)

/-! ## The blocks' operations -/

theorem Part.completeRequest_dropsSyncs (n : Nat) (r : Result) (p : Part) : p.DropsSyncs (p.completeRequest n r) := .of_te (p.completeRequest_owners n r).2.1

theorem Part.raise_dropsSyncs (b : Block) (l : List Item) (p : Part) : p.DropsSyncs (Part.raise b l p) := .of_te (p.raise_owners b l).2.1

theorem Part.finishRequest_dropsSyncs (b : Block) (n : Nat) (r : Result) (p : Part) : p.DropsSyncs (p.finishRequest b n r) := p.raise_dropsSyncs _ _

theorem Part.putUnit_te (a : Nat) (new : Option FieldUnit) (f : Bool) (p : Part) : (p.putUnit a new f).te = p.te := by
  unfold Part.putUnit
  split
  · exact (Part.raise_owners _ _ _).2.1
  · rfl

theorem Part.putUnit_dropsSyncs (a : Nat) (new : Option FieldUnit) (f : Bool) (p : Part) : p.DropsSyncs (p.putUnit a new f) := .of_te (p.putUnit_te a new f)

theorem Part.updateUnit_dropsSyncs (a : Nat) (f : FieldUnit → FieldUnit) (p : Part) : p.DropsSyncs (p.updateUnit a f) := .of_te (p.updateUnit_te a f)

theorem Part.putEntry_dropsSyncs (n : Nat) (new : Option Entry) (f : Bool) (p : Part) : p.DropsSyncs (p.putEntry n new f) := by
  unfold Part.putEntry
  split
  · exact .of_te (Part.raise_owners _ _ _).2.1
  · exact .refl p

theorem Part.retireEntry_dropsSyncs (n : Nat) (p : Part) : p.DropsSyncs (p.retireEntry n) := by
  unfold Part.retireEntry
  split
  · exact p.putEntry_dropsSyncs _ _ _
  · exact .refl p

theorem Part.retireUnit_dropsSyncs (a : Nat) (p : Part) : p.DropsSyncs (p.retireUnit a) :=
  Part.DropsSyncs.foldl (f := fun q n => q.retireEntry n) (fun q n => q.retireEntry_dropsSyncs n) _ p

theorem Part.clearNumber_dropsSyncs (a b : Bool) (n : Nat) (p : Part) : p.DropsSyncs (p.clearNumber a b n) := by
  unfold Part.clearNumber
  split
  · exact p.putEntry_dropsSyncs _ _ _
  · exact .refl p

theorem Part.onceFree_dropsSyncs {w : Work} {act : Part → Part} {p : Part} (h : p.DropsSyncs (act p)) : p.DropsSyncs (p.onceFree w act) := by
  unfold Part.onceFree
  split
  · exact h
  · exact .refl p

theorem Part.completePage_dropsSyncs (o : ReqOutcome) (p : Part) : p.DropsSyncs (p.completePage o) :=
  Part.DropsSyncs.trans (q := { p with jw := _ }) (.of_te rfl) (Part.raise_dropsSyncs _ _ _)

theorem Part.withdrawPage_dropsSyncs (n : Nat) (p : Part) : p.DropsSyncs (p.withdrawPage n) := by
  unfold Part.withdrawPage
  split
  · split
    · exact p.completePage_dropsSyncs _
    · exact .of_te rfl
  · exact .refl p

theorem Part.endSync_dropsSyncs (y : SyncRecord) (o : ReqOutcome) (p : Part) : p.DropsSyncs (p.endSync y o) := by
  rw [Part.DropsSyncs, Part.endSync_syncs]
  exact List.filter_sublist

theorem Part.finishTxn_dropsSyncs (t : Transaction) (e : Ending) (p : Part) : p.DropsSyncs (p.finishTxn t e) := by
  let P : Part := { p with te := { p.te with pool := p.te.pool.filter fun x => x.seq != t.seq } }
  have hreserve : P.DropsSyncs (P.reserveToken t e) := by
    unfold Part.reserveToken
    split
    · split
      · exact .refl P
      · exact P.updateUnit_dropsSyncs _ _
    · exact .refl P
  have hreport := (P.reserveToken t e).reportEnding_facts t e
  have hfirst : p.DropsSyncs P := List.Sublist.refl _
  exact (hfirst.trans hreserve).trans (.of_te hreport.te)

theorem Part.finishAll_dropsSyncs (l : List Transaction) (o : ReqOutcome) (p : Part) : p.DropsSyncs (p.finishAll l o) :=
  Part.DropsSyncs.foldl (fun q t => q.finishTxn_dropsSyncs t { outcome := o }) l p

/-! ## The requests -/

theorem Part.dismissUnit_dropsSyncs (n a : Nat) (p : Part) : p.DropsSyncs (p.dismissUnit n a) := by
  have hnotices : p.DropsSyncs ((p.retireUnit a).dismissTransactions a) :=
    (p.retireUnit_dropsSyncs a).trans ((Part.finishAll_dropsSyncs _ _ _).trans (Part.updateUnit_dropsSyncs _ _ _))
  unfold Part.dismissUnit
  dsimp only
  split
  · exact hnotices.trans (.of_te rfl)
  · exact (hnotices.trans (Part.putUnit_dropsSyncs _ _ _ _)).trans (Part.onceFree_dropsSyncs (Part.completeRequest_dropsSyncs _ _ _))

theorem Part.abortItem_dropsSyncs (n : Nat) (target : AbortTarget) (p : Part) : p.DropsSyncs (p.abortItem n target) := by
  cases target with
  | nothing => exact p.completeRequest_dropsSyncs _ _
  | abort => exact p.completeRequest_dropsSyncs _ _
  | sync y => exact (p.endSync_dropsSyncs _ _).trans (Part.completeRequest_dropsSyncs _ _ _)
  | held m => exact (p.completeRequest_dropsSyncs _ _).trans (Part.completeRequest_dropsSyncs _ _ _)
  | dismiss d =>
    exact (Part.completeRequest_dropsSyncs d.seq _ { p with um := { p.um with dismissWait := none } }).trans (Part.completeRequest_dropsSyncs _ _ _)
  | lend m => exact (p.withdrawPage_dropsSyncs _).trans (Part.finishRequest_dropsSyncs _ _ _ _)
  | txn t =>
    unfold Part.abortItem
    dsimp only
    split
    · exact (p.finishTxn_dropsSyncs _ _).trans (Part.completeRequest_dropsSyncs _ _ _)
    · exact (p.finishTxn_dropsSyncs _ _).trans (Part.completeRequest_dropsSyncs _ _ _)
    · exact List.Sublist.refl _

theorem Part.doAbort_dropsSyncs (n : Nat) (r : List Byte) (p : Part) : p.DropsSyncs (p.doAbort n r) := by
  unfold Part.doAbort
  split <;> exact p.abortItem_dropsSyncs _ _

theorem Part.doEnroll_dropsSyncs (n : Nat) (r : List Byte) (p : Part) : p.DropsSyncs (p.doEnroll n r) := by
  unfold Part.doEnroll
  split <;> exact (p.putUnit_dropsSyncs _ _ _).trans (Part.finishRequest_dropsSyncs _ _ _ _)

theorem Part.doHold_dropsSyncs (n : Nat) (r : List Byte) (p : Part) : p.DropsSyncs (p.doHold n r) := by
  unfold Part.doHold
  split
  · exact p.finishRequest_dropsSyncs _ _ _
  · exact (p.putUnit_dropsSyncs _ _ _).trans (Part.finishRequest_dropsSyncs _ _ _ _)

theorem Part.doDeclare_dropsSyncs (n : Nat) (r : List Byte) (p : Part) : p.DropsSyncs (p.doDeclare n r) := by
  unfold Part.doDeclare
  dsimp only
  split
  · split
    · exact (p.putEntry_dropsSyncs _ _ _).trans (Part.finishRequest_dropsSyncs _ _ _ _)
    · exact .refl p
  · split
    · exact (p.putEntry_dropsSyncs _ _ _).trans (Part.finishRequest_dropsSyncs _ _ _ _)
    · exact p.finishRequest_dropsSyncs _ _ _

theorem Part.doRetire_dropsSyncs (n : Nat) (r : List Byte) (p : Part) : p.DropsSyncs (p.doRetire n r) := by
  unfold Part.doRetire
  split
  · exact (p.retireEntry_dropsSyncs _).trans (Part.finishRequest_dropsSyncs _ _ _ _)
  · exact p.finishRequest_dropsSyncs _ _ _

theorem Part.doClear_dropsSyncs (n : Nat) (r : List Byte) (p : Part) : p.DropsSyncs (p.doClear n r) :=
  (Part.DropsSyncs.foldl (fun q m => q.clearNumber_dropsSyncs _ _ m) _ p).trans (Part.finishRequest_dropsSyncs _ _ _ _)

theorem Part.doLend_dropsSyncs (n : Nat) (r : List Byte) (p : Part) : p.DropsSyncs (p.doLend n r) := by
  unfold Part.doLend
  split
  · exact p.raise_dropsSyncs _ _
  · dsimp only
    split <;> exact .of_te rfl

theorem Part.doCut_dropsSyncs (n : Nat) (p : Part) : p.DropsSyncs (p.doCut n) := by
  unfold Part.doCut
  split
  · split
    · exact p.raise_dropsSyncs _ _
    · exact (p.completePage_dropsSyncs _).trans (Part.raise_dropsSyncs _ _ _)
  · exact p.raise_dropsSyncs _ _

/-- R100, R117: what a block makes of a request other than SYNC. -/
theorem Part.handOver_dropsSyncs {k : ReqKind} (ht : k ≠ .transact) (hs : k ≠ .sync) (n slot : Nat) (r : List Byte) (pred : Option Nat) (p : Part) :
    p.DropsSyncs (p.handOver k n slot r pred) := by
  cases k with
  | enroll => exact p.doEnroll_dropsSyncs n r
  | dismiss => exact (p.updateUnit_dropsSyncs _ _).trans (Part.onceFree_dropsSyncs (Part.dismissUnit_dropsSyncs _ _ _))
  | hold => exact p.doHold_dropsSyncs n r
  | declare => exact p.doDeclare_dropsSyncs n r
  | retire => exact p.doRetire_dropsSyncs n r
  | clear => exact p.doClear_dropsSyncs n r
  | transact => exact absurd rfl ht
  | sync => exact absurd rfl hs
  | abort => exact p.doAbort_dropsSyncs n r
  | lend => exact p.doLend_dropsSyncs n r
  | cut => exact p.doCut_dropsSyncs n

end Sys2Proof.Machine
end

section
/-! SUPPORT. The requests that wait on one finished item, each resolved in its turn (R120, R121). -/

namespace Sys2Proof.Machine

/-! ## Take order -/

theorem insertSeq_eq_orderedInsert (n : Nat) (l : List Nat) : insertSeq n l = l.orderedInsert (· ≤ ·) n := by
  induction l with
  | nil => rfl
  | cons m rest ih =>
    rw [insertSeq, List.orderedInsert_cons, ih]

theorem inTakeOrder_eq_insertionSort (l : List Nat) : inTakeOrder l = l.insertionSort (· ≤ ·) := by
  induction l with
  | nil => rfl
  | cons n rest ih =>
    rw [List.insertionSort_cons, ← ih, ← insertSeq_eq_orderedInsert]
    rfl

/-- R121: there is one take order. -/
theorem inTakeOrder_eq {l m : List Nat} (hperm : l.Perm m) (hl : l.Pairwise (· < ·)) : inTakeOrder m = l := by
  rw [inTakeOrder_eq_insertionSort]
  exact ((List.perm_insertionSort _ m).trans hperm.symm).eq_of_pairwise' (List.pairwise_insertionSort _ m) (hl.imp Nat.le_of_lt)

/-! ## Nobody waits any more -/

/-- R118, R120: where nobody waits on what has finished and no SYNC counts it, a resolution releases tags, if no block waits for room. -/
theorem Part.resolve_quiet {p : Part} (hl : p.port.later = []) (h : p.Unwaited) :
    p.resolve = { p with board := { p.board with finishes := p.resolve.board.finishes, registry := p.resolve.board.registry } } := by
  by_cases hw : p.port.waiting = []
  · rw [Part.resolve_unwaited (WindowPort.free_iff.mpr ⟨hw, hl⟩) h]
  · rw [Part.resolve_waiting hw]

theorem Part.resolve_quiet_registry {p : Part} (hl : p.port.later = []) (h : p.Unwaited) : p.resolve.board.registry.Sublist p.board.registry := by
  by_cases hw : p.port.waiting = []
  · rw [Part.resolve_unwaited (WindowPort.free_iff.mpr ⟨hw, hl⟩) h]
    exact List.filter_sublist
  · rw [Part.resolve_waiting hw]

/-- R120: the part whose Board Controller has taken up the finish of `n`, with `more` finishes behind it, and released its tag. -/
def Part.releasing (n : Nat) (more : List Finish) (p : Part) : Part :=
  { p with board := { p.board with finishes := more, registry := p.board.registry.filter fun e => e.2 != n } }

theorem Part.resolve_releasing {p : Part} {f : Finish} {more : List Finish} {l : List Nat} (hw : p.port.waiting = []) (hl : p.port.later = [])
    (hf : p.board.finishes = f :: more) (horder : inTakeOrder (p.waitersOf f.seq) = l) :
    p.resolve = ((p.releasing f.seq more).resolveWaiters f l).resolve := by
  rw [Part.resolve_finish hw hl hf, ← horder]
  rfl

/-- R120, R121: one after another, while none must wait for room. -/
theorem Part.resolveWaiters_foldl {f : Finish} {l : List Nat} {p : Part}
    (h : ∀ i : Nat, ((l.take i).foldl (fun r w => r.resolveWaiter f.seq f.success w) p).port.waiting = []) :
    p.resolveWaiters f l = (l.foldl (fun r w => r.resolveWaiter f.seq f.success w) p).countFinish f := by
  induction l generalizing p with
  | nil => rfl
  | cons w rest ih =>
    have hfirst : p.port.waiting = [] := h 0
    unfold Part.resolveWaiters
    rw [if_pos (List.isEmpty_iff.mpr hfirst)]
    exact ih fun i => h (i + 1)

/-- R120: the one request that waits. -/
theorem Part.resolve_single {p : Part} {f : Finish} {w : Nat} (hw : p.port.waiting = []) (hl : p.port.later = []) (hf : p.board.finishes = [f])
    (hwaiters : p.waitersOf f.seq = [w]) :
    p.resolve = (((p.releasing f.seq []).resolveWaiter f.seq f.success w).countFinish f).resolve := by
  rw [Part.resolve_releasing hw hl hf (congrArg inTakeOrder hwaiters), insertSeq_singleton]
  unfold Part.resolveWaiters
  rw [if_pos (List.isEmpty_iff.mpr (by exact hw))]
  rfl

/-! ## Fewer wait -/

/-- From `p` to `q` no record has come. -/
structure Part.Thins (p q : Part) : Prop where
  held : q.board.held.Sublist p.board.held
  pool : q.te.pool.Sublist p.te.pool
  syncs : p.DropsSyncs q

theorem Part.Thins.trans {p q r : Part} (h : p.Thins q) (h' : q.Thins r) : p.Thins r :=
  ⟨h'.held.trans h.held, h'.pool.trans h.pool, h.syncs.trans h'.syncs⟩

theorem Part.Thins.refl (p : Part) : p.Thins p := ⟨List.Sublist.refl _, List.Sublist.refl _, .refl p⟩

theorem Part.Thins.waitersOf {p q : Part} (h : p.Thins q) (n : Nat) : (q.waitersOf n).Sublist (p.waitersOf n) :=
  (((h.held.filter _).map _).append ((h.pool.filter _).map _)).append ((h.syncs.filter _).map _)

/-- Where each request waits under one record, no transaction and SYNC are of one request. -/
theorem Part.waiters_apart {p : Part} {n : Nat} (h : (p.waitersOf n).Nodup) {t : Transaction} {y : SyncRecord} (ht : t ∈ p.te.pool) (hp : t.pred = some n)
    (hy : y ∈ p.te.syncs) (hp' : y.pred = some n) : t.seq ≠ y.seq := by
  unfold Part.waitersOf at h
  rw [List.nodup_append] at h
  obtain ⟨-, -, hsyncs⟩ := h
  exact hsyncs _ (List.mem_append_right _ (List.mem_map_of_mem (List.mem_filter.mpr ⟨ht, by simp [hp]⟩))) _
    (List.mem_map_of_mem (List.mem_filter.mpr ⟨hy, by simp [hp']⟩))

/-! ## A request is answered -/

/-- R122: the completions of the request `w`, where it is held. -/
def Part.completionsOf (w : Nat) (r : Result) (p : Part) : List Completion := ((p.heldOf w).map fun h => h.completion r p.run.clock).toList

/-- From `p` to `q` the request `w` has been answered with `r`, and nothing else has changed in the blocks. -/
structure Part.Answered (p q : Part) (w : Nat) (r : Result) : Prop where
  part : q = { p with board := q.board, port := q.port }
  board : q.board = { p.board with
    held := p.board.held.filter fun x => x.seq != w, finishes := q.board.finishes, completions := p.board.completions ++ p.completionsOf w r }
  finishes : ∀ f ∈ q.board.finishes, f ∈ p.board.finishes ∨ f.seq = w
  later : q.port.later = p.port.later
  roomy : p.Roomy → q.Roomy

/-- A request that is not held has no record to lose. -/
theorem Part.held_without {p : Part} {w : Nat} (h : p.heldOf w = none) : (p.board.held.filter fun x => x.seq != w) = p.board.held :=
  List.filter_eq_self.mpr fun x hx => by simpa using List.find?_eq_none.mp h x hx

theorem Part.completionsOf_none {p : Part} {w : Nat} (h : p.heldOf w = none) (r : Result) : p.completionsOf w r = [] := by
  rw [Part.completionsOf, h]
  rfl

theorem Part.completionsOf_some {p : Part} {w : Nat} {h : HeldRequest} (e : p.heldOf w = some h) (r : Result) :
    p.completionsOf w r = [h.completion r p.run.clock] := by
  rw [Part.completionsOf, e]
  rfl

theorem Part.completeRequest_answered (w : Nat) (r : Result) (p : Part) : p.Answered (p.completeRequest w r) w r := by
  have hrel := p.completeRequest_releases w r
  refine ⟨hrel.eq_of_te (p.completeRequest_owners w r).2.1, ?_, fun f hf => (Part.completeRequest_finishes hf).imp id fun e => by rw [e], hrel.later, hrel.roomy⟩
  cases e : p.heldOf w with
  | none =>
    rw [Part.completeRequest_none e, Part.held_without e, Part.completionsOf_none e, List.append_nil]
  | some h =>
    rw [(Part.completeRequest_board r e).1, Part.completionsOf_some e]
    rfl

/-- R85 step 3: a transaction of a held request that ends without a reservation. -/
theorem Part.finishTxn_answered {t : Transaction} {e : Ending} (hr : e.reserve = none) (ho : t.origin.isSome = true) (p : Part) :
    Part.Answered { p with te := { p.te with pool := p.te.pool.filter fun x => x.seq != t.seq } } (p.finishTxn t e) t.seq (t.result e) := by
  let P : Part := { p with te := { p.te with pool := p.te.pool.filter fun x => x.seq != t.seq } }
  have hend : p.finishTxn t e = (P.completeSlot t.seq (t.result e)).noteFinish t.seq (e.outcome == .ok) true := by
    show ((P.reserveToken t e).reportEnding t e).noteFinish _ _ _ = _
    rw [P.reserveToken_frees fun _ _ h => absurd (hr.symm.trans h) (by simp)]
    unfold Part.reportEnding
    rw [if_pos ho]
  have hrel := P.completeSlot_releases t.seq (t.result e)
  have hte := (P.completeSlot_owners t.seq (t.result e)).2.1
  have hfinishes := P.completeSlot_finishes t.seq (t.result e)
  have hboard : (P.completeSlot t.seq (t.result e)).board = { P.board with
      held := P.board.held.filter fun x => x.seq != t.seq, completions := P.board.completions ++ P.completionsOf t.seq (t.result e) } := by
    cases h : P.heldOf t.seq with
    | none => rw [Part.completeSlot_none h, Part.held_without h, Part.completionsOf_none h, List.append_nil]
    | some x => rw [Part.completeSlot_board _ h, Part.completionsOf_some h]
  rw [hend]
  show P.Answered _ _ _
  generalize P = P at *
  generalize P.completeSlot t.seq (t.result e) = Q at *
  refine ⟨?_, ?_, fun f hf => ?_, hrel.later, fun x => (hrel.roomy x).of_eq⟩
  · have heq := hrel.eq_of_te hte
    show ({ Q with board := _ } : Part) = _
    rw [heq]
    rfl
  · have hnote : (Q.noteFinish t.seq (e.outcome == .ok) true).board =
        { Q.board with finishes := Q.board.finishes ++ [⟨t.seq, e.outcome == .ok, true⟩] } := rfl
    rw [hnote, hboard]
  · rcases List.mem_append.mp (show f ∈ Q.board.finishes ++ [_] from hf) with h | h
    · exact .inl (hfinishes ▸ h)
    · exact .inr (by rw [List.mem_singleton.mp h])

end Sys2Proof.Machine
end

section
/-! SUPPORT. What has finished releases the requests that wait for it (R120, R121). -/

namespace Sys2Proof.Machine

/-! ## Requests that are skipped -/

/-- R120: a request that waits for `n` and is SKIPPED with the result `r` where `n` fails. -/
def Part.Skipped (p : Part) (n w : Nat) (r : Result) : Prop :=
  (∃ x, p.findTxn w = some x ∧ x.pred = some n ∧ x.origin.isSome = true ∧ r = x.result { outcome := .skipped }) ∨
  (p.findTxn w = none ∧ ∃ y, p.te.syncs.find? (fun z => z.seq == w) = some y ∧ y.pred = some n ∧
    r = { outcome := .skipped, fields := [byteOf y.captured, byteOf y.finished, byteOf y.failed] }) ∨
  (p.findTxn w = none ∧ (∀ y ∈ p.te.syncs, y.seq ≠ w) ∧ (∃ h, p.heldOf w = some h ∧ h.owner = .boardController ∧ h.pred = some n) ∧
    r = { outcome := .skipped })

/-- From `p` to `q` the request `w` has been answered with `r` and waits for `n` no more. -/
structure Part.WaiterEnds (p q : Part) (n w : Nat) (r : Result) : Prop where
  thins : p.Thins q
  gone : (p.waitersOf n).Nodup → w ∉ q.waitersOf n
  run : q.run = p.run
  heldOf : ∀ m, m ≠ w → q.heldOf m = p.heldOf m
  findTxn : ∀ m, m ≠ w → q.findTxn m = p.findTxn m
  findSync : ∀ m, m ≠ w → q.te.syncs.find? (fun y => y.seq == m) = p.te.syncs.find? fun y => y.seq == m
  completions : q.board.completions = p.board.completions ++ p.completionsOf w r
  finishes : ∀ f ∈ q.board.finishes, f ∈ p.board.finishes ∨ f.seq = w
  later : q.port.later = p.port.later
  roomy : p.Roomy → q.Roomy

/-- The part once records of transactions and SYNCs have gone. -/
def Part.withRecords (pool : List Transaction) (syncs : List SyncRecord) (p : Part) : Part := { p with te := { p.te with pool := pool, syncs := syncs } }

theorem find?_filter_ne {α : Type} (key : α → Nat) {m w : Nat} (h : m ≠ w) (l : List α) :
    (l.filter fun x => key x != w).find? (fun x => key x == m) = l.find? fun x => key x == m := by
  rw [List.find?_filter]
  congr 1
  funext x
  by_cases hx : key x = m <;> simp [hx, h]

theorem Part.Answered.ends {p q : Part} {n w : Nat} {r : Result} {pool : List Transaction} {syncs : List SyncRecord}
    (h : (p.withRecords pool syncs).Answered q w r) (hpool : pool.Sublist p.te.pool) (hsyncs : syncs.Sublist p.te.syncs)
    (hfindTxn : ∀ m, m ≠ w → pool.find? (fun x => x.seq == m) = p.te.pool.find? fun x => x.seq == m)
    (hfindSync : ∀ m, m ≠ w → syncs.find? (fun y => y.seq == m) = p.te.syncs.find? fun y => y.seq == m)
    (hgone : (p.waitersOf n).Nodup → (∀ x ∈ pool, x.pred = some n → x.seq ≠ w) ∧ ∀ y ∈ syncs, y.pred = some n → y.seq ≠ w) :
    p.WaiterEnds q n w r := by
  obtain ⟨hpart, hboard, hfinishes, hlater, hroomy⟩ := h
  have hte : q.te = (p.withRecords pool syncs).te := by rw [hpart]
  have hheld : q.board.held = p.board.held.filter fun x => x.seq != w := by rw [hboard]; rfl
  refine ⟨⟨?_, ?_, ?_⟩, fun hnodup hw => ?_, ?_, fun m hm => ?_, fun m hm => ?_, fun m hm => ?_, ?_, hfinishes, hlater, fun x => hroomy x.of_eq⟩
  · rw [hheld]
    exact List.filter_sublist
  · rw [hte]
    exact hpool
  · rw [Part.DropsSyncs, hte]
    exact hsyncs
  · obtain ⟨hpoolGone, hsyncGone⟩ := hgone hnodup
    rw [Part.mem_waitersOf, hte, hheld] at hw
    rcases hw with ⟨x, hx, -, -, e⟩ | ⟨x, hx, hp, e⟩ | ⟨y, hy, hp, e⟩
    · simpa [e] using List.of_mem_filter hx
    · exact hpoolGone x hx hp e
    · exact hsyncGone y hy hp e
  · rw [hpart]
    rfl
  · rw [Part.heldOf, hheld]
    exact find?_filter_ne HeldRequest.seq hm _
  · rw [Part.findTxn, hte]
    exact hfindTxn m hm
  · rw [hte]
    exact hfindSync m hm
  · rw [hboard]
    rfl

theorem Part.resolveWaiter_txn {p : Part} {n w : Nat} {x : Transaction} (h : p.findTxn w = some x) (hp : x.pred = some n) (success : Bool) :
    p.resolveWaiter n success w = if success then p.mapTxn w fun x => { x with pred := none } else p.finishTxn x { outcome := .skipped } := by
  unfold Part.resolveWaiter
  rw [h]
  dsimp only
  rw [if_neg (by simp [hp])]

theorem Part.resolveWaiter_sync {p : Part} {n w : Nat} {y : SyncRecord} (h : p.findTxn w = none)
    (hy : p.te.syncs.find? (fun y => y.seq == w) = some y) (hp : y.pred = some n) (success : Bool) :
    p.resolveWaiter n success w = if success then
      Part.endSyncs ((p.te.syncs.filter fun x => x.seq == w).map fun x => { x with pred := none })
        { p with te := { p.te with syncs := p.te.syncs.map fun x => if x.seq = w then { x with pred := none } else x } }
    else p.endSync y .skipped := by
  unfold Part.resolveWaiter
  rw [h, hy]
  dsimp only
  rw [if_neg (by simp [hp])]

theorem Part.resolveWaiter_held {p : Part} {n w : Nat} {h : HeldRequest} (ht : p.findTxn w = none) (hy : ∀ y ∈ p.te.syncs, y.seq ≠ w)
    (hof : p.heldOf w = some h) (ho : h.owner = .boardController) (hp : h.pred = some n) (success : Bool) :
    p.resolveWaiter n success w = p.resolveHeld h success := by
  unfold Part.resolveWaiter
  rw [ht, Part.find_sync_none hy]
  dsimp only
  rw [hof]
  dsimp only
  rw [if_pos (by simp [ho, hp])]

/-- R120: a request that is SKIPPED. -/
theorem Part.Skipped.ends {p : Part} {n w : Nat} {r : Result} (h : p.Skipped n w r) : p.WaiterEnds (p.resolveWaiter n false w) n w r := by
  rcases h with ⟨x, hx, hp, ho, rfl⟩ | ⟨hx, y, hy, hp, rfl⟩ | ⟨hx, hy, ⟨h, hof, ho, hp⟩, rfl⟩
  · obtain rfl := Part.findTxn_seq hx
    rw [Part.resolveWaiter_txn hx hp, if_neg (by simp)]
    exact Part.Answered.ends (pool := p.te.pool.filter fun z => z.seq != x.seq) (syncs := p.te.syncs)
      (Part.finishTxn_answered (e := { outcome := .skipped }) rfl ho p) List.filter_sublist (List.Sublist.refl _)
      (fun m hm => find?_filter_ne Transaction.seq hm _) (fun _ _ => rfl)
      fun hnodup => ⟨fun z hz _ => by simpa using List.of_mem_filter hz,
        fun y hy hp' => Ne.symm (Part.waiters_apart hnodup (Part.findTxn_mem hx).1 hp hy hp')⟩
  · obtain rfl : y.seq = w := by simpa using List.find?_some hy
    rw [Part.resolveWaiter_sync hx hy hp, if_neg (by simp)]
    exact Part.Answered.ends (pool := p.te.pool) (syncs := p.te.syncs.filter fun z => z.seq != y.seq)
      (Part.completeRequest_answered y.seq _ (p.withRecords p.te.pool (p.te.syncs.filter fun z => z.seq != y.seq))) (List.Sublist.refl _)
      List.filter_sublist (fun _ _ => rfl) (fun m hm => find?_filter_ne SyncRecord.seq hm _)
      fun _ => ⟨fun z hz _ e => by simpa [e] using List.find?_eq_none.mp hx z hz, fun z hz _ => by simpa using List.of_mem_filter hz⟩
  · obtain rfl : h.seq = w := by simpa using List.find?_some hof
    rw [Part.resolveWaiter_held hx hy hof ho hp]
    exact Part.Answered.ends (pool := p.te.pool) (syncs := p.te.syncs) (Part.completeRequest_answered h.seq { outcome := .skipped } p)
      (List.Sublist.refl _) (List.Sublist.refl _) (fun _ _ => rfl) (fun _ _ => rfl)
      fun _ => ⟨fun z hz _ e => by simpa [e] using List.find?_eq_none.mp hx z hz, fun z hz _ => hy z hz⟩

/-- The end of one request leaves the others to be skipped as before. -/
theorem Part.WaiterEnds.skipped {p q : Part} {n w m : Nat} {r r' : Result} (h : p.WaiterEnds q n w r) (hm : m ≠ w) (hs : p.Skipped n m r') :
    q.Skipped n m r' := by
  unfold Part.Skipped at hs ⊢
  rw [h.findTxn m hm, h.findSync m hm, h.heldOf m hm]
  exact hs.imp id fun hs => hs.imp id fun ⟨h1, h2, h3⟩ => ⟨h1, fun y hy => h2 y (h.thins.syncs.subset hy), h3⟩

/-- From `p` to `q` the requests of `l` have been answered in their order and wait for `n` no more. -/
structure Part.WaitersEnd (p q : Part) (n : Nat) (l : List Nat) (res : Nat → Result) : Prop where
  thins : p.Thins q
  gone : (p.waitersOf n).Nodup → ∀ w ∈ l, w ∉ q.waitersOf n
  completions : q.board.completions = p.board.completions ++ l.flatMap fun w => p.completionsOf w (res w)
  finishes : ∀ f ∈ q.board.finishes, f ∈ p.board.finishes ∨ f.seq ∈ l
  later : q.port.later = p.port.later
  roomy : p.Roomy → q.Roomy

theorem Part.waitersEnd {n : Nat} {l : List Nat} {res : Nat → Result} (hl : l.Nodup) {p : Part} (h : ∀ w ∈ l, p.Skipped n w (res w)) :
    p.WaitersEnd (l.foldl (fun r w => r.resolveWaiter n false w) p) n l res := by
  induction l generalizing p with
  | nil => exact ⟨.refl p, fun _ _ hw => absurd hw List.not_mem_nil, (List.append_nil _).symm, fun _ => .inl, rfl, id⟩
  | cons w rest ih =>
    obtain ⟨hw, hrest⟩ := List.nodup_cons.mp hl
    have hne : ∀ m ∈ rest, m ≠ w := fun m hm e => hw (e ▸ hm)
    have hfirst := (h w List.mem_cons_self).ends
    have hmore := ih hrest fun m hm => hfirst.skipped (hne m hm) (h m (List.mem_cons_of_mem _ hm))
    rw [List.foldl_cons]
    generalize p.resolveWaiter n false w = q at *
    refine ⟨hfirst.thins.trans hmore.thins, fun hnodup m hm => ?_, ?_, fun f hf => ?_, hmore.later.trans hfirst.later, fun x => hmore.roomy (hfirst.roomy x)⟩
    · rcases List.mem_cons.mp hm with rfl | hm
      · exact fun hin => hfirst.gone hnodup ((hmore.thins.waitersOf n).subset hin)
      · exact hmore.gone (hnodup.sublist (hfirst.thins.waitersOf n)) m hm
    · have hsame : (rest.flatMap fun m => q.completionsOf m (res m)) = rest.flatMap fun m => p.completionsOf m (res m) :=
        List.flatMap_congr fun m hm => by rw [Part.completionsOf, Part.completionsOf, hfirst.heldOf m (hne m hm), hfirst.run]
      rw [hmore.completions, hfirst.completions, hsame, List.append_assoc, List.flatMap_cons]
    · rcases hmore.finishes f hf with hq | hq
      · exact (hfirst.finishes f hq).imp id fun e => List.mem_cons.mpr (.inl e)
      · exact .inr (List.mem_cons_of_mem _ hq)

end Sys2Proof.Machine
end

section
/-! SUPPORT. Releasing the one request that waits, counting, and releasing several (R120, R121, R100). -/

namespace Sys2Proof.Machine

/-! ## One request waits -/

/-- What has finished is `f` alone, and the one request that waits for anything is `w`, which waits for it. -/
structure Part.OneWaits (p : Part) (f : Finish) (w : Nat) : Prop where
  waiting : p.port.waiting = []
  later : p.port.later = []
  finishes : p.board.finishes = [f]
  uncounted : p.Uncounted f
  waiters : p.waitersOf f.seq = [w]
  others : ∀ k, k ≠ f.seq → p.waitersOf k = []
  captured : ∀ y ∈ p.te.syncs, w ∉ y.waitingFor

theorem Part.waits_of_thins {p q : Part} {n : Nat} (h : p.Thins q) (hothers : ∀ k, k ≠ n → p.waitersOf k = [])
    (hgone : ∀ w ∈ p.waitersOf n, w ∉ q.waitersOf n) (k : Nat) : ¬ q.Waits k := fun hk => by
  obtain ⟨x, hx⟩ := Part.waits_iff.mp hk
  have hp := (h.waitersOf k).subset hx
  by_cases hkn : k = n
  · subst hkn
    exact hgone x hp hx
  · rw [hothers k hkn] at hp
    exact List.not_mem_nil hp

/-- R120: once the request waits no more, the rest of the resolution releases tags. -/
theorem Part.OneWaits.resolve_thinned {p Y : Part} {f : Finish} {w : Nat} (h : p.OneWaits f w)
    (hY : (p.releasing f.seq []).resolveWaiter f.seq f.success w = Y) (ht : p.Thins Y) (hgone : w ∉ Y.waitersOf f.seq)
    (hfinishes : ∀ g ∈ Y.board.finishes, g.seq = w) (hlater : Y.port.later = []) :
    p.resolve = { Y with board := { Y.board with finishes := p.resolve.board.finishes, registry := p.resolve.board.registry } } := by
  have hcount : Y.countFinish f = Y := Part.countFinish_uncounted (ht.syncs.uncounted h.uncounted)
  have hstep : p.resolve = Y.resolve := by
    rw [Part.resolve_single h.waiting h.later h.finishes h.waiters, hY, hcount]
  have hunwaited : Y.Unwaited := fun g hg => by
    refine ⟨Part.waits_of_thins ht h.others (fun x hx => ?_) g.seq, .inr fun y hy => ?_⟩
    · rw [h.waiters] at hx
      rw [List.mem_singleton.mp hx]
      exact hgone
    · rw [hfinishes g hg]
      exact h.captured y (ht.syncs.subset hy)
  rw [hstep]
  exact Part.resolve_quiet hlater hunwaited

/-- R120: the request is answered. -/
theorem Part.OneWaits.resolve_answered {p Y : Part} {f : Finish} {w : Nat} (h : p.OneWaits f w) {r : Result} {pool : List Transaction}
    {syncs : List SyncRecord} (hA : ((p.releasing f.seq []).withRecords pool syncs).Answered Y w r)
    (hE : (p.releasing f.seq []).WaiterEnds Y f.seq w r) (hY : (p.releasing f.seq []).resolveWaiter f.seq f.success w = Y) :
    p.resolve = { (p.releasing f.seq []).withRecords pool syncs with board := p.resolve.board, port := p.resolve.port } ∧
    p.resolve.board.held = p.board.held.filter (fun x => x.seq != w) ∧
    p.resolve.board.completions = p.board.completions ++ p.completionsOf w r := by
  have hnodup : ((p.releasing f.seq []).waitersOf f.seq).Nodup := by
    show (p.waitersOf f.seq).Nodup
    rw [h.waiters]
    exact List.nodup_singleton w
  have hres := h.resolve_thinned hY ⟨hE.thins.held, hE.thins.pool, hE.thins.syncs⟩ (hE.gone hnodup)
    (fun g hg => (hE.finishes g hg).resolve_left List.not_mem_nil) (hE.later.trans h.later)
  have hcompletions : p.resolve.board.completions = p.board.completions ++ p.completionsOf w r := by
    rw [hres]
    exact hE.completions
  have hheld : p.resolve.board.held = p.board.held.filter fun x => x.seq != w := by
    rw [hres]
    exact congrArg BoardController.held hA.board
  refine ⟨?_, hheld, hcompletions⟩
  have hpart := hA.part
  have hport : p.resolve.port = Y.port := by rw [hres]
  have hboard : p.resolve.board = { Y.board with finishes := p.resolve.board.finishes, registry := p.resolve.board.registry } := by
    have hb := congrArg Part.board hres
    exact hb
  generalize p.resolve = Z at *
  rw [hres, hpart]

/-- R120: a transaction whose predecessor has succeeded has none any more. -/
theorem Part.OneWaits.txn_proceeds {p : Part} {f : Finish} {w : Nat} (h : p.OneWaits f w) (hs : f.success = true) {x : Transaction}
    (hx : p.findTxn w = some x) (hp : x.pred = some f.seq) :
    p.resolve = (p.releasing f.seq []).mapTxn w fun y => { y with pred := none } := by
  have hstep : (p.releasing f.seq []).resolveWaiter f.seq f.success w = (p.releasing f.seq []).mapTxn w fun y => { y with pred := none } := by
    rw [Part.resolveWaiter_txn (p := p.releasing f.seq []) hx hp, if_pos hs]
  rw [Part.resolve_single h.waiting h.later h.finishes h.waiters, hstep,
    Part.countFinish_uncounted (p := (p.releasing f.seq []).mapTxn w fun y => { y with pred := none }) h.uncounted]
  exact Part.resolve_eq_self h.later rfl

/-- R85, R120: a transaction whose predecessor has failed is SKIPPED, with a LATE_FAILURE record where it has no origin slot. -/
theorem Part.OneWaits.txn_skipped {p : Part} {f : Finish} {w : Nat} (h : p.OneWaits f w) (hs : f.success = false) {x : Transaction}
    (hx : p.findTxn w = some x) (hp : x.pred = some f.seq) :
    p.resolve.te = { p.te with pool := p.te.pool.filter fun y => y.seq != w } ∧
    (x.origin.isSome = true → p.resolve.svc = p.svc ∧
      p.resolve.board.completions = p.board.completions ++ p.completionsOf w (x.result { outcome := .skipped })) ∧
    (x.origin = none → (faultWrites p.base p.svc.ringIndex p.svc.nextFault (x.lateFailure { outcome := .skipped }) p.run.clock).Sublist
      p.resolve.port.outstanding) := by
  obtain rfl := Part.findTxn_seq hx
  have hstep : (p.releasing f.seq []).resolveWaiter f.seq f.success x.seq = (p.releasing f.seq []).finishTxn x { outcome := .skipped } := by
    rw [Part.resolveWaiter_txn (p := p.releasing f.seq []) hx hp, hs]
    rfl
  have hends := Part.finishTxn_ends (p := p.releasing f.seq []) (Part.findTxn_exists hx) { outcome := .skipped }
  have hanswered := fun ho => Part.finishTxn_answered (t := x) (e := { outcome := .skipped }) rfl ho (p.releasing f.seq [])
  generalize (p.releasing f.seq []).finishTxn x { outcome := .skipped } = Y at *
  have hte : Y.te = { p.te with pool := p.te.pool.filter fun y => y.seq != x.seq } := hends.te
  have hthins : p.Thins Y := by
    refine ⟨hends.held, ?_, ?_⟩
    · rw [hte]
      exact List.filter_sublist
    · rw [Part.DropsSyncs, hte]
  have hgone : x.seq ∉ Y.waitersOf f.seq := fun hin => by
    have hnodup : (p.waitersOf f.seq).Nodup := by
      rw [h.waiters]
      exact List.nodup_singleton _
    rw [Part.mem_waitersOf, hte] at hin
    rcases hin with ⟨z, hz, hzo, hzp, e⟩ | ⟨z, hz, -, e⟩ | ⟨y, hy, hyp, e⟩
    · have hall : ∀ u ∈ p.board.held, u.owner = .boardController → u.pred = some f.seq → u.seq ≠ x.seq := fun u hu ho hup => by
        unfold Part.waitersOf at hnodup
        rw [List.nodup_append, List.nodup_append] at hnodup
        obtain ⟨⟨-, -, happart⟩, -⟩ := hnodup
        exact happart _ (List.mem_map_of_mem (List.mem_filter.mpr ⟨hu, by simp [ho, hup]⟩)) _
          (List.mem_map_of_mem (List.mem_filter.mpr ⟨(Part.findTxn_mem hx).1, by simp [hp]⟩))
      exact hall z (hends.held.subset hz) hzo hzp e
    · simpa [e] using List.of_mem_filter hz
    · exact Part.waiters_apart hnodup (Part.findTxn_mem hx).1 hp hy hyp e.symm
  have hfinishes : ∀ g ∈ Y.board.finishes, g.seq = x.seq := fun g hg => by
    rw [hends.board] at hg
    rw [List.mem_singleton.mp (show g ∈ [_] from hg)]
  have hlater : Y.port.later = [] := hends.calm.later.trans h.later
  have hres := h.resolve_thinned hstep hthins hgone hfinishes hlater
  refine ⟨?_, fun ho => ⟨?_, ?_⟩, fun ho => ?_⟩
  · rw [hres]
    exact hte
  · rw [hres]
    exact hends.quiet (.inl ho)
  · rw [hres]
    exact congrArg BoardController.completions (hanswered ho).board
  · rw [hres]
    exact hends.logs ho (by simp) rfl (WindowPort.not_waits h.waiting _)

end Sys2Proof.Machine
end

section
/-! SUPPORT. The statement about finished items and the requests that wait for them (R85, R100, R118, R120, R121). -/

namespace Sys2Proof.Machine

/-- R120: the one SYNC that waits loses its predecessor. -/
theorem Part.OneWaits.sync_step {p : Part} {f : Finish} {w : Nat} {y : SyncRecord} (ht : p.findTxn w = none)
    (hy : p.te.syncs = [y]) (hw : y.seq = w) (hp : y.pred = some f.seq) :
    (p.releasing f.seq []).resolveWaiter f.seq f.success w =
      if f.success then Part.endSyncs [{ y with pred := none }] ((p.releasing f.seq []).withRecords p.te.pool [{ y with pred := none }])
      else (p.releasing f.seq []).endSync y .skipped := by
  have hfind : (p.releasing f.seq []).te.syncs.find? (fun z => z.seq == w) = some y := by
    show p.te.syncs.find? _ = _
    rw [hy, List.find?_cons_of_pos (by simp [hw])]
  rw [Part.resolveWaiter_sync (p := p.releasing f.seq []) ht hfind hp]
  unfold Part.releasing Part.withRecords
  dsimp only
  rw [hy, List.filter_cons_of_pos (by simp [hw]), List.filter_nil, List.map_cons, List.map_cons, if_pos hw]
  rfl

theorem Part.OneWaits.sync_proceeds {p : Part} {f : Finish} {w : Nat} (h : p.OneWaits f w) (hs : f.success = true) {y : SyncRecord}
    (ht : p.findTxn w = none) (hy : p.te.syncs = [y]) (hw : y.seq = w) (hp : y.pred = some f.seq) (hmore : y.finished ≠ y.captured) :
    p.resolve = (p.releasing f.seq []).withRecords p.te.pool [{ y with pred := none }] := by
  have hready : (({ y with pred := none } : SyncRecord)).ready = false := by simp [SyncRecord.ready, hmore]
  have hstep : (p.releasing f.seq []).resolveWaiter f.seq f.success w = (p.releasing f.seq []).withRecords p.te.pool [{ y with pred := none }] := by
    rw [Part.OneWaits.sync_step ht hy hw hp, hs, if_pos rfl]
    unfold Part.endSyncs
    rw [List.filter_cons_of_neg (by rw [hready]; simp)]
    rfl
  have huncounted : ((p.releasing f.seq []).withRecords p.te.pool [{ y with pred := none }]).Uncounted f := by
    refine h.uncounted.imp id fun hall z hz => ?_
    rw [List.mem_singleton.mp (show z ∈ [_] from hz)]
    exact hall y (by rw [hy]; exact List.mem_singleton.mpr rfl)
  rw [Part.resolve_single h.waiting h.later h.finishes h.waiters, hstep, Part.countFinish_uncounted huncounted]
  exact Part.resolve_eq_self h.later rfl

/-- R100, R120: the one SYNC that waits ends OK where nothing is left to wait for, and SKIPPED where its predecessor has failed. -/
theorem Part.OneWaits.sync_ends {p : Part} {f : Finish} {w : Nat} (h : p.OneWaits f w) {y : SyncRecord} (ht : p.findTxn w = none)
    (hy : p.te.syncs = [y]) (hw : y.seq = w) (hp : y.pred = some f.seq) (hends : f.success = true ∧ y.finished = y.captured ∨ f.success = false) :
    p.resolve = { (p.releasing f.seq []).withRecords p.te.pool [] with board := p.resolve.board, port := p.resolve.port } ∧
    p.resolve.board.completions = p.board.completions ++
      p.completionsOf w { outcome := if f.success then .ok else .skipped, fields := [byteOf y.captured, byteOf y.finished, byteOf y.failed] } := by
  subst hw
  have hgone : ∀ v : SyncRecord, v.seq = y.seq → ([v].filter fun x => x.seq != y.seq) = [] := fun v hv => by
    rw [List.filter_cons_of_neg (by simp [hv])]
    rfl
  have hstep : (p.releasing f.seq []).resolveWaiter f.seq f.success y.seq =
      Part.completeRequest y.seq { outcome := if f.success then .ok else .skipped, fields := [byteOf y.captured, byteOf y.finished, byteOf y.failed] }
        ((p.releasing f.seq []).withRecords p.te.pool []) := by
    rw [Part.OneWaits.sync_step ht hy rfl hp]
    rcases hends with ⟨hs, hall⟩ | hs
    · rw [hs, if_pos rfl]
      unfold Part.endSyncs
      rw [List.filter_cons_of_pos (by simp [SyncRecord.ready, hall]), List.filter_nil, List.foldl_cons, List.foldl_nil]
      unfold Part.endSync Part.withRecords
      dsimp only
      rw [hgone { y with pred := none } rfl]
      rfl
    · rw [hs, if_neg (by simp)]
      unfold Part.endSync Part.releasing Part.withRecords
      dsimp only
      rw [hy, hgone y rfl]
      rfl
  have hA := Part.completeRequest_answered y.seq
    { outcome := if f.success then .ok else .skipped, fields := [byteOf y.captured, byteOf y.finished, byteOf y.failed] }
    ((p.releasing f.seq []).withRecords p.te.pool [])
  have hE := hA.ends (p := p.releasing f.seq []) (n := f.seq) (List.Sublist.refl _) (List.nil_sublist _) (fun _ _ => rfl)
    (fun m hm => by
      show ([] : List SyncRecord).find? _ = p.te.syncs.find? _
      rw [hy, List.find?_cons_of_neg (by simpa using Ne.symm hm)])
    fun _ => ⟨fun z hz _ e => by simpa [e] using List.find?_eq_none.mp ht z hz, fun z hz => absurd hz List.not_mem_nil⟩
  obtain ⟨hpart, -, hcompletions⟩ := h.resolve_answered hA hE hstep
  exact ⟨hpart, hcompletions⟩

/-- R120: a held request that ends where its predecessor has finished. -/
theorem Part.OneWaits.held_ends {p : Part} {f : Finish} {w : Nat} (h : p.OneWaits f w) {x : HeldRequest} (hof : p.heldOf w = some x)
    (ho : x.owner = .boardController) (hp : x.pred = some f.seq) (ht : p.findTxn w = none) (hy : ∀ y ∈ p.te.syncs, y.seq ≠ w) {r : Result}
    (hr : (p.releasing f.seq []).resolveHeld x f.success = (p.releasing f.seq []).completeRequest w r) :
    p.resolve = { p with board := p.resolve.board, port := p.resolve.port } ∧ (∀ y ∈ p.resolve.board.held, y.seq ≠ w) ∧
    p.resolve.board.completions = p.board.completions ++ p.completionsOf w r := by
  have hstep : (p.releasing f.seq []).resolveWaiter f.seq f.success w = (p.releasing f.seq []).completeRequest w r := by
    rw [Part.resolveWaiter_held (p := p.releasing f.seq []) ht hy hof ho hp, hr]
  have hA : ((p.releasing f.seq []).withRecords p.te.pool p.te.syncs).Answered _ w r := (p.releasing f.seq []).completeRequest_answered w r
  have hE := hA.ends (p := p.releasing f.seq []) (n := f.seq) (List.Sublist.refl _) (List.Sublist.refl _) (fun _ _ => rfl) (fun _ _ => rfl)
    fun _ => ⟨fun z hz _ e => by simpa [e] using List.find?_eq_none.mp ht z hz, fun z hz _ => hy z hz⟩
  obtain ⟨hpart, hheld, hcompletions⟩ := h.resolve_answered hA hE hstep
  refine ⟨hpart, fun y hmem => ?_, hcompletions⟩
  rw [hheld] at hmem
  simpa using List.of_mem_filter hmem

theorem Part.resolveHeld_fails {p : Part} {x : HeldRequest} : p.resolveHeld x false = p.completeRequest x.seq { outcome := .skipped } := rfl

theorem Part.resolveHeld_refused {p : Part} {x : HeldRequest} {k : ReqKind} {o : ReqOutcome} (hk : Req.kind x.req = some k)
    (ho : p.checkState k x.req = some o) : p.resolveHeld x true = p.completeRequest x.seq { outcome := o } := by
  unfold Part.resolveHeld
  rw [if_pos rfl, hk]
  dsimp only
  rw [ho]

theorem Part.resolveHeld_passed {p : Part} {x : HeldRequest} {k : ReqKind} (hk : Req.kind x.req = some k) (ho : p.checkState k x.req = none) :
    p.resolveHeld x true = (p.passToOwner x.seq k.owner).handOver k x.seq x.slot x.req none := by
  unfold Part.resolveHeld
  rw [if_pos rfl, hk]
  dsimp only
  rw [ho]

/-- R120: a held request that proceeds is handed to its block, which may be asked for more by what it finishes. -/
theorem Part.OneWaits.held_proceeds {p : Part} {f : Finish} {w : Nat} (h : p.OneWaits f w) {x : HeldRequest} (hof : p.heldOf w = some x)
    (ho : x.owner = .boardController) (hp : x.pred = some f.seq) (ht : p.findTxn w = none) (hy : ∀ y ∈ p.te.syncs, y.seq ≠ w) {k : ReqKind}
    (hs : f.success = true) (hk : Req.kind x.req = some k) (htransact : k ≠ .transact) (hsync : k ≠ .sync)
    (hcheck : (p.releasing f.seq []).checkState k x.req = none) :
    p.resolve = (((p.releasing f.seq []).passToOwner w k.owner).handOver k w x.slot x.req none).resolve := by
  obtain rfl : x.seq = w := by simpa using List.find?_some hof
  have hdrops : p.DropsSyncs _ :=
    Part.handOver_dropsSyncs htransact hsync x.seq x.slot x.req none ((p.releasing f.seq []).passToOwner x.seq k.owner)
  rw [Part.resolve_single h.waiting h.later h.finishes h.waiters,
    Part.resolveWaiter_held (p := p.releasing f.seq []) ht hy hof ho hp, hs, Part.resolveHeld_passed hk hcheck,
    Part.countFinish_uncounted (hdrops.uncounted h.uncounted)]

/-! ## Counting (R85 step 6, R100) -/

theorem SyncRecord.count_seq (n : Nat) (ok : Bool) (y : SyncRecord) : (y.count n ok).seq = y.seq := by
  unfold SyncRecord.count
  split <;> rfl

theorem SyncRecord.count_eq (n : Nat) (ok : Bool) (y : SyncRecord) : y.count n ok = if n ∈ y.waitingFor then
    { y with finished := y.finished + 1, failed := if ok then y.failed else y.failed + 1, waitingFor := y.waitingFor.filter (· != n) } else y := by
  unfold SyncRecord.count
  by_cases h : n ∈ y.waitingFor <;> simp [h]

/-- Completing requests reads and writes nothing of the Transaction Engine. -/
theorem Part.completeEach_setTe (te : TransactionEngine) (l : List (Nat × Result)) (p : Part) :
    ({ p with te := te } : Part).completeEach l = { p.completeEach l with te := te } := by
  induction l generalizing p with
  | nil => rfl
  | cons x rest ih =>
    show Part.completeEach rest (Part.completeRequest x.1 x.2 { p with te := te }) = _
    rw [Part.completeRequest_te]
    exact ih _

/-- SYNCs that end one after another are requests that complete one after another. -/
theorem Part.endSyncs_completeEach (l : List SyncRecord) (p : Part) : ∃ syncs,
    l.foldl (fun q y => q.endSync y .ok) p =
      { p.completeEach (l.map fun y => (y.seq, { outcome := .ok, fields := y.fields })) with te := { p.te with syncs := syncs } } := by
  induction l generalizing p with
  | nil => exact ⟨p.te.syncs, rfl⟩
  | cons y rest ih =>
    obtain ⟨syncs, h⟩ := ih (p.endSync y .ok)
    refine ⟨syncs, h.trans ?_⟩
    have hfirst : p.endSync y .ok = { p.completeRequest y.seq { outcome := .ok, fields := y.fields } with
        te := { p.te with syncs := p.te.syncs.filter fun x => x.seq != y.seq } } := by
      rw [← Part.completeRequest_te]
      rfl
    rw [hfirst, Part.completeEach_setTe]
    rfl

/-- R122: the completions of requests that complete one after another. -/
theorem Part.completeEach_completions {l : List (Nat × Result)} (hl : (l.map Prod.fst).Nodup) (p : Part) :
    (p.completeEach l).board.completions = p.board.completions ++ l.flatMap fun x => p.completionsOf x.1 x.2 := by
  induction l generalizing p with
  | nil => exact (List.append_nil _).symm
  | cons x rest ih =>
    rw [List.map_cons, List.nodup_cons] at hl
    have hfirst := p.completeRequest_answered x.1 x.2
    have hsame : (rest.flatMap fun y => (p.completeRequest x.1 x.2).completionsOf y.1 y.2) = rest.flatMap fun y => p.completionsOf y.1 y.2 :=
      List.flatMap_congr fun y hy => by
        have hne : y.1 ≠ x.1 := fun e => hl.1 (e ▸ List.mem_map_of_mem hy)
        rw [Part.completionsOf, Part.completionsOf, Part.heldOf_completeRequest hne, (p.completeRequest_releases x.1 x.2).run]
    show ((p.completeRequest x.1 x.2).completeEach rest).board.completions = _
    rw [ih hl.2, hsame, hfirst.board, List.append_assoc, List.flatMap_cons]

/-- R100: the SYNCs that are complete once the transaction `n` has been counted. -/
def SyncRecord.lastIs (n : Nat) (ok : Bool) (y : SyncRecord) : Bool := (y.count n ok).ready && y.waitingFor.contains n

theorem SyncRecord.lastIs_iff (n : Nat) (ok : Bool) (y : SyncRecord) :
    y.lastIs n ok = true ↔ n ∈ y.waitingFor ∧ y.finished + 1 = y.captured ∧ y.pred = none := by
  unfold SyncRecord.lastIs SyncRecord.ready
  rw [SyncRecord.count_eq]
  by_cases h : n ∈ y.waitingFor <;> simp [h]

/-- R100: the SYNCs that complete, each with its result. -/
def Part.countedResults (n : Nat) (ok : Bool) (p : Part) : List (Nat × Result) :=
  (p.te.syncs.filter (SyncRecord.lastIs n ok)).map fun y => (y.seq, { outcome := .ok, fields := (y.count n ok).fields })

theorem Part.countFinish_eq {p : Part} {f : Finish} (hf : f.transaction = true) (hnodup : (p.te.syncs.map (·.seq)).Nodup) :
    p.countFinish f = { p.completeEach (p.countedResults f.seq f.success) with
      te := { p.te with syncs := (p.te.syncs.filter fun y => !y.lastIs f.seq f.success).map (SyncRecord.count f.seq f.success) } } := by
  let c : SyncRecord → SyncRecord := SyncRecord.count f.seq f.success
  let q : Part := { p with te := { p.te with syncs := p.te.syncs.map c } }
  let ready : List SyncRecord := (p.te.syncs.filter (SyncRecord.lastIs f.seq f.success)).map c
  have hready : ((p.te.syncs.filter fun y => y.waitingFor.contains f.seq).map c).filter SyncRecord.ready = ready := by
    rw [List.filter_map, List.filter_filter]
    rfl
  have hcount : p.countFinish f = Part.endSyncs ((p.te.syncs.filter fun y => y.waitingFor.contains f.seq).map c) q := by
    unfold Part.countFinish
    rw [hf, if_pos rfl]
  have hsyncs := Part.endSyncs_syncs ((p.te.syncs.filter fun y => y.waitingFor.contains f.seq).map c) q
  obtain ⟨syncs, heach⟩ := Part.endSyncs_completeEach ready q
  have hend : Part.endSyncs ((p.te.syncs.filter fun y => y.waitingFor.contains f.seq).map c) q = ready.foldl (fun q y => q.endSync y .ok) q := by
    unfold Part.endSyncs
    rw [hready]
  have hresults : ready.map (fun y => (y.seq, ({ outcome := .ok, fields := y.fields } : Result))) = p.countedResults f.seq f.success := by
    unfold Part.countedResults
    rw [List.map_map]
    exact List.map_congr_left fun y _ => by
      show ((c y).seq, _) = _
      rw [SyncRecord.count_seq]
  have hleft : (p.te.syncs.map c).filter (fun x => !(ready.map (·.seq)).contains x.seq) =
      (p.te.syncs.filter fun y => !y.lastIs f.seq f.success).map c := by
    rw [List.filter_map]
    congr 1
    refine List.filter_congr fun y hy => ?_
    have hmem : (c y).seq ∈ ready.map (·.seq) ↔ y.lastIs f.seq f.success = true := by
      show (y.count f.seq f.success).seq ∈ _ ↔ _
      rw [SyncRecord.count_seq, List.map_map]
      constructor
      · intro hin
        obtain ⟨z, hz, e⟩ := List.mem_map.mp hin
        obtain ⟨hzmem, hlast⟩ := List.mem_filter.mp hz
        have hseq : z.seq = y.seq := (SyncRecord.count_seq f.seq f.success z).symm.trans e
        rwa [List.inj_on_of_nodup_map hnodup hzmem hy hseq] at hlast
      · exact fun hlast => List.mem_map.mpr ⟨y, List.mem_filter.mpr ⟨hy, hlast⟩, SyncRecord.count_seq _ _ y⟩
    show (!(ready.map (·.seq)).contains (c y).seq) = _
    rw [Bool.not_inj_iff, Bool.eq_iff_iff, List.contains_iff_mem, hmem]
  rw [hready] at hsyncs
  rw [hend] at hcount hsyncs
  rw [heach] at hcount hsyncs
  rw [hresults] at hcount
  have hlist : syncs = (p.te.syncs.filter fun y => !y.lastIs f.seq f.success).map c := hsyncs.trans hleft
  rw [hcount, hlist]
  show ({ ({ p with te := { p.te with syncs := p.te.syncs.map c } } : Part).completeEach _ with te := _ } : Part) = _
  rw [Part.completeEach_setTe]

end Sys2Proof.Machine
end

section
/-! SUPPORT. The statement about finished items and the requests that wait for them (R85, R100, R118, R120, R121). -/

namespace Sys2Proof.Machine

theorem Part.Releases.with_te {p q : Part} (h : p.Releases q) : q = { p with te := q.te, board := q.board, port := q.port } := by
  rw [← h.run, ← h.svc, ← h.line, ← h.um, ← h.dir, ← h.jw]

/-- R85 step 6, R100: a finished transaction for which nobody waits is counted. -/
theorem Part.resolve_counted {p : Part} {f : Finish} (hw : p.port.waiting = []) (hl : p.port.later = []) (hf : p.board.finishes = [f])
    (ht : f.transaction = true) (hwaiters : ∀ k, p.waitersOf k = []) (hnodup : (p.te.syncs.map (·.seq)).Nodup) :
    p.resolve = { p with te := p.resolve.te, board := p.resolve.board, port := p.resolve.port } ∧
    (∀ e ∈ p.resolve.board.registry, e.2 ≠ f.seq) ∧
    p.resolve.te = { p.te with syncs := (p.te.syncs.filter fun y => !y.lastIs f.seq f.success).map (SyncRecord.count f.seq f.success) } ∧
    p.resolve.board.completions = p.board.completions ++ (p.countedResults f.seq f.success).flatMap fun x => p.completionsOf x.1 x.2 := by
  have hstep : p.resolve = ((p.releasing f.seq []).countFinish f).resolve :=
    Part.resolve_releasing hw hl hf (congrArg inTakeOrder (hwaiters f.seq))
  have hcount := Part.countFinish_eq (p := p.releasing f.seq []) ht hnodup
  have hresults : (p.releasing f.seq []).countedResults f.seq f.success = p.countedResults f.seq f.success := rfl
  have hte : (p.releasing f.seq []).te = p.te := rfl
  rw [hresults, hte] at hcount
  have hseqs : ((p.countedResults f.seq f.success).map Prod.fst).Nodup := by
    unfold Part.countedResults
    rw [List.map_map]
    exact hnodup.sublist (List.filter_sublist.map _)
  have heach := Part.completeEach_completions hseqs (p.releasing f.seq [])
  have hrel := (p.releasing f.seq []).completeEach_releases (p.countedResults f.seq f.success)
  have hcalm := Part.countFinish_calm f (p.releasing f.seq [])
  have hfinishes := fun g => Part.completeEach_finishes (l := p.countedResults f.seq f.success) (p := p.releasing f.seq []) (f := g)
  have hboard := Part.completeEach_board (p.countedResults f.seq f.success) (p.releasing f.seq [])
  generalize (p.releasing f.seq []).completeEach (p.countedResults f.seq f.success) = E at *
  have hregistry : E.board.registry = p.board.registry.filter fun e => e.2 != f.seq := by
    rw [hboard]
    rfl
  have hpart : E = { p with te := E.te, board := E.board, port := E.port } := hrel.with_te
  rw [hcount] at hstep hcalm
  generalize hC : ({ E with te := { p.te with
    syncs := (p.te.syncs.filter fun y => !y.lastIs f.seq f.success).map (SyncRecord.count f.seq f.success) } } : Part) = C at *
  have hCte : C.te = { p.te with syncs := (p.te.syncs.filter fun y => !y.lastIs f.seq f.success).map (SyncRecord.count f.seq f.success) } := by rw [← hC]
  have hCboard : C.board = E.board := by rw [← hC]
  have hClater : C.port.later = [] := by
    rw [← hC]
    exact hrel.later.trans hl
  have hunwaited : C.Unwaited := by
    refine .of_requests (fun m hm => ?_) fun g hg => (hfinishes g (hCboard ▸ hg)).resolve_left List.not_mem_nil
    obtain ⟨x, hx⟩ := Part.waits_iff.mp (hcalm.waits m hm)
    rw [show (p.releasing f.seq []).waitersOf m = [] from hwaiters m] at hx
    exact List.not_mem_nil hx
  have hquiet := Part.resolve_quiet hClater hunwaited
  have htags := Part.resolve_quiet_registry hClater hunwaited
  rw [← hstep] at hquiet htags
  refine ⟨?_, fun e he => ?_, ?_, ?_⟩
  · rw [hquiet, ← hC, hpart]
  · have hin := htags.subset he
    rw [hCboard, hregistry] at hin
    simpa using List.of_mem_filter hin
  · rw [hquiet]
    exact hCte
  · rw [hquiet, ← hC]
    exact heach

/-- R120, R121: several requests that wait for an item that has failed end one after another, where there is room. -/
theorem Part.resolve_skips {p : Part} {f : Finish} {l : List Nat} {res : Nat → Result} (hw : p.port.waiting = []) (hl : p.port.later = [])
    (hf : p.board.finishes = [f]) (hfail : f.success = false) (hroom : p.port.writesQueued + 2 ≤ 32) (hperm : l.Perm (p.waitersOf f.seq))
    (hsorted : l.Pairwise (· < ·)) (hothers : ∀ k, k ≠ f.seq → p.waitersOf k = []) (hcaptured : ∀ y ∈ p.te.syncs, ∀ w ∈ f.seq :: l, w ∉ y.waitingFor)
    (hskipped : ∀ w ∈ l, p.Skipped f.seq w (res w)) :
    p.resolve.board.completions = p.board.completions ++ l.flatMap fun w => p.completionsOf w (res w) := by
  have hnodup : l.Nodup := hsorted.imp Nat.ne_of_lt
  have hroomy : (p.releasing f.seq []).Roomy := ⟨hw, fun _ => hroom⟩
  have hall : ∀ m : List Nat, m.Nodup → (∀ w ∈ m, w ∈ l) →
      (p.releasing f.seq []).WaitersEnd (m.foldl (fun r w => r.resolveWaiter f.seq f.success w) (p.releasing f.seq [])) f.seq m res := fun m hm hsub => by
    rw [hfail]
    exact Part.waitersEnd hm fun w hmem => hskipped w (hsub w hmem)
  have hstep : p.resolve = ((l.foldl (fun r w => r.resolveWaiter f.seq f.success w) (p.releasing f.seq [])).countFinish f).resolve := by
    rw [Part.resolve_releasing hw hl hf (inTakeOrder_eq hperm hsorted), Part.resolveWaiters_foldl fun i => ?_]
    exact ((hall (l.take i) (hnodup.sublist (List.take_sublist i l)) fun w hmem => List.mem_of_mem_take hmem).roomy hroomy).1
  have hends := hall l hnodup fun w hmem => hmem
  generalize l.foldl (fun r w => r.resolveWaiter f.seq f.success w) (p.releasing f.seq []) = X at *
  have hthins : p.Thins X := ⟨hends.thins.held, hends.thins.pool, hends.thins.syncs⟩
  have huncounted : X.Uncounted f := hthins.syncs.uncounted (.inr fun y hy => hcaptured y hy f.seq List.mem_cons_self)
  have hgone : ∀ w ∈ p.waitersOf f.seq, w ∉ X.waitersOf f.seq := fun w hmem =>
    hends.gone (hperm.nodup_iff.mp hnodup) w (hperm.mem_iff.mpr hmem)
  have hunwaited : X.Unwaited := fun g hg =>
    ⟨Part.waits_of_thins hthins hothers hgone g.seq,
      .inr fun y hy => hcaptured y (hthins.syncs.subset hy) g.seq (List.mem_cons_of_mem _ ((hends.finishes g hg).resolve_left List.not_mem_nil))⟩
  rw [hstep, Part.countFinish_uncounted huncounted, Part.resolve_quiet (hends.later.trans hl) hunwaited]
  exact hends.completions

/-- The completions of requests, as the statements write them. -/
theorem Part.completionsOf_filterMap {α : Type} (l : List α) (seq : α → Nat) (res : α → Result) (p : Part) :
    (l.flatMap fun x => p.completionsOf (seq x) (res x)) = l.filterMap fun x => (p.heldOf (seq x)).map fun h =>
      { slot := h.slot, unmatched := h.unmatched, result := res x, time := p.run.clock } := by
  rw [List.filterMap_eq_flatMap_toList]
  rfl

theorem Part.countedResults_eq {p : Part} {n : Nat} {ok : Bool} {complete : SyncRecord → Bool}
    (h : ∀ y : SyncRecord, complete y = true ↔ n ∈ y.waitingFor ∧ y.finished + 1 = y.captured ∧ y.pred = none) :
    p.countedResults n ok = (p.te.syncs.filter complete).map fun y => (y.seq, { outcome := .ok
                                                                                fields := [byteOf y.captured, byteOf (y.finished + 1),
                                                                                  byteOf (if ok then y.failed else y.failed + 1)] }) := by
  have hsame : SyncRecord.lastIs n ok = complete := by
    funext y
    rw [Bool.eq_iff_iff, SyncRecord.lastIs_iff, h]
  unfold Part.countedResults
  rw [hsame]
  refine List.map_congr_left fun y hy => ?_
  have hcaptured := ((h y).mp (List.of_mem_filter hy)).1
  rw [SyncRecord.count_eq, if_pos hcaptured]
  rfl

/-- Settles O56: one request that waits, by the record under which it does; a finished transaction for which none waits; several that wait. -/
theorem finishedItemReleasesItsWaiter : Obligations.FinishedItemReleasesItsWaiter := by
  refine ⟨fun p q n w success transaction hw hl hf hcount hwaiters hothers hcaptured hq => ?one,
    fun p n success complete hw hl hf hwaiters hnodup hcomplete => ?counted,
    fun p q n success transaction more l res hw hl hf hperm hsorted hq => ⟨fun hfree => ?several, fun hmore hfail hroom hothers hcaptured hskipped => ?skips⟩,
    fun _ => rfl⟩
  case one =>
    have hone : p.OneWaits ⟨n, success, transaction⟩ w := by
      refine ⟨hw, hl, hf, ?_, hwaiters, hothers, hcaptured⟩
      cases transaction with
      | false => exact .inl rfl
      | true => exact .inr (hcount rfl)
    subst hq
    refine ⟨fun h => (Part.resolve_finishes p h).2, fun x hx hp => ⟨fun hs => hone.txn_proceeds hs hx hp, fun hs => ?_⟩,
      fun y ht hy hseq hp => ⟨fun hs hmore => hone.sync_proceeds hs ht hy hseq hp hmore, fun hends => ?_⟩,
      fun h hof ho hp ht hy => ⟨fun outcome hout => ?_, fun k hs hk htransact hsync hcheck => hone.held_proceeds hof ho hp ht hy hs hk htransact hsync hcheck⟩⟩
    · obtain ⟨hte, hdone, hlog⟩ := hone.txn_skipped hs hx hp
      refine ⟨hte, fun h hof ho => ?_, fun ho => ⟨_, _, hlog ho⟩⟩
      obtain ⟨hsvc, hcompletions⟩ := hdone ho
      rw [Part.completionsOf_some hof] at hcompletions
      exact ⟨hsvc, hcompletions⟩
    · obtain ⟨hpart, hcompletions⟩ := hone.sync_ends ht hy hseq hp hends
      refine ⟨hpart, fun h hof => ?_⟩
      rw [Part.completionsOf_some hof] at hcompletions
      exact hcompletions
    · obtain rfl : h.seq = w := by simpa using List.find?_some hof
      have hr : (p.releasing n []).resolveHeld h success = (p.releasing n []).completeRequest h.seq { outcome := outcome } := by
        rcases hout with ⟨rfl, rfl⟩ | ⟨rfl, k, hk, hcheck⟩
        · exact Part.resolveHeld_fails
        · exact Part.resolveHeld_refused hk hcheck
      obtain ⟨hpart, hheld, hcompletions⟩ := hone.held_ends hof ho hp ht hy hr
      rw [Part.completionsOf_some hof] at hcompletions
      exact ⟨hpart, hheld, hcompletions⟩
  case counted =>
    obtain ⟨hpart, hregistry, hte, hcompletions⟩ := Part.resolve_counted hw hl hf rfl hwaiters hnodup
    have hkept : (fun y => !SyncRecord.lastIs n success y) = fun y => !complete y := by
      funext y
      rw [Bool.not_inj_iff, Bool.eq_iff_iff, SyncRecord.lastIs_iff, hcomplete]
    have hcountEq : SyncRecord.count n success = fun y => if n ∈ y.waitingFor then
        { y with finished := y.finished + 1, failed := if success then y.failed else y.failed + 1, waitingFor := y.waitingFor.filter (· != n) } else y := by
      funext y
      exact SyncRecord.count_eq n success y
    refine ⟨hpart, hregistry, ?_, ?_⟩
    · rw [hte]
      dsimp only
      rw [hkept, hcountEq]
    · rw [hcompletions, Part.countedResults_eq hcomplete, List.flatMap_map]
      exact congrArg _ (Part.completionsOf_filterMap _ SyncRecord.seq _ p)
  case several =>
    subst hq
    rw [Part.resolve_releasing hw hl hf (inTakeOrder_eq hperm hsorted)]
    exact congrArg Part.resolve (Part.resolveWaiters_foldl hfree)
  case skips =>
    subst hmore
    rw [Part.resolve_skips hw hl hf hfail hroom hperm hsorted hothers hcaptured hskipped]
    exact congrArg _ (Part.completionsOf_filterMap l id res p)

end Sys2Proof.Machine
end

section
/-! SUPPORT. Entries changed one after another, their mirrors rewritten and their bank bits handed on into any port (R13, R14, R20, R21, R22). -/

namespace Sys2Proof.Machine

/-! ## An entry number written into any port (R14) -/

/-- The accesses of a mirror rewrite of an entry number. -/
def Part.entryWrites (n : Nat) (new : Option Entry) (p : Part) : List Access :=
  if dirBody (p.entrySlot n).shownKey (p.entryAt n) = dirBody (p.shownWith n new) new then []
  else mirrorWrites (dirMirrorAddr p.base n) (p.entrySlot n).version (dirBody (p.shownWith n new) new)

theorem State.entryMirror_eq (s : State) (n : Nat) (new : Option Entry) : s.entryMirror n new = s.part.entryWrites n new := rfl

/-- R1, R14: an entry number as it stands once it has its new content. -/
def Part.slotWith (n : Nat) (new : Option Entry) (p : Part) : EntrySlot :=
  { version := if dirBody (p.entrySlot n).shownKey (p.entryAt n) = dirBody (p.shownWith n new) new then (p.entrySlot n).version
               else (p.entrySlot n).version + 2
    shownKey := p.shownWith n new, entry := new }

/-- R14: how a change of an entry number is raised. -/
theorem Part.putEntry_raise {n : Nat} (hn : n < 192) (new : Option Entry) (f : Bool) (p : Part) :
    ∃ v : Vector EntrySlot 192, p.putEntry n new f = Part.raise .directoryEngine ((p.entryWrites n new).map Item.access ++
      if f then [.hand (.bankBit .directory n)] else []) { p with dir := { p.dir with slots := v } } := by
  have hwrites : p.entryWrites n new = if dirBody (p.entrySlot n).shownKey (p.entrySlot n).entry != dirBody (p.shownWith n new) new then
      mirrorWrites (dirMirrorAddr p.base n) (p.entrySlot n).version (dirBody (p.shownWith n new) new) else [] := by
    unfold Part.entryWrites
    by_cases e : dirBody (p.entrySlot n).shownKey (p.entryAt n) = dirBody (p.shownWith n new) new
    · rw [if_pos e, if_neg (by rw [bne_iff_ne, not_not]; exact e)]
    · rw [if_neg e, if_pos (by rw [bne_iff_ne]; exact e)]
  rw [hwrites]
  unfold Part.putEntry
  rw [if_pos (by exact hn)]
  cases new with
  | none => exact ⟨_, rfl⟩
  | some e => exact ⟨_, rfl⟩

theorem Part.putEntry_mirror {n : Nat} (hn : n < 192) (new : Option Entry) (f : Bool) (p : Part) :
    (p.port.ofBlock .directoryEngine ++ p.entryWrites n new).Sublist ((p.putEntry n new f).port.ofBlock .directoryEngine) := by
  obtain ⟨v, hv⟩ := Part.putEntry_raise hn new f p
  rw [hv]
  exact Part.raise_ofBlock .directoryEngine (p.entryWrites n new) (bitItems_handed _ _ _) { p with dir := { p.dir with slots := v } }

theorem Part.putEntry_svc {n : Nat} (hn : n < 192) (new : Option Entry) (f : Bool) (p : Part) :
    (p.putEntry n new f).svc = { p.svc with bankQueue := (p.putEntry n new f).svc.bankQueue } := by
  obtain ⟨v, hv⟩ := Part.putEntry_raise hn new f p
  rw [hv]
  exact (Part.raise_svc .directoryEngine (p.entryWrites n new) f .directory n { p with dir := { p.dir with slots := v } }).1

theorem Part.putEntry_bit {n : Nat} (hn : n < 192) (new : Option Entry) (p : Part) :
    p.BitOn (p.putEntry n new true) .directoryEngine .directory n := by
  obtain ⟨v, hv⟩ := Part.putEntry_raise hn new true p
  rw [hv]
  exact Part.raise_bit .directoryEngine (p.entryWrites n new) .directory n { p with dir := { p.dir with slots := v } }

theorem Part.putEntry_nobit {n : Nat} (hn : n < 192) (new : Option Entry) (p : Part) :
    (p.putEntry n new false).svc.bankQueue = p.svc.bankQueue := by
  obtain ⟨v, hv⟩ := Part.putEntry_raise hn new false p
  rw [hv]
  exact (Part.raise_svc .directoryEngine (p.entryWrites n new) false .directory n { p with dir := { p.dir with slots := v } }).2 rfl

theorem Part.putEntry_slotWith {n : Nat} (hn : n < 192) (new : Option Entry) (f : Bool) (p : Part) (i : Nat) :
    (p.putEntry n new f).entrySlot i = if i = n then p.slotWith n new else p.entrySlot i := Part.putEntry_slot n new f p hn i

/-! ## Entries changed one after another -/

/-- A change of entries: the new content, and whether it notifies. -/
structure EntryEdit where
  new : Entry → Option Entry
  notifies : Entry → Bool

/-- An entry number is changed; nothing happens at a vacant one. -/
def Part.editEntry (d : EntryEdit) (n : Nat) (p : Part) : Part :=
  match p.entryAt n with
  | some e => p.putEntry n (d.new e) (d.notifies e)
  | none => p

/-- The entry numbers of a list are changed in its order. -/
def Part.editEach (d : EntryEdit) (l : List Nat) (p : Part) : Part := l.foldl (fun q n => q.editEntry d n) p

/-- What a change of an entry number writes to its mirror. -/
def Part.editWrites (d : EntryEdit) (n : Nat) (p : Part) : List Access := ((p.entryAt n).map fun e => p.entryWrites n (d.new e)).getD []

theorem Part.editEntry_some {d : EntryEdit} {n : Nat} {p : Part} {e : Entry} (h : p.entryAt n = some e) :
    p.editEntry d n = p.putEntry n (d.new e) (d.notifies e) := by
  unfold Part.editEntry
  rw [h]

theorem Part.editEntry_none {d : EntryEdit} {n : Nat} {p : Part} (h : p.entryAt n = none) : p.editEntry d n = p := by
  unfold Part.editEntry
  rw [h]

theorem Part.editWrites_some {d : EntryEdit} {n : Nat} {p : Part} {e : Entry} (h : p.entryAt n = some e) :
    p.editWrites d n = p.entryWrites n (d.new e) := by
  unfold Part.editWrites
  rw [h]
  rfl

theorem Part.editWrites_none {d : EntryEdit} {n : Nat} {p : Part} (h : p.entryAt n = none) : p.editWrites d n = [] := by
  unfold Part.editWrites
  rw [h]
  rfl

/-- What the changes of the entry numbers of `l` leave. -/
structure Part.Edited (p q : Part) (d : EntryEdit) (l : List Nat) : Prop where
  part : q = { p with dir := q.dir, svc := q.svc, port := q.port }
  svc : q.svc = { p.svc with bankQueue := q.svc.bankQueue }
  works : p.Serves q
  calm : p.Calm q
  slot : ∀ i ∈ l, ∀ e, p.entryAt i = some e → q.entrySlot i = p.slotWith i (d.new e)
  kept : ∀ i, i ∉ l ∨ p.entryAt i = none → q.entrySlot i = p.entrySlot i
  shows : (p.port.ofBlock .directoryEngine ++ l.flatMap fun n => p.editWrites d n).Sublist (q.port.ofBlock .directoryEngine)
  bit : ∀ i ∈ l, ∀ e, p.entryAt i = some e → d.notifies e = true → p.BitOn q .directoryEngine .directory i
  silent : (∀ i ∈ l, ∀ e, p.entryAt i = some e → d.notifies e = false) → q.svc.bankQueue = p.svc.bankQueue

theorem Part.Edited.refl (p : Part) (d : EntryEdit) : p.Edited p d [] :=
  ⟨rfl, rfl, .refl p, .refl p, fun _ h => absurd h List.not_mem_nil, fun _ _ => rfl, by simp, fun _ h => absurd h List.not_mem_nil, fun _ => rfl⟩

theorem Part.editEntry_edited {d : EntryEdit} {n : Nat} (hn : n < 192) (p : Part) : p.Edited (p.editEntry d n) d [n] := by
  have hwrites : ([n].flatMap fun m => p.editWrites d m) = p.editWrites d n := List.append_nil _
  cases h : p.entryAt n with
  | none =>
    rw [Part.editEntry_none h]
    refine ⟨rfl, rfl, .refl p, .refl p, fun i hi e he => ?_, fun _ _ => rfl, ?_, fun i hi e he => ?_, fun _ => rfl⟩
    · rw [List.mem_singleton.mp hi, h] at he
      exact absurd he (by simp)
    · rw [hwrites, Part.editWrites_none h, List.append_nil]
    · rw [List.mem_singleton.mp hi, h] at he
      exact absurd he (by simp)
  | some e =>
    rw [Part.editEntry_some h]
    refine ⟨p.putEntry_eq _ _ _, p.putEntry_svc hn _ _, p.putEntry_serves _ _ _, p.putEntry_calm _ _ _, fun i hi e' he => ?_, fun i hi => ?_, ?_,
      fun i hi e' he hbit => ?_, fun hall => ?_⟩
    · obtain rfl := List.mem_singleton.mp hi
      obtain rfl := Option.some.inj (h.symm.trans he)
      exact (p.putEntry_slotWith hn _ _ i).trans (if_pos rfl)
    · refine (p.putEntry_slotWith hn _ _ i).trans (if_neg ?_)
      rintro rfl
      exact hi.elim (fun hi => hi List.mem_cons_self) fun hi => by rw [h] at hi; exact absurd hi (by simp)
    · rw [hwrites, Part.editWrites_some h]
      exact p.putEntry_mirror hn _ _
    · obtain rfl := List.mem_singleton.mp hi
      obtain rfl := Option.some.inj (h.symm.trans he)
      rw [hbit]
      exact p.putEntry_bit hn _
    · rw [hall n List.mem_cons_self e h]
      exact p.putEntry_nobit hn _

theorem Part.Edited.trans {p q r : Part} {d : EntryEdit} {l m : List Nat} (h : p.Edited q d l) (h' : q.Edited r d m) (hdisjoint : ∀ i ∈ m, i ∉ l) :
    p.Edited r d (l ++ m) := by
  have hslot : ∀ i ∈ m, q.entrySlot i = p.entrySlot i := fun i hi => h.kept i (.inl (hdisjoint i hi))
  have hentry : ∀ i ∈ m, q.entryAt i = p.entryAt i := fun i hi => by rw [Part.entryAt, Part.entryAt, hslot i hi]
  have hwith : ∀ i ∈ m, ∀ new, q.slotWith i new = p.slotWith i new := fun i hi new => by
    unfold Part.slotWith Part.shownWith
    rw [hslot i hi, hentry i hi]
  have hwrites : (m.flatMap fun n => q.editWrites d n) = m.flatMap fun n => p.editWrites d n := List.flatMap_congr fun i hi => by
    unfold Part.editWrites Part.entryWrites Part.shownWith
    rw [hslot i hi, hentry i hi, h.works.toWorks.base]
  refine ⟨?_, ?_, h.works.trans h'.works, h.calm.trans h'.calm, fun i hi e he => ?_, fun i hi => ?_, ?_, fun i hi e he hbit => ?_, fun hall => ?_⟩
  · rw [h'.part, h.part]
  · rw [h'.svc, h.svc]
  · by_cases him : i ∈ m
    · rw [h'.slot i him e ((hentry i him).trans he), hwith i him]
    · rw [h'.kept i (.inl him)]
      exact h.slot i ((List.mem_append.mp hi).resolve_right him) e he
  · have hiq : i ∉ l ∨ p.entryAt i = none := hi.imp_left fun hi hl => hi (List.mem_append_left _ hl)
    have hq := h.kept i hiq
    refine (h'.kept i ?_).trans hq
    exact hi.imp (fun hi hm => hi (List.mem_append_right _ hm)) fun hi => by rw [Part.entryAt, hq]; exact hi
  · rw [List.flatMap_append, ← hwrites, ← List.append_assoc]
    exact (h.shows.append (List.Sublist.refl _)).trans h'.shows
  · by_cases him : i ∈ m
    · exact .after h.works.toWorks (h'.bit i him e ((hentry i him).trans he) hbit)
    · exact (h.bit i ((List.mem_append.mp hi).resolve_right him) e he hbit).works h'.works.toWorks
  · rw [h'.silent fun i hi e he => hall i (List.mem_append_right _ hi) e ((hentry i hi).symm.trans he),
      h.silent fun i hi e he => hall i (List.mem_append_left _ hi) e he]

theorem Part.editEach_edited {d : EntryEdit} {l : List Nat} (hl : l.Nodup) (hn : ∀ n ∈ l, n < 192) (p : Part) : p.Edited (p.editEach d l) d l := by
  induction l generalizing p with
  | nil => exact .refl p d
  | cons n rest ih =>
    obtain ⟨hnot, hrest⟩ := List.nodup_cons.mp hl
    exact (p.editEntry_edited (hn n List.mem_cons_self)).trans (ih hrest (fun m hm => hn m (List.mem_cons_of_mem _ hm)) _)
      fun i hi e => hnot (List.mem_singleton.mp e ▸ hi)

/-! ## The entries that fit a test -/

theorem Part.entriesWhere_nodup (f : Entry → Bool) (p : Part) : (p.entriesWhere f).Nodup := List.nodup_range.sublist List.filter_sublist

theorem Part.mem_entriesWhere {f : Entry → Bool} {p : Part} {n : Nat} : n ∈ p.entriesWhere f ↔ n < 192 ∧ ∃ e, p.entryAt n = some e ∧ f e = true := by
  unfold Part.entriesWhere
  rw [List.mem_filter, mem_entryNumbers]
  refine and_congr_right fun _ => ?_
  cases p.entryAt n <;> simp

theorem Part.entriesWhere_congr {p q : Part} (h : ∀ i, q.entrySlot i = p.entrySlot i) (f : Entry → Bool) : q.entriesWhere f = p.entriesWhere f := by
  simp only [Part.entriesWhere, Part.entryAt, h]

/-- Only the 192 numbers have an entry. -/
theorem Part.entryAt_lt {p : Part} {n : Nat} {e : Entry} (h : p.entryAt n = some e) : n < 192 := by
  by_contra hn
  have hout : p.dir.slots[n]? = none := Vector.getElem?_eq_none (by omega)
  rw [Part.entryAt, Part.entrySlot, hout] at h
  exact absurd h (by simp)

/-- What the change of the entries that fit a test leaves. -/
theorem Part.editWhere_edited (d : EntryEdit) (f : Entry → Bool) (p : Part) : p.Edited (p.editEach d (p.entriesWhere f)) d (p.entriesWhere f) :=
  Part.editEach_edited (p.entriesWhere_nodup f) (fun _ hn => (Part.mem_entriesWhere.mp hn).1) p

/-- A change that the entries of one kind make: it is the same whether or not what decides it is read at its time. -/
theorem Part.foldl_editEach {p : Part} {g : Nat → Part → Part} {d : EntryEdit} (h : ∀ n q, q.run = p.run → g n q = q.editEntry d n)
    (l : List Nat) (hn : ∀ n ∈ l, n < 192) :
    l.foldl (fun q n => g n q) p = p.editEach d l := by
  have hgen : ∀ (m : List Nat) (q : Part), (∀ n ∈ m, n < 192) → q.run = p.run → m.foldl (fun q n => g n q) q = q.editEach d m := by
    intro m
    induction m with
    | nil => intro q _ _; rfl
    | cons n rest ih =>
      intro q hm hq
      rw [List.foldl_cons, h n q hq]
      exact ih _ (fun k hk => hm k (List.mem_cons_of_mem _ hk)) ((q.editEntry_edited (hm n List.mem_cons_self)).calm.run.trans hq)
  exact hgen l p hn rfl

end Sys2Proof.Machine
end

section
/-! SUPPORT. Transactions that finish one after another with one outcome (R85, R98, R105, R106). -/

namespace Sys2Proof.Machine

/-- R85: what the transactions of `l` leave, once they have finished with `o`, their tokens freed. -/
structure Part.AllEnd (p q : Part) (l : List Transaction) (o : ReqOutcome) : Prop where
  works : p.Serves q
  calm : p.Calm q
  um : q.um = p.um
  dir : q.dir = p.dir
  jw : q.jw = p.jw
  svc : q.svc = { p.svc with nextFault := q.svc.nextFault, ringIndex := q.svc.ringIndex }
  te : q.te = { p.te with pool := p.te.pool.filter fun x => !(l.map (·.seq)).contains x.seq }
  board : q.board = { p.board with
    held := q.board.held, finishes := p.board.finishes ++ l.map (fun x => ⟨x.seq, o == .ok, true⟩), completions := q.board.completions }
  held : q.board.held.Sublist p.board.held
  heldOf : ∀ m, (∀ x ∈ l, x.seq ≠ m) → q.heldOf m = p.heldOf m
  shows : ∀ x ∈ l, x.origin.isSome = true → ∀ h, p.heldOf x.seq = some h → p.Shows q (h.completion (x.result { outcome := o }) p.run.clock)
  quiet : (∀ x ∈ l, x.origin.isSome = true) → q.svc = p.svc
  logs : o ≠ .ok → p.port.waits .transactionEngine = false → ∀ x ∈ l, x.origin = none → ∃ (index : Nat) (seq : Word),
    (faultWrites p.base index seq (x.lateFailure { outcome := o }) p.run.clock).Sublist q.port.outstanding

theorem Part.AllEnd.refl (p : Part) (o : ReqOutcome) : p.AllEnd p [] o where
  works := .refl p
  calm := .refl p
  um := rfl
  dir := rfl
  jw := rfl
  svc := rfl
  te := by
    have hall : (p.te.pool.filter fun x => !(([] : List Transaction).map (·.seq)).contains x.seq) = p.te.pool := List.filter_eq_self.mpr fun _ _ => rfl
    rw [hall]
  board := by rw [List.map_nil, List.append_nil]
  held := List.Sublist.refl _
  heldOf := fun _ _ => rfl
  shows := fun _ h => absurd h List.not_mem_nil
  quiet := fun _ => rfl
  logs := fun _ _ _ h => absurd h List.not_mem_nil

/-- One transaction finishes, and then those of the rest. -/
theorem Part.TxnEnds.allEnd {p q r : Part} {x : Transaction} {l : List Transaction} {o : ReqOutcome} (h : p.TxnEnds q x { outcome := o })
    (h' : q.AllEnd r l o) (hne : ∀ y ∈ l, y.seq ≠ x.seq) : p.AllEnd r (x :: l) o := by
  have hum : q.um = p.um := h.frees fun _ _ he => absurd he (by simp)
  have hrun : q.run = p.run := h.calm.run
  refine ⟨h.works.trans h'.works, h.calm.trans h'.calm, h'.um.trans hum, h'.dir.trans h.dir, h'.jw.trans h.jw, ?svc, ?te, ?board, h'.held.trans h.held,
    fun m hm => ?heldOf, fun y hy ho z hz => ?shows, fun hall => ?quiet, fun ho hte y hy hyo => ?logs⟩
  case svc => rw [h'.svc, h.svc]
  case te =>
    rw [h'.te, h.te]
    dsimp only
    rw [List.filter_filter]
    congr 2
    funext y
    by_cases hy : y.seq = x.seq <;> simp [hy]
  case board =>
    rw [h'.board, h.board, List.map_cons]
    simp
  case heldOf =>
    rw [h'.heldOf m fun y hy => hm y (List.mem_cons_of_mem _ hy), h.heldOf m (Ne.symm (hm x List.mem_cons_self))]
  case shows =>
    rcases List.mem_cons.mp hy with rfl | hy
    · exact (h.shows ho z hz).after h'.works.toWorks
    · have hrest := h'.shows y hy ho z ((h.heldOf y.seq (hne y hy)).trans hz)
      rw [hrun] at hrest
      exact hrest.before h.works.toWorks
  case quiet => rw [h'.quiet fun y hy => hall y (List.mem_cons_of_mem _ hy), h.quiet (.inl (hall x List.mem_cons_self))]
  case logs =>
    rcases List.mem_cons.mp hy with rfl | hy
    · exact ⟨_, _, (h.logs hyo ho rfl hte).trans h'.works.port.outstanding⟩
    · have hrest := h'.logs ho (h.works.port.engine hte) y hy hyo
      rw [h.works.toWorks.base, hrun] at hrest
      exact hrest

theorem Part.finishAll_ends {l : List Transaction} {o : ReqOutcome} (hl : (l.map (·.seq)).Nodup) {p : Part}
    (hp : ∀ x ∈ l, ∃ y ∈ p.te.pool, y.seq = x.seq) : p.AllEnd (p.finishAll l o) l o := by
  induction l generalizing p with
  | nil => exact .refl p o
  | cons x rest ih =>
    rw [List.map_cons, List.nodup_cons] at hl
    have hne : ∀ y ∈ rest, y.seq ≠ x.seq := fun y hy e => hl.1 (e ▸ List.mem_map_of_mem hy)
    have hfirst := Part.finishTxn_ends (hp x List.mem_cons_self) { outcome := o }
    refine hfirst.allEnd (ih hl.2 fun y hy => ?_) hne
    obtain ⟨z, hz, hseq⟩ := hp y (List.mem_cons_of_mem _ hy)
    refine ⟨z, ?_, hseq⟩
    rw [hfirst.te]
    exact List.mem_filter.mpr ⟨hz, by simpa [hseq] using hne y hy⟩

/-- The transactions that fit a test. -/
theorem Part.finishWhere_ends {f : Transaction → Bool} {o : ReqOutcome} {p : Part} (hnodup : (p.te.pool.map (·.seq)).Nodup) :
    p.AllEnd (p.finishAll (p.te.pool.filter f) o) (p.te.pool.filter f) o ∧
    (p.finishAll (p.te.pool.filter f) o).te = { p.te with pool := p.te.pool.filter fun x => !f x } := by
  have hends := Part.finishAll_ends (p := p) (o := o) (hnodup.sublist ((List.filter_sublist (p := f)).map _)) fun x hx => ⟨x, List.mem_of_mem_filter hx, rfl⟩
  refine ⟨hends, hends.te.trans ?_⟩
  have hkept : (p.te.pool.filter fun x => !((p.te.pool.filter f).map (·.seq)).contains x.seq) = p.te.pool.filter fun x => !f x := by
    refine List.filter_congr fun x hx => ?_
    rw [Bool.not_inj_iff, Bool.eq_iff_iff, List.contains_iff_mem, List.mem_map]
    constructor
    · rintro ⟨y, hy, hseq⟩
      rw [← List.inj_on_of_nodup_map hnodup (List.mem_of_mem_filter hy) hx hseq]
      exact List.of_mem_filter hy
    · exact fun hfx => ⟨x, List.mem_filter.mpr ⟨hx, hfx⟩, rfl⟩
  rw [hkept]

end Sys2Proof.Machine
end

section
/-! SUPPORT. A generation change (R22, R37 to R39, R50, R105). -/

namespace Sys2Proof.Machine

/-! ## The unit's part -/

/-- R38: the record of a generation change. -/
def generationRecord (a : Nat) (old new : BitVec 3) : FaultRecord :=
  { kind := .unitChanged, unit := a, tag := 0, detail := 0, detailHigh := 0, word1 := old.setWidth 32, word2 := new.setWidth 32 }

theorem FieldUnit.changedEvent_generation (now : Word) (u : FieldUnit) :
    (u.changedEvent now).generation = u.generation ∧ (u.changedEvent now).lastAccepted = u.lastAccepted := by
  unfold FieldUnit.changedEvent
  split
  · split
    · exact ⟨rfl, rfl⟩
    · split <;> exact ⟨rfl, rfl⟩
    · split <;> exact ⟨rfl, rfl⟩
  · exact ⟨rfl, rfl⟩

/-- R38: the unit behind a generation change. -/
def FieldUnit.changed (new : BitVec 3) (now : Word) (u : FieldUnit) : FieldUnit := FieldUnit.changedEvent now { u with generation := some new }

/-- R38: the record and the unit's mirror are written. -/
def Part.storeGeneration (a : Nat) (u : FieldUnit) (old new : BitVec 3) (p : Part) : Part :=
  (p.takeFault (generationRecord a old new)).putUnit a (some (u.changed new p.run.clock)) true

theorem Part.judgeGeneration_other {p : Part} (hw : p.port.waiting = []) {a : Nat} {u : FieldUnit} {old new : BitVec 3} (hu : p.unitAt a = some u)
    (hl : u.link ≠ .departing) (hg : u.generation = some old) (hne : old ≠ new) :
    p.judgeGeneration a new = (p.storeGeneration a u old new).onceFree (.unitChange a) (Part.noticeUnitChange a) := by
  unfold Part.judgeGeneration
  rw [hu]
  dsimp only
  rw [hg]
  dsimp only
  rw [if_neg (fun h => h.elim hl hne)]
  unfold Part.changeGeneration
  dsimp only
  rw [Part.raise_fault hw]
  rfl

/-- What the record and the unit's mirror leave. -/
structure Part.GenerationStored (p q : Part) (a : Nat) (u : FieldUnit) (old new : BitVec 3) : Prop where
  works : p.Serves q
  calm : p.Calm q
  te : q.te = p.te
  dir : q.dir = p.dir
  jw : q.jw = p.jw
  board : q.board = p.board
  ring : q.svc.ringIndex = (p.svc.ringIndex + 1) % 32
  slot : ∀ b, q.unitSlot b = if b = a then { version := (p.unitSlot a).version + 2, place := some (u.changed new p.run.clock) } else p.unitSlot b
  shows : (mirrorWrites (unitMirrorAddr p.base a) (p.unitSlot a).version (unitBody (some (u.changed new p.run.clock)))).Sublist
    (q.port.ofBlock .unitManager)
  bit : p.BitOn q .unitManager .unit a
  logs : (faultWrites p.base p.svc.ringIndex p.svc.nextFault (generationRecord a old new) p.run.clock).Sublist q.port.outstanding
  first : p.port.Fits (faultWrites p.base p.svc.ringIndex p.svc.nextFault (generationRecord a old new) p.run.clock) →
    p.port.fifo ++ faultWrites p.base p.svc.ringIndex p.svc.nextFault (generationRecord a old new) p.run.clock <+: q.port.fifo
  fits : p.port.Fits (faultWrites p.base p.svc.ringIndex p.svc.nextFault (generationRecord a old new) p.run.clock ++
      (mirrorWrites (unitMirrorAddr p.base a) (p.unitSlot a).version (unitBody (some (u.changed new p.run.clock))) ++ p.bankBitRead .unit a)) →
    q.port = p.port.with (faultWrites p.base p.svc.ringIndex p.svc.nextFault (generationRecord a old new) p.run.clock ++
      (mirrorWrites (unitMirrorAddr p.base a) (p.unitSlot a).version (unitBody (some (u.changed new p.run.clock))) ++ p.bankBitRead .unit a))

theorem Part.storeGeneration_stored {p : Part} {a : Nat} {u : FieldUnit} {old new : BitVec 3} (ha : 1 ≤ a ∧ a ≤ 30) (hu : p.unitAt a = some u)
    (hg : u.generation = some old) (hne : old ≠ new) : p.GenerationStored (p.storeGeneration a u old new) a u old new := by
  let P : Part := p.takeFault (generationRecord a old new)
  let v : FieldUnit := u.changed new p.run.clock
  have hP := p.takeFault_serves (generationRecord a old new)
  have hPcalm := p.takeFault_calm (generationRecord a old new)
  obtain ⟨hrun, hte, hline, hum, hdir, hjw⟩ := p.takeFault_owners (generationRecord a old new)
  obtain ⟨hb, ht, hd, hj, -⟩ := P.putUnit_frame a (some v) true
  have hunit : P.unitAt a = some u := hu
  have hbit : unitBitChange (P.unitAt a) (some v) = true := by
    have hv : v.generation = some new := (FieldUnit.changedEvent_generation _ _).1
    rw [hunit]
    simp [unitBitChange, hg, hv, hne]
  have hwrites : P.unitWrites a (some v) true = mirrorWrites (unitMirrorAddr p.base a) (p.unitSlot a).version (unitBody (some v)) := by
    rw [Part.unitWrites_always, hP.toWorks.base]
    rfl
  have hmirror := Part.putUnit_mirror ha (some v) true P
  rw [hwrites] at hmirror
  refine ⟨hP.trans (P.putUnit_serves _ _ _), hPcalm.trans (P.putUnit_calm _ _ _), ht.trans hte, hd.trans hdir, hj.trans hjw, hb, ?ring, fun b => ?slot,
    (List.sublist_append_right _ _).trans hmirror, ?bit, ?logs, fun hfits => ?first, fun hfits => ?fits⟩
  case ring =>
    have hsvc := P.putUnit_svc a (some v) true
    show (P.putUnit a (some v) true).svc.ringIndex = _
    rw [hsvc]
    rfl
  case slot =>
    refine (Part.putUnit_slot _ _ _ _ ha b).trans ?_
    rfl
  case bit => exact .after hP.toWorks (P.putUnit_bit ha hbit true)
  case logs =>
    have hsub : (faultWrites p.base p.svc.ringIndex p.svc.nextFault (generationRecord a old new) p.run.clock).Sublist P.port.outstanding :=
      WindowPort.submit_sublist _ _ _
    exact hsub.trans (P.putUnit_serves a (some v) true).port.outstanding
  case first =>
    have htake := Part.takeFault_fits hfits
    have hfifo : p.port.fifo ++ faultWrites p.base p.svc.ringIndex p.svc.nextFault (generationRecord a old new) p.run.clock = P.port.fifo := by
      show _ = (p.takeFault (generationRecord a old new)).port.fifo
      rw [htake]
      rfl
    rw [hfifo]
    exact (P.putUnit_serves a (some v) true).port.fifo
  case fits =>
    obtain ⟨hfault, hmore⟩ := WindowPort.fits_append hfits
    have htake := Part.takeFault_fits hfault
    have hport : P.port = p.port.with (faultWrites p.base p.svc.ringIndex p.svc.nextFault (generationRecord a old new) p.run.clock) := by
      show (p.takeFault (generationRecord a old new)).port = _
      rw [htake]
    have hread : P.bankBitRead .unit a = p.bankBitRead .unit a := rfl
    have haccesses : P.unitAccesses a (some v) true =
        mirrorWrites (unitMirrorAddr p.base a) (p.unitSlot a).version (unitBody (some v)) ++ p.bankBitRead .unit a := by
      rw [← hwrites, ← hread]
      show P.unitWrites a (some v) true ++ (if unitBitChange (P.unitAt a) (some v) then P.bankBitRead .unit a else []) = _
      rw [hbit, if_pos rfl]
    have hput := (Part.putUnit_fits a (some v) true P ha (by rw [haccesses, hport]; exact hmore)).1
    rw [haccesses, hport, WindowPort.with_with] at hput
    exact hput

/-! ## The notice -/

/-- R105: a unit whose tokens are dropped. -/
def FieldUnit.dropTokens (u : FieldUnit) : FieldUnit := { u with reservations := [], pendingAck := none, lastAccepted := none }

theorem FieldUnit.dropTokens_bit (u : FieldUnit) : unitBitChange (some u) (some u.dropTokens) = false := unitBitChange_shown rfl rfl rfl rfl rfl

/-- R40: a unit shows that it has a last accepted token. -/
theorem unitBody_dropTokens {u : FieldUnit} : unitBody (some u) = unitBody (some u.dropTokens) ↔ u.lastAccepted = none := by
  constructor
  · intro h
    have hbyte := congrArg (fun l => byteAt l 3) h
    have hflag : boolByte u.generation.isSome ||| boolByte u.lastAccepted.isSome <<< 1 = boolByte u.generation.isSome ||| boolByte false <<< 1 := hbyte
    cases hl : u.lastAccepted with
    | none => rfl
    | some k =>
      rw [hl, Option.isSome_some] at hflag
      generalize u.generation.isSome = known at hflag
      cases known <;> exact absurd hflag (by decide)
  · intro h
    have hbody : unitBody (some u.dropTokens) = unitBody (some { u with lastAccepted := none }) := rfl
    rw [hbody, ← h]

/-- R22: an entry as change-clear leaves it. -/
def changeClearEdit (now : Word) : EntryEdit where
  new e := some { e with
    content := none, state := .awaiting, firstAfterChange := true
    staleTimer := if e.policies.maxInterval = 0 then none else some now }
  notifies e := e.clearNotifies

/-- R22: the entries that change-clear takes. -/
def changeCleared (a : Nat) (e : Entry) : Bool := e.key.unit == a && e.policies.change == .clear

theorem Part.changeClearUnit_eq (a : Nat) (p : Part) :
    p.changeClearUnit a = p.editEach (changeClearEdit p.run.clock) (p.entriesWhere (changeCleared a)) :=
  Part.foldl_editEach (g := Part.changeClear) (fun n q hq => by
    unfold Part.changeClear Part.editEntry
    rw [← hq]
    rfl) _ fun _ hn => (Part.mem_entriesWhere.mp hn).1

/-- What the notice leaves. -/
structure Part.ChangeNoticed (p q : Part) (a : Nat) (v : FieldUnit) : Prop where
  works : p.Serves q
  calm : p.Calm q
  jw : q.jw = p.jw
  te : q.te = { p.te with pool := p.te.pool.filter fun y => !(y.unit == a && y.state == .deferred) }
  board : q.board = { p.board with
    held := q.board.held
    finishes := p.board.finishes ++ (p.te.pool.filter fun y => y.unit == a && y.state == .deferred).map fun y => ⟨y.seq, false, true⟩
    completions := q.board.completions }
  held : q.board.held.Sublist p.board.held
  heldOf : ∀ m, (∀ y ∈ p.te.pool.filter fun y => y.unit == a && y.state == .deferred, y.seq ≠ m) → q.heldOf m = p.heldOf m
  slot : ∀ b, q.unitSlot b = if b = a then
    { version := if v.lastAccepted = none then (p.unitSlot a).version else (p.unitSlot a).version + 2, place := some v.dropTokens } else p.unitSlot b
  shows : (p.port.ofBlock .unitManager ++ if v.lastAccepted = none then [] else
    mirrorWrites (unitMirrorAddr p.base a) (p.unitSlot a).version (unitBody (some v.dropTokens))).Sublist (q.port.ofBlock .unitManager)
  fails : p.port.waits .transactionEngine = false → ∀ y ∈ p.te.pool, y.unit = a → y.state = .deferred → y.origin = none →
    ∃ (index : Nat) (seq : Word), (faultWrites p.base index seq (y.lateFailure { outcome := .unitChanged }) p.run.clock).Sublist q.port.outstanding
  quiet : (∀ y ∈ p.te.pool, y.unit = a → y.state = .deferred → y.origin.isSome = true) → q.svc.ringIndex = p.svc.ringIndex
  completes : ∀ y ∈ p.te.pool, y.unit = a → y.state = .deferred → y.origin.isSome = true → ∀ h, p.heldOf y.seq = some h →
    p.Shows q (h.completion (y.result { outcome := .unitChanged }) p.run.clock)
  entry : ∀ i e, p.entryAt i = some e → changeCleared a e = true →
    q.entrySlot i = p.slotWith i ((changeClearEdit p.run.clock).new e) ∧ (p.entryWrites i ((changeClearEdit p.run.clock).new e)).Sublist q.port.outstanding ∧
    (e.clearNotifies = true → p.BitOn q .directoryEngine .directory i)
  kept : ∀ i, (∀ e, p.entryAt i = some e → changeCleared a e = false) → q.entrySlot i = p.entrySlot i

theorem Part.noticeUnitChange_noticed {p : Part} {a : Nat} {v : FieldUnit} (ha : 1 ≤ a ∧ a ≤ 30) (hv : p.unitAt a = some v)
    (hnodup : (p.te.pool.map (·.seq)).Nodup) : p.ChangeNoticed (p.noticeUnitChange a) a v := by
  let f : Transaction → Bool := fun y => y.unit == a && y.state == .deferred
  have hlist : (p.unitQueue a).filter (fun t => t.state == .deferred) = p.te.pool.filter f := by
    unfold Part.unitQueue
    rw [List.filter_filter]
    exact List.filter_congr fun y _ => Bool.and_comm _ _
  obtain ⟨hends, hte⟩ := Part.finishWhere_ends (f := f) (o := .unitChanged) hnodup
  have hfailed : p.failDeferred a = (p.finishAll (p.te.pool.filter f) .unitChanged).updateUnit a FieldUnit.dropTokens := by
    unfold Part.failDeferred
    rw [hlist]
    rfl
  generalize hQ : p.finishAll (p.te.pool.filter f) .unitChanged = Q at *
  have hunit : Q.unitAt a = some v := by rw [Part.unitAt, Part.unitSlot, hends.um]; exact hv
  have hslotQ : ∀ b, Q.unitSlot b = p.unitSlot b := fun b => by rw [Part.unitSlot, hends.um]; rfl
  have hput : p.failDeferred a = Q.putUnit a (some v.dropTokens) false := by
    rw [hfailed]
    unfold Part.updateUnit
    rw [hunit]
  obtain ⟨hb, ht, hd, hj, -⟩ := Q.putUnit_frame a (some v.dropTokens) false
  have hputServes := Q.putUnit_serves a (some v.dropTokens) false
  have hputCalm := Q.putUnit_calm a (some v.dropTokens) false
  have hmirror := Part.putUnit_mirror ha (some v.dropTokens) false Q
  have hslot := fun b => Part.putUnit_slot a (some v.dropTokens) false Q ha b
  have hputSvc := Q.putUnit_svc a (some v.dropTokens) false
  have hnotice : p.noticeUnitChange a = (Q.putUnit a (some v.dropTokens) false).changeClearUnit a := by rw [← hput]; rfl
  have hwrites : Q.unitWrites a (some v.dropTokens) false = if v.lastAccepted = none then [] else
      mirrorWrites (unitMirrorAddr p.base a) (p.unitSlot a).version (unitBody (some v.dropTokens)) := by
    unfold Part.unitWrites
    rw [hunit, hends.works.toWorks.base, hslotQ]
    by_cases h : v.lastAccepted = none
    · rw [if_pos h, if_neg (by simpa using unitBody_dropTokens.mpr h)]
    · rw [if_neg h, if_pos (by simpa using fun e => h (unitBody_dropTokens.mp e))]
  rw [hwrites] at hmirror
  rw [hnotice, Part.changeClearUnit_eq]
  generalize hR : Q.putUnit a (some v.dropTokens) false = R at *
  have hdirR : ∀ i, R.entrySlot i = p.entrySlot i := fun i => by rw [Part.entrySlot, hd, hends.dir]; rfl
  have hentryR : ∀ i, R.entryAt i = p.entryAt i := fun i => by rw [Part.entryAt, Part.entryAt, hdirR]
  have hclock : R.run.clock = p.run.clock := by rw [hputCalm.run, hends.calm.run]
  have hserves := hends.works.trans hputServes
  have hedit := R.editWhere_edited (changeClearEdit R.run.clock) (changeCleared a)
  rw [hclock] at hedit ⊢
  generalize R.editEach (changeClearEdit p.run.clock) (R.entriesWhere (changeCleared a)) = S at *
  have hteS : S.te = R.te := by rw [hedit.part]
  have hboardS : S.board = R.board := by rw [hedit.part]
  have hum : ∀ b, S.unitSlot b = R.unitSlot b := fun b => by rw [hedit.part]; rfl
  have hwith : ∀ i new, R.slotWith i new = p.slotWith i new ∧ R.entryWrites i new = p.entryWrites i new := fun i new => by
    unfold Part.slotWith Part.entryWrites Part.shownWith
    rw [hdirR, hentryR, hserves.toWorks.base]
    exact ⟨rfl, rfl⟩
  have hmem : ∀ y ∈ p.te.pool, y.unit = a → y.state = .deferred → y ∈ p.te.pool.filter f := fun y hy h1 h2 => List.mem_filter.mpr ⟨hy, by simp [f, h1, h2]⟩
  refine ⟨hserves.trans hedit.works, (hends.calm.trans hputCalm).trans hedit.calm, ?jw, ?te, ?board, ?held, fun m hm => ?heldOf, fun b => ?slot, ?shows,
    fun hwaits y hy h1 h2 ho => ?fails, fun hall => ?quiet, fun y hy h1 h2 ho z hz => ?completes, fun i e he hc => ?entry, fun i hi => ?kept⟩
  case jw =>
    have hjw : S.jw = R.jw := by rw [hedit.part]
    rw [hjw, hj, hends.jw]
  case te => rw [hteS, ht, hte]
  case board =>
    rw [hboardS, hb, hends.board]
    rfl
  case held =>
    rw [hboardS, hb]
    exact hends.held
  case heldOf =>
    rw [Part.heldOf, hboardS, hb]
    exact hends.heldOf m hm
  case slot =>
    rw [hum, hslot, hunit, hslotQ, hslotQ]
    by_cases hba : b = a
    · rw [if_pos hba, if_pos hba]
      by_cases h : v.lastAccepted = none
      · simp [h, unitBody_dropTokens.mpr h]
      · have hne := fun e => h (unitBody_dropTokens.mp e)
        simpa [h] using hne
    · rw [if_neg hba, if_neg hba]
  case shows =>
    exact (((hends.works.port.ofBlock .unitManager).append (List.Sublist.refl _)).trans hmirror).trans (hedit.works.port.ofBlock .unitManager)
  case fails =>
    obtain ⟨index, seq, hlog⟩ := hends.logs (by decide) hwaits y (hmem y hy h1 h2) ho
    exact ⟨index, seq, hlog.trans (hputServes.trans hedit.works).port.outstanding⟩
  case quiet =>
    rw [hedit.svc]
    show R.svc.ringIndex = _
    rw [hputSvc]
    show Q.svc.ringIndex = _
    rw [hends.quiet fun y hy => by
      obtain ⟨hyp, hfy⟩ := List.mem_filter.mp hy
      have hfy : y.unit = a ∧ y.state = .deferred := by simpa [f] using hfy
      exact hall y hyp hfy.1 hfy.2]
  case completes => exact (hends.shows y (hmem y hy h1 h2) ho z hz).after (hputServes.trans hedit.works).toWorks
  case entry =>
    have hi : i ∈ R.entriesWhere (changeCleared a) := Part.mem_entriesWhere.mpr ⟨Part.entryAt_lt he, e, (hentryR i).trans he, hc⟩
    refine ⟨?_, ?_, fun hbit => ?_⟩
    · rw [hedit.slot i hi e ((hentryR i).trans he), (hwith i _).1]
    · have hone : (R.editWrites (changeClearEdit p.run.clock) i).Sublist
          ((R.entriesWhere (changeCleared a)).flatMap fun n => R.editWrites (changeClearEdit p.run.clock) n) := List.sublist_flatten_of_mem (List.mem_map_of_mem hi)
      rw [Part.editWrites_some ((hentryR i).trans he), (hwith i _).2] at hone
      exact hone.trans ((List.sublist_append_right _ _).trans (hedit.shows.trans (S.port.ofBlock_outstanding _)))
    · exact .after hserves.toWorks (hedit.bit i hi e ((hentryR i).trans he) hbit)
  case kept =>
    rw [hedit.kept i (.inl fun hin => ?_), hdirR]
    obtain ⟨-, e, he, hc⟩ := Part.mem_entriesWhere.mp hin
    exact absurd ((hi e ((hentryR i).symm.trans he)).symm.trans hc) (by simp)

end Sys2Proof.Machine
end

section
/-! SUPPORT. The row of a generation change (R37 to R39, R22, R50, R98, R105, R164). -/

namespace Sys2Proof.Machine

/-- R14: an entry number written once. -/
theorem State.rewritesEntry_of {s r : State} {i : Nat} {new : Option Entry} (hslot : r.part.entrySlot i = s.part.slotWith i new)
    (hwrites : (s.part.entryWrites i new).Sublist r.part.port.outstanding) : s.RewritesEntry r i new := by
  refine ⟨?_, hwrites⟩
  rw [hslot]
  by_cases e : s.entryMirror i new = []
  · rw [if_pos e]
    unfold Part.slotWith
    simp [State.entryMirror_eq_nil_iff.mp e]
  · rw [if_neg e]
    unfold Part.slotWith
    dsimp only
    rw [if_neg (fun h => e (State.entryMirror_eq_nil_iff.mpr h))]

theorem changeCleared_iff {a : Nat} {e : Entry} : changeCleared a e = true ↔ e.key.unit = a ∧ e.policies.change = .clear := by
  simp [changeCleared]

theorem Entry.clearNotifies_of {e : Entry} (hs : e.state ≠ .awaiting) (hn : e.policies.notify ≠ .never) : e.clearNotifies = true := by
  simp [Entry.clearNotifies, NotifyMode.state, hs, hn]

/-- The record, the unit's mirror and its bank bit need room for seven writes and a read. -/
theorem State.fits_generation {s : State} (h : s.PortRoom 7 1) (a : Nat) (f : FaultRecord) (addr : Nat) (v : BitVec 64) (body : List Byte) :
    s.part.port.Fits (faultWrites s.part.base s.part.svc.ringIndex s.part.svc.nextFault f s.part.run.clock ++
      (mirrorWrites addr v body ++ s.part.bankBitRead .unit a)) := by
  obtain ⟨f1, f2⟩ := faultWrites_counts s.part.base s.part.svc.ringIndex s.part.svc.nextFault f s.part.run.clock
  obtain ⟨m1, m2⟩ := mirrorWrites_counts addr v body
  obtain ⟨b1, b2⟩ := s.part.bankBitRead_counts .unit a
  refine s.fits_of_portRoom h ?_ ?_ <;> simp only [List.filter_append, List.length_append] <;> omega

/-- What a generation change leaves of the part as the header found it, before and after its finishes are resolved. -/
structure State.GenerationRow (s r : State) (Q Z : Part) : Prop where
  stores : Q.Serves Z
  releases : Z.Releases r.part
  works : Z.Works r.part

theorem State.GenerationRow.all {s r : State} {Q Z : Part} (h : s.GenerationRow r Q Z) : Q.Works r.part := h.stores.toWorks.trans h.works

/-- What the record and the unit's mirror show in the end. -/
theorem Part.GenerationStored.shown {s r : State} {p Q Z : Part} {a : Nat} {u : FieldUnit} {old new : BitVec 3} (h : p.GenerationStored Q a u old new)
    (hrow : s.GenerationRow r Q Z) (hport : p.port = s.part.port) (hsvc : p.svc = s.part.svc) (hrun : p.run = s.part.run) :
    (s.PortRoom 4 0 → s.part.port.fifo ++ faultWrites s.part.base s.part.svc.ringIndex s.part.svc.nextFault (generationRecord a old new)
      s.part.run.clock <+: r.part.port.fifo) ∧ s.Logs r (generationRecord a old new) ∧ s.HandsBit r .unitManager .unit a := by
  have hbase : p.base = s.part.base := by rw [Part.base, hrun, Part.base]
  refine ⟨fun hroom => ?_, ⟨s.part.svc.ringIndex, s.part.svc.nextFault, ?_⟩, ?_⟩
  · obtain ⟨hw, hr⟩ := faultWrites_counts s.part.base s.part.svc.ringIndex s.part.svc.nextFault (generationRecord a old new) s.part.run.clock
    have hfirst := h.first
    rw [hport, hsvc, hrun, hbase] at hfirst
    exact (hfirst (s.fits_of_portRoom hroom hw.le hr.le)).trans hrow.all.port.fifo
  · have hlogs := h.logs
    rw [hsvc, hrun, hbase] at hlogs
    exact hlogs.trans hrow.all.port.outstanding
  · have hbit := h.bit.works hrow.all
    unfold Part.BitOn at hbit
    rw [hsvc] at hbit
    exact hbit

/-- The part behind the record and the unit's mirror: nothing else has changed but the Service Unit, the port and the line. -/
structure State.StoredAs (s : State) (Q : Part) : Prop where
  te : Q.te = s.part.te
  board : Q.board = s.part.board
  dir : Q.dir = s.part.dir
  run : Q.run = s.part.run

theorem State.StoredAs.base {s : State} {Q : Part} (h : s.StoredAs Q) : Q.base = s.part.base := by rw [Part.base, h.run, Part.base]

theorem State.StoredAs.entrySlot {s : State} {Q : Part} (h : s.StoredAs Q) (i : Nat) : Q.entrySlot i = s.part.entrySlot i := by
  rw [Part.entrySlot, h.dir, Part.entrySlot]

theorem State.StoredAs.entryAt {s : State} {Q : Part} (h : s.StoredAs Q) (i : Nat) : Q.entryAt i = s.part.entryAt i := by
  rw [Part.entryAt, h.entrySlot, Part.entryAt]

theorem State.StoredAs.heldOf {s : State} {Q : Part} (h : s.StoredAs Q) (n : Nat) : Q.heldOf n = s.part.heldOf n := by rw [Part.heldOf, h.board, Part.heldOf]

/-- R105: the DEFERRED transactions have finished. -/
theorem Part.ChangeNoticed.finished {s : State} {Q Z : Part} {a : Nat} {v : FieldUnit} (hN : Q.ChangeNoticed Z a v) (hQ : s.StoredAs Q)
    (hf : s.part.board.finishes = []) :
    s.Finished (s.onPart fun _ => Z) ((s.part.te.pool.filter fun y => y.unit == a && y.state == .deferred).map fun y => ⟨y.seq, false, true⟩) := by
  have hboard := hN.board
  rw [hQ.board, hQ.te, hf, List.nil_append] at hboard
  refine ⟨congrArg BoardController.finishes hboard, by have h := congrArg BoardController.registry hboard; exact h,
    by have h := congrArg BoardController.nextSeq hboard; exact h, by have h := congrArg BoardController.sweep hboard; exact h, hN.held.trans (by rw [hQ.board]), fun n hn => ?_⟩
  have hkept := hN.heldOf n fun y hy => hn ⟨y.seq, false, true⟩ (List.mem_map.mpr ⟨y, by rw [← hQ.te]; exact hy, rfl⟩)
  exact hkept.trans (hQ.heldOf n)

/-- R40, R105: the unit's mirror is written again where the notice has dropped a last accepted token. -/
theorem Part.ChangeNoticed.unit {p Q Z : Part} {a : Nat} {u : FieldUnit} {old new : BitVec 3} (hQ : p.GenerationStored Q a u old new)
    (hN : Q.ChangeNoticed Z a (u.changed new p.run.clock)) {again : List Access}
    (h : again = if u.lastAccepted = none then [] else mirrorWrites (unitMirrorAddr p.base a) ((p.unitSlot a).version + 2)
      (unitBody (some { u.changed new p.run.clock with lastAccepted := none }))) :
    (Z.unitSlot a).version = (p.unitSlot a).version + (if again = [] then 2 else 4) ∧
    (mirrorWrites (unitMirrorAddr p.base a) (p.unitSlot a).version (unitBody (some (u.changed new p.run.clock))) ++ again).Sublist Z.port.outstanding := by
  have hlast : (u.changed new p.run.clock).lastAccepted = u.lastAccepted := (FieldUnit.changedEvent_generation _ _).2
  have hshows := (hQ.shows.append (List.Sublist.refl _)).trans hN.shows
  have hversion := congrArg UnitSlot.version ((hN.slot a).trans (if_pos rfl))
  have hstored := congrArg UnitSlot.version ((hQ.slot a).trans (if_pos rfl))
  dsimp only at hversion hstored
  rw [hlast, hstored] at hversion
  rw [hlast, hstored, hQ.works.toWorks.base] at hshows
  subst h
  refine ⟨hversion.trans ?_, hshows.trans (Z.port.ofBlock_outstanding _)⟩
  by_cases e : u.lastAccepted = none
  · rw [if_pos e, if_pos e, if_pos rfl]
  · rw [if_neg e, if_neg e, if_neg (by simp [mirrorWrites]), BitVec.add_assoc]
    rfl

/-- R22: what the notice makes of an entry. -/
theorem Part.ChangeNoticed.entries {s r : State} {Q Z : Part} {a : Nat} {v : FieldUnit} (hN : Q.ChangeNoticed Z a v) (hQ : s.StoredAs Q)
    (hserves : s.part.Works Q) (hworks : Z.Works r.part) (hdir : r.part.dir = Z.dir) {i : Nat} {e : Entry} (he : s.part.entryAt i = some e) :
    r.part.entryAt i = some (if e.key.unit = a ∧ e.policies.change = .clear then
      { e with content := none, state := .awaiting, firstAfterChange := true
               staleTimer := if e.policies.maxInterval = 0 then none else some s.part.run.clock } else e) ∧
    (e.key.unit = a ∧ e.policies.change = .clear → s.RewritesEntry r i (r.part.entryAt i) ∧
      (e.state ≠ .awaiting → e.policies.notify ≠ .never → s.HandsBit r .directoryEngine .directory i)) := by
  have heQ : Q.entryAt i = some e := (hQ.entryAt i).trans he
  have hentry : r.part.entrySlot i = Z.entrySlot i := by rw [Part.entrySlot, hdir, Part.entrySlot]
  by_cases hc : e.key.unit = a ∧ e.policies.change = .clear
  · obtain ⟨hedit, hwrites, hnotifies⟩ := hN.entry i e heQ (changeCleared_iff.mpr hc)
    have hsame : ∀ new, Q.slotWith i new = s.part.slotWith i new ∧ Q.entryWrites i new = s.part.entryWrites i new := fun new => by
      unfold Part.slotWith Part.entryWrites Part.shownWith
      rw [hQ.entrySlot, hQ.entryAt, hQ.base]
      exact ⟨rfl, rfl⟩
    rw [(hsame _).1, hQ.run] at hedit
    rw [(hsame _).2, hQ.run] at hwrites
    have hat : r.part.entryAt i = (changeClearEdit s.part.run.clock).new e := by
      rw [Part.entryAt, hentry, hedit]
      rfl
    refine ⟨?_, fun _ => ⟨?_, fun hstate hnotify => ?_⟩⟩
    · rw [hat, if_pos hc]
      rfl
    · rw [hat]
      exact State.rewritesEntry_of (hentry.trans hedit) (hwrites.trans hworks.port.outstanding)
    · exact (Part.BitOn.after hserves (hnotifies (Entry.clearNotifies_of hstate hnotify))).works hworks
  · rw [if_neg hc]
    refine ⟨?_, fun h => absurd h hc⟩
    rw [Part.entryAt, hentry, hN.kept i fun e' he' => ?_, hQ.entrySlot]
    · exact he
    · obtain rfl := Option.some.inj (heQ.symm.trans he')
      exact Bool.eq_false_iff.mpr fun h => hc (changeCleared_iff.mp h)

/-- Settles O47: the record and the mirror are written; then the notice is taken, or it waits behind them. -/
theorem generationChangeActsOnTheUnit : Obligations.GenerationChangeActsOnTheUnit := by
  unfold Obligations.GenerationChangeActsOnTheUnit
  intro s x h u old bytes low hturn hphase hgood herr ha hu hl hg hne hworking hs hD hw
  obtain ⟨hlater, hfinishes, -⟩ := hs hw
  obtain ⟨hnodup, -⟩ := hD
  let p : Part := s.part.setTurn { x with phase := .body h none false }
  let Q : Part := p.storeGeneration x.unit u old h.gen
  let v : FieldUnit := u.changed h.gen s.part.run.clock
  let Z : Part := Q.onceFree (.unitChange x.unit) (Part.noticeUnitChange x.unit)
  have hQ : p.GenerationStored Q x.unit u old h.gen := Part.storeGeneration_stored ha hu hg hne
  have hjudge : s.part.headerGood x h = Z := by
    rw [Part.headerGood_good herr]
    exact Part.judgeGeneration_other (p := p) hw hu hl hg hne
  have hQlater : Q.port.later = [] := hQ.calm.later.trans hlater
  have hQunit : Q.unitAt x.unit = some v := by
    rw [Part.unitAt, hQ.slot, if_pos rfl]
    rfl
  have hsame : s.StoredAs Q := ⟨hQ.te, hQ.board, hQ.dir, hQ.calm.run⟩
  have hQrun : Q.run = s.part.run := hQ.calm.run
  have hN : Q.ChangeNoticed (Q.noticeUnitChange x.unit) x.unit v := Part.noticeUnitChange_noticed ha hQunit (by rw [hsame.te]; exact hnodup)
  have hZserves : Q.Serves Z := Part.onceFree_serves hN.works
  have hexec : exec (.frameHeader bytes low) s = .next ((s.onPart fun _ => Z).onPart Part.settle) := by
    rw [exec_frameHeader hturn hphase ⟨hw, hlater⟩ hgood]
    unfold State.onPart
    dsimp only
    rw [hjudge]
  have hlast : v.lastAccepted = u.lastAccepted := (FieldUnit.changedEvent_generation _ _).2
  have hcalmQ : ∀ n, Q.Waits n → s.part.Waits n := fun n hn => hQ.calm.waits n hn
  by_cases hfree : Q.port.free = true
  · have hZ : Z = Q.noticeUnitChange x.unit := Part.onceFree_eq hfree _ _
    rw [← hZ] at hN
    have hZlater : Z.port.later = [] := hN.calm.later.trans hQlater
    have hQwaiting : Q.port.waiting = [] := (WindowPort.free_iff.mp hfree).1
    have hZrun : Z.run = s.part.run := hN.calm.run.trans hQrun
    refine ⟨_, hexec, fun h => h.settle_eq hZrun, rfl, rfl, fun h => absurd hZlater h, fun _ => ⟨?_, hN.finished hsame hfinishes⟩, fun r hr => ?_⟩
    · show Z.te.syncs = _
      rw [hN.te, hsame.te]
    · have hres := hr.resolves (t := s.onPart fun _ => Z) hZlater fun n hn => hcalmQ n (hN.calm.waits n hn)
      have hrow : s.GenerationRow r Q Z := ⟨hZserves, hres.releases, hres.works⟩
      have hrel : Z.Releases r.part := hres.releases
      have hworks : Z.Works r.part := hres.works
      obtain ⟨hfirst, hlogs, hbit⟩ := hQ.shown hrow rfl rfl rfl
      have hrlater : r.part.port.later = [] := hrel.later.trans hZlater
      have hslot : ∀ b, r.part.unitSlot b = Z.unitSlot b := fun b => by rw [Part.unitSlot, hrel.um]; rfl
      refine ⟨hrel.run.trans hZrun, hrel.line.trans (hN.calm.line.trans hQ.calm.line), hrel.jw.trans (hN.jw.trans hQ.jw), fun b hb => ?_, hfirst, hlogs,
        fun hroom => ⟨hrlater, ?_⟩, fun w again hwv hagain => ?_, fun h => absurd hrlater h,
        fun _ => ⟨?_, ?_, fun y hy h1 h2 ho => ?_, fun hall => ?_, fun y hy h1 h2 ho => ?_, fun i e he => ?_, fun i hi => ?_⟩⟩
      · rw [hslot, hN.slot, if_neg hb, hQ.slot, if_neg hb]
        rfl
      · have hfits := hQ.fits (s.fits_generation hroom _ _ _ _ _)
        have hprefix := hrow.all.port.fifo
        rw [hfits] at hprefix
        rw [List.append_assoc, List.append_assoc]
        exact hprefix
      · have hwv : w = v := hwv
        subst hwv
        obtain ⟨hversion, hsub⟩ := Part.ChangeNoticed.unit (p := p) hQ hN (again := again) (hagain.trans (by simp only [hrlater, ne_eq, not_true, false_or]; rfl))
        exact ⟨by rw [hslot]; exact hversion, hsub.trans hworks.port.outstanding, hbit⟩
      · rw [Part.unitAt, hslot, hN.slot, if_pos rfl]
        rfl
      · have hpool : r.part.te.pool = Z.te.pool := by rw [hrel.te]
        rw [hpool, hN.te, hsame.te]
      · obtain ⟨index, seq, hlog⟩ := hN.fails (WindowPort.not_waits hQwaiting _) y (by rw [hsame.te]; exact hy) h1 h2 ho
        rw [hsame.base, hQrun] at hlog
        exact ⟨index, seq, hlog.trans hworks.port.outstanding⟩
      · rw [hrel.svc, hN.quiet fun y hy h1 h2 => Option.isSome_iff_ne_none.mpr (hall y (by rw [← hsame.te]; exact hy) h1 h2)]
        exact hQ.ring
      · have hshows := hN.completes y (by rw [hsame.te]; exact (Part.findTxn_mem hy).1) h1 h2 ho
        refine Part.Shows.completes (p := Q) (q := Z) hrow.all (congrArg BoardController.completions hQ.board) hsame.base (congrArg RunController.clock hQrun)
          hworks fun z hz => hshows z ((hsame.heldOf y.seq).trans hz)
      · exact hN.entries hsame ((Part.setTurn_works _ _).trans hQ.works.toWorks) hworks hrel.dir he
      · rw [Part.entrySlot, hrel.dir]
        exact (hN.kept i fun e he => Bool.eq_false_iff.mpr fun h => hi e ((hsame.entryAt i).symm.trans he) (changeCleared_iff.mp h)).trans (hsame.entrySlot i)
  · have hZ : Z = { Q with port := { Q.port with later := [.unitChange x.unit] } } := by
      have hput : Z = { Q with port := { Q.port with later := Q.port.later ++ [.unitChange x.unit] } } := if_neg hfree
      rw [hput, hQlater]
      rfl
    have hwaiting : Z.port.waiting ≠ [] := by
      rw [hZ]
      exact fun h => hfree (WindowPort.free_iff.mpr ⟨h, hQlater⟩)
    have hZlater : Z.port.later = [.unitChange x.unit] := by rw [hZ]
    have hZrun : Z.run = s.part.run := by
      rw [hZ]
      exact hQrun
    have hZboard : Z.board = s.part.board := by
      rw [hZ]
      exact hQ.board
    refine ⟨_, hexec, fun h => h.settle_eq hZrun, rfl, rfl, fun _ => ?_, fun h => ?_, fun r hr => ?_⟩
    · refine ⟨?_, congrArg _ hZboard, congrArg _ hZboard, congrArg _ hZboard, ?_, fun n _ => ?_⟩
      · show Z.board.finishes = []
        rw [hZboard]
        exact hfinishes
      · show Z.board.held.Sublist _
        rw [hZboard]
      · show Z.heldOf n = _
        rw [Part.heldOf, hZboard]
        rfl
    · exact absurd (hZlater.symm.trans h) (by simp)
    · have hr : r = s.onPart fun _ => Z := by
        rcases hr with rfl | ⟨-, rfl⟩
        · rfl
        · unfold State.onPart
          dsimp only
          rw [Part.resolve_waiting hwaiting]
      have hpart : r.part = Z := by rw [hr]; rfl
      have hrow : s.GenerationRow r Q Z := ⟨hZserves, by rw [hpart]; exact .refl Z, by rw [hpart]; exact .refl Z⟩
      obtain ⟨hfirst, hlogs, hbit⟩ := hQ.shown hrow rfl rfl rfl
      have hrlater : r.part.port.later ≠ [] := by rw [hpart, hZlater]; simp
      have hslot : ∀ b, r.part.unitSlot b = Q.unitSlot b := fun b => by rw [hpart, hZ]; rfl
      refine ⟨?_, ?_, ?_, fun b hb => ?_, hfirst, hlogs, fun hroom => ?_, fun w again hwv hagain => ?_, fun _ => ⟨?_, ?_, ?_, ?_, ?_⟩, fun h => absurd h hrlater⟩
      · rw [hpart]
        exact hZrun
      · rw [hpart, hZ]
        exact hQ.calm.line
      · rw [hpart, hZ]
        exact hQ.jw
      · rw [hslot, hQ.slot, if_neg hb]
        rfl
      · have hfits := hQ.fits (s.fits_generation hroom _ _ _ _ _)
        refine absurd (WindowPort.free_iff.mpr ⟨?_, hQlater⟩) hfree
        rw [hfits]
        exact hw
      · have hwv : w = v := hwv
        subst hwv
        rw [if_pos (.inl hrlater)] at hagain
        subst hagain
        refine ⟨?_, ?_, hbit⟩
        · rw [hslot, hQ.slot, if_pos rfl, if_pos rfl]
          rfl
        · rw [List.append_nil]
          exact (hQ.shows.trans (Q.port.ofBlock_outstanding _)).trans hrow.all.port.outstanding
      · rw [hpart, hZlater]
      · rw [hpart]
        exact hwaiting
      · rw [hpart, hZ]
        exact hQ.te
      · rw [hpart, hZ]
        exact hQ.dir
      · rw [Part.unitAt, hslot]
        exact hQunit

end Sys2Proof.Machine
end

section
/-! SUPPORT. A journal record taken: appended to the open page, the first of the next page, or lost (R156, R157, R161). -/

namespace Sys2Proof.Machine

/-! ## What the Journal Writer leaves of the others -/

/-- From `p` to `q` the Journal Writer has worked, and requests whose pages were lent may have ended. -/
structure Part.Journals (p q : Part) : Prop where
  part : q = { p with jw := q.jw, svc := q.svc, board := q.board, port := q.port }
  svc : q.svc = { p.svc with journalLosses := q.svc.journalLosses, ringIndex := q.svc.ringIndex, nextFault := q.svc.nextFault }
  works : p.Serves q
  waits : ∀ n, q.Waits n → p.Waits n
  board : q.board = { p.board with held := q.board.held, finishes := q.board.finishes, completions := q.board.completions }
  held : q.board.held.Sublist p.board.held
  finishes : p.board.finishes <+: q.board.finishes
  ended : ∀ f ∈ q.board.finishes, f ∈ p.board.finishes ∨ f.transaction = false ∧ ∃ g ∈ p.jw.pages, f.seq = g.seq
  heldOf : ∀ n, (∀ f ∈ q.board.finishes, f.seq ≠ n) → q.heldOf n = p.heldOf n

theorem Part.Journals.refl (p : Part) : p.Journals p :=
  ⟨rfl, rfl, .refl p, fun _ => id, rfl, List.Sublist.refl _, List.prefix_refl _, fun _ => .inl, fun _ _ => rfl⟩

theorem Part.Journals.trans {p q r : Part} (h : p.Journals q) (h' : q.Journals r) : p.Journals r where
  part := by rw [h'.part, h.part]
  svc := by rw [h'.svc, h.svc]
  works := h.works.trans h'.works
  waits := fun n hn => h.waits n (h'.waits n hn)
  board := by rw [h'.board, h.board]
  held := h'.held.trans h.held
  finishes := h.finishes.trans h'.finishes
  ended := fun f hf => (h'.ended f hf).elim (h.ended f) fun ⟨ht, g, hg, hseq⟩ => by
    obtain ⟨g', hg', e⟩ := List.mem_map.mp (h.works.pages.subset (List.mem_map_of_mem hg))
    exact .inr ⟨ht, g', hg', hseq.trans e.symm⟩
  heldOf := fun n hn => (h'.heldOf n hn).trans (h.heldOf n fun f hf => hn f (h'.finishes.subset hf))

/-- Work that leaves the board and the other blocks alone. -/
theorem Part.Journals.of_board {p q : Part} (hpart : q = { p with jw := q.jw, svc := q.svc, port := q.port })
    (hsvc : q.svc = { p.svc with journalLosses := q.svc.journalLosses, ringIndex := q.svc.ringIndex, nextFault := q.svc.nextFault }) (hworks : p.Serves q) :
    p.Journals q := by
  have hboard : q.board = p.board := by rw [hpart]
  have hte : q.te = p.te := by rw [hpart]
  refine ⟨?_, hsvc, hworks, fun n hn => ?_, by rw [hboard], by rw [hboard], by rw [hboard], fun f hf => .inl (hboard ▸ hf), fun n _ => ?_⟩
  · rw [hboard]
    exact hpart
  · unfold Part.Waits at hn
    rw [hboard, hte] at hn
    exact hn
  · rw [Part.heldOf, hboard, Part.heldOf]

/-! ## The open page completes -/

theorem Part.completeRequest_prefix (n : Nat) (r : Result) (p : Part) : p.board.finishes <+: (p.completeRequest n r).board.finishes := by
  cases e : p.heldOf n with
  | none => rw [Part.completeRequest_none e]
  | some h =>
    rw [(Part.completeRequest_board r e).1]
    exact List.prefix_append _ _

theorem Part.completeEach_prefix (l : List (Nat × Result)) (p : Part) : p.board.finishes <+: (p.completeEach l).board.finishes := by
  induction l generalizing p with
  | nil => exact List.prefix_refl _
  | cons x rest ih => exact (p.completeRequest_prefix x.1 x.2).trans (ih _)

/-- A request that has not finished is held as before. -/
theorem Part.heldOf_completeEach_unfinished {l : List (Nat × Result)} {p : Part} {n : Nat} (h : ∀ f ∈ (p.completeEach l).board.finishes, f.seq ≠ n) :
    (p.completeEach l).heldOf n = p.heldOf n := by
  induction l generalizing p with
  | nil => rfl
  | cons x rest ih =>
    refine (ih h).trans ?_
    by_cases hx : n = x.1
    · subst hx
      cases e : p.heldOf x.1 with
      | none =>
        show (p.completeRequest x.1 x.2).heldOf x.1 = none
        rw [Part.completeRequest_none e, e]
      | some y =>
        refine absurd rfl (h ⟨x.1, x.2.outcome.success, false⟩ ((Part.completeEach_prefix rest _).subset ?_))
        rw [(Part.completeRequest_board x.2 e).1]
        exact List.mem_append_right _ (List.mem_singleton.mpr rfl)
    · exact Part.heldOf_completeRequest hx _ _

theorem Part.completeEach_ended {l : List (Nat × Result)} {p : Part} {f : Finish} (h : f ∈ (p.completeEach l).board.finishes) :
    f ∈ p.board.finishes ∨ f.transaction = false ∧ ∃ x ∈ l, f.seq = x.1 := by
  induction l generalizing p with
  | nil => exact .inl h
  | cons x rest ih =>
    rcases ih (p := p.completeRequest x.1 x.2) h with h' | ⟨ht, y, hy, e⟩
    · exact (Part.completeRequest_finishes h').imp id fun e => by
        rw [e]
        exact ⟨rfl, x, List.mem_cons_self, rfl⟩
    · exact .inr ⟨ht, y, List.mem_cons_of_mem _ hy, e⟩

theorem Part.completePage_none {p : Part} (h : p.jw.pages = [] ∨ p.jw.opened = none) (hw : p.port.waiting = []) (o : ReqOutcome) : p.completePage o = p := by
  have hopen : p.jw.completeOpen o = (p.jw, []) := by
    unfold JournalWriter.completeOpen
    rcases h with h | h
    · rw [h]
    · rw [h]
      split
      · next e => exact absurd e (by simp)
      · rfl
  unfold Part.completePage
  dsimp only
  rw [hopen, Part.raise_free (by exact hw)]
  rfl

theorem Part.completePage_journals {p : Part} (hw : p.port.waiting = []) : p.Journals (p.completePage .ok) := by
  cases hp : p.jw.pages with
  | nil =>
    rw [Part.completePage_none (.inl hp) hw]
    exact .refl p
  | cons g rest =>
    cases ho : p.jw.opened with
    | none =>
      rw [Part.completePage_none (.inr ho) hw]
      exact .refl p
    | some o =>
      have hserves := p.completePage_serves .ok
      have hcalm := p.completePage_calm .ok
      rcases Part.completePage_cases hp ho hw with ⟨-, h⟩ | ⟨-, l, h⟩
      · rw [h] at hserves hcalm ⊢
        let P : Part := { p with jw := p.jw.passed rest, port := p.port.with [.write g.addr.toNat o.head .silent] }
        have hrel := P.completeEach_releases (pageResults g o rest)
        refine ⟨?_, ?_, hserves, fun n hn => hcalm.waits n hn, P.completeEach_board _, hrel.held, P.completeEach_prefix _, fun f hf => ?_,
          fun n hn => Part.heldOf_completeEach_unfinished (p := P) hn⟩
        · rw [hrel.svc]
          have heq := hrel.eq_of_te (P.completeEach_te _)
          have hjw := hrel.jw
          generalize P.completeEach (pageResults g o rest) = Q at *
          rw [heq]
        · rw [hrel.svc]
        · refine (Part.completeEach_ended (p := P) hf).imp id fun ⟨ht, x, hx, e⟩ => ⟨ht, ?_⟩
          rcases List.mem_cons.mp hx with rfl | hx
          · exact ⟨g, by rw [hp]; exact List.mem_cons_self, e⟩
          · obtain ⟨y, hy, hseq, -⟩ := withdrawnResults_mem hx
            exact ⟨y, by rw [hp]; exact List.mem_cons_of_mem _ hy, e.trans hseq.symm⟩
      · rw [h] at hserves ⊢
        exact .of_board rfl rfl hserves

/-! ## The record is placed -/

/-- R161: the record of a gap in the journal. -/
def JournalRecord.gap (rec : JournalRecord) : FaultRecord :=
  { kind := .journalGap, unit := rec.key.unit, tag := 0, detail := 0, detailHigh := 0, word1 := wordOf rec.entry, word2 := rec.time }

/-- R161: the Journal Writer with a record lost. -/
def JournalWriter.lose (j : JournalWriter) : JournalWriter :=
  { j with pendingGap := if j.pendingGap = 0xFFFF then 0xFFFF else j.pendingGap + 1, gapReported := true }

/-- R156: the Journal Writer with a record appended to the open page. -/
def JournalWriter.append (g : Page) (o : OpenPage) (rec : JournalRecord) (j : JournalWriter) : JournalWriter :=
  { j with opened := some (o.append g rec j.pendingGap), pendingGap := if o.count = 0 then 0 else j.pendingGap, gapReported := false }

theorem Part.placeRecord_open {p : Part} {g : Page} {rest : List Page} {o : OpenPage} (hp : p.jw.pages = g :: rest) (ho : p.jw.opened = some o)
    (rec : JournalRecord) : p.placeRecord rec =
      Part.raise .journalWriter [.access (.write (g.addr.toNat + o.used) rec.bytes .silent)] { p with jw := p.jw.append g o rec } := by
  unfold Part.placeRecord
  rw [hp, ho]
  rfl

theorem Part.placeRecord_closed {p : Part} (h : p.jw.pages = [] ∨ p.jw.opened = none) (rec : JournalRecord) : p.placeRecord rec = p.loseRecord rec := by
  unfold Part.placeRecord
  rcases h with h | h
  · rw [h]
  · rw [h]
    split
    · next e => exact absurd e (by simp)
    · rfl

/-- R161: a record is lost where the Journal Writer does not wait. -/
theorem Part.loseRecord_eq {p : Part} (hw : p.port.waits .journalWriter = false) (rec : JournalRecord) :
    p.loseRecord rec = if p.jw.gapReported then Part.takeJournalLoss { p with jw := p.jw.lose }
      else (Part.takeJournalLoss { p with jw := p.jw.lose }).takeFault rec.gap := by
  unfold Part.loseRecord Part.raise
  dsimp only
  rw [if_neg (by rw [hw]; simp)]
  by_cases h : p.jw.gapReported = true
  · rw [if_pos h, if_pos h]
    rfl
  · rw [if_neg h, if_neg h]
    rfl

theorem Part.placeRecord_journals (rec : JournalRecord) (p : Part) : p.Journals (p.placeRecord rec) := by
  have hserves := p.placeRecord_serves rec
  have hclosed : (p.jw.pages = [] ∨ p.jw.opened = none) → p.Journals (p.placeRecord rec) := fun h => by
    rw [Part.placeRecord_closed h] at hserves ⊢
    cases hw : p.port.waits .journalWriter with
    | true =>
      have hlose : ∃ w, p.loseRecord rec = { p with jw := p.jw.lose, port := w } := by
        unfold Part.loseRecord Part.raise
        dsimp only
        rw [if_pos hw]
        exact ⟨_, rfl⟩
      obtain ⟨w, hlose⟩ := hlose
      rw [hlose] at hserves ⊢
      exact .of_board rfl rfl hserves
    | false =>
      rw [Part.loseRecord_eq hw] at hserves ⊢
      split at hserves
      · next h =>
        rw [if_pos h]
        exact .of_board rfl rfl hserves
      · next h =>
        rw [if_neg h]
        exact .of_board rfl rfl hserves
  cases hp : p.jw.pages with
  | nil => exact hclosed (.inl hp)
  | cons g rest =>
    cases ho : p.jw.opened with
    | none => exact hclosed (.inr ho)
    | some o =>
      rw [Part.placeRecord_open hp ho] at hserves ⊢
      have hraise : ∀ (a : Access) (q : Part), ∃ w, Part.raise .journalWriter [.access a] q = { q with port := w } := fun a q => by
        unfold Part.raise
        split
        · exact ⟨_, rfl⟩
        · unfold Part.raiseFree
          split
          · exact ⟨_, rfl⟩
          · exact ⟨_, rfl⟩
      obtain ⟨w, h⟩ := hraise (.write (g.addr.toNat + o.used) rec.bytes .silent) { p with jw := p.jw.append g o rec }
      rw [h] at hserves ⊢
      exact .of_board rfl rfl hserves

theorem Part.takeRecord_journals {p : Part} (hw : p.port.waiting = []) (rec : JournalRecord) : p.Journals (p.takeRecord rec) := by
  unfold Part.takeRecord
  split
  · exact (Part.completePage_journals hw).trans (Part.placeRecord_journals rec _)
  · exact p.placeRecord_journals rec

/-- R15: the record is handed on, or stands behind the accesses that wait for room. -/
theorem Part.handRecord_journals {p : Part} (hl : p.port.later = []) (rec : JournalRecord) : p.Journals (p.handRecord rec) ∧
    (p.port.free = true ∧ p.handRecord rec = p.takeRecord rec ∧ (p.handRecord rec).port.later = [] ∨
     p.port.waiting ≠ [] ∧ p.handRecord rec = { p with port := { p.port with later := [.record rec] } }) := by
  by_cases hf : p.port.free = true
  · have h : p.handRecord rec = p.takeRecord rec := Part.onceFree_eq hf _ _
    rw [h]
    exact ⟨Part.takeRecord_journals (WindowPort.free_iff.mp hf).1 rec, .inl ⟨hf, rfl, (p.takeRecord_calm rec).later.trans hl⟩⟩
  · have hserves := p.handRecord_serves rec
    have h : p.handRecord rec = { p with port := { p.port with later := [.record rec] } } := by
      have hput : p.handRecord rec = { p with port := { p.port with later := p.port.later ++ [.record rec] } } := if_neg hf
      rw [hput, hl]
      rfl
    rw [h] at hserves ⊢
    exact ⟨.of_board rfl rfl hserves, .inr ⟨fun hw => hf (WindowPort.free_iff.mpr ⟨hw, hl⟩), rfl⟩⟩

end Sys2Proof.Machine
end

section
/-! SUPPORT. An arrival taken by the Directory Engine, case by case (R6 to R15), and the row of a REPORT before and after its finishes are resolved. -/

namespace Sys2Proof.Machine

/-! ## Rows whose work may stand behind a wait -/

theorem State.ResolvedOrNot.eq_of_waiting {s t r : State} (h : s.ResolvedOrNot t r) (hw : t.part.port.waiting ≠ []) : r = t := by
  rcases h with rfl | ⟨-, rfl⟩
  · rfl
  · unfold State.onPart
    rw [Part.resolve_waiting hw]

/-- Work stands behind a wait only while a block waits, and then nothing is resolved. -/
theorem State.ResolvedOrNot.resolves_idle {s t r : State} (h : s.ResolvedOrNot t r) (hidle : t.part.port.later = [] ∨ t.part.port.waiting ≠ [])
    (hw : ∀ n, t.part.Waits n → s.part.Waits n) : t.Resolves r := by
  rcases hidle with hl | hwaiting
  · exact h.resolves hl hw
  · rw [h.eq_of_waiting hwaiting]
    exact ⟨rfl, rfl, .refl _, .refl _, fun _ => ⟨rfl, rfl⟩⟩

/-- Settling is the resolution also where nobody waits, for the row leaves every drain as it was. -/
theorem State.Settled.settle_resolves {s t : State} (hs : s.Settled) (hw : s.part.port.waiting = []) (h : s.NoneWaits ∨ s.Steady)
    (hrun : t.part.run = s.part.run) (hte : t.part.te = s.part.te) (hwait : t.part.um.dismissWait = s.part.um.dismissWait)
    (hres : s.NoneWaits → t.Resolves (t.onPart Part.resolve)) (hrequests : ∀ f ∈ t.part.board.finishes, f.transaction = false) :
    t.onPart Part.settle = t.onPart Part.resolve := by
  rcases h with hn | hsteady
  · have hr := hres hn
    have hrte : t.part.resolve.te = s.part.te := (hr.requests hrequests).1.trans hte
    have hrwait : t.part.resolve.um.dismissWait = s.part.um.dismissWait := (congrArg UnitManager.dismissWait hr.releases.um).trans hwait
    have hrrun : t.part.resolve.run = s.part.run := hr.releases.run.trans hrun
    unfold State.onPart Part.settle Part.closeDrain
    rw [if_neg]
    intro ⟨h1, h2, h3, _⟩
    unfold Part.drainDone at h3
    rw [hrrun] at h1 h2
    rw [hrte, hrwait] at h3
    exact (hs hw).2.2 ⟨h1, h2, h3⟩
  · exact hsteady.settle_eq hrun

/-! ## What an arrival leaves -/

/-- From `p` to `q` an arrival has been taken: one place or one entry is rewritten, and the journal record may close a page. -/
structure Part.Arrives (p q : Part) : Prop where
  part : q = { p with um := { p.um with slots := q.um.slots }, dir := q.dir, jw := q.jw, svc := q.svc, board := q.board, port := q.port }
  serves : p.Serves q
  waits : ∀ n, q.Waits n → p.Waits n
  board : q.board = { p.board with held := q.board.held, finishes := q.board.finishes, completions := q.board.completions }
  held : q.board.held.Sublist p.board.held
  ended : ∀ f ∈ q.board.finishes, f ∈ p.board.finishes ∨ f.transaction = false ∧ ∃ g ∈ p.jw.pages, f.seq = g.seq
  heldOf : ∀ n, (∀ f ∈ q.board.finishes, f.seq ≠ n) → q.heldOf n = p.heldOf n
  idle : q.port.later = [] ∨ q.port.waiting ≠ []

/-- A rewrite, and behind it the journal record. -/
theorem Part.Arrives.of_journals {p q r : Part}
    (hq : q = { p with um := { p.um with slots := q.um.slots }, dir := q.dir, svc := q.svc, port := q.port }) (hs : p.Serves q) (h : q.Journals r)
    (hidle : r.port.later = [] ∨ r.port.waiting ≠ []) : p.Arrives r := by
  have hte : q.te = p.te := by rw [hq]
  have hjw : q.jw = p.jw := by rw [hq]
  have hboard : q.board = p.board := by rw [hq]
  have hum : r.um = q.um := by rw [h.part]
  have hdir : r.dir = q.dir := by rw [h.part]
  refine ⟨?_, hs.trans h.works, fun n hn => ?_, hboard ▸ h.board, hboard ▸ h.held, ?_, fun n hn => ?_, hidle⟩
  · have hpart := h.part
    rw [hq] at hpart
    rw [hum, hdir]
    exact hpart
  · have hwaits := h.waits n hn
    unfold Part.Waits at hwaits
    rw [hboard, hte] at hwaits
    exact hwaits
  · rw [← hboard, ← hjw]
    exact h.ended
  · rw [h.heldOf n hn, Part.heldOf, hboard, Part.heldOf]

theorem Part.putEntry_um (m : Nat) (new : Option Entry) (f : Bool) (p : Part) : (p.putEntry m new f).um = p.um := (p.putEntry_frame m new f).2.2.1

theorem Part.putEntry_arrives {p : Part} (m : Nat) (new : Option Entry) (f : Bool) {r : Part} (h : (p.putEntry m new f).Journals r)
    (hidle : r.port.later = [] ∨ r.port.waiting ≠ []) : p.Arrives r := by
  refine .of_journals (q := p.putEntry m new f) ?_ (p.putEntry_serves m new f) h hidle
  rw [Part.putEntry_um]
  exact p.putEntry_eq m new f

/-! ## The arrival that is stored -/

/-- R15: the content of an entry is replaced, and the record handed on where the policy asks for one. -/
def Part.putArrival (m : Nat) (e : Entry) (notify journal : Bool) (rec : JournalRecord) (p : Part) : Part :=
  if journal then (p.putEntry m (some e) notify).handRecord rec else p.putEntry m (some e) notify

theorem Part.storeArrival_eq (m : Nat) (counted : Entry) (content : List Byte) (early : Bool) (p : Part) :
    p.storeArrival m counted content early = p.putArrival m (counted.store content p.run.clock) (counted.storeNotifies content) counted.policies.journal
      (counted.journalRecord m content p.run.clock early) := rfl

theorem Part.admitArrival_eq (m : Nat) (k : Key) (content : List Byte) (p : Part) :
    p.admitArrival m k content = p.putArrival m ((newEntry k .admitted p.dir.defaults none).store content p.run.clock) p.dir.defaults.notify.state
      p.dir.defaults.journal ((newEntry k .admitted p.dir.defaults none).journalRecord m content p.run.clock false) := rfl

/-- What the entry shows once the arrival is in it, whatever becomes of the record. -/
structure State.ArrivesAt (s : State) (A : Part) (m : Nat) (new : Option Entry) (notify : Bool) : Prop where
  arrives : s.part.Arrives A
  um : A.um = s.part.um
  entry : A.entryAt m = new
  others : ∀ i, i ≠ m → A.entrySlot i = s.part.entrySlot i
  queue : A.svc.bankQueue = (s.part.putEntry m new notify).svc.bankQueue
  works : (s.part.putEntry m new notify).Works A

theorem State.arrivesAt_of {s : State} {A : Part} {m : Nat} (hm : m < 192) {new : Option Entry} {notify : Bool}
    (h : (s.part.putEntry m new notify).Journals A) (hidle : A.port.later = [] ∨ A.port.waiting ≠ []) : s.ArrivesAt A m new notify := by
  have hdir : A.dir = (s.part.putEntry m new notify).dir := by rw [h.part]
  have hslot : ∀ i, A.entrySlot i = (s.part.putEntry m new notify).entrySlot i := fun i => by rw [Part.entrySlot, hdir, Part.entrySlot]
  refine ⟨Part.putEntry_arrives m new notify h hidle, ?_, ?_, fun i hi => ?_, ?_, h.works.toWorks⟩
  · rw [h.part]
    exact Part.putEntry_um m new notify _
  · rw [Part.entryAt, hslot, Part.putEntry_slot _ _ _ _ hm, if_pos rfl]
  · rw [hslot, Part.putEntry_slot _ _ _ _ hm, if_neg hi]
  · rw [h.svc]

theorem State.putEntry_arrivesAt {s : State} (hport : s.PortFree) {m : Nat} (hm : m < 192) (new : Option Entry) (notify : Bool) :
    s.ArrivesAt (s.part.putEntry m new notify) m new notify :=
  State.arrivesAt_of hm (.refl _) (.inl ((s.part.putEntry_calm m new notify).later.trans hport.2))

theorem State.putArrival_arrivesAt {s : State} (hport : s.PortFree) {m : Nat} (hm : m < 192) (e : Entry) (notify journal : Bool) (rec : JournalRecord) :
    s.ArrivesAt (s.part.putArrival m e notify journal rec) m (some e) notify := by
  have hlater : (s.part.putEntry m (some e) notify).port.later = [] := (s.part.putEntry_calm m (some e) notify).later.trans hport.2
  cases journal with
  | false => exact State.putEntry_arrivesAt hport hm (some e) notify
  | true =>
    obtain ⟨hjournals, hcases⟩ := Part.handRecord_journals hlater rec
    exact State.arrivesAt_of hm hjournals (hcases.imp (fun h => h.2.2) fun h => by
      show ((s.part.putEntry m (some e) notify).handRecord rec).port.waiting ≠ []
      rw [h.2]
      exact h.1)

/-- R13, R14: with room the rewrite and its bank bit come first. -/
theorem State.ArrivesAt.mirrors {s r : State} {A : Part} {m : Nat} {new : Option Entry} {notify : Bool} (h : s.ArrivesAt A m new notify) (hm : m < 192)
    (hw : A.Works r.part) (hsvc : r.part.svc = A.svc) (hroom : s.PortRoom 4 1) : s.MirrorsEntry r m new notify := by
  obtain ⟨hport, hqueue⟩ := (State.putEntry_rewrites hroom.1 hm new notify).fits
    (s.fits_rewrite hroom (by decide) (le_refl 1) (s.entryMirror_shape m new) notify .directory m)
  have hfifo := (h.works.trans hw).port.fifo
  rw [hport] at hfifo
  refine ⟨?_, ?_⟩
  · rw [List.append_assoc]
    exact hfifo
  · rw [hsvc, h.queue, hqueue]

/-! ## The cases of an arrival -/

theorem Part.unitDeparting_false {p : Part} {a : Nat} {u : FieldUnit} (hu : p.unitAt a = some u) (hl : u.link ≠ .departing) : p.unitDeparting a = false := by
  unfold Part.unitDeparting
  rw [hu]
  exact beq_eq_false_iff_ne.mpr hl

theorem Part.takeArrival_departing {p : Part} {k : Key} {u : FieldUnit} (hu : p.unitAt k.unit = some u) (hl : u.link = .departing) (content : List Byte) :
    p.takeArrival k content = p := by
  unfold Part.takeArrival
  rw [if_pos (Part.unitDeparting_iff.mpr ⟨u, hu, hl⟩)]

theorem Part.takeArrival_known {p : Part} {k : Key} {u : FieldUnit} {m : Nat} {e : Entry} (hu : p.unitAt k.unit = some u) (hl : u.link ≠ .departing)
    (hm : p.findEntry k = some m) (he : p.entryAt m = some e) (content : List Byte) : p.takeArrival k content =
      if e.early p.run.clock = true then
        if e.policies.early = .drop then p.putEntry m (some e.countChatter) false else p.storeArrival m e.countChatter content true
      else p.storeArrival m e content false := by
  unfold Part.takeArrival
  rw [if_neg (by rw [Part.unitDeparting_false hu hl]; simp), hm]
  dsimp only
  rw [he]
  dsimp only
  cases e.policies.early <;> rfl

/-- R11: auto-admission finds the lowest vacant number. -/
theorem Part.takeArrival_admitted {p : Part} {k : Key} {u : FieldUnit} {m : Nat} (hu : p.unitAt k.unit = some u) (hl : u.link ≠ .departing)
    (hk : p.findEntry k = none) (hauto : p.dir.autoAdmission = true) (hm : p.vacantEntry = some m) (content : List Byte) :
    p.takeArrival k content = p.admitArrival m k content := by
  unfold Part.takeArrival
  rw [if_neg (by rw [Part.unitDeparting_false hu hl]; simp), hk]
  dsimp only
  rw [if_pos hauto, hm]

theorem Part.takeArrival_unadmitted {p : Part} {k : Key} {u : FieldUnit} (hu : p.unitAt k.unit = some u) (hl : u.link ≠ .departing)
    (hk : p.findEntry k = none) (h : p.dir.autoAdmission = false ∨ p.vacantEntry = none) (content : List Byte) :
    p.takeArrival k content = p.leaveUnadmitted k := by
  have hnone : (if p.dir.autoAdmission = true then p.vacantEntry else none) = none := by
    rcases h with h | h
    · rw [h]
      rfl
    · rw [h, ite_self]
  unfold Part.takeArrival
  rw [if_neg (by rw [Part.unitDeparting_false hu hl]; simp), hk]
  dsimp only
  rw [hnone]

/-! ## The unadmitted record (R12) -/

/-- R12: the unit with one more unadmitted record. -/
def FieldUnit.countUnadmitted (u : FieldUnit) : FieldUnit := { u with unadmitted := saturate 65535 u.unadmitted }

/-- A block that raises accesses and hands a bank bit on lets no block wait but itself and the Service Unit. -/
theorem Part.raiseFree_unwaited {b c : Block} (hb : c ≠ b) (hc : c ≠ .serviceUnit) (l : List Access) (bit : Bool) (m : MapKind) (i : Nat) {p : Part}
    (hw : p.port.waits c = false) :
    (Part.raiseFree b (l.map Item.access ++ if bit then [Item.hand (.bankBit m i)] else []) p).port.waits c = false := by
  induction l generalizing p with
  | nil =>
    cases bit with
    | false => exact hw
    | true =>
      show (p.takeBankBit m i).port.waits c = false
      unfold Part.takeBankBit
      dsimp only
      split
      · exact WindowPort.submit_unwaited hc _ hw
      · exact hw
  | cons a rest ih =>
    rw [List.map_cons, List.cons_append, Part.raiseFree]
    split
    · exact ih (p := { p with port := p.port.push a }) hw
    · exact (WindowPort.park_waits hb _ _).trans hw

theorem Part.putUnit_unwaited {p : Part} (hw : p.port.waiting = []) {a : Nat} (ha : 1 ≤ a ∧ a ≤ 30) (new : Option FieldUnit) (f : Bool) {c : Block}
    (hb : c ≠ .unitManager) (hc : c ≠ .serviceUnit) : (p.putUnit a new f).port.waits c = false := by
  obtain ⟨v, hv⟩ := Part.putUnit_raise ha new f p
  rw [hv, Part.raise_free (by exact hw)]
  exact Part.raiseFree_unwaited hb hc (p.unitWrites a new f) _ .unit a (p := { p with um := { p.um with slots := v } }) (WindowPort.not_waits hw _)

/-- R12, A42: the unit is counted first, and the total behind it. -/
theorem Part.leaveUnadmitted_eq {p : Part} (hw : p.port.waiting = []) {k : Key} (ha : 1 ≤ k.unit ∧ k.unit ≤ 30) {u : FieldUnit}
    (hu : p.unitAt k.unit = some u) : p.leaveUnadmitted k = (p.putUnit k.unit (some u.countUnadmitted) true).takeUnadmitted := by
  have hcount : p.countUnadmitted k.unit = p.putUnit k.unit (some u.countUnadmitted) true := by
    unfold Part.countUnadmitted
    rw [hu]
    rfl
  unfold Part.leaveUnadmitted Part.raise
  rw [hcount, if_neg (by rw [Part.putUnit_unwaited hw ha _ _ (by decide) (by decide)]; simp)]
  rfl

theorem Part.takeUnadmitted_svc (p : Part) : p.takeUnadmitted.svc = { p.svc with unadmitted := p.svc.unadmitted + 1 } := rfl

theorem Part.takeUnadmitted_eq (p : Part) : p.takeUnadmitted = { p with svc := p.takeUnadmitted.svc, port := p.takeUnadmitted.port } := rfl

theorem Part.takeUnadmitted_fits {p : Part} (h : p.port.Fits [.write (unadmittedAddr p.base) (le32 (p.svc.unadmitted + 1)) .silent]) :
    p.takeUnadmitted.port = p.port.with [.write (unadmittedAddr p.base) (le32 (p.svc.unadmitted + 1)) .silent] :=
  congrArg Part.port (Part.submit_fits .serviceUnit _ { p with svc := { p.svc with unadmitted := p.svc.unadmitted + 1 } } h)

theorem FieldUnit.countUnadmitted_bit (u : FieldUnit) : unitBitChange (some u) (some u.countUnadmitted) = decide (u.unadmitted = 0) := by
  unfold unitBitChange FieldUnit.countUnadmitted saturate
  by_cases h : u.unadmitted = 0
  · simp [h]
  · simp [h]

end Sys2Proof.Machine
end

section
/-! SUPPORT. An arrival reported by a unit (R6 to R14, R40, R41, R68). -/

namespace Sys2Proof.Machine

/-! ## The row of a REPORT -/

/-- R68: what a REPORT makes of the state, where the Directory Engine makes `A` of the part. -/
def State.reported (s : State) (x : Turn) (A : Part) : State := s.onPart fun _ => A.setTurn (x.gapped s.part.run.clock)

theorem exec_report {s : State} {x : Turn} {h : FrameHeader} {bytes payload : List Byte} (hf : s.InFrame x h 8)
    (hp : goodPayload h.len.toNat bytes = some payload) (hport : s.PortFree) {A : Part}
    (hA : s.part.takeArrival { unit := x.unit, kind := h.code.toNat } payload = A) (hrun : A.run = s.part.run) :
    exec (.report bytes) s = .next ((s.reported x A).onPart Part.settle) := by
  show Host.Outcome.next (s.onBlocks _) = _
  rw [State.onBlocks_eq (s.free_of_portFree hport)]
  unfold State.reported State.onPart
  dsimp only
  rw [Part.goodContents_eq hf hp]
  dsimp only
  rw [hA, Part.frameEnds_gap, hrun]

theorem Part.Arrives.run {p q : Part} (h : p.Arrives q) : q.run = p.run := by rw [h.part]

theorem Part.Arrives.te {p q : Part} (h : p.Arrives q) : q.te = p.te := by rw [h.part]

theorem Part.Arrives.line {p q : Part} (h : p.Arrives q) : q.line = p.line := by rw [h.part]

theorem Part.Arrives.dismissWait {p q : Part} (h : p.Arrives q) : q.um.dismissWait = p.um.dismissWait := by rw [h.part]

section Row

variable {s : State} {A : Part}

theorem Part.Arrives.requests (h : s.part.Arrives A) (hf : s.part.board.finishes = []) (x : Turn) :
    ∀ f ∈ (s.reported x A).part.board.finishes, f.transaction = false ∧ ∃ g ∈ s.part.jw.pages, f.seq = g.seq := fun f hmem =>
  (h.ended f hmem).resolve_left (by rw [hf]; exact List.not_mem_nil)

theorem Part.Arrives.resolves (h : s.part.Arrives A) {x : Turn} {r : State} (hr : s.ResolvedOrNot (s.reported x A) r) : (s.reported x A).Resolves r :=
  hr.resolves_idle h.idle fun n hn => h.waits n hn

theorem Part.Arrives.settles (h : s.part.Arrives A) (hs : s.Settled) (hw : s.part.port.waiting = []) (x : Turn) (hn : s.NoneWaits ∨ s.Steady) :
    (s.reported x A).onPart Part.settle = (s.reported x A).onPart Part.resolve :=
  hs.settle_resolves hw hn h.run h.te h.dismissWait (fun h' => h.resolves (.inr ⟨h', rfl⟩)) fun f hf => (h.requests (hs hw).2.1 x f hf).1

theorem Part.Arrives.finished (h : s.part.Arrives A) {ended : List Finish} (he : A.board.finishes = ended) (x : Turn) :
    s.Finished (s.reported x A) ended := by
  have hboard := h.board
  refine ⟨he, ?_, ?_, ?_, h.held, fun n hn => h.heldOf n fun f hf => hn f (he ▸ hf)⟩
  · have e := congrArg BoardController.registry hboard
    exact e
  · have e := congrArg BoardController.nextSeq hboard
    exact e
  · have e := congrArg BoardController.sweep hboard
    exact e

/-- What the row leaves of the blocks that take no part in it. -/
theorem Part.Arrives.frame (h : s.part.Arrives A) (hf : s.part.board.finishes = []) {x : Turn} {r : State}
    (hr : s.ResolvedOrNot (s.reported x A) r) : r.part.run = s.part.run ∧ r.part.te = s.part.te ∧
      r.part.line = { s.part.line with turn := some { x with phase := .gap s.part.run.clock } } := by
  have hres := h.resolves hr
  have hte := (hres.requests fun f hf' => (h.requests hf x f hf').1).1
  refine ⟨hres.releases.run.trans h.run, hte.trans h.te, hres.releases.line.trans ?_⟩
  show ({ A.line with turn := some (x.gapped s.part.run.clock) } : LineController) = _
  rw [h.line]
  rfl

theorem Part.Arrives.works (h : s.part.Arrives A) {x : Turn} {r : State} (hr : s.ResolvedOrNot (s.reported x A) r) : A.Works r.part :=
  (Part.setTurn_works _ A).trans (h.resolves hr).works

theorem State.ArrivesAt.entryAt {m : Nat} {new : Option Entry} {notify : Bool} (h : s.ArrivesAt A m new notify) {x : Turn} {r : State}
    (hr : s.ResolvedOrNot (s.reported x A) r) : r.part.um = s.part.um ∧ s.OtherEntries r m ∧ r.part.entryAt m = new := by
  have hres := h.arrives.resolves hr
  have hslot : ∀ i, r.part.entrySlot i = A.entrySlot i := fun i => by
    rw [Part.entrySlot, hres.releases.dir]
    rfl
  refine ⟨hres.releases.um.trans h.um, fun i hi => (hslot i).trans (h.others i hi), ?_⟩
  rw [Part.entryAt, hslot]
  exact h.entry

theorem State.ArrivesAt.mirrorsEntry {m : Nat} {new : Option Entry} {notify : Bool} (h : s.ArrivesAt A m new notify) (hm : m < 192) {x : Turn} {r : State}
    (hr : s.ResolvedOrNot (s.reported x A) r) (hroom : s.PortRoom 4 1) : s.MirrorsEntry r m new notify :=
  h.mirrors hm (h.arrives.works hr) (h.arrives.resolves hr).releases.svc hroom

end Row

/-! ## What an entry becomes -/

theorem Entry.early_iff (e : Entry) (now : Word) : e.early now = true ↔
    e.policies.minInterval ≠ 0 ∧ e.firstAfterChange = false ∧
      ∃ last, e.lastArrival = some last ∧ elapsed now last < 10 * e.policies.minInterval.toNat := by
  unfold Entry.early
  cases h : e.lastArrival with
  | none => simp
  | some last => simp [and_assoc]

/-- R9: the interval saturates. -/
theorem Entry.store_interval (e : Entry) (content : List Byte) (now : Word) :
    (e.lastArrival = none → (e.store content now).lastInterval = none) ∧
    ∀ last, e.lastArrival = some last → ∃ d : Half, (e.store content now).lastInterval = some d ∧ d.toNat = min (elapsed now last) 65535 := by
  unfold Entry.store
  refine ⟨fun h => by rw [h], fun last h => ?_⟩
  rw [h]
  refine ⟨_, rfl, ?_⟩
  split
  · next hlt =>
    rw [BitVec.toNat_ofNat]
    omega
  · next hge =>
    have h16 : (0xFFFF : Half).toNat = 65535 := rfl
    omega

theorem Entry.storeNotifies_iff (e : Entry) (content : List Byte) : e.storeNotifies content = true ↔
    e.policies.notify = .all ∨ e.policies.notify = .change ∧ (e.state ≠ .fresh ∨ e.content ≠ some content) := by
  unfold Entry.storeNotifies
  cases h : e.policies.notify with
  | all => simp
  | change => simp
  | never => simp

/-! ## The unadmitted record -/

theorem Part.leaveUnadmitted_arrives {p : Part} (hw : p.port.waiting = []) (hl : p.port.later = []) {k : Key} (ha : 1 ≤ k.unit ∧ k.unit ≤ 30) {u : FieldUnit}
    (hu : p.unitAt k.unit = some u) : p.Arrives (p.leaveUnadmitted k) := by
  have heq := Part.leaveUnadmitted_eq hw ha hu
  have hserves := p.leaveUnadmitted_serves k
  have hput := p.putUnit_eq k.unit (some u.countUnadmitted) true
  have hwait : (p.putUnit k.unit (some u.countUnadmitted) true).um.dismissWait = p.um.dismissWait := (p.putUnit_frame k.unit _ true).2.2.2.2
  have hlater : (p.leaveUnadmitted k).port.later = [] := by
    rw [heq]
    exact (Part.takeUnadmitted_calm _).later.trans ((p.putUnit_calm _ _ _).later.trans hl)
  refine .of_journals (q := p.leaveUnadmitted k) ?_ hserves (.refl _) (.inl hlater)
  rw [heq, Part.takeUnadmitted_eq]
  generalize p.putUnit k.unit (some u.countUnadmitted) true = q at hput hwait ⊢
  have hum : q.um = { p.um with slots := q.um.slots } := by
    dsimp only
    rw [← hwait]
  generalize q.takeUnadmitted.svc = v
  generalize q.takeUnadmitted.port = w
  rw [hput]
  show ({ p with um := q.um, svc := v, port := w } : Part) = { p with um := { p.um with slots := q.um.slots }, svc := v, port := w }
  rw [← hum]

/-- R174: a unit's mirror, its bank bit and a total need room for four writes and a read. -/
theorem State.fits_unadmitted {s : State} (h : s.PortRoom 4 1) (addr : Nat) (v : BitVec 64) (body : List Byte) (bit : Bool) (a total : Nat) (bytes : List Byte) :
    s.part.port.Fits (mirrorWrites addr v body ++ (if bit then s.part.bankBitRead .unit a else []) ++ [.write total bytes .silent]) := by
  obtain ⟨hw, hr⟩ := mirrorWrites_counts addr v body
  obtain ⟨b1, b2⟩ := s.part.bankBitRead_counts .unit a
  have hbit : ((if bit then s.part.bankBitRead .unit a else []).filter fun a => !a.isRead).length = 0 ∧
      ((if bit then s.part.bankBitRead .unit a else []).filter Access.isRead).length ≤ 1 := by
    cases bit with
    | false => exact ⟨rfl, Nat.zero_le 1⟩
    | true => exact ⟨b1, b2⟩
  have htotal : (([.write total bytes .silent] : List Access).filter fun a => !a.isRead).length = 1 ∧
      (([.write total bytes .silent] : List Access).filter Access.isRead).length = 0 := ⟨rfl, rfl⟩
  refine s.fits_of_portRoom h ?_ ?_
  · rw [List.filter_append, List.filter_append, List.length_append, List.length_append, hw, hbit.1, htotal.1]
  · rw [List.filter_append, List.filter_append, List.length_append, List.length_append, hr, htotal.2]
    omega

/-- R12, R40, R41: the unit's mirror is rewritten in every case, its bank bit handed on where the count leaves 0, and the total written. -/
structure State.Unadmits (s : State) (A : Part) (a : Nat) (u : FieldUnit) : Prop where
  arrives : s.part.Arrives A
  dir : A.dir = s.part.dir
  jw : A.jw = s.part.jw
  board : A.board = s.part.board
  total : A.svc.unadmitted = s.part.svc.unadmitted + 1
  unit : A.unitAt a = some u.countUnadmitted
  others : ∀ b, b ≠ a → A.unitSlot b = s.part.unitSlot b
  shows : (mirrorWrites (unitMirrorAddr s.part.base a) (s.part.unitSlot a).version (unitBody (some u.countUnadmitted))).Sublist A.port.outstanding
  fits : s.PortRoom 4 1 → A.port = s.part.port.with (mirrorWrites (unitMirrorAddr s.part.base a) (s.part.unitSlot a).version
      (unitBody (some u.countUnadmitted)) ++ (if u.unadmitted = 0 then s.part.bankBitRead .unit a else []) ++
      [.write (s.part.base + 0x58) (le32 (s.part.svc.unadmitted + 1)) .silent]) ∧
    A.svc.bankQueue = s.part.svc.bankQueue ++ if u.unadmitted = 0 then [.update s.part.svc.activeBank .unit a] else []

theorem State.leaveUnadmitted_unadmits {s : State} (hport : s.PortFree) {k : Key} (ha : 1 ≤ k.unit ∧ k.unit ≤ 30) {u : FieldUnit}
    (hu : s.part.unitAt k.unit = some u) : s.Unadmits (s.part.leaveUnadmitted k) k.unit u := by
  have heq := Part.leaveUnadmitted_eq hport.1 ha hu
  have harrives := Part.leaveUnadmitted_arrives hport.1 hport.2 ha hu
  have hr := Part.putUnit_rewrites hport.1 ha (some u.countUnadmitted) true
  have hslot := Part.putUnit_slot k.unit (some u.countUnadmitted) true s.part ha
  have hput := s.part.putUnit_eq k.unit (some u.countUnadmitted) true
  have hbase := (s.part.putUnit_serves k.unit (some u.countUnadmitted) true).toWorks.base
  rw [hu, FieldUnit.countUnadmitted_bit, Part.unitWrites_always] at hr
  rw [heq] at harrives ⊢
  generalize s.part.putUnit k.unit (some u.countUnadmitted) true = q at *
  have hqsvc := hr.svc
  refine ⟨harrives, ?_, ?_, ?_, ?_, ?_, fun b hb => ?_, ?_, fun hroom => ?_⟩
  · exact (congrArg Part.dir hput).trans rfl
  · exact (congrArg Part.jw hput).trans rfl
  · exact (congrArg Part.board hput).trans rfl
  · rw [Part.takeUnadmitted_svc]
    dsimp only
    rw [hqsvc]
  · show q.unitAt k.unit = _
    rw [Part.unitAt, hslot, if_pos rfl]
  · exact (hslot b).trans (if_neg hb)
  · exact ((List.sublist_append_right _ _).trans hr.outstanding).trans q.takeUnadmitted_serves.port.outstanding
  · have hfits := s.fits_unadmitted hroom (unitMirrorAddr s.part.base k.unit) (s.part.unitSlot k.unit).version (unitBody (some u.countUnadmitted))
      (decide (u.unadmitted = 0)) k.unit (s.part.base + 0x58) (le32 (s.part.svc.unadmitted + 1))
    obtain ⟨hfits, htotal⟩ := WindowPort.fits_append hfits
    obtain ⟨hqport, hqueue⟩ := hr.fits hfits
    have hun : q.svc.unadmitted = s.part.svc.unadmitted := by rw [hqsvc]
    have htake := Part.takeUnadmitted_fits (p := q) (by
      rw [hqport, hun, unadmittedAddr, hbase]
      exact htotal)
    rw [htake, hqport, WindowPort.with_with, hun, unadmittedAddr, hbase]
    refine ⟨?_, ?_⟩
    · simp only [decide_eq_true_eq]
    · rw [Part.takeUnadmitted_svc]
      simpa only [decide_eq_true_eq] using hqueue

end Sys2Proof.Machine
end

section
/-! SUPPORT. A REPORT is an arrival (R6 to R14, R40, R41, R68). -/

namespace Sys2Proof.Machine

/-- R8: an early arrival that is dropped is counted. -/
theorem Part.takeArrival_dropped {p : Part} {k : Key} {u : FieldUnit} {m : Nat} {e : Entry} (hu : p.unitAt k.unit = some u) (hl : u.link ≠ .departing)
    (hm : p.findEntry k = some m) (he : p.entryAt m = some e) (hearly : e.early p.run.clock = true) (hdrop : e.policies.early = .drop)
    (content : List Byte) : p.takeArrival k content = p.putEntry m (some e.countChatter) false := by
  rw [Part.takeArrival_known hu hl hm he, if_pos hearly, if_pos hdrop]

/-- R8, R9: the chatter count of an arrival that is stored. -/
theorem Part.takeArrival_stored {p : Part} {k : Key} {u : FieldUnit} {m : Nat} {e : Entry} (hu : p.unitAt k.unit = some u) (hl : u.link ≠ .departing)
    (hm : p.findEntry k = some m) (he : p.entryAt m = some e) {chatter : Half}
    (h : e.early p.run.clock = true ∧ e.policies.early = .keep ∧ chatter = (if e.chatter = 0xFFFF then 0xFFFF else e.chatter + 1) ∨
      e.early p.run.clock = false ∧ chatter = e.chatter) (content : List Byte) :
    p.takeArrival k content = p.putArrival m ({ e with chatter := chatter }.store content p.run.clock)
      ({ e with chatter := chatter }.storeNotifies content) e.policies.journal
      ({ e with chatter := chatter }.journalRecord m content p.run.clock (e.early p.run.clock)) := by
  rcases h with ⟨hearly, hkeep, rfl⟩ | ⟨hearly, rfl⟩
  · rw [Part.takeArrival_known hu hl hm he, if_pos hearly, if_neg (by rw [hkeep]; simp), Part.storeArrival_eq, hearly]
    rfl
  · rw [Part.takeArrival_known hu hl hm he, if_neg (by rw [hearly]; simp), Part.storeArrival_eq, hearly]

/-- R9: every field of the entry behind a stored arrival. -/
theorem Entry.store_eq (e : Entry) (chatter : Half) (content : List Byte) (now : Word) : { e with chatter := chatter }.store content now = { e with
    content := some content, arrivals := e.arrivals + 1, chatter := chatter
    lastInterval := ({ e with chatter := chatter }.store content now).lastInterval, lastArrival := some now, state := .fresh, firstAfterChange := false
    staleTimer := if e.policies.maxInterval = 0 then none else some now } := rfl

theorem Entry.storeNotifies_chatter (e : Entry) (chatter : Half) (content : List Byte) : { e with chatter := chatter }.storeNotifies content = true ↔
    e.policies.notify = .all ∨ e.policies.notify = .change ∧ (e.state ≠ .fresh ∨ e.content ≠ some content) :=
  Entry.storeNotifies_iff { e with chatter := chatter } content

theorem Entry.store_interval_chatter (e : Entry) (chatter : Half) (content : List Byte) (now : Word) :
    (e.lastArrival = none → ({ e with chatter := chatter }.store content now).lastInterval = none) ∧
    ∀ last, e.lastArrival = some last →
      ∃ d : Half, ({ e with chatter := chatter }.store content now).lastInterval = some d ∧ d.toNat = min (elapsed now last) 65535 :=
  Entry.store_interval { e with chatter := chatter } content now

/-- Where nothing has finished and nothing waits to be done, the resolution does nothing. -/
theorem State.ResolvedOrNot.eq_of_quiet {s t r : State} (h : s.ResolvedOrNot t r) (hl : t.part.port.later = []) (hf : t.part.board.finishes = []) : r = t := by
  rcases h with rfl | ⟨-, rfl⟩
  · rfl
  · unfold State.onPart
    rw [Part.resolve_eq_self hl hf]

/-- Every arrival is one of the cases above. -/
theorem State.takeArrival_arrives {s : State} (hport : s.PortFree) {k : Key} (ha : 1 ≤ k.unit ∧ k.unit ≤ 30) {u : FieldUnit}
    (hu : s.part.unitAt k.unit = some u) (content : List Byte) : s.part.Arrives (s.part.takeArrival k content) := by
  by_cases hl : u.link = .departing
  · rw [Part.takeArrival_departing hu hl]
    exact .of_journals (q := s.part) rfl (.refl _) (.refl _) (.inl hport.2)
  · cases hk : s.part.findEntry k with
    | some m =>
      obtain ⟨hm, e, he, -⟩ := Part.findEntry_some hk
      cases hearly : e.early s.part.run.clock with
      | false =>
        rw [Part.takeArrival_stored hu hl hk he (.inr ⟨hearly, rfl⟩)]
        exact (State.putArrival_arrivesAt hport hm _ _ _ _).arrives
      | true =>
        cases hpolicy : e.policies.early with
        | drop =>
          rw [Part.takeArrival_dropped hu hl hk he hearly hpolicy]
          exact (State.putEntry_arrivesAt hport hm _ _).arrives
        | keep =>
          rw [Part.takeArrival_stored hu hl hk he (.inl ⟨hearly, hpolicy, rfl⟩)]
          exact (State.putArrival_arrivesAt hport hm _ _ _ _).arrives
    | none =>
      by_cases hauto : s.part.dir.autoAdmission = false ∨ s.part.vacantEntry = none
      · rw [Part.takeArrival_unadmitted hu hl hk hauto]
        exact Part.leaveUnadmitted_arrives hport.1 hport.2 ha hu
      · obtain ⟨h1, h2⟩ := not_or.mp hauto
        obtain ⟨m, hm⟩ := Option.ne_none_iff_exists'.mp h2
        rw [Part.takeArrival_admitted hu hl hk (by simpa using h1) hm, Part.admitArrival_eq]
        exact (State.putArrival_arrivesAt hport (Part.vacantEntry_some hm).1 _ _ _ _).arrives

/-- Settles O50: the row of each case of the arrival. -/
theorem reportIsTakenAsAnArrival : Obligations.ReportIsTakenAsAnArrival := by
  unfold Obligations.ReportIsTakenAsAnArrival
  intro s x h bytes payload u key hf hp hu ha hs hw hkey
  subst hkey
  obtain ⟨hlater, hfinishes, -⟩ := hs hw
  have hport : s.PortFree := ⟨hw, hlater⟩
  let k : Key := { unit := x.unit, kind := h.code.toNat }
  obtain ⟨A, hA⟩ : ∃ A, s.part.takeArrival k payload = A := ⟨_, rfl⟩
  have harrives : s.part.Arrives A := hA ▸ State.takeArrival_arrives hport (k := k) ha hu payload
  refine ⟨s.reported x A, exec_report hf hp hport hA harrives.run, harrives.settles hs hw x, rfl, rfl,
    ⟨_, harrives.finished rfl x, harrives.requests hfinishes x⟩, fun r hr => ?_⟩
  obtain ⟨hrun, hte, hline⟩ := harrives.frame hfinishes hr
  have hres := harrives.resolves hr
  have hentry : ∀ {m new notify}, s.ArrivesAt A m new notify → r.part.um = s.part.um ∧ s.OtherEntries r m ∧ r.part.entryAt m = new := fun h => h.entryAt hr
  have hadmitted : ∀ m, u.link ≠ .departing → s.part.findEntry k = none → s.part.dir.autoAdmission = true → s.part.vacantEntry = some m →
      s.ArrivesAt A m (some ((newEntry k .admitted s.part.dir.defaults none).store payload s.part.run.clock)) s.part.dir.defaults.notify.state :=
    fun m hl hk hauto hm => by
      rw [← hA, Part.takeArrival_admitted hu hl hk hauto hm, Part.admitArrival_eq]
      exact State.putArrival_arrivesAt hport (Part.vacantEntry_some hm).1 _ _ _ _
  have hstored : ∀ (m : Nat) (e : Entry) (chatter : Half), u.link ≠ .departing → s.part.findEntry k = some m → s.part.entryAt m = some e →
      (e.early s.part.run.clock = true ∧ e.policies.early = .keep ∧ chatter = (if e.chatter = 0xFFFF then 0xFFFF else e.chatter + 1) ∨
        e.early s.part.run.clock = false ∧ chatter = e.chatter) →
      s.ArrivesAt A m (some ({ e with chatter := chatter }.store payload s.part.run.clock)) ({ e with chatter := chatter }.storeNotifies payload) :=
    fun m e chatter hl hk he hc => by
      rw [← hA, Part.takeArrival_stored hu hl hk he hc]
      exact State.putArrival_arrivesAt hport (Part.findEntry_some hk).1 _ _ _ _
  have hdropped : ∀ (m : Nat) (e : Entry), u.link ≠ .departing → s.part.findEntry k = some m → s.part.entryAt m = some e →
      e.early s.part.run.clock = true → e.policies.early = .drop → A = s.part.putEntry m (some e.countChatter) false := fun m e hl hk he h1 h2 =>
    hA.symm.trans (Part.takeArrival_dropped hu hl hk he h1 h2 payload)
  have hunadmits : u.link ≠ .departing → s.part.findEntry k = none → (s.part.dir.autoAdmission = false ∨ s.part.vacantEntry = none) →
      s.Unadmits A x.unit u := fun hl hk hauto => by
    rw [← hA, Part.takeArrival_unadmitted hu hl hk hauto]
    exact State.leaveUnadmitted_unadmits hport (k := k) ha hu
  refine ⟨hrun, hte, hline, ?units, fun hl => ?departing, fun m e early hl hk he hearly => ?known, fun m e' hl hk hauto hm he' => ?admitted,
    fun v hl hk hauto hv => ?unadmitted⟩
  case units =>
    intro b hb
    have hslot : r.part.unitSlot b = A.unitSlot b := by rw [Part.unitSlot, hres.releases.um]; rfl
    rw [hslot]
    by_cases hl : u.link = .departing
    · rw [← hA, Part.takeArrival_departing hu hl]
    · cases hk : s.part.findEntry k with
      | some m =>
        obtain ⟨hm, e, he, -⟩ := Part.findEntry_some hk
        have hum : A.um = s.part.um := by
          cases h1 : e.early s.part.run.clock with
          | false => exact (hstored m e e.chatter hl hk he (.inr ⟨h1, rfl⟩)).um
          | true =>
            cases h2 : e.policies.early with
            | drop =>
              rw [hdropped m e hl hk he h1 h2]
              exact Part.putEntry_um _ _ _ _
            | keep => exact (hstored m e _ hl hk he (.inl ⟨h1, h2, rfl⟩)).um
        rw [Part.unitSlot, hum, Part.unitSlot]
      | none =>
        by_cases hauto : s.part.dir.autoAdmission = false ∨ s.part.vacantEntry = none
        · exact (hunadmits hl hk hauto).others b hb
        · obtain ⟨h1, h2⟩ := not_or.mp hauto
          obtain ⟨m, hm⟩ := Option.ne_none_iff_exists'.mp h2
          rw [Part.unitSlot, (hadmitted m hl hk (by simpa using h1) hm).um, Part.unitSlot]
  case departing =>
    have hAs : A = s.part := hA.symm.trans (Part.takeArrival_departing hu hl payload)
    have hnone : (s.reported x A).part.board.finishes = [] := by
      rw [hAs]
      exact hfinishes
    have hr : r = s.reported x A := hr.eq_of_quiet (by rw [hAs]; exact hlater) hnone
    rw [hr, hAs]
    rfl
  case known =>
    have hm := (Part.findEntry_some hk).1
    have hearly : early = e.early s.part.run.clock := Bool.eq_iff_iff.mpr (hearly.trans (Entry.early_iff e s.part.run.clock).symm)
    subst hearly
    obtain ⟨hum, hothers, -⟩ : r.part.um = s.part.um ∧ s.OtherEntries r m ∧ True := by
      cases h1 : e.early s.part.run.clock with
      | false =>
        obtain ⟨h1, h2, -⟩ := hentry (hstored m e e.chatter hl hk he (.inr ⟨h1, rfl⟩))
        exact ⟨h1, h2, trivial⟩
      | true =>
        cases h2 : e.policies.early with
        | drop =>
          obtain ⟨h1, h2, -⟩ := hentry (by rw [hdropped m e hl hk he h1 h2]; exact State.putEntry_arrivesAt hport hm _ _)
          exact ⟨h1, h2, trivial⟩
        | keep =>
          obtain ⟨h1, h2, -⟩ := hentry (hstored m e _ hl hk he (.inl ⟨h1, h2, rfl⟩))
          exact ⟨h1, h2, trivial⟩
    refine ⟨hum, hothers, fun h1 h2 => ?_, fun chatter hc => ?_⟩
    · have hat : s.ArrivesAt A m (some e.countChatter) false := by
        rw [hdropped m e hl hk he h1 h2]
        exact State.putEntry_arrivesAt hport hm _ _
      have hjw : A.jw = s.part.jw := by
        rw [hdropped m e hl hk he h1 h2, Part.putEntry_eq]
      exact ⟨hres.releases.jw.trans hjw, (hentry hat).2.2, hat.mirrorsEntry hm hr⟩
    · have hat := hstored m e chatter hl hk he hc
      obtain ⟨hi1, hi2⟩ := e.store_interval_chatter chatter payload s.part.run.clock
      have hmirrors : s.PortRoom 4 1 → _ := hat.mirrorsEntry hm hr
      have hat' := (hentry hat).2.2
      have hnotifies := e.storeNotifies_chatter chatter payload
      have hstore := e.store_eq chatter payload s.part.run.clock
      generalize { e with chatter := chatter }.store payload s.part.run.clock = e' at *
      generalize { e with chatter := chatter }.storeNotifies payload = notify at *
      exact ⟨e'.lastInterval, e', notify, hstore, hat', hi1, hi2, hnotifies, hmirrors⟩
  case admitted =>
    subst he'
    have hat := hadmitted m hl hk hauto hm
    obtain ⟨h1, h2, h3⟩ := hentry hat
    exact ⟨h1, h2, h3, hat.mirrorsEntry (Part.vacantEntry_some hm).1 hr⟩
  case unadmitted =>
    have hv : v = u.countUnadmitted := hv
    subst hv
    have hun := hunadmits hl hk hauto
    have hunit : r.part.unitAt x.unit = some u.countUnadmitted := by
      rw [Part.unitAt, Part.unitSlot, hres.releases.um]
      exact hun.unit
    refine ⟨hres.releases.dir.trans hun.dir, hres.releases.jw.trans hun.jw, (congrArg ServiceUnit.unadmitted hres.releases.svc).trans hun.total, hunit,
      hun.shows.trans (harrives.works hr).port.outstanding, fun hroom => ?_⟩
    obtain ⟨hAport, hqueue⟩ := hun.fits hroom
    have hnone : (s.reported x A).part.board.finishes = [] := (congrArg BoardController.finishes hun.board).trans hfinishes
    have hrport : r.part.port = A.port := by
      rw [hr.eq_of_quiet (by show A.port.later = []; rw [hAport]; exact hlater) hnone]
      rfl
    exact ⟨⟨hrport.trans hAport, hres.mem⟩, (congrArg ServiceUnit.bankQueue hres.releases.svc).trans hqueue⟩

end Sys2Proof.Machine
end

section
/-! SUPPORT. What becomes of a journal record: appended, the first of the next page, or lost (R156, R157, R161). -/

namespace Sys2Proof.Machine

/-! ## A record appended -/

/-- R156: from `q` to `A` a record has been appended to the open page. -/
structure Part.Appends (q A : Part) (g : Page) (o : OpenPage) (rec : JournalRecord) : Prop where
  part : A = { q with jw := q.jw.append g o rec, port := A.port }
  works : q.Works A
  shows : Access.write (g.addr.toNat + o.used) rec.bytes .silent ∈ A.port.outstanding
  fits : q.port.Fits [.write (g.addr.toNat + o.used) rec.bytes .silent] → A.port = q.port.with [.write (g.addr.toNat + o.used) rec.bytes .silent]

theorem Part.raise_access (b : Block) (a : Access) (p : Part) : ∃ w, Part.raise b [.access a] p = { p with port := w } := by
  unfold Part.raise
  split
  · exact ⟨_, rfl⟩
  · unfold Part.raiseFree
    split
    · exact ⟨_, rfl⟩
    · exact ⟨_, rfl⟩

theorem Part.placeRecord_appends {q : Part} {g : Page} {rest : List Page} {o : OpenPage} (hp : q.jw.pages = g :: rest) (ho : q.jw.opened = some o)
    (rec : JournalRecord) : q.Appends (q.placeRecord rec) g o rec := by
  have hworks := (q.placeRecord_serves rec).toWorks
  let a : Access := .write (g.addr.toNat + o.used) rec.bytes .silent
  let P : Part := { q with jw := q.jw.append g o rec }
  have heq : q.placeRecord rec = Part.raise .journalWriter [.access a] P := Part.placeRecord_open hp ho rec
  rw [heq] at hworks ⊢
  refine ⟨?_, hworks, ?_, fun hfits => ?_⟩
  · obtain ⟨w, h⟩ := P.raise_access .journalWriter a
    rw [h]
  · have h := Part.raise_ofBlock .journalWriter [a] (n := []) rfl P
    exact ((List.sublist_append_right _ _).trans (h.trans (WindowPort.ofBlock_outstanding _ _))).subset List.mem_cons_self
  · rw [Part.raise_free (by exact hfits.1)]
    have h := Part.raiseFree_accesses .journalWriter [a] [] P hfits
    exact congrArg Part.port h

/-! ## A record lost -/

/-- R161: from `q` to `A` a record has been lost. -/
structure Part.Loses (q A : Part) (rec : JournalRecord) : Prop where
  part : A = { q with jw := q.jw.lose, svc := A.svc, port := A.port }
  works : q.Works A
  losses : A.svc.journalLosses = q.svc.journalLosses + 1
  ring : A.svc.ringIndex = if q.jw.gapReported then q.svc.ringIndex else (q.svc.ringIndex + 1) % 32
  quiet : q.jw.gapReported = true → A.svc.nextFault = q.svc.nextFault
  logs : q.jw.gapReported = false → ∃ index seq, (faultWrites q.base index seq rec.gap q.run.clock).Sublist A.port.outstanding
  fits : q.port.Fits [.write (q.base + 0x54) (le32 (q.svc.journalLosses + 1)) .silent] →
    (q.port.with [.write (q.base + 0x54) (le32 (q.svc.journalLosses + 1)) .silent]).fifo <+: A.port.fifo

theorem Part.loseRecord_loses {q : Part} (hw : q.port.waits .journalWriter = false) (rec : JournalRecord) : q.Loses (q.loseRecord rec) rec := by
  have hworks := (q.loseRecord_serves rec).toWorks
  let P : Part := Part.takeJournalLoss { q with jw := q.jw.lose }
  have hfirst : q.port.Fits [.write (q.base + 0x54) (le32 (q.svc.journalLosses + 1)) .silent] →
      P.port = q.port.with [.write (q.base + 0x54) (le32 (q.svc.journalLosses + 1)) .silent] := fun h =>
    WindowPort.submit_fits .serviceUnit _ q.port h
  have heq : q.loseRecord rec = if q.jw.gapReported then P else P.takeFault rec.gap := Part.loseRecord_eq hw rec
  rw [heq] at hworks ⊢
  cases hgap : q.jw.gapReported with
  | true =>
    rw [hgap, if_pos rfl] at hworks
    rw [if_pos rfl]
    exact ⟨rfl, hworks, rfl, (if_pos hgap).symm, fun _ => rfl, fun h => absurd (hgap.symm.trans h) (by simp), fun h => by rw [hfirst h]⟩
  | false =>
    rw [hgap, if_neg (by simp)] at hworks
    rw [if_neg (by simp)]
    refine ⟨rfl, hworks, rfl, (if_neg (by simp [hgap])).symm, fun h => absurd (hgap.symm.trans h) (by simp), fun _ => ⟨P.svc.ringIndex, P.svc.nextFault, ?_⟩, fun h => ?_⟩
    · exact WindowPort.submit_sublist .serviceUnit _ P.port
    · rw [← hfirst h]
      exact (P.takeFault_serves rec.gap).port.fifo

/-! ## The completions of a page let no block wait but the Board Controller -/

theorem Part.completeRequest_unwaited {c : Block} (hc : c ≠ .boardController) (n : Nat) (r : Result) {p : Part} (hw : p.port.waits c = false) :
    (p.completeRequest n r).port.waits c = false := by
  unfold Part.completeRequest Part.completeSlot
  cases p.heldOf n with
  | none => exact hw
  | some h =>
    dsimp only
    unfold Part.writeCompletion
    dsimp only
    split
    · exact WindowPort.submit_unwaited hc _ hw
    · exact hw

theorem Part.completeEach_unwaited {c : Block} (hc : c ≠ .boardController) (l : List (Nat × Result)) {p : Part} (hw : p.port.waits c = false) :
    (p.completeEach l).port.waits c = false := by
  induction l generalizing p with
  | nil => exact hw
  | cons x rest ih => exact ih (Part.completeRequest_unwaited hc x.1 x.2 hw)

/-! ## Where the record goes -/

theorem Part.takeRecord_fitting {q : Part} {g : Page} {rest : List Page} {o : OpenPage} (hp : q.jw.pages = g :: rest) (ho : q.jw.opened = some o)
    {rec : JournalRecord} (hfits : o.used + rec.size ≤ 256 * g.size) : q.takeRecord rec = q.placeRecord rec := by
  have h : q.jw.fits rec = true := by
    unfold JournalWriter.fits
    rw [hp, ho]
    exact decide_eq_true hfits
  unfold Part.takeRecord
  rw [if_neg (by rw [h]; simp)]

theorem Part.takeRecord_full {q : Part} {g : Page} {rest : List Page} {o : OpenPage} (hp : q.jw.pages = g :: rest) (ho : q.jw.opened = some o)
    {rec : JournalRecord} (hfull : 256 * g.size < o.used + rec.size) : q.takeRecord rec = (q.completePage .ok).placeRecord rec := by
  have h : q.jw.fits rec = false := by
    unfold JournalWriter.fits
    rw [hp, ho]
    exact decide_eq_false (by omega)
  unfold Part.takeRecord
  rw [if_pos (by rw [h, ho]; rfl)]

theorem Part.takeRecord_closed {q : Part} (h : q.jw.pages = [] ∨ q.jw.opened = none) (hw : q.port.waiting = []) (rec : JournalRecord) :
    q.takeRecord rec = q.loseRecord rec := by
  unfold Part.takeRecord
  rw [Part.completePage_none h hw, Part.placeRecord_closed h, ite_self]

/-- R155: the queue behind the withdrawn pages, its first page open. -/
theorem JournalWriter.passed_eq (j : JournalWriter) {rest withdrawn more : List Page} (hrest : rest = withdrawn ++ more)
    (hall : ∀ g ∈ withdrawn, g.withdrawn = true) (hfirst : ∀ g tail, more = g :: tail → g.withdrawn = false) :
    (more = [] → j.passed rest = { j with pages := [], opened := none }) ∧
    ∀ g tail, more = g :: tail → j.passed rest = ({ j with pages := g :: tail } : JournalWriter).openFront := by
  have hdrop : rest.dropWhile (fun g => g.withdrawn) = more := hrest ▸ (List.takeWhile_dropWhile_of_append (f := Page.withdrawn) hall hfirst).2
  exact ⟨fun h => by rw [JournalWriter.passed, hdrop, h], fun g tail h => by rw [JournalWriter.passed, hdrop, h]⟩

end Sys2Proof.Machine
end

section
/-! SUPPORT. A stored arrival with the journal policy (R8, R11, R15, R146, R156, R157, R161). -/

namespace Sys2Proof.Machine

theorem Part.placeRecord_board {p : Part} (hw : p.port.waits .journalWriter = false) (rec : JournalRecord) : (p.placeRecord rec).board = p.board := by
  have hlose : (p.jw.pages = [] ∨ p.jw.opened = none) → (p.placeRecord rec).board = p.board := fun h => by
    rw [Part.placeRecord_closed h, (Part.loseRecord_loses hw rec).part]
  cases hp : p.jw.pages with
  | nil => exact hlose (.inl hp)
  | cons g rest =>
    cases ho : p.jw.opened with
    | none => exact hlose (.inr ho)
    | some o => rw [(Part.placeRecord_appends hp ho rec).part]

/-! ## The record that does not fit -/

/-- R157: the part behind the completion of the open page `g`, from which the record goes on. -/
structure Part.PageDone (q Q : Part) (g : Page) (o : OpenPage) (rest : List Page) : Prop where
  jw : Q.jw = q.jw.passed rest
  svc : Q.svc = q.svc
  run : Q.run = q.run
  unwaited : Q.port.waits .journalWriter = false
  works : q.Works Q
  first : q.port.fifo ++ [.write g.addr.toNat o.head .silent] <+: Q.port.fifo
  finishes : Q.board.finishes = q.board.finishes ++ q.requestFinishes (pageResults g o rest)
  shows : ∀ x ∈ pageResults g o rest, ∀ h, q.heldOf x.1 = some h → q.Shows Q (h.completion x.2 q.run.clock)

theorem Part.takeRecord_pageDone {q : Part} {g : Page} {rest : List Page} {o : OpenPage} (hp : q.jw.pages = g :: rest) (ho : q.jw.opened = some o)
    {rec : JournalRecord} (hfull : 256 * g.size < o.used + rec.size) (hw : q.port.waiting = []) (hroom : q.port.writesQueued < Config.writeQueueSize)
    (hD : (q.jw.pages.map (·.seq)).Nodup) : ∃ Q, q.takeRecord rec = Q.placeRecord rec ∧ q.PageDone Q g o rest := by
  let P : Part := { q with jw := q.jw.passed rest, port := q.port.with [.write g.addr.toNat o.head .silent] }
  have hpage : q.completePage .ok = P.completeEach (pageResults g o rest) := (Part.completePage_cases hp ho hw).elim And.right fun h => by
    have := h.1
    omega
  have hnodup := withdrawnResults_nodup (g := g) (rest := rest) (by rw [← hp]; exact hD) (o.lendResult .ok)
  have hworks := (q.completePage_serves .ok).toWorks
  have hrel := P.completeEach_releases (pageResults g o rest)
  refine ⟨q.completePage .ok, Part.takeRecord_full hp ho hfull, ?_⟩
  rw [hpage] at hworks ⊢
  refine ⟨hrel.jw, hrel.svc, hrel.run, Part.completeEach_unwaited (by decide) _ (WindowPort.not_waits hw _), hworks, (P.completeEach_works _).port.fifo,
    Part.completeEach_finishes_eq (l := pageResults g o rest) hnodup P, fun x hx h hh => ?_⟩
  exact Part.completeEach_shows (p := P) hnodup hx hh

/-! ## The arrival that hands on a record -/

/-- R13, R14: the part behind the rewrite of entry number `m` of `s`. -/
structure State.Rewritten (s : State) (q : Part) (m : Nat) (e : Entry) (notify : Bool) : Prop where
  part : q = { s.part with dir := q.dir, svc := { s.part.svc with bankQueue := q.svc.bankQueue }, port := q.port }
  works : s.part.Works q
  later : q.port.later = []
  entry : q.entryAt m = some e
  fits : s.PortRoom 3 1 → q.port = s.part.port.with (s.entryMirror m (some e) ++ if notify then s.part.bankBitRead .directory m else []) ∧
    q.svc.bankQueue = s.part.svc.bankQueue ++ if notify then [.update s.part.svc.activeBank .directory m] else []

theorem State.putEntry_rewritten {s : State} (hport : s.PortFree) {m : Nat} (hm : m < 192) (e : Entry) (notify : Bool) :
    s.Rewritten (s.part.putEntry m (some e) notify) m e notify := by
  have hr := State.putEntry_rewrites hport.1 hm (some e) notify
  refine ⟨?_, (s.part.putEntry_serves m (some e) notify).toWorks, hr.later.trans hport.2, ?_, fun hroom =>
    hr.fits (s.fits_rewrite hroom (le_refl 3) (le_refl 1) (s.entryMirror_shape m (some e)) notify .directory m)⟩
  · rw [← hr.svc]
    exact s.part.putEntry_eq m (some e) notify
  · rw [Part.entryAt, Part.putEntry_slot _ _ _ _ hm, if_pos rfl]

/-- R8, R11, R15: whether kept early, stored or admitted, the arrival hands its record on behind the rewrite. -/
theorem State.takeArrival_records {s : State} (hport : s.PortFree) {key : Key} {payload : List Byte} {u : FieldUnit} {m : Nat} {rec : JournalRecord}
    (hu : s.part.unitAt key.unit = some u) (hl : u.link ≠ .departing)
    (h : (s.part.findEntry key = some m ∧ (∃ e : Entry, s.part.entryAt m = some e ∧ e.policies.journal = true ∧
        (e.early s.part.run.clock = false ∨ e.policies.early = .keep) ∧
        rec = { time := s.part.run.clock, key := e.key, content := payload, entry := m, early := e.early s.part.run.clock
                firstAfterChange := e.firstAfterChange }) ∨
      s.part.findEntry key = none ∧ s.part.dir.autoAdmission = true ∧ s.part.vacantEntry = some m ∧ s.part.dir.defaults.journal = true ∧
        rec = { time := s.part.run.clock, key := key, content := payload, entry := m, early := false, firstAfterChange := false })) :
    ∃ (e : Entry) (notify : Bool) (q : Part), s.Rewritten q m e notify ∧ s.part.takeArrival key payload = q.handRecord rec ∧
      s.ArrivesAt (q.handRecord rec) m (some e) notify ∧ rec.time = s.part.run.clock ∧ rec.content = payload ∧ rec.key.unit = key.unit ∧ rec.entry = m := by
  rcases h with ⟨hk, e, he, hjournal, hkept, rfl⟩ | ⟨hk, hauto, hm, hjournal, rfl⟩
  · obtain ⟨hm, e0, he0, hkey⟩ := Part.findEntry_some hk
    obtain rfl := Option.some.inj (he.symm.trans he0)
    have hstored : ∃ chatter : Half, s.part.takeArrival key payload =
        s.part.putArrival m ({ e with chatter := chatter }.store payload s.part.run.clock) ({ e with chatter := chatter }.storeNotifies payload)
          e.policies.journal ({ e with chatter := chatter }.journalRecord m payload s.part.run.clock (e.early s.part.run.clock)) := by
      cases hearly : e.early s.part.run.clock with
      | false => exact ⟨_, hearly ▸ Part.takeArrival_stored hu hl hk he (.inr ⟨hearly, rfl⟩) payload⟩
      | true =>
        have hkeep := hkept.resolve_left (by rw [hearly]; simp)
        exact ⟨_, hearly ▸ Part.takeArrival_stored hu hl hk he (.inl ⟨hearly, hkeep, rfl⟩) payload⟩
    obtain ⟨chatter, hstored⟩ := hstored
    rw [hjournal] at hstored
    exact ⟨_, _, _, State.putEntry_rewritten hport hm _ _, hstored, State.putArrival_arrivesAt hport hm _ _ true _, rfl, rfl, congrArg Key.unit hkey, rfl⟩
  · have hlt := (Part.vacantEntry_some hm).1
    have hadmit := Part.takeArrival_admitted hu hl hk hauto hm payload
    rw [Part.admitArrival_eq, hjournal] at hadmit
    exact ⟨_, _, _, State.putEntry_rewritten hport hlt _ _, hadmit, State.putArrival_arrivesAt hport hlt _ _ true _, rfl, rfl, rfl, rfl⟩

section Handed

variable {s : State} {q : Part} {m : Nat} {e : Entry} {notify : Bool}

theorem State.Rewritten.jw (h : s.Rewritten q m e notify) : q.jw = s.part.jw := by rw [h.part]

theorem State.Rewritten.run (h : s.Rewritten q m e notify) : q.run = s.part.run := by rw [h.part]

theorem State.Rewritten.board (h : s.Rewritten q m e notify) : q.board = s.part.board := by rw [h.part]

theorem State.Rewritten.svc (h : s.Rewritten q m e notify) : q.svc = { s.part.svc with bankQueue := q.svc.bankQueue } := by rw [h.part]

theorem State.Rewritten.base (h : s.Rewritten q m e notify) : q.base = s.part.base := by rw [Part.base, h.run, Part.base]

theorem State.Rewritten.losses (h : s.Rewritten q m e notify) : q.svc.journalLosses = s.part.svc.journalLosses := by rw [h.svc]

theorem State.Rewritten.heldOf (h : s.Rewritten q m e notify) (n : Nat) : q.heldOf n = s.part.heldOf n := by rw [Part.heldOf, h.board, Part.heldOf]

/-- R174: with room for the rewrite no block waits behind it. -/
theorem State.Rewritten.waiting (h : s.Rewritten q m e notify) (hroom : s.PortRoom 3 1) : q.port.waiting = [] := by
  rw [(h.fits hroom).1]
  exact hroom.1

/-- R174: with room for one write more than the rewrite takes, there is room for the first write behind it. -/
theorem State.Rewritten.fits_write (h : s.Rewritten q m e notify) (hroom : s.PortRoom 4 1) (addr : Nat) (bytes : List Byte) :
    q.port.Fits [.write addr bytes .silent] := by
  have hmirror : ((s.entryMirror m (some e)).filter fun a => !a.isRead).length ≤ 3 ∧ ((s.entryMirror m (some e)).filter Access.isRead).length = 0 := by
    rcases s.entryMirror_shape m (some e) with hl | ⟨w, v, body, hl⟩
    · rw [hl]
      exact ⟨Nat.zero_le _, rfl⟩
    · rw [hl]
      exact ⟨(mirrorWrites_counts w v body).1.le, (mirrorWrites_counts w v body).2⟩
  obtain ⟨b1, b2⟩ := s.part.bankBitRead_counts .directory m
  have hbit : ((if notify then s.part.bankBitRead .directory m else []).filter fun a => !a.isRead).length = 0 ∧
      ((if notify then s.part.bankBitRead .directory m else []).filter Access.isRead).length ≤ 1 := by
    cases notify with
    | false => exact ⟨rfl, Nat.zero_le 1⟩
    | true => exact ⟨b1, b2⟩
  have hone : (([.write addr bytes .silent] : List Access).filter fun a => !a.isRead).length = 1 ∧
      (([.write addr bytes .silent] : List Access).filter Access.isRead).length = 0 := ⟨rfl, rfl⟩
  rw [(h.fits ⟨hroom.1, hroom.2.1, by have := hroom.2.2.1; omega, hroom.2.2.2⟩).1]
  refine (WindowPort.fits_append (s.fits_of_portRoom hroom ?_ ?_)).2
  · rw [List.filter_append, List.filter_append, List.length_append, List.length_append, hbit.1, hone.1]
    omega
  · rw [List.filter_append, List.filter_append, List.length_append, List.length_append, hmirror.2, hone.2]
    omega

/-- A43: what the statement calls raised is what the rewrite raises. -/
theorem State.Rewritten.raised (h : s.Rewritten q m e notify) (hroom : s.PortRoom 3 1) {queue : List BankItem} (hq : queue = q.svc.bankQueue) :
    q.port.fifo = s.part.port.fifo ++ (s.entryMirror m (some e) ++ if queue = s.part.svc.bankQueue then [] else s.part.bankBitRead .directory m) := by
  obtain ⟨hport, hqueue⟩ := h.fits hroom
  rw [hq, hqueue, hport]
  show s.part.port.fifo ++ _ = _
  cases notify with
  | false => simp
  | true => simp

end Handed

end Sys2Proof.Machine
end

section
/-! SUPPORT. The journal record of a stored arrival (R15, R146, R156, R157, R161). -/

namespace Sys2Proof.Machine

section Handed

variable {s r : State} {q A Q : Part} {m : Nat} {e : Entry} {notify : Bool} {g : Page} {o : OpenPage} {rest : List Page} {rec : JournalRecord}

/-- A43: what is raised behind the rewrite stands behind it in the queue. -/
theorem State.Rewritten.behind (hq : s.Rewritten q m e notify) (hroom : s.PortRoom 3 1) {raised : List Access} {queue : List BankItem}
    (hraised : raised = s.entryMirror m (some e) ++ if queue = s.part.svc.bankQueue then [] else s.part.bankBitRead .directory m)
    (hqueue : queue = q.svc.bankQueue) {a : Access} {l : List Access} (h : q.port.fifo ++ [a] <+: l) : s.part.port.fifo ++ raised ++ [a] <+: l := by
  rw [hq.raised hroom hqueue, ← hraised] at h
  exact h

/-- R161: what a lost record leaves, as the statement tells it. -/
theorem Part.Loses.shown (h : Q.Loses A rec) (hjw : r.part.jw = A.jw) (hsvc : r.part.svc = A.svc) (hworks : A.Works r.part)
    (hQ : Q.svc = { s.part.svc with bankQueue := Q.svc.bankQueue }) (hbase : Q.base = s.part.base) (hclock : Q.run.clock = s.part.run.clock) :
    r.part.jw = Q.jw.lose ∧ r.part.svc.journalLosses = s.part.svc.journalLosses + 1 ∧
    r.part.svc.ringIndex = (if Q.jw.gapReported then s.part.svc.ringIndex else (s.part.svc.ringIndex + 1) % 32) ∧
    (Q.jw.gapReported = false → s.Logs r rec.gap) ∧ (Q.jw.gapReported = true → s.LogsNothing r) := by
  have hlosses : Q.svc.journalLosses = s.part.svc.journalLosses := by rw [hQ]
  have hring : Q.svc.ringIndex = s.part.svc.ringIndex := by rw [hQ]
  have hnext : Q.svc.nextFault = s.part.svc.nextFault := by rw [hQ]
  have hAjw : A.jw = Q.jw.lose := by rw [h.part]
  refine ⟨hjw.trans hAjw, ?_, ?_, fun hgap => ?_, fun hgap => ⟨?_, ?_⟩⟩
  · rw [hsvc, h.losses, hlosses]
  · rw [hsvc, h.ring, hring]
  · obtain ⟨index, seq, hlogs⟩ := h.logs hgap
    rw [hbase, hclock] at hlogs
    exact ⟨index, seq, hlogs.trans hworks.port.outstanding⟩
  · rw [hsvc, h.quiet hgap, hnext]
  · rw [hsvc, h.ring, if_pos hgap, hring]

end Handed

/-- Settles O51: the record is handed on behind the rewrite, or stands behind its waits. -/
theorem storedArrivalIsJournaledOrLost : Obligations.StoredArrivalIsJournaledOrLost := by
  unfold Obligations.StoredArrivalIsJournaledOrLost
  intro s x h bytes payload u m key rec hf hp hu hl ha hs hD hw hkey hrec
  subst hkey
  obtain ⟨hlater, hfinishes, -⟩ := hs hw
  have hport : s.PortFree := ⟨hw, hlater⟩
  obtain ⟨e, notify, q, hq, htake, hat, htime, hcontent, hunit, hnumber⟩ := State.takeArrival_records hport hu hl hrec
  have harrives := hat.arrives
  obtain ⟨hjournals, hhanded⟩ := Part.handRecord_journals hq.later rec
  generalize q.handRecord rec = A at *
  have hsize : rec.size = 12 + (payload.length + 3) / 4 * 4 := by rw [JournalRecord.size, hcontent]
  have hgap : rec.gap = { kind := .journalGap, unit := x.unit, tag := 0, detail := 0, detailHigh := 0, word1 := wordOf m, word2 := s.part.run.clock } := by
    rw [JournalRecord.gap, hunit, hnumber, htime]
  have hlower : s.PortRoom 4 1 → s.PortRoom 3 1 := fun h => ⟨h.1, h.2.1, by have := h.2.2.1; omega, h.2.2.2⟩
  have hatOnce : A.port.later = [] → A = q.takeRecord rec ∧ q.port.waiting = [] := fun h => by
    rcases hhanded with ⟨h1, h2, -⟩ | ⟨-, h2⟩
    · exact ⟨h2, (WindowPort.free_iff.mp h1).1⟩
    · rw [h2] at h
      exact absurd h (by simp)
  have hroomy : s.PortRoom 3 1 → A.port.later = [] := fun hroom =>
    hhanded.elim (fun h => h.2.2) fun h => absurd (hq.waiting hroom) h.1
  have hlose : (s.part.jw.pages = [] ∨ s.part.jw.opened = none) → A.port.later = [] → q.Loses A rec := fun h hA => by
    obtain ⟨h1, h2⟩ := hatOnce hA
    rw [h1, Part.takeRecord_closed (by rw [hq.jw]; exact h) h2]
    exact Part.loseRecord_loses (WindowPort.not_waits h2 _) rec
  have hfits : ∀ {g : Page} {rest : List Page} {o : OpenPage}, s.part.jw.pages = g :: rest → s.part.jw.opened = some o →
      o.used + (12 + (payload.length + 3) / 4 * 4) ≤ 256 * g.size → A.port.later = [] → q.Appends A g o rec := fun h1 h2 h3 hA => by
    rw [← hq.jw] at h1 h2
    rw [(hatOnce hA).1, Part.takeRecord_fitting h1 h2 (by rw [hsize]; exact h3)]
    exact Part.placeRecord_appends h1 h2 rec
  have hfull : ∀ {g : Page} {rest : List Page} {o : OpenPage}, s.part.jw.pages = g :: rest → s.part.jw.opened = some o →
      256 * g.size < o.used + (12 + (payload.length + 3) / 4 * 4) → s.PortRoom 4 1 → ∃ Q, A = Q.placeRecord rec ∧ q.PageDone Q g o rest :=
    fun {g rest o} h1 h2 h3 hroom => by
      rw [← hq.jw] at h1 h2
      obtain ⟨hA, hqw⟩ := hatOnce (hroomy (hlower hroom))
      have hqroom : q.port.writesQueued < Config.writeQueueSize := by
        have hone := (hq.fits_write hroom g.addr.toNat o.head).2.1
        simpa [Access.isRead] using hone
      obtain ⟨Q, hQ, hdone⟩ := Part.takeRecord_pageDone h1 h2 (rec := rec) (by rw [hsize]; exact h3) hqw hqroom (by rw [hq.jw]; exact hD.2.1)
      exact ⟨Q, hA.trans hQ, hdone⟩
  refine ⟨s.reported x A, exec_report hf hp hport htake harrives.run, harrives.settles hs hw x, fun g rest o hpages ho hover hroom withdrawn more hrest hall hfirst => ?ends,
    fun hquiet => ?quiet, fun r raised hr hraised => ?row⟩
  case ends =>
    obtain ⟨Q, hA, hdone⟩ := hfull hpages ho hover hroom
    have htake := (List.takeWhile_dropWhile_of_append (f := Page.withdrawn) hall hfirst).1
    rw [← hrest] at htake
    refine harrives.finished ?_ x
    have hheld : q.requestFinishes (pageResults g o rest) = s.part.requestFinishes (pageResults g o rest) := by
      unfold Part.requestFinishes
      simp only [hq.heldOf]
    rw [hA, Part.placeRecord_board hdone.unwaited, hdone.finishes, hq.board, hfinishes, List.nil_append, hheld]
    exact s.pageFinishes_eq g o htake
  case quiet =>
    refine harrives.finished ?_ x
    have hsame : A.board = q.board → A.board.finishes = [] := fun h => by rw [h, hq.board, hfinishes]
    rcases hhanded with ⟨-, -, hA⟩ | ⟨-, hA⟩
    · rcases hquiet with hquiet | hpages | ho | ⟨g, rest, o, hpages, ho, hroom⟩
      · exact absurd hA hquiet
      · exact hsame (by rw [(hlose (.inl hpages) hA).part])
      · exact hsame (by rw [(hlose (.inr ho) hA).part])
      · exact hsame (by rw [(hfits hpages ho hroom hA).part])
    · exact hsame (by rw [hA])
  case row =>
    have hres := harrives.resolves hr
    have hjw : r.part.jw = A.jw := hres.releases.jw
    have hsvc : r.part.svc = A.svc := hres.releases.svc
    have hworks : A.Works r.part := harrives.works hr
    have hrlater : r.part.port.later = A.port.later := hres.releases.later
    have hentry : r.part.entryAt m = some e := (hat.entryAt hr).2.2
    have hqueue : r.part.svc.bankQueue = q.svc.bankQueue := by rw [hsvc, hjournals.svc]
    rw [hentry] at hraised
    have hbehind : ∀ {a l}, s.PortRoom 4 1 → q.port.fifo ++ [a] <+: l → s.part.port.fifo ++ raised ++ [a] <+: l := fun hroom h =>
      hq.behind (hlower hroom) hraised hqueue h
    refine ⟨fun hroom => hrlater.trans (hroomy hroom), fun h => ?later, fun g rest o hpages ho hroom h => ?appended, fun g rest o hpages ho hover hroom => ?next,
      fun hpages ho h => ?lost⟩
    case later =>
      rw [hrlater] at h
      rcases hhanded with ⟨-, -, hA⟩ | ⟨hqw, hA⟩
      · exact absurd hA h
      · have hAw : (s.reported x A).part.port.waiting ≠ [] := by
          show A.port.waiting ≠ []
          rw [hA]
          exact hqw
        refine ⟨by rw [hrlater, hA], by rw [hr.eq_of_waiting hAw]; exact hAw, by rw [hjw, hA]; exact hq.jw, by rw [hsvc, hA]; exact hq.losses⟩
    case appended =>
      have happ := hfits hpages ho hroom (hrlater.symm.trans h)
      refine ⟨hworks.port.outstanding.subset happ.shows, fun hroom => hbehind hroom ?_, hjw.trans ?_⟩
      · have hfifo := hworks.port.fifo
        rw [happ.fits (hq.fits_write hroom _ _)] at hfifo
        exact hfifo
      · rw [happ.part, hq.jw]
        show JournalWriter.append g o rec s.part.jw = _
        unfold JournalWriter.append OpenPage.append
        rw [htime, hsize]
    case next =>
      obtain ⟨Q, hA, hdone⟩ := hfull hpages ho hover hroom
      have hQA : Q.Works A := hA ▸ (Q.placeRecord_serves rec).toWorks
      have hQr : Q.Works r.part := hQA.trans hworks
      have hcompletes : ∀ y ∈ pageResults g o rest, s.Completes r y.1 y.2 := fun y hy =>
        Part.Shows.completes (p := q) (q := Q) (hdone.works.trans hQr) (congrArg BoardController.completions hq.board) hq.base
          (congrArg RunController.clock hq.run) hQr fun z hz => hdone.shows y hy z ((hq.heldOf _).trans hz)
      have hQjw : Q.jw = s.part.jw.passed rest := by rw [hdone.jw, hq.jw]
      refine ⟨hbehind hroom (hdone.first.trans hQr.port.fifo), hcompletes _ List.mem_cons_self, fun withdrawn more hrest hall hfirst => ⟨?_, ?_, ?_⟩⟩
      · intro g' hg'
        have htake := (List.takeWhile_dropWhile_of_append (f := Page.withdrawn) hall hfirst).1
        rw [← hrest] at htake
        refine hcompletes (g'.seq, { outcome := .aborted }) (List.mem_cons_of_mem _ ?_)
        rw [withdrawnResults, htake]
        exact List.mem_map_of_mem hg'
      · intro g' tail hmore
        have hopen := (s.part.jw.passed_eq hrest hall hfirst).2 g' tail hmore
        rw [← hQjw] at hopen
        have happ := Part.placeRecord_appends (q := Q) (g := g') (rest := tail)
          (o := { pageSeq := s.part.jw.nextPage, count := 0, used := Config.pageHeadSize, firstTime := none, lastTime := none, gap := none, flushTimer := none })
          (by rw [hopen]; rfl) (by rw [hopen]; rfl) rec
        rw [← hA] at happ
        refine ⟨hworks.port.outstanding.subset happ.shows, hjw.trans ?_⟩
        rw [happ.part, hopen, hmore]
        show JournalWriter.append g' _ rec _ = _
        unfold JournalWriter.append OpenPage.append
        rw [htime, hsize]
        rfl
      · intro hmore
        have hclosed := (s.part.jw.passed_eq hrest hall hfirst).1 hmore
        rw [← hQjw] at hclosed
        have hloses : Q.Loses A rec := by
          rw [hA, Part.placeRecord_closed (.inl (by rw [hclosed]))]
          exact Part.loseRecord_loses hdone.unwaited rec
        obtain ⟨h1, h2, -, h4, h5⟩ := hloses.shown (s := s) hjw hsvc hworks (by rw [hdone.svc]; exact hq.svc) (hdone.works.base.trans hq.base)
          (hdone.works.clock.trans (congrArg RunController.clock hq.run))
        rw [hclosed] at h1 h4 h5
        rw [hgap] at h4
        exact ⟨h1, h2, h4, h5⟩
    case lost =>
      have hloses := hlose (.inl hpages) (hrlater.symm.trans h)
      obtain ⟨h1, h2, h3, -, -⟩ := hloses.shown (s := s) hjw hsvc hworks hq.svc hq.base (congrArg RunController.clock hq.run)
      rw [hq.jw] at h1 h3
      refine ⟨h1, h2, fun hroom => hbehind hroom ?_, h3⟩
      have hfirst := hloses.fits (hq.fits_write hroom _ _)
      rw [hq.losses, hq.base] at hfirst
      exact hfirst.trans hworks.port.fifo

end Sys2Proof.Machine
end

section
/-! SUPPORT. Entries changed one after another, from an empty port: what is raised and handed on, in which order, and what waits (R13, R14, R174). -/

namespace Sys2Proof.Machine

/-! ## The Directory Engine alone raises -/

/-- From `p` the Directory Engine has raised the writes `M` and handed the bank bits of the numbers `N` on; no block waits. -/
structure Part.Flows (p q : Part) (M : List Access) (N : List Nat) : Prop where
  reports : q.port.reports = []
  later : q.port.later = []
  waiting : q.port.waiting = []
  writes : q.port.fifo.filter (fun a => !a.isRead) = M
  room : M.length ≤ Config.writeQueueSize
  reads : q.port.readsQueued + (if q.svc.bankQueue = [] then 1 else 0) ≤ 1
  bits : q.svc.bankQueue = p.svc.bankQueue ++ N.map fun i => .update p.svc.activeBank .directory i
  bank : q.svc.activeBank = p.svc.activeBank

/-- From `p` the Directory Engine has raised writes until there was no room, and the rest waits with the bank bits behind it. -/
structure Part.Parks (p q : Part) (M : List Access) (N : List Nat) : Prop where
  reports : q.port.reports = []
  later : q.port.later = []
  full : Config.writeQueueSize < M.length
  waits : ∃ (items : List Item) (done left : List Nat), q.port.waiting = [{ block := .directoryEngine, items := items }] ∧
    q.port.fifo.filter (fun a => !a.isRead) ++ WaitEntry.accesses q.port.waiting = M ∧ N = done ++ left ∧
    q.svc.bankQueue = p.svc.bankQueue ++ done.map (fun i => .update p.svc.activeBank .directory i) ∧
    ∀ i ∈ left, .hand (.bankBit .directory i) ∈ items

theorem WindowPort.readsQueued_with_write (w : WindowPort) {a : Access} (h : a.isRead = false) :
    (w.push a).readsQueued = w.readsQueued := by
  unfold WindowPort.readsQueued WindowPort.push
  rw [List.filter_append, List.length_append]
  simp [h]

/-- R153: the bank bit raises a read only on an empty bank queue. -/
theorem Part.Flows.bankBit {p q : Part} {M : List Access} {N : List Nat} (h : p.Flows q M N) (i : Nat) :
    p.Flows (q.takeBankBit .directory i) M (N ++ [i]) := by
  have hqueue : ∀ l : List BankItem, l = q.svc.bankQueue → l ++ [.update q.svc.activeBank .directory i] =
      p.svc.bankQueue ++ (N ++ [i]).map fun i => .update p.svc.activeBank .directory i := fun l hl => by
    rw [hl, h.bits, h.bank, List.map_append, List.append_assoc]
    rfl
  have hreads := h.reads
  have hread : ∀ a ∈ q.bankBitRead .directory i, a.isRead = true := fun a ha => by
    unfold Part.bankBitRead at ha
    split at ha
    · rw [List.mem_singleton.mp ha]
      rfl
    · exact absurd ha List.not_mem_nil
  have hlength : (q.bankBitRead .directory i).length = if q.svc.bankQueue = [] then 1 else 0 := by
    unfold Part.bankBitRead
    split <;> rfl
  have hwrites : (q.bankBitRead .directory i).filter (fun a => !a.isRead) = [] := List.filter_eq_nil_iff.mpr fun a ha => by rw [hread a ha]; simp
  have hreads' : (q.bankBitRead .directory i).filter Access.isRead = q.bankBitRead .directory i := List.filter_eq_self.mpr hread
  have hfits : q.port.Fits (q.bankBitRead .directory i) := by
    refine ⟨h.waiting, ?_, ?_⟩
    · rw [hwrites, WindowPort.writesQueued, h.writes]
      exact h.room
    · rw [hreads', hlength]
      exact hreads.trans (Nat.le_of_ble_eq_true rfl)
  rw [Part.takeBankBit_fits _ _ _ hfits]
  refine ⟨h.reports, h.later, h.waiting, ?_, h.room, ?_, hqueue _ rfl, h.bank⟩
  · show (q.port.fifo ++ _).filter _ = M
    rw [List.filter_append, h.writes, hwrites, List.append_nil]
  · rw [if_neg (by simp)]
    show ((q.port.fifo ++ _).filter Access.isRead).length + 0 ≤ 1
    rw [List.filter_append, List.length_append, hreads', hlength]
    exact hreads

/-- R174: a block that waits keeps all that it raises. -/
theorem Part.Parks.park {p q : Part} {M : List Access} {N : List Nat} (h : p.Parks q M N) (l : List Access) (bits : List Nat) :
    p.Parks { q with port := q.port.park .directoryEngine (l.map Item.access ++ bits.map fun i => .hand (.bankBit .directory i)) } (M ++ l) (N ++ bits) := by
  obtain ⟨items, done, left, hwaiting, hwrites, hN, hbits, hleft⟩ := h.waits
  have hwaits : q.port.waits .directoryEngine = true := by
    rw [WindowPort.waits_iff, hwaiting]
    exact ⟨_, List.mem_cons_self, rfl⟩
  have hpark : q.port.park .directoryEngine (l.map Item.access ++ bits.map fun i => .hand (.bankBit .directory i)) =
      { q.port with waiting := [{ block := .directoryEngine, items := items ++ (l.map Item.access ++ bits.map fun i => .hand (.bankBit .directory i)) }] } := by
    unfold WindowPort.park
    rw [if_pos hwaits, hwaiting]
    rfl
  rw [hpark]
  refine ⟨h.reports, h.later, ?_, _, done, left ++ bits, rfl, ?_, by rw [hN, List.append_assoc], hbits, fun i hi => ?_⟩
  · rw [List.length_append]
    have := h.full
    omega
  · have haccess : ∀ m : List Nat, WaitEntry.accesses [{ block := .directoryEngine, items := m.map fun i => Item.hand (.bankBit .directory i) }] = [] :=
      fun m => by
        unfold WaitEntry.accesses
        induction m with
        | nil => rfl
        | cons _ _ ih => exact ih
    have hsplit : ∀ x y : List Item, WaitEntry.accesses [{ block := .directoryEngine, items := x ++ y }] =
        WaitEntry.accesses [{ block := .directoryEngine, items := x }] ++ WaitEntry.accesses [{ block := .directoryEngine, items := y }] := fun x y => by
      unfold WaitEntry.accesses
      simp
    rw [hwaiting] at hwrites
    rw [hsplit, hsplit, haccess, List.append_nil, ← List.append_assoc, hwrites]
    have haccesses := WaitEntry.accesses_singleton .directoryEngine [] l
    rw [List.nil_append] at haccesses
    rw [haccesses]
    rfl
  · rcases List.mem_append.mp hi with hi | hi
    · exact List.mem_append_left _ (hleft i hi)
    · exact List.mem_append_right _ (List.mem_append_right _ (List.mem_map.mpr ⟨i, hi, rfl⟩))

theorem bitItems_eq (bit : Bool) (i : Nat) :
    (if bit then [Item.hand (.bankBit .directory i)] else []) = (if bit then [i] else []).map fun i => Item.hand (.bankBit .directory i) := by
  cases bit <;> rfl

/-- R174: the writes are raised while there is room, and the bank bit behind them. -/
theorem Part.Flows.raise {p q : Part} {M : List Access} {N : List Nat} (h : p.Flows q M N) {l : List Access} (hl : ∀ a ∈ l, a.isRead = false) (bit : Bool)
    (i : Nat) : p.Flows (Part.raise .directoryEngine (l.map Item.access ++ if bit then [.hand (.bankBit .directory i)] else []) q) (M ++ l)
        (N ++ if bit then [i] else []) ∨
      p.Parks (Part.raise .directoryEngine (l.map Item.access ++ if bit then [.hand (.bankBit .directory i)] else []) q) (M ++ l)
        (N ++ if bit then [i] else []) := by
  rw [Part.raise_free h.waiting]
  induction l generalizing q M with
  | nil =>
    rw [List.append_nil]
    cases bit with
    | false =>
      have hnil : N ++ (if false = true then [i] else []) = N := List.append_nil N
      rw [hnil]
      exact .inl h
    | true => exact .inl (h.bankBit i)
  | cons a rest ih =>
    have ha := hl a List.mem_cons_self
    rw [List.map_cons, List.cons_append, Part.raiseFree]
    have hqueued : q.port.writesQueued = M.length := by rw [WindowPort.writesQueued, h.writes]
    by_cases hroom : q.port.hasRoom a = true
    · rw [if_pos hroom]
      have hlt : M.length < Config.writeQueueSize := by
        rw [← hqueued]
        simpa [WindowPort.hasRoom, ha] using hroom
      have hpush : p.Flows { q with port := q.port.push a } (M ++ [a]) N := by
        refine ⟨h.reports, h.later, h.waiting, ?_, ?_, ?_, h.bits, h.bank⟩
        · show (q.port.fifo ++ [a]).filter _ = _
          rw [List.filter_append, h.writes]
          simp [ha]
        · rw [List.length_append]
          exact hlt
        · rw [WindowPort.readsQueued_with_write _ ha]
          exact h.reads
      have hrest := ih hpush fun b hb => hl b (List.mem_cons_of_mem _ hb)
      rw [List.append_assoc] at hrest
      exact hrest
    · rw [if_neg hroom]
      have hfull : Config.writeQueueSize ≤ M.length := by
        rw [← hqueued]
        simpa [WindowPort.hasRoom, ha] using hroom
      have hpark : q.port.park .directoryEngine (.access a :: (rest.map Item.access ++ if bit then [.hand (.bankBit .directory i)] else [])) =
          { q.port with waiting := [{ block := .directoryEngine
                                      items := (a :: rest).map Item.access ++ if bit then [.hand (.bankBit .directory i)] else [] }] } := by
        unfold WindowPort.park
        rw [if_neg (by rw [WindowPort.not_waits h.waiting]; simp), h.waiting]
        rfl
      rw [hpark]
      refine .inr ⟨h.reports, h.later, ?_, _, N, if bit then [i] else [], rfl, ?_, rfl, h.bits, fun j hj => ?_⟩
      · rw [List.length_append, List.length_cons]
        omega
      · show q.port.fifo.filter (fun a => !a.isRead) ++ _ = _
        rw [h.writes]
        congr 1
        have haccess := WaitEntry.accesses_singleton .directoryEngine [] (a :: rest)
        rw [List.nil_append] at haccess
        have hbit : WaitEntry.accesses [{ block := .directoryEngine, items := (a :: rest).map Item.access ++ if bit then [.hand (.bankBit .directory i)] else [] }] =
            WaitEntry.accesses [{ block := .directoryEngine, items := (a :: rest).map Item.access }] := by
          unfold WaitEntry.accesses
          cases bit <;> simp
        rw [hbit, haccess]
        rfl
      · rw [bitItems_eq]
        exact List.mem_append_right _ (List.mem_map.mpr ⟨j, hj, rfl⟩)

/-! ## Every entry in its turn -/

/-- The numbers of a list whose change notifies. -/
def Part.notified (d : EntryEdit) (l : List Nat) (p : Part) : List Nat := l.filter fun n => (p.entryAt n).any d.notifies

theorem Part.entryWrites_writes (n : Nat) (new : Option Entry) (p : Part) : ∀ a ∈ p.entryWrites n new, a.isRead = false := fun a ha => by
  unfold Part.entryWrites at ha
  split at ha
  · exact absurd ha List.not_mem_nil
  · unfold mirrorWrites at ha
    simp only [List.mem_cons, List.not_mem_nil, or_false] at ha
    rcases ha with rfl | rfl | rfl <;> rfl

/-- From `p` the changes of entry numbers have been raised in their order, or wait for room. -/
def Part.FlowsOrParks (p q : Part) (M : List Access) (N : List Nat) : Prop := p.Flows q M N ∨ p.Parks q M N

theorem Part.FlowsOrParks.of_dir {p q : Part} {M : List Access} {N : List Nat} (h : p.FlowsOrParks q M N) (d : DirectoryEngine) :
    p.FlowsOrParks { q with dir := d } M N :=
  h.imp (fun ⟨h1, h2, h3, h4, h5, h6, h7, h8⟩ => ⟨h1, h2, h3, h4, h5, h6, h7, h8⟩) fun ⟨h1, h2, h3, h4⟩ => ⟨h1, h2, h3, h4⟩

theorem Part.FlowsOrParks.raise {p q : Part} {M : List Access} {N : List Nat} (h : p.FlowsOrParks q M N) {l : List Access}
    (hl : ∀ a ∈ l, a.isRead = false) (bit : Bool) (i : Nat) :
    p.FlowsOrParks (Part.raise .directoryEngine (l.map Item.access ++ if bit then [.hand (.bankBit .directory i)] else []) q) (M ++ l)
      (N ++ if bit then [i] else []) := by
  rcases h with h | h
  · exact h.raise hl bit i
  · obtain ⟨items, _, _, hwaiting, _⟩ := h.waits
    have hwaits : q.port.waits .directoryEngine = true := by
      rw [WindowPort.waits_iff, hwaiting]
      exact ⟨_, List.mem_cons_self, rfl⟩
    have hraise : Part.raise .directoryEngine (l.map Item.access ++ if bit then [.hand (.bankBit .directory i)] else []) q =
        { q with port := q.port.park .directoryEngine (l.map Item.access ++ if bit then [.hand (.bankBit .directory i)] else []) } := by
      unfold Part.raise
      rw [if_pos hwaits]
    rw [hraise, bitItems_eq]
    exact .inr (h.park l _)

theorem Part.editEntry_flows {p q : Part} {M : List Access} {N : List Nat} (h : p.FlowsOrParks q M N) (d : EntryEdit) {n : Nat} (hn : n < 192) :
    p.FlowsOrParks (q.editEntry d n) (M ++ q.editWrites d n) (N ++ q.notified d [n]) := by
  cases he : q.entryAt n with
  | none =>
    have hnone : q.notified d [n] = [] := by
      unfold Part.notified
      rw [List.filter_cons, he]
      rfl
    rw [Part.editEntry_none he, Part.editWrites_none he, hnone, List.append_nil, List.append_nil]
    exact h
  | some e =>
    have hbit : q.notified d [n] = if d.notifies e then [n] else [] := by
      unfold Part.notified
      rw [List.filter_cons, he]
      rfl
    obtain ⟨v, hv⟩ := Part.putEntry_raise hn (d.new e) (d.notifies e) q
    rw [Part.editEntry_some he, Part.editWrites_some he, hbit, hv]
    exact (h.of_dir _).raise (q.entryWrites_writes n (d.new e)) (d.notifies e) n

/-- What one change leaves of the others. -/
theorem Part.Edited.kept_writes {p q : Part} {d : EntryEdit} {l : List Nat} (h : p.Edited q d l) {i : Nat} (hi : i ∉ l) :
    q.entryAt i = p.entryAt i ∧ q.editWrites d i = p.editWrites d i := by
  have hslot := h.kept i (.inl hi)
  have hentry : q.entryAt i = p.entryAt i := by rw [Part.entryAt, Part.entryAt, hslot]
  refine ⟨hentry, ?_⟩
  unfold Part.editWrites Part.entryWrites Part.shownWith
  rw [hslot, hentry, h.works.toWorks.base]

theorem Part.editEach_flows {p : Part} (d : EntryEdit) {l : List Nat} (hl : l.Nodup) (hn : ∀ n ∈ l, n < 192) {q : Part} {M : List Access} {N : List Nat}
    (h : p.FlowsOrParks q M N) : p.FlowsOrParks (q.editEach d l) (M ++ l.flatMap fun n => q.editWrites d n) (N ++ q.notified d l) := by
  induction l generalizing q M N with
  | nil =>
    rw [List.flatMap_nil, List.append_nil, show q.notified d [] = [] from rfl, List.append_nil]
    exact h
  | cons n rest ih =>
    obtain ⟨hnot, hrest⟩ := List.nodup_cons.mp hl
    have hlt := hn n List.mem_cons_self
    have hedit := q.editEntry_edited (d := d) hlt
    have hsame : ∀ i ∈ rest, (q.editEntry d n).entryAt i = q.entryAt i ∧ (q.editEntry d n).editWrites d i = q.editWrites d i := fun i hi =>
      hedit.kept_writes fun e => hnot (List.mem_singleton.mp e ▸ hi)
    have hgo := ih hrest (fun m hm => hn m (List.mem_cons_of_mem _ hm)) (Part.editEntry_flows h d hlt)
    have hwrites : (rest.flatMap fun m => (q.editEntry d n).editWrites d m) = rest.flatMap fun m => q.editWrites d m :=
      List.flatMap_congr fun i hi => (hsame i hi).2
    have hbits : (q.editEntry d n).notified d rest = q.notified d rest := by
      unfold Part.notified
      exact List.filter_congr fun i hi => by rw [(hsame i hi).1]
    have hcons : q.notified d (n :: rest) = q.notified d [n] ++ q.notified d rest := by
      unfold Part.notified
      rw [← List.filter_append]
      rfl
    rw [hwrites, hbits, List.append_assoc, List.append_assoc] at hgo
    rw [List.flatMap_cons, hcons]
    exact hgo

/-- The empty port with which a take begins. -/
theorem Part.flows_empty {p : Part} (h : p.port = {}) : p.Flows p [] [] := by
  refine ⟨by rw [h], by rw [h], by rw [h], by rw [h]; rfl, Nat.zero_le _, ?_, (List.append_nil _).symm, rfl⟩
  have hreads : p.port.readsQueued = 0 := by rw [h]; rfl
  rw [hreads]
  split <;> omega

end Sys2Proof.Machine
end

section
/-! SUPPORT. CLEAR: the selected entries are changed one after another, and the take ends or waits (R21, R138, R117, R174). -/

namespace Sys2Proof.Machine

/-! ## A take whose block waits for room -/

theorem Part.settle_waiting {p : Part} (hw : p.port.waiting ≠ []) : p.settle = p := by
  unfold Part.settle Part.closeDrain
  rw [Part.resolve_waiting hw, if_neg fun h => hw (WindowPort.free_iff.mp h.2.2.2).1]

/-- R117, R174: the block waits with the completion, and the sweep goes on behind it. -/
theorem State.takeRow_waits {s : State} {n : Nat} {slot : List Byte} {k : ReqKind} {q : Part} (hT : s.TakesSlot n slot k) (hA : s.Accepts slot)
    (hN : s.NoPredecessor (slot.take 64)) (hq : (s.handed n slot k none).handOver k s.part.board.nextSeq n (slot.take 64) none = q)
    (hrun : q.run = s.part.run) (hof : q.heldOf s.part.board.nextSeq = some (s.recordInTake n slot k none))
    (hkeep : q.keepsInHand (s.recordInTake n slot k none) = false) (hw : q.port.waiting ≠ []) :
    exec (takeCommand slot (some k)) s = .next { s with part := { q with port := { q.port with later := q.port.later ++ [.sweepOn] } } } := by
  obtain ⟨hr, _, _, _, _, _, _, hk, _⟩ := id hT
  have hqr : q.run.partState = .running := by rw [hrun]; exact hr
  have htake := State.take_handed (n := n) hA hk (hA.inRange hT) hN
  have hanswer : q.answerTake s.part.board.nextSeq = q := by
    unfold Part.answerTake
    rw [hof]
    exact if_neg (by rw [hkeep]; simp)
  rw [if_neg (by simp), hq, hanswer] at htake
  have hafter : q.takeAfterDrain = q := by
    unfold Part.takeAfterDrain
    rw [if_neg (by rw [hqr]; simp)]
  have hmem : s.recordInTake n slot k none ∈ q.board.held := List.mem_of_find?_eq_some hof
  have hon : q.sweepOn = { q with port := { q.port with later := q.port.later ++ [.sweepOn] } } := by
    unfold Part.sweepOn
    exact if_pos (List.any_eq_true.mpr ⟨_, hmem, rfl⟩)
  rw [hT.exec_eq]
  unfold Part.takeStep
  rw [htake, Part.settle_waiting hw, hafter, hon, Part.settle_waiting (by exact hw)]

/-! ## CLEAR -/

/-- R21: CLEAR as a change of entries. -/
def clearEdit (content counts : Bool) (now : Word) : EntryEdit :=
  { new := fun e => some (clearEntry content counts now e), notifies := fun e => content && e.clearNotifies }

theorem Part.clearEach_eq (content counts : Bool) {l : List Nat} (hl : ∀ n ∈ l, n < 192) (p : Part) :
    l.foldl (fun q n => q.clearNumber content counts n) p = p.editEach (clearEdit content counts p.run.clock) l :=
  Part.foldl_editEach (g := Part.clearNumber content counts) (fun n q hq => by
    unfold Part.clearNumber Part.editEntry
    rw [← hq]
    rfl) l hl

theorem clearSelects_iff {r : List Byte} {e : Entry} : clearSelects r e = true ↔
    (Req.unit r = 255 ∨ Req.unit r = e.key.unit) ∧ (Req.code r = 255 ∨ Req.code r = e.key.kind) := by
  unfold clearSelects Req.all
  simp

/-- R21: what the options make of an entry. -/
theorem clearEntry_facts (content counts : Bool) (now : Word) (e : Entry) :
    (clearEntry content counts now e).key = e.key ∧ (clearEntry content counts now e).origin = e.origin ∧
    (clearEntry content counts now e).policies = e.policies ∧ (clearEntry content counts now e).lastArrival = e.lastArrival ∧
    (clearEntry content counts now e).lastInterval = e.lastInterval ∧ (clearEntry content counts now e).firstAfterChange = e.firstAfterChange ∧
    (if content = true
      then (clearEntry content counts now e).content = none ∧ (clearEntry content counts now e).state = .awaiting ∧
        (clearEntry content counts now e).staleTimer = (if e.policies.maxInterval = 0 then none else some now)
      else (clearEntry content counts now e).content = e.content ∧ (clearEntry content counts now e).state = e.state ∧
        (clearEntry content counts now e).staleTimer = e.staleTimer) ∧
    (if counts then (clearEntry content counts now e).arrivals = 0 ∧ (clearEntry content counts now e).chatter = 0
      else (clearEntry content counts now e).arrivals = e.arrivals ∧ (clearEntry content counts now e).chatter = e.chatter) := by
  cases content with
  | true => cases counts <;> exact ⟨rfl, rfl, rfl, rfl, rfl, rfl, ⟨rfl, rfl, rfl⟩, rfl, rfl⟩
  | false => cases counts <;> exact ⟨rfl, rfl, rfl, rfl, rfl, rfl, ⟨rfl, rfl, rfl⟩, rfl, rfl⟩

/-- R13: the selected entries whose change is notified. -/
theorem Part.notified_clear (content counts : Bool) (now : Word) (r : List Byte) (p : Part) :
    p.notified (clearEdit content counts now) (p.entriesWhere (clearSelects r)) =
      p.entriesWhere fun e => content && clearSelects r e && e.state != .awaiting && e.policies.notify != .never := by
  unfold Part.notified Part.entriesWhere
  rw [List.filter_filter]
  refine List.filter_congr fun n _ => ?_
  cases p.entryAt n with
  | none => rfl
  | some e =>
    show ((content && (e.state != .awaiting && e.policies.notify != .never)) && clearSelects r e) = _
    dsimp only
    rw [← Bool.and_assoc, Bool.and_comm, ← Bool.and_assoc, ← Bool.and_assoc, Bool.and_comm (clearSelects r e)]

/-- R14: a rewrite is three writes, or none. -/
theorem Part.entryWrites_length (n : Nat) (new : Option Entry) (p : Part) : 3 ∣ (p.entryWrites n new).length := by
  unfold Part.entryWrites
  split
  · exact ⟨0, rfl⟩
  · exact ⟨1, rfl⟩

theorem Part.editWrites_facts (d : EntryEdit) (p : Part) (l : List Nat) :
    (∀ a ∈ l.flatMap fun n => p.editWrites d n, a.isRead = false) ∧ 3 ∣ (l.flatMap fun n => p.editWrites d n).length ∧
    ∀ (addr : Nat) (b : Byte) (report : ReportTag), Access.write addr [b] report ∉ l.flatMap fun n => p.editWrites d n := by
  have hone : ∀ n, (∀ a ∈ p.editWrites d n, a.isRead = false) ∧ 3 ∣ (p.editWrites d n).length ∧
      ∀ (addr : Nat) (b : Byte) (report : ReportTag), Access.write addr [b] report ∉ p.editWrites d n := fun n => by
    cases h : p.entryAt n with
    | none =>
      rw [Part.editWrites_none h]
      exact ⟨fun a ha => absurd ha List.not_mem_nil, ⟨0, rfl⟩, fun _ _ _ => List.not_mem_nil⟩
    | some e =>
      rw [Part.editWrites_some h]
      refine ⟨p.entryWrites_writes n _, p.entryWrites_length n _, fun addr b report hmem => ?_⟩
      unfold Part.entryWrites at hmem
      split at hmem
      · exact absurd hmem List.not_mem_nil
      · have hpad : ∀ l : List Byte, (padTo 56 l).length = 56 := fun l => by
          unfold padTo
          rw [List.length_take, List.length_append, List.length_replicate]
          omega
        have hbody : (dirBody (p.shownWith n (d.new e)) (d.new e)).length = 56 := by
          unfold dirBody
          split
          · exact hpad _
          · exact hpad _
        have hnot : ∀ x : List Byte, x.length ≠ 1 → [b] ≠ x := fun x hx e => hx (by rw [← e]; rfl)
        unfold mirrorWrites at hmem
        simp only [List.mem_cons, Access.write.injEq, List.not_mem_nil, or_false] at hmem
        rcases hmem with ⟨-, h, -⟩ | ⟨-, h, -⟩ | ⟨-, h, -⟩
        · exact hnot _ (by simp [le64, leBytes]) h
        · exact hnot _ (by rw [hbody]; decide) h
        · exact hnot _ (by simp [le64, leBytes]) h
  induction l with
  | nil => exact ⟨fun a ha => absurd ha List.not_mem_nil, ⟨0, rfl⟩, fun _ _ _ => List.not_mem_nil⟩
  | cons n rest ih =>
    obtain ⟨h1, h2, h3⟩ := hone n
    obtain ⟨i1, i2, i3⟩ := ih
    rw [List.flatMap_cons]
    refine ⟨fun a ha => (List.mem_append.mp ha).elim (h1 a) (i1 a), ?_, fun addr b report hmem => (List.mem_append.mp hmem).elim (h3 addr b report) (i3 addr b report)⟩
    rw [List.length_append]
    exact Nat.dvd_add h2 i2

end Sys2Proof.Machine
end

section
/-! SUPPORT. The row of CLEAR (R13, R14, R21, R117, R138, R174). -/

namespace Sys2Proof.Machine

/-- The row of a CLEAR whose mirror writes are `M` and whose notified numbers are `N`, the entries changed to those of `q`. -/
structure State.ClearRow (s t : State) (n : Nat) (slot : List Byte) (q : Part) (M : List Access) (N : List Nat) (res : Result) : Prop where
  pending : t.pending = s.pending
  mem : t.mem = s.mem
  part : t.part = { q with board := t.part.board, port := t.part.port }
  nextSeq : t.part.board.nextSeq = s.part.board.nextSeq + 1
  writes : M <+: t.part.port.outstanding.filter fun a => !a.isRead
  bits : ∃ more : List BankItem, q.svc.bankQueue = s.part.svc.bankQueue ++ more ∧
    more <+: (N.map fun i => .update s.part.svc.activeBank .directory i) ∧
    ∀ i ∈ N, t.BitAmong more s.part.svc.activeBank .directoryEngine .directory i
  waits : 30 < M.length → s.TakeWaits t n slot .directoryEngine ∧
    t.part.board.held = s.part.board.held ++ [s.requestInTake n slot .directoryEngine] ∧
    ∃ e ∈ t.part.port.waiting, e.block = .directoryEngine ∧ e.items.getLast? = some (.hand (.complete s.part.board.nextSeq res))
  ends : M.length ≤ 30 → s.CompletedTake t n slot res ∧ M ++ s.completionOf n slot res <+: t.part.port.fifo.filter (fun a => !a.isRead) ∧
    q.svc.bankQueue = s.part.svc.bankQueue ++ N.map fun i => .update s.part.svc.activeBank .directory i

theorem State.completionOf_writes (s : State) (n : Nat) (slot : List Byte) (res : Result) : ∀ a ∈ s.completionOf n slot res, a.isRead = false := fun a ha => by
  unfold State.completionOf completionWrites at ha
  simp only [List.mem_cons, List.not_mem_nil, or_false] at ha
  rcases ha with rfl | rfl <;> rfl

section Row

variable {s : State} {n : Nat} {slot : List Byte} {q : Part} {M : List Access} {N : List Nat} {res : Result}

/-- R21: with room for all the mirrors the take comes to its end. -/
theorem State.clearRow_ends (hT : s.TakesSlot n slot .clear) (hA : s.Accepts slot) (hN : s.NoPredecessor (slot.take 64))
    (hq : (s.handed n slot .clear none).handOver .clear s.part.board.nextSeq n (slot.take 64) none =
      q.finishRequest .directoryEngine s.part.board.nextSeq res)
    (hpart : q = { s.handed n slot .clear none with dir := q.dir, svc := q.svc, port := q.port }) (hflows : (s.handed n slot .clear none).Flows q M N)
    (hM : M.length ≤ 30) : ∃ t : State, exec (.clear slot) s = .next t ∧ s.ClearRow t n slot q M N res := by
  obtain ⟨hr, hf, hbelow, _, _, _, _, hk, hc⟩ := id hT
  have hheld := State.handed_eq n (hA.inRange hT) hN
  have hcomplete : q.finishRequest .directoryEngine s.part.board.nextSeq res = q.completeRequest s.part.board.nextSeq res :=
    Part.finishRequest_eq hflows.waiting _ _ _
  have hfit : q.port.Fits (s.completionOf n slot res) := by
    refine ⟨hflows.waiting, ?_, ?_⟩
    · rw [List.filter_eq_self.mpr fun a ha => by rw [s.completionOf_writes n slot res a ha]; rfl, WindowPort.writesQueued, hflows.writes]
      show M.length + 2 ≤ 32
      omega
    · rw [List.filter_eq_nil_iff.mpr fun a ha => by rw [s.completionOf_writes n slot res a ha]; exact Bool.false_ne_true]
      have hreads := hflows.reads
      show q.port.readsQueued + 0 ≤ 8
      omega
  obtain ⟨x, w, e1, e2, e3, e4, e5, e6, e7⟩ := Part.takeStep_completes (p := { s.part with port := {} }) (q := q) (n := n) (slot := slot) (k := .clear) (res := res)
    hr hf hc hbelow hA hk hN (by rw [hheld]; exact hq.trans hcomplete) (by rw [hheld, hpart]) (by rw [hpart]; rfl) (by rw [hpart]; rfl) hflows.later hfit
  have hworks := Part.takeStep_works (p := { s.part with port := {} }) n slot hr
  rw [e1] at hworks
  have hreports : w.reports = [] := hworks.port.reports
  have hfifo : M ++ s.completionOf n slot res <+: w.fifo.filter fun a => !a.isRead := by
    have h := e7.filter fun a => !a.isRead
    have hself : (s.completionOf n slot res).filter (fun a => !a.isRead) = s.completionOf n slot res :=
      List.filter_eq_self.mpr fun a ha => by rw [s.completionOf_writes n slot res a ha]; rfl
    rw [List.filter_append, hflows.writes] at h
    rw [← hself]
    exact h
  have hrun : q.run = s.part.run := by rw [hpart]; rfl
  refine ⟨{ s with part := { q with board := x, port := w } }, ?_, rfl, rfl, rfl, e5, ?_, ?_, fun h => absurd hM (by omega), fun _ => ⟨?_, hfifo, hflows.bits⟩⟩
  · rw [← e1]
    exact hT.exec_eq
  · show M <+: w.outstanding.filter _
    rw [WindowPort.outstanding_eq, hreports, List.nil_append, List.filter_append]
    exact ((List.prefix_append _ _).trans hfifo).trans (List.prefix_append _ _)
  · exact ⟨_, hflows.bits, List.prefix_refl _, fun i hi => .inl (List.mem_map.mpr ⟨i, hi, rfl⟩)⟩
  · exact ⟨rfl, rfl, hrun, e2, e3, e4, e5, e6⟩

/-- A8: where the mirrors wait for room, the completion waits behind them. -/
theorem State.clearRow_waits (hT : s.TakesSlot n slot .clear) (hA : s.Accepts slot) (hN : s.NoPredecessor (slot.take 64))
    (hq : (s.handed n slot .clear none).handOver .clear s.part.board.nextSeq n (slot.take 64) none =
      q.finishRequest .directoryEngine s.part.board.nextSeq res)
    (hpart : q = { s.handed n slot .clear none with dir := q.dir, svc := q.svc, port := q.port }) (hparks : (s.handed n slot .clear none).Parks q M N)
    (hM : (∀ a ∈ M, a.isRead = false) ∧ ∀ (addr : Nat) (b : Byte) (report : ReportTag), Access.write addr [b] report ∉ M) :
    ∃ t : State, exec (.clear slot) s = .next t ∧ s.ClearRow t n slot q M N res := by
  obtain ⟨hr, hf, hbelow, _, _, _, _, hk, hc⟩ := id hT
  obtain ⟨items, done, left, hwaiting, hwrites, hNs, hbits, hleft⟩ := hparks.waits
  have hblock : q.port.waits .directoryEngine = true := by
    rw [WindowPort.waits_iff, hwaiting]
    exact ⟨_, List.mem_cons_self, rfl⟩
  let item : Item := .hand (.complete s.part.board.nextSeq res)
  have hpark : q.port.park .directoryEngine [item] = { q.port with waiting := [{ block := .directoryEngine, items := items ++ [item] }] } := by
    unfold WindowPort.park
    rw [if_pos hblock, hwaiting]
    rfl
  have hfinish : q.finishRequest .directoryEngine s.part.board.nextSeq res =
      { q with port := { q.port with waiting := [{ block := .directoryEngine, items := items ++ [item] }] } } := by
    rw [← hpark]
    unfold Part.finishRequest Part.raise
    exact if_pos hblock
  have hboard : q.board = (s.handed n slot .clear none).board := by rw [hpart]
  have hrun : q.run = s.part.run := by rw [hpart]; rfl
  have hof : q.heldOf s.part.board.nextSeq = some (s.recordInTake n slot .clear none) := by
    have h := State.heldOf_handed_self hbelow n slot .clear none
    rw [Part.heldOf, ← hboard] at h
    exact h
  have hkind : Req.kind (slot.take 64) = some .clear := by rw [Req.kind_take]; exact hk
  have hexec := State.takeRow_waits (q := { q with port := { q.port with waiting := [{ block := .directoryEngine, items := items ++ [item] }] } }) hT hA hN
    (hq.trans hfinish) hrun hof (by
      unfold Part.keepsInHand
      rw [show (s.recordInTake n slot .clear none).req = slot.take 64 from rfl, hkind]) (by simp)
  rw [show ({ q.port with waiting := [{ block := .directoryEngine, items := items ++ [item] }] } : WindowPort).later = [] from hparks.later] at hexec
  let w : WindowPort := { q.port with waiting := [{ block := .directoryEngine, items := items ++ [item] }], later := [.sweepOn] }
  have haccesses : WaitEntry.accesses w.waiting = WaitEntry.accesses q.port.waiting := by
    rw [hwaiting]
    unfold WaitEntry.accesses
    simp [w, item]
  have hself : M.filter (fun a => !a.isRead) = M := List.filter_eq_self.mpr fun a ha => by rw [hM.1 a ha]; rfl
  have hout : w.outstanding.filter (fun a => !a.isRead) = M := by
    rw [WindowPort.outstanding_eq, show w.reports = [] from hparks.reports, List.nil_append, List.filter_append, haccesses]
    refine Eq.trans ?_ hself
    rw [← hwrites, List.filter_append, List.filter_filter]
    simp only [Bool.and_self]
    rfl
  refine ⟨{ s with part := { q with port := w } }, hexec, rfl, rfl, rfl, ?_, ?_, ?_, fun _ => ⟨⟨by simp [w], ?_, fun report hmem => ?_, ?_, rfl⟩, ?_, ?_⟩, fun h => ?_⟩
  · show q.board.nextSeq = _
    rw [hboard]
    rfl
  · show M <+: w.outstanding.filter _
    rw [hout]
  · refine ⟨done.map fun i => .update s.part.svc.activeBank .directory i, hbits, ?_, fun i hi => ?_⟩
    · rw [hNs, List.map_append]
      exact List.prefix_append _ _
    · rw [hNs] at hi
      exact (List.mem_append.mp hi).imp (fun h => List.mem_map.mpr ⟨i, h, rfl⟩) fun h =>
        ⟨_, List.mem_cons_self, rfl, List.mem_append_left _ (hleft i h)⟩
  · show _ ∈ q.board.held
    rw [hboard]
    exact List.mem_append_right _ List.mem_cons_self
  · refine hM.2 (stateByteAddr s.part.base n) stateTaken report ?_
    rw [← hout]
    exact List.mem_filter.mpr ⟨hmem, rfl⟩
  · show q.board.sweep = _
    rw [hboard]
    rfl
  · show q.board.held = _
    rw [hboard]
    rfl
  · exact ⟨_, List.mem_cons_self, rfl, by simp [item]⟩
  · have hfull : 32 < M.length := hparks.full
    omega

end Row

/-- Settles O29: the selected entries are changed in their order from the empty port. -/
theorem clearChangesTheSelectedEntries : Obligations.ClearChangesTheSelectedEntries := by
  unfold Obligations.ClearChangesTheSelectedEntries
  intro s n slot content selected notifying res hT hA hN hcontent hselected hnotifying hres
  let r : List Byte := slot.take 64
  let counts : Bool := (byteOf (Req.param r 0)).getLsbD 1
  let H : Part := s.handed n slot .clear none
  let d : EntryEdit := clearEdit content counts s.part.run.clock
  let q : Part := H.editEach d selected
  have hlt : ∀ i ∈ selected, i < 192 := fun i hi => by
    rw [hselected] at hi
    exact (Part.mem_entriesWhere.mp hi).1
  have hnodup : selected.Nodup := hselected ▸ s.part.entriesWhere_nodup _
  have hedit : H.Edited q d selected := Part.editEach_edited hnodup hlt H
  have hpart : q = { H with dir := q.dir, svc := q.svc, port := q.port } := hedit.part
  have hnotified : H.notified d selected = notifying := by
    rw [hnotifying, hselected]
    exact Part.notified_clear content counts s.part.run.clock r H
  have hflows : H.FlowsOrParks q (selected.flatMap fun i => H.editWrites d i) notifying := by
    have h := Part.editEach_flows d hnodup hlt (.inl (Part.flows_empty (p := H) rfl))
    rw [List.nil_append, List.nil_append, hnotified] at h
    exact h
  have hdo : H.handOver .clear s.part.board.nextSeq n r none = q.finishRequest .directoryEngine s.part.board.nextSeq res := by
    have hsame : (H.entriesWhere (clearSelects r)) = selected := hselected.symm
    show H.doClear s.part.board.nextSeq r = _
    unfold Part.doClear
    dsimp only
    rw [← hcontent, hsame, Part.clearEach_eq content counts hlt H, hres]
    cases content <;> rfl
  obtain ⟨hM, hthree, hbyte⟩ := H.editWrites_facts d selected
  obtain ⟨t, ht, hrow⟩ : ∃ t : State, exec (.clear slot) s = .next t ∧ s.ClearRow t n slot q (selected.flatMap fun i => H.editWrites d i) notifying res := by
    rcases hflows with hflows | hparks
    · have hroom : (selected.flatMap fun i => H.editWrites d i).length ≤ 32 := hflows.room
      exact State.clearRow_ends hT hA hN hdo hpart hflows (by omega)
    · exact State.clearRow_waits hT hA hN hdo hpart hparks ⟨hM, hbyte⟩
  have hdir : t.part.dir = q.dir := by rw [hrow.part]
  have hslot : ∀ i, t.part.entrySlot i = q.entrySlot i := fun i => by rw [Part.entrySlot, hdir, Part.entrySlot]
  have hentry : ∀ i ∈ selected, ∀ e, s.part.entryAt i = some e → t.part.entrySlot i = s.part.slotWith i (d.new e) ∧ t.part.entryAt i = d.new e :=
    fun i hi e he => by
      have h := (hslot i).trans (hedit.slot i hi e he)
      exact ⟨h, congrArg EntrySlot.entry h⟩
  have hmirrors : (selected.flatMap fun i => s.entryMirror i (t.part.entryAt i)) = selected.flatMap fun i => H.editWrites d i :=
    List.flatMap_congr fun i hi => by
      have hi' := hi
      rw [hselected] at hi'
      obtain ⟨-, e, he, -⟩ := Part.mem_entriesWhere.mp hi'
      rw [(hentry i hi e he).2, Part.editWrites_some (p := H) he]
      rfl
  have hout := hrow.writes.sublist.trans List.filter_sublist
  have hmem : ∀ i e, s.part.entryAt i = some e → (i ∈ selected ↔ clearSelects r e = true) := fun i e he => by
    rw [hselected, Part.mem_entriesWhere]
    refine ⟨fun ⟨_, e', he', h⟩ => ?_, fun h => ⟨Part.entryAt_lt he, e, he, h⟩⟩
    obtain rfl := Option.some.inj (he.symm.trans he')
    exact h
  have hsvc : t.part.svc = q.svc := by rw [hrow.part]
  have hqsvc : q.svc = { s.part.svc with bankQueue := q.svc.bankQueue } := hedit.svc
  refine ⟨t, _, ht, rfl, hrow.pending, hrow.mem, ?_, ?_, ?_, ?_, ?_, hrow.nextSeq, fun i e he hsel => ?_, fun i e he hsel => ?_, fun i he => ?_, ?_, ?_, ?_, ?_⟩
  · rw [hrow.part, hpart]
    rfl
  · rw [hrow.part, hpart]
    rfl
  · rw [hrow.part, hpart]
    rfl
  · rw [hrow.part, hpart]
    rfl
  · rw [hrow.part, hpart]
    rfl
  · have hi := (hmem i e he).mpr (clearSelects_iff.mpr hsel)
    obtain ⟨h1, h2⟩ := hentry i hi e he
    obtain ⟨f1, f2, f3, f4, f5, f6, f7, f8⟩ := clearEntry_facts content counts s.part.run.clock e
    refine ⟨_, h2, f1, f2, f3, f4, f5, f6, f7, f8, State.rewritesEntry_of h1 ?_⟩
    have hone : (H.editWrites d i).Sublist (selected.flatMap fun i => H.editWrites d i) :=
      List.sublist_flatten_of_mem (List.mem_map_of_mem hi)
    rw [Part.editWrites_some (p := H) he] at hone
    exact hone.trans hout
  · exact (hslot i).trans (hedit.kept i (.inl fun hi => hsel (clearSelects_iff.mp ((hmem i e he).mp hi))))
  · exact (hslot i).trans (hedit.kept i (.inr he))
  · obtain ⟨more, h1, h2, h3⟩ := hrow.bits
    refine ⟨more, ?_, h2, h3⟩
    rw [hsvc, hqsvc, h1]
  · rw [hmirrors]
    exact hrow.writes
  · rw [hmirrors]
    exact hrow.waits
  · rw [hmirrors, hsvc]
    exact hrow.ends

end Sys2Proof.Machine
end

section
/-! SUPPORT. Work that finds room for all it raises, and work that writes no slot TAKEN (R117, R122, R163, R174). -/

namespace Sys2Proof.Machine

/-! ## Room for what is raised -/

/-- No block waits, there is room for `k` writes more, and for the read that the next bank bit may raise. -/
def Part.RoomLeft (k : Nat) (p : Part) : Prop :=
  p.port.waiting = [] ∧ p.port.writesQueued + k ≤ Config.writeQueueSize ∧
  p.port.readsQueued + (if p.svc.bankQueue = [] then 1 else 0) ≤ Config.readQueueSize

theorem Part.RoomLeft.of_eq {k : Nat} {p q : Part} (h : p.RoomLeft k) (hp : q.port = p.port := by rfl) (hs : q.svc.bankQueue = p.svc.bankQueue := by rfl) :
    q.RoomLeft k := by
  unfold Part.RoomLeft
  rw [hp, hs]
  exact h

theorem Part.RoomLeft.mono {j k : Nat} {p : Part} (h : p.RoomLeft k) (hj : j ≤ k) : p.RoomLeft j := by
  obtain ⟨h1, h2, h3⟩ := h
  exact ⟨h1, by omega, h3⟩

theorem filter_writes {l : List Access} (hl : ∀ a ∈ l, a.isRead = false) :
    (l.filter fun a => !a.isRead) = l ∧ l.filter Access.isRead = [] :=
  ⟨List.filter_eq_self.mpr fun a ha => by rw [hl a ha]; rfl, List.filter_eq_nil_iff.mpr fun a ha => by rw [hl a ha]; exact Bool.false_ne_true⟩

/-- Writes that fit leave the rest of the room. -/
theorem Part.RoomLeft.write {p : Part} {l : List Access} (hl : ∀ a ∈ l, a.isRead = false) {k : Nat} (h : p.RoomLeft (l.length + k)) :
    p.port.Fits l ∧ ({ p with port := p.port.with l } : Part).RoomLeft k := by
  obtain ⟨h1, h2, h3⟩ := h
  obtain ⟨hw, hr⟩ := filter_writes hl
  obtain ⟨qw, qr⟩ := WindowPort.with_queued hl p.port
  refine ⟨⟨h1, ?_, ?_⟩, h1, ?_, ?_⟩
  · rw [hw]
    omega
  · rw [hr]
    show p.port.readsQueued + 0 ≤ _
    omega
  · show (p.port.with l).writesQueued + k ≤ _
    rw [qw]
    omega
  · show (p.port.with l).readsQueued + _ ≤ _
    rw [qr]
    exact h3

theorem Part.RoomLeft.raise {p : Part} {l : List Access} (hl : ∀ a ∈ l, a.isRead = false) {k : Nat} (h : p.RoomLeft (l.length + k)) (b : Block) (bit : Bool)
    (m : MapKind) (i : Nat) : (Part.raise b (l.map Item.access ++ if bit then [Item.hand (.bankBit m i)] else []) p).RoomLeft k := by
  obtain ⟨h1, h2, h3⟩ := id h
  obtain ⟨hw, hr⟩ := filter_writes hl
  let reads : List Access := if bit then p.bankBitRead m i else []
  have hreads : (∀ a ∈ reads, a.isRead = true) ∧ reads.length = if bit ∧ p.svc.bankQueue = [] then 1 else 0 := by
    show (∀ a ∈ (if bit then p.bankBitRead m i else []), a.isRead = true) ∧ (if bit then p.bankBitRead m i else []).length = _
    unfold Part.bankBitRead
    by_cases hb : bit = true
    · by_cases hq : p.svc.bankQueue = []
      · simp [hb, hq, Access.isRead]
      · simp [hb, hq]
    · simp [hb]
  have hrw : reads.filter (fun a => !a.isRead) = [] := List.filter_eq_nil_iff.mpr fun a ha => by rw [hreads.1 a ha]; simp
  have hrr : reads.filter Access.isRead = reads := List.filter_eq_self.mpr hreads.1
  have hcount : p.port.readsQueued + reads.length ≤ Config.readQueueSize := by
    rw [hreads.2]
    refine le_trans (Nat.add_le_add_left ?_ _) h3
    by_cases hq : p.svc.bankQueue = []
    · rw [if_pos hq]
      split <;> omega
    · rw [if_neg hq, if_neg fun e => hq e.2]
  have hfits : p.port.Fits (l ++ reads) := by
    refine ⟨h1, ?_, ?_⟩
    · rw [List.filter_append, hw, hrw, List.append_nil]
      omega
    · rw [List.filter_append, hr, hrr]
      exact hcount
  obtain ⟨hport, hqueue⟩ := (Part.raise_rewrites h1 b l bit m i).fits hfits
  generalize Part.raise b (l.map Item.access ++ if bit then [Item.hand (.bankBit m i)] else []) p = q at *
  refine ⟨by rw [hport]; exact h1, ?_, ?_⟩
  · rw [hport]
    show ((p.port.fifo ++ (l ++ reads)).filter fun a => !a.isRead).length + k ≤ _
    rw [List.filter_append, List.filter_append, hw, hrw, List.append_nil, List.length_append, Nat.add_assoc]
    exact h2
  · rw [hport, hqueue]
    show ((p.port.fifo ++ (l ++ reads)).filter Access.isRead).length + _ ≤ _
    rw [List.filter_append, List.filter_append, hr, hrr, List.nil_append, List.length_append]
    have hfifo : (p.port.fifo.filter Access.isRead).length = p.port.readsQueued := rfl
    rw [hfifo]
    cases bit with
    | true =>
      rw [if_neg (by simp)]
      exact hcount
    | false =>
      rw [hreads.2, if_neg (by simp)]
      simpa using h3

theorem mirrorWrites_writes (addr : Nat) (v : BitVec 64) (body : List Byte) : ∀ a ∈ mirrorWrites addr v body, a.isRead = false := fun a ha => by
  unfold mirrorWrites at ha
  simp only [List.mem_cons, List.not_mem_nil, or_false] at ha
  rcases ha with rfl | rfl | rfl <;> rfl

theorem Part.RoomLeft.putUnit {p : Part} {k : Nat} (h : p.RoomLeft (3 + k)) {a : Nat} (ha : 1 ≤ a ∧ a ≤ 30) (new : Option FieldUnit) (f : Bool) :
    (p.putUnit a new f).RoomLeft k := by
  obtain ⟨v, hv⟩ := Part.putUnit_raise ha new f p
  have hwrites : (∀ x ∈ p.unitWrites a new f, x.isRead = false) ∧ (p.unitWrites a new f).length ≤ 3 := by
    rcases Part.unitWrites_shape a new f p with e | ⟨addr, w, body, e⟩
    · rw [e]
      exact ⟨fun x hx => absurd hx List.not_mem_nil, Nat.zero_le _⟩
    · rw [e]
      exact ⟨mirrorWrites_writes addr w body, le_refl 3⟩
  rw [hv]
  exact Part.RoomLeft.raise (p := { p with um := { p.um with slots := v } }) hwrites.1 (h.of_eq.mono (by omega)) .unitManager _ .unit a

theorem Part.RoomLeft.editEach {d : EntryEdit} {l : List Nat} (hl : ∀ n ∈ l, n < 192) {p : Part} {k : Nat} (h : p.RoomLeft (3 * l.length + k)) :
    (p.editEach d l).RoomLeft k := by
  induction l generalizing p with
  | nil => exact h.mono (by omega)
  | cons n rest ih =>
    refine ih (p := p.editEntry d n) (fun m hm => hl m (List.mem_cons_of_mem _ hm)) ?_
    rw [List.length_cons] at h
    cases he : p.entryAt n with
    | none =>
      rw [Part.editEntry_none he]
      exact h.mono (by omega)
    | some e =>
      obtain ⟨v, hv⟩ := Part.putEntry_raise (hl n List.mem_cons_self) (d.new e) (d.notifies e) p
      have hlength : (p.entryWrites n (d.new e)).length ≤ 3 := by
        unfold Part.entryWrites
        split
        · exact Nat.zero_le _
        · exact le_refl 3
      rw [Part.editEntry_some he, hv]
      exact Part.RoomLeft.raise (p := { p with dir := { p.dir with slots := v } }) (p.entryWrites_writes n _) (h.of_eq.mono (by omega)) .directoryEngine _
        .directory n

theorem faultWrites_writes (base index : Nat) (seq : Word) (f : FaultRecord) (time : Word) : ∀ a ∈ faultWrites base index seq f time, a.isRead = false :=
  fun a ha => by
    unfold faultWrites at ha
    simp only [List.mem_cons, List.not_mem_nil, or_false] at ha
    rcases ha with rfl | rfl | rfl | rfl <;> rfl

theorem Part.RoomLeft.takeFault {p : Part} {k : Nat} (h : p.RoomLeft (4 + k)) (f : FaultRecord) : (p.takeFault f).RoomLeft k := by
  obtain ⟨hfits, hroom⟩ := Part.RoomLeft.write (p := p) (l := faultWrites p.base p.svc.ringIndex p.svc.nextFault f p.run.clock) (faultWrites_writes _ _ _ _ _) h
  rw [Part.takeFault_fits hfits]
  exact hroom.of_eq

theorem Part.RoomLeft.completeSlot {p : Part} {k : Nat} (h : p.RoomLeft (2 + k)) (n : Nat) (r : Result) : (p.completeSlot n r).RoomLeft k := by
  have hkept : p.RoomLeft k := h.mono (by omega)
  unfold Part.completeSlot
  cases p.heldOf n with
  | none => exact hkept
  | some x =>
    dsimp only
    unfold Part.writeCompletion
    dsimp only
    split
    · obtain ⟨hlength, hwrites⟩ := Completion.writes_facts p.base ⟨x.slot, x.unmatched, r, p.run.clock⟩
      obtain ⟨hfits, hroom⟩ := Part.RoomLeft.write (p := p) (k := k) hwrites (h.mono (by omega))
      exact hroom.of_eq (WindowPort.submit_fits .boardController _ _ hfits) (by rfl)
    · exact hkept.of_eq

/-- R85: a transaction that is dismissed completes its slot, or leaves a LATE_FAILURE record. -/
theorem Part.RoomLeft.finishTxn {p : Part} {k : Nat} (h : p.RoomLeft (4 + k)) (t : Transaction) (o : ReqOutcome) :
    (p.finishTxn t { outcome := o }).RoomLeft k := by
  let P : Part := { p with te := { p.te with pool := p.te.pool.filter fun x => x.seq != t.seq } }
  have hP : P.RoomLeft (4 + k) := h.of_eq
  have hreserve : P.reserveToken t { outcome := o } = P := rfl
  have hreport : (P.reportEnding t { outcome := o }).RoomLeft k := by
    unfold Part.reportEnding
    split
    · exact Part.RoomLeft.completeSlot (hP.mono (by omega)) _ _
    · split
      · exact hP.mono (by omega)
      · rw [Part.raise_free (by exact h.1)]
        exact hP.takeFault _
  show (((P.reserveToken t { outcome := o }).reportEnding t { outcome := o }).noteFinish _ _ _).RoomLeft k
  rw [hreserve]
  exact hreport.of_eq

theorem Part.RoomLeft.finishAll {p : Part} {k : Nat} {l : List Transaction} (h : p.RoomLeft (4 * l.length + k)) (o : ReqOutcome) :
    (p.finishAll l o).RoomLeft k := by
  induction l generalizing p with
  | nil => exact h.mono (by omega)
  | cons t rest ih =>
    rw [List.length_cons] at h
    refine ih (p := p.finishTxn t { outcome := o }) ?_
    exact Part.RoomLeft.finishTxn (h.mono (by omega)) t o

/-! ## No slot is written TAKEN -/

/-- R117: the write of the state TAKEN. -/
def Access.marksTaken (a : Access) : Prop := ∃ (addr : Nat) (report : ReportTag), a = .write addr [stateTaken] report

/-- No TAKEN write is raised or waits for room. -/
def Part.NoTaken (p : Part) : Prop := ∀ a ∈ p.port.outstanding, ¬ a.marksTaken

theorem Access.not_marksTaken {addr : Nat} {bytes : List Byte} {report : ReportTag} (h : bytes ≠ [stateTaken]) : ¬ (Access.write addr bytes report).marksTaken :=
  fun ⟨_, _, e⟩ => h (Access.write.inj e).2.1

theorem Access.not_marksTaken_length {addr : Nat} {bytes : List Byte} {report : ReportTag} (h : bytes.length ≠ 1) :
    ¬ (Access.write addr bytes report).marksTaken := Access.not_marksTaken fun e => h (by rw [e]; rfl)

theorem Access.not_marksTaken_read (w : ReadWhat) (addr len : Nat) : ¬ (Access.read w addr len).marksTaken := fun ⟨_, _, e⟩ => by cases e

theorem Part.NoTaken.submit {p : Part} (h : p.NoTaken) (b : Block) {l : List Access} (hl : ∀ a ∈ l, ¬ a.marksTaken) : (p.submit b l).NoTaken := fun a ha =>
  (WindowPort.submit_mem ha).elim (h a) (hl a)

theorem Part.NoTaken.of_port {p q : Part} (h : p.NoTaken) (hp : q.port = p.port := by rfl) : q.NoTaken := by
  unfold Part.NoTaken
  rw [hp]
  exact h

theorem le32_length (x : Word) : (le32 x).length = 4 := rfl

theorem faultWrites_not_taken (base index : Nat) (seq : Word) (f : FaultRecord) (time : Word) : ∀ a ∈ faultWrites base index seq f time, ¬ a.marksTaken :=
  fun a ha => by
    have hbody : (f.body time).length = 28 := by
      unfold FaultRecord.body padTo
      rw [List.length_take, List.length_append, List.length_replicate]
      omega
    unfold faultWrites at ha
    simp only [List.mem_cons, List.not_mem_nil, or_false] at ha
    rcases ha with rfl | rfl | rfl | rfl
    · exact Access.not_marksTaken_length (by rw [le32_length]; decide)
    · exact Access.not_marksTaken_length (by rw [hbody]; decide)
    · exact Access.not_marksTaken_length (by rw [le32_length]; decide)
    · exact Access.not_marksTaken_length (by rw [le32_length]; decide)

theorem completionWrites_not_taken (base slot : Nat) (r : Result) (unmatched : Bool) (time : Word) (report : ReportTag) :
    ∀ a ∈ completionWrites base slot r unmatched time report, ¬ a.marksTaken := fun a ha => by
  have hresult : 4 ≤ (r.bytes unmatched time).length := by
    unfold Result.bytes
    simp only [List.length_append, List.length_cons, List.length_nil]
    omega
  unfold completionWrites at ha
  simp only [List.mem_cons, List.not_mem_nil, or_false] at ha
  rcases ha with rfl | rfl
  · exact Access.not_marksTaken_length (by omega)
  · exact Access.not_marksTaken (by decide)

theorem mirrorWrites_not_taken (addr : Nat) (v : BitVec 64) {body : List Byte} (h : body.length = 56) : ∀ a ∈ mirrorWrites addr v body, ¬ a.marksTaken :=
  fun a ha => by
    have hversion : ∀ x : BitVec 64, (le64 x).length = 8 := fun _ => rfl
    unfold mirrorWrites at ha
    simp only [List.mem_cons, List.not_mem_nil, or_false] at ha
    rcases ha with rfl | rfl | rfl
    · exact Access.not_marksTaken_length (by rw [hversion]; decide)
    · exact Access.not_marksTaken_length (by rw [h]; decide)
    · exact Access.not_marksTaken_length (by rw [hversion]; decide)

theorem padTo_length (n : Nat) (l : List Byte) : (padTo n l).length = n := by
  unfold padTo
  rw [List.length_take, List.length_append, List.length_replicate]
  omega

theorem dirBody_length (k : Key) (e : Option Entry) : (dirBody k e).length = 56 := by
  cases e <;> exact padTo_length 56 _

theorem unitBody_length (u : Option FieldUnit) : (unitBody u).length = 56 := by
  cases u <;> exact padTo_length 56 _

theorem Part.NoTaken.takeFault {p : Part} (h : p.NoTaken) (f : FaultRecord) : (p.takeFault f).NoTaken :=
  Part.NoTaken.submit (p := { p with svc := _ }) h.of_port .serviceUnit (faultWrites_not_taken _ _ _ _ _)

theorem Part.NoTaken.takeBankBit {p : Part} (h : p.NoTaken) (m : MapKind) (i : Nat) : (p.takeBankBit m i).NoTaken := by
  unfold Part.takeBankBit
  dsimp only
  split
  · refine Part.NoTaken.submit h.of_port .serviceUnit fun a ha => ?_
    unfold ServiceUnit.bankRead at ha
    split at ha
    · rw [List.mem_singleton.mp ha]
      exact Access.not_marksTaken_read _ _ _
    · exact absurd ha List.not_mem_nil
    · exact absurd ha List.not_mem_nil
  · exact h.of_port

theorem Part.NoTaken.completeSlot {p : Part} (h : p.NoTaken) (n : Nat) (r : Result) : (p.completeSlot n r).NoTaken := by
  unfold Part.completeSlot
  split
  · exact h
  · unfold Part.writeCompletion
    dsimp only
    split
    · exact Part.NoTaken.submit h.of_port .boardController (completionWrites_not_taken _ _ _ _ _ _)
    · exact h.of_port

theorem Part.NoTaken.raise {p : Part} (h : p.NoTaken) (b : Block) {l : List Access} (hl : ∀ a ∈ l, ¬ a.marksTaken) (bit : Bool) (m : MapKind) (i : Nat) :
    (Part.raise b (l.map Item.access ++ if bit then [Item.hand (.bankBit m i)] else []) p).NoTaken := by
  have haccess : ∀ {a : Access} {l : List Access}, Item.access a ∈ l.map Item.access ++ (if bit then [Item.hand (.bankBit m i)] else []) → a ∈ l :=
    fun {a l} hm => by
      rcases List.mem_append.mp hm with hm | hm
      · obtain ⟨x, hx, e⟩ := List.mem_map.mp hm
        rwa [← Item.access.inj e]
      · cases bit with
        | false => exact absurd hm List.not_mem_nil
        | true => exact absurd (List.mem_singleton.mp hm) (by simp)
  unfold Part.raise
  split
  · exact fun a ha => (WindowPort.park_mem ha).elim (h a) fun hm => hl a (haccess hm)
  · clear * - h hl haccess
    induction l generalizing p with
    | nil =>
      cases bit with
      | false => exact h
      | true => exact h.takeBankBit m i
    | cons x rest ih =>
      rw [List.map_cons, List.cons_append, Part.raiseFree]
      split
      · refine ih (p := { p with port := p.port.push x }) (fun a ha => ?_) fun a ha => hl a (List.mem_cons_of_mem _ ha)
        rcases WindowPort.push_mem ha with ha | rfl
        · exact h a ha
        · exact hl a List.mem_cons_self
      · exact fun a ha => (WindowPort.park_mem ha).elim (h a) fun hm => hl a (haccess (l := x :: rest) hm)

theorem Part.NoTaken.putUnit {p : Part} (h : p.NoTaken) {a : Nat} (ha : 1 ≤ a ∧ a ≤ 30) (new : Option FieldUnit) (f : Bool) : (p.putUnit a new f).NoTaken := by
  obtain ⟨v, hv⟩ := Part.putUnit_raise ha new f p
  rw [hv]
  refine Part.NoTaken.raise h.of_port .unitManager (fun x hx => ?_) _ .unit a
  unfold Part.unitWrites at hx
  split at hx
  · exact mirrorWrites_not_taken _ _ (unitBody_length _) x hx
  · exact absurd hx List.not_mem_nil

theorem Part.NoTaken.editEach {d : EntryEdit} {l : List Nat} (hl : ∀ n ∈ l, n < 192) {p : Part} (h : p.NoTaken) : (p.editEach d l).NoTaken := by
  induction l generalizing p with
  | nil => exact h
  | cons n rest ih =>
    refine ih (p := p.editEntry d n) (fun m hm => hl m (List.mem_cons_of_mem _ hm)) ?_
    cases he : p.entryAt n with
    | none =>
      rw [Part.editEntry_none he]
      exact h
    | some e =>
      obtain ⟨v, hv⟩ := Part.putEntry_raise (hl n List.mem_cons_self) (d.new e) (d.notifies e) p
      rw [Part.editEntry_some he, hv]
      refine Part.NoTaken.raise h.of_port .directoryEngine (fun x hx => ?_) _ .directory n
      unfold Part.entryWrites at hx
      split at hx
      · exact absurd hx List.not_mem_nil
      · exact mirrorWrites_not_taken _ _ (dirBody_length _ _) x hx

theorem Part.NoTaken.finishTxn {p : Part} (h : p.NoTaken) (t : Transaction) (o : ReqOutcome) : (p.finishTxn t { outcome := o }).NoTaken := by
  let P : Part := { p with te := { p.te with pool := p.te.pool.filter fun x => x.seq != t.seq } }
  have hP : P.NoTaken := h.of_port
  have hreport : (P.reportEnding t { outcome := o }).NoTaken := by
    unfold Part.reportEnding
    split
    · exact hP.completeSlot _ _
    · split
      · exact hP
      · unfold Part.raise
        split
        · exact fun a ha => (WindowPort.park_mem ha).elim (hP a) fun hm => absurd (List.mem_singleton.mp hm) (by simp)
        · exact hP.takeFault _
  exact hreport.of_port

theorem Part.NoTaken.finishAll {p : Part} (h : p.NoTaken) (l : List Transaction) (o : ReqOutcome) : (p.finishAll l o).NoTaken := by
  induction l generalizing p with
  | nil => exact h
  | cons t rest ih => exact ih (p := p.finishTxn t { outcome := o }) (h.finishTxn t o)

end Sys2Proof.Machine
end

section
/-! SUPPORT. The end of a take whose block may wait for room, and the notices of a DISMISS (R20, R44, R45, R106, R113, R117). -/

namespace Sys2Proof.Machine

/-! ## The end of a take -/

/-- R113, R117: what the sweep leaves of a take settled as `Z`, whether or not a block waits. -/
theorem Part.takeStep_rests {p Z : Part} {n : Nat} {slot : List Byte} (hZ : (p.take n (slot.take 64)).settle = Z) (hr : Z.run.partState = .running)
    (hrest : Z.port.waiting = [] → Z.port.later = [] ∧ Z.board.finishes = []) :
    ∃ (x : BoardController) (w : WindowPort), p.takeStep n slot = { Z with board := x, port := w } ∧ x.held = Z.board.held ∧
      x.completions = Z.board.completions ∧ Z.Works (p.takeStep n slot) := by
  have hafter : Z.takeAfterDrain = Z := by
    unfold Part.takeAfterDrain
    rw [if_neg (by rw [hr]; simp)]
  have hworks : Z.Works (p.takeStep n slot) := by
    unfold Part.takeStep
    rw [hZ, hafter]
    exact Z.sweepOn_carries.toWorks.trans (Part.settle_works _)
  by_cases hw : Z.port.waiting = []
  · obtain ⟨hl, hf⟩ := hrest hw
    obtain ⟨x, w, h1, -, h3, -, -, -, h7⟩ := Part.takeStep_settled hZ hr hw hl hf
    exact ⟨x, w, h1, h3, h7, hworks⟩
  · have hon : ∃ (x : BoardController) (w : WindowPort), Z.sweepOn = { Z with board := x, port := w } ∧ x.held = Z.board.held ∧
        x.completions = Z.board.completions := by
      unfold Part.sweepOn
      split
      · exact ⟨Z.board, _, rfl, rfl, rfl⟩
      · obtain ⟨x, w, h1, -, h3, -, -, -, h7⟩ := Z.sweepNext_frame true
        exact ⟨x, w, h1, h3, h7⟩
    obtain ⟨x, w, h1, h2, h3⟩ := hon
    refine ⟨x, w, ?_, h2, h3, hworks⟩
    have hwaiting := Z.sweepOn_carries.port.waiting_ne_nil hw
    unfold Part.takeStep
    rw [hZ, hafter, ← h1, Part.settle_waiting hwaiting]

/-! ## A record that no resolution completes -/

/-- R120: a record is held, and no SYNC is its request. -/
def Part.HoldsOn (h : HeldRequest) (p : Part) : Prop := h ∈ p.board.held ∧ ∀ y ∈ p.te.syncs, y.seq ≠ h.seq

theorem Part.HoldsOn.endSync {h : HeldRequest} {p : Part} (g : p.HoldsOn h) {y : SyncRecord} (hy : y.seq ≠ h.seq) (o : ReqOutcome) :
    (p.endSync y o).HoldsOn h := by
  refine ⟨?_, fun z hz => ?_⟩
  · let P : Part := { p with te := { p.te with syncs := p.te.syncs.filter fun x => x.seq != y.seq } }
    show h ∈ (P.completeRequest y.seq { outcome := o, fields := y.fields }).board.held
    cases hh : P.heldOf y.seq with
    | none =>
      rw [Part.completeRequest_none hh]
      exact g.1
    | some x =>
      rw [(Part.completeRequest_board _ hh).1]
      exact List.mem_filter.mpr ⟨g.1, by simpa using Ne.symm hy⟩
  · rw [Part.endSync_syncs] at hz
    exact g.2 z (List.mem_of_mem_filter hz)

theorem Part.HoldsOn.endSyncs {h : HeldRequest} {ys : List SyncRecord} (hy : ∀ y ∈ ys, y.seq ≠ h.seq) {p : Part} (g : p.HoldsOn h) :
    (p.endSyncs ys).HoldsOn h := by
  have hgen : ∀ (l : List SyncRecord) (q : Part), (∀ y ∈ l, y.seq ≠ h.seq) → q.HoldsOn h → (l.foldl (fun q y => q.endSync y .ok) q).HoldsOn h := by
    intro l
    induction l with
    | nil => exact fun _ _ g => g
    | cons y rest ih => exact fun q hl g => ih _ (fun z hz => hl z (List.mem_cons_of_mem _ hz)) (g.endSync (hl y List.mem_cons_self) .ok)
  exact hgen _ p (fun y hm => hy y (List.mem_of_mem_filter hm)) g

theorem Part.HoldsOn.countFinish {h : HeldRequest} {p : Part} (g : p.HoldsOn h) (f : Finish) : (p.countFinish f).HoldsOn h := by
  have hcount : ∀ {l : List SyncRecord}, (∀ y ∈ l, y ∈ p.te.syncs) → ∀ y ∈ l.map (SyncRecord.count f.seq f.success), y.seq ≠ h.seq := fun hl y hy => by
    obtain ⟨z, hz, rfl⟩ := List.mem_map.mp hy
    rw [SyncRecord.count_seq]
    exact g.2 z (hl z hz)
  unfold Part.countFinish
  split
  · exact Part.HoldsOn.endSyncs (hcount fun y hy => List.mem_of_mem_filter hy) ⟨g.1, hcount fun y hy => hy⟩
  · exact g

/-- Where nobody waits for a predecessor, a resolution completes SYNCs alone. -/
theorem Part.HoldsOn.resolve {h : HeldRequest} {p : Part} (g : p.HoldsOn h) (hl : p.port.later = []) (hw : ∀ k, ¬ p.Waits k) : p.resolve.HoldsOn h := by
  have hsteps : ∀ (n : Nat) (q : Part), q.HoldsOn h → q.port.later = [] → (∀ k, ¬ q.Waits k) → (Part.resolveSteps n q).HoldsOn h := by
    intro n
    induction n with
    | zero => exact fun _ g _ _ => g
    | succ n ih =>
      intro q g hl hw
      unfold Part.resolveSteps
      split
      · rw [hl]
        dsimp only
        split
        · next h => exact absurd h (by simp)
        · next f rest _ hf =>
          have hnone : ¬ ({ q with board := { q.board with finishes := rest } } : Part).Waits f.seq := hw f.seq
          rw [Part.resolveFinish_released hnone]
          let Q : Part := { q with board := { q.board with finishes := rest, registry := q.board.registry.filter fun e => e.2 != f.seq } }
          have hQ : Q.HoldsOn h := g
          have hcalm := Part.countFinish_calm f Q
          exact ih _ (hQ.countFinish f) (hcalm.later.trans hl) fun k hk => hw k (hcalm.waits k hk)
        · exact g
      · exact g
  exact hsteps _ p g hl hw

/-! ## The notices of a DISMISS -/

/-- R20: a retired entry leaves its number VACANT. -/
def retireEdit : EntryEdit := { new := fun _ => none, notifies := fun e => e.policies.notify.state }

theorem Part.retireUnit_eq (a : Nat) (p : Part) : p.retireUnit a = p.editEach retireEdit (p.entriesWhere fun e => e.key.unit == a) :=
  Part.foldl_editEach (g := Part.retireEntry) (fun n q _ => by
    unfold Part.retireEntry Part.editEntry
    rfl) _ fun _ hn => (Part.mem_entriesWhere.mp hn).1

/-- R106: the transactions that the notice ends. -/
def Transaction.dismissed (a : Nat) (x : Transaction) : Bool := x.unit == a && x.state != .sending

theorem Part.dismissable_eq (a : Nat) (p : Part) : p.dismissable a = p.te.pool.filter (Transaction.dismissed a) := by
  unfold Part.dismissable Part.unitQueue
  rw [List.filter_filter]
  exact List.filter_congr fun x _ => Bool.and_comm _ _

/-- R106: the unit with its reservations dropped. -/
def FieldUnit.unreserved (u : FieldUnit) : FieldUnit := { u with reservations := [] }

/-- R20, R44, R106: both blocks have taken the notice. -/
def Part.dismissNotices (a : Nat) (p : Part) : Part := (p.retireUnit a).dismissTransactions a

/-- What the notices leave of a unit that stands as `v`. -/
structure Part.DismissNoticed (p q : Part) (a : Nat) (v : FieldUnit) : Prop where
  works : p.Serves q
  calm : p.Calm q
  jw : q.jw = p.jw
  dismissWait : q.um.dismissWait = p.um.dismissWait
  svc : q.svc = { p.svc with bankQueue := q.svc.bankQueue, nextFault := q.svc.nextFault, ringIndex := q.svc.ringIndex }
  te : q.te = { p.te with pool := p.te.pool.filter fun x => !x.dismissed a }
  board : q.board = { p.board with
    held := q.board.held
    finishes := p.board.finishes ++ (p.te.pool.filter (Transaction.dismissed a)).map fun x => ⟨x.seq, false, true⟩
    completions := q.board.completions }
  held : q.board.held.Sublist p.board.held
  heldOf : ∀ m, (∀ x ∈ p.te.pool, x.seq ≠ m) → q.heldOf m = p.heldOf m
  slot : ∀ b, q.unitSlot b = if b = a then { p.unitSlot a with place := some v.unreserved } else p.unitSlot b
  entry : ∀ i e, p.entryAt i = some e → e.key.unit = a → q.entrySlot i = p.slotWith i none ∧ (p.entryWrites i none).Sublist q.port.outstanding ∧
    (e.policies.notify ≠ .never → p.BitOn q .directoryEngine .directory i)
  kept : ∀ i, (∀ e, p.entryAt i = some e → e.key.unit ≠ a) → q.entrySlot i = p.entrySlot i
  fails : p.port.waits .transactionEngine = false → ∀ x ∈ p.te.pool, x.dismissed a = true → x.origin = none → ∃ (index : Nat) (seq : Word),
    (faultWrites p.base index seq (x.lateFailure { outcome := .dismissed }) p.run.clock).Sublist q.port.outstanding
  quiet : (∀ x ∈ p.te.pool, x.dismissed a = true → x.origin.isSome = true) → q.svc.nextFault = p.svc.nextFault ∧ q.svc.ringIndex = p.svc.ringIndex
  completes : ∀ x ∈ p.te.pool, x.dismissed a = true → x.origin.isSome = true → ∀ h, p.heldOf x.seq = some h →
    p.Shows q (h.completion (x.result { outcome := .dismissed }) p.run.clock)
  room : ∀ k, p.RoomLeft (3 * (p.entriesWhere fun e => e.key.unit == a).length + 4 * (p.te.pool.filter (Transaction.dismissed a)).length + k) → q.RoomLeft k
  noTaken : p.NoTaken → q.NoTaken

theorem Part.dismissNotices_noticed {p : Part} {a : Nat} {v : FieldUnit} (ha : 1 ≤ a ∧ a ≤ 30) (hv : p.unitAt a = some v)
    (hnodup : (p.te.pool.map (·.seq)).Nodup) : p.DismissNoticed (p.dismissNotices a) a v := by
  have hlt : ∀ i ∈ p.entriesWhere (fun e => e.key.unit == a), i < 192 := fun i hi => (Part.mem_entriesWhere.mp hi).1
  have hedit := p.editWhere_edited retireEdit fun e => e.key.unit == a
  have hroomE := fun k (h : p.RoomLeft (3 * (p.entriesWhere fun e => e.key.unit == a).length + k)) => Part.RoomLeft.editEach (d := retireEdit) hlt h
  have htakenE := fun h : p.NoTaken => Part.NoTaken.editEach (d := retireEdit) hlt h
  have hnotices : p.dismissNotices a = (p.editEach retireEdit (p.entriesWhere fun e => e.key.unit == a)).dismissTransactions a := by
    rw [← Part.retireUnit_eq]
    rfl
  rw [hnotices]
  generalize p.editEach retireEdit (p.entriesWhere fun e => e.key.unit == a) = S at *
  have hteS : S.te = p.te := by rw [hedit.part]
  have hboardS : S.board = p.board := by rw [hedit.part]
  have humS : S.um = p.um := by rw [hedit.part]
  have hjwS : S.jw = p.jw := by rw [hedit.part]
  have hclockS : S.run.clock = p.run.clock := by rw [hedit.calm.run]
  have hbaseS : S.base = p.base := hedit.works.toWorks.base
  have hheldS : ∀ m, S.heldOf m = p.heldOf m := fun m => by rw [Part.heldOf, hboardS, Part.heldOf]
  have hlist : S.dismissable a = S.te.pool.filter (Transaction.dismissed a) := S.dismissable_eq a
  obtain ⟨hends, hte⟩ := Part.finishWhere_ends (p := S) (f := Transaction.dismissed a) (o := .dismissed) (by rw [hteS]; exact hnodup)
  have hroomF := fun k (h : S.RoomLeft (4 * (S.te.pool.filter (Transaction.dismissed a)).length + k)) => Part.RoomLeft.finishAll h .dismissed
  have htakenF := fun h : S.NoTaken => h.finishAll (S.te.pool.filter (Transaction.dismissed a)) .dismissed
  have hdismiss : S.dismissTransactions a = (S.finishAll (S.te.pool.filter (Transaction.dismissed a)) .dismissed).updateUnit a FieldUnit.unreserved := by
    unfold Part.dismissTransactions
    rw [hlist]
    rfl
  generalize S.finishAll (S.te.pool.filter (Transaction.dismissed a)) .dismissed = Q at *
  have hslotQ : ∀ b, Q.unitSlot b = p.unitSlot b := fun b => by rw [Part.unitSlot, hends.um, humS]; rfl
  have hunit : Q.unitAt a = some v := by rw [Part.unitAt, hslotQ]; exact hv
  have hput : S.dismissTransactions a = Q.putUnit a (some v.unreserved) false := by
    rw [hdismiss]
    unfold Part.updateUnit
    rw [hunit]
  obtain ⟨hb, ht, hd, hj, hwait⟩ := Q.putUnit_frame a (some v.unreserved) false
  have hputServes := Q.putUnit_serves a (some v.unreserved) false
  have hputCalm := Q.putUnit_calm a (some v.unreserved) false
  have hslot := fun b => Part.putUnit_slot a (some v.unreserved) false Q ha b
  have hbit : unitBitChange (Q.unitAt a) (some v.unreserved) = false := by
    rw [hunit]
    simp [unitBitChange, FieldUnit.unreserved]
  have hsvcP := (Q.putUnit_svc a (some v.unreserved) false)
  have hqueueP := Part.putUnit_nobit ha hbit false
  have hwrites : Q.unitWrites a (some v.unreserved) false = [] := by
    unfold Part.unitWrites
    rw [hunit]
    exact if_neg (by simp [show unitBody (some v.unreserved) = unitBody (some v) from rfl])
  have hroomP : ∀ k, Q.RoomLeft k → (Q.putUnit a (some v.unreserved) false).RoomLeft k := fun k h => by
    obtain ⟨w, hw⟩ := Part.putUnit_raise ha (some v.unreserved) false Q
    rw [hwrites, hbit] at hw
    rw [hw]
    exact Part.RoomLeft.raise (p := { Q with um := { Q.um with slots := w } }) (l := []) (fun _ h => absurd h List.not_mem_nil) (h.of_eq.mono (by simp))
      .unitManager false .unit a
  have htakenP := fun h : Q.NoTaken => h.putUnit ha (some v.unreserved) false
  rw [hput]
  generalize Q.putUnit a (some v.unreserved) false = R at *
  have hserves := (hends.works.trans hputServes)
  have hdirR : R.dir = S.dir := hd.trans hends.dir
  have hslotR : ∀ i, R.entrySlot i = S.entrySlot i := fun i => by rw [Part.entrySlot, hdirR, Part.entrySlot]
  have hsvcR : R.svc = { Q.svc with bankQueue := R.svc.bankQueue } := hsvcP
  have hmem : ∀ x ∈ p.te.pool, x.dismissed a = true → x ∈ S.te.pool.filter (Transaction.dismissed a) := fun x hx h =>
    List.mem_filter.mpr ⟨by rw [hteS]; exact hx, h⟩
  refine ⟨hedit.works.trans hserves, hedit.calm.trans (hends.calm.trans hputCalm), ?jw, ?wait, ?svc, ?te, ?board, ?held, fun m hm => ?heldOf, fun b => ?slot,
    fun i e he hkey => ?entry, fun i hi => ?kept, fun hwaits x hx h ho => ?fails, fun hall => ?quiet, fun x hx h ho z hz => ?completes, fun k h => ?room,
    fun h => htakenP (htakenF (htakenE h))⟩
  case jw => rw [hj, hends.jw, hjwS]
  case wait => rw [hwait, hends.um, humS]
  case svc => rw [hsvcR, hends.svc, hedit.svc]
  case te => rw [ht, hte, hteS]
  case board =>
    rw [hb, hends.board, hboardS, hteS]
    rfl
  case held =>
    rw [hb, ← hboardS]
    exact hends.held
  case heldOf =>
    rw [Part.heldOf, hb]
    exact (hends.heldOf m fun x hx => hm x (hteS ▸ List.mem_of_mem_filter hx)).trans (hheldS m)
  case slot =>
    rw [hslot, hunit, hslotQ, hslotQ]
    by_cases hba : b = a
    · rw [if_pos hba, if_pos hba]
      simp [show unitBody (some v.unreserved) = unitBody (some v) from rfl]
    · rw [if_neg hba, if_neg hba]
  case entry =>
    have hi : i ∈ p.entriesWhere fun e => e.key.unit == a := Part.mem_entriesWhere.mpr ⟨Part.entryAt_lt he, e, he, by simpa using hkey⟩
    have hone : (p.editWrites retireEdit i).Sublist ((p.entriesWhere fun e => e.key.unit == a).flatMap fun n => p.editWrites retireEdit n) :=
      List.sublist_flatten_of_mem (List.mem_map_of_mem hi)
    rw [Part.editWrites_some he] at hone
    refine ⟨(hslotR i).trans (hedit.slot i hi e he), ?_, fun hnotify => (hedit.bit i hi e he ?_).works hserves.toWorks⟩
    · exact (hone.trans ((List.sublist_append_right _ _).trans (hedit.shows.trans (S.port.ofBlock_outstanding _)))).trans hserves.port.outstanding
    · exact bne_iff_ne.mpr hnotify
  case kept =>
    rw [hslotR]
    refine hedit.kept i (.inl fun hin => ?_)
    obtain ⟨-, e, he, hkey⟩ := Part.mem_entriesWhere.mp hin
    exact hi e he (by simpa using hkey)
  case fails =>
    obtain ⟨index, seq, hlog⟩ := hends.logs (by decide) (hedit.works.port.engine hwaits) x (hmem x hx h) ho
    rw [hbaseS, hclockS] at hlog
    exact ⟨index, seq, hlog.trans hputServes.port.outstanding⟩
  case quiet =>
    have hQ := hends.quiet fun x hx => hall x (hteS ▸ List.mem_of_mem_filter hx) (List.of_mem_filter hx)
    rw [hsvcR, hQ, hedit.svc]
    exact ⟨rfl, rfl⟩
  case completes =>
    have hshows := hends.shows x (hmem x hx h) ho z ((hheldS _).trans hz)
    rw [hclockS] at hshows
    exact (hshows.after hputServes.toWorks).before hedit.works.toWorks
  case room =>
    refine hroomP k (hroomF k (hroomE _ (h.mono ?_)))
    rw [hteS]
    omega

/-- R45, R134: the counts of a DISMISS. -/
def dismissResult (retired ended : Nat) : Result := { outcome := .ok, fields := [byteOf retired, byteOf ended] }

/-- R44, R45: the DISMISS from its notices on. -/
theorem Part.dismissUnit_eq (seq a : Nat) (p : Part) {retired ended : Nat} (hr : (p.entriesWhere fun e => e.key.unit == a).length = retired)
    (he : (p.te.pool.filter (Transaction.dismissed a)).length = ended) : p.dismissUnit seq a =
    if p.turnWith a then { p.dismissNotices a with um := { (p.dismissNotices a).um with dismissWait := some ⟨seq, a, retired, ended⟩ } }
    else ((p.dismissNotices a).putUnit a none false).onceFree (.dismissed seq (dismissResult retired ended))
      (Part.completeRequest seq (dismissResult retired ended)) := by
  have hlt : ∀ i ∈ p.entriesWhere (fun e => e.key.unit == a), i < 192 := fun i hi => (Part.mem_entriesWhere.mp hi).1
  have hended : ((p.retireUnit a).dismissable a).length = ended := by
    rw [Part.dismissable_eq, Part.retireUnit_eq, (Part.editEach_edited (p.entriesWhere_nodup _) hlt p).part]
    exact he
  subst hr hended
  rfl

end Sys2Proof.Machine
end

section
/-! SUPPORT. The row of a DISMISS (R20, R44, R45, R98, R106, R117, R134). -/

namespace Sys2Proof.Machine

/-! ## What a row makes of the part its block leaves -/

/-- The row leaves of `X` all that the blocks' own state shows, and adds to what is outstanding and on its way. -/
structure State.RowOf (s t : State) (X : Part) : Prop where
  pending : t.pending = s.pending
  mem : t.mem = s.mem
  run : t.part.run = X.run
  line : t.part.line = X.line
  um : t.part.um = X.um
  dir : t.part.dir = X.dir
  jw : t.part.jw = X.jw
  svc : t.part.svc = X.svc
  pool : t.part.te.pool = X.te.pool
  works : X.Works t.part

/-- R120: where nobody waits for a predecessor, the take's finishes are resolved and the sweep goes on. -/
theorem State.takeRow_nobody {s : State} {n : Nat} {slot : List Byte} {k : ReqKind} {Y : Part} (hT : s.TakesSlot n slot k)
    (hY : Part.take n (slot.take 64) { s.part with port := {} } = Y) (hrun : Y.run = s.part.run) (hl : Y.port.later = []) (hw : ∀ m, ¬ Y.Waits m) :
    ∃ t : State, exec (takeCommand slot (some k)) s = .next t ∧ s.RowOf t Y ∧ ∀ h, Y.HoldsOn h → h ∈ t.part.board.held := by
  obtain ⟨hr, _⟩ := id hT
  have hYr : Y.run.partState = .running := by rw [hrun]; exact hr
  have hrel := Part.resolve_releases hl hw
  have hsettle : (Part.take n (slot.take 64) { s.part with port := {} }).settle = Y.resolve := by
    rw [hY]
    exact Part.settle_eq_resolve (.inl hYr)
  obtain ⟨x, w, h1, h2, h3, h4⟩ := Part.takeStep_rests hsettle (by rw [hrel.run]; exact hYr) fun h => Part.resolve_finishes Y h
  rw [h1] at h4
  refine ⟨_, hT.exec_eq, ?_, fun h g => ?_⟩
  · rw [h1]
    have hpool : Y.resolve.te.pool = Y.te.pool := by rw [hrel.te]
    exact ⟨rfl, rfl, hrel.run, hrel.line, hrel.um, hrel.dir, hrel.jw, hrel.svc, hpool, Y.resolve_works.trans h4⟩
  · rw [h1]
    show h ∈ x.held
    rw [h2]
    exact (g.resolve hl hw).1

/-! ## The unit departs -/

theorem FieldUnit.depart_body (u : FieldUnit) : unitBody (some { u with link := .departing }) = unitBody (some u.depart) := rfl

theorem unitBody_ne_of_link {u v : FieldUnit} (h : u.link ≠ v.link) : unitBody (some u) ≠ unitBody (some v) := fun e => by
  have hcode : u.link.code = v.link.code := congrArg (fun l : List Byte => byteAt l 0) e
  have hinj : ∀ x y : LinkState, x.code = y.code → x = y := by
    intro x y
    cases x <;> cases y <;> decide
  exact h (hinj _ _ hcode)

/-- R44: what DISMISS makes of the part before the notices go out. -/
structure State.Departs (s : State) (n : Nat) (slot : List Byte) (a : Nat) (u : FieldUnit) (Q : Part) : Prop where
  works : (s.handed n slot .dismiss none).Serves Q
  calm : (s.handed n slot .dismiss none).Calm Q
  part : Q = { s.handed n slot .dismiss none with um := Q.um, svc := Q.svc, port := Q.port }
  dismissWait : Q.um.dismissWait = s.part.um.dismissWait
  svc : Q.svc = { s.part.svc with bankQueue := s.part.svc.bankQueue ++ [.update s.part.svc.activeBank .unit a] }
  port : Q.port = { fifo := mirrorWrites (unitMirrorAddr s.part.base a) (s.part.unitSlot a).version (unitBody (some u.depart)) ++
    s.part.bankBitRead .unit a }
  slot : ∀ b, Q.unitSlot b = if b = a then { version := (s.part.unitSlot a).version + 2, place := some u.depart } else s.part.unitSlot b
  room : Q.RoomLeft 29
  noTaken : Q.NoTaken

theorem State.departs {s : State} (n : Nat) (slot : List Byte) {a : Nat} {u : FieldUnit} (ha : 1 ≤ a ∧ a ≤ 30) (hu : s.part.unitAt a = some u)
    (hl : u.link ≠ .departing) : s.Departs n slot a u ((s.handed n slot .dismiss none).putUnit a (some u.depart) false) := by
  let H : Part := s.handed n slot .dismiss none
  have hunit : H.unitAt a = some u := hu
  have hbody : unitBody (some u) ≠ unitBody (some u.depart) := unitBody_ne_of_link hl
  have hbit : unitBitChange (H.unitAt a) (some u.depart) = true := by
    rw [hunit]
    have hlink : (u.link != u.depart.link) = true := bne_iff_ne.mpr hl
    unfold unitBitChange
    dsimp only
    rw [hlink]
    rfl
  have hwrites : H.unitWrites a (some u.depart) false =
      mirrorWrites (unitMirrorAddr s.part.base a) (s.part.unitSlot a).version (unitBody (some u.depart)) := by
    unfold Part.unitWrites
    rw [hunit]
    exact if_pos (by simpa using hbody)
  have hroom : H.RoomLeft 32 := by
    refine ⟨rfl, le_refl 32, ?_⟩
    show 0 + _ ≤ 8
    split <;> omega
  have hputRoom : (H.putUnit a (some u.depart) false).RoomLeft 29 := Part.RoomLeft.putUnit hroom ha (some u.depart) false
  have htaken : H.NoTaken := fun x hx => absurd hx List.not_mem_nil
  have hr := Part.putUnit_rewrites (p := H) rfl ha (some u.depart) false
  rw [hwrites, hbit] at hr
  obtain ⟨b1, b2⟩ := H.bankBitRead_counts .unit a
  have hfits : H.port.Fits (mirrorWrites (unitMirrorAddr s.part.base a) (s.part.unitSlot a).version (unitBody (some u.depart)) ++ H.bankBitRead .unit a) := by
    refine WindowPort.fits_empty ?_
    rw [List.length_append]
    have h1 := H.bankBitRead_length .unit a
    have h2 : (mirrorWrites (unitMirrorAddr s.part.base a) (s.part.unitSlot a).version (unitBody (some u.depart))).length = 3 := rfl
    omega
  obtain ⟨hport, hqueue⟩ := hr.fits hfits
  refine ⟨H.putUnit_serves _ _ _, H.putUnit_calm _ _ _, H.putUnit_eq _ _ _, (H.putUnit_frame _ _ _).2.2.2.2, ?_, hport, fun b => ?_, hputRoom,
    htaken.putUnit ha _ _⟩
  · rw [H.putUnit_svc, hqueue]
    rfl
  · rw [Part.putUnit_slot _ _ _ _ ha, hunit]
    by_cases hb : b = a
    · rw [if_pos hb, if_pos hb]
      have hchanged : (false || unitBody (some u) != unitBody (some u.depart)) = true := by simpa using hbody
      rw [hchanged]
      rfl
    · rw [if_neg hb, if_neg hb]
      rfl

/-! ## What every DISMISS leaves -/

/-- What the notices and the row behind them leave, whether the unit is removed or not: `X` stands behind the notices of `Q`. -/
structure State.Dismisses (s t : State) (a : Nat) (u : FieldUnit) (Q N X : Part) : Prop where
  row : s.RowOf t X
  noticed : Q.DismissNoticed N a u.depart
  works : N.Works X
  run : X.run = N.run
  line : X.line = N.line
  jw : X.jw = N.jw
  dir : X.dir = N.dir
  te : X.te = N.te
  others : ∀ b, b ≠ a → X.unitSlot b = N.unitSlot b
  svc : X.svc = { N.svc with bankQueue := X.svc.bankQueue }

section Facts

variable {s t : State} {n a : Nat} {slot : List Byte} {u : FieldUnit} {Q N X : Part}

theorem State.Departs.same (h : s.Departs n slot a u Q) : Q.run = s.part.run ∧ Q.line = s.part.line ∧ Q.jw = s.part.jw ∧ Q.dir = s.part.dir ∧
    Q.te = s.part.te ∧ Q.board = (s.handed n slot .dismiss none).board := by
  rw [h.part]
  exact ⟨rfl, rfl, rfl, rfl, rfl, rfl⟩

theorem State.Departs.base (h : s.Departs n slot a u Q) : Q.base = s.part.base := by rw [Part.base, h.same.1, Part.base]

theorem State.Departs.entrySlot (h : s.Departs n slot a u Q) (i : Nat) : Q.entrySlot i = s.part.entrySlot i := by
  rw [Part.entrySlot, h.same.2.2.2.1, Part.entrySlot]

theorem State.Departs.entryAt (h : s.Departs n slot a u Q) (i : Nat) : Q.entryAt i = s.part.entryAt i := by
  rw [Part.entryAt, h.entrySlot, Part.entryAt]

theorem State.Departs.entries (h : s.Departs n slot a u Q) (i : Nat) :
    Q.slotWith i none = s.part.slotWith i none ∧ Q.entryWrites i none = s.part.entryWrites i none := by
  unfold Part.slotWith Part.entryWrites Part.shownWith
  rw [h.entrySlot, h.entryAt, h.base]
  exact ⟨rfl, rfl⟩

/-- A request of `s` other than the one taken is held as before. -/
theorem State.Departs.heldOf (h : s.Departs n slot a u Q) {m : Nat} {z : HeldRequest} (hz : s.part.heldOf m = some z) : Q.heldOf m = some z := by
  rw [Part.heldOf, h.same.2.2.2.2.2]
  show List.find? _ (s.part.board.held ++ _) = some z
  have hz' : s.part.board.held.find? (fun y => y.seq == m) = some z := hz
  rw [List.find?_append, hz']
  rfl

theorem State.Dismisses.entrySlot (h : s.Dismisses t a u Q N X) (i : Nat) : t.part.entrySlot i = N.entrySlot i := by
  rw [Part.entrySlot, h.row.dir, h.dir, Part.entrySlot]

theorem State.Dismisses.unitSlot (h : s.Dismisses t a u Q N X) (b : Nat) : t.part.unitSlot b = X.unitSlot b := by
  rw [Part.unitSlot, h.row.um, Part.unitSlot]

theorem State.Dismisses.shown (h : s.Dismisses t a u Q N X) : N.Works t.part := h.works.trans h.row.works

/-- R20: the retired entries. -/
theorem State.Dismisses.entries (h : s.Dismisses t a u Q N X) (hQ : s.Departs n slot a u Q) :
    (∀ (i : Nat) (e : Entry), s.part.entryAt i = some e → t.part.entryAt i = if e.key.unit = a then none else some e) ∧
    (∀ i : Nat, s.part.entryAt i = none → t.part.entryAt i = none) ∧
    (∀ i : Nat, (∀ e, s.part.entryAt i = some e → e.key.unit ≠ a) → t.part.entrySlot i = s.part.entrySlot i) := by
  have hkept : ∀ i : Nat, (∀ e, s.part.entryAt i = some e → e.key.unit ≠ a) → t.part.entrySlot i = s.part.entrySlot i := fun i hi => by
    rw [h.entrySlot, h.noticed.kept i fun e he => hi e ((hQ.entryAt i).symm.trans he), hQ.entrySlot]
  refine ⟨fun i e he => ?_, fun i hi => ?_, hkept⟩
  · by_cases hkey : e.key.unit = a
    · have hslot := (h.noticed.entry i e ((hQ.entryAt i).trans he) hkey).1
      rw [if_pos hkey, Part.entryAt, h.entrySlot, hslot]
      rfl
    · rw [if_neg hkey, Part.entryAt, hkept i fun e' he' => ?_]
      · exact he
      · obtain rfl := Option.some.inj (he.symm.trans he')
        exact hkey
  · rw [Part.entryAt, hkept i fun e he => absurd (hi.symm.trans he) (by simp)]
    exact hi

/-- R40, R13: the unit's mirror and bank bit come first, those of the entries behind. -/
theorem State.Dismisses.bits (h : s.Dismisses t a u Q N X) (hQ : s.Departs n slot a u Q) : ∃ more : List BankItem,
    mirrorWrites (unitMirrorAddr s.part.base a) (s.part.unitSlot a).version (unitBody (some { u with link := .departing })) ++
      s.part.bankBitRead .unit a <+: t.part.port.fifo ∧
    t.part.svc.bankQueue = s.part.svc.bankQueue ++ .update s.part.svc.activeBank .unit a :: more ∧
    (∀ (i : Nat) (e : Entry), s.part.entryAt i = some e → e.key.unit = a → s.RewritesEntry t i none ∧
      (e.policies.notify ≠ .never → t.BitAmong more s.part.svc.activeBank .directoryEngine .directory i)) ∧
    (N.BitOn t.part .unitManager .unit a → t.BitAmong more s.part.svc.activeBank .unitManager .unit a) := by
  have hworks : Q.Works t.part := h.noticed.works.toWorks.trans h.shown
  obtain ⟨more, hmore⟩ := hworks.bankQueue
  have hbank : Q.svc.activeBank = s.part.svc.activeBank := by rw [hQ.svc]
  have hfirst := hworks.port.fifo
  rw [hQ.port] at hfirst
  have hamong : ∀ {b : Block} {m : MapKind} {i : Nat}, Q.BitOn t.part b m i → t.BitAmong more s.part.svc.activeBank b m i := fun ⟨more', e, hbit⟩ => by
    obtain rfl := List.append_cancel_left (hmore.trans e)
    rw [hbank] at hbit
    exact hbit
  refine ⟨more, hfirst, ?_, fun i e he hkey => ?_, fun hbit => hamong (hbit.after h.noticed.works.toWorks)⟩
  · rw [← hmore, hQ.svc]
    dsimp only
    rw [List.append_assoc]
    rfl
  · obtain ⟨h1, h2, h3⟩ := h.noticed.entry i e ((hQ.entryAt i).trans he) hkey
    rw [(hQ.entries i).1] at h1
    rw [(hQ.entries i).2] at h2
    exact ⟨State.rewritesEntry_of ((h.entrySlot i).trans h1) (h2.trans h.shown.port.outstanding), fun hn => hamong ((h3 hn).works h.shown)⟩

theorem Transaction.dismissed_iff {x : Transaction} : x.dismissed a = true ↔ x.unit = a ∧ x.state ≠ .sending := by
  unfold Transaction.dismissed
  simp

/-- R98, R106: the transactions that the notice ends. -/
theorem State.Dismisses.transactions (h : s.Dismisses t a u Q N X) (hQ : s.Departs n slot a u Q) :
    t.part.te.pool = s.part.te.pool.filter (fun x => !(x.unit == a && x.state != .sending)) ∧
    (∀ x ∈ s.part.te.pool, x.unit = a → x.state ≠ .sending → x.origin = none → s.FailsLate t x .dismissed []) ∧
    ((∀ x ∈ s.part.te.pool, x.unit = a → x.state ≠ .sending → x.origin ≠ none) → s.LogsNothing t) ∧
    (∀ x : Transaction, s.part.findTxn x.seq = some x → x.unit = a → x.state ≠ .sending → x.origin.isSome = true →
      s.Completes t x.seq (x.result { outcome := .dismissed })) := by
  obtain ⟨hrun, -, -, -, hte, hboard⟩ := hQ.same
  refine ⟨?_, fun x hx h1 h2 ho => ?_, fun hall => ?_, fun x hx h1 h2 ho => ?_⟩
  · rw [h.row.pool, h.te, h.noticed.te, hte]
    rfl
  · have hwaits : Q.port.waits .transactionEngine = false := by
      rw [hQ.port]
      rfl
    obtain ⟨index, seq, hlog⟩ := h.noticed.fails hwaits x (by rw [hte]; exact hx) (Transaction.dismissed_iff.mpr ⟨h1, h2⟩) ho
    rw [hQ.base, hrun] at hlog
    exact ⟨index, seq, hlog.trans h.shown.port.outstanding⟩
  · obtain ⟨q1, q2⟩ := h.noticed.quiet fun x hx hd => by
      obtain ⟨h1, h2⟩ := Transaction.dismissed_iff.mp hd
      exact Option.isSome_iff_ne_none.mpr (hall x (hte ▸ hx) h1 h2)
    refine ⟨?_, ?_⟩
    · rw [h.row.svc, h.svc]
      dsimp only
      rw [q1, hQ.svc]
    · rw [h.row.svc, h.svc]
      dsimp only
      rw [q2, hQ.svc]
  · refine Part.Shows.completes (p := Q) (q := N) (h.noticed.works.toWorks.trans h.shown) (by rw [hboard]; rfl) hQ.base (by rw [hrun]) h.shown fun z hz => ?_
    exact h.noticed.completes x (by rw [hte]; exact (Part.findTxn_mem hx).1) (Transaction.dismissed_iff.mpr ⟨h1, h2⟩) ho z (hQ.heldOf hz)

end Facts

end Sys2Proof.Machine
end

section
/-! SUPPORT. DISMISS (R20, R40, R44, R45, R98, R106, R117, R134, R149). -/

namespace Sys2Proof.Machine

section Dismiss

variable {s : State} {n a : Nat} {slot : List Byte} {u : FieldUnit} {Q N : Part} {retired ended : Nat}

/-- The record of the DISMISS stands as the hand-over made it, while its notices are taken. -/
theorem Part.DismissNoticed.recordHeld (hN : Q.DismissNoticed N a u.depart) (hQ : s.Departs n slot a u Q) (hbelow : s.SequencesBelow) :
    N.heldOf s.part.board.nextSeq = some (s.recordInTake n slot .dismiss none) := by
  rw [hN.heldOf _ fun x hx e => ?_]
  · rw [Part.heldOf, hQ.same.2.2.2.2.2]
    exact State.heldOf_handed_self hbelow n slot .dismiss none
  · rw [hQ.same.2.2.2.2.1] at hx
    have hnone := (Part.Below.ne hbelow).2.2.2
    unfold Part.findTxn at hnone
    exact List.find?_eq_none.mp hnone x hx (by simpa using e)

/-- Nobody waits for a predecessor behind the notices either. -/
theorem Part.DismissNoticed.noneWaits (hN : Q.DismissNoticed N a u.depart) (hQ : s.Departs n slot a u Q) (hnone : s.NoneWaits) : ∀ m, ¬ N.Waits m :=
  fun m hm => hnone m (State.handed_waits (n := n) (slot := slot) (k := .dismiss) (hQ.calm.waits m (hN.calm.waits m hm)))

theorem State.Departs.turnWith (hQ : s.Departs n slot a u Q) : Q.turnWith a = true ↔ ∃ x, s.part.line.turn = some x ∧ x.unit = a := by
  unfold Part.turnWith
  rw [hQ.same.2.1]
  cases s.part.line.turn with
  | none => simp
  | some x => simp

/-- R44: the DISMISS of a unit of which no turn is in progress: the unit is removed. -/
theorem State.dismiss_removes (hT : s.TakesSlot n slot .dismiss) (hA : s.Accepts slot) (hN0 : s.NoPredecessor (slot.take 64)) (hnone : s.NoneWaits)
    (ha : 1 ≤ a ∧ a ≤ 30) (hQ : s.Departs n slot a u Q) (hN : Q.DismissNoticed N a u.depart)
    (hroomy : 3 * retired + 4 * ended ≤ 24 → N.RoomLeft 3)
    (hdo : (s.handed n slot .dismiss none).handOver .dismiss s.part.board.nextSeq n (slot.take 64) none =
      (N.putUnit a none false).onceFree (.dismissed s.part.board.nextSeq (dismissResult retired ended))
        (Part.completeRequest s.part.board.nextSeq (dismissResult retired ended)))
    (hno : Q.turnWith a = false) (hunit : a = Req.unit (slot.take 64)) :
    ∃ t : State, exec (.dismiss slot) s = .next t ∧ s.Dismisses t a u Q N (N.putUnit a none false) ∧
      (s.CompletesSlot t (s.takeCompletion n slot (dismissResult retired ended)) ∨
        s.TakeWaits t n slot .unitManager ∧
        t.part.port.later = [.dismissed s.part.board.nextSeq (dismissResult retired ended), .sweepOn]) ∧
      (3 * retired + 4 * ended ≤ 24 → s.CompletesSlot t (s.takeCompletion n slot (dismissResult retired ended))) := by
  obtain ⟨hr, _, hbelow, _, _, _, _, hk, _⟩ := id hT
  obtain ⟨hb, ht, hd, hj, hwait⟩ := N.putUnit_frame a none false
  have hXserves := N.putUnit_serves a none false
  have hXcalm := N.putUnit_calm a none false
  have hXsvc := N.putUnit_svc a none false
  have hXslot : ∀ b, b ≠ a → (N.putUnit a none false).unitSlot b = N.unitSlot b := fun b hne => by rw [Part.putUnit_slot _ _ _ _ ha, if_neg hne]
  have hXroom : 3 * retired + 4 * ended ≤ 24 → (N.putUnit a none false).port.waiting = [] := fun h => (Part.RoomLeft.putUnit (k := 0) (hroomy h) ha none false).1
  have hXtaken := fun h : N.NoTaken => h.putUnit ha none false
  have hcore : ∀ t : State, s.RowOf t (N.putUnit a none false) → s.Dismisses t a u Q N (N.putUnit a none false) := fun t hrow =>
    ⟨hrow, hN, hXserves.toWorks, hXcalm.run, hXcalm.line, hj, hd, ht, hXslot, hXsvc⟩
  generalize N.putUnit a none false = X at *
  have hXrun : X.run = s.part.run := hXcalm.run.trans (hN.calm.run.trans hQ.calm.run)
  have hXlater : X.port.later = [] := hXcalm.later.trans (hN.calm.later.trans hQ.calm.later)
  have hXheld : X.heldOf s.part.board.nextSeq = some (s.recordInTake n slot .dismiss none) := by
    rw [Part.heldOf, hb]
    exact hN.recordHeld hQ hbelow
  have htake := State.take_handed (n := n) hA hk (hA.inRange hT) hN0
  by_cases hfree : X.port.free = true
  · rw [Part.onceFree_eq hfree] at hdo
    have hYcalm := X.completeRequest_calm s.part.board.nextSeq (dismissResult retired ended)
    have hYrel := X.completeRequest_releases s.part.board.nextSeq (dismissResult retired ended)
    have hYworks := (X.completeRequest_serves s.part.board.nextSeq (dismissResult retired ended)).toWorks
    have hYte := (X.completeRequest_owners s.part.board.nextSeq (dismissResult retired ended)).2.1
    have hYshows := Part.completeRequest_shows (r := dismissResult retired ended) hXheld
    rw [if_neg (by simp), hdo, Part.answerTake_completed (Part.heldOf_completeRequest_self _ _ _)] at htake
    generalize X.completeRequest s.part.board.nextSeq (dismissResult retired ended) = Y at *
    obtain ⟨t, hexec, hrow, -⟩ := State.takeRow_nobody hT htake (hYcalm.run.trans hXrun) (hYcalm.later.trans hXlater) fun m hm =>
      hN.noneWaits hQ hnone m (hXcalm.waits m (hYcalm.waits m hm))
    have hrowX : s.RowOf t X := ⟨hrow.pending, hrow.mem, hrow.run.trans hYrel.run, hrow.line.trans hYrel.line, hrow.um.trans hYrel.um, hrow.dir.trans hYrel.dir,
      hrow.jw.trans hYrel.jw, hrow.svc.trans hYrel.svc, hrow.pool.trans (by rw [hYte]), hYworks.trans hrow.works⟩
    have hbefore : (s.handed n slot .dismiss none).Works X := hQ.works.toWorks.trans (hN.works.toWorks.trans hXserves.toWorks)
    have hcompletes : s.CompletesSlot t (s.takeCompletion n slot (dismissResult retired ended)) := by
      have hshows := (hYshows.after hrow.works).before hbefore
      have hcompletion : (s.recordInTake n slot .dismiss none).completion (dismissResult retired ended) X.run.clock =
          s.takeCompletion n slot (dismissResult retired ended) := by
        simp [HeldRequest.completion, State.recordInTake, State.recordOf, State.takeCompletion, hXrun]
      rw [hcompletion] at hshows
      exact hshows.completesSlot (hbefore.trans hrowX.works) rfl rfl
    exact ⟨t, hexec, hcore t hrowX, .inl hcompletes, fun _ => hcompletes⟩
  · have hput : X.onceFree (.dismissed s.part.board.nextSeq (dismissResult retired ended))
        (Part.completeRequest s.part.board.nextSeq (dismissResult retired ended)) =
        { X with port := { X.port with later := [.dismissed s.part.board.nextSeq (dismissResult retired ended)] } } := by
      have h : X.onceFree (.dismissed s.part.board.nextSeq (dismissResult retired ended))
          (Part.completeRequest s.part.board.nextSeq (dismissResult retired ended)) =
          { X with port := { X.port with later := X.port.later ++ [.dismissed s.part.board.nextSeq (dismissResult retired ended)] } } := if_neg hfree
      rw [h, hXlater]
      rfl
    have hwaiting : X.port.waiting ≠ [] := fun h => hfree (WindowPort.free_iff.mpr ⟨h, hXlater⟩)
    have hkind : Req.kind (slot.take 64) = some .dismiss := by rw [Req.kind_take]; exact hk
    have hexec := State.takeRow_waits (q := { X with port := { X.port with later := [.dismissed s.part.board.nextSeq (dismissResult retired ended)] } })
      hT hA hN0 (hdo.trans hput) hXrun hXheld (by
        unfold Part.keepsInHand
        rw [show (s.recordInTake n slot .dismiss none).req = slot.take 64 from rfl, hkind, ← hunit]
        have hturn : ({ X with port := { X.port with later := [.dismissed s.part.board.nextSeq (dismissResult retired ended)] } } : Part).turnWith a =
            Q.turnWith a := by
          unfold Part.turnWith
          rw [show ({ X with port := { X.port with later := [.dismissed s.part.board.nextSeq (dismissResult retired ended)] } } : Part).line = Q.line from
            hXcalm.line.trans hN.calm.line]
        dsimp only
        rw [hturn, hno]
        rfl) hwaiting
    have hgrows : X.Works { X with port := { X.port with
        later := [.dismissed s.part.board.nextSeq (dismissResult retired ended)] ++ [.sweepOn] } } := (X.setLater_carries _).toWorks
    refine ⟨_, hexec, hcore _ ⟨rfl, rfl, rfl, rfl, rfl, rfl, rfl, rfl, rfl, hgrows⟩, .inr ⟨⟨hwaiting, ?_, fun report hmem => ?_, ?_, rfl⟩, rfl⟩,
      fun h => absurd (hXroom h) hwaiting⟩
    · exact List.mem_of_find?_eq_some hXheld
    · exact hXtaken (hN.noTaken hQ.noTaken) _ hmem ⟨_, _, rfl⟩
    · show X.board.sweep = _
      rw [hb, hN.board, hQ.same.2.2.2.2.2]
      rfl

/-- R45: the DISMISS of a unit of which a turn is in progress: it waits for the turn's end. -/
theorem State.dismiss_waits (hT : s.TakesSlot n slot .dismiss) (hA : s.Accepts slot) (hN0 : s.NoPredecessor (slot.take 64)) (hnone : s.NoneWaits)
    (hQ : s.Departs n slot a u Q) (hN : Q.DismissNoticed N a u.depart)
    (hdo : (s.handed n slot .dismiss none).handOver .dismiss s.part.board.nextSeq n (slot.take 64) none =
      { N with um := { N.um with dismissWait := some ⟨s.part.board.nextSeq, a, retired, ended⟩ } })
    (hturn : Q.turnWith a = true) (hunit : a = Req.unit (slot.take 64)) :
    ∃ t : State, exec (.dismiss slot) s = .next t ∧
      s.Dismisses t a u Q N { N with um := { N.um with dismissWait := some ⟨s.part.board.nextSeq, a, retired, ended⟩ } } ∧
      s.recordOf n slot .unitManager none ∈ t.part.board.held ∧
      Access.write (stateByteAddr s.part.base n) [stateTaken] .silent ∈ t.part.port.outstanding := by
  obtain ⟨hr, _, hbelow, _, _, _, _, hk, _⟩ := id hT
  let X : Part := { N with um := { N.um with dismissWait := some ⟨s.part.board.nextSeq, a, retired, ended⟩ } }
  have hNX : N.Works X := (N.setUnits_serves _).toWorks
  have hXheld : X.heldOf s.part.board.nextSeq = some (s.recordInTake n slot .dismiss none) := hN.recordHeld hQ hbelow
  have hXrun : X.run = s.part.run := hN.calm.run.trans hQ.calm.run
  have hXlater : X.port.later = [] := hN.calm.later.trans hQ.calm.later
  have hkind : Req.kind (slot.take 64) = some .dismiss := by rw [Req.kind_take]; exact hk
  have hkeeps : X.keepsInHand (s.recordInTake n slot .dismiss none) = true := by
    unfold Part.keepsInHand
    rw [show (s.recordInTake n slot .dismiss none).req = slot.take 64 from rfl, hkind, ← hunit]
    have hX : X.turnWith a = true := by
      unfold Part.turnWith at hturn ⊢
      rw [show X.line = Q.line from hN.calm.line]
      exact hturn
    dsimp only
    rw [hX]
    exact beq_self_eq_true _
  have htake := State.take_handed (n := n) hA hk (hA.inRange hT) hN0
  have hanswer : X.answerTake s.part.board.nextSeq = (X.holdRecord s.part.board.nextSeq).writeTaken n := Part.answerTake_continues hXheld rfl hkeeps
  rw [if_neg (by simp), hdo, hanswer] at htake
  have hYcalm := X.answerTake_calm s.part.board.nextSeq
  have hYworks := (X.answerTake_serves s.part.board.nextSeq).toWorks
  rw [hanswer] at hYcalm hYworks
  have hbase : X.base = s.part.base := by rw [Part.base, hXrun, Part.base]
  have hXsyncs : X.te.syncs = s.part.te.syncs := by
    show N.te.syncs = _
    rw [hN.te, hQ.same.2.2.2.2.1]
  have hholds : ((X.holdRecord s.part.board.nextSeq).writeTaken n).HoldsOn (s.recordOf n slot .unitManager none) := by
    refine ⟨List.mem_map.mpr ⟨_, List.mem_of_find?_eq_some hXheld, ?_⟩, fun y hy e => ?_⟩
    · exact if_pos rfl
    · have hy' : y ∈ s.part.te.syncs := by rw [← hXsyncs]; exact hy
      exact absurd (hbelow _ (.inr (.inr (.inr (.inr (.inl ⟨y, hy', .inl e⟩)))))) (Nat.lt_irrefl _)
  have htaken : Access.write (stateByteAddr s.part.base n) [stateTaken] .silent ∈ ((X.holdRecord s.part.board.nextSeq).writeTaken n).port.outstanding := by
    rw [← hbase]
    exact (WindowPort.submit_sublist .boardController [Access.write (stateByteAddr X.base n) [stateTaken] .silent] X.port).subset List.mem_cons_self
  obtain ⟨t, hexec, hrow, hheld⟩ := State.takeRow_nobody hT htake (hYcalm.run.trans hXrun) (hYcalm.later.trans hXlater) fun m hm =>
    hN.noneWaits hQ hnone m (hYcalm.waits m hm)
  have hrowX : s.RowOf t X := ⟨hrow.pending, hrow.mem, hrow.run, hrow.line, hrow.um, hrow.dir, hrow.jw, hrow.svc, hrow.pool, hYworks.trans hrow.works⟩
  exact ⟨t, hexec, ⟨hrowX, hN, hNX, rfl, rfl, rfl, rfl, rfl, fun _ _ => rfl, rfl⟩, hheld _ hholds, hrow.works.port.outstanding.subset htaken⟩

end Dismiss

/-- Settles O34: the unit departs, the notices go out, and the unit is removed or its DISMISS waits. -/
theorem dismissRemovesTheUnitOrWaits : Obligations.DismissRemovesTheUnitOrWaits := by
  unfold Obligations.DismissRemovesTheUnitOrWaits
  intro s n a slot retired ended hT hA hN0 hnone hD hunit hretired hended
  obtain ⟨hr, _, hbelow, _, _, _, _, hk, _⟩ := id hT
  have ha : 1 ≤ a ∧ a ≤ 30 := hunit ▸ Req.unit_range (hA.inRange hT) (by decide)
  obtain ⟨u, hu, hl⟩ : ∃ u, s.part.unitAt a = some u ∧ u.link ≠ .departing := by
    rw [hunit]
    exact Part.checkUnit_eq_none_iff.mp (hA.checks hT (by simp)).1
  let H : Part := s.handed n slot .dismiss none
  have hQ := s.departs n slot ha hu hl
  obtain ⟨Q, hQdef⟩ : ∃ Q, H.putUnit a (some u.depart) false = Q := ⟨_, rfl⟩
  have hQ : s.Departs n slot a u Q := hQdef ▸ hQ
  have hQv : Q.unitAt a = some u.depart := by
    rw [Part.unitAt, hQ.slot, if_pos rfl]
  have hN := Part.dismissNotices_noticed ha hQv (by rw [hQ.same.2.2.2.2.1]; exact hD.1)
  have hretiredQ : (Q.entriesWhere fun e => e.key.unit == a).length = retired := by
    rw [hretired, Part.entriesWhere_congr hQ.entrySlot]
  have hendedQ : (Q.te.pool.filter (Transaction.dismissed a)).length = ended :=
    (congrArg (fun te => (te.pool.filter (Transaction.dismissed a)).length) hQ.same.2.2.2.2.1).trans hended.symm
  have hdo : H.handOver .dismiss s.part.board.nextSeq n (slot.take 64) none = Q.dismissUnit s.part.board.nextSeq a := by
    have hput : H.updateUnit a FieldUnit.depart = Q := by
      unfold Part.updateUnit
      rw [show H.unitAt a = some u from hu]
      exact hQdef
    show (H.updateUnit (Req.unit (slot.take 64)) FieldUnit.depart).onceFree _ (Part.dismissUnit s.part.board.nextSeq (Req.unit (slot.take 64))) = _
    rw [← hunit, hput]
    exact Part.onceFree_eq (WindowPort.free_iff.mpr (by rw [hQ.port]; exact ⟨rfl, rfl⟩)) _ _
  rw [Part.dismissUnit_eq _ _ _ hretiredQ hendedQ] at hdo
  have hroomy : 3 * retired + 4 * ended ≤ 24 → (Q.dismissNotices a).RoomLeft 3 := fun h => by
    refine hN.room 3 (hQ.room.mono ?_)
    rw [hretiredQ, hendedQ]
    omega
  generalize Q.dismissNotices a = N at *
  have hNslot : N.unitSlot a = { version := (s.part.unitSlot a).version + 2, place := some u.depart.unreserved } := by
    rw [hN.slot, if_pos rfl, hQ.slot, if_pos rfl]
  have hNunit : N.unitAt a = some u.depart.unreserved := by rw [Part.unitAt, hNslot]
  have hNothers : ∀ b, b ≠ a → N.unitSlot b = s.part.unitSlot b := fun b hb => by rw [hN.slot, if_neg hb, hQ.slot, if_neg hb]
  have hframe : ∀ {t : State} {X : Part}, s.Dismisses t a u Q N X → t.part.run = s.part.run ∧ t.part.line = s.part.line ∧ t.part.jw = s.part.jw ∧
      s.OtherUnits t a := fun h =>
    ⟨h.row.run.trans (h.run.trans (hN.calm.run.trans hQ.calm.run)), h.row.line.trans (h.line.trans (hN.calm.line.trans hQ.calm.line)),
      h.row.jw.trans (h.jw.trans (hN.jw.trans hQ.same.2.2.1)), fun b hb => (h.unitSlot b).trans ((h.others b hb).trans (hNothers b hb))⟩
  by_cases hturn : Q.turnWith a = true
  · obtain ⟨x, hx, hxa⟩ := hQ.turnWith.mp hturn
    have hnot : ¬ ∀ x, s.part.line.turn = some x → x.unit ≠ a := fun h => h x hx hxa
    rw [if_pos hturn] at hdo
    obtain ⟨t, hexec, h, hheld, htaken⟩ := State.dismiss_waits hT hA hN0 hnone hQ hN hdo hturn hunit
    obtain ⟨hrun, hline, hjw, hothers⟩ := hframe h
    obtain ⟨e1, e2, e3⟩ := h.entries hQ
    obtain ⟨more, m1, m2, m3, -⟩ := h.bits hQ
    obtain ⟨t1, t2, t3, t4⟩ := h.transactions hQ
    have hslot : t.part.unitSlot a = { version := (s.part.unitSlot a).version + 2, place := some u.depart.unreserved } := (h.unitSlot a).trans hNslot
    refine ⟨t, hexec, h.row.pending, h.row.mem, hrun, hline, hjw, hothers, e1, e2, e3, ⟨u, more, hu, m1, m2, m3, fun h' => absurd h' hnot⟩, t1, t2, t3, t4,
      fun h' => absurd h' hnot, fun _ _ _ => ⟨⟨u, hu, ?_⟩, ?_, ?_, hheld, htaken⟩⟩
    · rw [Part.unitAt, hslot]
      rfl
    · rw [hslot]
    · rw [h.row.um]
  · have hno : Q.turnWith a = false := by simpa using hturn
    have hnot : ∀ x, s.part.line.turn = some x → x.unit ≠ a := fun x hx hxa => hturn (hQ.turnWith.mpr ⟨x, hx, hxa⟩)
    rw [if_neg hturn] at hdo
    obtain ⟨t, hexec, h, hcases, hfits⟩ := State.dismiss_removes hT hA hN0 hnone ha hQ hN hroomy hdo hno hunit
    obtain ⟨hrun, hline, hjw, hothers⟩ := hframe h
    obtain ⟨e1, e2, e3⟩ := h.entries hQ
    obtain ⟨more, m1, m2, m3, m4⟩ := h.bits hQ
    obtain ⟨t1, t2, t3, t4⟩ := h.transactions hQ
    obtain ⟨hwrites, hbit, hempty⟩ := Part.emptied_facts ha hNunit rfl
    have hNbase : N.base = s.part.base := hN.works.toWorks.base.trans hQ.base
    rw [hNslot, hNbase] at hwrites
    have hmirror := (N.putUnit_mirror ha none false)
    rw [hwrites] at hmirror
    have hslot : t.part.unitSlot a = { version := (s.part.unitSlot a).version + 2 + 2, place := none } := by
      rw [h.unitSlot, hempty, if_pos rfl, hNslot]
    have hshown : (mirrorWrites (unitMirrorAddr s.part.base a) ((s.part.unitSlot a).version + 2) (unitBody none)).Sublist t.part.port.outstanding :=
      ((List.sublist_append_right _ _).trans (hmirror.trans (WindowPort.ofBlock_outstanding _ _))).trans h.row.works.port.outstanding
    refine ⟨t, hexec, h.row.pending, h.row.mem, hrun, hline, hjw, hothers, e1, e2, e3, ⟨u, more, hu, m1, m2, m3, fun _ => ⟨⟨hslot, hshown⟩, m4 ?_⟩⟩,
      t1, t2, t3, t4, fun _ => ⟨?_, ?_, hcases, hfits⟩, fun x hx hxa => absurd hxa (hnot x hx)⟩
    · exact (N.putUnit_bit ha hbit false).works h.row.works
    · rw [Part.unitAt, hslot]
    · rw [h.row.um, (N.putUnit_frame a none false).2.2.2.2, hN.dismissWait, hQ.dismissWait]

end Sys2Proof.Machine
end

section
/-! SUPPORT. The access at the front of the Window Port is performed (R174). -/

namespace Sys2Proof.Machine

/-! ## A request that is not held stays so -/

/-- No request with the take sequence `n` is held. -/
def Part.Unheld (n : Nat) (p : Part) : Prop := ∀ y ∈ p.board.held, y.seq ≠ n

theorem Part.Adopts.unheld {p q : Part} (h : p.Adopts q) {n : Nat} (hp : p.Unheld n) : q.Unheld n := fun y hy => by
  obtain ⟨x, hx, _, hs, _⟩ := h.held y hy
  exact hs ▸ hp x hx

theorem Part.doTransact_unheld {m : Nat} {p : Part} (hp : p.Unheld m) (n slot : Nat) (r : List Byte) (pred : Option Nat) :
    (p.doTransact n slot r pred).Unheld m := by
  unfold Part.doTransact
  dsimp only
  split
  · exact (Part.completeSlot_serves _ _ _).toAdopts.unheld (by exact hp)
  · exact hp

theorem Part.doLend_unheld {m : Nat} {p : Part} (hp : p.Unheld m) (n : Nat) (r : List Byte) : (p.doLend n r).Unheld m := by
  unfold Part.doLend
  dsimp only
  split
  · exact (Part.raise_serves (.inl ⟨rfl, rfl⟩) p).toAdopts.unheld hp
  · split <;> exact hp

theorem Part.handOver_unheld {m : Nat} {p : Part} (hp : p.Unheld m) (k : ReqKind) (n slot : Nat) (r : List Byte) (pred : Option Nat) :
    (p.handOver k n slot r pred).Unheld m := by
  by_cases ht : k = .transact
  · subst ht
    exact Part.doTransact_unheld hp n slot r pred
  · by_cases hl : k = .lend
    · subst hl
      exact Part.doLend_unheld hp n r
    · exact (Part.handOver_adopts ht hl n slot r pred p).unheld hp

theorem Part.resolveHeld_unheld {m : Nat} {p : Part} (hp : p.Unheld m) (h : HeldRequest) (b : Bool) : (p.resolveHeld h b).Unheld m := by
  unfold Part.resolveHeld
  split
  · split
    · exact hp
    · next k _ =>
      split
      · exact (p.completeRequest_serves _ _).toAdopts.unheld hp
      · exact Part.handOver_unheld ((p.passToOwner_serves _ k).toAdopts.unheld hp) _ _ _ _ _
  · exact (p.completeRequest_serves _ _).toAdopts.unheld hp

theorem Part.resolve_unheld {m : Nat} {p : Part} (hp : p.Unheld m) : p.resolve.Unheld m :=
  Part.resolve_induct (P := Part.Unheld m) (fun _ _ hs _ h => hs.toAdopts.unheld h) (fun _ h b _ _ hq => Part.resolveHeld_unheld hq h b) hp

/-- R120, R121, R172: settling holds no request that was not held. -/
theorem Part.settle_unheld {m : Nat} {p : Part} (hp : p.Unheld m) : p.settle.Unheld m := by
  unfold Part.settle Part.closeDrain
  split
  · exact Part.resolve_unheld ((Part.endDrain_serves _).toAdopts.unheld (Part.resolve_unheld hp))
  · exact Part.resolve_unheld hp

theorem Part.completeRequest_unheld (n : Nat) (r : Result) (p : Part) : (p.completeRequest n r).Unheld n := fun y hy e => by
  have h := Part.heldOf_completeRequest_self n r p
  rw [Part.heldOf, List.find?_eq_none] at h
  exact h y hy (by simpa using e)

/-! ## The place that frees -/

/-- R174: the access at the front, performed, leaves room for one of its direction. -/
theorem Part.popFront_hasRoom {p : Part} {a x : Access} {rest : List Access} (hf : p.port.fifo = a :: rest) (hb : p.port.Bounded) (hx : x.isRead = a.isRead) :
    (p.popFront a rest).port.hasRoom x = true := by
  obtain ⟨hwrites, hreads⟩ := hb
  rw [WindowPort.writesQueued, hf] at hwrites
  rw [WindowPort.readsQueued, hf] at hreads
  unfold WindowPort.hasRoom
  cases ha : a.isRead with
  | true =>
    rw [hx, ha, if_pos rfl, decide_eq_true_eq]
    rw [List.filter_cons_of_pos ha] at hreads
    exact hreads
  | false =>
    rw [hx, ha, if_neg (by simp), decide_eq_true_eq]
    rw [List.filter_cons_of_pos (by simp [ha])] at hwrites
    exact hwrites

theorem Part.refill_nobody {p : Part} (hw : p.port.waiting = []) : p.refill = p := by
  unfold Part.refill
  rw [hw]
  rfl

/-- R174: the block that began to wait first, its first access having room, goes on with it. -/
theorem Part.refill_first {p : Part} {e : WaitEntry} {more : List WaitEntry} {x : Access} {items : List Item} (hw : p.port.waiting = e :: more)
    (he : e.items = .access x :: items) (hroom : p.port.hasRoom x = true) :
    p.refill = Part.raiseFree e.block items { p with port := { p.port with
      fifo := p.port.fifo ++ [x]
      waiting := (e :: more).filter fun y => y.block != e.block } } := by
  have hgo : p.port.canGoOn e = true := by
    unfold WindowPort.canGoOn
    rw [he]
    exact hroom
  unfold Part.refill
  rw [hw, List.find?_cons_of_pos hgo]
  dsimp only
  rw [he]
  exact if_pos hroom

theorem Part.refill_raises {p : Part} {e : WaitEntry} {more : List WaitEntry} {x : Access} {items : List Item} (hw : p.port.waiting = e :: more)
    (he : e.items = .access x :: items) (hroom : p.port.hasRoom x = true) : p.port.fifo ++ [x] <+: p.refill.port.fifo := by
  rw [Part.refill_first hw he hroom]
  exact Part.raiseFree_fifo e.block items { p with port := { p.port with
    fifo := p.port.fifo ++ [x], waiting := (e :: more).filter fun y => y.block != e.block } }

/-- The only block that waits goes on, and none waits behind it. -/
theorem Part.refill_only {p : Part} {e : WaitEntry} {x : Access} {items : List Item} (hw : p.port.waiting = [e])
    (he : e.items = .access x :: items) (hroom : p.port.hasRoom x = true) :
    p.refill = Part.raiseFree e.block items { p with port := { p.port with fifo := p.port.fifo ++ [x], waiting := [] } } := by
  rw [Part.refill_first hw he hroom, List.filter_cons_of_neg (by simp), List.filter_nil]

/-- The work that stood first behind a wait is done, and what follows of it. -/
theorem Part.settle_later {w : Work} {rest : List Work} {p : Part} (hw : p.port.waiting = []) (h : p.port.later = w :: rest) :
    p.settle = (p.doNext w rest).settle := by
  unfold Part.settle
  rw [Part.resolve_later hw h]

/-! ## The row -/

/-- The row of QUEUE_ROOM. -/
theorem exec_queueRoom {s : State} {a : Access} {rest : List Access} (hf : s.part.port.fifo = a :: rest) :
    exec .queueRoom s = .next { s with mem := a.land s.mem, part := (s.part.popFront a rest).refill.settle } := by
  show Host.Outcome.next (s.performFront.onPart Part.settle) = _
  rw [State.performFront_cons hf]
  rfl

theorem Part.popFront_reports (a : Access) (rest : List Access) (p : Part) :
    p.popFront a rest = { p with port := { p.port with
      fifo := rest, reports := p.port.reports ++ if a.reported = true then [a] else [] } } := by
  unfold Part.popFront
  cases a.reported <;> simp

/-- Settles O9. -/
theorem frontAccessIsPerformed : Obligations.FrontAccessIsPerformed := by
  unfold Obligations.FrontAccessIsPerformed
  intro s a rest hmem hsettled hf
  have hroom : ∀ x : Access, x.isRead = a.isRead → s.PortBounded → (s.part.popFront a rest).port.hasRoom x = true := fun x hx hb =>
    Part.popFront_hasRoom hf hb hx
  refine ⟨_, exec_queueRoom hf, fun w b r ha => ⟨fun i hi => ?written, fun x hx => ?untouched⟩, fun ha => ?read, fun hw => ?nobody,
    fun e more x items hw he hx hb => ?first, fun e x seq r h hw he hx hb hh => ?completes, fun e x w more hw he hx hb hl => ?works⟩
  case written =>
    subst ha
    refine (Memory.readByte_writeBytes hmem w b (w + i)).trans ?_
    rw [if_pos ⟨Nat.le_add_right w i, Nat.add_lt_add_left hi w⟩, Nat.add_sub_cancel_left]
    rfl
  case untouched =>
    subst ha
    refine (Memory.readByte_writeBytes hmem w b x).trans (if_neg ?_)
    omega
  case read =>
    cases a with
    | read what addr len => rfl
    | write addr bytes r => exact absurd ha (by simp [Access.isRead])
  case nobody =>
    obtain ⟨hl, hfin, hdrain⟩ := hsettled hw
    rw [Part.refill_nobody (p := s.part.popFront a rest) hw, Part.settle_eq_self (p := s.part.popFront a rest) hl hfin hdrain, Part.popFront_reports]
  case first =>
    have hraises := Part.refill_raises (p := s.part.popFront a rest) hw he (hroom x hx hb)
    exact hraises.trans (Part.settle_works _).port.fifo
  case completes =>
    have hrefill := Part.refill_only (p := s.part.popFront a rest) hw he (hroom x hx hb)
    show _ <+: (Part.settle _).board.completions ∧ (Part.settle _).Unheld seq
    rw [hrefill]
    exact ⟨((Part.completeRequest_board (p := { s.part.popFront a rest with port := { (s.part.popFront a rest).port with
          fifo := rest ++ [x], waiting := [] } }) r hh).1 ▸ List.prefix_rfl : _ <+: _).trans (Part.settle_works _).completions,
      Part.settle_unheld (Part.completeRequest_unheld seq r _)⟩
  case works =>
    have hrefill := Part.refill_only (p := s.part.popFront a rest) hw he (hroom x hx hb)
    show Part.settle _ = _
    rw [hrefill, Part.popFront_reports]
    exact Part.settle_later rfl hl

end Sys2Proof.Machine
end

section
/-! SUPPORT. After each slot of its set the sweep goes on, or waits behind the slot's take (R112, R113, R117, R124). -/

namespace Sys2Proof.Machine

/-! ## The take of a slot leaves the sweep where it is -/

theorem Part.register_leavesSweep (x : Half) (n : Nat) (p : Part) : p.LeavesSweep (p.register x n) := by
  unfold Part.register
  split
  · exact .refl p
  · exact .of_same

theorem Part.accept_leavesSweep (k : ReqKind) (n slot : Nat) (r : List Byte) (p : Part) : p.LeavesSweep (p.accept k n slot r) := by
  have h : p.LeavesSweep ((p.register (Req.tag r) n).hold (p.acceptRecord k n slot r)) := (p.register_leavesSweep _ _).trans .of_same
  rw [Part.accept_eq]
  split
  · exact h.trans (Part.writeTaken_serves _ _).toLeavesSweep
  · exact (h.trans (Part.handOver_leavesSweep _ _ _ _ _ _)).trans (Part.answerTake_serves _ _).toLeavesSweep

/-- R114: the next take sequence has been given. -/
def Part.sequenced (p : Part) : Part := { p with board := { p.board with nextSeq := p.board.nextSeq + 1 } }

theorem Part.take_leavesSweep (n : Nat) (r : List Byte) (p : Part) : p.sequenced.LeavesSweep (p.take n r) := by
  unfold Part.take
  dsimp only
  split
  · exact (Part.writeCompletion_serves _ _ _ p.sequenced).toLeavesSweep
  · exact Part.accept_leavesSweep _ _ _ _ p.sequenced
  · exact .refl p.sequenced

theorem Part.LeavesSweep.settle {p q : Part} (h : p.LeavesSweep q) (hp : .sweepOn ∉ p.port.later) : p.LeavesSweep q.settle :=
  h.trans (Part.settle_leavesSweep fun hm => hp (h.portSweep.later hm))

theorem Part.takeAfterDrain_leavesSweep {p : Part} (h : .sweepOn ∉ p.port.later) : p.LeavesSweep p.takeAfterDrain := by
  unfold Part.takeAfterDrain
  split
  · exact (Part.onceFree_serves p.drainRequests_serves).toLeavesSweep.settle h
  · exact .refl p

theorem Part.takeAfterDrain_works (p : Part) : p.Works p.takeAfterDrain := by
  unfold Part.takeAfterDrain
  split
  · exact (Part.onceFree_serves p.drainRequests_serves).toWorks.trans (Part.settle_works _)
  · exact .refl p

theorem Part.takeAfterDrain_rests {p : Part} (h : p.Rests) : p.takeAfterDrain.Rests := by
  unfold Part.takeAfterDrain
  split
  · exact Part.settle_rests _
  · exact h

/-! ## The sweep goes on, or waits behind a take -/

theorem Part.sweepNext_settle {Z : Part} (hrest : Z.Rests) (b : Bool) : (Z.sweepNext b).settle = Z.sweepNext b := by
  have hcalm := Z.sweepNext_calm b
  have hgrows := (Z.sweepNext_carries b).port
  obtain ⟨x, w, heq, -, -, -, hfin, -, -⟩ := Z.sweepNext_frame b
  by_cases hw : (Z.sweepNext b).port.waiting = []
  · obtain ⟨hl, hf, hdrain⟩ := hrest (hgrows.waiting_nil hw)
    have hdone : (Z.sweepNext b).drainDone = Z.drainDone := by rw [heq]; rfl
    refine Part.settle_eq_self (hcalm.later.trans hl) (by rw [heq]; exact hfin.trans hf) ?_
    rw [hcalm.run, hdone]
    exact hdrain
  · exact Part.settle_waiting hw

/-- R113: behind a take at whose end no block waits the sweep goes on within the step. -/
theorem Part.sweepOn_settle_free {q : Part} (hw : q.port.waiting = []) (hl : q.port.later = []) : q.sweepOn.settle = (q.sweepNext true).settle := by
  unfold Part.sweepOn
  split
  · have hnext : ({ q with port := { q.port with later := q.port.later ++ [.sweepOn] } } : Part).doNext .sweepOn [] = q.sweepNext true := by
      have hempty : ({ q with port := { q.port with later := [] } } : Part) = q := by rw [← hl]
      unfold Part.doNext Part.doWork
      simp only [hempty, List.append_nil]
    rw [Part.settle_later (p := { q with port := { q.port with later := q.port.later ++ [.sweepOn] } }) (w := .sweepOn) (rest := []) hw
      (congrArg (· ++ [Work.sweepOn]) hl), hnext]
  · rfl

/-- R113, R174: behind a take the sweep goes on; or a block waits, a take is not at its end, and the sweep waits behind it. -/
theorem Part.sweepOn_cases {Z : Part} (hrest : Z.Rests) :
    Z.sweepOn.settle = Z.sweepNext true ∨ (Z.port.waiting ≠ [] ∧ (∃ h ∈ Z.board.held, h.taken = false) ∧
      Z.sweepOn.settle = { Z with port := { Z.port with later := Z.port.later ++ [.sweepOn] } }) := by
  by_cases hw : Z.port.waiting = []
  · rw [Part.sweepOn_settle_free hw (hrest hw).1, Part.sweepNext_settle hrest]
    exact .inl rfl
  · rw [Part.settle_waiting (Z.sweepOn_carries.port.waiting_ne_nil hw)]
    unfold Part.sweepOn
    split
    · next hany =>
      obtain ⟨h, hh, ht⟩ := List.any_eq_true.mp hany
      exact .inr ⟨hw, ⟨h, hh, by simpa using ht⟩, rfl⟩
    · exact .inl rfl

/-! ## Where the sweep goes -/

/-- The sweep of the part is that of the state. -/
structure State.SweepKept (s : State) (Z : Part) : Prop where
  sweep : Z.board.sweep = s.part.board.sweep
  again : Z.board.sweepAgain = s.part.board.sweepAgain
  timer : Z.board.sweepTimer = s.part.board.sweepTimer
  origin : Z.board.origin = s.part.board.origin
  count : Z.board.sweepCount = s.part.board.sweepCount

theorem BoardController.sweepState_eq {b c : BoardController} (h : b.sweepState = c.sweepState) :
    b.sweep = c.sweep ∧ b.sweepAgain = c.sweepAgain ∧ b.sweepTimer = c.sweepTimer ∧ b.origin = c.origin ∧ b.sweepCount = c.sweepCount ∧ b.nextSeq = c.nextSeq := by
  simpa only [BoardController.sweepState, Prod.mk.injEq] using h

theorem State.SweepKept.of_leaves {s : State} {p Z : Part} (h : p.LeavesSweep Z) (hp : s.SweepKept p) : s.SweepKept Z := by
  obtain ⟨h1, h2, h3, h4, h5, -⟩ := BoardController.sweepState_eq h.sweepState
  exact ⟨h1.trans hp.sweep, h2.trans hp.again, h3.trans hp.timer, h4.trans hp.origin, h5.trans hp.count⟩

/-- The last slot taken, once a slot has been considered. -/
def lastTaken (taken : Bool) (n : Nat) (last : Option Nat) : Option Nat := if taken = true then some n else last

theorem BoardController.moveOrigin_origin (last : Option Nat) (b : BoardController) :
    (∀ k, last = some k → (b.moveOrigin last).origin = (k + 1) % 64) ∧ (last = none → (b.moveOrigin last).origin = b.origin) := by
  cases last with
  | none => exact ⟨fun k h => absurd h (by simp), fun _ => rfl⟩
  | some m =>
    refine ⟨fun k h => ?_, fun h => absurd h (by simp)⟩
    obtain rfl := Option.some.inj h
    rfl

/-- R112, R113: what an ended sweep leaves on the board. -/
theorem Part.endSweep_board (last : Option Nat) (p : Part) :
    (p.endSweep last).board.sweep = (if p.board.sweepAgain = true then .reading else .noSweep) ∧ (p.endSweep last).board.sweepAgain = false ∧
      (p.endSweep last).board.sweepCount = p.board.sweepCount + 1 ∧ (p.endSweep last).board.origin = (p.board.moveOrigin last).origin := by
  unfold Part.endSweep
  dsimp only
  by_cases h : p.board.sweepAgain = true
  · rw [if_pos h, if_pos h]
    exact ⟨rfl, rfl, rfl, rfl⟩
  · rw [if_neg h, if_neg h]
    exact ⟨rfl, rfl, rfl, rfl⟩

section
variable {s : State} {Z : Part} {n : Nat} {rest : List Nat} {last : Option Nat} (h : s.SweepKept Z)
include h

/-- R113: in RUNNING the next slot is read, or the sweep ends. -/
theorem State.SweepKept.goesOn (hs : s.part.board.sweep = .taking (n :: rest) last) (hr : Z.run.partState = .running) (hb : Z.base = s.part.base)
    (taken : Bool) : s.SweepGoesOn { s with part := Z.sweepNext taken } rest (lastTaken taken n last) := by
  have hZ : Z.board.sweep = .taking (n :: rest) last := h.sweep.trans hs
  refine ⟨fun m more hrest => ?_, fun hrest => ?_⟩
  · subst hrest
    have hnext : Z.sweepNext taken = { Z with board := { Z.board with sweep := .taking (m :: more) (lastTaken taken n last) } }.submit .boardController
        [slotRead Z.base m] := by
      unfold Part.sweepNext
      rw [hZ]
      rfl
    rw [hnext]
    refine ⟨rfl, h.origin, h.count, ?_⟩
    rw [← hb]
    exact (WindowPort.submit_sublist _ _ _).subset (List.mem_singleton.mpr rfl)
  · subst hrest
    have hnext : Z.sweepNext taken = Z.endSweep (lastTaken taken n last) := by
      unfold Part.sweepNext
      rw [hZ]
      exact if_pos hr
    obtain ⟨h1, h2, h3, h4⟩ := Z.endSweep_board (lastTaken taken n last)
    obtain ⟨hmoved, hkept⟩ := Z.board.moveOrigin_origin (lastTaken taken n last)
    rw [hnext]
    exact ⟨h1.trans (by rw [h.again]), h2, h3.trans (by rw [h.count]), fun k hk => h4.trans (hmoved k hk), fun hk => h4.trans ((hkept hk).trans h.origin)⟩

/-- R124: in DRAINING the sweep is dropped. -/
theorem State.SweepKept.dropped (hs : s.part.board.sweep = .taking [n] last) (hr : Z.run.partState = .draining) (taken : Bool) :
    s.SweepDropped { s with part := Z.sweepNext taken } (lastTaken taken n last) ∧ (Z.sweepNext taken).port = Z.port := by
  have hnext : Z.sweepNext taken = Z.dropSweep (lastTaken taken n last) := by
    unfold Part.sweepNext
    rw [show Z.board.sweep = .taking [n] last from h.sweep.trans hs]
    exact if_neg (by rw [hr]; simp)
  obtain ⟨hmoved, hkept⟩ := Z.board.moveOrigin_origin (lastTaken taken n last)
  have hfields : ∀ l : Option Nat, (Z.board.moveOrigin l).sweepCount = Z.board.sweepCount ∧ (Z.board.moveOrigin l).sweepTimer = Z.board.sweepTimer := fun l => by
    cases l <;> exact ⟨rfl, rfl⟩
  rw [hnext]
  exact ⟨⟨rfl, (hfields _).1.trans h.count, (hfields _).2.trans h.timer, hmoved, fun hk => (hkept hk).trans h.origin⟩, rfl⟩

end

end Sys2Proof.Machine
end

section
/-! SUPPORT. A sweep in RUNNING and the last take of a drain (R113, R124): the statement about each slot of the set. -/

namespace Sys2Proof.Machine

/-! ## A slot considered -/

/-- `Z` is the part at the end of what slot `n` asks for, before the sweep goes on. -/
structure State.Considered (s : State) (taken : Bool) (Z : Part) : Prop where
  kept : s.SweepKept Z
  next : Z.board.nextSeq = s.part.board.nextSeq + taken.toNat
  reads : ∀ a ∈ Z.port.outstanding, a.ofBlocks = true
  rests : Z.Rests
  partState : Z.run.partState = s.part.run.partState
  base : Z.base = s.part.base

/-- `T` is the part after the slot: the sweep has gone on, or waits behind the take. -/
def Part.GoesOn (taken : Bool) (Z T : Part) : Prop :=
  T = Z.sweepNext taken ∨
    (taken = true ∧ Z.port.waiting ≠ [] ∧ (∃ h ∈ Z.board.held, h.taken = false) ∧
      T = { Z with port := { Z.port with later := Z.port.later ++ [.sweepOn] } })

theorem State.considered_taken (s : State) (n : Nat) (r : List Byte) :
    s.Considered true (Part.take n r { s.part with port := {} }).settle.takeAfterDrain := by
  let p : Part := { s.part with port := {} }
  have hp : .sweepOn ∉ p.sequenced.port.later := List.not_mem_nil
  have htake := (p.take_leavesSweep n r).settle hp
  have hleaves := htake.trans (Part.takeAfterDrain_leavesSweep fun hm => hp (htake.portSweep.later hm))
  have hworks := ((p.take_works n r).trans (Part.settle_works _)).trans (Part.takeAfterDrain_works _)
  have hclosed := Part.takeAfterDrain_closes (p.take_keeps n r).settles
  obtain ⟨-, -, -, -, -, hnext⟩ := BoardController.sweepState_eq hleaves.sweepState
  exact ⟨.of_leaves hleaves ⟨rfl, rfl, rfl, rfl, rfl⟩, hnext, fun a ha => (hleaves.portSweep.reads a ha).resolve_left List.not_mem_nil,
    Part.takeAfterDrain_rests (Part.settle_rests _), hclosed.state, hworks.base⟩

theorem State.considered_passed (s : State) : s.Considered false (Part.settle { s.part with port := {} }) := by
  let p : Part := { s.part with port := {} }
  have hleaves : p.LeavesSweep p.settle := Part.settle_leavesSweep List.not_mem_nil
  obtain ⟨-, -, -, -, -, hnext⟩ := BoardController.sweepState_eq hleaves.sweepState
  exact ⟨.of_leaves hleaves ⟨rfl, rfl, rfl, rfl, rfl⟩, hnext, fun a ha => (hleaves.portSweep.reads a ha).resolve_left List.not_mem_nil,
    p.settle_rests, p.settle_partState, p.settle_works.base⟩

section
variable {s : State} {n : Nat} {last : Option Nat} {taken : Bool} {Z T : Part} (hZ : s.Considered taken Z) (hT : Z.GoesOn taken T)
include hZ hT

theorem State.Considered.nextSeq : T.board.nextSeq = s.part.board.nextSeq + taken.toNat := by
  rcases hT with rfl | ⟨-, -, -, rfl⟩
  · obtain ⟨x, w, heq, -, -, -, -, hnext, -⟩ := Z.sweepNext_frame taken
    rw [heq]
    exact hnext.trans hZ.next
  · exact hZ.next

theorem State.Considered.finishes (hw : T.port.waiting = []) : T.board.finishes = [] := by
  rcases hT with rfl | ⟨-, hwait, -, rfl⟩
  · obtain ⟨x, w, heq, -, -, -, hfin, -, -⟩ := Z.sweepNext_frame taken
    have hZw := (Z.sweepNext_carries taken).port.waiting_nil hw
    rw [heq]
    exact hfin.trans (hZ.rests hZw).2.1
  · exact absurd hw hwait

theorem State.Considered.sweepWaits (h : T ≠ Z.sweepNext taken) : taken = true ∧ s.SweepWaits { s with part := T } := by
  obtain ⟨ht, hwait, huntaken, rfl⟩ := hT.resolve_left h
  exact ⟨ht, hwait, List.mem_append_right _ (List.mem_singleton.mpr rfl), huntaken, hZ.kept.sweep, hZ.kept.origin, hZ.kept.count⟩

omit hZ in
/-- R113: a slot passed over, a take at whose end no block waits, or whose request and every other is at the end of its take: the sweep has gone on. -/
theorem Part.GoesOn.gone (h : taken = false ∨ T.port.waiting = [] ∨ ∀ x ∈ T.board.held, x.taken = true) : T = Z.sweepNext taken := by
  refine hT.resolve_right ?_
  rintro ⟨ht, hwait, ⟨x, hx, hxt⟩, rfl⟩
  rcases h with h | h | h
  · rw [ht] at h; exact absurd h (by simp)
  · exact hwait h
  · exact absurd (h x hx) (by simp [hxt])

/-- R113: in RUNNING. -/
theorem State.Considered.running {rest : List Nat} (hs : s.part.board.sweep = .taking (n :: rest) last) (hr : s.part.run.partState = .running) :
    (s.SweepGoesOn { s with part := T } rest (lastTaken taken n last) ∨ taken = true ∧ s.SweepWaits { s with part := T }) ∧
    (taken = false ∨ T.port.waiting = [] ∨ (∀ h ∈ T.board.held, h.taken = true) → s.SweepGoesOn { s with part := T } rest (lastTaken taken n last)) := by
  have hgoes : T = Z.sweepNext taken → s.SweepGoesOn { s with part := T } rest (lastTaken taken n last) := fun h => by
    rw [h]
    exact hZ.kept.goesOn hs (hZ.partState.trans hr) hZ.base taken
  exact ⟨(Classical.em (T = Z.sweepNext taken)).imp hgoes (hZ.sweepWaits hT), fun h => hgoes (hT.gone h)⟩

/-- R124: in DRAINING, where no other slot is to come. -/
theorem State.Considered.draining (hs : s.part.board.sweep = .taking [n] last) (hr : s.part.run.partState = .draining) :
    (s.SweepDropped { s with part := T } (lastTaken taken n last) ∨ taken = true ∧ s.SweepWaits { s with part := T }) ∧
    (taken = false ∨ T.port.waiting = [] ∨ (∀ h ∈ T.board.held, h.taken = true) → s.SweepDropped { s with part := T } (lastTaken taken n last)) ∧
    ∀ what addr len, Access.read what addr len ∈ T.port.outstanding → what = .bankWord := by
  have hdrops := hZ.kept.dropped hs (hZ.partState.trans hr) taken
  have hdropped : T = Z.sweepNext taken → s.SweepDropped { s with part := T } (lastTaken taken n last) := fun h => by
    rw [h]
    exact hdrops.1
  have hout : T.port.outstanding = Z.port.outstanding := by
    rcases hT with rfl | ⟨-, -, -, rfl⟩
    · rw [hdrops.2]
    · rfl
  refine ⟨(Classical.em (T = Z.sweepNext taken)).imp hdropped (hZ.sweepWaits hT), fun h => hdropped (hT.gone h), fun what addr len hm => ?_⟩
  rw [hout] at hm
  simpa [Access.ofBlocks] using hZ.reads _ hm

theorem State.Considered.state : T.run.partState = s.part.run.partState := by
  rcases hT with rfl | ⟨-, -, -, rfl⟩
  · rw [(Z.sweepNext_calm taken).run]
    exact hZ.partState
  · exact hZ.partState

end

/-! ## The rows -/

theorem Part.takeStep_goesOn (s : State) (n : Nat) (slot : List Byte) :
    Part.GoesOn true (Part.take n (slot.take 64) { s.part with port := {} }).settle.takeAfterDrain (Part.takeStep n slot { s.part with port := {} }) :=
  (Part.sweepOn_cases (s.considered_taken n (slot.take 64)).rests).imp id fun h => ⟨rfl, h⟩

/-- The row of a slot passed over. -/
theorem exec_passedOver_answered {s : State} {n : Nat} {rest : List Nat} {last : Option Nat} {b : Byte}
    (hw : s.part.run.partState = .running ∨ s.part.run.partState = .draining) (ho : s.OnlyAccess (slotRead s.part.base n))
    (hs : s.part.board.sweep = .taking (n :: rest) last) (hb : b ≠ statePosted) :
    exec (.passedOver b) s = .next { s with part := (Part.settle { s.part with port := {} }).sweepNext false } := by
  show Host.Outcome.next (s.awaitRoom.slotRow (b != statePosted) fun _ p => (p.settle.sweepNext false).settle) = _
  rw [State.slotRow_only hw ho hs (by simpa using hb)]
  dsimp only
  rw [Part.sweepNext_settle (Part.settle_rests _)]

theorem takeCommand_lend {slot slot' : List Byte} {k : Option ReqKind} (h : Instr.lend slot' = takeCommand slot k) : k = some .lend ∧ slot' = slot := by
  rcases k with _ | k
  · exact absurd h (by simp [takeCommand])
  · cases k <;> simp_all [takeCommand]

theorem takeCommand_abort {slot slot' : List Byte} {k : Option ReqKind} (h : Instr.abort slot' = takeCommand slot k) : k = some .abort ∧ slot' = slot := by
  rcases k with _ | k
  · exact absurd h (by simp [takeCommand])
  · cases k <;> simp_all [takeCommand]

end Sys2Proof.Machine
end

section
/-! SUPPORT. The end of a drain that leaves nothing in flight (R172, R173), and the statement about the sweep after each slot of its set (R112, R113, R124). -/

namespace Sys2Proof.Machine

/-! ## No request is held for a predecessor -/

theorem Part.completeEach_serves (l : List (Nat × Result)) (p : Part) : p.Serves (p.completeEach l) :=
  Part.Serves.foldl (f := fun q (x : Nat × Result) => q.completeRequest x.1 x.2) (fun q x => q.completeRequest_serves x.1 x.2) l p

theorem Part.completeEach_unheld {l : List (Nat × Result)} {n : Nat} (hn : n ∈ l.map Prod.fst) (p : Part) : (p.completeEach l).Unheld n := by
  induction l generalizing p with
  | nil => exact absurd hn List.not_mem_nil
  | cons x rest ih =>
    rw [List.map_cons, List.mem_cons] at hn
    rcases hn with rfl | hn
    · exact (Part.completeEach_serves rest _).toAdopts.unheld (Part.completeRequest_unheld x.1 x.2 p)
    · exact ih hn _

/-- The Board Controller holds no request for a predecessor. -/
def Part.NoneHeld (p : Part) : Prop := ∀ h ∈ p.board.held, h.owner ≠ .boardController

theorem Part.Adopts.noneHeld {p q : Part} (h : p.Adopts q) (hp : p.NoneHeld) : q.NoneHeld := fun y hy ho => by
  obtain ⟨x, hx, hxo, -, -⟩ := h.held y hy
  exact hp x hx (hxo ho)

/-- R125: the requests held for a predecessor, each with its result at the end of the drain. -/
def Part.heldResults (p : Part) : List (Nat × Result) :=
  (p.board.held.filter fun h => h.owner == .boardController).map fun h => (h.seq, { outcome := .stopped })

theorem Part.drainBoard_eq (p : Part) : p.drainBoard = p.completeEach p.heldResults := by
  unfold Part.drainBoard Part.completeEach Part.heldResults
  rw [List.foldl_map]

/-- R125: the notice leaves no request held for a predecessor. -/
theorem Part.drainBoard_noneHeld (p : Part) : p.drainBoard.NoneHeld := fun y hy ho => by
  obtain ⟨x, hx, hxo, hxs, -⟩ := p.drainBoard_serves.held y hy
  have hmem : x.seq ∈ p.heldResults.map Prod.fst := by
    unfold Part.heldResults
    rw [List.map_map]
    exact List.mem_map.mpr ⟨x, List.mem_filter.mpr ⟨hx, by simpa using hxo ho⟩, rfl⟩
  rw [Part.drainBoard_eq] at hy
  exact Part.completeEach_unheld hmem p y hy hxs.symm

theorem Part.drainRequests_noneHeld (p : Part) : p.drainRequests.NoneHeld :=
  (((Part.drainTransactions_serves _).trans (Part.drainDismiss_serves _)).trans (Part.drainJournal_serves _)).toAdopts.noneHeld p.drainBoard_noneHeld

/-! ## Nothing left in flight at the end of a drain -/

/-- The work that can stand behind a wait once a drain has ended with nothing in flight. -/
def Work.ending : Work → Bool
  | .waiters _ _ | .drainEnd | .sweepOn => true
  | .record _ | .dismissal _ _ | .dismissed _ _ | .unitChange _ => false

/-- No transaction, SYNC or ABORT is in flight and no request is held for a predecessor; the run is `r`. -/
structure Part.Ended (r : RunController) (p : Part) : Prop where
  te : p.te = {}
  held : p.NoneHeld
  run : p.run = r
  later : ∀ w ∈ p.port.later, w.ending = true

theorem Part.Ended.of_serves {r : RunController} {p q : Part} (h : p.Ended r) (ha : p.Adopts q) (ht : q.te = p.te) (hr : q.run = p.run)
    (hl : q.port.later = p.port.later) : q.Ended r :=
  ⟨ht.trans h.te, ha.noneHeld h.held, hr.trans h.run, hl ▸ h.later⟩

theorem Part.drainTransactions_te {p : Part} (h : p.te = {}) : p.drainTransactions.te = p.te := by
  have hsyncs : p.te.syncs = [] := by rw [h]
  have hpool : p.te.pool = [] := by rw [h]
  have hunits : ∀ (l : List Nat) (q : Part),
      (l.foldl (fun q a => q.updateUnit a fun u => { u with reservations := [], pendingAck := none }) q).te = q.te := fun l => by
    induction l with
    | nil => exact fun q => rfl
    | cons a rest ih => exact fun q => (ih _).trans (q.updateUnit_te _ _)
  unfold Part.drainTransactions
  dsimp only
  rw [hsyncs, List.foldl_nil, hpool, List.filter_nil]
  exact hunits _ p

theorem Part.drainDismiss_te (p : Part) : p.drainDismiss.te = p.te := by
  unfold Part.drainDismiss
  split
  · exact (Part.completeRequest_owners _ _ _).2.1
  · rfl

theorem Part.drainJournal_te (p : Part) : p.drainJournal.te = p.te := (Part.raise_owners _ _ _).2.1

/-- R173: the notice leaves no request held, and takes nothing on. -/
theorem Part.drainRequests_ended {r : RunController} {p : Part} (hte : p.te = {}) (hr : p.run = r) (hl : ∀ w ∈ p.port.later, w.ending = true) :
    p.drainRequests.Ended r := by
  have hboard : p.drainBoard.te = {} := by rw [Part.drainBoard_eq, Part.completeEach_te, hte]
  have htransactions : p.drainBoard.drainTransactions.te = {} := (Part.drainTransactions_te hboard).trans hboard
  have hend : p.drainRequests.te = {} := by
    unfold Part.drainRequests
    rw [Part.drainJournal_te, Part.drainDismiss_te, htransactions]
  exact ⟨hend, p.drainRequests_noneHeld, p.drainRequests_calm.run.trans hr, by rw [p.drainRequests_calm.later]; exact hl⟩

theorem Part.Ended.countFinish {r : RunController} {p : Part} (h : p.Ended r) (f : Finish) : (p.countFinish f).Ended r := by
  have hsyncs : p.te.syncs = [] := by rw [h.te]
  refine h.of_serves (p.countFinish_serves f).toAdopts ?_ (p.countFinish_calm f).run (p.countFinish_calm f).later
  unfold Part.countFinish
  rw [hsyncs]
  split
  · show ({ p.te with syncs := [] } : TransactionEngine) = p.te
    rw [← hsyncs]
  · rfl

/-- R120: nobody waits. -/
theorem Part.Ended.resolveWaiter {r : RunController} {p : Part} (h : p.Ended r) (n : Nat) (b : Bool) (w : Nat) : p.resolveWaiter n b w = p := by
  have hsyncs : p.te.syncs = [] := by rw [h.te]
  have htxn : p.findTxn w = none := by
    unfold Part.findTxn
    rw [h.te]
    rfl
  unfold Part.resolveWaiter
  rw [htxn, hsyncs]
  dsimp only [List.find?_nil]
  split
  · next x hx =>
    refine if_neg fun hc => h.held x (List.mem_of_find?_eq_some hx) ?_
    simp only [Bool.and_eq_true, beq_iff_eq] at hc
    exact hc.1
  · rfl

theorem Part.Ended.resolveWaiters {r : RunController} {p : Part} (h : p.Ended r) (f : Finish) (l : List Nat) : (p.resolveWaiters f l).Ended r := by
  induction l with
  | nil => exact h.countFinish f
  | cons w rest ih =>
    unfold Part.resolveWaiters
    split
    · rw [h.resolveWaiter]
      exact ih
    · exact ⟨h.te, h.held, h.run, fun x hx => (List.mem_append.mp hx).elim (h.later x) fun hx => by rw [List.mem_singleton.mp hx]; rfl⟩

theorem Part.Ended.sweepNext {r : RunController} {p : Part} (h : p.Ended r) (b : Bool) : (p.sweepNext b).Ended r := by
  obtain ⟨x, w, heq, -⟩ := p.sweepNext_frame b
  exact h.of_serves (p.sweepNext_carries b).toAdopts (by rw [heq]) (p.sweepNext_calm b).run (p.sweepNext_calm b).later

theorem Part.Ended.doWork {r : RunController} {p : Part} (h : p.Ended r) {w : Work} (hw : w.ending = true) : (p.doWork w).Ended r := by
  cases w with
  | record x => exact absurd hw (by simp [Work.ending])
  | dismissal n a => exact absurd hw (by simp [Work.ending])
  | dismissed n x => exact absurd hw (by simp [Work.ending])
  | unitChange a => exact absurd hw (by simp [Work.ending])
  | drainEnd => exact Part.drainRequests_ended h.te h.run h.later
  | waiters f l => exact h.resolveWaiters f l
  | sweepOn => exact h.sweepNext true

theorem Part.Ended.resolve {r : RunController} {p : Part} (h : p.Ended r) : p.resolve.Ended r := by
  unfold Part.resolve
  generalize 2 * (p.board.finishes.length + 2 * p.board.held.length + p.te.pool.length + p.port.later.length) = n
  induction n generalizing p with
  | zero => exact h
  | succ n ih =>
    unfold Part.resolveSteps
    split
    · split
      · next w rest hw =>
        have hempty : Part.Ended r { p with port := { p.port with later := [] } } := ⟨h.te, h.held, h.run, fun x hx => absurd hx List.not_mem_nil⟩
        have hwork := hempty.doWork (h.later w (by rw [hw]; exact List.mem_cons_self))
        exact ih ⟨hwork.te, hwork.held, hwork.run, fun x hx => (List.mem_append.mp hx).elim (hwork.later x) fun hx =>
          h.later x (by rw [hw]; exact List.mem_cons_of_mem _ hx)⟩
      · next f rest _ hf =>
        exact ih (Part.Ended.resolveWaiters (p := { p with board := { p.board with
          finishes := rest, registry := p.board.registry.filter fun e => e.2 != f.seq } }) ⟨h.te, h.held, h.run, h.later⟩ f _)
      · exact h
    · exact h

theorem Part.Ended.settle {r : RunController} {p : Part} (h : p.Ended r) (hr : r.drainEnded = true) : p.settle.Ended r := by
  rw [Part.settle_eq_resolve (.inr (by rw [h.run]; exact hr))]
  exact h.resolve

theorem Part.Ended.takeAfterDrain {r : RunController} {p : Part} (h : p.Ended r) (hr : r.drainEnded = true) : p.takeAfterDrain.Ended r := by
  unfold Part.takeAfterDrain
  split
  · refine Part.Ended.settle ?_ hr
    unfold Part.onceFree
    split
    · exact Part.drainRequests_ended h.te h.run h.later
    · exact ⟨h.te, h.held, h.run, fun x hx => (List.mem_append.mp hx).elim (h.later x) fun hx => by rw [List.mem_singleton.mp hx]; rfl⟩
  · exact h

theorem Part.Ended.sweepOn {r : RunController} {p : Part} (h : p.Ended r) : p.sweepOn.Ended r := by
  unfold Part.sweepOn
  split
  · exact ⟨h.te, h.held, h.run, fun x hx => (List.mem_append.mp hx).elim (h.later x) fun hx => by rw [List.mem_singleton.mp hx]; rfl⟩
  · exact h.sweepNext true

/-- R172, R173: a drain with nothing left to wait for ends, and leaves nothing in flight. -/
theorem Part.closeDrain_ended {p : Part} (hd : p.run.partState = .draining) (he : p.run.drainEnded = false) (hte : p.te = {}) (hum : p.um.dismissWait = none)
    (hfree : p.port.free = true) : p.closeDrain.Ended { p.run with drainEnded := true, drainTimer := none } := by
  have hdone : p.drainDone = true := by
    unfold Part.drainDone
    rw [hte, hum]
    rfl
  unfold Part.closeDrain
  rw [if_pos ⟨hd, he, hdone, hfree⟩]
  have hdrained := Part.drainRequests_ended (p := { p with run := { p.run with drainEnded := true, drainTimer := none } }) hte rfl fun w hw => by
    rw [show p.port.later = [] from (WindowPort.free_iff.mp hfree).2] at hw
    exact absurd hw List.not_mem_nil
  refine Part.Ended.resolve ?_
  unfold Part.endDrain
  generalize Part.drainRequests { p with run := { p.run with drainEnded := true, drainTimer := none } } = q at hdrained ⊢
  exact ⟨hdrained.te, hdrained.held, hdrained.run, hdrained.later⟩

/-! ## The take behind which the drain ends -/

section
variable {s : State} {n : Nat} {slot : List Byte} {p Y : Part}

theorem Part.takeStep_tail_works (h : p.take n (slot.take 64) = Y) : Y.Works (p.takeStep n slot) := by
  unfold Part.takeStep
  rw [h]
  exact (((Part.settle_works Y).trans (Part.takeAfterDrain_works _)).trans (Part.sweepOn_carries _).toWorks).trans (Part.settle_works _)

/-- In RUNNING a take leaves the run as it is. -/
theorem Part.takeStep_runs (n : Nat) (slot : List Byte) (hr : p.run.partState = .running) : (p.takeStep n slot).run = p.run := by
  have hsettle : ∀ {q : Part}, q.run = p.run → q.settle.run = p.run := fun {q} hq => by
    rw [Part.settle_eq_resolve (.inl (by rw [hq]; exact hr)), q.resolve_keeps.run, hq]
  have hZ := hsettle (p.take_keeps n (slot.take 64)).run
  have hafter : (p.take n (slot.take 64)).settle.takeAfterDrain = (p.take n (slot.take 64)).settle := by
    unfold Part.takeAfterDrain
    rw [if_neg (by rw [hZ, hr]; simp)]
  unfold Part.takeStep
  rw [hafter]
  exact hsettle ((Part.sweepOn_keeps _).run.trans hZ)

theorem Part.takeStep_tail_unheld {m : Nat} (h : p.take n (slot.take 64) = Y) (hY : Y.Unheld m) : (p.takeStep n slot).Unheld m := by
  have hafter : Y.settle.takeAfterDrain.Unheld m := by
    unfold Part.takeAfterDrain
    split
    · exact Part.settle_unheld ((Part.onceFree_serves (Part.drainRequests_serves _)).toAdopts.unheld (Part.settle_unheld hY))
    · exact Part.settle_unheld hY
  unfold Part.takeStep
  rw [h]
  exact Part.settle_unheld ((Part.sweepOn_carries _).toAdopts.unheld hafter)

theorem Part.takeStep_tail_ended {r : RunController} (h : p.take n (slot.take 64) = Y) (hY : Y.settle.Ended r) (hr : r.drainEnded = true) :
    (p.takeStep n slot).Ended r := by
  unfold Part.takeStep
  rw [h]
  exact ((hY.takeAfterDrain hr).sweepOn).settle hr

/-- R117, R122: the completion of the request in its take. -/
theorem State.shows_takeCompletion {X : Part} {k : ReqKind} (hof : X.heldOf s.part.board.nextSeq = some (s.recordInTake n slot k none))
    (hclock : X.run.clock = s.part.run.clock) (res : Result) : X.Shows (X.completeRequest s.part.board.nextSeq res) (s.takeCompletion n slot res) := by
  have hshows := Part.completeRequest_shows (r := res) hof
  have hcompletion : (s.recordInTake n slot k none).completion res X.run.clock = s.takeCompletion n slot res := by
    simp [HeldRequest.completion, State.recordInTake, State.recordOf, State.takeCompletion, hclock]
  rwa [hcompletion] at hshows

/-- A request taken whose block completes it at once. -/
theorem State.take_completing {k : ReqKind} {res : Result} {X : Part} (hk : Req.kind slot = some k) (hA : s.Accepts slot) (hN : s.NoPredecessor (slot.take 64))
    (hX : (s.handed n slot k none).handOver k s.part.board.nextSeq n (slot.take 64) none = X.completeRequest s.part.board.nextSeq res) :
    Part.take n (slot.take 64) { s.part with port := {} } = X.completeRequest s.part.board.nextSeq res := by
  have hrange := (Part.validate_none hA (by rw [Req.kind_take]; exact hk)).1
  have htake := State.take_handed (n := n) hA hk hrange hN
  rwa [if_neg (by simp), hX, Part.answerTake_completed (Part.heldOf_completeRequest_self _ _ _)] at htake

/-- R155, A17: a LEND taken after the end of the drain completes STOPPED. -/
theorem State.lend_stopped (hbelow : s.SequencesBelow) (hk : Req.kind slot = some .lend) (hA : s.Accepts slot) (hN : s.NoPredecessor (slot.take 64))
    (hdrained : s.part.jw.drained = true) :
    s.CompletesSlot { s with part := Part.takeStep n slot { s.part with port := {} } } (s.takeCompletion n slot { outcome := .stopped }) ∧
    (Part.takeStep n slot { s.part with port := {} }).Unheld s.part.board.nextSeq := by
  let H : Part := s.handed n slot .lend none
  have hdo : H.handOver .lend s.part.board.nextSeq n (slot.take 64) none = H.completeRequest s.part.board.nextSeq { outcome := .stopped } := by
    show H.doLend s.part.board.nextSeq (slot.take 64) = _
    unfold Part.doLend
    rw [if_pos (by exact hdrained)]
    exact Part.finishRequest_eq (p := H) rfl .journalWriter _ _
  have htake := State.take_completing hk hA hN hdo
  have hserves := (H.completeRequest_serves s.part.board.nextSeq { outcome := .stopped }).toWorks
  have hshows := State.shows_takeCompletion (X := H) (State.heldOf_handed_self hbelow n slot .lend none) rfl { outcome := .stopped }
  have hunheld := H.completeRequest_unheld s.part.board.nextSeq { outcome := .stopped }
  generalize H.completeRequest s.part.board.nextSeq { outcome := .stopped } = Y at *
  have hworks := Part.takeStep_tail_works htake
  have hgone := Part.takeStep_tail_unheld htake hunheld
  generalize Part.takeStep n slot { s.part with port := {} } = T at *
  exact ⟨(hshows.after hworks).completesSlot (hserves.trans hworks) rfl rfl, hgone⟩

/-- R172, A15: an ABORT that ends the last transaction that the drain waits for ends the drain with it. -/
theorem State.abort_ends_drain {m : Nat} {x : Transaction} (hd : s.part.run.partState = .draining) (hf : s.part.board.finishes = [])
    (hbelow : s.SequencesBelow) (hk : Req.kind slot = some .abort) (hA : s.Accepts slot) (hN : s.NoPredecessor (slot.take 64))
    (he : s.part.run.drainEnded = false) (hw : ¬ s.part.Waits m) (hm : s.part.holderOf (Req.targetTag (slot.take 64)) = some m)
    (hte : s.part.te = { pool := [x] }) (hseq : x.seq = m) (hstate : x.state ≠ .sending) (horigin : x.origin.isSome = true)
    (hum : s.part.um.dismissWait = none) :
    (Part.takeStep n slot { s.part with port := {} }).Ended { s.part.run with drainEnded := true, drainTimer := none } ∧
    s.Completes { s with part := Part.takeStep n slot { s.part with port := {} } } m (x.result { outcome := .aborted }) ∧
    s.CompletesSlot { s with part := Part.takeStep n slot { s.part with port := {} } } (s.takeCompletion n slot { outcome := .ok, fields := [1, 1, 7] }) := by
  let H : Part := s.handed n slot .abort none
  have hlt := State.holderOf_lt hbelow hm
  have hfind : s.part.findTxn m = some x := by
    unfold Part.findTxn
    rw [hte]
    simp [hseq]
  have hdo : H.handOver .abort s.part.board.nextSeq n (slot.take 64) none =
      (H.finishTxn x x.abortEnding).completeRequest s.part.board.nextSeq { outcome := .ok, fields := [1, 1, 7] } := by
    rw [State.doAbort_handed hm, Part.abortTarget_txn (p := H) hfind, Part.abortItem_txn hstate]
  have hfin := Part.finishTxn_finished (t := x) (e := x.abortEnding) (.inl horigin) H
  have hXworks := (H.finishTxn_serves x x.abortEnding).toWorks
  have hXcalm := H.finishTxn_calm x x.abortEnding ⟨x, List.mem_of_find?_eq_some hfind, rfl⟩
  generalize H.finishTxn x x.abortEnding = X at *
  have hXte : X.te = {} := by
    rw [hfin.te, show H.te = { pool := [x] } from hte]
    simp
  have hown : X.heldOf s.part.board.nextSeq = some (s.recordInTake n slot .abort none) :=
    (hfin.held _ (hseq ▸ hlt.ne')).trans (State.heldOf_handed_self hbelow n slot .abort none)
  have hXfin : ∀ f ∈ X.board.finishes, f = ⟨m, x.abortEnding.outcome == .ok, true⟩ := fun f h => by
    rw [hfin.finishes, show H.board.finishes = [] from hf, hseq] at h
    exact List.mem_singleton.mp h
  have hunwaited := State.unwaited_aborted (res := { outcome := .ok, fields := [1, 1, 7] }) hbelow hw hXcalm.waits hXfin
    (.inr (by rw [hXte]; exact fun y hy => absurd hy List.not_mem_nil))
  have htake := State.take_completing hk hA hN hdo
  have hshows := State.shows_takeCompletion hown (by rw [hfin.run]; rfl) { outcome := .ok, fields := [1, 1, 7] }
  have hYX := X.completeRequest_releases s.part.board.nextSeq { outcome := .ok, fields := [1, 1, 7] }
  have hYworks := (X.completeRequest_serves s.part.board.nextSeq { outcome := .ok, fields := [1, 1, 7] }).toWorks
  have hYte := (X.completeRequest_owners s.part.board.nextSeq { outcome := .ok, fields := [1, 1, 7] }).2.1
  generalize X.completeRequest s.part.board.nextSeq { outcome := .ok, fields := [1, 1, 7] } = Y at *
  have hYroomy := hYX.roomy (hfin.roomy (s.handed_roomy _ _ _ _))
  have hYlater : Y.port.later = [] := hYX.later.trans hfin.later
  obtain ⟨hres, hreste, -⟩ := Part.resolve_unwaited_releases (WindowPort.free_iff.mpr ⟨hYroomy.1, hYlater⟩) hunwaited
  have hrun : Y.resolve.run = s.part.run := hres.run.trans (hYX.run.trans hfin.run)
  have hended : Y.settle.Ended { s.part.run with drainEnded := true, drainTimer := none } := by
    have h := Part.closeDrain_ended (p := Y.resolve) (by rw [hrun]; exact hd) (by rw [hrun]; exact he) (by rw [hreste, hYte, hXte])
      (by rw [hres.um, hYX.um, hfin.dismissWait]; exact hum) (WindowPort.free_iff.mpr ⟨(hres.roomy hYroomy).1, hres.later.trans hYlater⟩)
    rwa [hrun] at h
  have hworks := Part.takeStep_tail_works htake
  have hTended := Part.takeStep_tail_ended htake hended rfl
  generalize Part.takeStep n slot { s.part with port := {} } = T at *
  refine ⟨hTended, fun z hz => ?_, (((hshows.after hworks).before hXworks)).completesSlot
    ((hXworks.trans hYworks).trans hworks) rfl rfl⟩
  have hz' := hfin.shows horigin z (by rw [hseq]; exact State.heldOf_handed n slot .abort none hz)
  exact ((hz'.after hYworks).after hworks).completesSlot ((hXworks.trans hYworks).trans hworks) rfl rfl

end

/-! ## The statement -/

/-- Settles O31. -/
theorem sweepGoesOnAfterEachSlot : Obligations.SweepGoesOnAfterEachSlot := by
  unfold Obligations.SweepGoesOnAfterEachSlot
  intro s n last last' c taken hc
  refine ⟨fun slot rest h e hlen hposted => ?form, fun rest h => ?running, fun h => ?draining⟩
  case form =>
    subst e
    rcases h with ⟨hr, -, -, ho, hs, -⟩ | ⟨hd, -, -, ho, hs, -⟩
    · exact exec_takeCommand_answered (.inl hr) ho hs hposted
    · exact exec_takeCommand_answered (.inr hd) ho hs hposted
  case running =>
    obtain ⟨hr, hf, -, ho, hs, hcom⟩ := h
    rcases hc with ⟨slot, hlen, hposted, rfl, rfl, rfl⟩ | ⟨b, hb, rfl, rfl, rfl⟩
    · have hZ := s.considered_taken n (slot.take 64)
      have hT := Part.takeStep_goesOn s n slot
      have hrun : (Part.takeStep n slot { s.part with port := {} }).run = s.part.run := Part.takeStep_runs n slot hr
      have hexec := exec_takeCommand_answered (.inl hr) ho hs hposted
      generalize Part.takeStep n slot { s.part with port := {} } = T at *
      generalize (Part.take n (slot.take 64) { s.part with port := {} }).settle.takeAfterDrain = Z at *
      obtain ⟨hgoes, hgone⟩ := hZ.running hT hs hr
      exact ⟨_, hexec, rfl, rfl, hrun, hZ.nextSeq hT, fun h => hZ.finishes hT (h.resolve_left (by simp)), fun h => absurd h (by simp), hgoes, hgone⟩
    · have hexec := exec_passedOver_answered (.inl hr) ho hs hb
      have hZ := s.considered_passed
      have hsettled : Part.settle { s.part with port := {} } = { s.part with port := {} } := Part.settle_running hr rfl hf
      rw [hsettled] at hexec hZ
      have hT : Part.GoesOn false { s.part with port := {} } (Part.sweepNext false { s.part with port := {} }) := .inl rfl
      obtain ⟨x, w, heq, -, hheld, hreg, hfin, -, hcomp⟩ := Part.sweepNext_frame false { s.part with port := {} }
      rw [heq] at hexec hT
      obtain ⟨hgoes, hgone⟩ := hZ.running hT hs hr
      exact ⟨_, hexec, rfl, rfl, rfl, hZ.nextSeq hT, fun _ => hfin.trans hf, fun _ => ⟨rfl, hheld, hreg, hcomp.trans hcom⟩, hgoes, hgone⟩
  case draining =>
    obtain ⟨hd, hf, hbelow, ho, hs, -⟩ := h
    rcases hc with ⟨slot, hlen, hposted, rfl, rfl, rfl⟩ | ⟨b, hb, rfl, rfl, rfl⟩
    · have hZ := s.considered_taken n (slot.take 64)
      have hT := Part.takeStep_goesOn s n slot
      have hexec := exec_takeCommand_answered (.inr hd) ho hs hposted
      have hlend := State.lend_stopped (n := n) (slot := slot) hbelow
      have habort := fun m x => State.abort_ends_drain (n := n) (slot := slot) (m := m) (x := x) hd hf hbelow
      generalize Part.takeStep n slot { s.part with port := {} } = T at *
      generalize (Part.take n (slot.take 64) { s.part with port := {} }).settle.takeAfterDrain = Z at *
      obtain ⟨hdrops, hdropped, hreads⟩ := hZ.draining hT hs hd
      refine ⟨_, hexec, rfl, rfl, (hZ.state hT).trans hd, hZ.nextSeq hT, hZ.finishes hT, hdrops, hdropped, hreads,
        fun slot' e _ hdrained hA hN => ?lend, fun slot' m x e hk he hA hN hw hm hte hseq hstate horigin hum => ?abort⟩
      case lend =>
        obtain ⟨hk, rfl⟩ := takeCommand_lend e.symm
        exact hlend hk hA hN hdrained
      case abort =>
        obtain ⟨hk, rfl⟩ := takeCommand_abort e.symm
        obtain ⟨hended, hcompletes, hslot⟩ := habort m x hk hA hN he hw hm hte hseq hstate horigin hum
        exact ⟨hended.te, hended.run, hcompletes, hslot⟩
    · have hexec := exec_passedOver_answered (.inr hd) ho hs hb
      have hZ := s.considered_passed
      generalize Part.settle { s.part with port := {} } = Z at *
      have hT : Part.GoesOn false Z (Z.sweepNext false) := .inl rfl
      generalize Z.sweepNext false = T at *
      obtain ⟨hdrops, hdropped, hreads⟩ := hZ.draining hT hs hd
      exact ⟨_, hexec, rfl, rfl, (hZ.state hT).trans hd, hZ.nextSeq hT, hZ.finishes hT, hdrops, hdropped, hreads,
        fun slot' e => absurd e (by simp), fun slot' m x e => absurd e (by simp)⟩

end Sys2Proof.Machine
end

section
/-! SUPPORT. The end-of-drain notice block by block (R107, R125, R173): what completes, in which order, and what stays as it was. -/

namespace Sys2Proof.Machine

/-! ## Requests of a list complete -/

/-- From `p` to `q` the requests of `l` have completed in this order, and other blocks than the Board Controller have raised nothing where `quiet` holds. -/
structure Part.Winds (quiet : Prop) (p q : Part) (l : List (Nat × Result)) : Prop where
  works : p.Serves q
  dir : q.dir = p.dir
  jw : q.jw = p.jw
  aborts : q.te.aborts = p.te.aborts
  waits : ∀ b, b ≠ .boardController → b ≠ .serviceUnit → p.port.waits b = false → q.port.waits b = false
  heldOf : ∀ n, (∀ x ∈ l, x.1 ≠ n) → q.heldOf n = p.heldOf n
  completions : (l.map Prod.fst).Nodup → q.board.completions = p.board.completions ++ l.flatMap fun x => p.completionsOf x.1 x.2
  room : quiet → ∀ k, p.RoomFor k → q.RoomFor k
  silent : quiet → (∀ x ∈ l, p.heldOf x.1 = none) → q.port = p.port

theorem Part.Adopts.heldOf_none {p q : Part} (h : p.Adopts q) {n : Nat} (hp : p.heldOf n = none) : q.heldOf n = none := by
  rw [Part.heldOf, List.find?_eq_none] at hp ⊢
  exact fun y hy e => h.unheld (n := n) (fun x hx e' => hp x hx (by simpa using e')) y hy (by simpa using e)

namespace Part.Winds

variable {quiet : Prop} {p q r : Part} {l l' : List (Nat × Result)}

/-- No request completes: at most the Unit Manager's and the Transaction Engine's records change. -/
theorem nothing (hw : p.Serves q) (hd : q.dir = p.dir) (hj : q.jw = p.jw) (ha : q.te.aborts = p.te.aborts) (hb : q.board = p.board) (hp : q.port = p.port) :
    p.Winds quiet q [] where
  works := hw
  dir := hd
  jw := hj
  aborts := ha
  waits := fun _ _ _ h => by rw [hp]; exact h
  heldOf := fun n _ => by rw [Part.heldOf, Part.heldOf, hb]
  completions := fun _ => by rw [hb]; exact (List.append_nil _).symm
  room := fun _ _ h => h.of_eq hp (by rw [hb])
  silent := fun _ _ => hp

theorem refl (p : Part) : p.Winds quiet p [] := nothing (.refl p) rfl rfl rfl rfl rfl

theorem mono {loud : Prop} (h : p.Winds loud q l) (hq : quiet → loud) : p.Winds quiet q l :=
  ⟨h.works, h.dir, h.jw, h.aborts, h.waits, h.heldOf, h.completions, fun x => h.room (hq x), fun x => h.silent (hq x)⟩

theorem trans (h : p.Winds quiet q l) (h' : q.Winds quiet r l') : p.Winds quiet r (l ++ l') where
  works := h.works.trans h'.works
  dir := h'.dir.trans h.dir
  jw := h'.jw.trans h.jw
  aborts := h'.aborts.trans h.aborts
  waits := fun b hb hs hp => h'.waits b hb hs (h.waits b hb hs hp)
  heldOf := fun n hn => (h'.heldOf n fun x hx => hn x (List.mem_append_right _ hx)).trans (h.heldOf n fun x hx => hn x (List.mem_append_left _ hx))
  completions := fun hnodup => by
    rw [List.map_append, List.nodup_append] at hnodup
    obtain ⟨hl, hl', happart⟩ := hnodup
    have hsame : (l'.flatMap fun x => q.completionsOf x.1 x.2) = l'.flatMap fun x => p.completionsOf x.1 x.2 :=
      List.flatMap_congr fun x hx => by
        have hheld := h.heldOf x.1 fun y hy => happart y.1 (List.mem_map_of_mem hy) x.1 (List.mem_map_of_mem hx)
        rw [Part.completionsOf, Part.completionsOf, hheld, h.works.clock]
    rw [h'.completions hl', h.completions hl, hsame, List.flatMap_append, List.append_assoc]
  room := fun x k hk => h'.room x k (h.room x k hk)
  silent := fun x hl => (h'.silent x fun y hy => h.works.toAdopts.heldOf_none (hl y (List.mem_append_right _ hy))).trans
    (h.silent x fun y hy => hl y (List.mem_append_left _ hy))

/-- One record after another. -/
theorem foldl {α : Type} {f : Part → α → Part} {g : α → List (Nat × Result)} {xs : List α} (h : ∀ x ∈ xs, ∀ p : Part, p.Winds quiet (f p x) (g x)) (p : Part) :
    p.Winds quiet (xs.foldl f p) (xs.flatMap g) := by
  induction xs generalizing p with
  | nil => exact refl p
  | cons x rest ih => exact (h x List.mem_cons_self p).trans (ih (fun y hy => h y (List.mem_cons_of_mem _ hy)) _)

end Part.Winds

/-! ## One request, one SYNC, one transaction -/

theorem Part.completeRequest_winds {quiet : Prop} (n : Nat) (r : Result) (p : Part) : p.Winds quiet (p.completeRequest n r) [(n, r)] := by
  have hrel := p.completeRequest_releases n r
  have hanswered := p.completeRequest_answered n r
  refine ⟨p.completeRequest_serves n r, hrel.dir, hrel.jw, by rw [(p.completeRequest_owners n r).2.1],
    fun b hb _ hw => Part.completeRequest_unwaited hb n r hw, fun m hm => Part.heldOf_completeRequest (hm _ List.mem_cons_self).symm r p,
    fun _ => by rw [hanswered.board]; simp, fun _ _ h => h.completeRequest n r, fun _ hnone => ?_⟩
  rw [Part.completeRequest_none (hnone _ List.mem_cons_self)]

/-- R107: a waiting SYNC at the end of the drain, and what it completes with. -/
def SyncRecord.stoppedResult (y : SyncRecord) : Nat × Result := (y.seq, { outcome := .stopped, fields := y.fields })

theorem Part.endSync_winds {quiet : Prop} (y : SyncRecord) (p : Part) : p.Winds quiet (p.endSync y .stopped) [y.stoppedResult] := by
  have hserves := p.setEngine_serves { p.te with syncs := p.te.syncs.filter fun x => x.seq != y.seq } (List.Sublist.refl _)
    fun z hz => .inl (List.mem_of_mem_filter hz)
  exact (Part.Winds.nothing hserves rfl rfl rfl rfl rfl).trans (Part.completeRequest_winds _ _ _)

/-- R107, R140: a transaction with an origin slot at the end of the drain, and what it completes with. -/
def Transaction.stoppedResults (t : Transaction) : List (Nat × Result) := if t.origin.isSome then [(t.seq, t.result { outcome := .stopped })] else []

theorem Part.completeSlot_port (n : Nat) (r : Result) (p : Part) : (p.completeSlot n r).port = (p.completeRequest n r).port := by
  unfold Part.completeRequest
  cases h : p.heldOf n with
  | none => rw [Part.completeSlot_none h]
  | some x => rfl

/-- R107: a transaction ends STOPPED, its token freed. -/
theorem Part.finishTxn_stopped (t : Transaction) (p : Part) : p.finishTxn t { outcome := .stopped } =
    (Part.reportEnding t { outcome := .stopped } { p with te := { p.te with pool := p.te.pool.filter fun x => x.seq != t.seq } }).noteFinish t.seq false true := by
  show Part.noteFinish t.seq _ _ (Part.reportEnding t _ (Part.reserveToken t _ _)) = _
  rw [Part.reserveToken_frees fun _ _ h => absurd h (by simp)]
  rfl

/-- R98: the Transaction Engine hands a fault record on, or keeps it behind accesses that wait. -/
theorem Part.engineFault (f : FaultRecord) (p : Part) : (Part.raise .transactionEngine [.hand (.fault f)] p).board = p.board ∧
    ∀ b, b ≠ .serviceUnit → p.port.waits b = false → (Part.raise .transactionEngine [.hand (.fault f)] p).port.waits b = false := by
  unfold Part.raise
  split
  · next hwaits =>
    refine ⟨rfl, fun b _ hb => ?_⟩
    rw [show ({ p with port := p.port.park .transactionEngine [.hand (.fault f)] } : Part).port = p.port.park .transactionEngine [.hand (.fault f)] from rfl,
      WindowPort.park_waits fun e => absurd (hb.symm.trans (e ▸ hwaits)) (by decide)]
    exact hb
  · exact ⟨rfl, fun b hs hb => WindowPort.submit_unwaited hs _ hb⟩

theorem Part.finishTxn_winds (t : Transaction) (p : Part) :
    p.Winds (t.origin.isSome = true) (p.finishTxn t { outcome := .stopped }) t.stoppedResults := by
  have hserves := p.finishTxn_serves t { outcome := .stopped }
  let P : Part := { p with te := { p.te with pool := p.te.pool.filter fun x => x.seq != t.seq } }
  have hreported := P.reportEnding_facts t { outcome := .stopped }
  have hstopped := p.finishTxn_stopped t
  unfold Transaction.stoppedResults
  by_cases ho : t.origin.isSome = true
  · rw [if_pos ho]
    have hanswered := Part.finishTxn_answered (e := { outcome := .stopped }) rfl ho p
    have hport : (p.finishTxn t { outcome := .stopped }).port = (P.completeRequest t.seq (t.result { outcome := .stopped })).port := by
      rw [hstopped, ← Part.completeSlot_port]
      unfold Part.reportEnding
      rw [if_pos ho]
      rfl
    refine ⟨hserves, by rw [hanswered.part], by rw [hanswered.part], by rw [hanswered.part], fun b hb _ hw => ?_,
      fun m hm => ?_, fun _ => ?_, fun _ k h => ?_, fun _ hnone => ?_⟩
    · rw [hport]
      exact Part.completeRequest_unwaited (p := P) hb _ _ hw
    · rw [hstopped]
      exact hreported.heldOf m (hm _ List.mem_cons_self).symm
    · rw [hanswered.board]
      simp [Part.completionsOf, Part.heldOf]
    · have hP : P.RoomFor k := h.of_eq
      rw [hstopped]
      unfold Part.reportEnding
      rw [if_pos ho]
      exact (hP.completeSlot _ _).of_eq
    · rw [hport, Part.completeRequest_none (p := P) (hnone _ List.mem_cons_self)]
  · rw [if_neg ho]
    have hfault := P.engineFault (t.lateFailure { outcome := .stopped })
    have hraised : P.reportEnding t { outcome := .stopped } =
        Part.raise .transactionEngine [.hand (.fault (t.lateFailure { outcome := .stopped }))] P := by
      unfold Part.reportEnding
      rw [if_neg ho]
      exact if_neg (by simp)
    rw [hraised] at hstopped hreported
    generalize Part.raise .transactionEngine [.hand (.fault (t.lateFailure { outcome := .stopped }))] P = Q at *
    refine ⟨hserves, by rw [hstopped]; exact hreported.dir, by rw [hstopped]; exact hreported.jw, by rw [hstopped]; exact congrArg (·.aborts) hreported.te,
      fun b hb hs hw => ?_, fun m _ => ?_, fun _ => ?_, fun h => absurd h ho, fun h => absurd h ho⟩
    · rw [hstopped]
      exact hfault.2 b hs hw
    · rw [hstopped, Part.heldOf, Part.heldOf]
      show Q.board.held.find? _ = _
      rw [hfault.1]
    · rw [hstopped]
      show Q.board.completions = _
      rw [hfault.1]
      exact (List.append_nil _).symm

end Sys2Proof.Machine
end

section
/-! SUPPORT. The Transaction Engine, the units and the waiting DISMISS at the end of the drain (R45, R107, R173). -/

namespace Sys2Proof.Machine

/-! ## The SYNCs -/

theorem Part.endSync_te (y : SyncRecord) (o : ReqOutcome) (p : Part) :
    (p.endSync y o).te = { p.te with syncs := p.te.syncs.filter fun x => x.seq != y.seq } := (Part.completeRequest_owners _ _ _).2.1

/-- R107: the waiting SYNCs end. -/
theorem Part.endEachSync_facts {quiet : Prop} (l : List SyncRecord) (p : Part) :
    p.Winds quiet (l.foldl (fun q y => q.endSync y .stopped) p) (l.map SyncRecord.stoppedResult) ∧
    (l.foldl (fun q y => q.endSync y .stopped) p).um = p.um ∧ (l.foldl (fun q y => q.endSync y .stopped) p).te.pool = p.te.pool ∧
    ∀ z ∈ (l.foldl (fun q y => q.endSync y .stopped) p).te.syncs, z ∈ p.te.syncs ∧ z ∉ l := by
  refine ⟨?_, ?_⟩
  · have h := Part.Winds.foldl (quiet := quiet) (f := fun q y => q.endSync y .stopped) (g := fun y => [y.stoppedResult]) (xs := l)
      (fun y _ q => q.endSync_winds y) p
    rwa [← List.map_eq_flatMap] at h
  · induction l generalizing p with
    | nil => exact ⟨rfl, rfl, fun z hz => ⟨hz, List.not_mem_nil⟩⟩
    | cons y rest ih =>
      obtain ⟨hum, hpool, hsyncs⟩ := ih (p.endSync y .stopped)
      have hte := p.endSync_te y .stopped
      refine ⟨hum.trans (p.endSync_releases y .stopped).um, hpool.trans (by rw [hte]), fun z hz => ?_⟩
      obtain ⟨hz, hrest⟩ := hsyncs z hz
      rw [hte, List.mem_filter] at hz
      exact ⟨hz.1, fun h => (List.mem_cons.mp h).elim (fun e => absurd hz.2 (by rw [e]; simp)) hrest⟩

/-! ## The transactions -/

theorem Part.finishTxn_stopped_facts (t : Transaction) (p : Part) : (p.finishTxn t { outcome := .stopped }).um = p.um ∧
    (p.finishTxn t { outcome := .stopped }).te = { p.te with pool := p.te.pool.filter fun x => x.seq != t.seq } := by
  rw [Part.finishTxn_stopped]
  have h := Part.reportEnding_facts t { outcome := .stopped } { p with te := { p.te with pool := p.te.pool.filter fun x => x.seq != t.seq } }
  exact ⟨h.um, h.te⟩

/-- R107: transactions end STOPPED, one after another. -/
theorem Part.finishAll_stopped_facts (l : List Transaction) (p : Part) :
    p.Winds (∀ t ∈ l, t.origin.isSome = true) (p.finishAll l .stopped) (l.flatMap Transaction.stoppedResults) ∧
    (p.finishAll l .stopped).um = p.um ∧ (p.finishAll l .stopped).te.syncs = p.te.syncs ∧
    ∀ z ∈ (p.finishAll l .stopped).te.pool, z ∈ p.te.pool ∧ z ∉ l := by
  refine ⟨Part.Winds.foldl (f := fun q t => q.finishTxn t { outcome := .stopped }) (fun t ht q => (q.finishTxn_winds t).mono fun h => h t ht) p, ?_⟩
  induction l generalizing p with
  | nil => exact ⟨rfl, rfl, fun z hz => ⟨hz, List.not_mem_nil⟩⟩
  | cons t rest ih =>
    obtain ⟨hum, hsyncs, hpool⟩ := ih (p.finishTxn t { outcome := .stopped })
    obtain ⟨hum', hte⟩ := p.finishTxn_stopped_facts t
    refine ⟨hum.trans hum', hsyncs.trans (by rw [hte]), fun z hz => ?_⟩
    obtain ⟨hz, hrest⟩ := hpool z hz
    rw [hte, List.mem_filter] at hz
    exact ⟨hz.1, fun h => (List.mem_cons.mp h).elim (fun e => absurd hz.2 (by rw [e]; simp)) hrest⟩

/-- R98: those without an origin slot are recorded. -/
theorem Part.finishAll_stopped_logs {l : List Transaction} {p : Part} (hw : p.port.waits .transactionEngine = false) {t : Transaction} (ht : t ∈ l)
    (ho : t.origin = none) : ∃ (index : Nat) (seq : Word),
    (faultWrites p.base index seq (t.lateFailure { outcome := .stopped }) p.run.clock).Sublist (p.finishAll l .stopped).port.outstanding := by
  induction l generalizing p with
  | nil => exact absurd ht List.not_mem_nil
  | cons x rest ih =>
    have hwinds := p.finishTxn_winds x
    have hrest := ((p.finishTxn x { outcome := .stopped }).finishAll_stopped_facts rest).1.works
    rcases List.mem_cons.mp ht with rfl | ht
    · have h := (Part.reportEnding_facts t { outcome := .stopped } { p with te := { p.te with pool := p.te.pool.filter fun x => x.seq != t.seq } }).logs
        ho (by simp) rfl hw
      have hfirst : (faultWrites p.base p.svc.ringIndex p.svc.nextFault (t.lateFailure { outcome := .stopped }) p.run.clock).Sublist
          (p.finishTxn t { outcome := .stopped }).port.outstanding := by
        rw [Part.finishTxn_stopped]
        exact h
      exact ⟨_, _, hfirst.trans hrest.port.outstanding⟩
    · have h := ih (hwinds.waits _ (by simp) (by simp) hw) ht
      rw [hwinds.works.toWorks.base, hwinds.works.clock] at h
      exact h

/-! ## The units -/

/-- R107: no reservation and no acknowledgement stays. -/
def FieldUnit.released (u : FieldUnit) : FieldUnit := { u with reservations := [], pendingAck := none }

theorem Part.setPlace_winds {quiet : Prop} (a : Nat) (f : FieldUnit → FieldUnit) (p : Part) : p.Winds quiet (p.setPlace a f) [] := by
  obtain ⟨v, hv⟩ := p.setPlace_eq a f
  rw [hv]
  exact .nothing (p.setUnits_serves _) rfl rfl rfl rfl rfl

/-- R107: the units of a list are released. -/
def Part.releaseUnits (l : List Nat) (p : Part) : Part := l.foldl (fun q a => q.setPlace a FieldUnit.released) p

theorem Part.releaseUnits_facts {quiet : Prop} (l : List Nat) (p : Part) : p.Winds quiet (p.releaseUnits l) [] ∧ (p.releaseUnits l).te = p.te ∧
    (p.releaseUnits l).um.dismissWait = p.um.dismissWait ∧ ∀ a, (p.releaseUnits l).unitSlot a =
      if a ∈ l ∧ 1 ≤ a ∧ a ≤ 30 then { p.unitSlot a with place := (p.unitAt a).map FieldUnit.released } else p.unitSlot a := by
  induction l generalizing p with
  | nil => exact ⟨.refl p, rfl, rfl, fun a => (if_neg fun h => absurd h.1 List.not_mem_nil).symm⟩
  | cons b rest ih =>
    obtain ⟨hwinds, hte, hwait, hslot⟩ := ih (p.setPlace b FieldUnit.released)
    obtain ⟨v, hv⟩ := p.setPlace_eq b FieldUnit.released
    refine ⟨(p.setPlace_winds b _).trans hwinds, hte.trans (by rw [hv]), hwait.trans (by rw [hv]), fun a => (hslot a).trans ?_⟩
    have hstep := p.setPlace_slot b FieldUnit.released a
    by_cases hab : a = b
    · subst hab
      by_cases ha : 1 ≤ a ∧ a ≤ 30
      · rw [if_pos ⟨rfl, ha⟩] at hstep
        rw [if_pos (c := a ∈ a :: rest ∧ 1 ≤ a ∧ a ≤ 30) ⟨List.mem_cons_self, ha⟩, Part.unitAt, hstep]
        split
        · rw [Option.map_map]
          rfl
        · rfl
      · rw [if_neg fun h => ha h.2] at hstep
        rw [if_neg fun h => ha h.2, if_neg fun h => ha h.2, hstep]
    · rw [if_neg fun h => hab h.1] at hstep
      rw [Part.unitAt, hstep]
      exact if_congr (by simp [hab]) rfl rfl

theorem Part.updateUnit_releases (a : Nat) (p : Part) :
    p.updateUnit a (fun u => { u with reservations := [], pendingAck := none }) = p.setPlace a FieldUnit.released :=
  Part.updateUnit_silent (f := FieldUnit.released) (fun _ => rfl) (fun u => by simp [unitBitChange, FieldUnit.released]) p

/-! ## The notice up to the journal -/

/-- R107: a transaction that ends with the drain. -/
def Transaction.stops (t : Transaction) : Bool := t.state != .sending

theorem Transaction.stops_iff {t : Transaction} : t.stops = true ↔ t.state ≠ .sending := by
  unfold Transaction.stops
  exact bne_iff_ne

/-- R107: what the Transaction Engine and the units make of the notice. -/
structure Part.Stopped (p q : Part) : Prop where
  winds : p.Winds (∀ t ∈ p.te.pool.filter Transaction.stops, t.origin.isSome = true) q
    (p.te.syncs.map SyncRecord.stoppedResult ++ (p.te.pool.filter Transaction.stops).flatMap Transaction.stoppedResults)
  syncs : q.te.syncs = []
  pool : ∀ t ∈ q.te.pool, t ∈ p.te.pool ∧ t.state = .sending
  sending : (p.te.pool.map (·.seq)).Nodup → q.te.pool = p.te.pool.filter fun t => !t.stops
  dismissWait : q.um.dismissWait = p.um.dismissWait
  slots : ∀ a, 1 ≤ a ∧ a ≤ 30 → q.unitSlot a = { p.unitSlot a with place := (p.unitAt a).map FieldUnit.released }
  logs : p.port.waits .transactionEngine = false → ∀ t ∈ p.te.pool, t.state ≠ .sending → t.origin = none → ∃ (index : Nat) (seq : Word),
    (faultWrites p.base index seq (t.lateFailure { outcome := .stopped }) p.run.clock).Sublist q.port.outstanding

theorem Part.drainTransactions_stopped (p : Part) : p.Stopped p.drainTransactions := by
  have hsynced := p.endEachSync_facts (quiet := ∀ t ∈ p.te.pool.filter Transaction.stops, t.origin.isSome = true) p.te.syncs
  have hdef : p.drainTransactions = (Part.finishAll
      ((p.te.syncs.foldl (fun q y => q.endSync y .stopped) p).te.pool.filter Transaction.stops) .stopped
      (p.te.syncs.foldl (fun q y => q.endSync y .stopped) p)).releaseUnits unitAddresses := by
    unfold Part.drainTransactions Part.releaseUnits
    simp only [Part.updateUnit_releases]
    rfl
  generalize p.te.syncs.foldl (fun q y => q.endSync y .stopped) p = S at *
  obtain ⟨hSwinds, hSum, hSpool, hSsyncs⟩ := hsynced
  rw [hSpool] at hdef
  obtain ⟨hEwinds, hEum, hEsyncs, hEpool⟩ := S.finishAll_stopped_facts (p.te.pool.filter Transaction.stops)
  have hElogs := fun hw t => Part.finishAll_stopped_logs (l := p.te.pool.filter Transaction.stops) (p := S) hw (t := t)
  have hEte := fun h => (Part.finishWhere_ends (p := S) (f := Transaction.stops) (o := .stopped) h).2
  rw [hSpool] at hEte hEpool
  generalize S.finishAll (p.te.pool.filter Transaction.stops) .stopped = E at *
  obtain ⟨hUwinds, hUte, hUwait, hUslot⟩ := E.releaseUnits_facts (quiet := ∀ t ∈ p.te.pool.filter Transaction.stops, t.origin.isSome = true) unitAddresses
  rw [hdef]
  generalize E.releaseUnits unitAddresses = U at *
  have hum : E.um = p.um := hEum.trans hSum
  refine ⟨?winds, ?syncs, fun t ht => ?pool, fun h => by rw [hUte, hEte h], by rw [hUwait, hum], fun a ha => ?slots, fun hw t ht hstate ho => ?logs⟩
  case winds =>
    have h := (hSwinds.trans hEwinds).trans hUwinds
    rwa [List.append_nil] at h
  case syncs =>
    rw [hUte, hEsyncs]
    exact List.eq_nil_iff_forall_not_mem.mpr fun z hz => (hSsyncs z hz).2 (hSsyncs z hz).1
  case pool =>
    rw [hUte] at ht
    obtain ⟨hin, hnot⟩ := hEpool t ht
    exact ⟨hin, by_contra fun hs => hnot (List.mem_filter.mpr ⟨hin, Transaction.stops_iff.mpr hs⟩)⟩
  case slots =>
    rw [hUslot, if_pos ⟨mem_unitAddresses.mpr ha, ha⟩, Part.unitAt, Part.unitSlot_of_um hum, Part.unitAt]
  case logs =>
    obtain ⟨index, seq, h⟩ := hElogs (hSwinds.waits _ (by simp) (by simp) hw) t (List.mem_filter.mpr ⟨ht, Transaction.stops_iff.mpr hstate⟩) ho
    rw [hSwinds.works.toWorks.base, hSwinds.works.clock] at h
    exact ⟨index, seq, h.trans hUwinds.works.port.outstanding⟩

/-- R45: a waiting DISMISS at the end of the drain, and what it completes with. -/
def WaitingDismiss.stoppedResult (d : WaitingDismiss) : Nat × Result :=
  (d.seq, { outcome := .stopped, fields := [byteOf d.retired, byteOf d.ended] })

theorem Part.drainDismiss_winds {quiet : Prop} (p : Part) : p.Winds quiet p.drainDismiss (p.um.dismissWait.toList.map WaitingDismiss.stoppedResult) ∧
    p.drainDismiss.um = { p.um with dismissWait := none } := by
  unfold Part.drainDismiss
  cases hd : p.um.dismissWait with
  | none =>
    have hum : p.um = { p.um with dismissWait := none } := by rw [← hd]
    exact ⟨.refl p, hum⟩
  | some d =>
    exact ⟨(Part.Winds.nothing (p.setUnits_serves { p.um with dismissWait := none }) rfl rfl rfl rfl rfl).trans (Part.completeRequest_winds _ _ _),
      (Part.completeRequest_releases _ _ _).um⟩

theorem Part.drainBoard_winds {quiet : Prop} (p : Part) : p.Winds quiet p.drainBoard p.heldResults := by
  have h := Part.Winds.foldl (quiet := quiet) (f := fun q (x : Nat × Result) => q.completeRequest x.1 x.2) (g := fun x => [x]) (xs := p.heldResults)
    (fun x _ q => q.completeRequest_winds x.1 x.2) p
  rw [List.flatMap_singleton'] at h
  rwa [Part.drainBoard_eq]

/-- R173: what completes STOPPED before the pages. -/
def Part.noticeResults (p : Part) : List (Nat × Result) :=
  p.heldResults ++ p.te.syncs.map SyncRecord.stoppedResult ++ (p.te.pool.filter Transaction.stops).flatMap Transaction.stoppedResults ++
    p.um.dismissWait.toList.map WaitingDismiss.stoppedResult

/-- What the notice leaves when it comes to the journal. -/
structure Part.Noticed (p q : Part) : Prop where
  winds : p.Winds (∀ t ∈ p.te.pool.filter Transaction.stops, t.origin.isSome = true) q p.noticeResults
  syncs : q.te.syncs = []
  pool : ∀ t ∈ q.te.pool, t ∈ p.te.pool ∧ t.state = .sending
  sending : (p.te.pool.map (·.seq)).Nodup → q.te.pool = p.te.pool.filter fun t => !t.stops
  dismissWait : q.um.dismissWait = none
  slots : ∀ a, 1 ≤ a ∧ a ≤ 30 → q.unitSlot a = { p.unitSlot a with place := (p.unitAt a).map FieldUnit.released }
  logs : p.port.waits .transactionEngine = false → ∀ t ∈ p.te.pool, t.state ≠ .sending → t.origin = none → ∃ (index : Nat) (seq : Word),
    (faultWrites p.base index seq (t.lateFailure { outcome := .stopped }) p.run.clock).Sublist q.port.outstanding
  held : ∀ h : HeldRequest, p.heldOf h.seq = some h → h.owner = .boardController → p.Shows q (h.completion { outcome := .stopped } p.run.clock)
  dismiss : ∀ d, p.um.dismissWait = some d → (∀ x ∈ p.heldResults, x.1 ≠ d.seq) → (∀ y ∈ p.te.syncs, y.seq ≠ d.seq) →
    (∀ t ∈ p.te.pool, t.seq ≠ d.seq) → ∀ h, p.heldOf d.seq = some h → p.Shows q (h.completion d.stoppedResult.2 p.run.clock)

theorem Part.notice_noticed (p : Part) : p.Noticed p.drainBoard.drainTransactions.drainDismiss := by
  have hBwinds := p.drainBoard_winds (quiet := ∀ t ∈ p.te.pool.filter Transaction.stops, t.origin.isSome = true)
  have hBte : p.drainBoard.te = p.te := by rw [Part.drainBoard_eq, Part.completeEach_te]
  have hBum : p.drainBoard.um = p.um := by rw [Part.drainBoard_eq]; exact (p.completeEach_releases _).um
  have hBshows : ∀ h : HeldRequest, p.heldOf h.seq = some h → h.owner = .boardController →
      p.Shows p.drainBoard (h.completion { outcome := .stopped } p.run.clock) := fun h hh ho => by
    rw [Part.drainBoard_eq]
    refine Part.completeEach_shows_agreed (List.mem_map.mpr ⟨h, List.mem_filter.mpr ⟨List.mem_of_find?_eq_some hh, by simp [ho]⟩, rfl⟩) (fun x hx _ => ?_) hh
    obtain ⟨y, -, rfl⟩ := List.mem_map.mp hx
    rfl
  generalize p.drainBoard = B at *
  have hT := B.drainTransactions_stopped
  generalize B.drainTransactions = T at *
  obtain ⟨hDwinds, hDum⟩ := T.drainDismiss_winds (quiet := ∀ t ∈ p.te.pool.filter Transaction.stops, t.origin.isSome = true)
  have hDte := T.drainDismiss_te
  have hDshows : ∀ d, T.um.dismissWait = some d → ∀ h, T.heldOf d.seq = some h → T.Shows T.drainDismiss (h.completion d.stoppedResult.2 T.run.clock) :=
    fun d hd h hh => by
      unfold Part.drainDismiss
      rw [hd]
      exact Part.completeRequest_shows (p := { T with um := { T.um with dismissWait := none } }) hh
  generalize T.drainDismiss = D at *
  obtain ⟨hTwinds, hTsyncs, hTpool, hTsending, hTwait, hTslots, hTlogs⟩ := hT
  rw [hBte] at hTwinds hTpool hTsending hTlogs
  rw [hBum] at hTwait
  rw [hTwait] at hDwinds
  have hslot : ∀ a, B.unitSlot a = p.unitSlot a := fun a => Part.unitSlot_of_um hBum a
  have hworks := hTwinds.works.trans hDwinds.works
  refine ⟨?winds, by rw [hDte, hTsyncs], by rw [hDte]; exact hTpool, by rw [hDte]; exact hTsending, by rw [hDum], fun a ha => ?slots,
    fun hw t ht hs ho => ?logs, fun h hh ho => (hBshows h hh ho).after hworks.toWorks, fun d hd hheld hsyncs hpool h hh => ?dismiss⟩
  case winds =>
    have h := (hBwinds.trans hTwinds).trans hDwinds
    rwa [← List.append_assoc] at h
  case slots =>
    have h := hTslots a ha
    rw [Part.unitAt, hslot] at h
    have hsame : D.unitSlot a = T.unitSlot a := by
      unfold Part.unitSlot
      rw [hDum]
    exact hsame.trans h
  case logs =>
    obtain ⟨index, seq, h⟩ := hTlogs (hBwinds.waits _ (by simp) (by simp) hw) t ht hs ho
    rw [hBwinds.works.toWorks.base, hBwinds.works.clock] at h
    exact ⟨index, seq, h.trans hDwinds.works.port.outstanding⟩
  case dismiss =>
    have hBheld : B.heldOf d.seq = some h := (hBwinds.heldOf _ hheld).trans hh
    have hTheld : T.heldOf d.seq = some h := by
      refine (hTwinds.heldOf _ fun x hx => ?_).trans hBheld
      rcases List.mem_append.mp hx with hx | hx
      · obtain ⟨y, hy, rfl⟩ := List.mem_map.mp hx
        exact hsyncs y hy
      · obtain ⟨t, ht, hx⟩ := List.mem_flatMap.mp hx
        unfold Transaction.stoppedResults at hx
        split at hx
        · rw [List.mem_singleton.mp hx]
          exact hpool t (List.mem_of_mem_filter ht)
        · exact absurd hx List.not_mem_nil
    have h' := hDshows d (hTwait.trans hd) h hTheld
    rw [hTwinds.works.clock, hBwinds.works.clock] at h'
    exact h'.before (hBwinds.works.trans hTwinds.works).toWorks

end Sys2Proof.Machine
end

section
/-! SUPPORT. The journal at the end of the drain (R162), and what the resolution makes of what the notice has ended (R120, R121). -/

namespace Sys2Proof.Machine

/-! ## The journal -/

/-- R162: a page that was never opened, and what it completes with. -/
def Page.stoppedResult (g : Page) : Nat × Result := (g.seq, { outcome := if g.withdrawn = true then .aborted else .stopped })

/-- R146, R162: the result of the open page at the end of the drain. -/
def OpenPage.stoppedResult (o : OpenPage) : Result := o.lendResult (if o.count = 0 then .stopped else .ok)

/-- R162: what the notice leaves of the journal. -/
def JournalWriter.emptied (j : JournalWriter) : JournalWriter := { j with pages := [], opened := none, drained := true }

theorem Part.drainJournal_same (p : Part) : p.drainJournal.run = p.run ∧ p.drainJournal.line = p.line ∧ p.drainJournal.um = p.um ∧
    p.drainJournal.dir = p.dir ∧ p.drainJournal.jw = p.jw.emptied := by
  obtain ⟨hrun, -, hline, hum, hdir, hjw⟩ := Part.raise_owners .journalWriter p.jw.drainItems { p with jw := p.jw.emptied }
  exact ⟨hrun, hline, hum, hdir, hjw⟩

section
variable {p : Part} {g : Page} {rest : List Page} {o : OpenPage}

theorem JournalWriter.drainItems_opened {j : JournalWriter} (hp : j.pages = g :: rest) (ho : j.opened = some o) :
    j.drainItems = [Access.write g.addr.toNat o.head .silent].map Item.access ++
      ((g.seq, o.stoppedResult) :: rest.map Page.stoppedResult).map fun x => .hand (.complete x.1 x.2) := by
  unfold JournalWriter.drainItems
  rw [hp, ho]
  dsimp only
  rw [List.map_singleton, List.map_cons, List.map_map]
  rfl

/-- R162, R174: the head of the open page is written, or its write waits for room. -/
theorem Part.drainJournal_head (hp : p.jw.pages = g :: rest) (ho : p.jw.opened = some o) :
    Access.write g.addr.toNat o.head .silent ∈ p.drainJournal.port.outstanding := by
  have h := Part.raise_ofBlock .journalWriter [Access.write g.addr.toNat o.head .silent]
    (n := ((g.seq, o.stoppedResult) :: rest.map Page.stoppedResult).map fun x => .hand (.complete x.1 x.2))
    (by simp [Item.handed]) { p with jw := p.jw.emptied }
  rw [← JournalWriter.drainItems_opened hp ho] at h
  exact (((List.sublist_append_right _ _).trans h).trans (WindowPort.ofBlock_outstanding _ _)).subset List.mem_cons_self

/-- R162: with room the head of the open page is written first, and the pages complete in lending order. -/
theorem Part.drainJournal_roomy (hp : p.jw.pages = g :: rest) (ho : p.jw.opened = some o) (hroom : p.RoomFor 1) :
    p.drainJournal = Part.completeEach ((g.seq, o.stoppedResult) :: rest.map Page.stoppedResult)
      { p with jw := p.jw.emptied, port := p.port.with [.write g.addr.toNat o.head .silent] } := by
  have hitems := JournalWriter.drainItems_opened hp ho
  have hfits : p.port.Fits [.write g.addr.toNat o.head .silent] := hroom.fits (Nat.le_refl 1) rfl
  have hwaits : p.port.waits .journalWriter = false := WindowPort.not_waits hroom.1 _
  have hhas : p.port.hasRoom (.write g.addr.toNat o.head .silent) = true := (WindowPort.fits_cons hfits).1
  show Part.raise .journalWriter p.jw.drainItems { p with jw := p.jw.emptied } = _
  unfold Part.raise
  rw [if_neg (by show ¬ p.port.waits .journalWriter = true; rw [hwaits]; simp), hitems, List.map_singleton, List.singleton_append]
  unfold Part.raiseFree
  rw [if_pos (by exact hhas), Part.raiseFree_completions]
  rfl

end

/-! ## The writes of the first completion -/

/-- R122: where none is on its way, the writes of a completion are raised at once. -/
theorem Part.Roomy.completeRequest_first {p : Part} (h : p.Roomy) (hc : p.board.completions = []) {n : Nat} {x : HeldRequest} (hx : p.heldOf n = some x)
    (r : Result) : (p.completeRequest n r).port = p.port.with (completionWrites p.base x.slot r x.unmatched p.run.clock (.done x.slot)) := by
  have hroomy : Part.Roomy { p with board := { p.board with held := p.board.held.filter fun y => y.seq != n } } := h.of_eq
  rw [← Part.completeSlot_port]
  unfold Part.completeSlot
  rw [hx]
  dsimp only
  rw [hroomy.writeCompletion_eq]
  show p.port.with (Part.firstWrites _ _) = _
  unfold Part.firstWrites
  rw [if_pos (by exact hc)]
  rfl

/-! ## The resolution -/

/-- What holds before each piece of work in hand and after it holds after all of them. -/
theorem Part.resolve_invariant {I : Part → Prop} (hwork : ∀ (p : Part) (w : Work) (rest : List Work), p.port.later = w :: rest → I p → I (p.doNext w rest))
    (hfinish : ∀ (p : Part) (f : Finish) (rest : List Finish), I p → I (Part.resolveFinish f { p with board := { p.board with finishes := rest } }))
    {p : Part} (hp : I p) : I p.resolve := by
  unfold Part.resolve
  generalize 2 * (p.board.finishes.length + 2 * p.board.held.length + p.te.pool.length + p.port.later.length) = n
  induction n generalizing p with
  | zero => exact hp
  | succ n ih =>
    unfold Part.resolveSteps
    split
    · split
      · next w rest hw => exact ih (hwork p w rest hw hp)
      · next f rest _ hf => exact ih (hfinish p f rest hp)
      · exact hp
    · exact hp

/-- From `P` to `q` the waiters of finished items have been resolved: `P` has no SYNC that waits and no request held for a predecessor. -/
structure Part.Wound (P q : Part) : Prop where
  run : q.run = P.run
  line : q.line = P.line
  um : q.um = P.um
  dir : q.dir = P.dir
  jw : q.jw = P.jw
  aborts : q.te.aborts = P.te.aborts
  syncs : q.te.syncs = []
  pool : ∀ t ∈ q.te.pool, t.state = .sending
  held : q.NoneHeld
  later : ∀ w ∈ q.port.later, ∃ f l, w = .waiters f l

namespace Part.Wound

variable {P p q : Part}

/-- The records of the Board Controller change; no request more is held. -/
theorem of_board (h : P.Wound p) (b : BoardController) (hb : b.held = p.board.held) (hq : q = { p with board := b } := by rfl) : P.Wound q := by
  subst hq
  exact ⟨h.run, h.line, h.um, h.dir, h.jw, h.aborts, h.syncs, h.pool, fun x hx => h.held x (hb ▸ hx), h.later⟩

theorem setLater (h : P.Wound p) {l : List Work} (hl : ∀ w ∈ l, ∃ f l, w = .waiters f l) : P.Wound { p with port := { p.port with later := l } } :=
  ⟨h.run, h.line, h.um, h.dir, h.jw, h.aborts, h.syncs, h.pool, h.held, hl⟩

theorem finishTxn (h : P.Wound p) {t : Transaction} (ht : t ∈ p.te.pool) : P.Wound (p.finishTxn t { outcome := .skipped }) := by
  have hends := Part.finishTxn_ends ⟨t, ht, rfl⟩ ({ outcome := .skipped } : Ending)
  generalize p.finishTxn t { outcome := .skipped } = q at *
  refine ⟨hends.calm.run.trans h.run, hends.calm.line.trans h.line, (hends.frees fun _ _ he => absurd he (by simp)).trans h.um, hends.dir.trans h.dir,
    hends.jw.trans h.jw, ?_, ?_, fun x hx => ?_, hends.works.toAdopts.noneHeld h.held, by rw [hends.calm.later]; exact h.later⟩
  · rw [hends.te]
    exact h.aborts
  · rw [hends.te]
    exact h.syncs
  · rw [hends.te] at hx
    exact h.pool x (List.mem_of_mem_filter hx)

theorem mapTxn (h : P.Wound p) (n : Nat) : P.Wound (p.mapTxn n fun x => { x with pred := none }) := by
  refine ⟨h.run, h.line, h.um, h.dir, h.jw, h.aborts, h.syncs, fun x hx => ?_, h.held, h.later⟩
  obtain ⟨y, hy, rfl⟩ := List.mem_map.mp hx
  dsimp only
  split <;> exact h.pool y hy

/-- R100: no SYNC counts. -/
theorem countFinish (h : P.Wound p) (f : Finish) : p.countFinish f = p := by
  unfold Part.countFinish
  rw [h.syncs]
  split
  · show ({ p with te := { p.te with syncs := [] } } : Part) = p
    rw [← h.syncs]
  · rfl

/-- R120, R121: only a transaction can wait; it goes on, or ends SKIPPED. -/
theorem resolveWaiter (h : P.Wound p) (n : Nat) (b : Bool) (w : Nat) : P.Wound (p.resolveWaiter n b w) := by
  unfold Part.resolveWaiter
  rw [h.syncs]
  dsimp only [List.find?_nil]
  split
  · next t ht =>
    have ht : t ∈ p.te.pool := List.mem_of_find?_eq_some ht
    split
    · exact h
    · split
      · exact h.mapTxn w
      · exact h.finishTxn ht
  · next hnone => exact absurd hnone (by simp)
  · split
    · next x hx =>
      rw [if_neg fun hc => h.held x (List.mem_of_find?_eq_some hx) (by simp only [Bool.and_eq_true, beq_iff_eq] at hc; exact hc.1)]
      exact h
    · exact h

theorem resolveWaiters (h : P.Wound p) (f : Finish) (l : List Nat) : P.Wound (p.resolveWaiters f l) := by
  induction l generalizing p with
  | nil =>
    show P.Wound (p.countFinish f)
    rw [h.countFinish f]
    exact h
  | cons w rest ih =>
    unfold Part.resolveWaiters
    split
    · exact ih (h.resolveWaiter f.seq f.success w)
    · exact h.setLater fun x hx => (List.mem_append.mp hx).elim (h.later x) fun hx => ⟨f, w :: rest, List.mem_singleton.mp hx⟩

theorem resolve (h : P.Wound p) : P.Wound p.resolve := by
  refine Part.resolve_invariant (I := P.Wound) (fun q w rest hw hq => ?work) (fun q f rest hq => ?finish) h
  case work =>
    obtain ⟨f, l, rfl⟩ := hq.later w (by rw [hw]; exact List.mem_cons_self)
    have hdone := (hq.setLater (l := []) fun x hx => absurd hx List.not_mem_nil).resolveWaiters f l
    exact hdone.setLater fun x hx => (List.mem_append.mp hx).elim (hdone.later x) fun hx => hq.later x (by rw [hw]; exact List.mem_cons_of_mem _ hx)
  case finish => exact Part.Wound.resolveWaiters (hq.of_board { q.board with finishes := rest, registry := q.board.registry.filter fun e => e.2 != f.seq } rfl) f _

end Part.Wound

end Sys2Proof.Machine
end

section
/-! SUPPORT. The end of a drain, with the resolution of what it ends (R107, R125, R162, R173), and the statement about it. -/

namespace Sys2Proof.Machine

/-! ## What the end of a drain leaves -/

/-- R162, R174: with room the head of the open page is written first, and the pages complete behind everything else. -/
structure Part.DrainsPages (p t : Part) (g : Page) (rest : List Page) (o : OpenPage) : Prop where
  completions : t.board.completions = p.board.completions ++
    (p.noticeResults ++ (g.seq, o.stoppedResult) :: rest.map Page.stoppedResult).flatMap fun x => p.completionsOf x.1 x.2
  writes : ∀ h : HeldRequest, p.board.completions = [] → (∀ x ∈ p.noticeResults, p.heldOf x.1 = none) → p.heldOf g.seq = some h →
    p.port.fifo ++ .write g.addr.toNat o.head .silent ::
      completionWrites p.base h.slot o.stoppedResult h.unmatched p.run.clock (.done h.slot) <+: t.port.fifo

/-- R173: what the notice of the end of the drain leaves, the finishes it brings resolved. -/
structure Part.DrainEnds (p t : Part) : Prop where
  works : p.Works t
  run : t.run = p.run
  line : t.line = { p.line with choice := none }
  dir : t.dir = p.dir
  jw : t.jw = p.jw.emptied
  syncs : t.te.syncs = []
  aborts : t.te.aborts = p.te.aborts
  pool : ∀ x ∈ t.te.pool, x.state = .sending
  kept : (p.te.pool.map (·.seq)).Nodup → (∀ n, ¬ p.Waits n) → t.te.pool = p.te.pool.filter fun x => x.state == .sending
  dismissWait : t.um.dismissWait = none
  slots : ∀ a, 1 ≤ a ∧ a ≤ 30 → t.unitSlot a = { p.unitSlot a with place := (p.unitAt a).map FieldUnit.released }
  held : t.NoneHeld
  finishes : t.port.waiting = [] → t.board.finishes = []
  sweep : t.board.sweep = p.board.sweep
  stops : ∀ h : HeldRequest, p.heldOf h.seq = some h → h.owner = .boardController → p.Shows t (h.completion { outcome := .stopped } p.run.clock)
  dismiss : ∀ d, p.um.dismissWait = some d → (∀ x ∈ p.heldResults, x.1 ≠ d.seq) → (∀ y ∈ p.te.syncs, y.seq ≠ d.seq) →
    (∀ x ∈ p.te.pool, x.seq ≠ d.seq) → ∀ h, p.heldOf d.seq = some h → p.Shows t (h.completion d.stoppedResult.2 p.run.clock)
  logs : ∀ x ∈ p.te.pool, x.state ≠ .sending → x.origin = none → ∃ (index : Nat) (seq : Word),
    (faultWrites p.base index seq (x.lateFailure { outcome := .stopped }) p.run.clock).Sublist t.port.outstanding
  completions : (p.noticeResults.map Prod.fst).Nodup →
    p.board.completions ++ (p.noticeResults.flatMap fun x => p.completionsOf x.1 x.2) <+: t.board.completions
  head : ∀ g rest o, p.jw.pages = g :: rest → p.jw.opened = some o → Access.write g.addr.toNat o.head .silent ∈ t.port.outstanding
  pages : ∀ g rest o, p.jw.pages = g :: rest → p.jw.opened = some o → (∀ n, ¬ p.Waits n) → p.RoomFor 1 →
    (∀ x ∈ p.te.pool.filter Transaction.stops, x.origin.isSome = true) → ((p.noticeResults.map Prod.fst) ++ (g :: rest).map (·.seq)).Nodup →
    p.DrainsPages t g rest o

/-- R162: the pages complete behind the notice's other completions. -/
theorem Part.Noticed.drainsPages {p N : Part} (hN : p.Noticed N) {g : Page} {rest : List Page} {o : OpenPage} (hp : p.jw.pages = g :: rest)
    (ho : p.jw.opened = some o) (hroom : p.RoomFor 1) (horigins : ∀ x ∈ p.te.pool.filter Transaction.stops, x.origin.isSome = true)
    (hnodup : ((p.noticeResults.map Prod.fst) ++ (g :: rest).map (·.seq)).Nodup) : p.DrainsPages N.drainJournal g rest o := by
  have hwinds := hN.winds
  have hNroom := hwinds.room horigins 1 hroom
  have hjournal := Part.drainJournal_roomy (by rw [hwinds.jw]; exact hp) (by rw [hwinds.jw]; exact ho) hNroom
  have hseqs : ((g.seq, o.stoppedResult) :: rest.map Page.stoppedResult).map Prod.fst = (g :: rest).map (·.seq) := by
    rw [List.map_cons, List.map_cons, List.map_map]
    rfl
  rw [List.nodup_append] at hnodup
  obtain ⟨hresults, hpages, happart⟩ := hnodup
  have hkept : ∀ x ∈ (g.seq, o.stoppedResult) :: rest.map Page.stoppedResult, N.heldOf x.1 = p.heldOf x.1 := fun x hx =>
    hwinds.heldOf x.1 fun y hy => happart y.1 (List.mem_map_of_mem hy) x.1 (hseqs ▸ List.mem_map_of_mem hx)
  rw [hjournal]
  refine ⟨?_, fun h hc hnone hh => ?_⟩
  · rw [Part.completeEach_completions (by rw [hseqs]; exact hpages), List.flatMap_append, ← List.append_assoc, ← hwinds.completions hresults]
    refine congrArg (N.board.completions ++ ·) (List.flatMap_congr fun x hx => ?_)
    show ((N.heldOf x.1).map fun h => h.completion x.2 N.run.clock).toList = _
    rw [hkept x hx, hwinds.works.clock]
    rfl
  · have hport := hwinds.silent horigins hnone
    have hNc : N.board.completions = [] := by
      rw [hwinds.completions hresults, hc, List.nil_append]
      exact List.flatMap_eq_nil_iff.mpr fun x hx => Part.completionsOf_none (hnone x hx) _
    have hNh : N.heldOf g.seq = some h := (hkept _ List.mem_cons_self).trans hh
    let M : Part := { N with jw := N.jw.emptied, port := N.port.with [.write g.addr.toNat o.head .silent] }
    have hMroomy : M.Roomy := ⟨hNroom.1, fun _ => by
      have hqueued := (WindowPort.with_queued (l := [.write g.addr.toNat o.head .silent]) (by simp [Access.isRead]) N.port).1
      have h2 := hNroom.2.1
      rw [if_pos hNc] at h2
      show (N.port.with _).writesQueued + 2 ≤ _
      rw [hqueued]
      simpa [Nat.add_assoc, Nat.add_comm, Nat.add_left_comm] using h2⟩
    have hfirst := hMroomy.completeRequest_first hNc hNh o.stoppedResult
    have hrest := ((M.completeRequest g.seq o.stoppedResult).completeEach_works (rest.map Page.stoppedResult)).port.fifo
    have hbase : M.base = p.base := by
      show N.base = _
      exact hwinds.works.toWorks.base
    rw [hfirst, hbase, show M.run.clock = p.run.clock from hwinds.works.clock] at hrest
    refine List.IsPrefix.trans ?_ hrest
    show _ <+: N.port.fifo ++ [_] ++ _
    rw [hport, List.append_assoc]
    exact List.prefix_rfl

/-- R173: the part once the notice has gone to the five blocks. -/
def Part.drainNoticed (p : Part) : Part := { p.drainRequests with line := { p.drainRequests.line with choice := none } }

theorem Part.endDrain_eq (p : Part) : p.endDrain = Part.drainNoticed { p with run := { p.run with drainEnded := true, drainTimer := none } } := by
  unfold Part.endDrain Part.drainNoticed
  generalize Part.drainRequests { p with run := { p.run with drainEnded := true, drainTimer := none } } = q
  rfl

theorem Part.drainNoticed_ends {p : Part} (hfree : p.port.free = true) : p.DrainEnds p.drainNoticed.resolve := by
  obtain ⟨hw, hl⟩ := WindowPort.free_iff.mp hfree
  have hN := p.notice_noticed
  have hcalm := p.drainRequests_calm
  have hnone := p.drainRequests_noneHeld
  have hserves := p.drainRequests_serves
  have hdef : p.drainNoticed = { p.drainRequests with line := { p.drainRequests.line with choice := none } } := rfl
  unfold Part.drainRequests at hdef hcalm hnone hserves
  generalize p.drainBoard.drainTransactions.drainDismiss = N at *
  have hJte := N.drainJournal_te
  obtain ⟨-, -, hJum, hJdir, hJjw⟩ := N.drainJournal_same
  have hNJ := N.drainJournal_serves
  have hJhead := fun g rest o => Part.drainJournal_head (p := N) (g := g) (rest := rest) (o := o)
  have hJpages := fun g rest o => hN.drainsPages (g := g) (rest := rest) (o := o)
  generalize N.drainJournal = J at *
  have hslot : ∀ a, J.unitSlot a = N.unitSlot a := fun a => Part.unitSlot_of_um hJum a
  have hElater : p.drainNoticed.port.later = [] := by rw [hdef]; exact hcalm.later.trans hl
  have hEwaits : ∀ n, p.drainNoticed.Waits n → p.Waits n := fun n h => by rw [hdef] at h; exact hcalm.waits n h
  have hEsyncs : p.drainNoticed.te.syncs = [] := by rw [hdef]; exact (congrArg (·.syncs) hJte).trans hN.syncs
  have hEworks : J.Works p.drainNoticed := by rw [hdef]; exact (J.setLine_serves _).toWorks
  have hquiet : (∀ n, ¬ p.Waits n) → p.drainNoticed.resolve = { p.drainNoticed with board := { p.drainNoticed.board with
      finishes := p.drainNoticed.resolve.board.finishes, registry := p.drainNoticed.resolve.board.registry } } := fun h =>
    Part.resolve_quiet hElater fun f _ => ⟨fun hf => h _ (hEwaits _ hf), .inr fun y hy => absurd hy (by rw [hEsyncs]; exact List.not_mem_nil)⟩
  have hwound : p.drainNoticed.Wound p.drainNoticed.resolve := Part.Wound.resolve ⟨rfl, rfl, rfl, rfl, rfl, rfl, hEsyncs, fun x hx => by
      rw [hdef] at hx
      exact (hN.pool x (by rw [← hJte]; exact hx)).2, by rw [hdef]; exact hnone, fun w h => absurd h (by rw [hElater]; exact List.not_mem_nil)⟩
  have hresolve := p.drainNoticed.resolve_works
  have hfinishes := fun h => (p.drainNoticed.resolve_finishes h).2
  have hsweep := (Part.resolve_leavesSweep (p := p.drainNoticed) (by rw [hElater]; exact List.not_mem_nil)).sweepState
  have hJN : ∀ {c}, p.Shows N c → p.Shows p.drainNoticed.resolve c := fun h => ((h.after hNJ.toWorks).after hEworks).after hresolve
  have hEJ : p.drainNoticed.port = J.port ∧ p.drainNoticed.board = J.board ∧ p.drainNoticed.te = J.te := by rw [hdef]; exact ⟨rfl, rfl, rfl⟩
  have hsame : p.drainNoticed.run = p.run ∧ p.drainNoticed.line = { p.line with choice := none } ∧ p.drainNoticed.um = N.um ∧
      p.drainNoticed.dir = p.dir ∧ p.drainNoticed.jw = p.jw.emptied := by
    rw [hdef]
    exact ⟨hcalm.run, by rw [hcalm.line], hJum, hJdir.trans hN.winds.dir, by rw [← hN.winds.jw]; exact hJjw⟩
  generalize p.drainNoticed.resolve = T at *
  generalize p.drainNoticed = E at *
  obtain ⟨hEport, hEboard, hEte⟩ := hEJ
  obtain ⟨hErun, hEline, hEum, hEdir, hEjw⟩ := hsame
  have hNT : N.Works T := (hNJ.toWorks.trans hEworks).trans hresolve
  have hTslot : ∀ a, T.unitSlot a = N.unitSlot a := fun a => Part.unitSlot_of_um (hwound.um.trans hEum) a
  refine ⟨hN.winds.works.toWorks.trans hNT, hwound.run.trans hErun, hwound.line.trans hEline, hwound.dir.trans hEdir, hwound.jw.trans hEjw, hwound.syncs,
    ?aborts, hwound.pool, fun hnodup hwaits => ?kept, by rw [hwound.um, hEum, hN.dismissWait], fun a ha => (hTslot a).trans (hN.slots a ha), hwound.held,
    hfinishes, ?sweep, fun h hh ho => hJN (hN.held h hh ho), fun d hd h1 h2 h3 h hh => hJN (hN.dismiss d hd h1 h2 h3 h hh), fun x hx hs ho => ?logs,
    fun hnodup => ?completions, fun g rest o hp ho => ?head, fun g rest o hp ho hwaits hroom horigins hnodup => ?pages⟩
  case aborts => rw [hwound.aborts, hEte, hJte, hN.winds.aborts]
  case kept =>
    have hpool : T.te.pool = N.te.pool := by rw [hquiet hwaits, hEte, hJte]
    rw [hpool, hN.sending hnodup]
    refine List.filter_congr fun x _ => ?_
    unfold Transaction.stops
    rw [bne, Bool.not_not]
  case sweep =>
    have h := hsweep.trans ((congrArg BoardController.sweepState hEboard).trans hserves.sweepState)
    exact congrArg (·.1) h
  case logs =>
    obtain ⟨index, seq, h⟩ := hN.logs (WindowPort.not_waits hw _) x hx hs ho
    exact ⟨index, seq, h.trans hNT.port.outstanding⟩
  case completions =>
    rw [← hN.winds.completions hnodup]
    exact hNT.completions
  case head =>
    exact (hEworks.trans hresolve).port.outstanding.subset (hJhead g rest o (by rw [hN.winds.jw]; exact hp) (by rw [hN.winds.jw]; exact ho))
  case pages =>
    obtain ⟨hcompletions, hwrites⟩ := hJpages g rest o hp ho hroom horigins hnodup
    have hT := hquiet hwaits
    refine ⟨?_, fun h hc hnone' hh => ?_⟩
    · rw [hT, ← hcompletions, ← hEboard]
    · rw [hT]
      show _ <+: E.port.fifo
      rw [hEport]
      exact hwrites h hc hnone' hh

end Sys2Proof.Machine
end

section
/-! SUPPORT. The statement about the end of a drain: at a STOP, at the drain timer, and with the step that leaves nothing to wait for (R107, R125, R162, R172, R173). -/

namespace Sys2Proof.Machine

/-! ## The rows at which a drain ends -/

/-- R172, R173: in the row `c` of `s` the notice goes out, the part being `P` before it: `s` but for its run and its sweep. -/
structure State.NotifiesAt (s : State) (c : Instr) (P : Part) : Prop where
  exec : exec c s = .next { s with part := P.drainNoticed.resolve }
  run : P.run = { s.part.run with
    partState := .draining, drainEnded := true, drainTimer := none, refused := if c = .stop then false else s.part.run.refused }
  sweep : P.board.sweep = if c = .stop then s.part.board.sweep.stop else s.part.board.sweep
  port : P.port = s.part.port
  te : P.te = s.part.te
  um : P.um = s.part.um
  dir : P.dir = s.part.dir
  jw : P.jw = s.part.jw
  line : P.line = s.part.line
  held : P.board.held = s.part.board.held
  completions : P.board.completions = s.part.board.completions

theorem Part.closeDrain_closes {p : Part} (hd : p.run.partState = .draining) (he : p.run.drainEnded = false) (hdone : p.drainDone = true)
    (hfree : p.port.free = true) :
    p.closeDrain = Part.resolve (Part.drainNoticed { p with run := { p.run with drainEnded := true, drainTimer := none } }) := by
  unfold Part.closeDrain
  rw [if_pos ⟨hd, he, hdone, hfree⟩, Part.endDrain_eq]

/-- R172: a STOP that finds nothing left to wait for. -/
theorem State.notifies_stop {s : State} (hr : s.part.run.partState = .running) (hf : s.part.board.finishes = []) (hport : s.PortFree)
    (hdone : s.part.drainDone = true) : ∃ P, s.NotifiesAt .stop P := by
  have hfree : s.part.port.free = true := WindowPort.free_iff.mpr hport
  have hsettle : s.part.beginDrain.settle =
      Part.resolve (Part.drainNoticed { s.part.beginDrain with run := { s.part.beginDrain.run with drainEnded := true, drainTimer := none } }) := by
    unfold Part.settle
    rw [Part.resolve_eq_self (p := s.part.beginDrain) hport.2 hf]
    exact Part.closeDrain_closes (p := s.part.beginDrain) rfl rfl hdone hfree
  refine ⟨{ s.part.beginDrain with run := { s.part.beginDrain.run with drainEnded := true, drainTimer := none } }, ⟨?_, rfl, rfl, rfl, rfl, rfl, rfl, rfl, rfl, rfl, rfl⟩⟩
  rw [exec_stop_accepted hr, State.onBlocks_eq hfree, State.onPart, hsettle]

/-- R173: the drain timer has expired. -/
theorem State.notifies_drainTimer {s : State} (hd : s.part.run.partState = .draining) (he : s.part.run.drainEnded = false) (hport : s.PortFree) {d : Word}
    (htimer : s.part.run.drainTimer = some d) (hreached : reached s.part.run.clock d = true) : ∃ P, s.NotifiesAt .drainTimer P := by
  have hexpired : s.part.drainExpired = true := by
    unfold Part.drainExpired
    rw [htimer, hd, he]
    exact hreached
  have hsettle : s.part.endDrain.settle = Part.resolve (Part.drainNoticed { s.part with run := { s.part.run with drainEnded := true, drainTimer := none } }) := by
    rw [Part.settle_eq_resolve (.inr (by rw [s.part.endDrain_facts.2.1])), Part.endDrain_eq]
  refine ⟨{ s.part with run := { s.part.run with drainEnded := true, drainTimer := none } }, ⟨?_, ?_, rfl, rfl, rfl, rfl, rfl, rfl, rfl, rfl, rfl⟩⟩
  · show execDrainTimer s = _
    unfold execDrainTimer
    rw [State.onBlocks_eq (WindowPort.free_iff.mpr hport), State.onPart, if_pos hexpired, hsettle]
  · show ({ s.part.run with drainEnded := true, drainTimer := none } : RunController) = _
    rw [← hd]
    rfl

/-! ## The results, as the statement lists them -/

theorem Transaction.stoppedResults_filter (l : List Transaction) : (l.filter Transaction.stops).flatMap Transaction.stoppedResults =
    (l.filter fun x => x.state != .sending && x.origin.isSome).map fun x => (x.seq, x.result { outcome := .stopped }) := by
  induction l with
  | nil => rfl
  | cons t rest ih =>
    have hstops : t.stops = (t.state != .sending) := rfl
    have hresults : t.stoppedResults = if t.origin.isSome then [(t.seq, t.result { outcome := .stopped })] else [] := rfl
    rw [List.filter_cons, List.filter_cons, hstops]
    by_cases hs : (t.state != .sending) = true
    · rw [if_pos hs, List.flatMap_cons, ih, hresults]
      by_cases ho : t.origin.isSome = true
      · rw [if_pos ho, if_pos (by rw [hs, ho]; rfl), List.map_cons]
        rfl
      · rw [if_neg ho, if_neg (by simp [ho])]
        rfl
    · rw [if_neg hs, if_neg (by simp [hs]), ih]

theorem Part.noticeResults_eq (p : Part) : p.noticeResults =
    ((p.board.held.filter fun h => h.owner == .boardController).map fun h => (h.seq, { outcome := .stopped })) ++
    (p.te.syncs.map fun y => (y.seq, { outcome := .stopped, fields := [byteOf y.captured, byteOf y.finished, byteOf y.failed] })) ++
    ((p.te.pool.filter fun x => x.state != .sending && x.origin.isSome).map fun x => (x.seq, x.result { outcome := .stopped })) ++
    (p.um.dismissWait.toList.map fun d => (d.seq, { outcome := .stopped, fields := [byteOf d.retired, byteOf d.ended] })) := by
  unfold Part.noticeResults
  rw [Transaction.stoppedResults_filter]
  rfl

theorem Part.mem_heldResults {p : Part} {x : Nat × Result} (h : x ∈ p.heldResults) : ∃ y ∈ p.board.held, y.owner = .boardController ∧ y.seq = x.1 := by
  obtain ⟨y, hy, rfl⟩ := List.mem_map.mp h
  exact ⟨y, List.mem_of_mem_filter hy, by simpa using List.of_mem_filter hy, rfl⟩

/-- R122: completions of the same requests at the same clock. -/
theorem Part.completions_written {p q : Part} (hheld : q.board.held = p.board.held) (hclock : q.run.clock = p.run.clock) (l : List (Nat × Result)) :
    (l.flatMap fun x => q.completionsOf x.1 x.2) = l.filterMap fun x => (p.heldOf x.1).map fun h =>
      { slot := h.slot, unmatched := h.unmatched, result := x.2, time := p.run.clock } := by
  rw [← Part.completionsOf_filterMap]
  refine List.flatMap_congr fun x _ => ?_
  rw [Part.completionsOf, Part.completionsOf, Part.heldOf, Part.heldOf, hheld, hclock]

/-- Room for three writes is room for one behind the next completion. -/
theorem State.PortRoom.roomFor {s : State} {P : Part} (h : s.PortRoom 3 0) (hport : P.port = s.part.port) : P.RoomFor 1 := by
  obtain ⟨hw, -, hwrites, hreads⟩ := h
  refine ⟨hport ▸ hw, ?_, hport ▸ hreads⟩
  rw [hport]
  split <;> omega

/-! ## The drain that its last step ends -/

theorem Part.closeDrain_open {p : Part} (h : ¬ (p.run.partState = .draining ∧ p.run.drainEnded = false ∧ p.te.pool = [] ∧ p.te.syncs = [] ∧
    p.te.aborts = [] ∧ p.um.dismissWait = none)) : p.closeDrain = p := by
  unfold Part.closeDrain
  exact if_neg fun ⟨h1, h2, h3, _⟩ => h ⟨h1, h2, (Part.drainDone_iff p).mp h3⟩

/-- R125, R172, R173: the drain ends with the step that leaves nothing to wait for. -/
theorem Part.closeDrain_ends {p : Part} (hfree : p.port.free = true) (hd : p.run.partState = .draining) (he : p.run.drainEnded = false)
    (hpool : p.te.pool = []) (hsyncs : p.te.syncs = []) (haborts : p.te.aborts = []) (hum : p.um.dismissWait = none) :
    Part.DrainEnds { p with run := { p.run with drainEnded := true, drainTimer := none } } p.closeDrain ∧ p.closeDrain.te = p.te ∧
    Part.noticeResults { p with run := { p.run with drainEnded := true, drainTimer := none } } = p.heldResults := by
  have hte : p.te = {} := by
    rcases hp : p.te with ⟨pool, syncs, aborts⟩
    rw [hp] at hpool hsyncs haborts
    subst hpool hsyncs haborts
    rfl
  refine ⟨?_, (Part.closeDrain_ended hd he hte hum hfree).te.trans hte.symm, ?_⟩
  · rw [Part.closeDrain_closes hd he ((Part.drainDone_iff p).mpr ⟨hpool, hsyncs, haborts, hum⟩) hfree]
    exact Part.drainNoticed_ends (p := { p with run := { p.run with drainEnded := true, drainTimer := none } }) hfree
  · unfold Part.noticeResults
    rw [show ({ p with run := { p.run with drainEnded := true, drainTimer := none } } : Part).te = {} from hte,
      show ({ p with run := { p.run with drainEnded := true, drainTimer := none } } : Part).um.dismissWait = none from hum]
    exact (List.append_nil _).trans ((List.append_nil _).trans (List.append_nil _))

/-- Settles O13. -/
theorem drainEndsAtOnceOrAtItsTimer : Obligations.DrainEndsAtOnceOrAtItsTimer := by
  unfold Obligations.DrainEndsAtOnceOrAtItsTimer
  refine ⟨fun s c results hf hport hc hresults => ?row, fun p hf hw hl => ⟨Part.closeDrain_open, fun hd he hpool hsyncs haborts hum => ?step⟩⟩
  case row =>
    obtain ⟨P, hP⟩ : ∃ P, s.NotifiesAt c P := by
      rcases hc with ⟨rfl, hr, h1, h2, h3, h4⟩ | ⟨rfl, hd, he, d, htimer, hreached⟩
      · exact State.notifies_stop hr hf hport ((Part.drainDone_iff s.part).mpr ⟨h1, h2, h3, h4⟩)
      · exact State.notifies_drainTimer hd he hport htimer hreached
    obtain ⟨hexec, hrun, hsweep, hPport, hPte, hPum, hPdir, hPjw, hPline, hPheld, hPcompletions⟩ := hP
    have hends := Part.drainNoticed_ends (p := P) (by rw [hPport]; exact WindowPort.free_iff.mpr hport)
    generalize P.drainNoticed.resolve = T at *
    have hclock : P.run.clock = s.part.run.clock := by rw [hrun]
    have hbase : P.base = s.part.base := by
      unfold Part.base
      rw [hrun]
    have hheldOf : ∀ n, P.heldOf n = s.part.heldOf n := fun n => by rw [Part.heldOf, Part.heldOf, hPheld]
    have hslot : ∀ a, P.unitSlot a = s.part.unitSlot a := fun a => Part.unitSlot_of_um hPum a
    have hwaits : ∀ n, P.Waits n → s.part.Waits n := fun n => by
      unfold Part.Waits
      rw [hPheld, hPte]
      exact id
    have hlist : P.noticeResults = results := by rw [Part.noticeResults_eq, hPheld, hPte, hPum, hresults]
    have hcompletes : ∀ n res, (∀ x, P.heldOf n = some x → P.Shows T (x.completion res P.run.clock)) → s.Completes { s with part := T } n res :=
      fun n res h => Part.Shows.completes hends.works hPcompletions hbase hclock (.refl T) fun x hx => h x ((hheldOf n).trans hx)
    have hwritten := fun l => Part.completions_written hPheld hclock l
    refine ⟨{ s with part := T }, hexec, rfl, rfl, hends.run.trans hrun, by rw [hends.line, hPline], hends.dir.trans hPdir, hends.syncs,
      by rw [hends.aborts, hPte], hends.pool, fun hdistinct hnone => ?kept, hends.dismissWait, by rw [hends.jw]; rfl, by rw [hends.jw]; rfl,
      by rw [hends.jw]; rfl, hends.held, hends.finishes, hends.sweep.trans hsweep, fun a ha => ?slots, fun h hh ho => ?held,
      fun d hd h1 h2 h3 => ?dismiss, fun x hx hs ho => ?logs, fun hnodup => ?completions, fun g rest o hp ho => ?head,
      fun g rest o r hp ho hnone hroom horigins hnodup hr => ?pages⟩
    case kept =>
      have h := hends.kept (by rw [hPte]; exact hdistinct.1) fun n hn => hnone n (hwaits n hn)
      rwa [hPte] at h
    case slots =>
      have h := hends.slots a ha
      rw [Part.unitAt, hslot] at h
      exact h
    case held =>
      refine hcompletes _ _ fun x hx => ?_
      have hh' : P.heldOf h.seq = some h := (hheldOf _).trans hh
      obtain rfl := Option.some.inj (hx.symm.trans hh')
      exact hends.stops x hh' ho
    case dismiss =>
      refine hcompletes _ _ (hends.dismiss d (by rw [hPum]; exact hd) (fun x hx e => ?_) (by rw [hPte]; exact h3) (by rw [hPte]; exact h2))
      obtain ⟨y, hy, hyo, hys⟩ := Part.mem_heldResults hx
      exact h1 y (hPheld ▸ hy) hyo (hys.trans e)
    case logs =>
      obtain ⟨index, seq, h⟩ := hends.logs x (by rw [hPte]; exact hx) hs ho
      rw [hbase, hclock] at h
      exact ⟨index, seq, h⟩
    case completions =>
      have h := hends.completions (by rw [hlist]; exact hnodup)
      rwa [hwritten, hlist, hPcompletions] at h
    case head => exact hends.head g rest o (by rw [hPjw]; exact hp) (by rw [hPjw]; exact ho)
    case pages =>
      obtain rfl : r = o.stoppedResult := hr
      have horigin : ∀ x ∈ P.te.pool.filter Transaction.stops, x.origin.isSome = true := fun x hx => by
        rw [hPte] at hx
        exact horigins x (List.mem_of_mem_filter hx) (Transaction.stops_iff.mp (List.of_mem_filter hx))
      obtain ⟨hall, hwrites⟩ := hends.pages g rest o (by rw [hPjw]; exact hp) (by rw [hPjw]; exact ho) (fun n hn => hnone n (hwaits n hn))
        (hroom.roomFor hPport) horigin (by rw [hlist]; exact hnodup)
      rw [hwritten, hlist, hPcompletions] at hall
      refine ⟨hall, fun h hcom hothers hh => ?_⟩
      have h' := hwrites h (hPcompletions.trans hcom) (by rw [hlist]; exact fun y hy => (hheldOf _).trans (hothers y hy)) ((hheldOf _).trans hh)
      rwa [hPport, hbase, hclock] at h'
  case step =>
    obtain ⟨hends, hte, hlist⟩ := Part.closeDrain_ends (WindowPort.free_iff.mpr ⟨hw, hl⟩) hd he hpool hsyncs haborts hum
    refine ⟨hends.run, hends.line, hends.dir, hte, hends.dismissWait, hends.jw, hends.slots, hends.held, hends.finishes, fun hnodup => ?_⟩
    have hseqs : p.heldResults.map Prod.fst = (p.board.held.filter fun h => h.owner == .boardController).map (·.seq) := List.map_map
    have h := hends.completions (by rw [hlist, hseqs]; exact hnodup)
    rw [hlist, Part.heldResults, List.flatMap_map, Part.completionsOf_filterMap] at h
    exact h

end Sys2Proof.Machine
end
